-- ==== Sys2Proof/Word.lean ====
section
/-! DEFINITION. The word and byte types (R5) and the plainest helpers on them. -/

namespace Sys2Proof

/-- A word: 64 bits, the unit that carries presence and watch bits (R5). -/
abbrev Word := BitVec 64

/-- A byte (R5). -/
abbrev Byte := BitVec 8

/-- Bits [hi:lo] of a number, as a number (R4: a bit range includes both ends). -/
def bitsNat (hi lo n : Nat) : Nat := n / 2 ^ lo % 2 ^ (hi - lo + 1)

/-- The XOR of all bits of a number of at most `w` bits. -/
def parityNat : Nat → Nat → Bool
  | 0, _ => false
  | w + 1, n => (n % 2 == 1) ^^ parityNat w (n / 2)

/-- Division rounding up. -/
def ceilDiv (a b : Nat) : Nat := (a + b - 1) / b

end Sys2Proof
end

