-- ==== Sys2Proof/Syntax.lean ====
section
/-! DEFINITION. The one inductive of operations: every row of the opcode table, an instruction (R42) or an event of a
unit (95_what_each_step_holds), with its operands. -/

namespace Sys2Proof

/-- Element and scale formats with the 4-bit codes of R52, in code order. -/
inductive Fmt where
  | i8 | n8 | i16 | n16 | i32 | n32 | i64 | n64 | f32 | f16 | bf16 | e4m3 | e5m2 | i4 | i3 | e8m0
deriving DecidableEq, Repr

/-- Rounding modes with the codes of R63, in code order. -/
inductive Rnd where
  | rne | rtz | rup | rdn
deriving DecidableEq, Repr

/-- Access widths of R152, in code order. -/
inductive Width where
  | b8 | b16 | b32 | b64
deriving DecidableEq, Repr

/-- Conditions of CMP and CMPI (R116), in code order. -/
inductive Cond where
  | eq | ne | lt | ge | ltu | geu | le | gt | leu | gtu | tst | ntst
deriving DecidableEq, Repr

/-- Conditions of VCMP (R282), in code order. -/
inductive VCond where
  | eq | ne | lt | ge | le | gt | uno | ord | tst
deriving DecidableEq, Repr

/-- Patterns of VSHUF (R284), in code order. -/
inductive Shuf where
  | ziplo | ziphi | unzipe | unzipo | ext | rev | bcast
deriving DecidableEq, Repr

/-- Operand signedness of MULH (R108), in code order. -/
inductive MulSign where
  | s | u | su
deriving DecidableEq, Repr

/-- Coordinates of PART (R89), in code order. -/
inductive PartCoord where
  | task | isle | quire | core | slot
deriving DecidableEq, Repr

/-- Barrier scopes (R362), in code order. -/
inductive BarScope where
  | lane | core | quire | isle | package | pod
deriving DecidableEq, Repr

/-- Atomic operations performed at a home (R181), the reductions (R184) and the element codes (R213) among them. -/
inductive AtomOp where
  | add | and | or | xor | minS | maxS | minU | maxU | xchg | cas | fadd | incw | fab
deriving DecidableEq, Repr

/-- The guarding predicate field (R37). -/
structure Guard where
  neg : Bool
  preg : BitVec 3
deriving DecidableEq, Repr

/-- A source field (R39): `trap` is the mode bit, `reg` an operand number (R38) or a predicate number. -/
structure Src where
  trap : Bool
  kill : Bool
  reg : BitVec 6
deriving DecidableEq, Repr

/-- An operand number in a destination field (R38). -/
abbrev Dst := BitVec 6

/-- The return tag of a packet (R227): core, slot, generation, register. -/
structure RetTag where
  core : Nat
  slot : Nat
  gen : Nat
  reg : Nat
deriving DecidableEq, Repr

/-- A gathered element (R212): `op` is the element code, `be` the byte enables, `off` the word's offset [42:3]. -/
structure Elem where
  op : BitVec 6
  be : BitVec 8
  off : BitVec 40
  value : Word
deriving DecidableEq, Repr

/-- What a request asks of the target package (R207). -/
inductive RemOp where
  | load (w : Width)
  | atom (op : AtomOp) (w : Width) (v c : Word)
  | mcas (targets : List (Nat × Word × Word))
  | enq (node : Word)
  | chase (o : Word) (hops : Nat)
  | probe (needR needW atomic : Bool) (w : Width)
deriving DecidableEq, Repr

/-- The packets of a data frame (R227); `kind` is that of a reply: 2, 4, 6 or 9. -/
inductive Packet where
  | gathered (els : List Elem)
  | request (tag : RetTag) (off : Nat) (op : RemOp)
  | reply (kind : Nat) (tag : RetTag) (status : Nat) (value : Word)
  | statuses (seq idx : Nat) (sts : List Nat)
  | reserved
deriving DecidableEq, Repr

/-- A frame as a receiver sees it (R226): `chan` is the channel of the port that received it, `tagOk` whether its tag verifies,
`occupied` how many of the port's ingress frame slots were in use on its arrival (R230), `late` the accesses, as packet and
element, that are accepted and reach their home only later (R218). -/
structure Frame where
  chan : Nat
  src : Nat
  job : Nat
  seq : Nat
  epoch : Nat
  epAdv : Nat
  ackValid : Bool
  ack : Nat
  echo : Bool
  nak : Bool
  badHeader : Bool
  tagOk : Bool
  occupied : Nat
  late : List (Nat × Nat)
  packets : List Packet
deriving DecidableEq, Repr

/-- An image that a boot step finds in a slot, 0 for A and 1 for B (R409): the version, the two public keys and the two
signatures that its header carries, the header and the payload. -/
structure BootImage where
  step : Nat
  slot : Nat
  version : Nat
  edKey : List Byte
  mlKey : List Byte
  edSig : List Byte
  mlSig : List Byte
  header : List Byte
  payload : List Byte
deriving DecidableEq, Repr

/-- A configuration block that a boot step reads (R410). -/
structure BootBlock where
  step : Nat
  slot : Nat
  version : Nat
  bytes : List Byte
deriving DecidableEq, Repr

/-- What the boot controller finds at a start (R406 to R410): failing steps, a step in which the start breaks off, what a power
loss left of the record's other copy, failing isles and cores, the stepping, images and configuration blocks, and the tables
of space 0xFFFF that it writes, with SPTBASE. -/
structure BootFinds where
  failOnce : List Nat
  failTwice : List Nat
  altFails : List Nat
  hangs : Option Nat
  torn : Option (Word × BitVec 32)
  deadIsles : List Nat
  badCores : List Nat
  stepping : BitVec 4
  images : List BootImage
  blocks : List BootBlock
  sptbase : Word
  tables : List (Nat × Word)
deriving DecidableEq, Repr

/-- Words 0 to 5 of a launch-port command block (R413). -/
structure PortCmd where
  w0 : Word
  w1 : Word
  w2 : Word
  w3 : Word
  w4 : Word
  w5 : Word
deriving DecidableEq, Repr

/-- How a page-engine command or a checkpoint ends on its far side (R402): accepted, an NVMe status at a page, or a
remote status at a page. -/
inductive FarEnd where
  | ok
  | nvme (page status : Nat)
  | peer (page status : Nat)
deriving DecidableEq, Repr

/-- The operations of the machine: one constructor per row of spec/opcode_table.json, in the table's order. -/
inductive Instr where
  -- thread and control (R80)
  | nop (g : Guard)
  | br (g : Guard) (disp : BitVec 40)
  | jmp (g : Guard) (t : Src)
  | call (g : Guard) (d : Dst) (slide : BitVec 2) (disp : BitVec 40)
  | callx (g : Guard) (d : Dst) (t : Src) (slide : BitVec 2)
  | ret (g : Guard) (t : Src)
  | spill (g : Guard)
  | fill (g : Guard)
  | pand (g : Guard) (d : Dst) (a b : Src)
  | por (g : Guard) (d : Dst) (a b : Src)
  | pxor (g : Guard) (d : Dst) (a b : Src)
  | pandn (g : Guard) (d : Dst) (a b : Src)
  | pnot (g : Guard) (d : Dst) (a : Src)
  | pmovi (g : Guard) (d : Dst) (v : Bool)
  | pmov (g : Guard) (d : Dst) (a : Src)
  | part (g : Guard) (d : Dst) (n gr : Src) (hi : Bool) (coord : PartCoord) (m p : BitVec 16)
  | yield (g : Guard)
  | sleep (g : Guard) (msg : Bool) (n : BitVec 40)
  | exit (g : Guard)
  | fold (g : Guard) (leaf ev ext : Src) (x : Bool) (regs : BitVec 36)
  | mdset (g : Guard) (a : Src)
  | mdget (g : Guard) (d : Dst)
  | inbcnt (g : Guard) (d : Dst)
  | slotid (g : Guard) (d : Dst)
  | strayrdHdr (g : Guard) (d : Dst)
  | strayrdCnt (g : Guard) (d : Dst)
  | loopbk (g : Guard) (d : Dst) (hdr data : Src) (last : Bool)
  -- integer and address (R106)
  | add (g : Guard) (d : Dst) (a b : Src)
  | addi (g : Guard) (d : Dst) (a : Src) (imm : BitVec 40)
  | sub (g : Guard) (d : Dst) (a b : Src)
  | neg (g : Guard) (d : Dst) (a : Src)
  | mul (g : Guard) (d : Dst) (a b : Src)
  | muli (g : Guard) (d : Dst) (a : Src) (imm : BitVec 40)
  | mulh (g : Guard) (d : Dst) (a b : Src) (sg : MulSign)
  | div (g : Guard) (d : Dst) (a b : Src) (uns : Bool)
  | rem (g : Guard) (d : Dst) (a b : Src) (uns : Bool)
  | and (g : Guard) (d : Dst) (a b : Src)
  | andi (g : Guard) (d : Dst) (a : Src) (imm : BitVec 40)
  | or (g : Guard) (d : Dst) (a b : Src)
  | ori (g : Guard) (d : Dst) (a : Src) (imm : BitVec 40)
  | xor (g : Guard) (d : Dst) (a b : Src)
  | xori (g : Guard) (d : Dst) (a : Src) (imm : BitVec 40)
  | shl (g : Guard) (d : Dst) (a b : Src)
  | shli (g : Guard) (d : Dst) (a : Src) (n : BitVec 6)
  | shr (g : Guard) (d : Dst) (a b : Src)
  | shri (g : Guard) (d : Dst) (a : Src) (n : BitVec 6)
  | sra (g : Guard) (d : Dst) (a b : Src)
  | srai (g : Guard) (d : Dst) (a : Src) (n : BitVec 6)
  | ror (g : Guard) (d : Dst) (a b : Src)
  | clz (g : Guard) (d : Dst) (a : Src)
  | ctz (g : Guard) (d : Dst) (a : Src)
  | popc (g : Guard) (d : Dst) (a : Src)
  | bext (g : Guard) (d : Dst) (a : Src) (sgn : Bool) (len : BitVec 7) (pos : BitVec 6)
  | bins (g : Guard) (d : Dst) (a b : Src) (len : BitVec 7) (pos : BitVec 6)
  | sext (g : Guard) (d : Dst) (a : Src) (w : Width)
  | zext (g : Guard) (d : Dst) (a : Src) (w : Width)
  | min (g : Guard) (d : Dst) (a b : Src) (uns : Bool)
  | max (g : Guard) (d : Dst) (a b : Src) (uns : Bool)
  | cmp (g : Guard) (d : Dst) (a b : Src) (c : Cond)
  | cmpi (g : Guard) (d : Dst) (a : Src) (c : Cond) (imm : BitVec 40)
  | sel (g : Guard) (d : Dst) (a b p : Src)
  | mov (g : Guard) (d : Dst) (a : Src)
  | movi (g : Guard) (d : Dst) (lit : Word)
  | lea (g : Guard) (d : Dst) (b i : Src) (scale : BitVec 2) (imm : BitVec 40)
  | incw (g : Guard) (d : Dst) (a b : Src)
  -- catchwords and register state (R138)
  | cwres (g : Guard) (form : BitVec 2) (r : BitVec 6)
  | regst (g : Guard) (d : Dst) (p : Bool) (r : BitVec 6)
  | kill (g : Guard) (p : Bool) (r : BitVec 6)
  | cwfree (g : Guard) (d : Dst)
  | regmap (g : Guard) (d : Dst) (grp : Bool)
  -- tagged memory (R152)
  | ld (g : Guard) (d : Dst) (b : Src) (w : Width) (sgn : Bool) (imm : BitVec 40)
  | ldx (g : Guard) (d : Dst) (b i : Src) (scale : BitVec 2) (w : Width) (sgn : Bool)
  | st (g : Guard) (b v : Src) (w : Width) (imm : BitVec 40)
  | stx (g : Guard) (b i v : Src) (scale : BitVec 2) (w : Width)
  | ldf (g : Guard) (d : Dst) (b : Src) (imm : BitVec 40)
  | ldfe (g : Guard) (d : Dst) (b : Src) (imm : BitVec 40)
  | stef (g : Guard) (d : Dst) (b v : Src) (imm : BitVec 40)
  | stf (g : Guard) (b v : Src) (imm : BitVec 40)
  | purge (g : Guard) (b : Src) (imm : BitVec 40)
  | tagrd (g : Guard) (d : Dst) (b : Src) (w : Bool) (imm : BitVec 40)
  | tagset (g : Guard) (d : Dst) (b l : Src) (full : Bool)
  | park (g : Guard) (b leaf ev : Src) (x : Bool) (regs : BitVec 36)
  -- atomics, reductions, agents (R177)
  | aadd (g : Guard) (d : Dst) (b v : Src) (w : Width) (imm : BitVec 40)
  | aand (g : Guard) (d : Dst) (b v : Src) (w : Width) (imm : BitVec 40)
  | aor (g : Guard) (d : Dst) (b v : Src) (w : Width) (imm : BitVec 40)
  | axor (g : Guard) (d : Dst) (b v : Src) (w : Width) (imm : BitVec 40)
  | amin (g : Guard) (d : Dst) (b v : Src) (uns : Bool) (w : Width) (imm : BitVec 40)
  | amax (g : Guard) (d : Dst) (b v : Src) (uns : Bool) (w : Width) (imm : BitVec 40)
  | axchg (g : Guard) (d : Dst) (b v : Src) (w : Width) (imm : BitVec 40)
  | acas (g : Guard) (d : Dst) (b v c : Src) (w : Width) (imm : BitVec 40)
  | afadd (g : Guard) (d : Dst) (b v : Src) (f32 : Bool) (imm : BitVec 40)
  | aincw (g : Guard) (d : Dst) (b v : Src) (w : Width) (imm : BitVec 40)
  | afab (g : Guard) (d : Dst) (b v c : Src) (w : Width) (imm : BitVec 40)
  | redadd (g : Guard) (b v : Src) (w : Width) (imm : BitVec 40)
  | redand (g : Guard) (b v : Src) (w : Width) (imm : BitVec 40)
  | redor (g : Guard) (b v : Src) (w : Width) (imm : BitVec 40)
  | redxor (g : Guard) (b v : Src) (w : Width) (imm : BitVec 40)
  | redmin (g : Guard) (b v : Src) (uns : Bool) (w : Width) (imm : BitVec 40)
  | redmax (g : Guard) (b v : Src) (uns : Bool) (w : Width) (imm : BitVec 40)
  | redfadd (g : Guard) (b v : Src) (f32 : Bool) (imm : BitVec 40)
  | mcas2 (g : Guard) (d : Dst) (b : Src) (imm : BitVec 40)
  | mcas4 (g : Guard) (d : Dst) (b : Src) (imm : BitVec 40)
  | enq (g : Guard) (d : Dst) (b node : Src) (imm : BitVec 40)
  | chase (g : Guard) (d : Dst) (b o : Src) (hops : BitVec 7) (imm : BitVec 40)
  -- remote access (R203)
  | winopen (g : Guard) (d : Dst) (a : Src)
  | winclose (g : Guard) (d : Dst) (h : Src)
  | winstat (g : Guard) (d : Dst) (h : Src)
  | gflush (g : Guard)
  | gflushNw (g : Guard)
  | gstat (g : Guard) (d : Dst) (isle : Bool)
  | rfrecVa (g : Guard) (d : Dst)
  | rfrecSt (g : Guard) (d : Dst)
  | rfclr (g : Guard) (d : Dst)
  | connst (g : Guard) (d : Dst) (p : Src)
  -- scratchpad and copier (R250)
  | spalloc (g : Guard) (d : Dst) (n : Src)
  | spfree (g : Guard) (d : Dst) (t : Src)
  | thandEng (g : Guard) (d : Dst) (t : Src)
  | thandThr (g : Guard) (d : Dst) (t : Src)
  | tcopy (g : Guard) (d : Dst) (t o e : Src) (fill : Bool) (fmt : Fmt) (out : Bool)
      (bytes : BitVec 16) (tiles : BitVec 4) (folio : BitVec 16)
  | twait (g : Guard) (d : Dst) (t dl pr : Src) (phase : Bool)
  | tstat (g : Guard) (d : Dst) (t : Src)
  | spld (g : Guard) (d : Dst) (b : Src) (w : Width) (sgn : Bool) (imm : BitVec 40)
  | spst (g : Guard) (b v : Src) (w : Width) (imm : BitVec 40)
  | sphash (g : Guard) (d : Dst) (o : Src) (key : Bool)
  | tcq (g : Guard) (d : Dst)
  -- vector (R268)
  | vlease (g : Guard) (d : Dst) (try_ : Bool)
  | vrel (g : Guard)
  | vld (g : Guard) (d : Dst) (c : Src) (f : Fmt) (folio : BitVec 16)
  | vst (g : Guard) (c v : Src) (f : Fmt) (folio : BitVec 16)
  | vldx (g : Guard) (d : Dst) (c i : Src) (f : Fmt) (folio : BitVec 16)
  | vstx (g : Guard) (c v i : Src) (f : Fmt) (folio : BitVec 16)
  | vmov (g : Guard) (d : Dst) (a : Src)
  | vsplat (g : Guard) (d : Dst) (a : Src) (f : Fmt)
  | vadd (g : Guard) (d : Dst) (a b : Src) (rm : Rnd) (sat : Bool) (f : Fmt)
  | vsub (g : Guard) (d : Dst) (a b : Src) (rm : Rnd) (sat : Bool) (f : Fmt)
  | vmul (g : Guard) (d : Dst) (a b : Src) (rm : Rnd) (sat : Bool) (f : Fmt)
  | vfma (g : Guard) (d : Dst) (a b c : Src) (rm : Rnd) (f : Fmt)
  | vfms (g : Guard) (d : Dst) (a b c : Src) (rm : Rnd) (f : Fmt)
  | vfnma (g : Guard) (d : Dst) (a b c : Src) (rm : Rnd) (f : Fmt)
  | vmin (g : Guard) (d : Dst) (a b : Src) (f : Fmt)
  | vmax (g : Guard) (d : Dst) (a b : Src) (f : Fmt)
  | vabs (g : Guard) (d : Dst) (a : Src) (sat : Bool) (f : Fmt)
  | vneg (g : Guard) (d : Dst) (a : Src) (sat : Bool) (f : Fmt)
  | vand (g : Guard) (d : Dst) (a b : Src) (f : Fmt)
  | vor (g : Guard) (d : Dst) (a b : Src) (f : Fmt)
  | vxor (g : Guard) (d : Dst) (a b : Src) (f : Fmt)
  | vshl (g : Guard) (d : Dst) (a b : Src) (f : Fmt)
  | vshr (g : Guard) (d : Dst) (a b : Src) (f : Fmt)
  | vsra (g : Guard) (d : Dst) (a b : Src) (f : Fmt)
  | vcmp (g : Guard) (d : Dst) (a b : Src) (c : VCond) (f : Fmt)
  | vsel (g : Guard) (d : Dst) (a b m : Src) (f : Fmt)
  | vshuf (g : Guard) (d : Dst) (a b : Src) (f : Fmt) (k : BitVec 12) (pat : Shuf)
  | vperm (g : Guard) (d : Dst) (a b i : Src) (f : Fmt)
  | vextr (g : Guard) (d : Dst) (a l : Src) (f : Fmt) (off : BitVec 10)
  | vins (g : Guard) (d : Dst) (a v l : Src) (f : Fmt) (off : BitVec 10)
  | vredadd (g : Guard) (d : Dst) (a : Src) (f : Fmt)
  | vredmin (g : Guard) (d : Dst) (a : Src) (f : Fmt)
  | vredmax (g : Guard) (d : Dst) (a : Src) (f : Fmt)
  | vcvt (g : Guard) (d : Dst) (a : Src) (rm : Rnd) (tf sf : Fmt)
  | vcvts (g : Guard) (d : Dst) (a seed : Src) (tf sf : Fmt)
  | vwadd (g : Guard) (d : Dst) (a b : Src) (rm : Rnd) (f : Fmt)
  | vwmul (g : Guard) (d : Dst) (a b : Src) (rm : Rnd) (f : Fmt)
  | vexp2 (g : Guard) (d : Dst) (a : Src) (rm : Rnd) (f : Fmt)
  | vlog2 (g : Guard) (d : Dst) (a : Src) (rm : Rnd) (f : Fmt)
  | vrcp (g : Guard) (d : Dst) (a : Src) (rm : Rnd) (f : Fmt)
  | vrsqrt (g : Guard) (d : Dst) (a : Src) (rm : Rnd) (f : Fmt)
  | vsqrt (g : Guard) (d : Dst) (a : Src) (rm : Rnd) (f : Fmt)
  -- matrix and folio (R299)
  | folset (g : Guard) (d : Dst) (i a : Src)
  | folsetInv (g : Guard) (d : Dst) (i : Src)
  | folrd (g : Guard) (d : Dst) (i : Src) (w : BitVec 3)
  | folchk (g : Guard) (d : Dst) (o e : Src) (acc : BitVec 2) (folio : BitVec 16)
  | wbld (g : Guard) (o : Src) (rows : BitVec 9) (slot : BitVec 6) (folio : BitVec 16)
  | wbinv (g : Guard) (m : Src)
  | mxz (g : Guard) (acc : BitVec 3)
  | mxa (g : Guard) (o h : Src) (acc : BitVec 3) (slot : BitVec 6) (folio : BitVec 16)
  | mxst (g : Guard) (o : Src) (fill : Bool) (acc : BitVec 3) (folio : BitVec 16)
  | mxld (g : Guard) (o : Src) (acc : BitVec 3) (folio : BitVec 16)
  | mxdot (g : Guard) (oa ob l : Src) (acc : BitVec 3) (fb fa : BitVec 16)
  | mxsend (g : Guard) (d : Dst) (cap a : Src)
  | mxkey (g : Guard) (k : Src)
  | mxstat (g : Guard) (d : Dst)
  | mxwait (g : Guard)
  -- ordering (R333)
  | fence (g : Guard) (later prior : BitVec 5)
  | fencex (g : Guard) (a : Src)
  -- tasks and events (R351)
  | launch (g : Guard) (d : Dst) (a : Src)
  | trigger (g : Guard)
  | bar (g : Guard) (d : Dst) (n dl : Src) (sc : BarScope) (b : BitVec 4)
  | evset (g : Guard) (e : Src)
  | evclr (g : Guard) (e : Src)
  | evwait (g : Guard) (d : Dst) (e dl : Src) (k : BitVec 2)
  -- system (R373)
  | mfs (g : Guard) (d : Dst) (r : BitVec 12)
  | mts (g : Guard) (a : Src) (r : BitVec 12)
  | rte (g : Guard)
  | trap (g : Guard) (code : BitVec 16)
  | cyc (g : Guard) (d : Dst)
  | tlbinvPage (g : Guard) (sp va : Src)
  | tlbinvSpace (g : Guard) (sp : Src)
  | tlbinvAll (g : Guard)
  | replay (g : Guard) (d : Dst) (h : Src)
  | abortset (g : Guard) (d : Dst) (t e : Src)
  | fatal (g : Guard) (d : Dst) (h : Src)
  | pgcmd (g : Guard) (d : Dst) (a : Src)
  -- events of slots, cores and quires
  | ageClassRise (slot : Nat)
  | restEnd (slot : Nat)
  | closingWaitEnd (slot : Nat)
  | taskDispatch (slot : Nat)
  | leafResume (slot : Nat)
  | sendQueueRelease (core : Nat)
  | meshWordArrival (k : Nat)
  | replyAccept (k : Nat)
  | dividerDeliver (core : Nat)
  | codeLineFill (k : Nat)
  | codeRefetch (quire k : Nat)
  | cbinv (isle : Nat)
  | storeBufferWrite (core k : Nat)
  | memrefArrive (k : Nat) (part : Option Nat)
  | moorDeadlineExpire (isle k : Nat)
  | tagsetWave (k : Nat)
  | reductionAck (k : Nat)
  | agentMcas (k : Nat)
  | agentEnq (k : Nat)
  | agentChaseHop (k : Nat)
  | harbourAmo (hart : Nat) (op : AtomOp) (w : Width) (addr value : Word)
  | harbourLr (hart : Nat) (w : Width) (addr : Word)
  | harbourSc (hart : Nat) (w : Width) (addr value : Word)
  | reservationExpire (hart : Nat)
  | harbourAccess (hart : Nat) (store : Bool) (w : Width) (addr value : Word)
  | fenceRecordDiscard (slot k : Nat)
  -- fabric events
  | gatherElementArrive (k : Nat)
  | gatherAgeSeal (isle k : Nat)
  | frameSend (k : Nat)
  | dataFrameReceive (f : Frame)
  | ackFrameReceive (f : Frame)
  | ackFrameSend (peer job : Nat)
  | replayTimeout (peer job : Nat)
  | ratePeriodEnd (peer job : Nat)
  | elementStatusReceive (k : Nat)
  | wincloseDrainEnd (h : Nat)
  | laneLightLoss (strait : Nat) (chan : Bool) (lost : BitVec 16)
  | laneMaskAgreed (strait : Nat) (chan : Bool)
  | pathDownTimeout (peer job : Nat)
  | epochSwitch (peer job : Nat)
  | frouteWrite (p : Nat) (v : BitVec 16)
  | fpkgWrite (v : Word)
  | keycmdLoad (w0 : Word) (key : List Word)
  | keycmdZeroise (w0 : Word)
  | lanereq (v : Word) (lit : BitVec 16)
  -- copier, matrix and event-bit events
  | copyStart (quire : Nat)
  | copyComplete (quire k : Nat)
  | promiseMiss (slot : Nat)
  | twaitDeadline (slot : Nat)
  | tileZeroingEnd (quire tile : Nat)
  | folioFetch (quire idx : Nat)
  | matrixCommandExecute (core : Nat)
  | matrixCommandComplete (core : Nat) (loader : Bool)
  | loaderCommandStart (core : Nat)
  | weightRowBlockArrive (core : Nat)
  | mxsendReceive (k : Nat)
  | eventBitUpdate (k : Nat)
  | leafReady (quire k : Nat)
  | evwaitDeadline (slot : Nat)
  | barDeadline (slot : Nat)
  | tasksetRetire (tsid : Nat)
  | asyncTrapDeliver (slot : Nat)
  | walkComplete (k : Nat)
  | faultRingWrite (isle : Nat)
  | pageCommandComplete (k : Nat) (far : FarEnd)
  -- system register writes
  | moorbaseWrite (isle : Nat) (lim : Bool) (v : Word)
  | memcfgLock (isle : Nat)
  | hashMaskWrite (isle k : Nat) (v : Word)
  | ablimWrite (isle : Nat) (v : Word)
  | gageWrite (isle : Nat) (v : Word)
  | fqbaseWrite (isle : Nat) (v : Word)
  | fqctlWrite (isle : Nat) (v : Word)
  | wstateWrite (slot : Nat) (v : Word)
  -- launch ports, service and device
  | launchPortLaunch (port : Nat) (c : PortCmd)
  | ferryLaunch (port : Nat) (c : PortCmd)
  | snap (port : Nat) (c : PortCmd)
  | evict (port : Nat) (c : PortCmd)
  | resume (port : Nat) (c : PortCmd)
  | terminate (port : Nat) (c : PortCmd)
  | preemptDrainEnd (tsid : Nat)
  | preemptDeadline (tsid : Nat)
  | powerUp (b : BootFinds)
  | reset (b : BootFinds)
  | statusRequest
  | attestationRequest (nonce : BitVec 256)
  | journalRead (seq : Nat)
  | resetRequest
  | checkpoint (peer : Bool) (far : Word)
  | eventRingSetup (base : Word) (size : Nat)
  | thermalMeasure (power : Nat) (temps : List Nat)
  | coreFail (core : Nat)
  | illegalInstruction (detail : BitVec 8)
  | illFormedPcIssue
  | checkpointComplete (far : FarEnd)
deriving DecidableEq, Repr

end Sys2Proof
end

