-- ==== Sys2Proof/WellFormed.lean ====
section
/-! DEFINITION. Which operations are well formed: the operand classes and field values that the encodings of R80, R106,
R138, R152, R177, R203, R250, R268, R299, R333, R351 and R373 accept. -/

namespace Sys2Proof

/-- Negated p0 is reserved (R37). -/
def gOk (g : Guard) : Bool := !(g.neg && decide (g.preg = 0))

/-- Operand classes of R38. -/
def isX (r : BitVec 6) : Bool := decide (r.toNat < 32)
def isPort (r : BitVec 6) : Bool := decide (56 ≤ r.toNat ∧ r.toNat < 60)
def isXM (r : BitVec 6) : Bool := isX r || isPort r
def isV (r : BitVec 6) : Bool := decide (32 ≤ r.toNat ∧ r.toNat < 48)
def isRR (r : BitVec 6) : Bool := decide (r.toNat < 56)
def isP (r : BitVec 6) : Bool := decide (r.toNat < 8)

/-- The reserved source-field values of R39. -/
def bitsOk (s : Src) : Bool := !((s.trap || s.kill) && decide (s.reg = 0)) && !(s.kill && isPort s.reg)

def dX (d : Dst) : Bool := isX d
def dXnz (d : Dst) : Bool := isX d && decide (d ≠ 0)
def dXM (d : Dst) : Bool := isXM d
def dP (d : Dst) : Bool := isP d
def dV (d : Dst) : Bool := isV d
def sX (s : Src) : Bool := bitsOk s && isX s.reg
def sXM (s : Src) : Bool := bitsOk s && isXM s.reg
def sV (s : Src) : Bool := bitsOk s && isV s.reg
def sP (s : Src) : Bool := !((s.trap || s.kill) && decide (s.reg = 0)) && isP s.reg
/-- A field that the instruction does not use is zero (R36). -/
def sNone (s : Src) : Bool := decide (s = ⟨false, false, 0⟩)

/-- The extension operand of FOLD (R80). -/
def sXopt (x : Bool) (s : Src) : Bool := if x then sX s else sNone s
/-- The offset operand of SPHASH (R250). -/
def sXMkey (key : Bool) (s : Src) : Bool := if key then sNone s else sXM s
/-- The patterns of VSHUF that read no second source (R284). -/
def shufOne : Shuf → Bool
  | .rev => true
  | .bcast => true
  | _ => false
def sVshuf (pat : Shuf) (s : Src) : Bool := if shufOne pat then sNone s else sV s

/-- The register of CWRES by its form (R139). -/
def cwOk (form : BitVec 2) (r : BitVec 6) : Bool :=
  if form = 0 then isRR r else if form = 1 then isP r else decide (r = 0)
/-- The register of REGST and KILL (R138). -/
def rpOk (p : Bool) (r : BitVec 6) : Bool := if p then isP r else isRR r

/-- The six register numbers of FOLD and PARK (R91): some number is 60 or more, some is no x register. -/
def regField (regs : BitVec 36) (i : Nat) : BitVec 6 := regs.extractLsb' (6 * i) 6
def regsAny60 (regs : BitVec 36) : Bool := (List.range 6).any fun i => decide (60 ≤ (regField regs i).toNat)
def regsAny32 (regs : BitVec 36) : Bool := (List.range 6).any fun i => !isX (regField regs i)

/-- The reserved field lengths of BEXT and BINS (R113). -/
abbrev badField (len : BitVec 7) (pos : BitVec 6) : Prop := len = 0 ∨ 64 < pos.toNat + len.toNat

/-- The widths that atomics do not accept (R177). -/
def narrow (w : Width) : Bool := decide (w = .b8) || decide (w = .b16)
/-- The formats that are no element formats (R52). -/
def weightFmt (f : Fmt) : Bool := decide (f = .i4) || decide (f = .i3) || decide (f = .e8m0)

/-- The type sets W, A, F, I and H of R269, and the sources of the widening instructions. -/
def setI (f : Fmt) : Bool := match f with
  | .i8 | .n8 | .i16 | .n16 | .i32 | .n32 => true
  | _ => false
def setF (f : Fmt) : Bool := match f with
  | .f32 | .f16 | .bf16 => true
  | _ => false
def setA (f : Fmt) : Bool := setI f || setF f
def setW (f : Fmt) : Bool := setA f || decide (f = .e4m3) || decide (f = .e5m2)
def setH (f : Fmt) : Bool := match f with
  | .i16 | .n16 | .i32 | .n32 | .f32 | .f16 | .bf16 => true
  | _ => false
def setWid (f : Fmt) : Bool := match f with
  | .i8 | .n8 | .i16 | .n16 | .f16 | .bf16 => true
  | _ => false

/-- Width in bits of an element format (R52). -/
def fmtWidth : Fmt → Nat
  | .i8 | .n8 | .e4m3 | .e5m2 | .e8m0 => 8
  | .i16 | .n16 | .f16 | .bf16 => 16
  | .i32 | .n32 | .f32 => 32
  | .i64 | .n64 => 64
  | .i4 => 4
  | .i3 => 3

/-- Lanes of a v register (R266). -/
def lanesOf (f : Fmt) : Nat := 4096 / fmtWidth f

/-- A VCMP condition on a type of its set (R282). -/
def vcondOk (c : VCond) (f : Fmt) : Bool := match c with
  | .uno | .ord => setF f
  | .tst => setI f
  | _ => true

/-- The reserved `k` of VSHUF (R284). -/
def shufBadK (pat : Shuf) (f : Fmt) (k : BitVec 12) : Bool := match pat with
  | .ext => decide (lanesOf f < k.toNat)
  | .bcast => decide (lanesOf f ≤ k.toNat)
  | _ => decide (k ≠ 0)

/-- A group register whose v number is not a multiple of `k` (R267). -/
def misgroup (k : Nat) (r : BitVec 6) : Bool := isV r && decide ((r.toNat - 32) % k ≠ 0)

/-- The reserved type pairs and modes of VCVT (R269, R288). -/
def cvtBad (rm : Rnd) (tf sf : Fmt) (d sreg : BitVec 6) : Bool :=
  !setW tf || !setW sf || (decide (rm ≠ .rne) && setI tf && setI sf && decide (fmtWidth tf = fmtWidth sf))
    || (decide (fmtWidth sf < fmtWidth tf) && misgroup (fmtWidth tf / fmtWidth sf) d)
    || (decide (fmtWidth tf < fmtWidth sf) && misgroup (fmtWidth sf / fmtWidth tf) sreg)

/-- The type pairs of VCVTS (R67, R289). -/
def cvtsPair : Fmt → Fmt → Bool
  | .bf16, .f32 | .e4m3, .f32 | .e5m2, .f32 | .e4m3, .bf16 | .e5m2, .bf16 => true
  | _, _ => false
def cvtsBad (tf sf : Fmt) (sreg : BitVec 6) : Bool :=
  !cvtsPair tf sf || misgroup (fmtWidth sf / fmtWidth tf) sreg

/-- The system-register numbers that R372 lists. -/
def sysregOk (r : BitVec 12) : Bool :=
  let n := r.toNat
  decide (n ≤ 0x002 ∨ (0x010 ≤ n ∧ n ≤ 0x019) ∨ (0x020 ≤ n ∧ n ≤ 0x027) ∨ n = 0x040 ∨ (0x080 ≤ n ∧ n ≤ 0x096))

/-- The operation's operands are ones that its encoding accepts. -/
def Instr.wellFormed : Instr → Bool
  | .nop g => gOk g
  | .br g _ => gOk g
  | .jmp g t => gOk g && sX t
  | .call g d slide _ => gOk g && dX d && !decide (slide=0)
  | .callx g d t slide => gOk g && dX d && sX t && !decide (slide=0)
  | .ret g t => gOk g && sX t
  | .spill g => gOk g
  | .fill g => gOk g
  | .pand g d a b => gOk g && dP d && sP a && sP b
  | .por g d a b => gOk g && dP d && sP a && sP b
  | .pxor g d a b => gOk g && dP d && sP a && sP b
  | .pandn g d a b => gOk g && dP d && sP a && sP b
  | .pnot g d a => gOk g && dP d && sP a
  | .pmovi g d _ => gOk g && dP d
  | .pmov g d a => gOk g && dP d && sP a
  | .part g d n gr _ _ _ _ => gOk g && dX d && sX n && sX gr
  | .yield g => gOk g
  | .sleep g _ _ => gOk g
  | .exit g => gOk g
  | .fold g leaf ev ext x regs => gOk g && sX leaf && sX ev && sXopt x ext && !regsAny60 regs && !regsAny32 regs
  | .mdset g a => gOk g && sX a
  | .mdget g d => gOk g && dX d
  | .inbcnt g d => gOk g && dX d
  | .slotid g d => gOk g && dX d
  | .strayrdHdr g d => gOk g && dX d
  | .strayrdCnt g d => gOk g && dX d
  | .loopbk g d hdr data _ => gOk g && dX d && sX hdr && sX data
  | .add g d a b => gOk g && dXM d && sXM a && sXM b
  | .addi g d a _ => gOk g && dXM d && sXM a
  | .sub g d a b => gOk g && dXM d && sXM a && sXM b
  | .neg g d a => gOk g && dXM d && sXM a
  | .mul g d a b => gOk g && dXM d && sXM a && sXM b
  | .muli g d a _ => gOk g && dXM d && sXM a
  | .mulh g d a b _ => gOk g && dXM d && sXM a && sXM b
  | .div g d a b _ => gOk g && dX d && sXM a && sXM b
  | .rem g d a b _ => gOk g && dX d && sXM a && sXM b
  | .and g d a b => gOk g && dXM d && sXM a && sXM b
  | .andi g d a _ => gOk g && dXM d && sXM a
  | .or g d a b => gOk g && dXM d && sXM a && sXM b
  | .ori g d a _ => gOk g && dXM d && sXM a
  | .xor g d a b => gOk g && dXM d && sXM a && sXM b
  | .xori g d a _ => gOk g && dXM d && sXM a
  | .shl g d a b => gOk g && dXM d && sXM a && sXM b
  | .shli g d a _ => gOk g && dXM d && sXM a
  | .shr g d a b => gOk g && dXM d && sXM a && sXM b
  | .shri g d a _ => gOk g && dXM d && sXM a
  | .sra g d a b => gOk g && dXM d && sXM a && sXM b
  | .srai g d a _ => gOk g && dXM d && sXM a
  | .ror g d a b => gOk g && dXM d && sXM a && sXM b
  | .clz g d a => gOk g && dXM d && sXM a
  | .ctz g d a => gOk g && dXM d && sXM a
  | .popc g d a => gOk g && dXM d && sXM a
  | .bext g d a _ len pos => gOk g && dXM d && sXM a && !decide (badField len pos)
  | .bins g d a b len pos => gOk g && dXM d && sXM a && sXM b && !decide (badField len pos)
  | .sext g d a w => gOk g && dXM d && sXM a && !decide (w=.b64)
  | .zext g d a w => gOk g && dXM d && sXM a && !decide (w=.b64)
  | .min g d a b _ => gOk g && dXM d && sXM a && sXM b
  | .max g d a b _ => gOk g && dXM d && sXM a && sXM b
  | .cmp g d a b _ => gOk g && dP d && sXM a && sXM b
  | .cmpi g d a _ _ => gOk g && dP d && sXM a
  | .sel g d a b p => gOk g && dXM d && sXM a && sXM b && sP p
  | .mov g d a => gOk g && dXM d && sXM a
  | .movi g d _ => gOk g && dXM d
  | .lea g d b i _ _ => gOk g && dXM d && sXM b && sXM i
  | .incw g d a b => gOk g && dXM d && sXM a && sXM b
  | .cwres g form r => gOk g && cwOk form r && !decide (form=3)
  | .regst g d p r => gOk g && dXM d && rpOk p r
  | .kill g p r => gOk g && rpOk p r
  | .cwfree g d => gOk g && dXM d
  | .regmap g d _ => gOk g && dXM d
  | .ld g d b w sgn _ => gOk g && dX d && sX b && !decide (sgn ∧ w=.b64)
  | .ldx g d b i _ w sgn => gOk g && dX d && sX b && sX i && !decide (sgn ∧ w=.b64)
  | .st g b v _ _ => gOk g && sX b && sXM v
  | .stx g b i v _ _ => gOk g && sX b && sX i && sXM v
  | .ldf g d b _ => gOk g && dX d && sX b
  | .ldfe g d b _ => gOk g && dX d && sX b
  | .stef g d b v _ => gOk g && dXnz d && sX b && sXM v
  | .stf g b v _ => gOk g && sX b && sXM v
  | .purge g b _ => gOk g && sX b
  | .tagrd g d b _ _ => gOk g && dP d && sX b
  | .tagset g d b l _ => gOk g && dX d && sX b && sX l
  | .park g b leaf ev _ regs => gOk g && sX b && sX leaf && sX ev && !regsAny60 regs && !regsAny32 regs
  | .aadd g d b v w _ => gOk g && dX d && sX b && sXM v && !narrow w
  | .aand g d b v w _ => gOk g && dX d && sX b && sXM v && !narrow w
  | .aor g d b v w _ => gOk g && dX d && sX b && sXM v && !narrow w
  | .axor g d b v w _ => gOk g && dX d && sX b && sXM v && !narrow w
  | .amin g d b v _ w _ => gOk g && dX d && sX b && sXM v && !narrow w
  | .amax g d b v _ w _ => gOk g && dX d && sX b && sXM v && !narrow w
  | .axchg g d b v w _ => gOk g && dX d && sX b && sXM v && !narrow w
  | .acas g d b v c w _ => gOk g && dX d && sX b && sXM v && sXM c && !narrow w
  | .afadd g d b v _ _ => gOk g && dX d && sX b && sXM v
  | .aincw g d b v w _ => gOk g && dX d && sX b && sXM v && !narrow w
  | .afab g d b v c w _ => gOk g && dX d && sX b && sXM v && sXM c && !narrow w
  | .redadd g b v w _ => gOk g && sX b && sXM v && !narrow w
  | .redand g b v w _ => gOk g && sX b && sXM v && !narrow w
  | .redor g b v w _ => gOk g && sX b && sXM v && !narrow w
  | .redxor g b v w _ => gOk g && sX b && sXM v && !narrow w
  | .redmin g b v _ w _ => gOk g && sX b && sXM v && !narrow w
  | .redmax g b v _ w _ => gOk g && sX b && sXM v && !narrow w
  | .redfadd g b v _ _ => gOk g && sX b && sXM v
  | .mcas2 g d b _ => gOk g && dXnz d && sX b
  | .mcas4 g d b _ => gOk g && dXnz d && sX b
  | .enq g d b node _ => gOk g && dXnz d && sX b && sX node
  | .chase g d b o hops _ => gOk g && dXnz d && sX b && sXM o && !decide (64 < hops.toNat)
  | .winopen g d a => gOk g && dXnz d && sX a
  | .winclose g d h => gOk g && dXnz d && sX h
  | .winstat g d h => gOk g && dXM d && sXM h
  | .gflush g => gOk g
  | .gflushNw g => gOk g
  | .gstat g d _ => gOk g && dXM d
  | .rfrecVa g d => gOk g && dXM d
  | .rfrecSt g d => gOk g && dXM d
  | .rfclr g d => gOk g && dXM d
  | .connst g d p => gOk g && dXM d && sXM p
  | .spalloc g d n => gOk g && dXnz d && sX n
  | .spfree g d t => gOk g && dX d && sX t
  | .thandEng g d t => gOk g && dX d && sX t
  | .thandThr g d t => gOk g && dX d && sX t
  | .tcopy g d t o e _ fmt _ _ _ _ => gOk g && dXnz d && sX t && sX o && sX e && !weightFmt fmt
  | .twait g d t dl pr _ => gOk g && dX d && sX t && sX dl && sX pr
  | .tstat g d t => gOk g && dXM d && sXM t
  | .spld g d b w sgn _ => gOk g && dX d && sX b && !decide (sgn ∧ w=.b64)
  | .spst g b v _ _ => gOk g && sX b && sXM v
  | .sphash g d o key => gOk g && dXM d && sXMkey key o
  | .tcq g d => gOk g && dXM d
  | .vlease g d _ => gOk g && dXnz d
  | .vrel g => gOk g
  | .vld g d c f _ => gOk g && dV d && sX c && setW f
  | .vst g c v f _ => gOk g && sX c && sV v && setW f
  | .vldx g d c i f _ => gOk g && dV d && sX c && sV i && setH f
  | .vstx g c v i f _ => gOk g && sX c && sV v && sV i && setH f
  | .vmov g d a => gOk g && dV d && sV a
  | .vsplat g d a f => gOk g && dV d && sXM a && setW f
  | .vadd g d a b rm sat f => gOk g && dV d && sV a && sV b && !decide (!setA f  ∨  sat ∧ !setI f  ∨  rm≠.rne ∧ !setF f)
  | .vsub g d a b rm sat f => gOk g && dV d && sV a && sV b && !decide (!setA f  ∨  sat ∧ !setI f  ∨  rm≠.rne ∧ !setF f)
  | .vmul g d a b rm sat f => gOk g && dV d && sV a && sV b && !decide (!setA f  ∨  sat ∧ !setI f  ∨  rm≠.rne ∧ !setF f)
  | .vfma g d a b c _ f => gOk g && dV d && sV a && sV b && sV c && setF f
  | .vfms g d a b c _ f => gOk g && dV d && sV a && sV b && sV c && setF f
  | .vfnma g d a b c _ f => gOk g && dV d && sV a && sV b && sV c && setF f
  | .vmin g d a b f => gOk g && dV d && sV a && sV b && setA f
  | .vmax g d a b f => gOk g && dV d && sV a && sV b && setA f
  | .vabs g d a sat f => gOk g && dV d && sV a && !decide (!setA f  ∨  sat ∧ !setI f)
  | .vneg g d a sat f => gOk g && dV d && sV a && !decide (!setA f  ∨  sat ∧ !setI f)
  | .vand g d a b f => gOk g && dV d && sV a && sV b && setW f
  | .vor g d a b f => gOk g && dV d && sV a && sV b && setW f
  | .vxor g d a b f => gOk g && dV d && sV a && sV b && setW f
  | .vshl g d a b f => gOk g && dV d && sV a && sV b && setI f
  | .vshr g d a b f => gOk g && dV d && sV a && sV b && setI f
  | .vsra g d a b f => gOk g && dV d && sV a && sV b && setI f
  | .vcmp g d a b c f => gOk g && dV d && sV a && sV b && !decide (!setA f  ∨  !vcondOk c f)
  | .vsel g d a b m f => gOk g && dV d && sV a && sV b && sV m && setW f
  | .vshuf g d a b f k pat => gOk g && dV d && sV a && sVshuf pat b && !decide (!setW f  ∨  shufBadK pat f k)
  | .vperm g d a b i f => gOk g && dV d && sV a && sV b && sV i && setH f
  | .vextr g d a l f _ => gOk g && dXM d && sV a && sXM l && setW f
  | .vins g d a v l f _ => gOk g && dV d && sV a && sXM v && sXM l && setW f
  | .vredadd g d a f => gOk g && dXM d && sV a && setA f
  | .vredmin g d a f => gOk g && dXM d && sV a && setA f
  | .vredmax g d a f => gOk g && dXM d && sV a && setA f
  | .vcvt g d a rm tf sf => gOk g && dV d && sV a && !cvtBad rm tf sf d a.reg
  | .vcvts g d a seed tf sf => gOk g && dV d && sV a && sXM seed && !cvtsBad tf sf a.reg
  | .vwadd g d a b rm f => gOk g && dV d && sV a && sV b && !decide (!setWid f  ∨  rm≠.rne ∧ !setF f  ∨  misgroup 2 d)
  | .vwmul g d a b rm f => gOk g && dV d && sV a && sV b && !decide (!setWid f  ∨  rm≠.rne ∧ !setF f  ∨  misgroup 2 d)
  | .vexp2 g d a _ f => gOk g && dV d && sV a && !decide (f≠.f32)
  | .vlog2 g d a _ f => gOk g && dV d && sV a && !decide (f≠.f32)
  | .vrcp g d a _ f => gOk g && dV d && sV a && !decide (f≠.f32)
  | .vrsqrt g d a _ f => gOk g && dV d && sV a && !decide (f≠.f32)
  | .vsqrt g d a _ f => gOk g && dV d && sV a && !decide (f≠.f32)
  | .folset g d i a => gOk g && dXnz d && sX i && sX a && !decide (a.reg=0)
  | .folsetInv g d i => gOk g && dXnz d && sX i
  | .folrd g d i _ => gOk g && dXnz d && sX i
  | .folchk g d o e acc _ => gOk g && dXnz d && sX o && sX e && !decide (acc=0)
  | .wbld g o _ _ _ => gOk g && sX o
  | .wbinv g m => gOk g && sX m
  | .mxz g _ => gOk g
  | .mxa g o h _ _ _ => gOk g && sX o && sX h
  | .mxst g o _ _ _ => gOk g && sX o
  | .mxld g o _ _ => gOk g && sX o
  | .mxdot g oa ob l _ _ _ => gOk g && sX oa && sX ob && sX l
  | .mxsend g d cap a => gOk g && dXnz d && sX cap && sX a
  | .mxkey g k => gOk g && sX k
  | .mxstat g d => gOk g && dXM d
  | .mxwait g => gOk g
  | .fence g later prior => gOk g && !decide (later=0  ∨  prior=0)
  | .fencex g a => gOk g && sXM a
  | .launch g d a => gOk g && dXnz d && sX a
  | .trigger g => gOk g
  | .bar g d n dl _ _ => gOk g && dX d && sX n && sX dl
  | .evset g e => gOk g && sX e
  | .evclr g e => gOk g && sX e
  | .evwait g d e dl _ => gOk g && dX d && sX e && sX dl
  | .mfs g d r => gOk g && dXM d && sysregOk r
  | .mts g a r => gOk g && sXM a && sysregOk r
  | .rte g => gOk g
  | .trap g _ => gOk g
  | .cyc g d => gOk g && dXM d
  | .tlbinvPage g sp va => gOk g && sX sp && sX va
  | .tlbinvSpace g sp => gOk g && sX sp
  | .tlbinvAll g => gOk g
  | .replay g d h => gOk g && dXnz d && sX h
  | .abortset g d t e => gOk g && dXnz d && sX t && sX e
  | .fatal g d h => gOk g && dXnz d && sX h
  | .pgcmd g d a => gOk g && dXnz d && sX a
  | .ageClassRise _ => true
  | .restEnd _ => true
  | .closingWaitEnd _ => true
  | .taskDispatch _ => true
  | .leafResume _ => true
  | .sendQueueRelease _ => true
  | .meshWordArrival _ => true
  | .replyAccept _ => true
  | .dividerDeliver _ => true
  | .codeLineFill _ => true
  | .codeRefetch _ _ => true
  | .cbinv _ => true
  | .storeBufferWrite _ _ => true
  | .memrefArrive _ _ => true
  | .moorDeadlineExpire _ _ => true
  | .tagsetWave _ => true
  | .reductionAck _ => true
  | .agentMcas _ => true
  | .agentEnq _ => true
  | .agentChaseHop _ => true
  | .harbourAmo _ _ _ _ _ => true
  | .harbourLr _ _ _ => true
  | .harbourSc _ _ _ _ => true
  | .reservationExpire _ => true
  | .harbourAccess _ _ _ _ _ => true
  | .fenceRecordDiscard _ _ => true
  | .gatherElementArrive _ => true
  | .gatherAgeSeal _ _ => true
  | .frameSend _ => true
  | .dataFrameReceive _ => true
  | .ackFrameReceive _ => true
  | .ackFrameSend _ _ => true
  | .replayTimeout _ _ => true
  | .ratePeriodEnd _ _ => true
  | .elementStatusReceive _ => true
  | .wincloseDrainEnd _ => true
  | .laneLightLoss _ _ _ => true
  | .laneMaskAgreed _ _ => true
  | .pathDownTimeout _ _ => true
  | .epochSwitch _ _ => true
  | .frouteWrite _ _ => true
  | .fpkgWrite _ => true
  | .keycmdLoad _ _ => true
  | .keycmdZeroise _ => true
  | .lanereq _ _ => true
  | .copyStart _ => true
  | .copyComplete _ _ => true
  | .promiseMiss _ => true
  | .twaitDeadline _ => true
  | .tileZeroingEnd _ _ => true
  | .folioFetch _ _ => true
  | .matrixCommandExecute _ => true
  | .matrixCommandComplete _ _ => true
  | .loaderCommandStart _ => true
  | .weightRowBlockArrive _ => true
  | .mxsendReceive _ => true
  | .eventBitUpdate _ => true
  | .leafReady _ _ => true
  | .evwaitDeadline _ => true
  | .barDeadline _ => true
  | .tasksetRetire _ => true
  | .asyncTrapDeliver _ => true
  | .walkComplete _ => true
  | .faultRingWrite _ => true
  | .pageCommandComplete _ _ => true
  | .moorbaseWrite _ _ _ => true
  | .memcfgLock _ => true
  | .hashMaskWrite _ _ _ => true
  | .ablimWrite _ _ => true
  | .gageWrite _ _ => true
  | .fqbaseWrite _ _ => true
  | .fqctlWrite _ _ => true
  | .wstateWrite _ _ => true
  | .launchPortLaunch _ _ => true
  | .ferryLaunch _ _ => true
  | .snap _ _ => true
  | .evict _ _ => true
  | .resume _ _ => true
  | .terminate _ _ => true
  | .preemptDrainEnd _ => true
  | .preemptDeadline _ => true
  | .powerUp _ => true
  | .reset _ => true
  | .statusRequest => true
  | .attestationRequest _ => true
  | .journalRead _ => true
  | .resetRequest => true
  | .checkpoint _ _ => true
  | .eventRingSetup _ _ => true
  | .thermalMeasure _ _ => true
  | .coreFail _ => true
  | .illegalInstruction _ => true
  | .illFormedPcIssue => true
  | .checkpointComplete _ => true

end Sys2Proof
end

