-- ==== Sys2Proof/Decode.lean ====
section
/-! DEFINITION. Reading and writing instructions: the fields of R36 to R39, the opcode map of R42, the checks of R44, and
the encoder of the same tables. -/

namespace Sys2Proof

/-- The fields of an instruction at their positions (R36). -/
structure Raw where
  opcode : BitVec 10
  pred : BitVec 4
  dst : BitVec 6
  s1 : BitVec 8
  s2 : BitVec 8
  s3 : BitVec 8
  cmpl : BitVec 12
  low : BitVec 40
deriving DecidableEq, Repr

/-- The fields of a 96-bit instruction (R36). -/
def rawOf (w : BitVec 96) : Raw where
  opcode := w.extractLsb' 86 10
  pred := w.extractLsb' 82 4
  dst := w.extractLsb' 76 6
  s1 := w.extractLsb' 68 8
  s2 := w.extractLsb' 60 8
  s3 := w.extractLsb' 52 8
  cmpl := w.extractLsb' 40 12
  low := w.extractLsb' 0 40

/-- The 96-bit instruction with the given fields (R36). -/
def wordOf (r : Raw) : BitVec 96 :=
  r.opcode ++ r.pred ++ r.dst ++ r.s1 ++ r.s2 ++ r.s3 ++ r.cmpl ++ r.low

/-- Why 96 bits are no instruction: the details 1 to 4 of R44, in that order; `short`: fewer than 12 bytes. -/
inductive DecodeError where
  | unassigned
  | reserved
  | operand60
  | operandClass
  | short
deriving DecidableEq, Repr

/-- Detail code of the illegal-instruction trap (R44). -/
def detailOf : DecodeError → Nat
  | .unassigned => 1
  | .reserved => 2
  | .operand60 => 3
  | .operandClass => 4
  | .short => 1

/-- What a register field accepts (R38): `rr` and `pr` are the named registers of R138. -/
inductive Kind where
  | none | x | xnz | xm | p | v | rr | pr
deriving DecidableEq, Repr

/-- A source field as an operand (R39). -/
def srcOf (f : BitVec 8) : Src := ⟨f.getLsbD 7, f.getLsbD 6, f.setWidth 6⟩
def bit (b : Bool) : BitVec 1 := BitVec.ofBool b
def srcBits (s : Src) : BitVec 8 := bit s.trap ++ bit s.kill ++ s.reg
/-- The guard of the predicate field (R37). -/
def guardOf (r : Raw) : Guard := ⟨r.pred.getLsbD 3, r.pred.setWidth 3⟩
def gBits (g : Guard) : BitVec 4 := bit g.neg ++ g.preg

/-- A field of `w` bits placed at bit `lo` of `W`. -/
def at_ {w : Nat} (W lo : Nat) (v : BitVec w) : BitVec W := v.setWidth W <<< lo

def Fmt.code : Fmt → BitVec 4
  | .i8 => 0 | .n8 => 1 | .i16 => 2 | .n16 => 3 | .i32 => 4 | .n32 => 5 | .i64 => 6 | .n64 => 7
  | .f32 => 8 | .f16 => 9 | .bf16 => 10 | .e4m3 => 11 | .e5m2 => 12 | .i4 => 13 | .i3 => 14 | .e8m0 => 15
def Fmt.ofCode (c : BitVec 4) : Fmt := match c.toNat with
  | 0 => .i8 | 1 => .n8 | 2 => .i16 | 3 => .n16 | 4 => .i32 | 5 => .n32 | 6 => .i64 | 7 => .n64
  | 8 => .f32 | 9 => .f16 | 10 => .bf16 | 11 => .e4m3 | 12 => .e5m2 | 13 => .i4 | 14 => .i3 | _ => .e8m0
def Rnd.code : Rnd → BitVec 2
  | .rne => 0 | .rtz => 1 | .rup => 2 | .rdn => 3
def Rnd.ofCode (c : BitVec 2) : Rnd := match c.toNat with
  | 0 => .rne | 1 => .rtz | 2 => .rup | _ => .rdn
def Width.code : Width → BitVec 2
  | .b8 => 0 | .b16 => 1 | .b32 => 2 | .b64 => 3
def Width.ofCode (c : BitVec 2) : Width := match c.toNat with
  | 0 => .b8 | 1 => .b16 | 2 => .b32 | _ => .b64
def Cond.code : Cond → BitVec 4
  | .eq => 0 | .ne => 1 | .lt => 2 | .ge => 3 | .ltu => 4 | .geu => 5 | .le => 6 | .gt => 7
  | .leu => 8 | .gtu => 9 | .tst => 10 | .ntst => 11
def Cond.ofCode (c : BitVec 4) : Cond := match c.toNat with
  | 0 => .eq | 1 => .ne | 2 => .lt | 3 => .ge | 4 => .ltu | 5 => .geu | 6 => .le | 7 => .gt
  | 8 => .leu | 9 => .gtu | 10 => .tst | _ => .ntst
def VCond.code : VCond → BitVec 4
  | .eq => 0 | .ne => 1 | .lt => 2 | .ge => 3 | .le => 4 | .gt => 5 | .uno => 6 | .ord => 7 | .tst => 8
def VCond.ofCode (c : BitVec 4) : VCond := match c.toNat with
  | 0 => .eq | 1 => .ne | 2 => .lt | 3 => .ge | 4 => .le | 5 => .gt | 6 => .uno | 7 => .ord | _ => .tst
def Shuf.code : Shuf → BitVec 4
  | .ziplo => 0 | .ziphi => 1 | .unzipe => 2 | .unzipo => 3 | .ext => 4 | .rev => 5 | .bcast => 6
def Shuf.ofCode (c : BitVec 4) : Shuf := match c.toNat with
  | 0 => .ziplo | 1 => .ziphi | 2 => .unzipe | 3 => .unzipo | 4 => .ext | 5 => .rev | _ => .bcast
def MulSign.code : MulSign → BitVec 2
  | .s => 0 | .u => 1 | .su => 2
def MulSign.ofCode (c : BitVec 2) : MulSign := match c.toNat with
  | 0 => .s | 1 => .u | _ => .su
def PartCoord.code : PartCoord → BitVec 3
  | .task => 0 | .isle => 1 | .quire => 2 | .core => 3 | .slot => 4
def PartCoord.ofCode (c : BitVec 3) : PartCoord := match c.toNat with
  | 0 => .task | 1 => .isle | 2 => .quire | 3 => .core | _ => .slot
def BarScope.code : BarScope → BitVec 3
  | .lane => 0 | .core => 1 | .quire => 2 | .isle => 3 | .package => 4 | .pod => 5
def BarScope.ofCode (c : BitVec 3) : BarScope := match c.toNat with
  | 0 => .lane | 1 => .core | 2 => .quire | 3 => .isle | 4 => .package | _ => .pod
/-- The widths of AFADD and REDFADD (R177): FP32 or BF16. -/
def fpCode (f32 : Bool) : BitVec 2 := if f32 then 2 else 1
def fpOfCode (c : BitVec 2) : Bool := decide (c = 2)

/-- What an instruction's entry asks of its fields: the kinds of `dst`, `s1`, `s2`, `s3`, the used bits of `cmpl` and
`low`, a reserved value of its own, and register numbers of 60 or more or of another class inside `low` (R91).
DEDUCED: log entry 12. -/
structure Need where
  d : Kind := .none
  s1 : Kind := .none
  s2 : Kind := .none
  s3 : Kind := .none
  cm : BitVec 12 := 0
  lm : BitVec 40 := 0
  bad : Bool := false
  d3 : Bool := false
  d4 : Bool := false
deriving DecidableEq, Repr

/-- A source field that is reserved under its kind (R39, R44 detail 2). DEDUCED: log entry 12. -/
def srcReserved (k : Kind) (f : BitVec 8) : Bool := match k with
  | .none => decide (f ≠ 0)
  | .p => !isP (f.setWidth 6) || ((srcOf f).trap || (srcOf f).kill) && decide ((srcOf f).reg = 0)
  | .pr => decide (8 ≤ f.toNat)
  | .rr => f.getLsbD 7 || f.getLsbD 6
  | _ => !bitsOk (srcOf f)

/-- A destination field that is reserved under its kind (R38, R40). -/
def dstReserved (k : Kind) (d : Dst) : Bool := match k with
  | .none => decide (d ≠ 0)
  | .p | .pr => !isP d
  | .xnz => decide (d = 0)
  | _ => false

/-- The field names an operand number from 60 to 63 (R44 detail 3). -/
def is60 (k : Kind) (r : BitVec 6) : Bool := match k with
  | .none | .p | .pr => false
  | _ => decide (60 ≤ r.toNat)

/-- The operand number is of a class that the field does not accept (R44 detail 4). -/
def badClass (k : Kind) (r : BitVec 6) : Bool := match k with
  | .none | .p | .pr => false
  | .x | .xnz => !isX r
  | .xm => !isXM r
  | .v => !isV r
  | .rr => !isRR r

/-- The checks of R44 in detail order, then the instruction. DEDUCED: log entry 12. -/
def ck (r : Raw) (n : Need) (i : Instr) : Except DecodeError Instr :=
  if decide (r.pred = 8) || decide (r.cmpl &&& ~~~n.cm ≠ 0) || decide (r.low &&& ~~~n.lm ≠ 0) || dstReserved n.d r.dst
      || srcReserved n.s1 r.s1 || srcReserved n.s2 r.s2 || srcReserved n.s3 r.s3 || n.bad then .error .reserved
  else if is60 n.d r.dst || is60 n.s1 (r.s1.setWidth 6) || is60 n.s2 (r.s2.setWidth 6) || is60 n.s3 (r.s3.setWidth 6)
      || n.d3 then .error .operand60
  else if badClass n.d r.dst || badClass n.s1 (r.s1.setWidth 6) || badClass n.s2 (r.s2.setWidth 6)
      || badClass n.s3 (r.s3.setWidth 6) || n.d4 then .error .operandClass
  else .ok i

/-- MOVI: bits [75:12] are the literal, bits [11:0] zero (R36). -/
def ckMovi (r : Raw) : Except DecodeError Instr :=
  if decide (r.pred = 8) || decide (r.low.setWidth 12 ≠ 0) then .error .reserved
  else if is60 .xm r.dst then .error .operand60
  else if badClass .xm r.dst then .error .operandClass
  else .ok (.movi (guardOf r) r.dst (r.s1 ++ r.s2 ++ r.s3 ++ r.cmpl ++ r.low.extractLsb' 12 28))

def moviRaw (g : Guard) (d : Dst) (lit : Word) : Raw :=
  ⟨0x063, gBits g, d, lit.extractLsb' 56 8, lit.extractLsb' 48 8, lit.extractLsb' 40 8, lit.extractLsb' 28 12,
    lit.extractLsb' 0 28 ++ 0#12⟩

/-- Opcodes 0x000 to 0x01f (R42). -/
def decode00 (r : Raw) : Nat → Except DecodeError Instr
  | 0 => ck r {  } (.nop (guardOf r))
  | 1 => ck r { lm := 0xffffffffff } (.br (guardOf r) r.low)
  | 2 => ck r { s1 := .x } (.jmp (guardOf r) (srcOf r.s1))
  | 3 => ck r { d := .x, cm := 0x3, lm := 0xffffffffff, bad := decide (((r.cmpl.extractLsb' 0 2)=0)) } (.call (guardOf r) r.dst (r.cmpl.extractLsb' 0 2) r.low)
  | 4 => ck r { d := .x, s1 := .x, cm := 0x3, bad := decide (((r.cmpl.extractLsb' 0 2)=0)) } (.callx (guardOf r) r.dst (srcOf r.s1) (r.cmpl.extractLsb' 0 2))
  | 5 => ck r { s1 := .x } (.ret (guardOf r) (srcOf r.s1))
  | 6 => ck r {  } (.spill (guardOf r))
  | 7 => ck r {  } (.fill (guardOf r))
  | 8 => ck r { d := .p, s1 := .p, s2 := .p } (.pand (guardOf r) r.dst (srcOf r.s1) (srcOf r.s2))
  | 9 => ck r { d := .p, s1 := .p, s2 := .p } (.por (guardOf r) r.dst (srcOf r.s1) (srcOf r.s2))
  | 10 => ck r { d := .p, s1 := .p, s2 := .p } (.pxor (guardOf r) r.dst (srcOf r.s1) (srcOf r.s2))
  | 11 => ck r { d := .p, s1 := .p, s2 := .p } (.pandn (guardOf r) r.dst (srcOf r.s1) (srcOf r.s2))
  | 12 => ck r { d := .p, s1 := .p } (.pnot (guardOf r) r.dst (srcOf r.s1))
  | 13 => ck r { d := .p, lm := 0x1 } (.pmovi (guardOf r) r.dst (r.low.getLsbD 0))
  | 14 => ck r { d := .p, s1 := .p } (.pmov (guardOf r) r.dst (srcOf r.s1))
  | 15 => ck r { d := .x, s1 := .x, s2 := .x, cm := 0x1, lm := 0xe0ffffffff, bad := decide ((5 ≤ (r.low.extractLsb' 37 3).toNat)) } (.part (guardOf r) r.dst (srcOf r.s1) (srcOf r.s2) (r.cmpl.getLsbD 0) (PartCoord.ofCode (r.low.extractLsb' 37 3)) (r.low.extractLsb' 16 16) (r.low.extractLsb' 0 16))
  | 16 => ck r {  } (.yield (guardOf r))
  | 17 => ck r { cm := 0x1, lm := 0xffffffffff } (.sleep (guardOf r) (r.cmpl.getLsbD 0) r.low)
  | 18 => ck r {  } (.exit (guardOf r))
  | 19 => ck r { s1 := .x, s2 := .x, s3 := if r.cmpl.getLsbD 0 then .x else .none, cm := 0x1, lm := 0xfffffffff, d3 := regsAny60 (r.low.extractLsb' 0 36), d4 := regsAny32 (r.low.extractLsb' 0 36) } (.fold (guardOf r) (srcOf r.s1) (srcOf r.s2) (srcOf r.s3) (r.cmpl.getLsbD 0) (r.low.extractLsb' 0 36))
  | 20 => ck r { s1 := .x } (.mdset (guardOf r) (srcOf r.s1))
  | 21 => ck r { d := .x } (.mdget (guardOf r) r.dst)
  | 22 => ck r { d := .x } (.inbcnt (guardOf r) r.dst)
  | 23 => ck r { d := .x } (.slotid (guardOf r) r.dst)
  | 24 => if r.cmpl.getLsbD 0 = false then ck r { d := .x, cm := 0x1 } (.strayrdHdr (guardOf r) r.dst)
    else ck r { d := .x, cm := 0x1 } (.strayrdCnt (guardOf r) r.dst)
  | 25 => ck r { d := .x, s1 := .x, s2 := .x, cm := 0x1 } (.loopbk (guardOf r) r.dst (srcOf r.s1) (srcOf r.s2) (r.cmpl.getLsbD 0))
  | _ => .error .unassigned

/-- Opcodes 0x040 to 0x05f (R42). -/
def decode02 (r : Raw) : Nat → Except DecodeError Instr
  | 0 => ck r { d := .xm, s1 := .xm, s2 := .xm } (.add (guardOf r) r.dst (srcOf r.s1) (srcOf r.s2))
  | 1 => ck r { d := .xm, s1 := .xm, lm := 0xffffffffff } (.addi (guardOf r) r.dst (srcOf r.s1) r.low)
  | 2 => ck r { d := .xm, s1 := .xm, s2 := .xm } (.sub (guardOf r) r.dst (srcOf r.s1) (srcOf r.s2))
  | 3 => ck r { d := .xm, s1 := .xm } (.neg (guardOf r) r.dst (srcOf r.s1))
  | 4 => ck r { d := .xm, s1 := .xm, s2 := .xm } (.mul (guardOf r) r.dst (srcOf r.s1) (srcOf r.s2))
  | 5 => ck r { d := .xm, s1 := .xm, lm := 0xffffffffff } (.muli (guardOf r) r.dst (srcOf r.s1) r.low)
  | 6 => ck r { d := .xm, s1 := .xm, s2 := .xm, cm := 0x3, bad := decide ((3 ≤ (r.cmpl.extractLsb' 0 2).toNat)) } (.mulh (guardOf r) r.dst (srcOf r.s1) (srcOf r.s2) (MulSign.ofCode (r.cmpl.extractLsb' 0 2)))
  | 7 => ck r { d := .x, s1 := .xm, s2 := .xm, cm := 0x1 } (.div (guardOf r) r.dst (srcOf r.s1) (srcOf r.s2) (r.cmpl.getLsbD 0))
  | 8 => ck r { d := .x, s1 := .xm, s2 := .xm, cm := 0x1 } (.rem (guardOf r) r.dst (srcOf r.s1) (srcOf r.s2) (r.cmpl.getLsbD 0))
  | 9 => ck r { d := .xm, s1 := .xm, s2 := .xm } (.and (guardOf r) r.dst (srcOf r.s1) (srcOf r.s2))
  | 10 => ck r { d := .xm, s1 := .xm, lm := 0xffffffffff } (.andi (guardOf r) r.dst (srcOf r.s1) r.low)
  | 11 => ck r { d := .xm, s1 := .xm, s2 := .xm } (.or (guardOf r) r.dst (srcOf r.s1) (srcOf r.s2))
  | 12 => ck r { d := .xm, s1 := .xm, lm := 0xffffffffff } (.ori (guardOf r) r.dst (srcOf r.s1) r.low)
  | 13 => ck r { d := .xm, s1 := .xm, s2 := .xm } (.xor (guardOf r) r.dst (srcOf r.s1) (srcOf r.s2))
  | 14 => ck r { d := .xm, s1 := .xm, lm := 0xffffffffff } (.xori (guardOf r) r.dst (srcOf r.s1) r.low)
  | 15 => ck r { d := .xm, s1 := .xm, s2 := .xm } (.shl (guardOf r) r.dst (srcOf r.s1) (srcOf r.s2))
  | 16 => ck r { d := .xm, s1 := .xm, lm := 0x3f } (.shli (guardOf r) r.dst (srcOf r.s1) (r.low.extractLsb' 0 6))
  | 17 => ck r { d := .xm, s1 := .xm, s2 := .xm } (.shr (guardOf r) r.dst (srcOf r.s1) (srcOf r.s2))
  | 18 => ck r { d := .xm, s1 := .xm, lm := 0x3f } (.shri (guardOf r) r.dst (srcOf r.s1) (r.low.extractLsb' 0 6))
  | 19 => ck r { d := .xm, s1 := .xm, s2 := .xm } (.sra (guardOf r) r.dst (srcOf r.s1) (srcOf r.s2))
  | 20 => ck r { d := .xm, s1 := .xm, lm := 0x3f } (.srai (guardOf r) r.dst (srcOf r.s1) (r.low.extractLsb' 0 6))
  | 21 => ck r { d := .xm, s1 := .xm, s2 := .xm } (.ror (guardOf r) r.dst (srcOf r.s1) (srcOf r.s2))
  | 22 => ck r { d := .xm, s1 := .xm } (.clz (guardOf r) r.dst (srcOf r.s1))
  | 23 => ck r { d := .xm, s1 := .xm } (.ctz (guardOf r) r.dst (srcOf r.s1))
  | 24 => ck r { d := .xm, s1 := .xm } (.popc (guardOf r) r.dst (srcOf r.s1))
  | 25 => ck r { d := .xm, s1 := .xm, cm := 0x1, lm := 0x1fff, bad := decide ((badField (r.low.extractLsb' 6 7) (r.low.extractLsb' 0 6))) } (.bext (guardOf r) r.dst (srcOf r.s1) (r.cmpl.getLsbD 0) (r.low.extractLsb' 6 7) (r.low.extractLsb' 0 6))
  | 26 => ck r { d := .xm, s1 := .xm, s2 := .xm, lm := 0x1fff, bad := decide ((badField (r.low.extractLsb' 6 7) (r.low.extractLsb' 0 6))) } (.bins (guardOf r) r.dst (srcOf r.s1) (srcOf r.s2) (r.low.extractLsb' 6 7) (r.low.extractLsb' 0 6))
  | 27 => ck r { d := .xm, s1 := .xm, cm := 0x3, bad := decide (((Width.ofCode (r.cmpl.extractLsb' 0 2))=.b64)) } (.sext (guardOf r) r.dst (srcOf r.s1) (Width.ofCode (r.cmpl.extractLsb' 0 2)))
  | 28 => ck r { d := .xm, s1 := .xm, cm := 0x3, bad := decide (((Width.ofCode (r.cmpl.extractLsb' 0 2))=.b64)) } (.zext (guardOf r) r.dst (srcOf r.s1) (Width.ofCode (r.cmpl.extractLsb' 0 2)))
  | 29 => ck r { d := .xm, s1 := .xm, s2 := .xm, cm := 0x1 } (.min (guardOf r) r.dst (srcOf r.s1) (srcOf r.s2) (r.cmpl.getLsbD 0))
  | 30 => ck r { d := .xm, s1 := .xm, s2 := .xm, cm := 0x1 } (.max (guardOf r) r.dst (srcOf r.s1) (srcOf r.s2) (r.cmpl.getLsbD 0))
  | 31 => ck r { d := .p, s1 := .xm, s2 := .xm, cm := 0xf, bad := decide ((12 ≤ (r.cmpl.extractLsb' 0 4).toNat)) } (.cmp (guardOf r) r.dst (srcOf r.s1) (srcOf r.s2) (Cond.ofCode (r.cmpl.extractLsb' 0 4)))
  | _ => .error .unassigned

/-- Opcodes 0x060 to 0x07f (R42). -/
def decode03 (r : Raw) : Nat → Except DecodeError Instr
  | 0 => ck r { d := .p, s1 := .xm, cm := 0xf, lm := 0xffffffffff, bad := decide ((12 ≤ (r.cmpl.extractLsb' 0 4).toNat)) } (.cmpi (guardOf r) r.dst (srcOf r.s1) (Cond.ofCode (r.cmpl.extractLsb' 0 4)) r.low)
  | 1 => ck r { d := .xm, s1 := .xm, s2 := .xm, s3 := .p } (.sel (guardOf r) r.dst (srcOf r.s1) (srcOf r.s2) (srcOf r.s3))
  | 2 => ck r { d := .xm, s1 := .xm } (.mov (guardOf r) r.dst (srcOf r.s1))
  | 3 => ckMovi r
  | 4 => ck r { d := .xm, s1 := .xm, s2 := .xm, cm := 0x3, lm := 0xffffffffff } (.lea (guardOf r) r.dst (srcOf r.s1) (srcOf r.s2) (r.cmpl.extractLsb' 0 2) r.low)
  | 5 => ck r { d := .xm, s1 := .xm, s2 := .xm } (.incw (guardOf r) r.dst (srcOf r.s1) (srcOf r.s2))
  | _ => .error .unassigned

/-- Opcodes 0x080 to 0x09f (R42). -/
def decode04 (r : Raw) : Nat → Except DecodeError Instr
  | 0 => ck r { s1 := if r.cmpl.extractLsb' 0 2 = 0 then .rr else if r.cmpl.extractLsb' 0 2 = 1 then .pr else .none, cm := 0x3, bad := decide (((r.cmpl.extractLsb' 0 2)=3)) } (.cwres (guardOf r) (r.cmpl.extractLsb' 0 2) (r.s1.setWidth 6))
  | 1 => ck r { d := .xm, s1 := if r.cmpl.getLsbD 0 then .pr else .rr, cm := 0x1 } (.regst (guardOf r) r.dst (r.cmpl.getLsbD 0) (r.s1.setWidth 6))
  | 2 => ck r { s1 := if r.cmpl.getLsbD 0 then .pr else .rr, cm := 0x1 } (.kill (guardOf r) (r.cmpl.getLsbD 0) (r.s1.setWidth 6))
  | 3 => ck r { d := .xm } (.cwfree (guardOf r) r.dst)
  | 4 => ck r { d := .xm, cm := 0x1 } (.regmap (guardOf r) r.dst (r.cmpl.getLsbD 0))
  | _ => .error .unassigned

/-- Opcodes 0x0a0 to 0x0bf (R42). -/
def decode05 (r : Raw) : Nat → Except DecodeError Instr
  | 0 => ck r { d := .x, s1 := .x, cm := 0x7, lm := 0xffffffffff, bad := decide (((r.cmpl.getLsbD 2) ∧ (Width.ofCode (r.cmpl.extractLsb' 0 2))=.b64)) } (.ld (guardOf r) r.dst (srcOf r.s1) (Width.ofCode (r.cmpl.extractLsb' 0 2)) (r.cmpl.getLsbD 2) r.low)
  | 1 => ck r { d := .x, s1 := .x, s2 := .x, cm := 0x1f, bad := decide (((r.cmpl.getLsbD 2) ∧ (Width.ofCode (r.cmpl.extractLsb' 0 2))=.b64)) } (.ldx (guardOf r) r.dst (srcOf r.s1) (srcOf r.s2) (r.cmpl.extractLsb' 3 2) (Width.ofCode (r.cmpl.extractLsb' 0 2)) (r.cmpl.getLsbD 2))
  | 2 => ck r { s1 := .x, s2 := .xm, cm := 0x3, lm := 0xffffffffff } (.st (guardOf r) (srcOf r.s1) (srcOf r.s2) (Width.ofCode (r.cmpl.extractLsb' 0 2)) r.low)
  | 3 => ck r { s1 := .x, s2 := .x, s3 := .xm, cm := 0x1b } (.stx (guardOf r) (srcOf r.s1) (srcOf r.s2) (srcOf r.s3) (r.cmpl.extractLsb' 3 2) (Width.ofCode (r.cmpl.extractLsb' 0 2)))
  | 4 => ck r { d := .x, s1 := .x, lm := 0xffffffffff } (.ldf (guardOf r) r.dst (srcOf r.s1) r.low)
  | 5 => ck r { d := .x, s1 := .x, lm := 0xffffffffff } (.ldfe (guardOf r) r.dst (srcOf r.s1) r.low)
  | 6 => ck r { d := .xnz, s1 := .x, s2 := .xm, lm := 0xffffffffff } (.stef (guardOf r) r.dst (srcOf r.s1) (srcOf r.s2) r.low)
  | 7 => ck r { s1 := .x, s2 := .xm, lm := 0xffffffffff } (.stf (guardOf r) (srcOf r.s1) (srcOf r.s2) r.low)
  | 8 => ck r { s1 := .x, lm := 0xffffffffff } (.purge (guardOf r) (srcOf r.s1) r.low)
  | 9 => ck r { d := .p, s1 := .x, cm := 0x1, lm := 0xffffffffff } (.tagrd (guardOf r) r.dst (srcOf r.s1) (r.cmpl.getLsbD 0) r.low)
  | 10 => ck r { d := .x, s1 := .x, s2 := .x, cm := 0x1 } (.tagset (guardOf r) r.dst (srcOf r.s1) (srcOf r.s2) (r.cmpl.getLsbD 0))
  | 11 => ck r { s1 := .x, s2 := .x, s3 := .x, cm := 0x1, lm := 0xfffffffff, d3 := regsAny60 (r.low.extractLsb' 0 36), d4 := regsAny32 (r.low.extractLsb' 0 36) } (.park (guardOf r) (srcOf r.s1) (srcOf r.s2) (srcOf r.s3) (r.cmpl.getLsbD 0) (r.low.extractLsb' 0 36))
  | _ => .error .unassigned

/-- Opcodes 0x0c0 to 0x0df (R42). -/
def decode06 (r : Raw) : Nat → Except DecodeError Instr
  | 0 => ck r { d := .x, s1 := .x, s2 := .xm, cm := 0x3, lm := 0xffffffffff, bad := decide ((narrow (Width.ofCode (r.cmpl.extractLsb' 0 2)))) } (.aadd (guardOf r) r.dst (srcOf r.s1) (srcOf r.s2) (Width.ofCode (r.cmpl.extractLsb' 0 2)) r.low)
  | 1 => ck r { d := .x, s1 := .x, s2 := .xm, cm := 0x3, lm := 0xffffffffff, bad := decide ((narrow (Width.ofCode (r.cmpl.extractLsb' 0 2)))) } (.aand (guardOf r) r.dst (srcOf r.s1) (srcOf r.s2) (Width.ofCode (r.cmpl.extractLsb' 0 2)) r.low)
  | 2 => ck r { d := .x, s1 := .x, s2 := .xm, cm := 0x3, lm := 0xffffffffff, bad := decide ((narrow (Width.ofCode (r.cmpl.extractLsb' 0 2)))) } (.aor (guardOf r) r.dst (srcOf r.s1) (srcOf r.s2) (Width.ofCode (r.cmpl.extractLsb' 0 2)) r.low)
  | 3 => ck r { d := .x, s1 := .x, s2 := .xm, cm := 0x3, lm := 0xffffffffff, bad := decide ((narrow (Width.ofCode (r.cmpl.extractLsb' 0 2)))) } (.axor (guardOf r) r.dst (srcOf r.s1) (srcOf r.s2) (Width.ofCode (r.cmpl.extractLsb' 0 2)) r.low)
  | 4 => ck r { d := .x, s1 := .x, s2 := .xm, cm := 0x7, lm := 0xffffffffff, bad := decide ((narrow (Width.ofCode (r.cmpl.extractLsb' 0 2)))) } (.amin (guardOf r) r.dst (srcOf r.s1) (srcOf r.s2) (r.cmpl.getLsbD 2) (Width.ofCode (r.cmpl.extractLsb' 0 2)) r.low)
  | 5 => ck r { d := .x, s1 := .x, s2 := .xm, cm := 0x7, lm := 0xffffffffff, bad := decide ((narrow (Width.ofCode (r.cmpl.extractLsb' 0 2)))) } (.amax (guardOf r) r.dst (srcOf r.s1) (srcOf r.s2) (r.cmpl.getLsbD 2) (Width.ofCode (r.cmpl.extractLsb' 0 2)) r.low)
  | 6 => ck r { d := .x, s1 := .x, s2 := .xm, cm := 0x3, lm := 0xffffffffff, bad := decide ((narrow (Width.ofCode (r.cmpl.extractLsb' 0 2)))) } (.axchg (guardOf r) r.dst (srcOf r.s1) (srcOf r.s2) (Width.ofCode (r.cmpl.extractLsb' 0 2)) r.low)
  | 7 => ck r { d := .x, s1 := .x, s2 := .xm, s3 := .xm, cm := 0x3, lm := 0xffffffffff, bad := decide ((narrow (Width.ofCode (r.cmpl.extractLsb' 0 2)))) } (.acas (guardOf r) r.dst (srcOf r.s1) (srcOf r.s2) (srcOf r.s3) (Width.ofCode (r.cmpl.extractLsb' 0 2)) r.low)
  | 8 => ck r { d := .x, s1 := .x, s2 := .xm, cm := 0x3, lm := 0xffffffffff, bad := decide (((r.cmpl.extractLsb' 0 2 = 0 ∨ r.cmpl.extractLsb' 0 2 = 3))) } (.afadd (guardOf r) r.dst (srcOf r.s1) (srcOf r.s2) (fpOfCode (r.cmpl.extractLsb' 0 2)) r.low)
  | 9 => ck r { d := .x, s1 := .x, s2 := .xm, cm := 0x3, lm := 0xffffffffff, bad := decide ((narrow (Width.ofCode (r.cmpl.extractLsb' 0 2)))) } (.aincw (guardOf r) r.dst (srcOf r.s1) (srcOf r.s2) (Width.ofCode (r.cmpl.extractLsb' 0 2)) r.low)
  | 10 => ck r { d := .x, s1 := .x, s2 := .xm, s3 := .xm, cm := 0x3, lm := 0xffffffffff, bad := decide ((narrow (Width.ofCode (r.cmpl.extractLsb' 0 2)))) } (.afab (guardOf r) r.dst (srcOf r.s1) (srcOf r.s2) (srcOf r.s3) (Width.ofCode (r.cmpl.extractLsb' 0 2)) r.low)
  | 11 => ck r { s1 := .x, s2 := .xm, cm := 0x3, lm := 0xffffffffff, bad := decide ((narrow (Width.ofCode (r.cmpl.extractLsb' 0 2)))) } (.redadd (guardOf r) (srcOf r.s1) (srcOf r.s2) (Width.ofCode (r.cmpl.extractLsb' 0 2)) r.low)
  | 12 => ck r { s1 := .x, s2 := .xm, cm := 0x3, lm := 0xffffffffff, bad := decide ((narrow (Width.ofCode (r.cmpl.extractLsb' 0 2)))) } (.redand (guardOf r) (srcOf r.s1) (srcOf r.s2) (Width.ofCode (r.cmpl.extractLsb' 0 2)) r.low)
  | 13 => ck r { s1 := .x, s2 := .xm, cm := 0x3, lm := 0xffffffffff, bad := decide ((narrow (Width.ofCode (r.cmpl.extractLsb' 0 2)))) } (.redor (guardOf r) (srcOf r.s1) (srcOf r.s2) (Width.ofCode (r.cmpl.extractLsb' 0 2)) r.low)
  | 14 => ck r { s1 := .x, s2 := .xm, cm := 0x3, lm := 0xffffffffff, bad := decide ((narrow (Width.ofCode (r.cmpl.extractLsb' 0 2)))) } (.redxor (guardOf r) (srcOf r.s1) (srcOf r.s2) (Width.ofCode (r.cmpl.extractLsb' 0 2)) r.low)
  | 15 => ck r { s1 := .x, s2 := .xm, cm := 0x7, lm := 0xffffffffff, bad := decide ((narrow (Width.ofCode (r.cmpl.extractLsb' 0 2)))) } (.redmin (guardOf r) (srcOf r.s1) (srcOf r.s2) (r.cmpl.getLsbD 2) (Width.ofCode (r.cmpl.extractLsb' 0 2)) r.low)
  | 16 => ck r { s1 := .x, s2 := .xm, cm := 0x7, lm := 0xffffffffff, bad := decide ((narrow (Width.ofCode (r.cmpl.extractLsb' 0 2)))) } (.redmax (guardOf r) (srcOf r.s1) (srcOf r.s2) (r.cmpl.getLsbD 2) (Width.ofCode (r.cmpl.extractLsb' 0 2)) r.low)
  | 17 => ck r { s1 := .x, s2 := .xm, cm := 0x3, lm := 0xffffffffff, bad := decide (((r.cmpl.extractLsb' 0 2 = 0 ∨ r.cmpl.extractLsb' 0 2 = 3))) } (.redfadd (guardOf r) (srcOf r.s1) (srcOf r.s2) (fpOfCode (r.cmpl.extractLsb' 0 2)) r.low)
  | 18 => ck r { d := .xnz, s1 := .x, lm := 0xffffffffff } (.mcas2 (guardOf r) r.dst (srcOf r.s1) r.low)
  | 19 => ck r { d := .xnz, s1 := .x, lm := 0xffffffffff } (.mcas4 (guardOf r) r.dst (srcOf r.s1) r.low)
  | 20 => ck r { d := .xnz, s1 := .x, s2 := .x, lm := 0xffffffffff } (.enq (guardOf r) r.dst (srcOf r.s1) (srcOf r.s2) r.low)
  | 21 => ck r { d := .xnz, s1 := .x, s2 := .xm, cm := 0x7f, lm := 0xffffffffff, bad := decide ((64 < (r.cmpl.extractLsb' 0 7).toNat)) } (.chase (guardOf r) r.dst (srcOf r.s1) (srcOf r.s2) (r.cmpl.extractLsb' 0 7) r.low)
  | _ => .error .unassigned

/-- Opcodes 0x0e0 to 0x0ff (R42). -/
def decode07 (r : Raw) : Nat → Except DecodeError Instr
  | 0 => ck r { d := .xnz, s1 := .x } (.winopen (guardOf r) r.dst (srcOf r.s1))
  | 1 => ck r { d := .xnz, s1 := .x } (.winclose (guardOf r) r.dst (srcOf r.s1))
  | 2 => ck r { d := .xm, s1 := .xm } (.winstat (guardOf r) r.dst (srcOf r.s1))
  | 3 => if r.cmpl.getLsbD 0 = false then ck r { cm := 0x1 } (.gflush (guardOf r))
    else ck r { cm := 0x1 } (.gflushNw (guardOf r))
  | 4 => ck r { d := .xm, cm := 0x1 } (.gstat (guardOf r) r.dst (r.cmpl.getLsbD 0))
  | 5 => if r.cmpl.getLsbD 0 = false then ck r { d := .xm, cm := 0x1 } (.rfrecVa (guardOf r) r.dst)
    else ck r { d := .xm, cm := 0x1 } (.rfrecSt (guardOf r) r.dst)
  | 6 => ck r { d := .xm } (.rfclr (guardOf r) r.dst)
  | 7 => ck r { d := .xm, s1 := .xm } (.connst (guardOf r) r.dst (srcOf r.s1))
  | _ => .error .unassigned

/-- Opcodes 0x100 to 0x11f (R42). -/
def decode08 (r : Raw) : Nat → Except DecodeError Instr
  | 0 => ck r { d := .xnz, s1 := .x } (.spalloc (guardOf r) r.dst (srcOf r.s1))
  | 1 => ck r { d := .x, s1 := .x } (.spfree (guardOf r) r.dst (srcOf r.s1))
  | 2 => if r.cmpl.getLsbD 0 = false then ck r { d := .x, s1 := .x, cm := 0x1 } (.thandEng (guardOf r) r.dst (srcOf r.s1))
    else ck r { d := .x, s1 := .x, cm := 0x1 } (.thandThr (guardOf r) r.dst (srcOf r.s1))
  | 3 => ck r { d := .xnz, s1 := .x, s2 := .x, s3 := .x, cm := 0x3f, lm := 0xfffff0ffff, bad := decide ((weightFmt (Fmt.ofCode (r.cmpl.extractLsb' 1 4)))) } (.tcopy (guardOf r) r.dst (srcOf r.s1) (srcOf r.s2) (srcOf r.s3) (r.cmpl.getLsbD 5) (Fmt.ofCode (r.cmpl.extractLsb' 1 4)) (r.cmpl.getLsbD 0) (r.low.extractLsb' 24 16) (r.low.extractLsb' 20 4) (r.low.extractLsb' 0 16))
  | 4 => ck r { d := .x, s1 := .x, s2 := .x, s3 := .x, cm := 0x1 } (.twait (guardOf r) r.dst (srcOf r.s1) (srcOf r.s2) (srcOf r.s3) (r.cmpl.getLsbD 0))
  | 5 => ck r { d := .xm, s1 := .xm } (.tstat (guardOf r) r.dst (srcOf r.s1))
  | 6 => ck r { d := .x, s1 := .x, cm := 0x7, lm := 0xffffffffff, bad := decide (((r.cmpl.getLsbD 2) ∧ (Width.ofCode (r.cmpl.extractLsb' 0 2))=.b64)) } (.spld (guardOf r) r.dst (srcOf r.s1) (Width.ofCode (r.cmpl.extractLsb' 0 2)) (r.cmpl.getLsbD 2) r.low)
  | 7 => ck r { s1 := .x, s2 := .xm, cm := 0x3, lm := 0xffffffffff } (.spst (guardOf r) (srcOf r.s1) (srcOf r.s2) (Width.ofCode (r.cmpl.extractLsb' 0 2)) r.low)
  | 8 => ck r { d := .xm, s1 := if r.cmpl.getLsbD 0 then .none else .xm, cm := 0x1 } (.sphash (guardOf r) r.dst (srcOf r.s1) (r.cmpl.getLsbD 0))
  | 9 => ck r { d := .xm } (.tcq (guardOf r) r.dst)
  | _ => .error .unassigned

/-- Opcodes 0x120 to 0x13f (R42). -/
def decode09 (r : Raw) : Nat → Except DecodeError Instr
  | 0 => ck r { d := .xnz, cm := 0x1 } (.vlease (guardOf r) r.dst (r.cmpl.getLsbD 0))
  | 1 => ck r {  } (.vrel (guardOf r))
  | 2 => ck r { d := .v, s1 := .x, cm := 0xf, lm := 0xffff, bad := decide ((!setW (Fmt.ofCode (r.cmpl.extractLsb' 0 4)))) } (.vld (guardOf r) r.dst (srcOf r.s1) (Fmt.ofCode (r.cmpl.extractLsb' 0 4)) (r.low.extractLsb' 0 16))
  | 3 => ck r { s1 := .x, s2 := .v, cm := 0xf, lm := 0xffff, bad := decide ((!setW (Fmt.ofCode (r.cmpl.extractLsb' 0 4)))) } (.vst (guardOf r) (srcOf r.s1) (srcOf r.s2) (Fmt.ofCode (r.cmpl.extractLsb' 0 4)) (r.low.extractLsb' 0 16))
  | 4 => ck r { d := .v, s1 := .x, s2 := .v, cm := 0xf, lm := 0xffff, bad := decide ((!setH (Fmt.ofCode (r.cmpl.extractLsb' 0 4)))) } (.vldx (guardOf r) r.dst (srcOf r.s1) (srcOf r.s2) (Fmt.ofCode (r.cmpl.extractLsb' 0 4)) (r.low.extractLsb' 0 16))
  | 5 => ck r { s1 := .x, s2 := .v, s3 := .v, cm := 0xf, lm := 0xffff, bad := decide ((!setH (Fmt.ofCode (r.cmpl.extractLsb' 0 4)))) } (.vstx (guardOf r) (srcOf r.s1) (srcOf r.s2) (srcOf r.s3) (Fmt.ofCode (r.cmpl.extractLsb' 0 4)) (r.low.extractLsb' 0 16))
  | 6 => ck r { d := .v, s1 := .v } (.vmov (guardOf r) r.dst (srcOf r.s1))
  | 7 => ck r { d := .v, s1 := .xm, cm := 0xf, bad := decide ((!setW (Fmt.ofCode (r.cmpl.extractLsb' 0 4)))) } (.vsplat (guardOf r) r.dst (srcOf r.s1) (Fmt.ofCode (r.cmpl.extractLsb' 0 4)))
  | 8 => ck r { d := .v, s1 := .v, s2 := .v, cm := 0xd0f, bad := decide ((!setA (Fmt.ofCode (r.cmpl.extractLsb' 0 4))  ∨  (r.cmpl.getLsbD 8) ∧ !setI (Fmt.ofCode (r.cmpl.extractLsb' 0 4))  ∨  (Rnd.ofCode (r.cmpl.extractLsb' 10 2))≠.rne ∧ !setF (Fmt.ofCode (r.cmpl.extractLsb' 0 4)))) } (.vadd (guardOf r) r.dst (srcOf r.s1) (srcOf r.s2) (Rnd.ofCode (r.cmpl.extractLsb' 10 2)) (r.cmpl.getLsbD 8) (Fmt.ofCode (r.cmpl.extractLsb' 0 4)))
  | 9 => ck r { d := .v, s1 := .v, s2 := .v, cm := 0xd0f, bad := decide ((!setA (Fmt.ofCode (r.cmpl.extractLsb' 0 4))  ∨  (r.cmpl.getLsbD 8) ∧ !setI (Fmt.ofCode (r.cmpl.extractLsb' 0 4))  ∨  (Rnd.ofCode (r.cmpl.extractLsb' 10 2))≠.rne ∧ !setF (Fmt.ofCode (r.cmpl.extractLsb' 0 4)))) } (.vsub (guardOf r) r.dst (srcOf r.s1) (srcOf r.s2) (Rnd.ofCode (r.cmpl.extractLsb' 10 2)) (r.cmpl.getLsbD 8) (Fmt.ofCode (r.cmpl.extractLsb' 0 4)))
  | 10 => ck r { d := .v, s1 := .v, s2 := .v, cm := 0xd0f, bad := decide ((!setA (Fmt.ofCode (r.cmpl.extractLsb' 0 4))  ∨  (r.cmpl.getLsbD 8) ∧ !setI (Fmt.ofCode (r.cmpl.extractLsb' 0 4))  ∨  (Rnd.ofCode (r.cmpl.extractLsb' 10 2))≠.rne ∧ !setF (Fmt.ofCode (r.cmpl.extractLsb' 0 4)))) } (.vmul (guardOf r) r.dst (srcOf r.s1) (srcOf r.s2) (Rnd.ofCode (r.cmpl.extractLsb' 10 2)) (r.cmpl.getLsbD 8) (Fmt.ofCode (r.cmpl.extractLsb' 0 4)))
  | 11 => ck r { d := .v, s1 := .v, s2 := .v, s3 := .v, cm := 0xc0f, bad := decide ((!setF (Fmt.ofCode (r.cmpl.extractLsb' 0 4)))) } (.vfma (guardOf r) r.dst (srcOf r.s1) (srcOf r.s2) (srcOf r.s3) (Rnd.ofCode (r.cmpl.extractLsb' 10 2)) (Fmt.ofCode (r.cmpl.extractLsb' 0 4)))
  | 12 => ck r { d := .v, s1 := .v, s2 := .v, s3 := .v, cm := 0xc0f, bad := decide ((!setF (Fmt.ofCode (r.cmpl.extractLsb' 0 4)))) } (.vfms (guardOf r) r.dst (srcOf r.s1) (srcOf r.s2) (srcOf r.s3) (Rnd.ofCode (r.cmpl.extractLsb' 10 2)) (Fmt.ofCode (r.cmpl.extractLsb' 0 4)))
  | 13 => ck r { d := .v, s1 := .v, s2 := .v, s3 := .v, cm := 0xc0f, bad := decide ((!setF (Fmt.ofCode (r.cmpl.extractLsb' 0 4)))) } (.vfnma (guardOf r) r.dst (srcOf r.s1) (srcOf r.s2) (srcOf r.s3) (Rnd.ofCode (r.cmpl.extractLsb' 10 2)) (Fmt.ofCode (r.cmpl.extractLsb' 0 4)))
  | 14 => ck r { d := .v, s1 := .v, s2 := .v, cm := 0xf, bad := decide ((!setA (Fmt.ofCode (r.cmpl.extractLsb' 0 4)))) } (.vmin (guardOf r) r.dst (srcOf r.s1) (srcOf r.s2) (Fmt.ofCode (r.cmpl.extractLsb' 0 4)))
  | 15 => ck r { d := .v, s1 := .v, s2 := .v, cm := 0xf, bad := decide ((!setA (Fmt.ofCode (r.cmpl.extractLsb' 0 4)))) } (.vmax (guardOf r) r.dst (srcOf r.s1) (srcOf r.s2) (Fmt.ofCode (r.cmpl.extractLsb' 0 4)))
  | 16 => ck r { d := .v, s1 := .v, cm := 0x10f, bad := decide ((!setA (Fmt.ofCode (r.cmpl.extractLsb' 0 4))  ∨  (r.cmpl.getLsbD 8) ∧ !setI (Fmt.ofCode (r.cmpl.extractLsb' 0 4)))) } (.vabs (guardOf r) r.dst (srcOf r.s1) (r.cmpl.getLsbD 8) (Fmt.ofCode (r.cmpl.extractLsb' 0 4)))
  | 17 => ck r { d := .v, s1 := .v, cm := 0x10f, bad := decide ((!setA (Fmt.ofCode (r.cmpl.extractLsb' 0 4))  ∨  (r.cmpl.getLsbD 8) ∧ !setI (Fmt.ofCode (r.cmpl.extractLsb' 0 4)))) } (.vneg (guardOf r) r.dst (srcOf r.s1) (r.cmpl.getLsbD 8) (Fmt.ofCode (r.cmpl.extractLsb' 0 4)))
  | 18 => ck r { d := .v, s1 := .v, s2 := .v, cm := 0xf, bad := decide ((!setW (Fmt.ofCode (r.cmpl.extractLsb' 0 4)))) } (.vand (guardOf r) r.dst (srcOf r.s1) (srcOf r.s2) (Fmt.ofCode (r.cmpl.extractLsb' 0 4)))
  | 19 => ck r { d := .v, s1 := .v, s2 := .v, cm := 0xf, bad := decide ((!setW (Fmt.ofCode (r.cmpl.extractLsb' 0 4)))) } (.vor (guardOf r) r.dst (srcOf r.s1) (srcOf r.s2) (Fmt.ofCode (r.cmpl.extractLsb' 0 4)))
  | 20 => ck r { d := .v, s1 := .v, s2 := .v, cm := 0xf, bad := decide ((!setW (Fmt.ofCode (r.cmpl.extractLsb' 0 4)))) } (.vxor (guardOf r) r.dst (srcOf r.s1) (srcOf r.s2) (Fmt.ofCode (r.cmpl.extractLsb' 0 4)))
  | 21 => ck r { d := .v, s1 := .v, s2 := .v, cm := 0xf, bad := decide ((!setI (Fmt.ofCode (r.cmpl.extractLsb' 0 4)))) } (.vshl (guardOf r) r.dst (srcOf r.s1) (srcOf r.s2) (Fmt.ofCode (r.cmpl.extractLsb' 0 4)))
  | 22 => ck r { d := .v, s1 := .v, s2 := .v, cm := 0xf, bad := decide ((!setI (Fmt.ofCode (r.cmpl.extractLsb' 0 4)))) } (.vshr (guardOf r) r.dst (srcOf r.s1) (srcOf r.s2) (Fmt.ofCode (r.cmpl.extractLsb' 0 4)))
  | 23 => ck r { d := .v, s1 := .v, s2 := .v, cm := 0xf, bad := decide ((!setI (Fmt.ofCode (r.cmpl.extractLsb' 0 4)))) } (.vsra (guardOf r) r.dst (srcOf r.s1) (srcOf r.s2) (Fmt.ofCode (r.cmpl.extractLsb' 0 4)))
  | 24 => ck r { d := .v, s1 := .v, s2 := .v, cm := 0xff, bad := decide ((9 ≤ (r.cmpl.extractLsb' 4 4).toNat) ∨ (!setA (Fmt.ofCode (r.cmpl.extractLsb' 0 4))  ∨  !vcondOk (VCond.ofCode (r.cmpl.extractLsb' 4 4)) (Fmt.ofCode (r.cmpl.extractLsb' 0 4)))) } (.vcmp (guardOf r) r.dst (srcOf r.s1) (srcOf r.s2) (VCond.ofCode (r.cmpl.extractLsb' 4 4)) (Fmt.ofCode (r.cmpl.extractLsb' 0 4)))
  | 25 => ck r { d := .v, s1 := .v, s2 := .v, s3 := .v, cm := 0xf, bad := decide ((!setW (Fmt.ofCode (r.cmpl.extractLsb' 0 4)))) } (.vsel (guardOf r) r.dst (srcOf r.s1) (srcOf r.s2) (srcOf r.s3) (Fmt.ofCode (r.cmpl.extractLsb' 0 4)))
  | 26 => ck r { d := .v, s1 := .v, s2 := if shufOne (Shuf.ofCode (r.low.extractLsb' 0 4)) then .none else .v, cm := 0xf, lm := 0xfff0f, bad := decide ((7 ≤ (r.low.extractLsb' 0 4).toNat) ∨ (!setW (Fmt.ofCode (r.cmpl.extractLsb' 0 4))  ∨  shufBadK (Shuf.ofCode (r.low.extractLsb' 0 4)) (Fmt.ofCode (r.cmpl.extractLsb' 0 4)) (r.low.extractLsb' 8 12))) } (.vshuf (guardOf r) r.dst (srcOf r.s1) (srcOf r.s2) (Fmt.ofCode (r.cmpl.extractLsb' 0 4)) (r.low.extractLsb' 8 12) (Shuf.ofCode (r.low.extractLsb' 0 4)))
  | 27 => ck r { d := .v, s1 := .v, s2 := .v, s3 := .v, cm := 0xf, bad := decide ((!setH (Fmt.ofCode (r.cmpl.extractLsb' 0 4)))) } (.vperm (guardOf r) r.dst (srcOf r.s1) (srcOf r.s2) (srcOf r.s3) (Fmt.ofCode (r.cmpl.extractLsb' 0 4)))
  | 28 => ck r { d := .xm, s1 := .v, s2 := .xm, cm := 0xf, lm := 0x3ff, bad := decide ((!setW (Fmt.ofCode (r.cmpl.extractLsb' 0 4)))) } (.vextr (guardOf r) r.dst (srcOf r.s1) (srcOf r.s2) (Fmt.ofCode (r.cmpl.extractLsb' 0 4)) (r.low.extractLsb' 0 10))
  | 29 => ck r { d := .v, s1 := .v, s2 := .xm, s3 := .xm, cm := 0xf, lm := 0x3ff, bad := decide ((!setW (Fmt.ofCode (r.cmpl.extractLsb' 0 4)))) } (.vins (guardOf r) r.dst (srcOf r.s1) (srcOf r.s2) (srcOf r.s3) (Fmt.ofCode (r.cmpl.extractLsb' 0 4)) (r.low.extractLsb' 0 10))
  | 30 => ck r { d := .xm, s1 := .v, cm := 0xf, bad := decide ((!setA (Fmt.ofCode (r.cmpl.extractLsb' 0 4)))) } (.vredadd (guardOf r) r.dst (srcOf r.s1) (Fmt.ofCode (r.cmpl.extractLsb' 0 4)))
  | 31 => ck r { d := .xm, s1 := .v, cm := 0xf, bad := decide ((!setA (Fmt.ofCode (r.cmpl.extractLsb' 0 4)))) } (.vredmin (guardOf r) r.dst (srcOf r.s1) (Fmt.ofCode (r.cmpl.extractLsb' 0 4)))
  | _ => .error .unassigned

/-- Opcodes 0x140 to 0x15f (R42). -/
def decode0A (r : Raw) : Nat → Except DecodeError Instr
  | 0 => ck r { d := .xm, s1 := .v, cm := 0xf, bad := decide ((!setA (Fmt.ofCode (r.cmpl.extractLsb' 0 4)))) } (.vredmax (guardOf r) r.dst (srcOf r.s1) (Fmt.ofCode (r.cmpl.extractLsb' 0 4)))
  | 1 => ck r { d := .v, s1 := .v, cm := 0xcff, bad := decide ((cvtBad (Rnd.ofCode (r.cmpl.extractLsb' 10 2)) (Fmt.ofCode (r.cmpl.extractLsb' 4 4)) (Fmt.ofCode (r.cmpl.extractLsb' 0 4)) r.dst (srcOf r.s1).reg)) } (.vcvt (guardOf r) r.dst (srcOf r.s1) (Rnd.ofCode (r.cmpl.extractLsb' 10 2)) (Fmt.ofCode (r.cmpl.extractLsb' 4 4)) (Fmt.ofCode (r.cmpl.extractLsb' 0 4)))
  | 2 => ck r { d := .v, s1 := .v, s2 := .xm, cm := 0xff, bad := decide ((cvtsBad (Fmt.ofCode (r.cmpl.extractLsb' 4 4)) (Fmt.ofCode (r.cmpl.extractLsb' 0 4)) (srcOf r.s1).reg)) } (.vcvts (guardOf r) r.dst (srcOf r.s1) (srcOf r.s2) (Fmt.ofCode (r.cmpl.extractLsb' 4 4)) (Fmt.ofCode (r.cmpl.extractLsb' 0 4)))
  | 3 => ck r { d := .v, s1 := .v, s2 := .v, cm := 0xc0f, bad := decide ((!setWid (Fmt.ofCode (r.cmpl.extractLsb' 0 4))  ∨  (Rnd.ofCode (r.cmpl.extractLsb' 10 2))≠.rne ∧ !setF (Fmt.ofCode (r.cmpl.extractLsb' 0 4))  ∨  misgroup 2 r.dst)) } (.vwadd (guardOf r) r.dst (srcOf r.s1) (srcOf r.s2) (Rnd.ofCode (r.cmpl.extractLsb' 10 2)) (Fmt.ofCode (r.cmpl.extractLsb' 0 4)))
  | 4 => ck r { d := .v, s1 := .v, s2 := .v, cm := 0xc0f, bad := decide ((!setWid (Fmt.ofCode (r.cmpl.extractLsb' 0 4))  ∨  (Rnd.ofCode (r.cmpl.extractLsb' 10 2))≠.rne ∧ !setF (Fmt.ofCode (r.cmpl.extractLsb' 0 4))  ∨  misgroup 2 r.dst)) } (.vwmul (guardOf r) r.dst (srcOf r.s1) (srcOf r.s2) (Rnd.ofCode (r.cmpl.extractLsb' 10 2)) (Fmt.ofCode (r.cmpl.extractLsb' 0 4)))
  | 5 => ck r { d := .v, s1 := .v, cm := 0xc0f, bad := decide (((Fmt.ofCode (r.cmpl.extractLsb' 0 4))≠.f32)) } (.vexp2 (guardOf r) r.dst (srcOf r.s1) (Rnd.ofCode (r.cmpl.extractLsb' 10 2)) (Fmt.ofCode (r.cmpl.extractLsb' 0 4)))
  | 6 => ck r { d := .v, s1 := .v, cm := 0xc0f, bad := decide (((Fmt.ofCode (r.cmpl.extractLsb' 0 4))≠.f32)) } (.vlog2 (guardOf r) r.dst (srcOf r.s1) (Rnd.ofCode (r.cmpl.extractLsb' 10 2)) (Fmt.ofCode (r.cmpl.extractLsb' 0 4)))
  | 7 => ck r { d := .v, s1 := .v, cm := 0xc0f, bad := decide (((Fmt.ofCode (r.cmpl.extractLsb' 0 4))≠.f32)) } (.vrcp (guardOf r) r.dst (srcOf r.s1) (Rnd.ofCode (r.cmpl.extractLsb' 10 2)) (Fmt.ofCode (r.cmpl.extractLsb' 0 4)))
  | 8 => ck r { d := .v, s1 := .v, cm := 0xc0f, bad := decide (((Fmt.ofCode (r.cmpl.extractLsb' 0 4))≠.f32)) } (.vrsqrt (guardOf r) r.dst (srcOf r.s1) (Rnd.ofCode (r.cmpl.extractLsb' 10 2)) (Fmt.ofCode (r.cmpl.extractLsb' 0 4)))
  | 9 => ck r { d := .v, s1 := .v, cm := 0xc0f, bad := decide (((Fmt.ofCode (r.cmpl.extractLsb' 0 4))≠.f32)) } (.vsqrt (guardOf r) r.dst (srcOf r.s1) (Rnd.ofCode (r.cmpl.extractLsb' 10 2)) (Fmt.ofCode (r.cmpl.extractLsb' 0 4)))
  | _ => .error .unassigned

/-- Opcodes 0x160 to 0x17f (R42). -/
def decode0B (r : Raw) : Nat → Except DecodeError Instr
  | 0 => if r.cmpl.getLsbD 0 = false then ck r { d := .xnz, s1 := .x, s2 := .x, cm := 0x1, bad := decide (((srcOf r.s2).reg=0)) } (.folset (guardOf r) r.dst (srcOf r.s1) (srcOf r.s2))
    else ck r { d := .xnz, s1 := .x, cm := 0x1 } (.folsetInv (guardOf r) r.dst (srcOf r.s1))
  | 1 => ck r { d := .xnz, s1 := .x, cm := 0x7 } (.folrd (guardOf r) r.dst (srcOf r.s1) (r.cmpl.extractLsb' 0 3))
  | 2 => ck r { d := .xnz, s1 := .x, s2 := .x, cm := 0x3, lm := 0xffff, bad := decide (((r.cmpl.extractLsb' 0 2)=0)) } (.folchk (guardOf r) r.dst (srcOf r.s1) (srcOf r.s2) (r.cmpl.extractLsb' 0 2) (r.low.extractLsb' 0 16))
  | 3 => ck r { s1 := .x, cm := 0x1ff, lm := 0x3fffff } (.wbld (guardOf r) (srcOf r.s1) (r.cmpl.extractLsb' 0 9) (r.low.extractLsb' 16 6) (r.low.extractLsb' 0 16))
  | 4 => ck r { s1 := .x } (.wbinv (guardOf r) (srcOf r.s1))
  | 5 => ck r { lm := 0x1c00000 } (.mxz (guardOf r) (r.low.extractLsb' 22 3))
  | 6 => ck r { s1 := .x, s2 := .x, lm := 0x1ffffff } (.mxa (guardOf r) (srcOf r.s1) (srcOf r.s2) (r.low.extractLsb' 22 3) (r.low.extractLsb' 16 6) (r.low.extractLsb' 0 16))
  | 7 => ck r { s1 := .x, cm := 0x1, lm := 0x1c0ffff } (.mxst (guardOf r) (srcOf r.s1) (r.cmpl.getLsbD 0) (r.low.extractLsb' 22 3) (r.low.extractLsb' 0 16))
  | 8 => ck r { s1 := .x, lm := 0x1c0ffff } (.mxld (guardOf r) (srcOf r.s1) (r.low.extractLsb' 22 3) (r.low.extractLsb' 0 16))
  | 9 => ck r { s1 := .x, s2 := .x, s3 := .x, lm := 0x7ffffffff } (.mxdot (guardOf r) (srcOf r.s1) (srcOf r.s2) (srcOf r.s3) (r.low.extractLsb' 32 3) (r.low.extractLsb' 16 16) (r.low.extractLsb' 0 16))
  | 10 => ck r { d := .xnz, s1 := .x, s2 := .x } (.mxsend (guardOf r) r.dst (srcOf r.s1) (srcOf r.s2))
  | 11 => ck r { s1 := .x } (.mxkey (guardOf r) (srcOf r.s1))
  | 12 => ck r { d := .xm } (.mxstat (guardOf r) r.dst)
  | 13 => ck r {  } (.mxwait (guardOf r))
  | _ => .error .unassigned

/-- Opcodes 0x180 to 0x19f (R42). -/
def decode0C (r : Raw) : Nat → Except DecodeError Instr
  | 0 => ck r { cm := 0x3ff, bad := decide (((r.cmpl.extractLsb' 5 5)=0  ∨  (r.cmpl.extractLsb' 0 5)=0)) } (.fence (guardOf r) (r.cmpl.extractLsb' 5 5) (r.cmpl.extractLsb' 0 5))
  | 1 => ck r { s1 := .xm } (.fencex (guardOf r) (srcOf r.s1))
  | 2 => ck r { d := .xnz, s1 := .x } (.launch (guardOf r) r.dst (srcOf r.s1))
  | 3 => ck r {  } (.trigger (guardOf r))
  | 4 => ck r { d := .x, s1 := .x, s2 := .x, cm := 0x7, lm := 0xf, bad := decide ((6 ≤ (r.cmpl.extractLsb' 0 3).toNat)) } (.bar (guardOf r) r.dst (srcOf r.s1) (srcOf r.s2) (BarScope.ofCode (r.cmpl.extractLsb' 0 3)) (r.low.extractLsb' 0 4))
  | 5 => ck r { s1 := .x } (.evset (guardOf r) (srcOf r.s1))
  | 6 => ck r { s1 := .x } (.evclr (guardOf r) (srcOf r.s1))
  | 7 => ck r { d := .x, s1 := .x, s2 := .x, cm := 0x3 } (.evwait (guardOf r) r.dst (srcOf r.s1) (srcOf r.s2) (r.cmpl.extractLsb' 0 2))
  | _ => .error .unassigned

/-- Opcodes 0x1a0 to 0x1bf (R42). -/
def decode0D (r : Raw) : Nat → Except DecodeError Instr
  | 0 => ck r { d := .xm, lm := 0xfff, bad := decide ((!sysregOk (r.low.extractLsb' 0 12))) } (.mfs (guardOf r) r.dst (r.low.extractLsb' 0 12))
  | 1 => ck r { s1 := .xm, lm := 0xfff, bad := decide ((!sysregOk (r.low.extractLsb' 0 12))) } (.mts (guardOf r) (srcOf r.s1) (r.low.extractLsb' 0 12))
  | 2 => ck r {  } (.rte (guardOf r))
  | 3 => ck r { lm := 0xffff } (.trap (guardOf r) (r.low.extractLsb' 0 16))
  | 4 => ck r { d := .xm } (.cyc (guardOf r) r.dst)
  | 5 =>
    match (r.cmpl.extractLsb' 0 2).toNat with
    | 0 => ck r { s1 := .x, s2 := .x, cm := 0x3 } (.tlbinvPage (guardOf r) (srcOf r.s1) (srcOf r.s2))
    | 1 => ck r { s1 := .x, cm := 0x3 } (.tlbinvSpace (guardOf r) (srcOf r.s1))
    | 2 => ck r { cm := 0x3 } (.tlbinvAll (guardOf r))
    | _ => .error .reserved
  | 6 => ck r { d := .xnz, s1 := .x } (.replay (guardOf r) r.dst (srcOf r.s1))
  | 7 => ck r { d := .xnz, s1 := .x, s2 := .x } (.abortset (guardOf r) r.dst (srcOf r.s1) (srcOf r.s2))
  | 8 => ck r { d := .xnz, s1 := .x } (.fatal (guardOf r) r.dst (srcOf r.s1))
  | 9 => ck r { d := .xnz, s1 := .x } (.pgcmd (guardOf r) r.dst (srcOf r.s1))
  | _ => .error .unassigned

/-- The instruction with the given fields, by the class of its opcode (R42). -/
def decodeRaw (r : Raw) : Except DecodeError Instr :=
  match r.opcode.toNat / 32 with
  | 0 => decode00 r (r.opcode.toNat % 32)
  | 2 => decode02 r (r.opcode.toNat % 32)
  | 3 => decode03 r (r.opcode.toNat % 32)
  | 4 => decode04 r (r.opcode.toNat % 32)
  | 5 => decode05 r (r.opcode.toNat % 32)
  | 6 => decode06 r (r.opcode.toNat % 32)
  | 7 => decode07 r (r.opcode.toNat % 32)
  | 8 => decode08 r (r.opcode.toNat % 32)
  | 9 => decode09 r (r.opcode.toNat % 32)
  | 10 => decode0A r (r.opcode.toNat % 32)
  | 11 => decode0B r (r.opcode.toNat % 32)
  | 12 => decode0C r (r.opcode.toNat % 32)
  | 13 => decode0D r (r.opcode.toNat % 32)
  | _ => .error .unassigned

/-- The instruction that 96 bits stand for (R42, R44). -/
def decodeWord (w : BitVec 96) : Except DecodeError Instr := decodeRaw (rawOf w)

/-- The number whose bytes, lowest first, are the list's (R4). -/
def bytesNat : List Byte → Nat
  | [] => 0
  | b :: bs => b.toNat + 256 * bytesNat bs

/-- The instruction that the first 12 bytes hold, little-endian (R24), and the bytes after them. -/
def decodeBytes (bs : List Byte) : Except DecodeError (Instr × List Byte) :=
  if bs.length < 12 then .error .short
  else match decodeWord (BitVec.ofNat 96 (bytesNat (bs.take 12))) with
    | .ok i => .ok (i, bs.drop 12)
    | .error e => .error e

/-- The fields of an instruction, none for an event row. -/
def encodeRaw : Instr → Option Raw
  | .nop g => some ⟨0x000, gBits g, 0, 0, 0, 0, 0, 0⟩
  | .br g disp => some ⟨0x001, gBits g, 0, 0, 0, 0, 0, disp⟩
  | .jmp g t => some ⟨0x002, gBits g, 0, (srcBits t), 0, 0, 0, 0⟩
  | .call g d slide disp => some ⟨0x003, gBits g, d, 0, 0, 0, at_ 12 0 (slide), disp⟩
  | .callx g d t slide => some ⟨0x004, gBits g, d, (srcBits t), 0, 0, at_ 12 0 (slide), 0⟩
  | .ret g t => some ⟨0x005, gBits g, 0, (srcBits t), 0, 0, 0, 0⟩
  | .spill g => some ⟨0x006, gBits g, 0, 0, 0, 0, 0, 0⟩
  | .fill g => some ⟨0x007, gBits g, 0, 0, 0, 0, 0, 0⟩
  | .pand g d a b => some ⟨0x008, gBits g, d, (srcBits a), (srcBits b), 0, 0, 0⟩
  | .por g d a b => some ⟨0x009, gBits g, d, (srcBits a), (srcBits b), 0, 0, 0⟩
  | .pxor g d a b => some ⟨0x00a, gBits g, d, (srcBits a), (srcBits b), 0, 0, 0⟩
  | .pandn g d a b => some ⟨0x00b, gBits g, d, (srcBits a), (srcBits b), 0, 0, 0⟩
  | .pnot g d a => some ⟨0x00c, gBits g, d, (srcBits a), 0, 0, 0, 0⟩
  | .pmovi g d v => some ⟨0x00d, gBits g, d, 0, 0, 0, 0, at_ 40 0 (bit v)⟩
  | .pmov g d a => some ⟨0x00e, gBits g, d, (srcBits a), 0, 0, 0, 0⟩
  | .part g d n gr hi coord m p => some ⟨0x00f, gBits g, d, (srcBits n), (srcBits gr), 0, at_ 12 0 (bit hi), at_ 40 37 (coord.code) ||| at_ 40 16 (m) ||| at_ 40 0 (p)⟩
  | .yield g => some ⟨0x010, gBits g, 0, 0, 0, 0, 0, 0⟩
  | .sleep g msg n => some ⟨0x011, gBits g, 0, 0, 0, 0, at_ 12 0 (bit msg), n⟩
  | .exit g => some ⟨0x012, gBits g, 0, 0, 0, 0, 0, 0⟩
  | .fold g leaf ev ext x regs => some ⟨0x013, gBits g, 0, (srcBits leaf), (srcBits ev), (srcBits ext), at_ 12 0 (bit x), at_ 40 0 (regs)⟩
  | .mdset g a => some ⟨0x014, gBits g, 0, (srcBits a), 0, 0, 0, 0⟩
  | .mdget g d => some ⟨0x015, gBits g, d, 0, 0, 0, 0, 0⟩
  | .inbcnt g d => some ⟨0x016, gBits g, d, 0, 0, 0, 0, 0⟩
  | .slotid g d => some ⟨0x017, gBits g, d, 0, 0, 0, 0, 0⟩
  | .strayrdHdr g d => some ⟨0x018, gBits g, d, 0, 0, 0, 0, 0⟩
  | .strayrdCnt g d => some ⟨0x018, gBits g, d, 0, 0, 0, at_ 12 0 (1#1), 0⟩
  | .loopbk g d hdr data last => some ⟨0x019, gBits g, d, (srcBits hdr), (srcBits data), 0, at_ 12 0 (bit last), 0⟩
  | .add g d a b => some ⟨0x040, gBits g, d, (srcBits a), (srcBits b), 0, 0, 0⟩
  | .addi g d a imm => some ⟨0x041, gBits g, d, (srcBits a), 0, 0, 0, imm⟩
  | .sub g d a b => some ⟨0x042, gBits g, d, (srcBits a), (srcBits b), 0, 0, 0⟩
  | .neg g d a => some ⟨0x043, gBits g, d, (srcBits a), 0, 0, 0, 0⟩
  | .mul g d a b => some ⟨0x044, gBits g, d, (srcBits a), (srcBits b), 0, 0, 0⟩
  | .muli g d a imm => some ⟨0x045, gBits g, d, (srcBits a), 0, 0, 0, imm⟩
  | .mulh g d a b sg => some ⟨0x046, gBits g, d, (srcBits a), (srcBits b), 0, at_ 12 0 (sg.code), 0⟩
  | .div g d a b uns => some ⟨0x047, gBits g, d, (srcBits a), (srcBits b), 0, at_ 12 0 (bit uns), 0⟩
  | .rem g d a b uns => some ⟨0x048, gBits g, d, (srcBits a), (srcBits b), 0, at_ 12 0 (bit uns), 0⟩
  | .and g d a b => some ⟨0x049, gBits g, d, (srcBits a), (srcBits b), 0, 0, 0⟩
  | .andi g d a imm => some ⟨0x04a, gBits g, d, (srcBits a), 0, 0, 0, imm⟩
  | .or g d a b => some ⟨0x04b, gBits g, d, (srcBits a), (srcBits b), 0, 0, 0⟩
  | .ori g d a imm => some ⟨0x04c, gBits g, d, (srcBits a), 0, 0, 0, imm⟩
  | .xor g d a b => some ⟨0x04d, gBits g, d, (srcBits a), (srcBits b), 0, 0, 0⟩
  | .xori g d a imm => some ⟨0x04e, gBits g, d, (srcBits a), 0, 0, 0, imm⟩
  | .shl g d a b => some ⟨0x04f, gBits g, d, (srcBits a), (srcBits b), 0, 0, 0⟩
  | .shli g d a n => some ⟨0x050, gBits g, d, (srcBits a), 0, 0, 0, at_ 40 0 (n)⟩
  | .shr g d a b => some ⟨0x051, gBits g, d, (srcBits a), (srcBits b), 0, 0, 0⟩
  | .shri g d a n => some ⟨0x052, gBits g, d, (srcBits a), 0, 0, 0, at_ 40 0 (n)⟩
  | .sra g d a b => some ⟨0x053, gBits g, d, (srcBits a), (srcBits b), 0, 0, 0⟩
  | .srai g d a n => some ⟨0x054, gBits g, d, (srcBits a), 0, 0, 0, at_ 40 0 (n)⟩
  | .ror g d a b => some ⟨0x055, gBits g, d, (srcBits a), (srcBits b), 0, 0, 0⟩
  | .clz g d a => some ⟨0x056, gBits g, d, (srcBits a), 0, 0, 0, 0⟩
  | .ctz g d a => some ⟨0x057, gBits g, d, (srcBits a), 0, 0, 0, 0⟩
  | .popc g d a => some ⟨0x058, gBits g, d, (srcBits a), 0, 0, 0, 0⟩
  | .bext g d a sgn len pos => some ⟨0x059, gBits g, d, (srcBits a), 0, 0, at_ 12 0 (bit sgn), at_ 40 6 (len) ||| at_ 40 0 (pos)⟩
  | .bins g d a b len pos => some ⟨0x05a, gBits g, d, (srcBits a), (srcBits b), 0, 0, at_ 40 6 (len) ||| at_ 40 0 (pos)⟩
  | .sext g d a w => some ⟨0x05b, gBits g, d, (srcBits a), 0, 0, at_ 12 0 (w.code), 0⟩
  | .zext g d a w => some ⟨0x05c, gBits g, d, (srcBits a), 0, 0, at_ 12 0 (w.code), 0⟩
  | .min g d a b uns => some ⟨0x05d, gBits g, d, (srcBits a), (srcBits b), 0, at_ 12 0 (bit uns), 0⟩
  | .max g d a b uns => some ⟨0x05e, gBits g, d, (srcBits a), (srcBits b), 0, at_ 12 0 (bit uns), 0⟩
  | .cmp g d a b c => some ⟨0x05f, gBits g, d, (srcBits a), (srcBits b), 0, at_ 12 0 (c.code), 0⟩
  | .cmpi g d a c imm => some ⟨0x060, gBits g, d, (srcBits a), 0, 0, at_ 12 0 (c.code), imm⟩
  | .sel g d a b p => some ⟨0x061, gBits g, d, (srcBits a), (srcBits b), (srcBits p), 0, 0⟩
  | .mov g d a => some ⟨0x062, gBits g, d, (srcBits a), 0, 0, 0, 0⟩
  | .movi g d lit => some (moviRaw g d lit)
  | .lea g d b i scale imm => some ⟨0x064, gBits g, d, (srcBits b), (srcBits i), 0, at_ 12 0 (scale), imm⟩
  | .incw g d a b => some ⟨0x065, gBits g, d, (srcBits a), (srcBits b), 0, 0, 0⟩
  | .cwres g form r => some ⟨0x080, gBits g, 0, (r.setWidth 8), 0, 0, at_ 12 0 (form), 0⟩
  | .regst g d p r => some ⟨0x081, gBits g, d, (r.setWidth 8), 0, 0, at_ 12 0 (bit p), 0⟩
  | .kill g p r => some ⟨0x082, gBits g, 0, (r.setWidth 8), 0, 0, at_ 12 0 (bit p), 0⟩
  | .cwfree g d => some ⟨0x083, gBits g, d, 0, 0, 0, 0, 0⟩
  | .regmap g d grp => some ⟨0x084, gBits g, d, 0, 0, 0, at_ 12 0 (bit grp), 0⟩
  | .ld g d b w sgn imm => some ⟨0x0a0, gBits g, d, (srcBits b), 0, 0, at_ 12 0 (w.code) ||| at_ 12 2 (bit sgn), imm⟩
  | .ldx g d b i scale w sgn => some ⟨0x0a1, gBits g, d, (srcBits b), (srcBits i), 0, at_ 12 3 (scale) ||| at_ 12 0 (w.code) ||| at_ 12 2 (bit sgn), 0⟩
  | .st g b v w imm => some ⟨0x0a2, gBits g, 0, (srcBits b), (srcBits v), 0, at_ 12 0 (w.code), imm⟩
  | .stx g b i v scale w => some ⟨0x0a3, gBits g, 0, (srcBits b), (srcBits i), (srcBits v), at_ 12 3 (scale) ||| at_ 12 0 (w.code), 0⟩
  | .ldf g d b imm => some ⟨0x0a4, gBits g, d, (srcBits b), 0, 0, 0, imm⟩
  | .ldfe g d b imm => some ⟨0x0a5, gBits g, d, (srcBits b), 0, 0, 0, imm⟩
  | .stef g d b v imm => some ⟨0x0a6, gBits g, d, (srcBits b), (srcBits v), 0, 0, imm⟩
  | .stf g b v imm => some ⟨0x0a7, gBits g, 0, (srcBits b), (srcBits v), 0, 0, imm⟩
  | .purge g b imm => some ⟨0x0a8, gBits g, 0, (srcBits b), 0, 0, 0, imm⟩
  | .tagrd g d b w imm => some ⟨0x0a9, gBits g, d, (srcBits b), 0, 0, at_ 12 0 (bit w), imm⟩
  | .tagset g d b l full => some ⟨0x0aa, gBits g, d, (srcBits b), (srcBits l), 0, at_ 12 0 (bit full), 0⟩
  | .park g b leaf ev x regs => some ⟨0x0ab, gBits g, 0, (srcBits b), (srcBits leaf), (srcBits ev), at_ 12 0 (bit x), at_ 40 0 (regs)⟩
  | .aadd g d b v w imm => some ⟨0x0c0, gBits g, d, (srcBits b), (srcBits v), 0, at_ 12 0 (w.code), imm⟩
  | .aand g d b v w imm => some ⟨0x0c1, gBits g, d, (srcBits b), (srcBits v), 0, at_ 12 0 (w.code), imm⟩
  | .aor g d b v w imm => some ⟨0x0c2, gBits g, d, (srcBits b), (srcBits v), 0, at_ 12 0 (w.code), imm⟩
  | .axor g d b v w imm => some ⟨0x0c3, gBits g, d, (srcBits b), (srcBits v), 0, at_ 12 0 (w.code), imm⟩
  | .amin g d b v uns w imm => some ⟨0x0c4, gBits g, d, (srcBits b), (srcBits v), 0, at_ 12 2 (bit uns) ||| at_ 12 0 (w.code), imm⟩
  | .amax g d b v uns w imm => some ⟨0x0c5, gBits g, d, (srcBits b), (srcBits v), 0, at_ 12 2 (bit uns) ||| at_ 12 0 (w.code), imm⟩
  | .axchg g d b v w imm => some ⟨0x0c6, gBits g, d, (srcBits b), (srcBits v), 0, at_ 12 0 (w.code), imm⟩
  | .acas g d b v c w imm => some ⟨0x0c7, gBits g, d, (srcBits b), (srcBits v), (srcBits c), at_ 12 0 (w.code), imm⟩
  | .afadd g d b v f32 imm => some ⟨0x0c8, gBits g, d, (srcBits b), (srcBits v), 0, at_ 12 0 (fpCode f32), imm⟩
  | .aincw g d b v w imm => some ⟨0x0c9, gBits g, d, (srcBits b), (srcBits v), 0, at_ 12 0 (w.code), imm⟩
  | .afab g d b v c w imm => some ⟨0x0ca, gBits g, d, (srcBits b), (srcBits v), (srcBits c), at_ 12 0 (w.code), imm⟩
  | .redadd g b v w imm => some ⟨0x0cb, gBits g, 0, (srcBits b), (srcBits v), 0, at_ 12 0 (w.code), imm⟩
  | .redand g b v w imm => some ⟨0x0cc, gBits g, 0, (srcBits b), (srcBits v), 0, at_ 12 0 (w.code), imm⟩
  | .redor g b v w imm => some ⟨0x0cd, gBits g, 0, (srcBits b), (srcBits v), 0, at_ 12 0 (w.code), imm⟩
  | .redxor g b v w imm => some ⟨0x0ce, gBits g, 0, (srcBits b), (srcBits v), 0, at_ 12 0 (w.code), imm⟩
  | .redmin g b v uns w imm => some ⟨0x0cf, gBits g, 0, (srcBits b), (srcBits v), 0, at_ 12 2 (bit uns) ||| at_ 12 0 (w.code), imm⟩
  | .redmax g b v uns w imm => some ⟨0x0d0, gBits g, 0, (srcBits b), (srcBits v), 0, at_ 12 2 (bit uns) ||| at_ 12 0 (w.code), imm⟩
  | .redfadd g b v f32 imm => some ⟨0x0d1, gBits g, 0, (srcBits b), (srcBits v), 0, at_ 12 0 (fpCode f32), imm⟩
  | .mcas2 g d b imm => some ⟨0x0d2, gBits g, d, (srcBits b), 0, 0, 0, imm⟩
  | .mcas4 g d b imm => some ⟨0x0d3, gBits g, d, (srcBits b), 0, 0, 0, imm⟩
  | .enq g d b node imm => some ⟨0x0d4, gBits g, d, (srcBits b), (srcBits node), 0, 0, imm⟩
  | .chase g d b o hops imm => some ⟨0x0d5, gBits g, d, (srcBits b), (srcBits o), 0, at_ 12 0 (hops), imm⟩
  | .winopen g d a => some ⟨0x0e0, gBits g, d, (srcBits a), 0, 0, 0, 0⟩
  | .winclose g d h => some ⟨0x0e1, gBits g, d, (srcBits h), 0, 0, 0, 0⟩
  | .winstat g d h => some ⟨0x0e2, gBits g, d, (srcBits h), 0, 0, 0, 0⟩
  | .gflush g => some ⟨0x0e3, gBits g, 0, 0, 0, 0, 0, 0⟩
  | .gflushNw g => some ⟨0x0e3, gBits g, 0, 0, 0, 0, at_ 12 0 (1#1), 0⟩
  | .gstat g d isle => some ⟨0x0e4, gBits g, d, 0, 0, 0, at_ 12 0 (bit isle), 0⟩
  | .rfrecVa g d => some ⟨0x0e5, gBits g, d, 0, 0, 0, 0, 0⟩
  | .rfrecSt g d => some ⟨0x0e5, gBits g, d, 0, 0, 0, at_ 12 0 (1#1), 0⟩
  | .rfclr g d => some ⟨0x0e6, gBits g, d, 0, 0, 0, 0, 0⟩
  | .connst g d p => some ⟨0x0e7, gBits g, d, (srcBits p), 0, 0, 0, 0⟩
  | .spalloc g d n => some ⟨0x100, gBits g, d, (srcBits n), 0, 0, 0, 0⟩
  | .spfree g d t => some ⟨0x101, gBits g, d, (srcBits t), 0, 0, 0, 0⟩
  | .thandEng g d t => some ⟨0x102, gBits g, d, (srcBits t), 0, 0, 0, 0⟩
  | .thandThr g d t => some ⟨0x102, gBits g, d, (srcBits t), 0, 0, at_ 12 0 (1#1), 0⟩
  | .tcopy g d t o e fill fmt out bytes tiles folio => some ⟨0x103, gBits g, d, (srcBits t), (srcBits o), (srcBits e), at_ 12 5 (bit fill) ||| at_ 12 1 (fmt.code) ||| at_ 12 0 (bit out), at_ 40 24 (bytes) ||| at_ 40 20 (tiles) ||| at_ 40 0 (folio)⟩
  | .twait g d t dl pr phase => some ⟨0x104, gBits g, d, (srcBits t), (srcBits dl), (srcBits pr), at_ 12 0 (bit phase), 0⟩
  | .tstat g d t => some ⟨0x105, gBits g, d, (srcBits t), 0, 0, 0, 0⟩
  | .spld g d b w sgn imm => some ⟨0x106, gBits g, d, (srcBits b), 0, 0, at_ 12 0 (w.code) ||| at_ 12 2 (bit sgn), imm⟩
  | .spst g b v w imm => some ⟨0x107, gBits g, 0, (srcBits b), (srcBits v), 0, at_ 12 0 (w.code), imm⟩
  | .sphash g d o key => some ⟨0x108, gBits g, d, (srcBits o), 0, 0, at_ 12 0 (bit key), 0⟩
  | .tcq g d => some ⟨0x109, gBits g, d, 0, 0, 0, 0, 0⟩
  | .vlease g d try_ => some ⟨0x120, gBits g, d, 0, 0, 0, at_ 12 0 (bit try_), 0⟩
  | .vrel g => some ⟨0x121, gBits g, 0, 0, 0, 0, 0, 0⟩
  | .vld g d c f folio => some ⟨0x122, gBits g, d, (srcBits c), 0, 0, at_ 12 0 (f.code), at_ 40 0 (folio)⟩
  | .vst g c v f folio => some ⟨0x123, gBits g, 0, (srcBits c), (srcBits v), 0, at_ 12 0 (f.code), at_ 40 0 (folio)⟩
  | .vldx g d c i f folio => some ⟨0x124, gBits g, d, (srcBits c), (srcBits i), 0, at_ 12 0 (f.code), at_ 40 0 (folio)⟩
  | .vstx g c v i f folio => some ⟨0x125, gBits g, 0, (srcBits c), (srcBits v), (srcBits i), at_ 12 0 (f.code), at_ 40 0 (folio)⟩
  | .vmov g d a => some ⟨0x126, gBits g, d, (srcBits a), 0, 0, 0, 0⟩
  | .vsplat g d a f => some ⟨0x127, gBits g, d, (srcBits a), 0, 0, at_ 12 0 (f.code), 0⟩
  | .vadd g d a b rm sat f => some ⟨0x128, gBits g, d, (srcBits a), (srcBits b), 0, at_ 12 10 (rm.code) ||| at_ 12 8 (bit sat) ||| at_ 12 0 (f.code), 0⟩
  | .vsub g d a b rm sat f => some ⟨0x129, gBits g, d, (srcBits a), (srcBits b), 0, at_ 12 10 (rm.code) ||| at_ 12 8 (bit sat) ||| at_ 12 0 (f.code), 0⟩
  | .vmul g d a b rm sat f => some ⟨0x12a, gBits g, d, (srcBits a), (srcBits b), 0, at_ 12 10 (rm.code) ||| at_ 12 8 (bit sat) ||| at_ 12 0 (f.code), 0⟩
  | .vfma g d a b c rm f => some ⟨0x12b, gBits g, d, (srcBits a), (srcBits b), (srcBits c), at_ 12 10 (rm.code) ||| at_ 12 0 (f.code), 0⟩
  | .vfms g d a b c rm f => some ⟨0x12c, gBits g, d, (srcBits a), (srcBits b), (srcBits c), at_ 12 10 (rm.code) ||| at_ 12 0 (f.code), 0⟩
  | .vfnma g d a b c rm f => some ⟨0x12d, gBits g, d, (srcBits a), (srcBits b), (srcBits c), at_ 12 10 (rm.code) ||| at_ 12 0 (f.code), 0⟩
  | .vmin g d a b f => some ⟨0x12e, gBits g, d, (srcBits a), (srcBits b), 0, at_ 12 0 (f.code), 0⟩
  | .vmax g d a b f => some ⟨0x12f, gBits g, d, (srcBits a), (srcBits b), 0, at_ 12 0 (f.code), 0⟩
  | .vabs g d a sat f => some ⟨0x130, gBits g, d, (srcBits a), 0, 0, at_ 12 8 (bit sat) ||| at_ 12 0 (f.code), 0⟩
  | .vneg g d a sat f => some ⟨0x131, gBits g, d, (srcBits a), 0, 0, at_ 12 8 (bit sat) ||| at_ 12 0 (f.code), 0⟩
  | .vand g d a b f => some ⟨0x132, gBits g, d, (srcBits a), (srcBits b), 0, at_ 12 0 (f.code), 0⟩
  | .vor g d a b f => some ⟨0x133, gBits g, d, (srcBits a), (srcBits b), 0, at_ 12 0 (f.code), 0⟩
  | .vxor g d a b f => some ⟨0x134, gBits g, d, (srcBits a), (srcBits b), 0, at_ 12 0 (f.code), 0⟩
  | .vshl g d a b f => some ⟨0x135, gBits g, d, (srcBits a), (srcBits b), 0, at_ 12 0 (f.code), 0⟩
  | .vshr g d a b f => some ⟨0x136, gBits g, d, (srcBits a), (srcBits b), 0, at_ 12 0 (f.code), 0⟩
  | .vsra g d a b f => some ⟨0x137, gBits g, d, (srcBits a), (srcBits b), 0, at_ 12 0 (f.code), 0⟩
  | .vcmp g d a b c f => some ⟨0x138, gBits g, d, (srcBits a), (srcBits b), 0, at_ 12 4 (c.code) ||| at_ 12 0 (f.code), 0⟩
  | .vsel g d a b m f => some ⟨0x139, gBits g, d, (srcBits a), (srcBits b), (srcBits m), at_ 12 0 (f.code), 0⟩
  | .vshuf g d a b f k pat => some ⟨0x13a, gBits g, d, (srcBits a), (srcBits b), 0, at_ 12 0 (f.code), at_ 40 8 (k) ||| at_ 40 0 (pat.code)⟩
  | .vperm g d a b i f => some ⟨0x13b, gBits g, d, (srcBits a), (srcBits b), (srcBits i), at_ 12 0 (f.code), 0⟩
  | .vextr g d a l f off => some ⟨0x13c, gBits g, d, (srcBits a), (srcBits l), 0, at_ 12 0 (f.code), at_ 40 0 (off)⟩
  | .vins g d a v l f off => some ⟨0x13d, gBits g, d, (srcBits a), (srcBits v), (srcBits l), at_ 12 0 (f.code), at_ 40 0 (off)⟩
  | .vredadd g d a f => some ⟨0x13e, gBits g, d, (srcBits a), 0, 0, at_ 12 0 (f.code), 0⟩
  | .vredmin g d a f => some ⟨0x13f, gBits g, d, (srcBits a), 0, 0, at_ 12 0 (f.code), 0⟩
  | .vredmax g d a f => some ⟨0x140, gBits g, d, (srcBits a), 0, 0, at_ 12 0 (f.code), 0⟩
  | .vcvt g d a rm tf sf => some ⟨0x141, gBits g, d, (srcBits a), 0, 0, at_ 12 10 (rm.code) ||| at_ 12 4 (tf.code) ||| at_ 12 0 (sf.code), 0⟩
  | .vcvts g d a seed tf sf => some ⟨0x142, gBits g, d, (srcBits a), (srcBits seed), 0, at_ 12 4 (tf.code) ||| at_ 12 0 (sf.code), 0⟩
  | .vwadd g d a b rm f => some ⟨0x143, gBits g, d, (srcBits a), (srcBits b), 0, at_ 12 10 (rm.code) ||| at_ 12 0 (f.code), 0⟩
  | .vwmul g d a b rm f => some ⟨0x144, gBits g, d, (srcBits a), (srcBits b), 0, at_ 12 10 (rm.code) ||| at_ 12 0 (f.code), 0⟩
  | .vexp2 g d a rm f => some ⟨0x145, gBits g, d, (srcBits a), 0, 0, at_ 12 10 (rm.code) ||| at_ 12 0 (f.code), 0⟩
  | .vlog2 g d a rm f => some ⟨0x146, gBits g, d, (srcBits a), 0, 0, at_ 12 10 (rm.code) ||| at_ 12 0 (f.code), 0⟩
  | .vrcp g d a rm f => some ⟨0x147, gBits g, d, (srcBits a), 0, 0, at_ 12 10 (rm.code) ||| at_ 12 0 (f.code), 0⟩
  | .vrsqrt g d a rm f => some ⟨0x148, gBits g, d, (srcBits a), 0, 0, at_ 12 10 (rm.code) ||| at_ 12 0 (f.code), 0⟩
  | .vsqrt g d a rm f => some ⟨0x149, gBits g, d, (srcBits a), 0, 0, at_ 12 10 (rm.code) ||| at_ 12 0 (f.code), 0⟩
  | .folset g d i a => some ⟨0x160, gBits g, d, (srcBits i), (srcBits a), 0, 0, 0⟩
  | .folsetInv g d i => some ⟨0x160, gBits g, d, (srcBits i), 0, 0, at_ 12 0 (1#1), 0⟩
  | .folrd g d i w => some ⟨0x161, gBits g, d, (srcBits i), 0, 0, at_ 12 0 (w), 0⟩
  | .folchk g d o e acc folio => some ⟨0x162, gBits g, d, (srcBits o), (srcBits e), 0, at_ 12 0 (acc), at_ 40 0 (folio)⟩
  | .wbld g o rows slot folio => some ⟨0x163, gBits g, 0, (srcBits o), 0, 0, at_ 12 0 (rows), at_ 40 16 (slot) ||| at_ 40 0 (folio)⟩
  | .wbinv g m => some ⟨0x164, gBits g, 0, (srcBits m), 0, 0, 0, 0⟩
  | .mxz g acc => some ⟨0x165, gBits g, 0, 0, 0, 0, 0, at_ 40 22 (acc)⟩
  | .mxa g o h acc slot folio => some ⟨0x166, gBits g, 0, (srcBits o), (srcBits h), 0, 0, at_ 40 22 (acc) ||| at_ 40 16 (slot) ||| at_ 40 0 (folio)⟩
  | .mxst g o fill acc folio => some ⟨0x167, gBits g, 0, (srcBits o), 0, 0, at_ 12 0 (bit fill), at_ 40 22 (acc) ||| at_ 40 0 (folio)⟩
  | .mxld g o acc folio => some ⟨0x168, gBits g, 0, (srcBits o), 0, 0, 0, at_ 40 22 (acc) ||| at_ 40 0 (folio)⟩
  | .mxdot g oa ob l acc fb fa => some ⟨0x169, gBits g, 0, (srcBits oa), (srcBits ob), (srcBits l), 0, at_ 40 32 (acc) ||| at_ 40 16 (fb) ||| at_ 40 0 (fa)⟩
  | .mxsend g d cap a => some ⟨0x16a, gBits g, d, (srcBits cap), (srcBits a), 0, 0, 0⟩
  | .mxkey g k => some ⟨0x16b, gBits g, 0, (srcBits k), 0, 0, 0, 0⟩
  | .mxstat g d => some ⟨0x16c, gBits g, d, 0, 0, 0, 0, 0⟩
  | .mxwait g => some ⟨0x16d, gBits g, 0, 0, 0, 0, 0, 0⟩
  | .fence g later prior => some ⟨0x180, gBits g, 0, 0, 0, 0, at_ 12 5 (later) ||| at_ 12 0 (prior), 0⟩
  | .fencex g a => some ⟨0x181, gBits g, 0, (srcBits a), 0, 0, 0, 0⟩
  | .launch g d a => some ⟨0x182, gBits g, d, (srcBits a), 0, 0, 0, 0⟩
  | .trigger g => some ⟨0x183, gBits g, 0, 0, 0, 0, 0, 0⟩
  | .bar g d n dl sc b => some ⟨0x184, gBits g, d, (srcBits n), (srcBits dl), 0, at_ 12 0 (sc.code), at_ 40 0 (b)⟩
  | .evset g e => some ⟨0x185, gBits g, 0, (srcBits e), 0, 0, 0, 0⟩
  | .evclr g e => some ⟨0x186, gBits g, 0, (srcBits e), 0, 0, 0, 0⟩
  | .evwait g d e dl k => some ⟨0x187, gBits g, d, (srcBits e), (srcBits dl), 0, at_ 12 0 (k), 0⟩
  | .mfs g d r => some ⟨0x1a0, gBits g, d, 0, 0, 0, 0, at_ 40 0 (r)⟩
  | .mts g a r => some ⟨0x1a1, gBits g, 0, (srcBits a), 0, 0, 0, at_ 40 0 (r)⟩
  | .rte g => some ⟨0x1a2, gBits g, 0, 0, 0, 0, 0, 0⟩
  | .trap g code => some ⟨0x1a3, gBits g, 0, 0, 0, 0, 0, at_ 40 0 (code)⟩
  | .cyc g d => some ⟨0x1a4, gBits g, d, 0, 0, 0, 0, 0⟩
  | .tlbinvPage g sp va => some ⟨0x1a5, gBits g, 0, (srcBits sp), (srcBits va), 0, 0, 0⟩
  | .tlbinvSpace g sp => some ⟨0x1a5, gBits g, 0, (srcBits sp), 0, 0, at_ 12 0 (1#2), 0⟩
  | .tlbinvAll g => some ⟨0x1a5, gBits g, 0, 0, 0, 0, at_ 12 0 (2#2), 0⟩
  | .replay g d h => some ⟨0x1a6, gBits g, d, (srcBits h), 0, 0, 0, 0⟩
  | .abortset g d t e => some ⟨0x1a7, gBits g, d, (srcBits t), (srcBits e), 0, 0, 0⟩
  | .fatal g d h => some ⟨0x1a8, gBits g, d, (srcBits h), 0, 0, 0, 0⟩
  | .pgcmd g d a => some ⟨0x1a9, gBits g, d, (srcBits a), 0, 0, 0, 0⟩
  | .ageClassRise _ => none
  | .restEnd _ => none
  | .closingWaitEnd _ => none
  | .taskDispatch _ => none
  | .leafResume _ => none
  | .sendQueueRelease _ => none
  | .meshWordArrival _ => none
  | .replyAccept _ => none
  | .dividerDeliver _ => none
  | .codeLineFill _ => none
  | .codeRefetch _ _ => none
  | .cbinv _ => none
  | .storeBufferWrite _ _ => none
  | .memrefArrive _ _ => none
  | .moorDeadlineExpire _ _ => none
  | .tagsetWave _ => none
  | .reductionAck _ => none
  | .agentMcas _ => none
  | .agentEnq _ => none
  | .agentChaseHop _ => none
  | .harbourAmo _ _ _ _ _ => none
  | .harbourLr _ _ _ => none
  | .harbourSc _ _ _ _ => none
  | .reservationExpire _ => none
  | .harbourAccess _ _ _ _ _ => none
  | .fenceRecordDiscard _ _ => none
  | .gatherElementArrive _ => none
  | .gatherAgeSeal _ _ => none
  | .frameSend _ => none
  | .dataFrameReceive _ => none
  | .ackFrameReceive _ => none
  | .ackFrameSend _ _ => none
  | .replayTimeout _ _ => none
  | .ratePeriodEnd _ _ => none
  | .elementStatusReceive _ => none
  | .wincloseDrainEnd _ => none
  | .laneLightLoss _ _ _ => none
  | .laneMaskAgreed _ _ => none
  | .pathDownTimeout _ _ => none
  | .epochSwitch _ _ => none
  | .frouteWrite _ _ => none
  | .fpkgWrite _ => none
  | .keycmdLoad _ _ => none
  | .keycmdZeroise _ => none
  | .lanereq _ _ => none
  | .copyStart _ => none
  | .copyComplete _ _ => none
  | .promiseMiss _ => none
  | .twaitDeadline _ => none
  | .tileZeroingEnd _ _ => none
  | .folioFetch _ _ => none
  | .matrixCommandExecute _ => none
  | .matrixCommandComplete _ _ => none
  | .loaderCommandStart _ => none
  | .weightRowBlockArrive _ => none
  | .mxsendReceive _ => none
  | .eventBitUpdate _ => none
  | .leafReady _ _ => none
  | .evwaitDeadline _ => none
  | .barDeadline _ => none
  | .tasksetRetire _ => none
  | .asyncTrapDeliver _ => none
  | .walkComplete _ => none
  | .faultRingWrite _ => none
  | .pageCommandComplete _ _ => none
  | .moorbaseWrite _ _ _ => none
  | .memcfgLock _ => none
  | .hashMaskWrite _ _ _ => none
  | .ablimWrite _ _ => none
  | .gageWrite _ _ => none
  | .fqbaseWrite _ _ => none
  | .fqctlWrite _ _ => none
  | .wstateWrite _ _ => none
  | .launchPortLaunch _ _ => none
  | .ferryLaunch _ _ => none
  | .snap _ _ => none
  | .evict _ _ => none
  | .resume _ _ => none
  | .terminate _ _ => none
  | .preemptDrainEnd _ => none
  | .preemptDeadline _ => none
  | .powerUp _ => none
  | .reset _ => none
  | .statusRequest => none
  | .attestationRequest _ => none
  | .journalRead _ => none
  | .resetRequest => none
  | .checkpoint _ _ => none
  | .eventRingSetup _ _ => none
  | .thermalMeasure _ _ => none
  | .coreFail _ => none
  | .illegalInstruction _ => none
  | .illFormedPcIssue => none
  | .checkpointComplete _ => none

/-- The 96-bit word of a well-formed instruction; none for an event row, which has no encoding. -/
def encode (i : Instr) : Option (BitVec 96) :=
  if i.wellFormed then (encodeRaw i).map wordOf else none

/-- The 12 bytes of a 96-bit instruction, lowest first (R24). -/
def wordBytes (w : BitVec 96) : List Byte := (List.range 12).map fun k => w.extractLsb' (8 * k) 8

/-- The instruction whose low `nbits` bits are `w`, the bits above them zero. -/
def decodeTableWord (nbits w : Nat) : Option Instr :=
  match decodeBytes (wordBytes (BitVec.ofNat 96 (w % 2 ^ nbits))) with
  | .ok (i, _) => some i
  | .error _ => none

end Sys2Proof
end

