-- ==== Sys2Proof/Machine/Float.lean ====
section
/-! DEFINITION. Number formats and rounding (03_numbers): exact values, the one rounding procedure, conversions, stochastic
rounding, group scales and the correctly rounded functions. -/

namespace Sys2Proof.Machine

/-- An exact value: (-1)^neg x m x 2^e, or a special value (R55, R58). -/
inductive Fl where
  | nan
  | inf (neg : Bool)
  | fin (neg : Bool) (m : Nat) (e : Int)
deriving DecidableEq, Repr

/-- Number of bits of a number, 0 for 0. -/
def bitLen (n : Nat) : Nat := if n = 0 then 0 else Nat.log2 n + 1

/-! ### Formats (R55, R56) -/

/-- Bits of the fraction, and of the exponent; 0 for formats that are not floating-point. -/
def fracBits : Fmt → Nat
  | .f32 => 23
  | .f16 => 10
  | .bf16 => 7
  | .e4m3 => 3
  | .e5m2 => 2
  | _ => 0
def expBits : Fmt → Nat
  | .f32 => 8
  | .f16 => 5
  | .bf16 => 8
  | .e4m3 => 4
  | .e5m2 => 5
  | _ => 0
def biasOf (f : Fmt) : Nat := 2 ^ (expBits f - 1) - 1
def isFloat : Fmt → Bool
  | .f32 | .f16 | .bf16 | .e4m3 | .e5m2 => true
  | _ => false
/-- The integer formats that are signed (R53). -/
def isSigned : Fmt → Bool
  | .i8 | .i16 | .i32 | .i64 | .i4 | .i3 => true
  | _ => false
def hasInf (f : Fmt) : Bool := decide (f ≠ .e4m3)

/-- Exponent of the smallest subnormal: the spacing below the smallest normal. -/
def eMin (f : Fmt) : Int := 1 - (biasOf f : Int) - (fracBits f : Int)

/-- Encodings of infinity, of the largest finite value and of the canonical NaN, positive (R56). -/
def infBits (f : Fmt) : Nat := (2 ^ expBits f - 1) * 2 ^ fracBits f
def maxBits (f : Fmt) : Nat := if f = .e4m3 then 0x7E else infBits f - 1
def nanBits (f : Fmt) : Nat := if f = .e4m3 then 0x7F else infBits f + 2 ^ (fracBits f - 1)
def signBit (f : Fmt) (neg : Bool) : Nat := if neg then 2 ^ (fmtWidth f - 1) else 0

/-- The value of an encoding (R55, R56). -/
def flOf (f : Fmt) (bits : Nat) : Fl :=
  let neg := Nat.testBit bits (fmtWidth f - 1)
  let fr := bits % 2 ^ fracBits f
  let ex := bits / 2 ^ fracBits f % 2 ^ expBits f
  if f = .e4m3 then
    if ex = 15 ∧ fr = 7 then .nan
    else if ex = 0 then .fin neg fr (eMin f) else .fin neg (fr + 2 ^ fracBits f) (eMin f + ex - 1)
  else if ex = 2 ^ expBits f - 1 then (if fr = 0 then .inf neg else .nan)
  else if ex = 0 then .fin neg fr (eMin f)
  else .fin neg (fr + 2 ^ fracBits f) (eMin f + ex - 1)

/-- m x 2^e shifted so that its exponent is `e'`; the value is representable there. -/
def alignTo (m : Nat) (e e' : Int) : Nat := if e' ≤ e then m * 2 ^ (e - e').toNat else m / 2 ^ (e' - e).toNat

/-- The encoding of a magnitude m x 2^e that the format represents. -/
def encBits (f : Fmt) (neg : Bool) (m : Nat) (e : Int) : Nat :=
  if m = 0 then signBit f neg
  else
    let top : Int := e + bitLen m - 1
    if top < 1 - (biasOf f : Int) then signBit f neg + alignTo m e (eMin f)
    else signBit f neg + ((top + biasOf f).toNat - 1) * 2 ^ fracBits f + alignTo m e (top - fracBits f)

/-- Magnitudes compared: m x 2^e is less than m' x 2^e'. -/
def magLt (m : Nat) (e : Int) (m' : Nat) (e' : Int) : Bool :=
  let lo := min e e'
  decide (m * 2 ^ (e - lo).toNat < m' * 2 ^ (e' - lo).toNat)

/-! ### Rounding (R63) -/

/-- Whether the greater neighbour is taken, from the kept part's last bit, twice the remainder against the unit
(0 less, 1 equal, 2 greater) and whether the value is inexact. -/
def roundUp (rm : Rnd) (neg odd : Bool) (half : Nat) (inexact : Bool) : Bool :=
  match rm with
  | .rne => decide (half = 2) || (decide (half = 1) && odd)
  | .rtz => false
  | .rup => inexact && !neg
  | .rdn => inexact && neg

/-- Drop the low `sh` bits of `m` with rounding; `st`: the true value lies strictly above `m` and below `m + 1`. -/
def dropBits (rm : Rnd) (neg : Bool) (m sh : Nat) (st : Bool) : Nat :=
  let q := m / 2 ^ sh
  let r := m % 2 ^ sh
  let half := if sh = 0 then 0 else if 2 ^ sh < 2 * r ∨ (2 * r = 2 ^ sh ∧ st) then 2 else if 2 * r = 2 ^ sh then 1 else 0
  if roundUp rm neg (decide (q % 2 = 1)) half (decide (r ≠ 0) || st) then q + 1 else q

/-- Round a magnitude to a format's precision with no upper limit on the exponent. -/
def roundMag (f : Fmt) (rm : Rnd) (neg : Bool) (m : Nat) (e : Int) (st : Bool) : Nat × Int :=
  let unit := max (eMin f) (e + bitLen m - (fracBits f + 1))
  if unit ≤ e ∧ st = false then (m, e) else (dropBits rm neg m (unit - e).toNat st, max unit e)

/-- The result of an operator that is no conversion: rounded once, overflow by the table of R63. -/
def roundFl (f : Fmt) (rm : Rnd) (st : Bool) : Fl → Nat
  | .nan => nanBits f
  | .inf neg => signBit f neg + infBits f
  | .fin neg m e =>
    let r := roundMag f rm neg m e st
    match flOf f (maxBits f) with
    | .fin _ mm me =>
      if magLt mm me r.1 r.2 then
        let big := match rm with
          | .rne => true
          | .rtz => false
          | .rup => !neg
          | .rdn => neg
        signBit f neg + (if big then infBits f else maxBits f)
      else encBits f neg r.1 r.2
    | _ => 0

/-! ### Exact arithmetic (R58, R61, R62) -/

/-- Signed magnitude at exponent `e'`. -/
def intAt (neg : Bool) (m : Nat) (e e' : Int) : Int :=
  if neg then -((m * 2 ^ (e - e').toNat : Nat) : Int) else ((m * 2 ^ (e - e').toNat : Nat) : Int)

/-- The exact sum; an exact zero takes the sign that the mode gives (R61). -/
def addFl (rm : Rnd) : Fl → Fl → Fl
  | .nan, _ => .nan
  | _, .nan => .nan
  | .inf a, .inf b => if a = b then .inf a else .nan
  | .inf a, _ => .inf a
  | _, .inf b => .inf b
  | .fin n1 m1 e1, .fin n2 m2 e2 =>
    let e := min e1 e2
    let s := intAt n1 m1 e1 e + intAt n2 m2 e2 e
    if s = 0 then .fin (if n1 = n2 then n1 else decide (rm = .rdn)) 0 e
    else .fin (decide (s < 0)) s.natAbs e

def negFl : Fl → Fl
  | .nan => .nan
  | .inf n => .inf !n
  | .fin n m e => .fin (!n) m e

/-- The exact product. -/
def mulFl : Fl → Fl → Fl
  | .nan, _ => .nan
  | _, .nan => .nan
  | .inf a, .inf b => .inf (a ^^ b)
  | .inf a, .fin b m _ => if m = 0 then .nan else .inf (a ^^ b)
  | .fin a m _, .inf b => if m = 0 then .nan else .inf (a ^^ b)
  | .fin a m e, .fin b m' e' => .fin (a ^^ b) (m * m') (e + e')

/-- Order of two values that are no NaN; zeros are equal. -/
def ltFl : Fl → Fl → Bool
  | .nan, _ => false
  | _, .nan => false
  | .inf a, .inf b => a && !b
  | .inf a, _ => a
  | _, .inf b => !b
  | .fin n1 m1 e1, .fin n2 m2 e2 => let e := min e1 e2; decide (intAt n1 m1 e1 e < intAt n2 m2 e2 e)

def isNan : Fl → Bool
  | .nan => true
  | _ => false
def isNeg : Fl → Bool
  | .nan => false
  | .inf n => n
  | .fin n _ _ => n

/-! ### Conversions (R65 to R67) -/

/-- The random bits of stochastic rounding (R67). -/
def srBits (s : Word) (i : Nat) : Nat :=
  let z := s + BitVec.ofNat 64 (i + 1) * 0x9E3779B97F4A7C15#64
  let z := (z ^^^ (z >>> 30)) * 0xBF58476D1CE4E5B9#64
  let z := (z ^^^ (z >>> 27)) * 0x94D049BB133111EB#64
  let z := z ^^^ (z >>> 31)
  (z.extractLsb' 48 16).toNat

/-- Stochastic rounding of a magnitude (R67). -/
def roundSr (f : Fmt) (u : Nat) (m : Nat) (e : Int) : Nat × Int :=
  let unit := max (eMin f) (e + bitLen m - (fracBits f + 1))
  if unit ≤ e then (m, e)
  else
    let sh := (unit - e).toNat
    let q := m / 2 ^ sh
    let t := m % 2 ^ sh * 65536 / 2 ^ sh
    (if u < t then q + 1 else q, unit)

/-- A conversion to a floating-point format with clamp bound `b`, an encoding (R65); `sr` holds the random bits of a
stochastic conversion. -/
def cvtFloat (f : Fmt) (rm : Rnd) (b : Nat) (sr : Option Nat) : Fl → Nat
  | .nan => nanBits f
  | .inf neg => if hasInf f then signBit f neg + infBits f else signBit f neg + b
  | .fin neg m e =>
    let r := match sr with
      | some u => roundSr f u m e
      | none => roundMag f rm neg m e false
    match flOf f b with
    | .fin _ bm be => if magLt bm be r.1 r.2 then signBit f neg + b else encBits f neg r.1 r.2
    | _ => encBits f neg r.1 r.2

/-- Smallest and largest value of an integer format (R53). -/
def minInt (f : Fmt) : Int := if isSigned f then -(2 ^ (fmtWidth f - 1) : Nat) else 0
def maxInt (f : Fmt) : Int := if isSigned f then (2 ^ (fmtWidth f - 1) : Nat) - 1 else (2 ^ fmtWidth f : Nat) - 1
def clampInt (f : Fmt) (y : Int) : Int := max (minInt f) (min (maxInt f) y)

/-- An integer of a format from its bits, and its bits (R53). -/
def intOf (f : Fmt) (bits : Nat) : Int :=
  if isSigned f ∧ 2 ^ (fmtWidth f - 1) ≤ bits then (bits : Int) - (2 ^ fmtWidth f : Nat) else bits
def intBits (f : Fmt) (y : Int) : Nat := (y % (2 ^ fmtWidth f : Nat)).toNat

/-- A conversion to an integer format (R66). -/
def cvtInt (f : Fmt) (rm : Rnd) : Fl → Int
  | .nan => 0
  | .inf neg => if neg then minInt f else maxInt f
  | .fin neg m e =>
    let q := if 0 ≤ e then m * 2 ^ e.toNat else dropBits rm neg m (-e).toNat false
    clampInt f (if neg then -(q : Int) else q)

/-- An integer as an exact value. -/
def flOfInt (y : Int) : Fl := .fin (decide (y < 0)) y.natAbs 0

/-- One element converted between any two types of set W (R288). Between integers a widening extends the source by its own sign, a
negative one into an N type too; any other conversion saturates (R66). DEDUCED: log entry 59. -/
def cvtElem (tf sf : Fmt) (rm : Rnd) (b : Nat) (sr : Option Nat) (bits : Nat) : Nat :=
  if isFloat sf then
    if isFloat tf then cvtFloat tf rm b sr (flOf sf bits) else intBits tf (cvtInt tf rm (flOf sf bits))
  else if isFloat tf then cvtFloat tf rm b sr (flOfInt (intOf sf bits))
  else if fmtWidth sf < fmtWidth tf then intBits tf (intOf sf bits)
  else intBits tf (clampInt tf (intOf sf bits))

/-! ### Group scales (R57, R68, R69) -/

/-- The value of a scale: a BF16 number or an E8M0 exponent. -/
def scaleFl (f : Fmt) (bits : Nat) : Fl :=
  if f = .e8m0 then (if bits = 255 then .nan else .fin false 1 ((bits : Int) - 127)) else flOf .bf16 bits

/-- The value of a stored weight. -/
def weightFl (f : Fmt) (bits : Nat) : Fl :=
  if isFloat f then flOf f bits else flOfInt (intOf f bits)

/-- The expanded weight (R69). -/
def expandWeight (f : Fmt) (sf : Option Fmt) (w c : Nat) : Fl :=
  match sf with
  | none => weightFl f w
  | some g => mulFl (weightFl f w) (scaleFl g c)

/-! ### Correctly rounded functions (R291) -/

/-- The largest r below 2^k with r^2 ≤ n, built bit by bit above `r`. -/
def isqrtFrom (n : Nat) : Nat → Nat → Nat
  | 0, r => r
  | k + 1, r => if (r + 2 ^ k) ^ 2 ≤ n then isqrtFrom n k (r + 2 ^ k) else isqrtFrom n k r

/-- √ of m x 2^e, e even: 64 further bits, whether inexact. -/
def sqrtMag (m : Nat) (e : Int) : Nat × Int × Bool :=
  let m' := if e % 2 = 0 then m else 2 * m
  let e' := if e % 2 = 0 then e else e - 1
  let n := m' * 2 ^ 64
  let r := isqrtFrom n ((bitLen n + 1) / 2 + 1) 0
  (r, e' / 2 - 32, decide (r ^ 2 ≠ n))

/-- 1/√ of m x 2^e. -/
def rsqrtMag (m : Nat) (e : Int) : Nat × Int × Bool :=
  let m' := if e % 2 = 0 then m else 2 * m
  let e' := if e % 2 = 0 then e else e - 1
  let n := 2 ^ 128 / m'
  let r := isqrtFrom n 66 0
  (r, -(e' / 2) - 64, decide (r ^ 2 * m' ≠ 2 ^ 128))

/-- The fixed-point scale of the series below. PRESUMED: log entry 14. -/
def fixOne : Nat := 2 ^ 320

/-- ln 2 as the sum of 1 / (k 2^k), scaled. -/
def ln2From : Nat → Nat → Nat
  | 0, _ => 0
  | n + 1, k => fixOne / (k * 2 ^ k) + ln2From n (k + 1)
def ln2Fix : Nat := ln2From 330 1

/-- The sum of y^k / k! from term `k` on, scaled, `t` the present term. -/
def expFrom (y : Nat) : Nat → Nat → Nat → Nat
  | 0, _, _ => 0
  | n + 1, k, t => t + expFrom y n (k + 1) (t * y / fixOne / (k + 1))

/-- The sum of z^(2k+1) / (2k+1), scaled, `t` the present power. -/
def atanhFrom (z2 : Nat) : Nat → Nat → Nat → Nat
  | 0, _, _ => 0
  | n + 1, k, t => t / (2 * k + 1) + atanhFrom z2 n (k + 1) (t * z2 / fixOne)

/-- 2^x on a finite value: an integer gives the exact power; other results are irrational, so their truncation to 280
fraction bits with the inexact mark decides every rounding that is not within 2^-270 of a boundary. PRESUMED: log entry 14. -/
def exp2Fl (neg : Bool) (m : Nat) (e : Int) : Fl × Bool :=
  if magLt 1023 0 m e then (if neg then .fin false 1 (-1023) else .fin false 1 1023, true)
  else
    let fx : Nat := if -(320 : Int) ≤ e then m * 2 ^ (e + 320).toNat else m / 2 ^ (-e - 320).toNat
    let n : Int := if neg then -((ceilDiv fx fixOne : Nat) : Int) else ((fx / fixOne : Nat) : Int)
    let fr : Nat := if neg then ceilDiv fx fixOne * fixOne - fx else fx % fixOne
    if fr = 0 then (.fin false 1 n, false)
    else (.fin false (expFrom (fr * ln2Fix / fixOne) 90 0 fixOne / 2 ^ 40) (n - 280), true)

/-- log2 of a positive value. PRESUMED: log entry 14. -/
def log2Fl (m : Nat) (e : Int) : Fl × Bool :=
  let l := bitLen m - 1
  let n : Int := e + l
  if m = 2 ^ l then (flOfInt n, false)
  else
    let z := (m - 2 ^ l) * fixOne / (m + 2 ^ l)
    let lg := 2 * atanhFrom (z * z / fixOne) 110 0 z * fixOne / ln2Fix
    let tot : Int := n * fixOne + lg
    (.fin (decide (tot < 0)) (tot.natAbs / 2 ^ 40) (-280), true)

/-- The five functions of R291 on FP32. -/
inductive Fun where
  | exp2 | log2 | rcp | rsqrt | sqrt
deriving DecidableEq, Repr

/-- The result of a function, with the inexact mark. -/
def funFl : Fun → Fl → Fl × Bool
  | _, .nan => (.nan, false)
  | .exp2, .inf neg => (if neg then .fin false 0 0 else .inf false, false)
  | .log2, .inf neg => (if neg then .nan else .inf false, false)
  | .rcp, .inf neg => (.fin neg 0 0, false)
  | .rsqrt, .inf neg => (if neg then .nan else .fin false 0 0, false)
  | .sqrt, .inf neg => (if neg then .nan else .inf false, false)
  | .exp2, .fin neg m e => if m = 0 then (.fin false 1 0, false) else exp2Fl neg m e
  | .log2, .fin neg m e => if m = 0 then (.inf true, false) else if neg then (.nan, false) else log2Fl m e
  | .rcp, .fin neg m e =>
    if m = 0 then (.inf neg, false) else (.fin neg (2 ^ 80 / m) (-80 - e), decide (2 ^ 80 % m ≠ 0))
  | .rsqrt, .fin neg m e =>
    if m = 0 then (.inf neg, false) else if neg then (.nan, false)
    else let r := rsqrtMag m e; (.fin false r.1 r.2.1, r.2.2)
  | .sqrt, .fin neg m e =>
    if m = 0 then (.fin neg 0 0, false) else if neg then (.nan, false)
    else let r := sqrtMag m e; (.fin false r.1 r.2.1, r.2.2)

/-- A function on an FP32 encoding (R291). -/
def funF32 (fn : Fun) (rm : Rnd) (bits : Nat) : Nat :=
  let r := funFl fn (flOf .f32 bits)
  roundFl .f32 rm r.2 r.1

/-! ### Lane operators -/

/-- Addition, subtraction and multiplication of a floating-point type, rounded once (R280). -/
inductive FOp where
  | add | sub | mul
deriving DecidableEq, Repr

def fopFl (op : FOp) (rm : Rnd) (a b : Fl) : Fl :=
  match op with
  | .add => addFl rm a b
  | .sub => addFl rm a (negFl b)
  | .mul => mulFl a b

def fop (op : FOp) (f : Fmt) (rm : Rnd) (a b : Nat) : Nat := roundFl f rm false (fopFl op rm (flOf f a) (flOf f b))

/-- ±(a x b) ± c with one rounding (R280); a NaN, or 0 x ∞, gives the canonical NaN. -/
def ffma (f : Fmt) (rm : Rnd) (np nc : Bool) (a b c : Nat) : Nat :=
  let p := mulFl (flOf f a) (flOf f b)
  let p := if np then negFl p else p
  let c := if nc then negFl (flOf f c) else flOf f c
  roundFl f rm false (addFl rm p c)

/-- Minimum and maximum (R281). -/
def fminmax (mx : Bool) (f : Fmt) (a b : Nat) : Nat :=
  let x := flOf f a
  let y := flOf f b
  if isNan x || isNan y then nanBits f
  else if ltFl x y then (if mx then b else a)
  else if ltFl y x then (if mx then a else b)
  else if isNeg x = mx then b else a

end Sys2Proof.Machine
end

