-- ==== Sys2Proof/Config.lean ====
section
/-! DEFINITION. What an implementation fixes and the spec does not give: free values with no body (nothing in Lean
can evaluate them), each named in a log entry. -/

namespace Sys2Proof.Config

/-- The 60-bit bank key that the device's random generator draws for a new task set (R243), by draw number.
DESIGN CHOICE: log entry 36. -/
opaque bankKey : Nat → BitVec 60

/-- The LZ4 block the page engine's compressor emits for 65,536 bytes (R399 fixes the block format, not the block).
DESIGN CHOICE: log entry 36. -/
opaque lz4Block : List (BitVec 8) → List (BitVec 8)

/-- Signatures of the attestation answer (R411) over a digest: the device secret is not given. DESIGN CHOICE: log entry 36. -/
opaque attestEd25519 : BitVec 384 → List (BitVec 8)
opaque attestMlDsa : BitVec 384 → List (BitVec 8)

/-- What the boot ROM holds in fuses (R409): the SHA-384 hashes of the two public keys and the anti-rollback counter.
DESIGN CHOICE: log entry 36. -/
opaque fusedEd25519 : BitVec 384
opaque fusedMlDsa : BitVec 384
opaque fusedVersion : Nat

/-- Whether a signature verifies under a public key over a digest (R409). DESIGN CHOICE: log entry 36. -/
opaque verifyEd25519 : List (BitVec 8) → BitVec 384 → List (BitVec 8) → Bool
opaque verifyMlDsa : List (BitVec 8) → BitVec 384 → List (BitVec 8) → Bool

/-- The device's fabric key, under which job keys are wrapped (R236): derived from a device secret (R411).
DESIGN CHOICE: log entry 36. -/
opaque fabricKey : BitVec 256

/-- Which TLB entry a new translation replaces when the TLB is full (R387: not defined), by choice number.
DESIGN CHOICE: log entry 36. -/
opaque tlbVictim : Nat → Nat

/-- Which held folio copy a quire replaces when it must fetch a further entry (R293: not defined), by choice number.
DESIGN CHOICE: log entry 36. -/
opaque folioVictim : Nat → Nat

/-- A 64-bit value an instruction returns where the spec gives it none, by use number. DESIGN CHOICE: log entry 2. -/
opaque freeWord : Nat → BitVec 64

/-- A choice that the spec leaves open (whether a peer's answer comes back, which bytes arrive with F = 1), by use number.
DESIGN CHOICE: log entry 2. -/
opaque freeBool : Nat → Bool

end Sys2Proof.Config
end

