-- ==== Sys2Proof/Machine/State.lean ====
section
/-! DEFINITION. The machine's state: plain data, holding every piece of state the spec gives the package, and the state
right after reset. Units that are at their reset value are not listed: a table is a list of (number, value) pairs with
rising numbers and no entry at the table's default value. -/

namespace Sys2Proof.Machine

/-- A sparse table: rising keys, no entry equal to the table's default. -/
abbrev Tab (α : Type) := List (Nat × α)

/-- The hidden marks of an EMPTY register (R121): `cw` is the catchword bound to it. -/
structure Marks where
  reply : Bool
  drop : Bool
  fatal : Bool
  cw : Option Nat
deriving DecidableEq, Repr

/-- A register with its state (R41, R121): `catching` holds the identifier and the transform. -/
inductive Cell (α τ : Type) where
  | full (v : α)
  | empty (m : Marks)
  | catching (cw : Nat) (t : τ)
  | dead
deriving DecidableEq, Repr

/-- One recorded floating-point step (R130): the opcode's operation, whether the pending operand is the second, the
element type, the mode, the v number of the FULL operand and its value as the instruction read it. DEDUCED: log entry 32. -/
structure VStep where
  opcode : BitVec 10
  second : Bool
  fmt : Fmt
  rm : Rnd
  reg : Nat
  val : BitVec 4096
deriving DecidableEq, Repr

/-- An x register: transforms are (scale, offset) pairs (R128). -/
abbrev XCell := Cell Word (Word × Word)
/-- A predicate register; never CATCH (R121). -/
abbrev PCell := Cell Bool Unit
/-- A v register: 512 bytes (R266), with recorded steps. -/
abbrev VCell := Cell (BitVec 4096) (List VStep)
/-- The state of an accumulator; never CATCH. Its value stands in the core's `accv` whatever its state (R305). -/
abbrev ACell := Cell Unit Unit

/-- How a RESTING slot's rest may end (R90). -/
inductive Rest where
  | yield | sleep | sleepMsg
deriving DecidableEq, Repr

/-- What FOLD and PARK captured at issue (R91, R169). -/
structure FoldInfo where
  leaf : Word
  events : Word
  ext : Option Word
  regs : BitVec 36
  word : Option Word
  nextPc : Word
  deadline : Nat
deriving DecidableEq, Repr

/-- Why a slot is CLOSING (R73, R91): EXIT, FOLD / PARK with what they captured, or a pre-emption that drains it (R365); `wrote`
once the leaf's stores have been issued, naming their accesses. -/
inductive Closing where
  | exit
  | preempt
  | leaf (f : FoldInfo) (wrote : Option (List Nat))
deriving DecidableEq, Repr

/-- The states of a slot (R73). -/
inductive SlotSt where
  | free
  | active
  | resting (wake : Nat) (r : Rest)
  | closing (c : Closing)
deriving DecidableEq, Repr

/-- What a slot marked waiting waits for (R76); registers by their index j of R367 (102 + n for accumulators). `regs` is a
`wait until` for all of a list, `pairRegs` the same for member B of a pair that waits as a unit (R33). -/
inductive Wait where
  | none
  | reg (j : Nat)
  | regs (js : List Nat)
  | pairRegs (js : List Nat)
  | port (k : Nat)
  | fetch
  | tlb
  | leaf
  | other
deriving DecidableEq, Repr

/-- Progress of an instruction that stands at a wait with an effect already made (R362, R359, R257, R219). -/
inductive Stall where
  | none
  | bar (deadline : Word) (status : Option Nat)
  | evwait (k : Nat) (bits : Word) (deadline : Word) (status : Option Nat)
  | twait (tile : Nat) (phase : Bool) (deadline promise : Word) (status : Option Nat)
deriving DecidableEq, Repr

/-- A fence record (R335): the later set and the accesses it waits for; `no` is above the numbers of all accesses before it. -/
structure FenceRec where
  later : BitVec 5
  ids : List Nat
  no : Nat
deriving DecidableEq, Repr

/-- A FILL under way (R87): the octet, the words that have arrived, and whether a word ended FATAL. -/
structure FillSt where
  octet : Nat
  got : List (Nat × Word)
  fatals : List Nat
deriving DecidableEq, Repr

/-- A folio entry as its eight words (R294). -/
abbrev Folio := List Word

/-- A reference withdrawn by a pre-emption (R365): kind 0 LDF, 1 LDFE, 2 STEF or 4 matrix command; for a command the copies of its
folios (R297). `seq` orders the withdrawals (R368); `folios` and `seq` are the model's own. DESIGN CHOICE: log entry 9. -/
structure Withdrawn where
  kind : Nat
  va : Word
  data : Word
  reg : Nat
  record : List Word
  folios : Option (Folio × Folio)
  seq : Nat
deriving DecidableEq, Repr

/-- What a slot that takes a leaf still reads (R357): the leaf's home quire, its address and its extension's, its register fields,
the words that have arrived. -/
structure LeafRead where
  quire : Nat
  leaf : Word
  ext : Option Word
  regs : BitVec 36
  words : List Word
deriving DecidableEq, Repr

/-- A thread slot (R71). `lost` holds the register and the kind that the pending trap of R167 reports. `lease` is the number of
its lease (R263); 16 stands for one that it takes again before its next issue (R264). -/
structure Slot where
  st : SlotSt
  pc : Word
  xlo : List XCell
  win : List XCell
  p : List PCell
  v : List VCell
  lease : Option Nat
  wstate : Word
  spillp : Word
  mdest : Word
  waitlim : Word
  deadmode : Word
  wrec : Word
  grec : Word
  tctl : Word
  redcnt : Nat
  epc : Word
  ecause : Word
  eval : Word
  estat : Word
  tsave : List Word
  gen : BitVec 8
  baseCls : Nat
  cls : Nat
  age : Nat
  lastSel : Nat
  wait : Wait
  rfva : Word
  rfst : Word
  queued : Nat
  unacked : Nat
  fences : List FenceRec
  pend : List (Nat × Word)
  lost : Option (Nat × Nat)
  hdr : Word
  tsid : Option Nat
  tag : BitVec 32
  triggered : Bool
  setEv : List Nat
  evQuire : Nat
  fromLeaf : Bool
  dirty : BitVec 128
  vdirty : BitVec 16
  entryDue : Bool
  handlerDue : Bool
  leaseDue : Bool
  stall : Stall
  fills : List FillSt
  withdrawn : List Withdrawn
  reading : Option LeafRead
  stopped : Bool
deriving DecidableEq, Repr

/-- A divider operation (R110): its destination register index, its result and the clock at which the divider accepts it. -/
structure DivOp where
  slot : Nat
  gen : BitVec 8
  reg : Nat
  value : Word
  at_ : Nat
deriving DecidableEq, Repr

/-- A store-buffer entry (R329): an access, its home and the bytes written there in order, and the loads that took a
byte from it (R331). -/
structure SbEntry where
  id : Nat
  slot : Nat
  gen : BitVec 8
  va : Word
  home : Nat
  bytes : List Byte
  readers : List Nat
deriving DecidableEq, Repr

/-- A mesh word (R94, R95): target in the layout of R93 [27:0], tag, data, sending core, reason when stray. -/
structure MeshWord where
  target : BitVec 28
  tag : Nat
  data : Word
  sender : Nat
  reason : Nat
deriving DecidableEq, Repr

/-- A page-table leaf as a TLB holds it (R387): space, VA and PA of the page, its size, its attributes. -/
structure TlbEntry where
  space : Nat
  va : Nat
  size : Nat
  pa : Nat
  r : Bool
  w : Bool
  sa : Bool
  sp : Bool
  hisle : Nat
deriving DecidableEq, Repr

/-- Who sent a matrix command: a slot of the core, or another core's MXSEND (R320). -/
inductive MxFrom where
  | own (slot : Nat) (gen : BitVec 8)
  | sent (slot : Nat) (gen : BitVec 8) (reg : Nat)
deriving DecidableEq, Repr

/-- An accepted matrix command (R306): its place in the acceptance order, its access, its sender and the sender's set, opcode,
cmpl and low fields, operand values and the folio copies it took; `next` is the element of an MXST or the row block of a WBLD it
has come to, `seen` the bytes that were read for it before the step that uses them (R339). -/
structure MxCmd where
  no : Nat
  acc : Nat
  src : MxFrom
  tsid : Nat
  opcode : BitVec 10
  cmpl : BitVec 12
  low : BitVec 40
  s1 : Word
  s2 : Word
  s3 : Word
  fa : Folio
  fb : Folio
  next : Nat
  seen : List (Nat × Byte)
deriving DecidableEq, Repr

/-- A command that the array or the loader executes: the accumulator shadow (R317), and once it has ended its error cause of
R318, 0 for none. -/
structure MxRun where
  cmd : MxCmd
  shadow : BitVec 32768
  ended : Option Nat
deriving DecidableEq, Repr

/-- States of a weight slot (R308). -/
inductive WSt where
  | invalid | loading | ready | faulted
deriving DecidableEq, Repr

/-- A weight slot (R308, R309): its state, the format and scale format of what it holds, the folio's group code and the load's
origin in dimension 0 modulo 128, rows P, row blocks arrived, the stored weight and scale of each (row, column) that is present.
-/
structure WSlot where
  st : WSt
  fmt : Fmt
  sfmt : Option Fmt
  group : Nat
  phase : Nat
  rows : Nat
  blocks : Nat
  cells : List (Nat × (Nat × Nat))
deriving DecidableEq, Repr

/-- A core (R305, R77, R95, R110, R126, R329, R375). The divider accepts its next operation at `divNext` or later; `starve` counts
the clocks in which a slot was ready and none was selected (R418), `started` is 1 more than the clock in which it last started a
thread (R354). `accDead` names the accumulators that were DEAD when the commands that are to write them were accepted. Element (m,
n) of accumulator value `accv` is at lane 32 m + n; `owner` and `mxDirty` number the accumulators 0 to 7 and the weight slots from
8 on (R365, R366). -/
structure Core where
  excluded : Bool
  strayDeliver : Bool
  failed : Bool
  ptrs : List Nat
  cwUsed : List Nat
  div : List DivOp
  divNext : Nat
  starve : Nat
  started : Nat
  sb : List SbEntry
  sendq : List MeshWord
  inbox : List MeshWord
  ferry : List MeshWord
  diverted : List Nat
  strays : Nat
  tlb : List TlbEntry
  leases : List Nat
  leaseWait : List Nat
  mxq : List MxCmd
  ldq : List MxCmd
  array : Option MxRun
  loader : Option MxRun
  mxNo : Nat
  accs : List ACell
  accDead : List Nat
  accv : List (BitVec 32768)
  ws : Tab WSlot
  mxkey : BitVec 16
  arrayHeld : Bool
  loaderHeld : Bool
  owner : List (Nat × Nat)
  mxDirty : List Nat
deriving DecidableEq, Repr

/-- A tile (R245) with its allocation key (R243), guard granules and zeroing in progress (R247). -/
structure Tile where
  first : Nat
  done : Nat
  ecode : Nat
  alloc : Bool
  guard : Bool
  err : Bool
  pm : Bool
  inq : Bool
  phase : Bool
  engine : Bool
  key : BitVec 60
  gd : BitVec 16
  zeroing : Bool
  tsid : Nat
  granules : Nat
  dirty : Bool
deriving DecidableEq, Repr

/-- A copy queued or running (R252 to R256), of the job of its issuer; `todo` numbers the elements of the box that it has not yet moved. -/
structure Copy where
  no : Nat
  acc : Nat
  slot : Nat
  gen : BitVec 8
  job : Nat
  tile : Nat
  tiles : Nat
  bytes : Nat
  out : Bool
  fill : Bool
  fmt : Fmt
  folio : Folio
  origin : Word
  extent : Word
  todo : List Nat
  held : Bool
deriving DecidableEq, Repr

/-- A code-buffer line (R35): space, line address, its 64 bytes, first byte lowest; `bad` by R34; `again` lists the
instructions whose check failed while the one refetch is due. -/
structure CodeLine where
  space : Nat
  line : Nat
  bytes : BitVec 512
  bad : Bool
  again : List Nat
deriving DecidableEq, Repr

/-- States of a leaf-table entry (R356). -/
inductive LeafSt where
  | waiting | moored | ready
deriving DecidableEq, Repr

/-- A leaf-table entry (R356); `events` is leaf word 1, `mark` a pending trap, `guardEv` a guard event of R248. -/
structure Leaf where
  no : Nat
  leaf : Word
  ext : Option Word
  regs : BitVec 36
  tsid : Nat
  tag : BitVec 32
  cls : Nat
  mark : Option (Nat × Word)
  guardEv : Option Word
  events : Word
  triggered : Bool
  st : LeafSt
  readyNo : Nat
deriving DecidableEq, Repr

/-- A quire. -/
structure Quire where
  code : List CodeLine
  tiles : Tab Tile
  copyq : List Copy
  running : List Copy
  horizon : Nat
  events : BitVec 256
  leaves : List Leaf
  folios : List Nat
deriving DecidableEq, Repr

/-- Kinds of a moored reference with the codes of R163. -/
inductive MoorKind where
  | ldf | ldfe | stef | park
deriving DecidableEq, Repr

/-- A mooring entry (R161): the word's home address, the issuer, its register by index and by number, the STEF data or the
leaf-table number of a PARK; `area` is its index in the overflow area, if it lies there (R163). -/
structure Moor where
  isle : Nat
  home : Nat
  va : Word
  kind : MoorKind
  slot : Nat
  gen : BitVec 8
  reg : Nat
  num : Nat
  acc : Nat
  data : Word
  deadline : Nat
  area : Option Nat
deriving DecidableEq, Repr

/-- Where a reply lands: a register by its index of R367, a word of a FILL, or nowhere. -/
inductive RetDst where
  | reg (j : Nat)
  | fillWord (octet i : Nat)
  | none
deriving DecidableEq, Repr

/-- Records that are read at their homes like a load (R204, R302, R350, R320, R398, R189), a resumed leaf and its extension
among them (R357). -/
inductive RecKind where
  | winopen
  | folset (idx : Nat)
  | launch
  | mxsend (cap : Word)
  | pgcmd
  | mcas (n : Nat)
  | leaf (ext : Bool)
deriving DecidableEq, Repr

/-- How far an isle has come with a TAGSET (R172): its wave runs from word `start` to word `stop`, and its words below `pos` are
done. -/
structure TagPart where
  isle : Nat
  start : Nat
  pos : Nat
  stop : Nat
deriving DecidableEq, Repr

/-- What a reference does at its home. `loadLate` is a load whose lookup of the
store buffer is still due, `loadAfter` one that waits for the entries that hold some of its bytes. `vload` holds the lane
types of register and folio, the (lane, address) pairs not yet read and the lanes read; `vstore` the element width in bytes and
the (lane, address, bits) not yet written; `tagset` the number of words done, the first word that is not, and how far each isle
has come. -/
inductive RefOp where
  | load (w : Width) (sgn : Bool)
  | loadLate (w : Width) (sgn : Bool)
  | loadAfter (w : Width) (sgn : Bool) (entries : List Nat)
  | store (bytes : List Byte)
  | ldf
  | ldfe
  | stef (v : Word)
  | stf (v : Word)
  | purge
  | tagrd (w : Bool)
  | atom (op : AtomOp) (w : Width) (v c : Word) (ret : Bool)
  | park (leafNo : Nat)
  | record (k : RecKind) (len : Nat)
  | touch (needR needW : Bool)
  | vload (f sf : Fmt) (todo : List (Nat × Nat)) (got : BitVec 4096)
  | vstore (bytes : Nat) (todo : List (Nat × Nat × Nat))
  | tagset (full : Bool) (len done low : Nat) (parts : List TagPart)
  | enq (node : Word)
  | chase (o : Word) (hops : Nat)
deriving DecidableEq, Repr

/-- A reference on its way to a home, at a home, at an agent, or parked (R159, R188, R389): `tsid` is the set of the thread that
issued it and `job` its job, `num` the destination register number of its instruction (R163). -/
structure Ref where
  id : Nat
  slot : Nat
  gen : BitVec 8
  tsid : Nat
  num : Nat
  job : Nat
  space : Nat
  va : Word
  isle : Nat
  home : Nat
  dst : RetDst
  op : RefOp
  limit : Nat
  counted : Bool
deriving DecidableEq, Repr

/-- A reply on its way to a slot (R133): its value, or FATAL; `acc` is the access that is performed when the reply
lands (R326). -/
structure Reply where
  slot : Nat
  gen : BitVec 8
  dst : RetDst
  value : Word
  vec : Option (BitVec 4096)
  fatal : Bool
  acc : Option Nat
deriving DecidableEq, Repr

/-- An access of a slot that is not yet performed (R326): its sets, the words it names as spans (first, count)
of home words and of virtual words, and its kind for the same-word order of R327. -/
structure Acc where
  id : Nat
  slot : Nat
  gen : BitVec 8
  sets : BitVec 5
  words : List (Nat × Nat)
  plain : Bool
  arrived : Bool
deriving DecidableEq, Repr

/-- An access of a remote package that has been accepted in a window (R207). `targets` are the window, local address and space
of each target of an MCAS. -/
structure RemAccess where
  peer : Nat
  job : Nat
  isle : Nat
  handle : Nat
  targets : List (Nat × Nat × Nat)
  va : Word
  space : Nat
  seq : Nat
  pkt : Nat
  el : Nat
  tag : RetTag
  op : RemOp
  elem : Option Elem
deriving DecidableEq, Repr

/-- A code-line fill under way (R35) for the PC `pc`; `ended` holds the cause of the trap it ended in. -/
structure CodeFill where
  slot : Nat
  gen : BitVec 8
  space : Nat
  pc : Word
  ended : Option Nat
deriving DecidableEq, Repr

/-- What is parked on a fault entry (R389). -/
inductive Parked where
  | ref (r : Ref)
  | fetch (f : CodeFill)
  | copy (quire no : Nat)
  | mx (core : Nat) (loader : Bool)
  | remote (a : RemAccess)
deriving DecidableEq, Repr

/-- One item of a parking list, with whether it reads (bit 0) and writes (bit 1) (R389, R393). -/
structure ParkedOn where
  what : Parked
  acc : BitVec 2
deriving DecidableEq, Repr

/-- A live fault-table entry (R388); `seq` is set when it is QUEUED. -/
structure FaultEnt where
  queued : Bool
  seq : Nat
  space : Nat
  page : Nat
  bad : Bool
  origin : Nat
  va : Word
  who : Word
  cyc : Word
  no : Nat
  parked : List ParkedOn
deriving DecidableEq, Repr

/-- States of a gathering buffer that is not FREE (R214). -/
inductive GSt where
  | open_ | sealed_ | held
deriving DecidableEq, Repr

/-- An element with its shadow (R212). -/
structure ShElem where
  el : Elem
  slot : Nat
  gen : BitVec 8
  va : Word
  at_ : Nat
deriving DecidableEq, Repr

/-- A gathering buffer (R214). -/
structure GBuf where
  st : GSt
  dest : Nat
  job : Nat
  els : List ShElem
deriving DecidableEq, Repr

/-- An isle. `fqstep` counts the words 1 to 3 of the present ring entry whose STEF the isle has issued (R392). `gwait` holds the
elements, with package and job, that an eviction has promised the next free gathering buffers (R214). -/
structure Isle where
  moorbase : Word
  moorlim : Word
  ablimit : Nat
  cap : Nat
  lock : Bool
  bad : Bool
  nospread : Bool
  deadIsles : BitVec 16
  ixh : List Word
  bxh : List Word
  gage : Nat
  pdto : Nat
  pool : List Nat
  fqbase : Word
  fqnext : Nat
  fqstep : Nat
  fqhirq : Bool
  fqsize : Nat
  fseq : Nat
  faults : Tab FaultEnt
  tlb : List TlbEntry
  gbufs : List GBuf
  gwait : List (ShElem × Nat × Nat)
  evictions : Nat
deriving DecidableEq, Repr

/-- Run states of a task set. -/
inductive SetSt where
  | live | stopping | folded | terminating
deriving DecidableEq, Repr

/-- A pre-emption under way (R364, R365); `seq` is its journal sequence. -/
structure Preempt where
  port : Nat
  evict : Bool
  image : Word
  len : Word
  base : Word
  deadline : Word
  seq : Nat
deriving DecidableEq, Repr

/-- A task set (R346, R348, R375). `cover` lists the accesses that its dispatch waits for (R341), `owed` those that its ended
tasks left (R342). `images` is the chain of its latest image (R366); `folded` and `foldedT` keep, for an evicted set, what the
image has no place for: the rest of its slots, and of its tiles by quire and number. -/
structure TaskSet where
  st : SetSt
  job : Nat
  depth : Nat
  limit : Nat
  prio : Nat
  parent : Option Nat
  service : Bool
  space : Nat
  tsvec : Word
  entry : Word
  tasks : Nat
  args : Word
  isles : BitVec 16
  slots : Nat
  evon : Bool
  evQuire : Nat
  evBit : Nat
  evDone : Bool
  key : BitVec 60
  recs : List (Nat × Nat)
  sent : List Nat
  ended : Nat
  trig : Nat
  everTrig : Bool
  children : Nat
  no : Nat
  cover : List Nat
  owed : List Nat
  ferry : Bool
  preempt : Option Preempt
  images : List Word
  folded : List Slot
  foldedT : List (Nat × Nat × Tile)
deriving DecidableEq, Repr

/-- A barrier context (R362): scope instance, key, barrier number, count and arrivals. -/
structure BarCtx where
  scope : BarScope
  inst : Nat
  key : Nat
  num : Nat
  count : Nat
  arrived : List Nat
deriving DecidableEq, Repr

/-- States of a window entry that is not FREE (R202). -/
structure Window where
  closing : Bool
  job : Nat
  space : Nat
  obase : Nat
  length : Nat
  local_ : Word
  rights : BitVec 4
  inflight : Nat
  closer : Option (Nat × BitVec 8 × RetDst × Nat)
deriving DecidableEq, Repr

/-- Connection states at a sender (R234). -/
inductive ConnSt where
  | up | hold | down
deriving DecidableEq, Repr

/-- A packet queued or in flight with what its sender keeps of it (R212, R229): the shadow of gathered elements, or
where a request's reply goes and whether it is sign-extended; `settled` once no answer is awaited. -/
structure OutPkt where
  pkt : Packet
  shadow : List ShElem
  slot : Nat
  gen : BitVec 8
  dst : RetDst
  sgn : Bool
  settled : Bool
deriving DecidableEq, Repr

/-- A data frame kept for replay (R229). -/
structure OutFrame where
  seq : Nat
  epoch : Nat
  pkts : List OutPkt
  at_ : Nat
  done : Bool
deriving DecidableEq, Repr

/-- A connection with one peer for one job: the sender side and the receiver side (R229 to R238). `rxAcks` holds the counter of
the last kind-1 frame accepted under each epoch (R226), `peerAdv` the epochs that the peer has advertised (R237). -/
structure Conn where
  peer : Nat
  job : Nat
  st : ConnSt
  since : Nat
  used : Bool
  epoch : Nat
  nextSeq : Nat
  ackCtr : Nat
  queue : List OutPkt
  replay : List OutFrame
  exhausted : Bool
  rate : Nat
  sawAck : Bool
  sawEcho : Bool
  periodAt : Nat
  lastRate : Nat
  rxExpected : Nat
  rxEpoch : Nat
  rxAcks : List (Nat × Nat)
  peerAdv : List Nat
  owesAck : Bool
  owesNak : Bool
  nakAt : Nat
  echoDue : Bool
deriving DecidableEq, Repr

/-- An inbound gathered packet whose statuses are not all known (R227 kind 7). -/
structure InGather where
  peer : Nat
  job : Nat
  seq : Nat
  pkt : Nat
  tag : RetTag
  sts : List (Option Nat)
deriving DecidableEq, Repr

/-- A transmitted frame, as the outside sees it (R226, R229): its fields, the words of flit 0 and of its payload flits before
they are encrypted (R227), and the key and nonce that encrypt it (R236). -/
structure SentFrame where
  peer : Nat
  job : Nat
  kind : Nat
  seq : Nat
  epoch : Nat
  epAdv : Nat
  ack : Option Nat
  echo : Bool
  nak : Bool
  pkts : List Packet
  flit0 : List Word
  payload : List Word
  cipherKey : List Byte
  nonce : BitVec 96
deriving DecidableEq, Repr

/-- An event-bit update under way (R358). -/
structure EvUpd where
  quire : Nat
  bit : Nat
  set : Bool
  slot : Nat
  gen : BitVec 8
  at_ : Nat
deriving DecidableEq, Repr

/-- A lookup or walk that a void issue of a slot asked for (R386). -/
structure Walk where
  slot : Nat
  gen : BitVec 8
  space : Nat
  va : Nat
deriving DecidableEq, Repr

/-- A page-engine command (R398), with the bytes that it has read before its completion (R340). -/
structure PgCmd where
  slot : Nat
  gen : BitVec 8
  dst : RetDst
  acc : Nat
  tsid : Nat
  space : Nat
  rec_ : List Word
  seen : List (Nat × Byte)
deriving DecidableEq, Repr

/-- A matrix command in flight between cores (R320). -/
structure MxMsg where
  core : Nat
  key : Nat
  slot : Nat
  gen : BitVec 8
  dst : RetDst
  acc : Nat
  tsid : Nat
  rec_ : List Word
deriving DecidableEq, Repr

/-- A harbour reservation (R194): the word's home and the clock of the LR. -/
structure Resv where
  word : Nat
  at_ : Nat
deriving DecidableEq, Repr

/-- A journal entry (R414). -/
structure JEntry where
  seq : Nat
  kind : Nat
  what : Nat
  cyc : Word
  status : Word
deriving DecidableEq, Repr

/-- An event record (R233, R413): its four words. -/
structure EvRec where
  w0 : Word
  w1 : Word
  w2 : Word
  w3 : Word
deriving DecidableEq, Repr

/-- A measurement log entry (R410). -/
structure MeasEntry where
  step : Nat
  slot : Nat
  version : Nat
  digest : BitVec 384
deriving DecidableEq, Repr

/-- A register that a debugger names: x0, p0, or one by its index, 102 + n for accumulator n (R149). -/
inductive RegName where
  | x0 | p0
  | at_ (j : Nat)
deriving DecidableEq, Repr

/-- What a debugger or service read of a register returns (R41, R149): the state code and the value; for a CATCH register the
identifier, with s and o or with the recorded steps. -/
structure RegRead where
  code : Nat
  value : Nat
  cw : Option Nat
  pair : Option (Word × Word)
  steps : List VStep
deriving DecidableEq, Repr

/-- Answers of the management port, of harbour accesses and of debugger reads (R149, R404, R411 to R415). -/
inductive Answer where
  | none
  | status (zid : BitVec 32) (drops : Nat) (halted : Bool)
  | attest (zid : BitVec 32) (rec_ : Word) (log : List MeasEntry) (m : BitVec 384) (nonce : BitVec 256)
      (sig1 sig2 : List Byte)
  | journal (es : List JEntry) (gap : Bool)
  | checkpoint (status : Nat)
  | ok
  | load (hart : Nat) (value : Word)
  | done (hart : Nat)
  | exception (hart code : Nat)
  | register (r : RegRead)
deriving DecidableEq, Repr

/-- Phases of the device (R406, R412). -/
inductive BootPhase where
  | off | up | halted
deriving DecidableEq, Repr

/-- What the schedule lets move next: a core that selects a slot (R77), an event row, clocks that pass, a laser source that fails
(R232), or an error of a word's stored bits: one that an access corrects, or one that is uncorrectable (R417), a debugger's read of a register (R149), or a byte
that a matrix unit or the page engine reads before the step that uses it (R339, R340). DESIGN CHOICE: log entry 1. -/
inductive Move where
  | select (core : Nat)
  | event (e : Instr)
  | pass (n : Nat)
  | source (n : Nat)
  | corrected
  | breaks (home : Nat)
  | debug (slot : Nat) (r : RegName)
  | mxReads (core : Nat) (loader : Bool) (home : Nat)
  | pageReads (k home : Nat)
deriving DecidableEq, Repr

/-- The package. `lossAt` holds, by channel, the clock of a loss of light and the frames replayed there since (R233), `laneReqs`
the requests that the harbour has stored in LANEREQ (R201), `broken` the words with an uncorrectable error and `corrected` the
count of corrections (R417), `sentBlocks` the blocks that the page engine has sent to other packages (R399), `portWait` the
resumptions that wait, by port, with their journal sequences, `startrec` the two copies of the record with their CRC words (R408).
The last fields are the model's own: the schedule, the issuing slot of the instruction being executed, serial numbers and the
free-value counter. -/
structure State where
  mem : List Host.Cell
  fulls : Tab Bool
  broken : Tab Bool
  corrected : Nat
  cyc : Nat
  zid : BitVec 32
  fpkg : Nat
  sptbase : Word
  slots : Tab Slot
  cores : Tab Core
  quires : Tab Quire
  isles : Tab Isle
  sets : Tab TaskSet
  bars : List BarCtx
  moors : List Moor
  accs : List Acc
  refs : List Ref
  replies : List Reply
  acks : List (Nat × BitVec 8 × Nat)
  mesh : List MeshWord
  evUpds : List EvUpd
  codeFills : List CodeFill
  walks : List Walk
  folioWait : List (Nat × Nat)
  folios : Tab Folio
  froute : Tab Nat
  windows : Tab Window
  conns : List Conn
  elemsOut : List (Nat × ShElem × Nat × Nat)
  inGathers : List InGather
  remRefs : List RemAccess
  statusIn : List (ShElem × Nat)
  keys : List (Nat × Nat × BitVec 256)
  lanes : Tab (BitVec 16)
  laneLoss : Tab (BitVec 16)
  lossAt : Tab (Nat × Nat)
  laneReqs : List Word
  tagFails : Tab (List Nat)
  sentFrames : List SentFrame
  mxMsgs : List MxMsg
  pgq : List PgCmd
  sentBlocks : List (Word × List Byte)
  flash : Tab Byte
  ports : Tab Word
  portWait : List (Nat × PortCmd × Nat)
  portHeld : List (Nat × PortCmd)
  keycmd : Word
  resv : Tab Resv
  ringBase : Word
  ringSize : Nat
  ringNext : Nat
  drops : Nat
  ring : List EvRec
  hirqs : Nat
  journal : List JEntry
  jseq : Nat
  startrec : List (Word × BitVec 32)
  measM : BitVec 384
  measLog : List MeasEntry
  phase : BootPhase
  hot : BitVec 16
  throttled : BitVec 16
  checkpointing : Option (Bool × Word)
  answer : Answer
  sched : List Move
  cur : Nat
  serial : Nat
  draws : Nat
deriving DecidableEq, Repr

/-- Why a step stops: no step does. Every stop of the spec is a trap, a status or a state in which the device waits (R406). -/
inductive Fault where
deriving DecidableEq, Repr

/-- Why an operation has no meaning.
`notModelled`: raised by a dispatch arm whose meaning is not written; safe. -/
inductive Refusal where
  | notModelled (mnemonic : String)
deriving DecidableEq, Repr

/-- A slot that is FREE after a cold start: every register DEAD, every register of slot scope 0 (R72, R83, R124).
DESIGN CHOICE: log entry 4. -/
def Slot.init : Slot where
  st := .free
  pc := 0
  xlo := List.replicate 7 .dead
  win := List.replicate 72 .dead
  p := List.replicate 7 .dead
  v := List.replicate 16 .dead
  lease := none
  wstate := 0
  spillp := 0
  mdest := 0
  waitlim := 0
  deadmode := 0
  wrec := 0
  grec := 0
  tctl := 0
  redcnt := 0
  epc := 0
  ecause := 0
  eval := 0
  estat := 0
  tsave := [0, 0, 0, 0]
  gen := 0
  baseCls := 0
  cls := 0
  age := 0
  lastSel := 0
  wait := .none
  rfva := 0
  rfst := 0
  queued := 0
  unacked := 0
  fences := []
  pend := []
  lost := none
  hdr := 0
  tsid := none
  tag := 0
  triggered := false
  setEv := []
  evQuire := 0
  fromLeaf := false
  dirty := 0
  vdirty := 0
  entryDue := false
  handlerDue := false
  leaseDue := false
  stall := .none
  fills := []
  withdrawn := []
  reading := none
  stopped := false

/-- A weight slot after a cold start: INVALID (R308). -/
def WSlot.init : WSlot where
  st := .invalid
  fmt := .bf16
  sfmt := none
  group := 0
  phase := 0
  rows := 0
  blocks := 0
  cells := []

/-- A core after a cold start (R77, R126, R305, R319). DESIGN CHOICE: log entry 4. -/
def Core.init : Core where
  excluded := false
  strayDeliver := false
  failed := false
  ptrs := [0, 0, 0, 0]
  cwUsed := []
  div := []
  divNext := 0
  starve := 0
  started := 0
  sb := []
  sendq := []
  inbox := []
  ferry := []
  diverted := []
  strays := 0
  tlb := []
  leases := []
  leaseWait := []
  mxq := []
  ldq := []
  array := none
  loader := none
  mxNo := 0
  accs := List.replicate 8 .dead
  accDead := []
  accv := List.replicate 8 0
  ws := []
  mxkey := 0
  arrayHeld := false
  loaderHeld := false
  owner := []
  mxDirty := []

/-- A tile after a cold start: free, key 0 (R243, R245). -/
def Tile.init : Tile where
  first := 0
  done := 0
  ecode := 0
  alloc := false
  guard := false
  err := false
  pm := false
  inq := false
  phase := false
  engine := false
  key := 0
  gd := 0
  zeroing := false
  tsid := 0
  granules := 0
  dirty := false

/-- A quire after a cold start: event bits 0, horizon 0 (R254, R358). DESIGN CHOICE: log entry 4. -/
def Quire.init : Quire where
  code := []
  tiles := []
  copyq := []
  running := []
  horizon := 0
  events := 0
  leaves := []
  folios := []

/-- An isle after a cold start: the Reset columns of R163, R171, R173, R174, R215, R234, R391. DESIGN CHOICE: log entry 4. -/
def Isle.init : Isle where
  moorbase := 0
  moorlim := 0
  ablimit := 512
  cap := 512
  lock := false
  bad := false
  nospread := false
  deadIsles := 0
  ixh := [0x100#64, 0x200#64, 0x400#64, 0x800#64]
  bxh := [0x1000#64, 0x2000#64, 0x4000#64, 0x8000#64, 0x10000#64, 0x20000#64, 0x40000#64, 0x80000#64, 0x100000#64]
  gage := 1024
  pdto := 16777216
  pool := []
  fqbase := 0
  fqnext := 0
  fqstep := 0
  fqhirq := false
  fqsize := 0
  fseq := 0
  faults := []
  tlb := []
  gbufs := []
  gwait := []
  evictions := 0

/-- The package right after reset: nothing listed, every unit at its reset value, the start sequence not yet run.
DESIGN CHOICE: log entry 4. DESIGN CHOICE: log entry 5. -/
def State.reset : State where
  mem := []
  fulls := []
  broken := []
  corrected := 0
  cyc := 0
  zid := 0x4A501610
  fpkg := 0
  sptbase := 0
  slots := []
  cores := []
  quires := []
  isles := []
  sets := []
  bars := []
  moors := []
  accs := []
  refs := []
  replies := []
  acks := []
  mesh := []
  evUpds := []
  codeFills := []
  walks := []
  folioWait := []
  folios := []
  froute := []
  windows := []
  conns := []
  elemsOut := []
  inGathers := []
  remRefs := []
  statusIn := []
  keys := []
  lanes := []
  laneLoss := []
  lossAt := []
  laneReqs := []
  tagFails := []
  sentFrames := []
  mxMsgs := []
  pgq := []
  sentBlocks := []
  flash := []
  ports := []
  portWait := []
  portHeld := []
  keycmd := 0
  resv := []
  ringBase := 0
  ringSize := 0
  ringNext := 0
  drops := 0
  ring := []
  hirqs := 0
  journal := []
  jseq := 0
  startrec := [(0, 0), (0, 0)]
  measM := 0
  measLog := []
  phase := .off
  hot := 0
  throttled := 0
  checkpointing := none
  answer := .none
  sched := []
  cur := 0
  serial := 0
  draws := 0

end Sys2Proof.Machine
end

