-- ==== Sys2Proof/Machine/Ops.lean ====
section
/-! DEFINITION. The named operations over tables, memory, units, registers, accesses and mooring lists, and taking and
returning from a trap. -/

namespace Sys2Proof.Machine

/-! ### Sparse tables -/

/-- The value of a table at `k`: the default where `k` is not listed. -/
def tget {α : Type} (d : α) : Tab α → Nat → α
  | [], _ => d
  | (k', v) :: t, k => if k = k' then v else tget d t k

/-- A table with `k` set to `v`, in canonical form. -/
def tset {α : Type} [DecidableEq α] (d : α) : Tab α → Nat → α → Tab α
  | [], k, v => if v = d then [] else [(k, v)]
  | (k', v') :: t, k, v =>
    if k < k' then (if v = d then (k', v') :: t else (k, v) :: (k', v') :: t)
    else if k = k' then (if v = d then t else (k, v) :: t)
    else (k', v') :: tset d t k v

/-- The canonical form: keys strictly above `lo` and rising, no entry equal to the default. -/
def tabWfFrom {α : Type} [DecidableEq α] (d : α) : Nat → Tab α → Bool
  | _, [] => true
  | lo, (k, v) :: t => decide (lo ≤ k) && decide (v ≠ d) && tabWfFrom d (k + 1) t

/-- The canonical form of a table. -/
def tabWf {α : Type} [DecidableEq α] (d : α) (t : Tab α) : Bool := tabWfFrom d 0 t

/-- Replace the element at position `i`. -/
def lset {α : Type} (l : List α) (i : Nat) (v : α) : List α := l.set i v

/-- Remove the element at position `i`. -/
def lremove {α : Type} : List α → Nat → List α
  | [], _ => []
  | _ :: t, 0 => t
  | a :: t, i + 1 => a :: lremove t i

/-- Remove the first element that satisfies `q`. -/
def removeFirst {α : Type} (q : α → Bool) : List α → List α
  | [] => []
  | a :: t => if q a then t else a :: removeFirst q t

/-- Replace the first element that satisfies `q`. -/
def replaceFirst {α : Type} (q : α → Bool) (f : α → α) : List α → List α
  | [] => []
  | a :: t => if q a then f a :: t else a :: replaceFirst q f t

/-- The least number below `n` that satisfies `q`, searching up from `i` with fuel `n`. -/
def leastFrom (q : Nat → Bool) : Nat → Nat → Option Nat
  | 0, _ => none
  | n + 1, i => if q i then some i else leastFrom q n (i + 1)

/-! ### Memory (R18, R20, R150) -/

/-- Memory is a table of bytes at home addresses; an unlisted byte reads 0 (log entry 3). DESIGN CHOICE: log entry 3. -/
abbrev memDefault : Byte := 0

/-- Home address of a scratchpad byte: above every DRAM physical address (R18, R242). DESIGN CHOICE: log entry 16. -/
def spHome (quire off : Nat) : Nat := 2 ^ 48 + quire * 2 ^ 21 + off

/-- A home address names a scratchpad byte. DESIGN CHOICE: log entry 16. -/
def isSp (home : Nat) : Bool := decide (2 ^ 48 ≤ home)

/-- Quire and offset of a scratchpad home address. -/
def spQuire (home : Nat) : Nat := (home - 2 ^ 48) / 2 ^ 21
def spOff (home : Nat) : Nat := (home - 2 ^ 48) % 2 ^ 21

/-- A byte of DRAM or of a scratchpad by its home address: what nothing has written reads 0. DESIGN CHOICE: log entry 3. -/
def State.byte (s : State) (a : Nat) : Byte := tget memDefault s.mem a

def State.setByte (s : State) (a : Nat) (b : Byte) : State := { s with mem := tset memDefault s.mem a b }

/-- `n` bytes at `a`, little-endian, as a number (R4). -/
def State.readNat (s : State) (a : Nat) : Nat → Nat
  | 0 => 0
  | n + 1 => (s.byte a).toNat + 256 * s.readNat (a + 1) n

/-- A byte as an engine took it earlier, at an instant of its own, or as it stands (R339, R340). -/
def State.byteOf (s : State) (seen : List (Nat × Byte)) (a : Nat) : Byte := (seen.lookup a).getD (s.byte a)

/-- `n` bytes from `a` on as a number, those taken earlier as they stood then. -/
def State.readSeen (s : State) (seen : List (Nat × Byte)) (a : Nat) : Nat → Nat
  | 0 => 0
  | n + 1 => (s.byteOf seen a).toNat + 256 * s.readSeen seen (a + 1) n

/-- An engine takes the byte at `a` now, unless it has it. -/
def State.seeByte (s : State) (seen : List (Nat × Byte)) (a : Nat) : List (Nat × Byte) :=
  if (seen.lookup a).isSome then seen else (a, s.byte a) :: seen

def State.readWord (s : State) (a : Nat) : Word := BitVec.ofNat 64 (s.readNat a 8)

/-- Write the given bytes at `a` upward. -/
def State.writeBytes (s : State) (a : Nat) : List Byte → State
  | [] => s
  | b :: bs => (s.setByte a b).writeBytes (a + 1) bs

/-- The low `n` bytes of a number, lowest first (R4). -/
def bytesOf : Nat → Nat → List Byte
  | 0, _ => []
  | n + 1, v => BitVec.ofNat 8 v :: bytesOf n (v / 256)

/-- A number from bytes, lowest first. -/
def natOfBytes : List Byte → Nat
  | [] => 0
  | b :: bs => b.toNat + 256 * natOfBytes bs

def State.writeWord (s : State) (a : Nat) (v : Word) : State := s.writeBytes a (bytesOf 8 v.toNat)

/-- `n` words at `a`. -/
def State.readWords (s : State) (a : Nat) : Nat → List Word
  | 0 => []
  | n + 1 => s.readWord a :: s.readWords (a + 8) n

def State.writeWords (s : State) (a : Nat) : List Word → State
  | [] => s
  | w :: ws => (s.writeWord a w).writeWords (a + 8) ws

/-- The presence bit of the word at a home address (R150). -/
def State.fBit (s : State) (home : Nat) : Bool := tget false s.fulls (home / 8)

/-- The watch bit: the word's mooring list is not empty (R150). -/
def State.wBit (s : State) (home : Nat) : Bool := s.moors.any fun m => m.home / 8 == home / 8

/-- A byte range meets an uncorrectable word (R417). -/
def State.isBroken (s : State) (home len : Nat) : Bool :=
  (List.range ((home + (len - 1)) / 8 + 1 - home / 8)).any fun i => tget false s.broken (home / 8 + i)

/-- A write of data and F together clears the error (R417). -/
def State.mend (s : State) (home : Nat) : State := { s with broken := tset false s.broken (home / 8) false }

/-- Whole words from a home on are cleared of errors (R417). -/
def State.mendRange (s : State) (home len : Nat) : State :=
  { s with broken := s.broken.filter fun c => decide (8 * c.1 < home) || decide (home + len ≤ 8 * c.1) }

/-! ### Units and their numbers (R15) -/

/-- A slot's package-wide number is 256 x package core index + slot. -/
def coreOf (slot : Nat) : Nat := slot / 256
def quireOf (core : Nat) : Nat := core / 4
def isleOf (core : Nat) : Nat := core / 48
def slotNo (slot : Nat) : Nat := slot % 256

def State.slot (s : State) (k : Nat) : Slot := tget Slot.init s.slots k
def State.setSlot (s : State) (k : Nat) (t : Slot) : State := { s with slots := tset Slot.init s.slots k t }
def State.modSlot (s : State) (k : Nat) (f : Slot → Slot) : State := s.setSlot k (f (s.slot k))

/-- The slot still holds the thread of that generation: what names an ended one is discarded (R73, R222, R397). -/
def State.lives (s : State) (k : Nat) (gen : BitVec 8) : Bool :=
  decide ((s.slot k).gen = gen) && decide ((s.slot k).st ≠ .free)

def State.core (s : State) (k : Nat) : Core := tget Core.init s.cores k
def State.setCore (s : State) (k : Nat) (t : Core) : State := { s with cores := tset Core.init s.cores k t }
def State.modCore (s : State) (k : Nat) (f : Core → Core) : State := s.setCore k (f (s.core k))

def State.quire (s : State) (k : Nat) : Quire := tget Quire.init s.quires k
def State.setQuire (s : State) (k : Nat) (t : Quire) : State := { s with quires := tset Quire.init s.quires k t }
def State.modQuire (s : State) (k : Nat) (f : Quire → Quire) : State := s.setQuire k (f (s.quire k))

def State.isle (s : State) (k : Nat) : Isle := tget Isle.init s.isles k
def State.setIsle (s : State) (k : Nat) (t : Isle) : State := { s with isles := tset Isle.init s.isles k t }
def State.modIsle (s : State) (k : Nat) (f : Isle → Isle) : State := s.setIsle k (f (s.isle k))

/-- The default of the task-set table: no set has it. -/
def TaskSet.init : TaskSet where
  st := .live
  job := 0
  depth := 0
  limit := 0
  prio := 0
  parent := none
  service := false
  space := 0
  tsvec := 0
  entry := 0
  tasks := 0
  args := 0
  isles := 0
  slots := 0
  evon := false
  evQuire := 0
  evBit := 0
  evDone := false
  key := 0
  recs := []
  sent := []
  ended := 0
  trig := 0
  everTrig := false
  children := 0
  no := 0
  cover := []
  owed := []
  ferry := false
  preempt := none
  images := []
  folded := []
  foldedT := []

def State.tset_ (s : State) (k : Nat) : TaskSet := tget TaskSet.init s.sets k
def State.setSet (s : State) (k : Nat) (t : TaskSet) : State := { s with sets := tset TaskSet.init s.sets k t }
def State.modSet (s : State) (k : Nat) (f : TaskSet → TaskSet) : State := s.setSet k (f (s.tset_ k))
/-- A TSID names a live task set. -/
def State.hasSet (s : State) (k : Nat) : Bool := s.sets.any fun e => e.1 == k

/-- The task set of a slot, or the table's default for a slot that holds no thread. -/
def State.slotSet (s : State) (k : Nat) : TaskSet :=
  match (s.slot k).tsid with
  | some t => s.tset_ t
  | none => TaskSet.init

def tileOf (q : Quire) (t : Nat) : Tile := tget Tile.init q.tiles t
def Quire.setTile (q : Quire) (t : Nat) (v : Tile) : Quire := { q with tiles := tset Tile.init q.tiles t v }

/-- The CYC counter as the word that instructions read (R17). -/
def State.cycWord (s : State) : Word := BitVec.ofNat 64 s.cyc

/-- A fresh serial number, for accesses and orders of acceptance. DESIGN CHOICE: log entry 2. -/
def State.fresh (s : State) : Nat × State := (s.serial, { s with serial := s.serial + 1 })

/-- All slots that the table lists, with what they hold. -/
def State.slotList (s : State) : List (Nat × Slot) := s.slots

/-- Apply `f` to every slot that the table lists and that satisfies `q`. -/
def State.modSlots (s : State) (q : Nat → Slot → Bool) (f : Slot → Slot) : State :=
  s.slots.foldl (fun t e => if q e.1 e.2 then t.modSlot e.1 f else t) s

/-! ### Program counter (R26, R27, R36) -/

/-- A PC is well formed: bits [5:3] zero and slot number 0 to 4 (R26). -/
def pcOk (pc : Word) : Bool := decide (pc.toNat % 64 ≤ 4)

def pcSlot (pc : Word) : Nat := pc.toNat % 8
def pcLine (pc : Word) : Nat := pc.toNat / 64 * 64

/-- The next PC in sequence (R27). -/
def nextPc (pc : Word) : Word :=
  if pcSlot pc < 4 then pc + 1 else BitVec.ofNat 64 (pcLine pc + 64)

/-- The target of a B-format transfer (R36). -/
def branchTarget (pc : Word) (disp : BitVec 40) : Word :=
  let line := BitVec.ofNat 64 (pcLine pc)
  let off : Word := (disp.extractLsb' 3 37).signExtend 64
  ((line + 64 * off) &&& ~~~(7#64)) ||| (disp.setWidth 3).setWidth 64

/-! ### WSTATE (R83) -/

def wbOf (w : Word) : Nat := (w.extractLsb' 0 4).toNat
def depthOf (w : Word) : Nat := (w.extractLsb' 4 4).toNat
def tagOf (w : Word) (o : Nat) : Nat := (w.extractLsb' (8 + 2 * o) 2).toNat

/-- A write of WSTATE: the whole write is ignored when `wb` or `depth` is out of range; bits [63:26] read 0 (R83). -/
def wstateWrite (old new : Word) : Word :=
  if 8 < wbOf new ∨ 6 < depthOf new then old else new &&& 0x3FFFFFF#64

/-- WSTATE from its fields: slide tags as a number of 18 bits. -/
def mkWstate (tags depth wb : Nat) : Word := BitVec.ofNat 64 (tags % 2 ^ 18 * 256 + depth % 16 * 16 + wb % 16)

def tagsOf (w : Word) : Nat := (w.extractLsb' 8 18).toNat

/-- The tags with octet `o`'s set to `k`. -/
def setTag (tags o k : Nat) : Nat :=
  tags - (tags / 4 ^ o % 4) * 4 ^ o + (k % 4) * 4 ^ o

/-! ### Registers: index j of R367 (0-6 x1-x7; 7 + 8 o + r windowed; 79-85 p1-p7; 86 + n v; 102 + n a) -/

/-- Register index of operand number x1 to x31 through the window (R83). -/
def xIndex (wstate : Word) (n : Nat) : Nat :=
  if n < 8 then n - 1 else 7 + 8 * ((wbOf wstate + (n - 8) / 8) % 9) + (n - 8) % 8

def Slot.xCell (t : Slot) (j : Nat) : XCell :=
  if j < 7 then t.xlo.getD j .dead else t.win.getD (j - 7) .dead

def Slot.setXCell (t : Slot) (j : Nat) (c : XCell) : Slot :=
  if j < 7 then { t with xlo := t.xlo.set j c, dirty := t.dirty ||| (1#128 <<< j) }
  else { t with win := t.win.set (j - 7) c, dirty := t.dirty ||| (1#128 <<< j) }

def Slot.pCell (t : Slot) (n : Nat) : PCell := if n = 0 then .full true else t.p.getD (n - 1) .dead
def Slot.setPCell (t : Slot) (n : Nat) (c : PCell) : Slot :=
  if n = 0 then t else { t with p := t.p.set (n - 1) c, dirty := t.dirty ||| (1#128 <<< (78 + n)) }

def Slot.vCell (t : Slot) (n : Nat) : VCell := t.v.getD n .dead
def Slot.setVCell (t : Slot) (n : Nat) (c : VCell) : Slot :=
  { t with v := t.v.set n c, vdirty := t.vdirty ||| (1#16 <<< n) }

def Core.acc (c : Core) (n : Nat) : ACell := c.accs.getD n .dead
/-- Set an accumulator's state; a DEAD one is taken as +0 from then on (R306). -/
def Core.setAcc (c : Core) (n : Nat) (a : ACell) : Core :=
  { c with accs := c.accs.set n a, accv := if a = .dead then c.accv.set n 0 else c.accv }
def Core.accVal (c : Core) (n : Nat) : BitVec 32768 := c.accv.getD n 0

/-- The state code of R41. -/
def stateCode {α τ : Type} : Cell α τ → Nat
  | .full _ => 0
  | .empty _ => 1
  | .catching _ _ => 2
  | .dead => 3

/-- The register is EMPTY or CATCH. -/
def isPending {α τ : Type} : Cell α τ → Bool
  | .empty _ => true
  | .catching _ _ => true
  | _ => false

/-- The register is EMPTY with a reply outstanding. -/
def hasReply {α τ : Type} : Cell α τ → Bool
  | .empty m => m.reply
  | _ => false

/-- An orphan: EMPTY, no reply outstanding, not fatal (R122). -/
def isOrphan {α τ : Type} : Cell α τ → Bool
  | .empty m => !m.reply && !m.fatal
  | _ => false

def isFatal {α τ : Type} : Cell α τ → Bool
  | .empty m => m.fatal
  | _ => false

/-- The marks a split-phase write leaves (R122); `cw` carries the binding of an orphan over (R125). -/
def awaiting (cw : Option Nat) : Marks := { reply := true, drop := false, fatal := false, cw := cw }

/-- The identifier bound to or held by a register. -/
def cellCw {α τ : Type} : Cell α τ → Option Nat
  | .empty m => m.cw
  | .catching c _ => some c
  | _ => none

/-- A v register is held: a recorded step of the slot names it (R131). -/
def Slot.held (t : Slot) (n : Nat) : Bool :=
  t.v.any fun
    | .catching _ steps => steps.any fun st => st.reg == n
    | _ => false

/-- The pending state of register j, whichever file it is in. -/
def State.pendingAt (s : State) (k j : Nat) : Bool :=
  let t := s.slot k
  if j < 79 then isPending (t.xCell j) else if j < 86 then isPending (t.pCell (j - 78))
  else if j < 102 then isPending (t.vCell (j - 86)) else isPending ((s.core (coreOf k)).acc (j - 102))

def State.replyAt (s : State) (k j : Nat) : Bool :=
  let t := s.slot k
  if j < 79 then hasReply (t.xCell j) else if j < 86 then hasReply (t.pCell (j - 78))
  else if j < 102 then hasReply (t.vCell (j - 86)) else hasReply ((s.core (coreOf k)).acc (j - 102))

def State.orphanAt (s : State) (k j : Nat) : Bool :=
  let t := s.slot k
  if j < 79 then isOrphan (t.xCell j) else if j < 86 then isOrphan (t.pCell (j - 78))
  else if j < 102 then isOrphan (t.vCell (j - 86)) else isOrphan ((s.core (coreOf k)).acc (j - 102))

def State.fatalAt (s : State) (k j : Nat) : Bool :=
  let t := s.slot k
  if j < 79 then isFatal (t.xCell j) else if j < 86 then isFatal (t.pCell (j - 78))
  else if j < 102 then isFatal (t.vCell (j - 86)) else isFatal ((s.core (coreOf k)).acc (j - 102))

/-! ### Catchword identifiers (R126, R127) -/

/-- Return an identifier to the core's pool. -/
def State.cwReturn (s : State) (core c : Nat) : State :=
  s.modCore core fun t => { t with cwUsed := t.cwUsed.filter (· ≠ c) }

/-- Return identifier `b`, unless registers hang on it as `c` from now on. -/
def State.cwReturnBut (s : State) (core b c : Nat) : State := if b = c then s else s.cwReturn core b

/-- The identifiers that registers of a slot are bound to or hang on. -/
def Slot.cwIds (t : Slot) : List Nat := (t.xlo ++ t.win).filterMap cellCw ++ t.v.filterMap cellCw

/-- A register after identifier `c` meets it: one that holds it as a transform becomes what `f` gives. -/
def onHolder {α τ : Type} (c : Nat) (f : τ → Cell α τ) (r : Cell α τ) : Cell α τ :=
  match r with
  | .catching c' st => if c' = c then f st else .catching c' st
  | r => r

/-- A bit for each register of a list that holds identifier `c` as a transform, the first at bit 0. -/
def holdBits {α τ : Type} (c : Nat) : List (Cell α τ) → Nat
  | [] => 0
  | .catching c' _ :: rs => (if c' = c then 1 else 0) + 2 * holdBits c rs
  | _ :: rs => 2 * holdBits c rs

/-- Every register of the slot that holds identifier `c` takes a new state, and its dirty bit is set (R133, R141, R366). -/
def Slot.updateHolders (t : Slot) (c : Nat) (fx : Word × Word → XCell) (fv : List VStep → VCell) : Slot :=
  { t with
    xlo := t.xlo.map (onHolder c fx)
    win := t.win.map (onHolder c fx)
    v := t.v.map (onHolder c fv)
    dirty := t.dirty ||| BitVec.ofNat 128 (holdBits c (t.xlo ++ t.win))
    vdirty := t.vdirty ||| BitVec.ofNat 16 (holdBits c t.v) }

/-- Make every register of the slot that holds identifier `c` (as a transform) `x` or `v` (R141, R133). -/
def Slot.dropHolders (t : Slot) (c : Nat) (x : XCell) (v : VCell) : Slot := t.updateHolders c (fun _ => x) (fun _ => v)

/-- Release a binding: the registers that hold the identifier become DEAD and it returns to the pool (R141). -/
def State.releaseCw (s : State) (k : Nat) (cw : Option Nat) : State :=
  match cw with
  | none => s
  | some c => (s.modSlot k fun t => t.dropHolders c .dead .dead).cwReturn (coreOf k) c

/-! ### Event records and journal (R233, R413, R414) -/

/-- Deliver an event record to the harbour event ring: dropped and counted when the ring is full (R413). The ring holds `ringSize`
records; the harbour's consumption is not seen by the device, so a full ring stays full. `ringNext` counts the records that have
been written to memory. -/
def State.record (s : State) (r : EvRec) : State :=
  if s.ring.length < s.ringSize then { s with ring := s.ring ++ [r] } else { s with drops := s.drops + 1 }

/-- An event record's word 0 with its kind (R413). DEDUCED: log entry 25. -/
def evKind (k : Nat) : Word := BitVec.ofNat 64 (k * 2 ^ 56)

/-- The event record of an uncorrectable error (R413, R417); its word 1 is not stated, so it is free. DEDUCED: log entry 25. -/
def State.recordBroken (s : State) (_home : Nat) : State :=
  { s with draws := s.draws + 1 }.record { w0 := evKind 18, w1 := Config.freeWord s.draws, w2 := s.cycWord, w3 := 0 }

/-- Append a journal entry; the last 4,096 are kept (R414). -/
def State.journalAdd (s : State) (kind what : Nat) (status : Word) : State :=
  let e : JEntry := { seq := s.jseq + 1, kind := kind, what := what, cyc := s.cycWord, status := status }
  let js := s.journal ++ [e]
  { s with journal := js.drop (js.length - 4096), jseq := s.jseq + 1 }

/-- The command of a launch port ends: its status in word 7 with bit 63 set, and as it is in its journal entry, the one with
sequence `seq` (R413, R414). -/
def State.portEnd (s : State) (port seq : Nat) (status : Word) : State :=
  let word : Word := 0x8000000000000000#64 ||| status
  { s with
    ports := tset 0 s.ports (8 * port + 7) word
    journal := s.journal.map fun e => if e.seq = seq then { e with status := status } else e }

/-! ### Accesses (R326) -/

def setL : BitVec 5 := 1
def setS : BitVec 5 := 2
def setR : BitVec 5 := 4
def setE : BitVec 5 := 8
def setG : BitVec 5 := 16

/-- The words that `len` bytes at an address touch, as a span (first, count). -/
def spanOf (a len : Nat) : Nat × Nat := (a / 8, (a + (len - 1)) / 8 - a / 8 + 1)

/-- Two spans share a word. -/
def spanMeets (a b : Nat × Nat) : Bool := decide (a.1 < b.1 + b.2) && decide (b.1 < a.1 + a.2)
def spansMeet (a b : List (Nat × Nat)) : Bool := a.any fun x => b.any (spanMeets x)

/-- Enter an access of a slot; answers its number. -/
def State.newAcc (s : State) (k : Nat) (sets : BitVec 5) (words : List (Nat × Nat)) (plain : Bool) : Nat × State :=
  let a : Acc := { id := s.serial, slot := k, gen := (s.slot k).gen, sets := sets, words := words, plain := plain, arrived := false }
  (s.serial, { s with serial := s.serial + 1, accs := s.accs ++ [a] })

/-- The access is performed (R326). -/
def State.perform (s : State) (id : Nat) : State := { s with accs := s.accs.filter (·.id ≠ id) }

/-- The access has reached its bank and is moored there (R327: it holds nothing back any more but plain accesses). -/
def State.accArrived (s : State) (id : Nat) : State :=
  { s with accs := s.accs.map fun a => if a.id = id then { a with arrived := true } else a }

def State.accWords (s : State) (id : Nat) (ws : List (Nat × Nat)) : State :=
  { s with accs := s.accs.map fun a => if a.id = id then { a with words := ws } else a }

/-- Access `id` of slot `k` to `words` may act at its home: no earlier access of the slot to one of those words is
still before it (R160, R187, R276, R327). DEDUCED: log entry 19. -/
def State.mayArrive (s : State) (id k : Nat) (words : List (Nat × Nat)) (plain : Bool) : Bool :=
  let same := fun (g : BitVec 8) => (s.accs.find? fun a => a.id == id).all fun m => decide (m.gen = g)
  !s.accs.any fun a => a.slot == k && same a.gen && decide (a.id < id) && spansMeet a.words words
    && (a.plain || plain || !a.arrived)

/-- The accesses of a slot in the given sets. -/
def State.accsIn (s : State) (k : Nat) (sets : BitVec 5) : List Nat :=
  (s.accs.filter fun a => a.slot == k && decide (a.gen = (s.slot k).gen) && decide (a.sets &&& sets ≠ 0)).map (·.id)

/-- Some access of the list is not yet performed. -/
def State.anyOutstanding (s : State) (ids : List Nat) : Bool := s.accs.any fun a => ids.contains a.id

/-- The slot has a fence record that is still pending (R335). -/
def State.fencesPending (s : State) (k : Nat) : Bool := (s.slot k).fences.any fun f => s.anyOutstanding f.ids

/-- A pending fence record of the slot holds accesses of the given sets (R336). DEDUCED: log entry 18. -/
def State.fenceHolds (s : State) (k : Nat) (sets : BitVec 5) : Bool :=
  (s.slot k).fences.any fun f => s.anyOutstanding f.ids && decide (f.later &&& sets ≠ 0)

/-! ### REDCNT (R184, R185) -/

def State.redUp (s : State) (k : Nat) : State := s.modSlot k fun t => { t with redcnt := t.redcnt + 1 }
/-- Lower the counter of the slot that `gen` still names (R397). -/
def State.redDown (s : State) (k : Nat) (gen : BitVec 8) : State :=
  if s.lives k gen then s.modSlot k fun t => { t with redcnt := t.redcnt - 1 } else s

/-- An asynchronous trap is posted for the slot (R380): the first value of a cause is kept. -/
def State.post (s : State) (k : Nat) (gen : BitVec 8) (cause : Nat) (value : Word) : State :=
  if s.lives k gen then
    s.modSlot k fun t => if t.pend.any (·.1 == cause) then t else { t with pend := t.pend ++ [(cause, value)] }
  else s

/-! ### Scratchpad guards (R243, R248, R249) -/

/-- The bank of a scratchpad offset under a key (R243). -/
def bankOf (key : BitVec 60) (o : Nat) : Nat :=
  let x := bitsNat 20 9 o
  ((List.range 5).map fun b =>
    let kb := (key.extractLsb' (12 * b) 12).toNat
    (if (Nat.testBit o (4 + b)) ^^ parityNat 12 (x &&& kb) then 2 ^ b else 0)).sum

/-- Why a thread reference to a scratchpad byte is refused: `some true` for an ENGINE tile, `some false` for a guard
granule or a free tile (R248). -/
def Quire.refuses (q : Quire) (off : Nat) : Option Bool :=
  let t := tileOf q (off / 4096)
  if t.alloc = false ∨ t.zeroing then some false
  else if t.gd.getLsbD (off / 256 % 16) then some false
  else if t.engine then some true else none

/-- The first refused byte of `len` bytes at a home address, if any. -/
def State.spRefused (s : State) (home len : Nat) : Option (Nat × Bool) :=
  if isSp home then
    ((List.range len).filterMap fun i =>
      ((s.quire (spQuire home)).refuses (spOff home + i)).map fun e => (spOff home, e)).head?
  else none

/-- Layout of a guard event as GREC holds it with count 1 (R249). -/
def grecEvent (write own : Bool) (bank off : Nat) : Word :=
  BitVec.ofNat 64 (2 ^ 32 + (if write then 2 ^ 27 else 0) + (if own then 2 ^ 26 else 0) + bank % 32 * 2 ^ 21 + off % 2 ^ 21)

def grecCount (g : Word) : Nat := (g.extractLsb' 32 16).toNat

/-- GREC after a guard event: the fields are written only when the count is 0; the count saturates (R249). -/
def grecAdd (g ev : Word) : Word :=
  if grecCount g = 0 then ev
  else if grecCount g = 65535 then g else g + BitVec.ofNat 64 (2 ^ 32)

/-- Charge a guard event to a slot (R248). DEDUCED: log entry 21. -/
def State.guardEvent (s : State) (k : Nat) (gen : BitVec 8) (home : Nat) (write own : Bool) (off : Nat) : State :=
  let ev := grecEvent write own (bankOf (tileOf (s.quire (spQuire home)) (off / 4096)).key off) off
  if s.lives k gen then s.modSlot k fun t => { t with grec := grecAdd t.grec ev } else s

/-! ### Writes at a home (R157, R194) -/

/-- A write to a word ends the harbour reservations on it (R194). -/
def State.unreserve (s : State) (home len : Nat) : State :=
  { s with resv := s.resv.filter fun e => !spanMeets (spanOf home len) (e.2.word / 8, 1) }

/-- A write to a scratchpad byte or its presence bits makes the tile dirty (R366). -/
def State.markTile (s : State) (home : Nat) : State :=
  if isSp home then
    s.modQuire (spQuire home) fun q => if (tileOf q (spOff home / 4096)).alloc then
      q.setTile (spOff home / 4096) { tileOf q (spOff home / 4096) with dirty := true } else q
  else s

/-- Set the presence bit of the word at a home. -/
def State.setF (s : State) (home : Nat) (b : Bool) : State :=
  { s with fulls := tset false s.fulls (home / 8) b }.markTile home

/-- Bytes are written at a home. -/
def State.homeStore (s : State) (home : Nat) (bytes : List Byte) : State :=
  ((s.writeBytes home bytes).unreserve home bytes.length).markTile home

/-- A word is written at its home. -/
def State.homeWord (s : State) (home : Nat) (v : Word) : State := s.homeStore home (bytesOf 8 v.toNat)

/-! ### Mooring lists (R158 to R166) -/

/-- A moored reference may proceed on a word with presence bit `f` (R159). -/
def moorCan (k : MoorKind) (f : Bool) : Bool :=
  match k with
  | .stef => !f
  | _ => f

def State.reply (s : State) (k : Nat) (gen : BitVec 8) (dst : RetDst) (v : Word) : State :=
  { s with replies := s.replies ++ [{ slot := k, gen := gen, dst := dst, value := v, vec := none, fatal := false, acc := none }] }

def State.replyFatal (s : State) (k : Nat) (gen : BitVec 8) (dst : RetDst) : State :=
  { s with replies := s.replies ++ [{ slot := k, gen := gen, dst := dst, value := 0, vec := none, fatal := true, acc := none }] }

/-- A leaf-table entry, found by its number in any quire, is changed. -/
def State.modLeaf (s : State) (no : Nat) (f : Leaf → Leaf) : State :=
  s.quires.foldl (fun t e =>
    if e.2.leaves.any (·.no == no) then
      t.modQuire e.1 fun q => { q with leaves := q.leaves.map fun l => if l.no = no then f l else l }
    else t) s

/-- A moored PARK leaf becomes WAITING, perhaps marked with a trap (R356). -/
def State.leafWaiting (s : State) (no : Nat) (mark : Option (Nat × Word)) : State :=
  s.modLeaf no fun l => { l with st := .waiting, mark := mark }

/-- A moored reference meets an uncorrectable word (R417). -/
def State.brokenMoor (s : State) (m : Moor) : State :=
  let s := s.recordBroken m.home
  if m.kind = .park then s.leafWaiting m.data.toNat (some (15, m.va)) else s.replyFatal m.slot m.gen (.reg m.reg)

/-- Apply a moored reference to its word and send its reply (R158). -/
def State.applyMoor (s : State) (m : Moor) : State :=
  let s := s.perform m.acc
  if s.isBroken m.home 8 then s.brokenMoor m
  else match m.kind with
  | .ldf => s.reply m.slot m.gen (.reg m.reg) (s.readWord m.home)
  | .ldfe => (s.setF m.home false).reply m.slot m.gen (.reg m.reg) (s.readWord m.home)
  | .stef => ((s.homeWord m.home m.data).setF m.home true).reply m.slot m.gen (.reg m.reg) 0
  | .park => s.leafWaiting m.data.toNat none

/-- Serve the word's list while its head can proceed, in arrival order (R159). -/
def State.serveN : Nat → State → Nat → State
  | 0, s, _ => s
  | n + 1, s, home =>
    match s.moors.find? (fun m => m.home / 8 == home / 8) with
    | none => s
    | some m =>
      if moorCan m.kind (s.fBit home) then
        State.serveN n ({ s with moors := removeFirst (fun m => m.home / 8 == home / 8) s.moors }.applyMoor m) home
      else s

/-- Kind code of R163. -/
def moorCode : MoorKind → Nat
  | .ldf => 0
  | .ldfe => 1
  | .stef => 2
  | .park => 3

/-- The word a mooring entry keeps: STEF data or the address of a PARK leaf (R163). -/
def State.moorData (s : State) (m : Moor) : Word :=
  match m.kind with
  | .stef => m.data
  | .park => ((s.quires.flatMap fun e => e.2.leaves).find? fun l => l.no == m.data.toNat).elim 0 (·.leaf)
  | _ => 0

/-- The 32-byte record of an entry that lies in the overflow area; `next` is the area index behind it in its list (R163). -/
def State.areaRecord (s : State) (m : Moor) (next : Option Nat) : List Word :=
  let w0 := moorCode m.kind * 2 ^ 61 + (if next.isNone then 2 ^ 60 else 0) + m.home % 2 ^ 48 / 8 * 8
  let reg := if m.kind = .park then 0 else m.num % 64
  let w3 := next.getD 0 % 2 ^ 20 * 2 ^ 44 + coreOf m.slot % 1024 * 2 ^ 34 + reg * 2 ^ 28
    + (isleOf (coreOf m.slot) * 2 ^ 24 + quireOf (coreOf m.slot) % 12 * 2 ^ 20 + coreOf m.slot % 4 * 2 ^ 18
      + slotNo m.slot * 2 ^ 10 + m.gen.toNat * 4)
  [BitVec.ofNat 64 w0, s.moorData m, BitVec.ofNat 64 m.deadline, BitVec.ofNat 64 w3]

/-- A word is written to DRAM by a unit of the package: harbour reservations on it end (R194); one that holds an uncorrectable
error keeps its bits (R417). -/
def State.engineWord (s : State) (pa : Nat) (w : Word) : State :=
  if s.isBroken pa 8 then s.recordBroken pa else (s.writeWord pa w).unreserve pa 8

/-- A record is written to DRAM by a unit of the package. -/
def State.writeRecord (s : State) (pa : Nat) : List Word → State
  | [] => s
  | w :: ws => (s.engineWord pa w).writeRecord (pa + 8) ws

/-- Write the records of the area entries of an isle that are not what the area holds, given the entries in arrival order; a
physical address has 48 bits (R21). DESIGN CHOICE: log entry 66. -/
def State.writeArea (s : State) (isle : Nat) : List Moor → State
  | [] => s
  | m :: ms =>
    match m.area with
    | some i =>
      if m.isle = isle then
        let ws := s.areaRecord m ((ms.find? fun n => n.home / 8 == m.home / 8).bind (·.area))
        let pa := ((s.isle isle).moorbase.toNat + 32 * i) % 2 ^ 48
        (if s.readWords pa 4 = ws then s else s.writeRecord pa ws).writeArea isle ms
      else s.writeArea isle ms
    | none => s.writeArea isle ms

/-- The oldest area entries of an isle return to the table while it has `n` free entries (R163). -/
def reseat (isle : Nat) : Nat → List Moor → List Moor
  | _, [] => []
  | 0, ms => ms
  | n + 1, m :: ms =>
    if m.isle = isle ∧ m.area.isSome then { m with area := none } :: reseat isle n ms else m :: reseat isle (n + 1) ms

/-- Entries that an isle's mooring table holds (R161). -/
def moorCap : Nat := 32768
def State.tableUsed (s : State) (isle : Nat) : Nat := (s.moors.filter fun m => m.isle == isle && m.area.isNone).length

/-- The table and the area of an isle after a change of its lists. -/
def State.settleIsle (s : State) (isle : Nat) : State :=
  let s := { s with moors := reseat isle (moorCap - s.tableUsed isle) s.moors }
  s.writeArea isle s.moors

def State.settleMoors (s : State) : State :=
  if s.moors.any (·.area.isSome) then (List.range 16).foldl (fun s i => s.settleIsle i) s else s

def State.serve (s : State) (home : Nat) : State := (s.serveN s.moors.length home).settleMoors

/-- Set F of a word as an STF step does: data is written first by the caller (R158, R255). -/
def State.fillStep (s : State) (home : Nat) : State := (s.setF home true).serve home

/-- WREC after an event (R167): `va` and `kind` only when the count is 0; the count saturates at 255. -/
def wrecAdd (w va : Word) (kind : Nat) : Word :=
  let c := (w.extractLsb' 56 8).toNat
  if c = 0 then BitVec.ofNat 64 (2 ^ 56) ||| (va &&& 0x00FFFFFFFFFFFFF8#64) ||| BitVec.ofNat 64 (kind % 8)
  else if c = 255 then w else w + BitVec.ofNat 64 (2 ^ 56)

/-- A register becomes an orphan, or DEAD when its `drop` is set, with its binding released then (R122, R164, R166).
DEDUCED: log entry 17. -/
def State.makeOrphan (s : State) (k j : Nat) : State :=
  let t := s.slot k
  if j < 79 then
    match t.xCell j with
    | .empty m =>
      if m.drop then (s.modSlot k fun t => t.setXCell j .dead).releaseCw k m.cw
      else s.modSlot k fun t => t.setXCell j (.empty { m with reply := false })
    | _ => s
  else if j < 86 then
    match t.pCell (j - 78) with
    | .empty m =>
      if m.drop then s.modSlot k fun t => t.setPCell (j - 78) .dead
      else s.modSlot k fun t => t.setPCell (j - 78) (.empty { m with reply := false })
    | _ => s
  else s

/-- Octet and position bits of a trap value for a windowed register outside the window, as (register bits, out, octet):
`out` when the register is windowed and not in the current window (R147, R167). -/
def regReport (wstate : Word) (j : Nat) : Nat × Bool × Nat :=
  if j < 7 then (j + 1, false, 0)
  else if j < 79 then
    let o := (j - 7) / 8
    let r := (j - 7) % 8
    let d := (o + 9 - wbOf wstate) % 9
    if d < 3 then (8 + 8 * d + r, false, 0) else (r, true, o)
  else if j < 86 then (j - 78, false, 0)
  else (j - 54, false, 0)

/-- The value of R167: register, kind, overflow, out and octet. -/
def waitTrapValue (wstate : Word) (j kind : Nat) (overflow : Bool) : Word :=
  let (n, out, o) := regReport wstate j
  BitVec.ofNat 64 (n % 64 + kind % 8 * 64 + (if overflow then 512 else 0) + (if out then 1024 + o * 2048 else 0))

/-- The slot is CLOSING for EXIT, FOLD or PARK (R73, R91): its wait ends under R136. -/
def isClosing : SlotSt → Bool
  | .closing .preempt => false
  | .closing _ => true
  | _ => false

/-- The identifier bound to EMPTY register j. -/
def State.boundAt (s : State) (k j : Nat) : Option Nat :=
  let t := s.slot k
  if j < 79 then cellCw (t.xCell j) else if j < 86 then none else cellCw (t.vCell (j - 86))

/-- The cause of the trap that ends a wait on register j itself: 15 for a fatal one, 16 for an orphan (R136). -/
def State.blameAt (s : State) (k j : Nat) : Option (Nat × Nat) :=
  if s.fatalAt k j then some (15, j) else if s.orphanAt k j then some (16, j) else none

/-- The orphan or fatal register that a wait on register j depends on, with the trap's cause: j itself, or the one that its
identifier is bound to (R136). An identifier that is bound to no register any more, because its orphan was composed over itself,
makes j the orphan. DESIGN CHOICE: log entry 65. -/
def State.blame (s : State) (k j : Nat) : Option (Nat × Nat) :=
  (s.blameAt k j).or (match s.boundAt k j with
    | none => none
    | some c =>
      let on := (List.range 102).filter fun i => s.boundAt k i == some c
      (on.findSome? (s.blameAt k)).or (if on.any (s.replyAt k) then none else some (16, j)))

/-- The registers that a mark waits on. -/
def Wait.regList : Wait → List Nat
  | .reg j => [j]
  | .regs js => js
  | .pairRegs js => js
  | _ => []

/-- The slot's own wait ends on register j, now an orphan: it waits on the register or on one whose value hangs on it, or it
is CLOSING (R136). -/
def State.waitsOn (s : State) (k j : Nat) : Bool :=
  s.orphanAt k j && (isClosing (s.slot k).st
    || (s.slot k).wait.regList.any fun i => i == j || ((s.boundAt k i).isSome && s.boundAt k i == s.boundAt k j))

/-- The trap of R167 is posted: one covers every event that is pending, and reports the first. -/
def State.postLost (s : State) (k : Nat) (gen : BitVec 8) (cause j kind : Nat) : State :=
  if s.lives k gen && !(s.slot k).pend.any (fun p => p.1 == 16 || p.1 == 17) then
    s.modSlot k fun t => { t with pend := t.pend ++ [(cause, 0)], lost := some (j, kind) }
  else s

/-- A reference was removed by its deadline or found no mooring entry (R164, R166): its register is orphaned and its
slot gets the trap, or its leaf is made ready with the mark. A slot that waits on the register, or is CLOSING, takes the
trap of R136 at its instruction in place of the posted one; a register that went DEAD ends no wait, and the trap is posted.
DEDUCED: log entry 17. -/
def State.moorLost (s : State) (kind : MoorKind) (k : Nat) (gen : BitVec 8) (j acc : Nat) (va data : Word)
    (overflow : Bool) : State :=
  let s := s.perform acc
  let cause := if overflow then 17 else 16
  match kind with
  | .park => s.leafWaiting data.toNat (some (cause, BitVec.ofNat 64 (3 * 64 + if overflow then 512 else 0)))
  | kd =>
    if s.lives k gen then
      let s := s.makeOrphan k j
      let s := s.modSlot k fun t => { t with wrec := wrecAdd t.wrec va (moorCode kd) }
      if s.waitsOn k j then s else s.postLost k gen cause j (moorCode kd)
    else s

/-! ### Slots passing between states (R72, R73, R91) -/

/-- A slot passes from FREE to ACTIVE: its generation advances and the per-slot registers start as their chapters
state; everything else of the old thread is gone. Every register is written, DEAD at least (R353, R357, R366).
DESIGN CHOICE: log entry 68. -/
def Slot.start (t : Slot) : Slot :=
  { Slot.init with gen := t.gen + 1, st := .active, lastSel := t.lastSel, dirty := BitVec.ofNat 128 (2 ^ 86 - 1), vdirty := 0xFFFF#16 }

/-- Target slot number of a mesh word's target field (R93). -/
def targetSlot (t : BitVec 28) : Nat := (t.extractLsb' 10 8).toNat
def targetGen (t : BitVec 28) : BitVec 8 := t.extractLsb' 2 8
/-- Package core index named by a target field, when its quire exists (R15, R93). -/
def targetCore (t : BitVec 28) : Option Nat :=
  let q := (t.extractLsb' 20 4).toNat
  if q < 12 then some (48 * (t.extractLsb' 24 4).toNat + 4 * q + (t.extractLsb' 18 2).toNat) else none

/-- The slot's own name and generation in the layout of R93. -/
def ownName (slot : Nat) (gen : BitVec 8) : BitVec 28 :=
  BitVec.ofNat 28 (isleOf (coreOf slot) * 2 ^ 24 + quireOf (coreOf slot) % 12 * 2 ^ 20 + coreOf slot % 4 * 2 ^ 18
    + slotNo slot * 2 ^ 10 + gen.toNat * 4)

/-! ### The inbox and the ferry queue (R95 to R101) -/

/-- ACTIVE or RESTING (R97). -/
def accepts : SlotSt → Bool
  | .active => true
  | .resting _ _ => true
  | _ => false

/-- Words in the inbox and the ferry queue together (R99). -/
def Core.inboxUsed (c : Core) : Nat := c.inbox.length + c.ferry.length

/-- Words of a slot in the inbox. -/
def Core.wordsOf (c : Core) (slot : Nat) : Nat := (c.inbox.filter fun w => targetSlot w.target == slot).length

/-- The slot that holds the most inbox words, the lower number on a tie (R99). -/
def Core.fullest (c : Core) : Option Nat :=
  (List.range 256).foldl (fun best k =>
    if c.wordsOf k = 0 then best
    else match best with
      | some b => if c.wordsOf b < c.wordsOf k then some k else best
      | none => some k) none

/-- The words of slot `k` move to the ferry queue, as its later ones will (R99). -/
def Core.divert (c : Core) (k : Nat) : Core :=
  let mine := fun (w : MeshWord) => targetSlot w.target == k
  { c with
    inbox := c.inbox.filter fun w => !mine w
    ferry := c.ferry ++ (c.inbox.filter mine).map fun w => { w with reason := 0 }
    diverted := if c.diverted.contains k then c.diverted else k :: c.diverted }

/-- A word has entered core `old`: when it makes 512 in the inbox and the ferry queue together, whichever it entered, the
fullest slot is diverted (R99). -/
def Core.divertFull (old c : Core) : Core :=
  if old.inboxUsed < 512 ∧ 512 ≤ c.inboxUsed then c.fullest.elim c c.divert else c

/-- Place a word for an accepting slot of a core: slot 0's words stand in the ferry queue (R100). DESIGN CHOICE: log entry 22. -/
def Core.placeWord (c : Core) (w : MeshWord) : Core :=
  if targetSlot w.target = 0 then { c with ferry := c.ferry ++ [{ w with reason := 0 }] }
  else { c with inbox := c.inbox ++ [w] }

/-- A word for an accepting slot enters the core. -/
def Core.enterWord (c : Core) (w : MeshWord) : Core := c.divertFull (c.placeWord w)

/-- A mesh word enters the ferry queue. -/
def Core.enterFerry (c : Core) (w : MeshWord) (reason : Nat) : Core :=
  c.divertFull { c with ferry := c.ferry ++ [{ w with reason := reason }] }

/-- A mesh word that no slot can take: counted, and entered in the ferry queue when `stray_deliver` is set and slot 0
is occupied, beyond 512 words too (R74, R98). DESIGN CHOICE: log entry 64. -/
def State.stray (s : State) (core : Nat) (w : MeshWord) (reason : Nat) : State :=
  let ferryUp := decide ((s.slot (256 * core)).st ≠ .free)
  s.modCore core fun c =>
    let c := { c with strays := Nat.min (c.strays + 1) (2 ^ 32 - 1) }
    if c.strayDeliver && ferryUp then c.enterFerry w reason else c

/-- The slot passes to FREE: its identifiers return, its lease is released, and words still in its inbox become strays
of reason 2 (R92, R127, R264). DEDUCED: log entry 13. DESIGN CHOICE: log entry 68. -/
def State.freeSlot (s : State) (k : Nat) : State :=
  let t := s.slot k
  let c := coreOf k
  let others := (s.slots.filter fun e => coreOf e.1 == coreOf k && e.1 != k).flatMap (·.2.cwIds)
  let s := s.modCore c fun c => { c with
    cwUsed := c.cwUsed.filter others.contains
    leases := match t.lease with
      | some l => c.leases.filter (· ≠ l)
      | none => c.leases
    leaseWait := c.leaseWait.filter (· ≠ k) }
  let mine := fun (w : MeshWord) => targetSlot w.target == slotNo k && slotNo k != 0
  let lost := (s.core c).inbox.filter mine
  let s := s.modCore c fun c => { c with inbox := c.inbox.filter fun w => !mine w }
  let s := s.setSlot k { Slot.init with gen := t.gen, lastSel := t.lastSel }
  lost.foldl (fun s w => s.stray c w 2) s

/-! ### Ending a task set (R377, R396) -/

/-- The set's ancestors, nearest first, to depth 24 (R346). -/
def State.ancestors (s : State) : Nat → Nat → List Nat
  | 0, _ => []
  | n + 1, t =>
    match (s.tset_ t).parent with
    | some p => p :: s.ancestors n p
    | none => []

/-- The set and its descendants. -/
def State.family (s : State) (t : Nat) : List Nat :=
  t :: ((s.sets.filter fun e => (s.ancestors 24 e.1).contains t).map (·.1))

/-- Slots that hold a thread of one of the sets. -/
def State.slotsOf (s : State) (ts : List Nat) : List Nat :=
  (s.slots.filter fun e => match e.2.tsid with
    | some t => ts.contains t
    | none => false).map (·.1)

/-- Free the tiles of an allocation whose first tile is `t`; their words are zeroed when TILE_ZEROING_END comes (R247). -/
def Quire.freeAlloc (q : Quire) (t : Nat) : Quire :=
  (q.tiles.filter fun e => e.2.alloc && e.2.first == t).foldl
    (fun q e => q.setTile e.1 { Tile.init with zeroing := true }) q

/-- The set number of a tile whose task set has ended. -/
def noSet : Nat := 2 ^ 16

/-- A tile of the allocation is ENGINE or in a copy. -/
def Quire.busyAlloc (q : Quire) (f : Nat) : Bool :=
  q.tiles.any fun e => e.2.alloc && e.2.first == f && (e.2.engine || e.2.inq)

/-- First tiles of the allocations of the given sets. -/
def Quire.allocsOf (q : Quire) (ts : List Nat) : List Nat :=
  (q.tiles.filter fun e => e.2.alloc && e.2.first == e.1 && ts.contains e.2.tsid).map (·.1)

/-- Free the allocations of ended sets that have no busy tile (R247). -/
def Quire.reap (q : Quire) : Quire :=
  ((q.allocsOf [noSet]).filter fun f => !q.busyAlloc f).foldl (fun q f => q.freeAlloc f) q

/-- The sets end: their allocations are freed, those with a busy tile once it is handed back (R247). -/
def Quire.dropAllocs (q : Quire) (ts : List Nat) : Quire :=
  let drop := fun (t : Tile) => if t.alloc && ts.contains t.tsid then { t with tsid := noSet } else t
  Quire.reap { q with tiles := q.tiles.map fun e => (e.1, drop e.2) }

/-- The slots of a quire that wait at TWAIT look at the state of their tiles (R257): the status that each finds. -/
def State.wakeTiles (s : State) (quire : Nat) : State :=
  s.modSlots (fun k _ => quireOf (coreOf k) == quire) fun u => match u.stall with
    | .twait n ph dl pr none =>
      let t := tileOf (s.quire quire) n
      if !t.alloc then { u with stall := .twait n ph dl pr (some 3) }
      else if !t.engine && t.phase == ph then { u with stall := .twait n ph dl pr (some (if t.err then 2 else 0)) }
      else u
    | _ => u

/-- The allocations of ended sets go in every quire, and who waits on their tiles finds out (R247, R257). -/
def State.dropAllocs (s : State) (ts : List Nat) : State :=
  s.quires.foldl (fun s e => (s.modQuire e.1 fun q => q.dropAllocs ts).wakeTiles e.1) s

/-- Release a set's pool records (R347). -/
def State.releaseRecs (s : State) (t : TaskSet) : State :=
  t.recs.foldl (fun s r => s.modIsle r.1 fun i => { i with pool := i.pool.filter (· ≠ r.2) }) s

/-! ### Matrix commands of a core (R299, R305 to R308) -/

/-- The matrix commands that write an accumulator: MXZ, MXA, MXLD and MXDOT (R307). -/
def writesAcc (op : BitVec 10) : Bool :=
  decide (op = 0x165) || decide (op = 0x166) || decide (op = 0x168) || decide (op = 0x169)

/-- The accumulator a matrix command names (R299). -/
def MxCmd.accNo (m : MxCmd) : Nat := if m.opcode = 0x169 then m.low.toNat / 2 ^ 32 % 8 else m.low.toNat / 2 ^ 22 % 8

/-- The matrix commands that a core has accepted and not completed (R306). -/
def Core.mxAll (c : Core) : List MxCmd :=
  c.mxq ++ c.ldq ++ (c.array.map (·.cmd)).toList ++ (c.loader.map (·.cmd)).toList

/-- An accumulator with no pending writer is FULL, or DEAD when `drop` was set or nothing has been written to it (R305, R317). -/
def Core.settleAcc (c : Core) (n : Nat) : Core :=
  if c.mxAll.any fun m => writesAcc m.opcode && m.accNo == n then c
  else match c.acc n with
    | .empty m => { c.setAcc n (if m.drop || c.accDead.contains n then .dead else .full ()) with
        accDead := c.accDead.filter (· ≠ n) }
    | _ => c

def Core.setWs (c : Core) (n : Nat) (w : WSlot) : Core := { c with ws := tset WSlot.init c.ws n w }
def Core.wslot (c : Core) (n : Nat) : WSlot := tget WSlot.init c.ws n

/-- The weight slot a command names. -/
def MxCmd.slotNo (m : MxCmd) : Nat := m.low.toNat / 2 ^ 16 % 64

/-- Queued commands that satisfy `q` are discarded, and one that is held on a fault (R396): an accumulator is as before the
command, a weight slot being loaded is FAULTED. -/
def Core.dropMx (c : Core) (q : MxCmd → Bool) : Core :=
  let inA := c.arrayHeld && c.array.any fun r => q r.cmd
  let inL := c.loaderHeld && c.loader.any fun r => q r.cmd
  let c := match (if inL then c.loader else none) with
    | some r => c.setWs r.cmd.slotNo { c.wslot r.cmd.slotNo with st := .faulted }
    | none => c
  let c := { c with
    mxq := c.mxq.filter fun m => !q m
    ldq := c.ldq.filter fun m => !q m
    array := if inA then none else c.array
    loader := if inL then none else c.loader
    arrayHeld := c.arrayHeld && !inA
    loaderHeld := c.loaderHeld && !inL }
  (List.range 8).foldl (fun c n => c.settleAcc n) c

/-- An engine command that is parked still exists. -/
def State.parkedLives (s : State) : Parked → Bool
  | .copy q no => (s.quire q).running.any fun c => c.no == no
  | .mx core loader => if loader then (s.core core).loaderHeld else (s.core core).arrayHeld
  | _ => true

/-- Keep the items of every parking list that satisfy `q`. -/
def State.keepParked (s : State) (q : Parked → Bool) : State :=
  s.isles.foldl (fun t e => t.modIsle e.1 fun i => { i with faults := i.faults.map fun f =>
    (f.1, { f.2 with parked := f.2.parked.filter fun p => q p.what }) }) s

/-- What is parked belongs to a thread, a leaf or a fetch of the given sets. -/
def State.parkedOf (s : State) (ts : List Nat) : Parked → Bool
  | .ref r => ts.contains r.tsid
  | .fetch f => s.lives f.slot f.gen && (s.slot f.slot).tsid.any ts.contains
  | _ => false

/-- The slot's thread, named with its generation, is one of the given slots' (R397). -/
def State.among (s : State) (ks : List Nat) (k : Nat) (gen : BitVec 8) : Bool := ks.contains k && s.lives k gen

/-- A moored reference belongs to the present thread of one of the slots, or is a PARK of one of the leaves. -/
def State.moorOf (s : State) (ks leafNos : List Nat) (m : Moor) : Bool :=
  if m.kind = .park then leafNos.contains m.data.toNat else s.among ks m.slot m.gen

/-- A reference of an ended set goes with it: a record of a LAUNCH or MXSEND, which would act on what the set no longer
has, and one that awaits a fault entry. Every other one was issued and completes (R365, R396). DEDUCED: log entry 25. -/
def Ref.dropped (r : Ref) : Bool :=
  match r.op with
  | .record .launch _ => true
  | .record (.mxsend _) _ => true
  | .park _ => true
  | _ => decide (2 ^ 60 ≤ r.home)

/-- An access is still made by a reference or a buffered store. -/
def State.accUsed (s : State) (id : Nat) : Bool :=
  s.refs.any (·.id == id) || s.cores.any fun c => c.2.sb.any (·.id == id)

/-- Terminate a set with its descendants, in the order of R396; `status` is the end status of the named set.
DEDUCED: log entry 25. -/
def State.endSet (s : State) (tsid : Nat) (status : Word) : State :=
  let fam := s.family tsid
  let ks := s.slotsOf fam
  let mineC := fun (q : Quire) (c : Copy) => fam.contains (tileOf q c.tile).tsid
  let mine := s.among ks
  let mineM := fun (m : MxCmd) => match m.src with
    | .own k g => mine k g
    | .sent k g _ => mine k g
  -- withdrawn moorings and PARKs; the lists behind them are served
  let leafNos := s.quires.flatMap fun e => (e.2.leaves.filter fun l => fam.contains l.tsid).map (·.no)
  let gone := s.moors.filter (s.moorOf ks leafNos)
  let ours := s.moorOf ks leafNos
  let s : State := { s with moors := s.moors.filter fun m => !ours m }
  let s := gone.foldl (fun s m => (s.perform m.acc).serve m.home) s
  let s : State := { s with bars := (s.bars.map fun b => { b with arrived := b.arrived.filter fun k => !ks.contains k }).filter fun b => !b.arrived.isEmpty }
  -- references, fetches, replies
  let s : State := { s with
    refs := s.refs.filter fun r => !(fam.contains r.tsid && r.dropped)
    codeFills := s.codeFills.filter fun f => !mine f.slot f.gen
    walks := s.walks.filter fun w => !mine w.slot w.gen
    mxMsgs := s.mxMsgs.filter fun m => !mine m.slot m.gen }
  -- leaves, queued copies and matrix commands, and those held on a fault
  let s := s.quires.foldl (fun s e => s.modQuire e.1 fun q =>
    let gone := q.copyq.filter (mineC q) ++ q.running.filter fun c => c.held && mineC q c
    let r := gone.foldl (fun q c => (List.range c.tiles).foldl (fun q i =>
      q.setTile (c.tile + i) { tileOf q (c.tile + i) with engine := false, inq := false }) q) q
    { r with
      leaves := q.leaves.filter fun l => !fam.contains l.tsid
      copyq := q.copyq.filter fun c => !mineC q c
      running := q.running.filter fun c => !(c.held && mineC q c) }) s
  let s := s.cores.foldl (fun s e => s.modCore e.1 fun c =>
    { c.dropMx mineM with div := c.div.filter fun d => !mine d.slot d.gen }) s
  let s := s.keepParked fun p => !s.parkedOf fam p && s.parkedLives p
  let used := s.accUsed
  let s : State := { s with accs := s.accs.filter fun a => !mine a.slot a.gen || used a.id }
  let s := ks.foldl (fun s k => s.freeSlot k) s
  let s := s.dropAllocs fam
  let s := fam.foldl (fun s t => s.releaseRecs (s.tset_ t)) s
  -- the parent keeps one live child less
  let s := match (s.tset_ tsid).parent with
    | some p => if s.hasSet p then s.modSet p fun t => { t with children := t.children - 1 } else s
    | none => s
  -- a pre-emption under way finds its set being terminated (R364)
  let s := fam.foldl (fun s t => match (s.tset_ t).preempt with
    | some p => s.portEnd p.port p.seq 4
    | none => s) s
  let s := fam.foldl (fun s t => s.record { w0 := evKind 16, w1 := BitVec.ofNat 64 t, w2 := s.cycWord, w3 := status }) s
  fam.foldl (fun s t => s.setSet t TaskSet.init) s

/-! ### Traps (R377 to R380) -/

/-- ESTAT `inh`: a handler is running (R376). -/
def Slot.inh (t : Slot) : Bool := t.estat.getLsbD 0

/-- Take a trap in slot `k` (R377). -/
def State.takeTrap (s : State) (k : Nat) (async : Bool) (cause : Nat) (value resume : Word) : State :=
  let t := s.slot k
  let vec := (s.slotSet k).tsvec
  let tsid := t.tsid.getD 0
  if t.inh then s.endSet tsid (BitVec.ofNat 64 (2 * 2 ^ 32 + cause))
  else if vec = 0 then s.endSet tsid (BitVec.ofNat 64 (2 ^ 32 + cause))
  else if !pcOk vec then s.endSet tsid (BitVec.ofNat 64 (2 * 2 ^ 32 + 2))
  else s.modSlot k fun t => { t with
    epc := resume
    ecause := BitVec.ofNat 64 ((if async then 32 else 0) + cause)
    eval := value
    estat := 1
    pc := vec
    handlerDue := true
    entryDue := false
    leaseDue := false
    wait := .none
    stall := .none }

/-- Return from a trap (R378): `inh` clears and the PC becomes EPC, with no entry check. -/
def State.returnTrap (s : State) (k : Nat) : State :=
  s.modSlot k fun t => { t with estat := 0, pc := t.epc, handlerDue := false, wait := .none }

/-- The pending asynchronous trap that is taken first: the lowest cause (R380). -/
def lowestPend : List (Nat × Word) → Option (Nat × Word)
  | [] => none
  | p :: ps =>
    match lowestPend ps with
    | some q => if q.1 < p.1 then some q else some p
    | none => some p

/-- The value of a pending trap, as it is taken: that of R167 looks at the window of the trap. -/
def Slot.pendValue (t : Slot) (cause : Nat) (value : Word) : Word :=
  match (if cause = 16 ∨ cause = 17 then t.lost else none) with
  | some (j, kind) => waitTrapValue t.wstate j kind (cause == 17)
  | none => value

/-- A pending trap is no longer pending. -/
def Slot.dropPend (t : Slot) (cause : Nat) : Slot :=
  { t with
    pend := t.pend.filter fun p => p.1 ≠ cause
    lost := if cause = 16 ∨ cause = 17 then none else t.lost }

/-- Take the lowest pending asynchronous trap of the slot at its present PC (R380). DEDUCED: log entry 27. -/
def State.takePending (s : State) (k : Nat) : State :=
  match lowestPend (s.slot k).pend with
  | some (c, v) =>
    (s.modSlot k fun t => t.dropPend c).takeTrap k true c ((s.slot k).pendValue c v) (s.slot k).pc
  | none => s

/-! ### Issue results -/

/-- How an issue can stop short of its effect: void and marked waiting (R76), void with a translation or a line asked for
(R386, R28), void with what it already did, or a trap, with what it already did or without (R377). -/
inductive Stop where
  | wait (w : Wait)
  | walk (w : Walk)
  | fetch (f : CodeFill)
  | waitWith (s : State) (w : Wait)
  | trap (cause : Nat) (value : Word)
  | asyncTrap (cause : Nat) (value : Word)
  | asyncWith (s : State) (cause : Nat) (value : Word)

abbrev Res (α : Type) := Except Stop α

/-- The PC of the issuing slot advances in sequence (R27). -/
def State.advance (s : State) : State := s.modSlot s.cur fun t => { t with pc := nextPc t.pc, wait := .none, entryDue := false, handlerDue := false }

/-- The issuing slot continues at `pc`. -/
def State.jumpTo (s : State) (pc : Word) : State := s.modSlot s.cur fun t => { t with pc := pc, wait := .none, entryDue := false, handlerDue := false }

/-- What an issue leaves behind: its state, a wait mark, or a trap of the issuing slot. -/
def State.finish (s : State) (r : Res State) : Host.Outcome State Fault Refusal :=
  match r with
  | .ok t => .next t
  | .error (.wait w) => .next (s.modSlot s.cur fun t => { t with wait := w })
  | .error (.walk w) =>
    let t := s.modSlot s.cur fun t => { t with wait := .tlb }
    .next (if t.walks.contains w then t else { t with walks := t.walks ++ [w] })
  | .error (.fetch f) =>
    let t := s.modSlot s.cur fun t => { t with wait := .fetch }
    .next (if t.codeFills.contains f then t else { t with codeFills := t.codeFills ++ [f] })
  | .error (.waitWith t w) => .next (t.modSlot s.cur fun u => { u with wait := w })
  | .error (.trap c v) =>
    let keep := fun (f : CodeFill) => !(f.slot == s.cur && f.ended == some c && decide (f.pc = v))
    .next ({ s with codeFills := s.codeFills.filter keep }.takeTrap s.cur false c v (s.slot s.cur).pc)
  | .error (.asyncTrap c v) => .next (s.takeTrap s.cur true c v (s.slot s.cur).pc)
  | .error (.asyncWith t c v) => .next (t.takeTrap s.cur true c v (s.slot s.cur).pc)

end Sys2Proof.Machine
end

