-- ==== Sys2Proof/Machine/Operands.lean ====
section
/-! DEFINITION. Operand forms: guards, source fields, kills, destinations, mesh ports, catchword composition and
resolution, and what holds an instruction at issue (R37 to R40, R94 to R96, R121 to R137, R336). -/

namespace Sys2Proof.Machine

/-- The issuing slot. -/
def State.me (s : State) : Slot := s.slot s.cur

/-- DEADMODE `trap` (R124). -/
def Slot.deadTraps (t : Slot) : Bool := t.deadmode.getLsbD 0

/-! ### Trap values of register uses (R147) -/

def useValue (num : Nat) (isP : Bool) (code field : Nat) : Word :=
  BitVec.ofNat 64 (num % 64 + (if isP then 64 else 0) + code % 4 * 128 + field % 4 * 512)

/-- The value of a trap that ends a wait on register j (R136). -/
def waitValue (wstate : Word) (j code : Nat) : Word :=
  let (n, out, o) := regReport wstate j
  BitVec.ofNat 64 (n % 64 + (if 79 ≤ j ∧ j < 86 then 64 else 0) + code % 4 * 128 + 2048
    + (if out then 4096 + o * 8192 else 0))

/-! ### Reading (R123, R124, R137) -/

/-- A non-affine use of a register; `z` is what a DEAD register reads as, `val` the trap value by state code. -/
def readCell {α τ : Type} (c : Cell α τ) (z : α) (deadTrap trap : Bool) (val : Nat → Word) (j : Nat) : Res α :=
  match c with
  | .full v => .ok v
  | .dead => if deadTrap then .error (.trap 9 (val 3)) else .ok z
  | .catching _ _ => if trap then .error (.trap 8 (val 2)) else .error (.wait (.reg j))
  | .empty m =>
    if m.fatal then .error (.trap 15 (val 1))
    else if trap then .error (.trap 8 (val 1))
    else if m.reply then .error (.wait (.reg j))
    else .error (.trap 16 (val 1))

/-- Whether the guard lets the instruction execute (R37). -/
def State.guardTrue (s : State) (g : Guard) : Res Bool := do
  let n := g.preg.toNat
  let b ← readCell (s.me.pCell n) false s.me.deadTraps false (fun c => useValue n true c 3) (78 + n)
  pure (b ^^ g.neg)

/-- The word that port k of a slot would give: in the ferry slot the oldest of the ferry queue (R95, R100). -/
def State.portWord (s : State) (slot k : Nat) : Option MeshWord :=
  if slotNo slot = 0 then (s.core (coreOf slot)).ferry.head?
  else (s.core (coreOf slot)).inbox.find? fun w => w.tag == k && targetSlot w.target == slotNo slot

/-- The stray header of a word (R100). -/
def headerOf (w : MeshWord) : Word :=
  BitVec.ofNat 64 (w.sender % 1024 * 2 ^ 34 + w.reason % 4 * 2 ^ 32 + w.tag % 4 * 2 ^ 30 + w.target.toNat)

/-- Take that word (R95). -/
def State.takePort (s : State) (slot k : Nat) : State :=
  match s.portWord slot k with
  | none => s
  | some w =>
    let s := s.modCore (coreOf slot) fun c =>
      if slotNo slot = 0 then { c with ferry := c.ferry.drop 1 }
      else { c with inbox := removeFirst (fun w => w.tag == k && targetSlot w.target == slotNo slot) c.inbox }
    s.modSlot slot fun t => { t with hdr := headerOf w }

/-- The state while an instruction's sources are read, with the port words it has taken. -/
structure Rd where
  s : State
  took : List (Nat × Word)

/-- Begin the reads of an instruction. -/
def State.rd (s : State) : Rd := ⟨s, []⟩

/-- Read an x register or a mesh port through source field `field` (R39, R95, R123, R124). -/
def readX (field : Nat) (src : Src) (r : Rd) : Res (Word × Rd) :=
  let t := r.s.me
  let n := src.reg.toNat
  if n = 0 then .ok (0, r)
  else if n < 32 then do
    let j := xIndex t.wstate n
    let v ← readCell (t.xCell j) 0 t.deadTraps src.trap (fun c => useValue n false c field) j
    pure (v, r)
  else
    match r.took.find? (·.1 == n - 56) with
    | some p => .ok (p.2, r)
    | none =>
      match r.s.portWord r.s.cur (n - 56) with
      | some w => .ok (w.data, ⟨r.s.takePort r.s.cur (n - 56), (n - 56, w.data) :: r.took⟩)
      | none => if src.trap then .error (.trap 8 (useValue n false 1 field)) else .error (.wait (.port (n - 56)))

/-- Read a predicate register through a source field. -/
def readP (field : Nat) (src : Src) (r : Rd) : Res (Bool × Rd) := do
  let n := src.reg.toNat
  let b ← readCell (r.s.me.pCell n) false r.s.me.deadTraps src.trap (fun c => useValue n true c field) (78 + n)
  pure (b, r)

/-- Read a v register by its v number through a source field; a lease is held (R265). The trap value names this register, one of
a group too (R147, R267). DESIGN CHOICE: log entry 65. -/
def readV (field : Nat) (trap : Bool) (n : Nat) (r : Rd) : Res (BitVec 4096 × Rd) := do
  let v ← readCell (r.s.me.vCell n) 0 r.s.me.deadTraps trap (fun c => useValue (32 + n) false c field) (86 + n)
  pure (v, r)

/-- The v number that an operand number names. -/
def vNum (r : BitVec 6) : Nat := r.toNat - 32

/-! ### Kills (R40, R122, R141) -/

/-- A killed cell, with the binding that the kill releases. -/
def killCell {α τ : Type} (c : Cell α τ) : Cell α τ × Option Nat :=
  match c with
  | .empty m => if m.reply then (.empty { m with drop := true }, none) else (.dead, m.cw)
  | _ => (.dead, none)

/-- Make register j of slot k DEAD, or dropped; a held v register is not killed here. -/
def State.killReg (s : State) (k j : Nat) : State :=
  let t := s.slot k
  if j < 79 then (s.modSlot k fun t => t.setXCell j (killCell (t.xCell j)).1).releaseCw k (killCell (t.xCell j)).2
  else if j < 86 then s.modSlot k fun t => t.setPCell (j - 78) (killCell (t.pCell (j - 78))).1
  else if j < 102 then
    (s.modSlot k fun t => t.setVCell (j - 86) (killCell (t.vCell (j - 86))).1).releaseCw k (killCell (t.vCell (j - 86))).2
  else s.modCore (coreOf k) fun c => c.setAcc (j - 102) (killCell (c.acc (j - 102))).1

/-- Kill a list of v registers: one that is held makes the issue void (R131). -/
def State.killVs (s : State) : List Nat → Res State
  | [] => .ok s
  | n :: ns => if s.me.held n then .error (.wait .other) else (s.killReg s.cur (86 + n)).killVs ns

/-- The kills of x and port source fields. -/
def State.killXs (s : State) : List Src → State
  | [] => s
  | src :: rest =>
    let n := src.reg.toNat
    if src.kill ∧ 0 < n ∧ n < 32 then (s.killReg s.cur (xIndex s.me.wstate n)).killXs rest else s.killXs rest

/-- The kills of predicate source fields. -/
def State.killPs (s : State) : List Src → State
  | [] => s
  | src :: rest =>
    let n := src.reg.toNat
    if src.kill ∧ 0 < n then (s.killReg s.cur (78 + n)).killPs rest else s.killPs rest

/-! ### Recorded steps and resolution (R129, R130, R133) -/

/-- Lane i of width w (R266). -/
def laneOf (w : Nat) (v : BitVec 4096) (i : Nat) : Nat := (v.extractLsb' (w * i) w).toNat

/-- The number whose `n` lanes of width `w` are `f 0`, `f 1`, … -/
def packLanes (w : Nat) (f : Nat → Nat) : Nat → Nat
  | 0 => 0
  | n + 1 => packLanes w f n + f n % 2 ^ w * 2 ^ (w * n)

/-- A v register from its lanes of width w. -/
def vecOf (w : Nat) (f : Nat → Nat) : BitVec 4096 := BitVec.ofNat 4096 (packLanes w f (4096 / w))

/-- The floating-point operation of a recorded opcode (R130). -/
def stepOp (opcode : BitVec 10) : FOp := if opcode = 0x128 then .add else if opcode = 0x129 then .sub else .mul

/-- One recorded step on the pending value, with its FULL operand. -/
def replayStep (st : VStep) (pend full : BitVec 4096) : BitVec 4096 :=
  let w := fmtWidth st.fmt
  vecOf w fun i =>
    if st.second then fop (stepOp st.opcode) st.fmt st.rm (laneOf w full i) (laneOf w pend i)
    else fop (stepOp st.opcode) st.fmt st.rm (laneOf w pend i) (laneOf w full i)

/-- The steps in program order on an arriving value. -/
def replaySteps : List VStep → BitVec 4096 → BitVec 4096
  | [], v => v
  | st :: rest, v => replaySteps rest (replayStep st v st.val)

/-- Resolve identifier `c` in slot k with the arriving value, and return it to the pool (R133). -/
def State.resolveCw (s : State) (k c : Nat) (v : Word) (vec : BitVec 4096) : State :=
  (s.modSlot k fun t => t.updateHolders c (fun p => .full (p.1 * v + p.2)) (fun steps => .full (replaySteps steps vec))).cwReturn
    (coreOf k) c

/-- Resolve a binding, if there is one. -/
def State.resolveOpt (s : State) (k : Nat) (c : Option Nat) (v : Word) (vec : BitVec 4096) : State :=
  match c with
  | none => s
  | some c => s.resolveCw k c v vec

/-- The marks of a register whose reference ended fatally (R133). -/
def fatalMarks : Marks := { reply := false, drop := false, fatal := true, cw := none }

/-- A FATAL end resolves nothing: every register that holds the identifier becomes EMPTY with `fatal` (R133). -/
def State.fatalCw (s : State) (k : Nat) (c : Option Nat) : State :=
  match c with
  | none => s
  | some c => (s.modSlot k fun t => t.dropHolders c (.empty fatalMarks) (.empty fatalMarks)).cwReturn (coreOf k) c

/-- A cell after its reply: FULL, or DEAD under `drop`, with the binding to resolve (R133). A reply to a register that
awaits none changes nothing. -/
def landCell {α τ : Type} (c : Cell α τ) (v : α) : Cell α τ × Option Nat :=
  match c with
  | .empty m => if m.reply then (if m.drop then .dead else .full v, m.cw) else (c, none)
  | c => (c, none)

/-- A cell after a FATAL reply, with the binding that ends (R133). -/
def fatalCell {α τ : Type} (c : Cell α τ) : Cell α τ × Option Nat :=
  match c with
  | .empty m => if m.reply then (if m.drop then .dead else .empty fatalMarks, m.cw) else (c, none)
  | c => (c, none)

/-- A reply lands in register j of slot k (R133). -/
def State.land (s : State) (k j : Nat) (v : Word) (vec : BitVec 4096) : State :=
  let t := s.slot k
  if j < 79 then
    (s.modSlot k fun t => t.setXCell j (landCell (t.xCell j) v).1).resolveOpt k (landCell (t.xCell j) v).2 v 0
  else if j < 86 then s.modSlot k fun t => t.setPCell (j - 78) (landCell (t.pCell (j - 78)) (v.getLsbD 0)).1
  else if j < 102 then
    (s.modSlot k fun t => t.setVCell (j - 86) (landCell (t.vCell (j - 86)) vec).1).resolveOpt k
      (landCell (t.vCell (j - 86)) vec).2 0 vec
  else s

/-- A FATAL reply lands in register j of slot k (R133). -/
def State.landFatal (s : State) (k j : Nat) : State :=
  let t := s.slot k
  if j < 79 then (s.modSlot k fun t => t.setXCell j (fatalCell (t.xCell j)).1).fatalCw k (fatalCell (t.xCell j)).2
  else if j < 86 then s.modSlot k fun t => t.setPCell (j - 78) (fatalCell (t.pCell (j - 78))).1
  else if j < 102 then
    (s.modSlot k fun t => t.setVCell (j - 86) (fatalCell (t.vCell (j - 86))).1).fatalCw k (fatalCell (t.vCell (j - 86))).2
  else s

/-! ### Writing (R122, R125) -/

/-- The binding of a register that a write may replace: void while a reply is outstanding (R125). -/
def writable {α τ : Type} (c : Cell α τ) (j : Nat) : Res (Option Nat) :=
  match c with
  | .empty m => if m.reply then .error (.wait (.reg j)) else .ok m.cw
  | _ => .ok none

/-- Write a value into x register j; a bound orphan's identifier resolves with it (R125). -/
def State.writeXj (s : State) (j : Nat) (v : Word) : Res State := do
  let cw ← writable (s.me.xCell j) j
  pure ((s.modSlot s.cur fun t => t.setXCell j (.full v)).resolveOpt s.cur cw v 0)

/-- A transform of a register that held one over an orphan's binding, once the orphan's own value is (sc, o) over `c`. -/
def composeOver (c : Nat) (sc o : Word) (p : Word × Word) : XCell :=
  if p.1 * sc = 0 then .full (p.1 * o + p.2) else .catching c (p.1 * sc, p.1 * o + p.2)

/-- Write a composed transform into x register j. The binding of an orphan passes to the new value (R125): what was composed
over it is composed over `c` from now on, and its identifier returns (R127) unless it is `c` itself. DEDUCED: log entry 11. -/
def State.writeXcatch (s : State) (j c : Nat) (sc o : Word) : Res State := do
  let cw ← writable (s.me.xCell j) j
  let s := match cw with
    | none => s
    | some b => (s.modSlot s.cur fun t => t.updateHolders b (composeOver c sc o) (.catching b)).cwReturnBut (coreOf s.cur) b c
  pure (s.modSlot s.cur fun t => t.setXCell j (.catching c (sc, o)))

/-- Mark x register j EMPTY for a split-phase result; the binding of an orphan is carried to the reply (R122, R125). -/
def State.emptyXj (s : State) (j : Nat) : Res State := do
  let cw ← writable (s.me.xCell j) j
  pure (s.modSlot s.cur fun t => t.setXCell j (.empty (awaiting cw)))

/-- Write predicate n; p0 discards (R88). -/
def State.writeP (s : State) (d : Dst) (b : Bool) : Res State :=
  let n := d.toNat
  if n = 0 then .ok s
  else do
    let _ ← writable (s.me.pCell n) (78 + n)
    pure (s.modSlot s.cur fun t => t.setPCell n (.full b))

def State.emptyP (s : State) (n : Nat) : Res State := do
  let _ ← writable (s.me.pCell n) (78 + n)
  pure (s.modSlot s.cur fun t => t.setPCell n (.empty (awaiting none)))

/-- Write v register n: a held one waits (R125). -/
def State.writeV (s : State) (n : Nat) (v : BitVec 4096) : Res State := do
  let cw ← writable (s.me.vCell n) (86 + n)
  if s.me.held n then .error (.wait .other)
  else pure ((s.modSlot s.cur fun t => t.setVCell n (.full v)).resolveOpt s.cur cw 0 v)

def State.emptyV (s : State) (n : Nat) : Res State := do
  let cw ← writable (s.me.vCell n) (86 + n)
  if s.me.held n then .error (.wait .other)
  else pure (s.modSlot s.cur fun t => t.setVCell n (.empty (awaiting cw)))

/-- Send a word to the slot that MDEST names (R94). -/
def State.sendPort (s : State) (k : Nat) (v : Word) : Res State :=
  if s.fencesPending s.cur then .error (.wait .other)
  else
    let me := coreOf s.cur
    let w : MeshWord := { target := s.me.mdest.setWidth 28, tag := k, data := v, sender := me, reason := 3 }
    match targetCore w.target with
    | none => .ok (s.stray me w 3)
    | some c =>
      if (s.core c).excluded then .ok (s.stray me w 3)
      else if 16 ≤ (s.core me).sendq.length then .error (.wait .other)
      else .ok (s.modCore me fun c => { c with sendq := c.sendq ++ [{ w with reason := 0 }] })

/-- Write a result to an xm destination: x0 discards, a port sends (R40, R94). -/
def State.put (s : State) (d : Dst) (v : Word) : Res State :=
  let n := d.toNat
  if n = 0 then .ok s
  else if n < 32 then s.writeXj (xIndex s.me.wstate n) v
  else s.sendPort (n - 56) v

/-! ### Composition (R126 to R128) -/

/-- A pending operand: its register, its identifier if it has one, its pair. -/
structure Pend where
  j : Nat
  id : Option Nat
  sc : Word
  off : Word

/-- The pending operand of a block-mode x source field: an orphan and a fatal register compose too (R123, R126, R137). -/
def State.pendOf (s : State) (src : Src) : Option Pend :=
  let n := src.reg.toNat
  if 0 < n ∧ n < 32 ∧ src.trap = false then
    let j := xIndex s.me.wstate n
    match s.me.xCell j with
    | .empty m => some ⟨j, m.cw, 1, 0⟩
    | .catching c (sc, o) => some ⟨j, some c, sc, o⟩
    | _ => none
  else none

/-- All pending operands name one identifier, or are one register (R128, R132). -/
def agree : List Pend → Bool
  | [] => false
  | p :: rest => rest.all fun q => q.j == p.j || (p.id.isSome && p.id == q.id)

/-- Read sources in field order, pending ones as their pairs. A mesh-port word is no affine operand; it enters the
composition as the constant (0, word). DESIGN CHOICE: log entry 65. -/
def readPairs (s : State) : Nat → List Src → Rd → Res (List (Word × Word) × Rd)
  | _, [], r => .ok ([], r)
  | f, src :: rest, r => do
    let (p, r) ← (match s.pendOf src with
      | some p => .ok ((p.sc, p.off), r)
      | none => do let (v, r) ← readX f src r; pure ((0, v), r))
    let (ps, r) ← readPairs s (f + 1) rest r
    pure (p :: ps, r)

/-- Read sources in field order. -/
def readXs : Nat → List Src → Rd → Res (List Word × Rd)
  | _, [], r => .ok ([], r)
  | f, src :: rest, r => do
    let (v, r) ← readX f src r
    let (vs, r) ← readXs (f + 1) rest r
    pure (v :: vs, r)

/-- The identifier of a pending operand, drawn and bound if it has none (R126, R127). -/
def State.drawFor (s : State) (p : Pend) : Res (Nat × State) :=
  match p.id with
  | some c => .ok (c, s)
  | none =>
    let core := coreOf s.cur
    match leastFrom (fun i => !(s.core core).cwUsed.contains i) 512 0 with
    | none => .error (.wait .other)
    | some c =>
      let s := s.modCore core fun t => { t with cwUsed := c :: t.cwUsed }
      .ok (c, s.modSlot s.cur fun t => match t.xCell p.j with
        | .empty m => t.setXCell p.j (.empty { m with cw := some c })
        | _ => t)

/-- The source names a DEAD register. -/
def State.isDead (s : State) (src : Src) : Bool :=
  let n := src.reg.toNat
  decide (0 < n) && decide (n < 32) && (s.me.xCell (xIndex s.me.wstate n) == .dead)

/-- An affine-compatible instruction: `f` composes the operands' pairs, none where the use is not affine. With every
operand FULL the result is the offset, and beside a DEAD operand, which names no identifier, nothing composes (R105, R128).
DEDUCED: log entry 11. -/
def State.affine (s : State) (d : Dst) (srcs : List Src) (f : List (Word × Word) → Option (Word × Word)) : Res State :=
  let plain : Res State := do
    let (vs, r) ← readXs 0 srcs s.rd
    match f (vs.map fun v => (0, v)) with
    | some (_, o) => (r.s.killXs srcs).put d o
    | none => .error (.wait .other)
  let ps := srcs.filterMap s.pendOf
  if agree ps && decide (0 < d.toNat) && decide (d.toNat < 32) && !srcs.any s.isDead then do
    let (pairs, r) ← readPairs s 0 srcs s.rd
    match f pairs, ps with
    | some (sc, o), p :: _ =>
      let (c, t) ← r.s.drawFor p
      let t := t.killXs srcs
      let j := xIndex t.me.wstate d.toNat
      if sc = 0 then t.writeXj j o
      else if (t.core (coreOf t.cur)).cwUsed.contains c then t.writeXcatch j c sc o
      else do
        let cw ← writable (t.me.xCell j) j
        pure ((t.modSlot t.cur fun u => u.setXCell j .dead).releaseCw t.cur cw)
    | _, _ => plain
  else plain

/-! ### Issue forms -/

/-- Issue under a guard: a false guard only advances (R37). -/
def State.issue (s : State) (g : Guard) (body : Res State) : Host.Outcome State Fault Refusal :=
  s.finish (do if ← s.guardTrue g then body else pure s.advance)

/-- An instruction whose accesses are of the given sets is held while a fence record holds them (R336). DEDUCED: log entry 18. -/
def State.holdFor (s : State) (sets : BitVec 5) : Res Unit :=
  if s.fenceHolds s.cur sets then .error (.wait .other) else .ok ()

/-- A publishing instruction is held while any fence record is pending (R336). -/
def State.holdPublish (s : State) : Res Unit :=
  if s.fencesPending s.cur then .error (.wait .other) else .ok ()

/-- No source, an xm result. -/
def State.op0 (s : State) (g : Guard) (d : Dst) (v : Word) : Host.Outcome State Fault Refusal :=
  s.issue g do
    let t ← s.put d v
    pure t.advance

/-- One x or port source, an xm result. -/
def State.op1 (s : State) (g : Guard) (d : Dst) (a : Src) (f : Word → Word) : Host.Outcome State Fault Refusal :=
  s.issue g do
    let (x, r) ← readX 0 a s.rd
    let t ← (r.s.killXs [a]).put d (f x)
    pure t.advance

/-- Two x or port sources, an xm result. -/
def State.op2 (s : State) (g : Guard) (d : Dst) (a b : Src) (f : Word → Word → Word) : Host.Outcome State Fault Refusal :=
  s.issue g do
    let (x, r) ← readX 0 a s.rd
    let (y, r) ← readX 1 b r
    let t ← (r.s.killXs [a, b]).put d (f x y)
    pure t.advance

/-- An affine-compatible instruction. DEDUCED: log entry 11. -/
def State.opAffine (s : State) (g : Guard) (d : Dst) (srcs : List Src)
    (f : List (Word × Word) → Option (Word × Word)) : Host.Outcome State Fault Refusal :=
  s.issue g do
    let t ← s.affine d srcs f
    pure t.advance

/-- Predicate sources, a predicate result. -/
def State.opP (s : State) (g : Guard) (d : Dst) (a b : Src) (f : Bool → Bool → Bool) : Host.Outcome State Fault Refusal :=
  s.issue g do
    let (x, r) ← readP 0 a s.rd
    let (y, r) ← readP 1 b r
    let t ← (r.s.killPs [a, b]).writeP d (f x y)
    pure t.advance

end Sys2Proof.Machine
end

