-- ==== Sys2Proof/Machine/Catchword.lean ====
section
/-! DEFINITION. CWRES, REGST, KILL, CWFREE and REGMAP (R138 to R144). -/

namespace Sys2Proof.Machine

/-- The register index of an operand number of class x, v or a through the current window; none for x0 (R138). -/
def State.regIndex (s : State) (r : BitVec 6) : Option Nat :=
  let n := r.toNat
  if n = 0 then none
  else if n < 32 then some (xIndex s.me.wstate n)
  else if n < 48 then some (86 + (n - 32))
  else some (102 + (n - 48))

/-- A use of a v register without a lease raises the no-lease trap (R265). -/
def State.needLease (s : State) (r : BitVec 6) : Res Unit :=
  if isV r ∧ s.me.lease = none then .error (.trap 10 (BitVec.ofNat 64 r.toNat)) else .ok ()

/-- State code of register j (R41). -/
def State.codeAt (s : State) (k j : Nat) : Nat :=
  let t := s.slot k
  if j < 79 then stateCode (t.xCell j) else if j < 86 then stateCode (t.pCell (j - 78))
  else if j < 102 then stateCode (t.vCell (j - 86)) else stateCode ((s.core (coreOf k)).acc (j - 102))

/-- Wait until register j is FULL or DEAD: an orphan or fatal register ends the wait (R136, R139). -/
def State.waitReg (s : State) (j : Nat) : Res Unit :=
  if s.fatalAt s.cur j then .error (.trap 15 (waitValue s.me.wstate j 1))
  else if s.orphanAt s.cur j then .error (.trap 16 (waitValue s.me.wstate j 1))
  else if s.pendingAt s.cur j then .error (.wait (.reg j))
  else .ok ()

/-- Wait until every register of the list is FULL or DEAD: any of them that becomes an orphan or fatal ends the wait (R136). -/
def State.waitRegs (s : State) (js : List Nat) : Res Unit :=
  match js.find? fun j => s.fatalAt s.cur j || s.orphanAt s.cur j with
  | some j => s.waitReg j
  | none =>
    if js.any fun j => s.pendingAt s.cur j then .error (.wait (.regs js)) else .ok ()

/-- A command came from a slot of the core. -/
def MxCmd.ofSlot (m : MxCmd) (k : Nat) (gen : BitVec 8) : Bool :=
  match m.src with
  | .own k' g => k' == k && decide (g = gen)
  | .sent _ _ _ => false

/-- The incomplete matrix commands of a slot (R322). -/
def State.mxMine (s : State) (k : Nat) : List MxCmd :=
  (s.core (coreOf k)).mxAll.filter fun m => m.ofSlot k (s.slot k).gen

/-- A matrix command that writes an accumulator was accepted from the slot and is incomplete (R139). -/
def State.accPending (s : State) (k : Nat) : Bool := (s.mxMine k).any fun m => writesAcc m.opcode

/-- CWRES (R139). DEDUCED: log entry 15. -/
def execCwres (g : Guard) (form : BitVec 2) (r : BitVec 6) (s : State) : Host.Outcome State Fault Refusal :=
  s.issue g do
    if form = 0 then do
      s.needLease r
      match s.regIndex r with
      | none => pure s.advance
      | some j => do s.waitReg j; pure s.advance
    else if form = 1 then do
      if r = 0 then pure s.advance else do s.waitReg (78 + r.toNat); pure s.advance
    else do
      s.waitRegs (List.range 102)
      if s.accPending s.cur then .error (.wait .other) else pure s.advance

/-- The word of REGST for a cell (R140). -/
def regstWord {α τ : Type} (c : Cell α τ) (steps : Nat) (held : Bool) : Word :=
  let m : Nat := match c with
    | .empty m => (if m.reply then 2 ^ 18 else 0) + (if m.drop then 2 ^ 17 else 0) + (if m.fatal then 2 ^ 16 else 0)
    | _ => 0
  let b : Nat := match cellCw c with
    | some i => 2 ^ 12 + i % 512 * 8
    | none => 0
  BitVec.ofNat 64 (m + steps % 8 * 2 ^ 13 + b + (if held then 4 else 0) + stateCode c)

/-- Recorded steps of a v cell. -/
def stepsOf : VCell → Nat
  | .catching _ st => st.length
  | _ => 0

/-- The state word of a named register (R140); a v register without a lease reports DEAD (R265). -/
def State.regst (s : State) (p : Bool) (r : BitVec 6) : Word :=
  if p then (if r = 0 then 0 else regstWord (s.me.pCell r.toNat) 0 false)
  else match s.regIndex r with
    | none => 0
    | some j =>
      if j < 79 then regstWord (s.me.xCell j) 0 false
      else if j < 102 then
        (if s.me.lease = none then 3
         else regstWord (s.me.vCell (j - 86)) (stepsOf (s.me.vCell (j - 86))) (s.me.held (j - 86)))
      else regstWord ((s.core (coreOf s.cur)).acc (j - 102)) 0 false

/-- REGST (R140). -/
def execRegst (g : Guard) (d : Dst) (p : Bool) (r : BitVec 6) (s : State) : Host.Outcome State Fault Refusal :=
  s.op0 g d (s.regst p r)

/-- KILL (R141). -/
def execKill (g : Guard) (p : Bool) (r : BitVec 6) (s : State) : Host.Outcome State Fault Refusal :=
  s.issue g do
    if p then pure (if r = 0 then s else s.killReg s.cur (78 + r.toNat)).advance
    else do
      s.needLease r
      match s.regIndex r with
      | none => pure s.advance
      | some j =>
        if 86 ≤ j ∧ j < 102 then do
          let t ← s.killVs [j - 86]
          pure t.advance
        else pure (s.killReg s.cur j).advance

/-- CWFREE (R142). -/
def execCwfree (g : Guard) (d : Dst) (s : State) : Host.Outcome State Fault Refusal :=
  s.op0 g d (BitVec.ofNat 64 (512 - (s.core (coreOf s.cur)).cwUsed.length))

/-- Codes of `n` registers, two bits each, from bit 2 lo on. -/
def codesFrom (f : Nat → Nat) : Nat → Nat → Nat
  | 0, _ => 0
  | n + 1, i => f i % 4 * 4 ^ i + codesFrom f n (i + 1)

/-- The word of REGMAP (R143). -/
def State.regmap (s : State) (grp : Bool) : Word :=
  if grp then
    BitVec.ofNat 64 (codesFrom (fun i =>
      if i < 16 then (if s.me.lease = none then 3 else s.codeAt s.cur (86 + i))
      else if i < 24 then s.codeAt s.cur (102 + (i - 16))
      else if i = 24 then 0 else s.codeAt s.cur (78 + (i - 24))) 32 0)
  else BitVec.ofNat 64 (codesFrom (fun i => if i = 0 then 0 else s.codeAt s.cur (xIndex s.me.wstate i)) 32 0)

/-- REGMAP (R143). -/
def execRegmap (g : Guard) (d : Dst) (grp : Bool) (s : State) : Host.Outcome State Fault Refusal :=
  s.op0 g d (s.regmap grp)

/-! ### Debugger reads (R41, R149) -/

/-- A register as a debugger reads it: `val` gives the value of a FULL one, `rest` what a CATCH one shows beside its identifier. -/
def debugCell {α τ : Type} (c : Cell α τ) (val : α → Nat) (rest : τ → Option (Word × Word) × List VStep) : RegRead :=
  match c with
  | .full v => { code := 0, value := val v, cw := none, pair := none, steps := [] }
  | .empty _ => { code := 1, value := 0, cw := none, pair := none, steps := [] }
  | .catching n t => { code := 2, value := 0, cw := some n, pair := (rest t).1, steps := (rest t).2 }
  | .dead => { code := 3, value := 0, cw := none, pair := none, steps := [] }

/-- A debugger or service read of a register of slot `k`: it changes nothing (R149). -/
def State.debugRead (s : State) (k : Nat) (r : RegName) : RegRead :=
  let t := s.slot k
  match r with
  | .x0 => { code := 0, value := 0, cw := none, pair := none, steps := [] }
  | .p0 => { code := 0, value := 1, cw := none, pair := none, steps := [] }
  | .at_ j =>
    if j < 79 then debugCell (t.xCell j) (fun v => v.toNat) fun q => (some q, [])
    else if j < 86 then debugCell (t.pCell (j - 78)) (fun b => if b then 1 else 0) fun _ => (none, [])
    else if j < 102 then
      debugCell (if t.lease = none then .dead else t.vCell (j - 86)) (fun v => v.toNat) fun l => (none, l)
    else
      let c := s.core (coreOf k)
      debugCell (c.acc (j - 102)) (fun _ => (c.accVal (j - 102)).toNat) fun _ => (none, [])

end Sys2Proof.Machine
end

