-- ==== Sys2Proof/Machine/Flags.lean ====
section
/-! DEFINITION. The conditions that instructions compute into predicates and masks (R116, R282), and the integer results
of R107 to R119. -/

namespace Sys2Proof.Machine

/-- A condition of CMP and CMPI (R116). -/
def condHolds (c : Cond) (a b : Word) : Bool :=
  match c with
  | .eq => decide (a = b)
  | .ne => decide (a ≠ b)
  | .lt => decide (a.toInt < b.toInt)
  | .ge => decide (b.toInt ≤ a.toInt)
  | .ltu => decide (a.toNat < b.toNat)
  | .geu => decide (b.toNat ≤ a.toNat)
  | .le => decide (a.toInt ≤ b.toInt)
  | .gt => decide (b.toInt < a.toInt)
  | .leu => decide (a.toNat ≤ b.toNat)
  | .gtu => decide (b.toNat < a.toNat)
  | .tst => decide (a &&& b ≠ 0)
  | .ntst => decide (a &&& b = 0)

/-- A condition of VCMP on one lane pair of type `f` (R282). -/
def vcondHolds (c : VCond) (f : Fmt) (a b : Nat) : Bool :=
  let fl := isFloat f
  let x := flOf f a
  let y := flOf f b
  let uno := fl && (isNan x || isNan y)
  let lt := if fl then ltFl x y else decide (intOf f a < intOf f b)
  let gt := if fl then ltFl y x else decide (intOf f b < intOf f a)
  match c with
  | .eq => !uno && !lt && !gt
  | .ne => uno || lt || gt
  | .lt => lt
  | .ge => !uno && !lt
  | .le => !uno && !gt
  | .gt => gt
  | .uno => uno
  | .ord => !uno
  | .tst => decide (a &&& b ≠ 0)

/-- `imm40` sign-extended (R36). -/
def sext40 (imm : BitVec 40) : Word := imm.signExtend 64

/-- The high half of the product (R108). -/
def mulHigh (sg : MulSign) (a b : Word) : Word :=
  let x : Int := if sg = .u then a.toNat else a.toInt
  let y : Int := if sg = .s then b.toInt else b.toNat
  BitVec.ofInt 64 (x * y / 2 ^ 64)

/-- Quotient and remainder (R109). -/
def divRem (uns : Bool) (a b : Word) : Word × Word :=
  if b = 0 then (BitVec.allOnes 64, a)
  else if uns then (BitVec.ofNat 64 (a.toNat / b.toNat), BitVec.ofNat 64 (a.toNat % b.toNat))
  else (BitVec.ofInt 64 (a.toInt.tdiv b.toInt), BitVec.ofInt 64 (a.toInt.tmod b.toInt))

/-- The shift amount of the register forms (R112). -/
def amount (b : Word) : Nat := (b.extractLsb' 0 6).toNat

/-- Rotate right (R112). -/
def rotr (a : Word) (n : Nat) : Word := if n = 0 then a else (a >>> n) ||| (a <<< (64 - n))

/-- Zero bits above the highest set bit, 64 for 0 (R113). -/
def clz64 (a : Word) : Word := BitVec.ofNat 64 (64 - bitLen a.toNat)

/-- Trailing zero bits among the lowest `n` from bit `i`. -/
def ctzFrom (a : Nat) : Nat → Nat → Nat
  | 0, i => i
  | n + 1, i => if a.testBit i then i else ctzFrom a n (i + 1)

/-- Zero bits below the lowest set bit, 64 for 0 (R113). -/
def ctz64 (a : Word) : Word := BitVec.ofNat 64 (ctzFrom a.toNat 64 0)

/-- Set bits among the lowest `n`. -/
def popCount (a : Nat) : Nat → Nat
  | 0 => 0
  | n + 1 => popCount a n + (if a.testBit n then 1 else 0)

/-- Set bits (R113). -/
def popc64 (a : Word) : Word := BitVec.ofNat 64 (popCount a.toNat 64)

/-- The low `len` bits, extended (R9). -/
def zextLow (a : Word) (len : Nat) : Word := BitVec.ofNat 64 (a.toNat % 2 ^ len)
def sextLow (a : Word) (len : Nat) : Word :=
  let v := a.toNat % 2 ^ len
  if 0 < len ∧ v.testBit (len - 1) then BitVec.ofInt 64 ((v : Int) - (2 ^ len : Nat)) else BitVec.ofNat 64 v
def extLow (sgn : Bool) (a : Word) (len : Nat) : Word := if sgn then sextLow a len else zextLow a len

/-- BINS (R113). -/
def insertField (a b : Word) (len pos : Nat) : Word :=
  let m : Word := BitVec.ofNat 64 ((2 ^ len - 1) * 2 ^ pos)
  (a &&& ~~~m) ||| ((b <<< pos) &&& m)

/-- Bits and bytes of an access width (R152). -/
def widthBits : Width → Nat
  | .b8 => 8
  | .b16 => 16
  | .b32 => 32
  | .b64 => 64
def widthBytes : Width → Nat
  | .b8 => 1
  | .b16 => 2
  | .b32 => 4
  | .b64 => 8

/-- Minimum or maximum (R115). -/
def minMax (mx uns : Bool) (a b : Word) : Word :=
  let lt := if uns then decide (a.toNat < b.toNat) else decide (a.toInt < b.toInt)
  if lt = mx then b else a

/-- Increment with wrap (R119). -/
def incWrap (old bound : Word) : Word := if bound.toNat ≤ old.toNat then 0 else old + 1

/-- Composition of pairs (R128): sums, differences, negation, scaling, products. -/
def affAdd : List (Word × Word) → Option (Word × Word)
  | [a, b] => some (a.1 + b.1, a.2 + b.2)
  | _ => none
def affSub : List (Word × Word) → Option (Word × Word)
  | [a, b] => some (a.1 - b.1, a.2 - b.2)
  | _ => none
def affImm (imm : Word) : List (Word × Word) → Option (Word × Word)
  | [a] => some (a.1, a.2 + imm)
  | _ => none
def affNeg : List (Word × Word) → Option (Word × Word)
  | [a] => some (-a.1, -a.2)
  | _ => none
def affMov : List (Word × Word) → Option (Word × Word)
  | [a] => some a
  | _ => none
def affShl (n : Nat) : List (Word × Word) → Option (Word × Word)
  | [a] => some (a.1 <<< n, a.2 <<< n)
  | _ => none
def affMul : List (Word × Word) → Option (Word × Word)
  | [a, b] => if a.1 ≠ 0 ∧ b.1 ≠ 0 then none else some (a.1 * b.2 + b.1 * a.2, a.2 * b.2)
  | _ => none
def affMuli (imm : Word) : List (Word × Word) → Option (Word × Word)
  | [a] => some (a.1 * imm, a.2 * imm)
  | _ => none
/-- LEA: base plus index times the scale plus displacement (R118). -/
def affLea (scale : BitVec 2) (disp : Word) : List (Word × Word) → Option (Word × Word)
  | [b, i] => some (b.1 + i.1 <<< scale.toNat, b.2 + i.2 <<< scale.toNat + disp)
  | _ => none

end Sys2Proof.Machine
end

