-- ==== Sys2Proof/Machine/Translate.lean ====
section
/-! DEFINITION. Address spaces, page walks, TLBs, placement and the fault table (R173, R381 to R395). -/

namespace Sys2Proof.Machine

/-! ### Addresses (R21) -/

def spBase : Nat := 0x007F000000000000
def spSize : Nat := 2 ^ 21

/-- A local address in the scratchpad window. -/
def inWindow (va : Nat) : Bool := decide (spBase ≤ va ∧ va < spBase + spSize)
/-- VA[55]: the address is global. -/
def isGlobal (va : Word) : Bool := va.getLsbD 55
/-- Bits [63:56] are zero. -/
def topOk (va : Word) : Bool := decide (va.toNat < 2 ^ 56)

/-- The fault page of an address: VA[54:16] (R388). -/
def pageOf (va : Nat) : Nat := bitsNat 54 16 va

/-! ### Placement (R173) -/

/-- Parity of PA[47:8] under a hash mask. -/
def hashBit (mask : Word) (pa : Nat) : Bool := parityNat 40 ((pa &&& mask.toNat) / 256 % 2 ^ 40)

/-- The number whose bit j is the hash of mask j. -/
def hashNum (pa : Nat) : List Word → Nat
  | [] => 0
  | m :: ms => (if hashBit m pa then 1 else 0) + 2 * hashNum pa ms

/-- Bank within the isle, 0 to 511. All isles must hold the same masks; where they do not, isle 0's place every word.
DESIGN CHOICE: log entry 16. -/
def State.bankOfPa (s : State) (pa : Nat) : Nat := hashNum pa (s.isle 0).bxh

/-- Isle of a word of a page, by isle 0's masks. DESIGN CHOICE: log entry 16. -/
def State.isleOfPa (s : State) (e : TlbEntry) (pa : Nat) : Nat := if e.sp then hashNum pa (s.isle 0).ixh else e.hisle

/-! ### Walks (R381 to R384, R407) -/

/-- How a walk ends: a leaf, or a fault, `bad` for a malformed entry; `broken` is the entry that met an uncorrectable error.
`dead` is a leaf on an isle that is left out: malformed, but for a remote access (R407). -/
inductive WalkRes where
  | leaf (e : TlbEntry)
  | fault (bad : Bool) (broken : Option Nat)
  | dead
deriving DecidableEq, Repr

/-- A level of the table: index position and width, log2 of the leaf's size where a leaf is permitted, and whether
pointers are, with log2 of the next table's size (R382). -/
structure Level where
  lo : Nat
  bits : Nat
  leaf : Option Nat
  next : Option Nat

def levels : List Level :=
  [⟨48, 7, none, some 12⟩, ⟨39, 9, none, some 12⟩, ⟨30, 9, some 30, some 12⟩, ⟨21, 9, some 21, some 8⟩, ⟨16, 5, some 16, none⟩]

/-- The bits of an entry that are zero in every entry, and those that are zero in a pointer (R383). -/
def pteZero (e : Word) : Bool := decide (e &&& 0x00FF0000000000FC#64 = 0)
def ptrZero (e : Word) : Bool := decide (e &&& 0x3F00000000000003#64 = 0)
def ptePa (e : Word) : Nat := (e &&& 0x0000FFFFFFFFFF00#64).toNat

/-- Where the DRAM of the package ends: 16 isles of 96 GiB (R20). Physical addresses are taken as one range from 0.
DESIGN CHOICE: log entry 16. -/
def dramEnd : Nat := 1536 * 2 ^ 30

/-- Bytes of DRAM of an isle (R20); its share of the range. DESIGN CHOICE: log entry 16. -/
def isleBytes : Nat := dramEnd / 16

/-- An isle that the start has not left out (R407). -/
def State.isleWorks (s : State) (i : Nat) : Bool := !(s.isle 0).deadIsles.getLsbD i

/-- The isle whose fault table serves what arrives at an isle: itself, or the lowest that works for one that serves no address
(R207, R407). DESIGN CHOICE: log entry 16. -/
def State.faultIsle (s : State) (i : Nat) : Nat := if s.isleWorks i then i else (leastFrom s.isleWorks 16 0).getD i

/-- Bytes of the folio table (R293). -/
def folioTableBytes : Nat := 4 * 2 ^ 20

/-- The folio table's place: the last 4 MiB of the lowest isle that works (R293, R407). DESIGN CHOICE: log entry 16. -/
def State.folioBase (s : State) : Nat := isleBytes * (s.faultIsle 0 + 1) - folioTableBytes

/-- Bytes that no program address reaches: beyond the DRAM, or of the folio table (R293). DESIGN CHOICE: log entry 16. -/
def State.noProgram (s : State) (a len : Nat) : Bool :=
  decide (dramEnd < a + len) || (decide (a < s.folioBase + folioTableBytes) && decide (s.folioBase < a + len))

/-- The leaf that an entry maps, malformed cases refused (R384, R407), and one whose page no program address reaches.
DESIGN CHOICE: log entry 16. -/
def State.leafOf (s : State) (space va log : Nat) (e : Word) : WalkRes :=
  let t : TlbEntry := {
    space := space, va := va / 2 ^ log * 2 ^ log, size := 2 ^ log, pa := ptePa e, r := e.getLsbD 0,
    w := e.getLsbD 1, sa := e.getLsbD 61, sp := e.getLsbD 60, hisle := (e.extractLsb' 56 4).toNat }
  let bad := decide (t.pa % 2 ^ log ≠ 0) || s.noProgram t.pa t.size || (t.sp && decide (t.hisle ≠ 0))
  if bad then .fault true none
  else if (s.isle 0).nospread && (t.sp || (s.isle 0).deadIsles.getLsbD t.hisle) then .dead
  else .leaf t

/-- A walk that gave no leaf: whether the entry was malformed, and where an uncorrectable error was met. -/
def WalkRes.failed : WalkRes → Bool × Option Nat
  | .fault bad broken => (bad, broken)
  | _ => (true, none)

/-- Descend from a table; one in no memory of programs gives a malformed entry. DESIGN CHOICE: log entry 16. -/
def State.walkFrom (s : State) (space va : Nat) : List Level → Nat → WalkRes
  | [], _ => .fault true none
  | l :: ls, table =>
    let a := table + 8 * (va / 2 ^ l.lo % 2 ^ l.bits)
    let e := s.readWord a
    if s.noProgram a 8 then .fault true none
    else if s.isBroken a 8 then .fault true (some a)
    else if e.getLsbD 63 = false then .fault false none
    else if pteZero e = false then .fault true none
    else if e.getLsbD 62 then
      match l.leaf with
      | some log => s.leafOf space va log e
      | none => .fault true none
    else
      match l.next with
      | some log => if ptrZero e && decide (ptePa e % 2 ^ log = 0) then s.walkFrom space va ls (ptePa e) else .fault true none
      | none => .fault true none

/-- Walk for a local address outside the window in a space (R381); a physical address has 48 bits (R21). -/
def State.walk (s : State) (space va : Nat) : WalkRes :=
  let a := (s.sptbase.toNat + 8 * space) % 2 ^ 48
  let e := s.readWord a
  if s.noProgram a 8 then .fault true none
  else if s.isBroken a 8 then .fault true (some a)
  else if e.getLsbD 63 = false then .fault false none
  else if e &&& 0x7FFF0000000000FF#64 ≠ 0 ∨ ptePa e % 1024 ≠ 0 then .fault true none
  else s.walkFrom space va levels (ptePa e)

/-! ### TLBs (R386, R387) -/

def TlbEntry.covers (e : TlbEntry) (space va : Nat) : Bool :=
  e.space == space && decide (e.va ≤ va ∧ va < e.va + e.size)

def tlbFind (l : List TlbEntry) (space va : Nat) : Option TlbEntry := l.find? fun e => e.covers space va

/-- Enter a translation; a full TLB replaces an entry that the implementation picks (R387). -/
def tlbAdd (l : List TlbEntry) (cap victim : Nat) (e : TlbEntry) : List TlbEntry :=
  if l.any (fun e' => e' == e) then l
  else if l.length < cap then e :: l
  else e :: lremove l (victim % cap)

/-- Both TLBs take a translation. -/
def State.fillTlbs (s : State) (core : Nat) (e : TlbEntry) : State :=
  let v := Config.tlbVictim s.draws
  let s := s.modCore core fun c => { c with tlb := tlbAdd c.tlb 64 v e }
  let s := s.modIsle (isleOf core) fun i => { i with tlb := tlbAdd i.tlb 2048 v e }
  { s with draws := s.draws + 1 }

def State.fillIsleTlb (s : State) (isle : Nat) (e : TlbEntry) : State :=
  let v := Config.tlbVictim s.draws
  let s := s.modIsle isle fun i => { i with tlb := tlbAdd i.tlb 2048 v e }
  { s with draws := s.draws + 1 }

/-- The rights an access needs are short (R385). -/
def denies (e : TlbEntry) (needR needW : Bool) : Bool := (needR && !e.r) || (needW && !e.w)

/-! ### The fault table (R388 to R393) -/

/-- The FREE entry. -/
def FaultEnt.init : FaultEnt where
  queued := false
  seq := 0
  space := 0
  page := 0
  bad := false
  origin := 0
  va := 0
  who := 0
  cyc := 0
  no := 0
  parked := []

/-- The live entry of a fault page. -/
def Isle.findFault (i : Isle) (space page : Nat) : Option Nat :=
  (i.faults.find? fun f => f.2.space == space && f.2.page == page).map (·.1)

/-- The lowest FREE entry. -/
def Isle.freeFault (i : Isle) : Option Nat := leastFrom (fun n => !i.faults.any fun f => f.1 == n) 256 0

def State.fault (s : State) (isle idx : Nat) : FaultEnt := tget FaultEnt.init (s.isle isle).faults idx
def State.setFault (s : State) (isle idx : Nat) (f : FaultEnt) : State :=
  s.modIsle isle fun i => { i with faults := tset FaultEnt.init i.faults idx f }

/-- Access bits of a parked reference: bit 0 reads, bit 1 writes (R393). -/
def accBits (needR needW : Bool) : BitVec 2 := BitVec.ofBool needW ++ BitVec.ofBool needR

/-- Word 2 of a ring entry for a thread or an engine of a set (R393). -/
def whoOf (tsid slot : Nat) (gen : BitVec 8) : Word :=
  BitVec.ofNat 64 (tsid % 2 ^ 16 * 2 ^ 38 + coreOf slot % 1024 * 2 ^ 28 + (ownName slot gen).toNat)

/-- Open the lowest FREE entry for a fault page; none when all are in use (R388). -/
def State.openFault (s : State) (isle space : Nat) (va : Word) (bad : Bool) (origin : Nat) (who : Word) :
    Option (Nat × State) :=
  match (s.isle isle).freeFault with
  | none => none
  | some n =>
    let f : FaultEnt := {
      queued := false, seq := 0, space := space, page := pageOf va.toNat, bad := bad, origin := origin,
      va := va, who := who, cyc := s.cycWord, no := s.serial + 1, parked := [] }
    some (n, { s.setFault isle n f with serial := s.serial + 1 })

/-- Park on an entry, behind what is parked there (R389, R390). -/
def State.park (s : State) (isle idx : Nat) (p : Parked) (needR needW : Bool) : State :=
  let f := s.fault isle idx
  s.setFault isle idx { f with parked := f.parked ++ [{ what := p, acc := accBits needR needW }] }

/-! ### Reaching a home -/

/-- Where a local reference goes: a home address and its isle, a page that denies it, a page of an isle left out (a remote
access only, R407), a live fault entry, or a walk. -/
inductive Loc where
  | home (h isle : Nat)
  | deny
  | dead
  | fault (isle idx : Nat)
  | walk
deriving DecidableEq, Repr

/-- A thread's reference against the core's TLB and the fault table of its isle (R154, R386, R388): it parks where its walk
would start, not where the last-level TLB holds the page. -/
def State.locate (s : State) (slot : Nat) (va : Nat) (needR needW : Bool) : Loc :=
  let core := coreOf slot
  let isle := isleOf core
  if inWindow va then .home (spHome (quireOf core) (va - spBase)) isle
  else
    let space := (s.slotSet slot).space
    match tlbFind (s.core core).tlb space va with
    | some e => if denies e needR needW then .deny else .home (e.pa + (va - e.va)) (s.isleOfPa e (e.pa + (va - e.va)))
    | none =>
      match (if (tlbFind (s.isle isle).tlb space va).isSome then none else (s.isle isle).findFault space (pageOf va)) with
      | some n => .fault isle n
      | none => .walk

/-- A thread's reference at issue: a miss asks for the translation and is void, a page that denies it traps (R386). -/
def State.reach (s : State) (va : Word) (needR needW : Bool) : Res Loc :=
  match s.locate s.cur va.toNat needR needW with
  | .deny => .error (.trap 13 va)
  | .walk =>
    let w : Walk := { slot := s.cur, gen := s.me.gen, space := (s.slotSet s.cur).space, va := va.toNat }
    .error (.walk w)
  | l => .ok l

/-- The record of a walk that met an uncorrectable error (R417). -/
def State.recordWalk (s : State) (broken : Option Nat) : State := broken.elim s s.recordBroken

/-- What a translation gives: the home, or a denial (R385). -/
def State.placed (s : State) (e : TlbEntry) (va : Nat) (needR needW : Bool) : Loc :=
  if denies e needR needW then .deny else .home (e.pa + (va - e.va)) (s.isleOfPa e (e.pa + (va - e.va)))

/-- Where an address goes by a fresh walk, with what the walk leaves behind: a fault joins a live entry or opens one;
`walk` stands for a full fault table, which is waited for (R386, R388, R394). The TLB of `core`, where one is named, and
the isle's take the translation. -/
def State.walkReach (s : State) (core : Option Nat) (isle quire space : Nat) (va : Nat) (needR needW : Bool) (origin : Nat) (who : Word) :
    Loc × State :=
  if inWindow va then (.home (spHome quire (va - spBase)) (quire / 12), s)
  else match (s.isle isle).findFault space (pageOf va) with
    | some n => (.fault isle n, s)
    | none =>
      match s.walk space va with
      | .leaf e => (s.placed e va needR needW, core.elim (s.fillIsleTlb isle e) fun c => s.fillTlbs c e)
      | w =>
        let (bad, broken) := w.failed
        if origin = 2 ∧ w = .dead then (.dead, s)
        else match s.openFault isle space (BitVec.ofNat 64 va) bad origin who with
        | some (n, s) => (.fault isle n, s.recordWalk broken)
        | none => (.walk, s)

/-- Where a reference of an engine or of the ingress goes: a TLB hit, else a walk (R386). -/
def State.engineReach (s : State) (core : Option Nat) (isle quire space : Nat) (va : Nat) (needR needW : Bool)
    (origin : Nat) (who : Word) : Loc × State :=
  let tlb := core.elim [] fun c => (s.core c).tlb
  match (if inWindow va then none else tlbFind (tlb ++ (s.isle isle).tlb) space va) with
  | some e => (s.placed e va needR needW, s)
  | none => s.walkReach core isle quire space va needR needW origin who

/-- Where an element of a vector instruction lies as far as the isle can tell now: `walk` stands for a page whose walk
faults. Nothing is changed (R386: each reference of a multi-page instruction is translated on its own). -/
def State.peek (s : State) (slot space : Nat) (va : Nat) (needR needW : Bool) : Loc :=
  let core := coreOf slot
  let isle := isleOf core
  if inWindow va then .home (spHome (quireOf core) (va - spBase)) isle
  else match tlbFind ((s.core core).tlb ++ (s.isle isle).tlb) space va with
    | some e => s.placed e va needR needW
    | none =>
      match (s.isle isle).findFault space (pageOf va) with
      | some n => .fault isle n
      | none =>
        match s.walk space va with
        | .leaf e => s.placed e va needR needW
        | _ => .walk

end Sys2Proof.Machine
end

