-- ==== Sys2Proof/Machine/Refs.lean ====
section
/-! DEFINITION. References of threads: checks at issue, what they become, how they end, how a fault entry releases them
(R154 to R157, R184, R185, R326 to R331, R389, R394, R395). -/

namespace Sys2Proof.Machine

/-! ### Kinds of references -/

/-- Read rights that an operation needs of the page of its address (R385). -/
def RefOp.needR : RefOp → Bool
  | .store _ => false
  | .stef _ => false
  | .stf _ => false
  | .purge => false
  | .touch r _ => r
  | .vstore _ _ => false
  | .tagset _ _ _ _ _ => false
  | _ => true

/-- Write rights that an operation needs of the page of its address (R180, R385). DESIGN CHOICE: log entry 72. -/
def RefOp.needW : RefOp → Bool
  | .store _ => true
  | .ldfe => true
  | .stef _ => true
  | .stf _ => true
  | .purge => true
  | .atom _ _ _ _ _ => true
  | .touch _ w => w
  | .vstore _ _ => true
  | .tagset _ _ _ _ _ => true
  | .enq _ => true
  | _ => false

/-- Plain loads and stores, for the same-word order (R327). -/
def RefOp.isPlain : RefOp → Bool
  | .load _ _ => true
  | .loadLate _ _ => true
  | .loadAfter _ _ _ => true
  | .store _ => true
  | _ => false

/-- An operation without a reply of its own, a reduction included (R184, R389). -/
def RefOp.noReply : RefOp → Bool
  | .store _ => true
  | .stf _ => true
  | .purge => true
  | .touch _ _ => true
  | .vstore _ _ => true
  | .atom _ _ _ _ ret => !ret
  | _ => false

/-- The bytes an operation names at its address. -/
def RefOp.len : RefOp → Nat
  | .load w _ => widthBytes w
  | .loadLate w _ => widthBytes w
  | .loadAfter w _ _ => widthBytes w
  | .store bs => bs.length
  | .atom _ w _ _ _ => widthBytes w
  | .record _ n => n
  | .enq _ => 16
  | .touch _ _ => 1
  | _ => 8

/-- The words of a virtual address range, kept apart from home words, for references whose home is not yet known.
DEDUCED: log entry 19. -/
def vaSpan (va len : Nat) : Nat × Nat := ((spanOf va len).1 + 2 ^ 62, (spanOf va len).2)

/-- The spans of an access. -/
def spansOf (va len : Nat) (home : Option Nat) : List (Nat × Nat) :=
  match home with
  | some h => [spanOf h len, vaSpan va len]
  | none => [vaSpan va len]

/-- An access to local memory is entered. -/
def State.enter (s : State) (sets : BitVec 5) (va len : Nat) (home : Option Nat) (plain : Bool) : Nat × State :=
  s.newAcc s.cur sets (spansOf va len home) plain

/-- The address checks of R154. -/
def addrCheck (va : Word) (align : Nat) (localOnly : Bool) : Res Unit :=
  if !topOk va then .error (.trap 11 va)
  else if localOnly && isGlobal va then .error (.trap 11 va)
  else if va.toNat % align ≠ 0 then .error (.trap 12 va)
  else .ok ()

/-- The sets of an access by its address (R326). -/
def setsOf (va : Word) (sets : BitVec 5) : BitVec 5 := if isGlobal va then setR else sets

/-- A use of the pending-reduction counter waits while it stands at 16 (R184, R185). -/
def State.redRoom (s : State) : Res Unit := if 16 ≤ s.me.redcnt then .error (.wait .other) else .ok ()

/-! ### Words that an agent operation comes to (R189 to R192, R327) -/

/-- A target address of MCAS that fails with code 4 (R189). -/
def mcasBad (va : Word) : Bool := decide (va.toNat % 8 ≠ 0) || !topOk va || inWindow va.toNat

/-- A node address that ENQ cannot take (R191). -/
def nodeBad (va : Word) : Bool :=
  decide (va = 0) || decide (va.toNat % 8 ≠ 0) || !topOk va || isGlobal va || inWindow va.toNat

/-- An address that a pointer may not lead to (R192). -/
def hopBad (va : Word) : Bool := !topOk va || decide (va.toNat % 8 ≠ 0) || isGlobal va || inWindow va.toNat

/-- The home that the tables give an address now. -/
def State.peekHome (s : State) (space va : Nat) : Option Nat :=
  match s.walk space va with
  | .leaf e => some (e.pa + (va - e.va))
  | _ => none

def State.peekSpans (s : State) (space va : Nat) : List (Nat × Nat) := spansOf va 8 (s.peekHome space va)

/-- The word of a global address, kept apart from local ones. -/
def farSpan (va : Word) : Nat × Nat := (va.toNat / 8 + 2 ^ 63, 1)

/-- The words that a chase comes to from an address on, as memory stands. -/
def State.chaseSpans (s : State) (space : Nat) (o : Word) : Nat → Nat → List (Nat × Nat)
  | 0, va => s.peekSpans space va
  | n + 1, va => s.peekSpans space va ++
      match s.peekHome space va with
      | some h =>
        let w := s.readWord h
        if w = 0 || hopBad (w + o) then [] else s.chaseSpans space o n (w + o).toNat
      | none => []

/-- The words that an agent operation still comes to, as memory stands; `home` is where its own word lies.
DEDUCED: log entry 19. -/
def State.agentSpans (s : State) (r : Ref) (home : Option Nat) : List (Nat × Nat) :=
  let node := fun (va : Word) => if nodeBad va then [] else s.peekSpans r.space va.toNat
  match r.op with
  | .record (.mcas n) _ => (home.elim [] fun h => s.readWords h n).flatMap fun va =>
      if mcasBad va then [] else if isGlobal va then [farSpan va] else s.peekSpans r.space va.toNat
  | .enq v => node v ++ home.elim [] fun h => node (s.readWord (h + 8))
  | .chase o hops => s.chaseSpans r.space o hops r.va.toNat
  | _ => []

/-! ### Words that a TAGSET or a vector reference comes to (R160, R276, R327) -/

/-- The words a TAGSET of `len` words from `va` names in its own memory: up to the window's edge (R170). -/
def tagsetLen (va len : Nat) : Nat :=
  if inWindow va then Nat.min len ((spBase + spSize - va) / 8)
  else if va < spBase then Nat.min len ((spBase - va) / 8)
  else len

/-- The words that a TAGSET steps: up to the edge of its memory (R170). -/
def tagsetEnd (va len : Nat) : Nat := Nat.min (tagsetLen va len) ((2 ^ 55 - va) / 8)

/-- The home and the isle of word `w` of a TAGSET, where its page is mapped. -/
def State.tagPlace (s : State) (r : Ref) (w : Nat) : Option (Nat × Nat) :=
  match s.peek r.slot r.space (r.va.toNat + 8 * w) false true with
  | .home h isle => some (h, isle)
  | _ => none

/-- What an isle has done of a TAGSET. -/
def partOf (ps : List TagPart) (isle : Nat) : TagPart :=
  (ps.find? (·.isle == isle)).getD { isle := isle, start := 0, pos := 0, stop := 0 }
def setPart (ps : List TagPart) (p : TagPart) : List TagPart := p :: ps.filter (·.isle != p.isle)

/-- A word of a TAGSET from `w` on, below `stop`, is not done and lies in one of the words, page after page as far as the pages
are mapped now (R160). -/
def State.tagMeets (s : State) (r : Ref) (ps : List TagPart) (words : List (Nat × Nat)) (stop : Nat) : Nat → Nat → Bool
  | 0, _ => false
  | n + 1, w =>
    if stop ≤ w then false
    else
      let here := Nat.min (stop - w) ((65536 - (r.va.toNat + 8 * w) % 65536) / 8)
      let undone := fun (x : Nat) => (s.tagPlace r x).all fun p => decide ((partOf ps p.2).pos ≤ x)
      let onPage := (s.tagPlace r w).any fun p => words.any fun q =>
        let lo := Nat.max q.1 (p.1 / 8)
        (List.range (Nat.min (q.1 + q.2) (p.1 / 8 + here) - lo)).any fun i => undone (w + (lo + i - p.1 / 8))
      onPage || s.tagMeets r ps words stop n (w + here)

/-- The addresses of the lanes that a vector reference has still to reach, and their bytes. -/
def RefOp.lanesLeft : RefOp → List (Nat × Nat)
  | .vload _ sf todo _ => todo.map fun l => (l.2, fmtWidth sf / 8)
  | .vstore n todo => todo.map fun l => (l.2.1, n)
  | _ => []

/-- The words of a lane, by address and by home where the home is known now. -/
def State.laneSpans (s : State) (slot space va n : Nat) : List (Nat × Nat) :=
  match s.peek slot space va false false with
  | .home h _ => spansOf va n (some h)
  | _ => spansOf va n none

/-- An operation that names words beyond its own, as they are found: an agent operation, a TAGSET, a vector reference. -/
def RefOp.isMany : RefOp → Bool
  | .record (.mcas _) _ => true
  | .enq _ => true
  | .chase _ _ => true
  | .tagset _ _ _ _ _ => true
  | .vload _ _ _ _ => true
  | .vstore _ _ => true
  | _ => false

/-- The operations of a slot that name such words, on their way or parked. -/
def State.manyRefs (s : State) (k : Nat) (gen : BitVec 8) : List Ref :=
  let mine := fun (r : Ref) => r.op.isMany && r.slot == k && decide (r.gen = gen)
  s.refs.filter mine ++ s.isles.flatMap fun e => e.2.faults.flatMap fun f => f.2.parked.filterMap fun p => match p.what with
    | .ref r => if mine r then some { r with home := 2 ^ 60 } else none
    | _ => none

/-- An operation still comes to one of the words, as memory and the tables stand. DEDUCED: log entry 19. -/
def State.comesTo (s : State) (r : Ref) (words : List (Nat × Nat)) : Bool :=
  match r.op with
  | .tagset _ len _ low ps =>
    let stop := tagsetEnd r.va.toNat len
    s.tagMeets r ps words stop ((stop - low) / 8192 + 2) low
  | .vload _ _ _ _ => spansMeet (r.op.lanesLeft.flatMap fun l => s.laneSpans r.slot r.space l.1 l.2) words
  | .vstore _ _ => spansMeet (r.op.lanesLeft.flatMap fun l => s.laneSpans r.slot r.space l.1 l.2) words
  | _ => spansMeet (s.agentSpans r (if r.home < 2 ^ 60 then some r.home else s.peekHome r.space r.va.toNat)) words

/-- An earlier operation of the slot still comes to one of the words (R160, R276, R327). DEDUCED: log entry 19. -/
def State.manyAhead (s : State) (id k : Nat) (gen : BitVec 8) (words : List (Nat × Nat)) : Bool :=
  (s.manyRefs k gen).any fun r => decide (r.id < id) && s.comesTo r words

/-- Access `id` of a slot to `words` may act at its home: no earlier access of the slot still stands before it, nor an operation
that comes to one of them (R160, R187, R276, R327). -/
def State.inOrder (s : State) (id k : Nat) (gen : BitVec 8) (words : List (Nat × Nat)) (plain : Bool) : Bool :=
  s.mayArrive id k words plain && !s.manyAhead id k gen words

/-! ### Issue -/

/-- The register number that an instruction names for its reply (R163): an x register through the window. -/
def RetDst.number (wstate : Word) : RetDst → Nat
  | .reg j => (regReport wstate j).1
  | _ => 0

/-- Issue a local reference: to its home, or parked on the live fault entry of its page. `counted` references raise
REDCNT at once; the others without a reply raise it while parked (R389). -/
def State.sendRef (s : State) (sets : BitVec 5) (va : Word) (dst : RetDst) (op : RefOp) (counted : Bool) : Res State := do
  if counted then s.redRoom else pure ()
  let s := if counted then s.redUp s.cur else s
  let space := (s.slotSet s.cur).space
  let limit := s.me.waitlim.toNat
  let isle0 := isleOf (coreOf s.cur)
  match ← s.reach va op.needR op.needW with
  | .home h isle =>
    let (id, t) := s.enter sets va.toNat op.len (some h) op.isPlain
    let r : Ref := {
      id := id, slot := s.cur, gen := s.me.gen, tsid := s.me.tsid.getD 0, num := dst.number s.me.wstate
      job := (s.slotSet s.cur).job, space := space, va := va, isle := isle, home := h, dst := dst, op := op, limit := limit, counted := counted }
    pure { t with refs := t.refs ++ [r] }
  | .fault i n =>
    let parkCount := op.noReply && !counted
    if parkCount then s.redRoom else pure ()
    let s := if parkCount then s.redUp s.cur else s
    let (id, t) := s.enter sets va.toNat op.len none op.isPlain
    let r : Ref := {
      id := id, slot := s.cur, gen := s.me.gen, tsid := s.me.tsid.getD 0, num := dst.number s.me.wstate
      job := (s.slotSet s.cur).job, space := space, va := va, isle := isle0, home := 0, dst := dst, op := op, limit := limit, counted := counted || parkCount }
    pure (t.park i n (.ref r) op.needR op.needW)
  | _ => .error (.wait .other)

/-- A touch of local memory (R155, R185). -/
def State.touch (s : State) (sets : BitVec 5) (va : Word) (needR needW : Bool) : Res State := do
  s.redRoom
  match ← s.reach va needR needW with
  | .fault _ _ => s.sendRef sets va .none (.touch needR needW) false
  | _ => pure s

/-! ### The core store buffer (R329 to R331) -/

/-- The newest entry that holds the byte at a home address. -/
def newestEntry : List SbEntry → Nat → Option SbEntry
  | [], _ => none
  | e :: es, a => (newestEntry es a).or (if e.home ≤ a ∧ a < e.home + e.bytes.length then some e else none)

/-- The newest buffered value of the byte at a home address. -/
def newestByte (sb : List SbEntry) (a : Nat) : Option Byte := (newestEntry sb a).bind fun e => e.bytes[a - e.home]?

/-- An entry holds one of `len` bytes at a home address. -/
def SbEntry.meets (e : SbEntry) (home len : Nat) : Bool :=
  decide (e.home < home + len) && decide (home < e.home + e.bytes.length)

/-- A value read as a number of a width, extended to a word (R156). -/
def extendTo (w : Width) (sgn : Bool) (n : Nat) : Word := extLow sgn (BitVec.ofNat 64 n) (widthBits w)

/-- The entries that a load of slot `k` with access number `id` may take bytes from: those of any slot, up to a store that follows
the load in its own slot (R327, R330). -/
def State.sbFor (s : State) (k id home len : Nat) : List SbEntry :=
  let words := [spanOf home len]
  (s.core (coreOf k)).sb.takeWhile fun e => e.slot ≠ k || decide (e.id < id) || !spansMeet [spanOf e.home e.bytes.length] words

/-- What the store buffer gives a load: the newest bytes; none where some byte is not held (R330). -/
def State.bufferedBytes (s : State) (k id home len : Nat) : Option (List Byte) :=
  (List.range len).mapM fun i => newestByte (s.sbFor k id home len) (home + i)

/-- A load takes its bytes from the buffer: it is performed when the entries it took them from have left (R330, R331). -/
def State.forward (s : State) (k id : Nat) (gen : BitVec 8) (home : Nat) (w : Width) (sgn : Bool) (dst : RetDst)
    (bytes : List Byte) : State :=
  let len := widthBytes w
  let took := (List.range len).filterMap fun i => (newestEntry (s.sbFor k id home len) (home + i)).map (·.id)
  let t := s.modCore (coreOf k) fun c => { c with
    sb := c.sb.map fun e => if took.contains e.id then { e with readers := id :: e.readers } else e }
  t.reply k gen dst (extendTo w sgn (natOfBytes bytes))

/-- A load issued now to `words` stands behind an access of its slot that is not performed, but for stores that wait in the buffer
and loads that have taken their bytes from it (R327, R330, R331). -/
def State.loadBehind (s : State) (words : List (Nat × Nat)) : Bool :=
  let buffered := fun (id : Nat) => (s.core (coreOf s.cur)).sb.any fun e => e.id == id || e.readers.contains id
  (s.accs.any fun a => a.slot == s.cur && decide (a.gen = s.me.gen) && spansMeet a.words words && !buffered a.id)
    || s.manyAhead s.serial s.cur s.me.gen words

/-- A plain load: forwarded when the buffer holds every byte, else sent to the home (R330, R331). A load behind an access of its
slot waits for it, and looks up the buffer then (R327). -/
def State.loadLocal (s : State) (va : Word) (w : Width) (sgn : Bool) (dst : RetDst) : Res State := do
  match ← s.reach va true false with
  | .home h _ =>
    let len := widthBytes w
    if s.loadBehind (spansOf va.toNat len (some h)) then s.sendRef setL va dst (.loadLate w sgn) false
    else match s.bufferedBytes s.cur s.serial h len with
      | some bytes =>
        let (id, t) := s.enter setL va.toNat len (some h) true
        pure (t.forward t.cur id t.me.gen h w sgn dst bytes)
      | none => s.sendRef setL va dst (.load w sgn) false
  | _ => s.sendRef setL va dst (.load w sgn) false

/-- A plain store: into the store buffer, or parked on its page's fault entry (R329, R389). -/
def State.storeLocal (s : State) (va : Word) (bytes : List Byte) : Res State := do
  match ← s.reach va false true with
  | .home h _ =>
    if 32 ≤ (s.core (coreOf s.cur)).sb.length then .error (.wait .other)
    else
      let (id, t) := s.enter setS va.toNat bytes.length (some h) true
      let e : SbEntry := {
        id := id, slot := t.cur, gen := t.me.gen, va := va, home := h, bytes := bytes, readers := [] }
      pure (t.modCore (coreOf t.cur) fun c => { c with sb := c.sb ++ [e] })
  | _ => s.sendRef setS va .none (.store bytes) false

/-! ### Ends -/

/-- A reference that has no register ends without effect: the slot takes the reduction-fatal trap with its address (R186,
R395). -/
def State.discardRef (s : State) (r : Ref) : State := (s.perform r.id).post r.slot r.gen 18 r.va

/-- Another part of the same instruction is still on its way or parked. -/
def State.morePart (s : State) (id : Nat) : Bool :=
  s.refs.any (·.id == id) || s.isles.any fun e => e.2.faults.any fun f => f.2.parked.any fun p => match p.what with
    | .ref r => r.id == id
    | _ => false

/-- The last part of a vector store is applied or discarded (R275). -/
def State.vstoreDone (s : State) (r : Ref) : State :=
  if s.morePart r.id then s else (s.perform r.id).redDown r.slot r.gen

/-! ### A resumed leaf (R355, R357) -/

/-- The first `n` event numbers of a word's low bytes (R355, R359). -/
def eventBytes (w : Word) (n : Nat) : List Nat := (List.range n).map fun i => (w.extractLsb' (8 * i) 8).toNat

/-- Wait and set events of leaf word 1 (R355). -/
def waitEvents (w : Word) : List Nat := eventBytes w (Nat.min 4 (w.extractLsb' 48 3).toNat)
def setEvents (w : Word) : List Nat := eventBytes (w >>> 32) (Nat.min 2 (w.extractLsb' 51 2).toNat)

/-- The slot has its leaf, or the reason why it has not: the registers are restored and it may issue; a pending trap takes the
place of words that were denied or could not be read (R357). DEDUCED: log entry 26. -/
def State.leafDone (s : State) (slot : Nat) (r : LeafRead) (lost : Option (Nat × Word)) : State :=
  let w := fun i => r.words.getD i 0
  s.modSlot slot fun u =>
    let u := { u with
      pc := w 0 &&& ~~~0x38#64, setEv := setEvents (w 1), reading := none, wait := .none, pend := u.pend ++ lost.toList }
    let u := (List.range 6).foldl (fun u i =>
      let n := (regField r.regs i).toNat
      if n = 0 then u else u.setXCell (xIndex 0 n) (.full (w (2 + i)))) u
    (List.range (r.words.length - 8)).foldl (fun u i => u.setXCell (xIndex 0 (24 + i)) (.full (w (8 + i)))) u

/-- A resumed leaf cannot be read. -/
def State.leafLost (s : State) (slot : Nat) (gen : BitVec 8) (cause : Nat) (va : Word) : State :=
  match (if s.lives slot gen then (s.slot slot).reading else none) with
  | some r => s.leafDone slot r (some (cause, va))
  | none => s

/-- A parked or released reference ends FATAL, or because its page denies it (R394, R395); `denied` changes the mark of a
PARK leaf (R169). DEDUCED: log entry 17. -/
def State.failRef (s : State) (denied : Bool) (r : Ref) : State :=
  match r.op with
  | .touch _ _ => (s.perform r.id).redDown r.slot r.gen
  | .store _ => (s.discardRef r).redDown r.slot r.gen
  | .stf _ => (s.discardRef r).redDown r.slot r.gen
  | .purge => (s.discardRef r).redDown r.slot r.gen
  | .atom _ _ _ _ ret =>
    if ret then (s.perform r.id).replyFatal r.slot r.gen r.dst else (s.discardRef r).redDown r.slot r.gen
  | .park no => (s.perform r.id).leafWaiting no (some (if denied then 13 else 15, r.va))
  | .vstore _ todo =>
    let first := match todo with
      | (_, a, _) :: _ => BitVec.ofNat 64 a
      | [] => r.va
    (s.post r.slot r.gen 18 first).vstoreDone r
  | .tagset _ _ done _ _ => (s.perform r.id).reply r.slot r.gen r.dst (BitVec.ofNat 64 (2 ^ 63 + done))
  | .record (.leaf _) _ => (s.perform r.id).leafLost r.slot r.gen (if denied then 13 else 15) r.va
  | .record (.mxsend _) _ => ((s.perform r.id).perform (r.id + 1)).replyFatal r.slot r.gen r.dst
  | _ => (s.perform r.id).replyFatal r.slot r.gen r.dst

/-- The address that a released reference translates: the word a TAGSET has come to, or its own. -/
def Ref.at_ (r : Ref) : Word :=
  match r.op with
  | .tagset _ _ _ low _ => r.va + BitVec.ofNat 64 (8 * low)
  | .vload _ _ ((_, a) :: _) _ => BitVec.ofNat 64 a
  | .vstore _ ((_, a, _) :: _) => BitVec.ofNat 64 a
  | _ => r.va

/-- Put a reference on its way to a known home; one that is counted only while parked is uncounted (R389). -/
def State.resend (s : State) (r : Ref) (h isle : Nat) : State :=
  match r.op with
  | .touch _ _ => (s.perform r.id).redDown r.slot r.gen
  | .store _ => { s.redDown r.slot r.gen with refs := s.refs ++ [{ r with home := h, isle := isle, counted := false }] }
  | .stf _ => { s.redDown r.slot r.gen with refs := s.refs ++ [{ r with home := h, isle := isle, counted := false }] }
  | .purge => { s.redDown r.slot r.gen with refs := s.refs ++ [{ r with home := h, isle := isle, counted := false }] }
  | _ => { s with refs := s.refs ++ [{ r with home := h, isle := isle }] }

/-- The home of a released reference that must still translate, because no fault entry was free. -/
def unplaced : Nat := 2 ^ 60

/-- An access is found to name further words. -/
def State.addSpans (s : State) (id : Nat) (ws : List (Nat × Nat)) : State :=
  { s with accs := s.accs.map fun a => if a.id = id then { a with words := ws ++ a.words } else a }

/-- The words at a home that a released reference is now known to name; those of TAGSET and of vector references are found as
they go. -/
def Ref.homeWords (r : Ref) (h : Nat) : List (Nat × Nat) :=
  match r.op with
  | .tagset _ _ _ _ _ => []
  | .vload _ _ _ _ => []
  | .vstore _ _ => []
  | op => spansOf r.va.toNat op.len (some h)

/-- REPLAY releases one reference of a thread: it walks again, and goes to its home, parks again or ends (R390, R394). -/
def State.releaseRef (s : State) (r : Ref) : State :=
  let core := coreOf r.slot
  let isle := isleOf core
  let (loc, t) := s.walkReach (some core) isle (quireOf core) r.space r.at_.toNat r.op.needR r.op.needW 0 (whoOf r.tsid r.slot r.gen)
  match loc with
  | .home h i =>
    (t.addSpans r.id (r.homeWords h)).resend r h i
  | .deny => t.failRef true r
  | .fault i n => t.park i n (.ref r) r.op.needR r.op.needW
  | _ => { t with refs := t.refs ++ [{ r with home := unplaced }] }

/-! ### Reading at a home (R248, R417) -/

/-- How a reference meets its bytes: they may be accessed, they are refused by a scratchpad guard, or a word of them holds
an uncorrectable error. -/
inductive AtHome where
  | ok | refused | broken
deriving DecidableEq, Repr

/-- Check `len` bytes at a home for a thread of `slot`; `mends` is a write that clears an error. -/
def State.atHome (s : State) (slot : Nat) (gen : BitVec 8) (home len : Nat) (write mends : Bool) : AtHome × State :=
  match s.spRefused home len with
  | some (off, own) => (.refused, s.guardEvent slot gen home write own off)
  | none => if !mends && s.isBroken home len then (.broken, s.recordBroken home) else (.ok, s)

end Sys2Proof.Machine
end

