-- ==== Sys2Proof/Machine/Gather.lean ====
section
/-! DEFINITION. The sender's side of remote access: routes, elements and gathering buffers, requests, covering points
(R198 to R200, R208 to R222, R240). -/

namespace Sys2Proof.Machine

/-! ### Routes and connections (R198, R199, R229) -/

def destOf (va : Word) : Nat := bitsNat 54 43 va.toNat
def offOf (va : Word) : Nat := bitsNat 42 0 va.toNat

/-- The route entry of a package: reach, isle, strait, channel (R199). -/
def State.route (s : State) (p : Nat) : Nat := tget 0 s.froute p
def State.reachBit (s : State) (p : Nat) : Bool := (s.route p).testBit 15
def State.egress (s : State) (p : Nat) : Nat := bitsNat 14 11 (s.route p)
/-- Channel number: twice the package strait, plus 1 for channel B. -/
def State.channel (s : State) (p : Nat) : Nat := 2 * (8 * s.egress p + bitsNat 10 8 (s.route p)) + bitsNat 7 7 (s.route p)

/-- The package holds a key of the job (R198). -/
def State.hasKey (s : State) (job : Nat) : Bool := s.keys.any fun k => k.1 == job

/-- A reference of a job to a package can leave the sender (R198, R200, R240). -/
def State.canReach (s : State) (p job : Nat) : Bool := p == s.fpkg || (s.reachBit p && s.hasKey job)

/-- Live lanes of a channel: those of its agreed mask that have not lost light since; every lane is lit at first (R231). -/
def State.laneMask (s : State) (ch : Nat) : BitVec 16 := tget 0xFFFF s.lanes ch &&& ~~~(tget 0 s.laneLoss ch)
def State.channelUp (s : State) (ch : Nat) : Bool := decide (4 ≤ popCount (s.laneMask ch).toNat 16)

/-- Epochs of a job's keys, oldest first. -/
def State.epochsOf (s : State) (job : Nat) : List Nat := (s.keys.filter fun k => k.1 == job).map fun k => k.2.1

/-- A connection at its first use. -/
def State.newConn (s : State) (peer job : Nat) : Conn where
  peer := peer
  job := job
  st := if peer = s.fpkg || s.channelUp (s.channel peer) then .up else .hold
  since := s.cyc
  used := false
  epoch := (s.epochsOf job).headD 0
  nextSeq := 0
  ackCtr := 0
  queue := []
  replay := []
  exhausted := false
  rate := 256
  sawAck := false
  sawEcho := false
  periodAt := s.cyc
  lastRate := 0
  rxExpected := 0
  rxEpoch := (s.epochsOf job).headD 0
  rxAcks := []
  peerAdv := []
  owesAck := false
  owesNak := false
  nakAt := 0
  echoDue := false

def State.conn? (s : State) (peer job : Nat) : Option Conn := s.conns.find? fun c => c.peer == peer && c.job == job
def State.conn (s : State) (peer job : Nat) : Conn := (s.conn? peer job).getD (s.newConn peer job)

/-- Change a connection, opening it at its first use. -/
def State.modConn (s : State) (peer job : Nat) (f : Conn → Conn) : State :=
  if (s.conn? peer job).isSome then
    { s with conns := replaceFirst (fun c => c.peer == peer && c.job == job) f s.conns }
  else { s with conns := s.conns ++ [f (s.newConn peer job)] }

/-- A connection that comes into use, again after it was closed: no sequence is used twice under a key, and one whose sequence is
exhausted stays in HOLD (R238); a new start is made where its epoch is gone. -/
def State.openConn (s : State) (c : Conn) : Conn :=
  if c.used then c
  else
    let n := s.newConn c.peer c.job
    let keep := (s.epochsOf c.job).contains c.epoch
    let spent := keep && c.exhausted
    { c with
      used := true, st := if spent then .hold else n.st, exhausted := spent, since := s.cyc, rate := 256, sawAck := false, sawEcho := false, periodAt := s.cyc, lastRate := 0
      epoch := if keep then c.epoch else n.epoch
      nextSeq := if keep then c.nextSeq else 0
      ackCtr := if keep then c.ackCtr else 0 }

/-- Queue a packet on its connection. -/
def State.pushPkt (s : State) (dest job : Nat) (p : OutPkt) : State :=
  s.modConn dest job fun c => { s.openConn c with queue := c.queue ++ [p] }

/-! ### Gathering buffers (R214 to R216) -/

/-- Seal the OPEN buffers of an isle that satisfy `q`: each joins its connection's queue, and stays in use until it is
framed (R214, R215). -/
def State.sealWhere (s : State) (isle : Nat) (q : GBuf → Bool) : State :=
  let mine := fun (b : GBuf) => decide (b.st = .open_) && q b
  let t := ((s.isle isle).gbufs.filter mine).foldl (fun s b => s.pushPkt b.dest b.job {
    pkt := .gathered (b.els.map (·.el)), shadow := b.els, slot := 0, gen := 0, dst := .none, sgn := false, settled := false }) s
  let close := fun (b : GBuf) => { b with st := if (t.conn b.dest b.job).st = .up then GSt.sealed_ else GSt.held }
  t.modIsle isle fun i => { i with gbufs := i.gbufs.map fun b => if mine b then close b else b }

/-- A buffer holds an element of the slot. -/
def GBuf.holds (b : GBuf) (k : Nat) (gen : BitVec 8) : Bool := b.els.any fun e => e.slot == k && decide (e.gen = gen)

/-- Seal every buffer that holds an element of the slot (R215, R219). -/
def State.sealSlot (s : State) (k : Nat) : State :=
  s.isles.foldl (fun t e => t.sealWhere e.1 fun b => b.holds k (s.slot k).gen) s

/-- Seal the buffers of one connection that hold an element of the slot (R208). -/
def State.sealFor (s : State) (k dest job : Nat) : State :=
  s.isles.foldl (fun t e => t.sealWhere e.1 fun b => b.dest == dest && b.job == job && b.holds k (s.slot k).gen) s

/-- The isle at whose buffers an element of a slot collects (R200, R212). -/
def State.gatherIsle (s : State) (k dest : Nat) : Nat := if dest = s.fpkg then isleOf (coreOf k) else s.egress dest

/-! ### The remote fault record (R222) -/

def rfCount (st : Word) : Nat := (st.extractLsb' 32 32).toNat

/-- A failed element is entered in the slot's record; a stale generation is discarded (R222, R397). -/
def State.rfAdd (s : State) (k : Nat) (gen : BitVec 8) (va : Word) (op : BitVec 6) (status : Nat) : State :=
  if s.lives k gen then
    s.modSlot k fun t =>
      let n := rfCount t.rfst
      let seen : Word := BitVec.ofNat 64 (2 ^ (8 + status))
      if n = 0 then { t with
        rfva := va &&& 0x00FFFFFFFFFFFFF8#64
        rfst := BitVec.ofNat 64 (2 ^ 32 + op.toNat * 2 ^ 16 + status) ||| seen }
      else { t with rfst := (if n = 2 ^ 32 - 1 then t.rfst else t.rfst + BitVec.ofNat 64 (2 ^ 32)) ||| seen }
  else s

/-! ### Elements (R212, R213, R217) -/

/-- Byte enables and value of an access of `len` bytes in its word. -/
def elemOf (op : BitVec 6) (va : Word) (len : Nat) (v : Word) : Elem where
  op := op
  be := BitVec.ofNat 8 ((2 ^ len - 1) * 2 ^ (va.toNat % 8))
  off := BitVec.ofNat 40 (offOf va / 8)
  value := BitVec.ofNat 64 (v.toNat % 2 ^ (8 * len) * 2 ^ (8 * (va.toNat % 8)))

/-- Gathering buffers of an isle. -/
def gbufCap : Nat := 128

/-- Elements of the core that have left it for the isle must still wait in the mesh, as no buffer is OPEN or FREE: its next one
cannot leave (R214). The mesh takes one element of a core then. DEDUCED: log entry 42. -/
def State.meshFull (s : State) (isle core : Nat) : Bool :=
  let i := s.isle isle
  decide (gbufCap ≤ i.gbufs.length + i.gwait.length) && !i.gbufs.any (fun b => decide (b.st = .open_))
    && s.elemsOut.any fun e => e.1 == isle && coreOf e.2.1.slot == core

/-- A store or reduction to a global address leaves the core as an element (R212, R217, R240). A reduction counts until
its element is accepted in a buffer (R184). -/
def State.sendElem (s : State) (va : Word) (len : Nat) (op : BitVec 6) (v : Word) : Res State :=
  let job := (s.slotSet s.cur).job
  let dest := destOf va
  if !s.canReach dest job then .ok (s.rfAdd s.cur s.me.gen va op 3)
  else if 4096 ≤ s.me.queued + s.me.unacked then .error (.wait .other)
  else if s.manyAhead s.serial s.cur s.me.gen [farSpan va] then .error (.wait .other)
  else if s.meshFull (s.gatherIsle s.cur dest) (coreOf s.cur) then .error (.wait .other)
  else do
    if op ≠ 0 then s.redRoom else pure ()
    let s := if op ≠ 0 then s.redUp s.cur else s
    let e : ShElem := {
      el := elemOf op va len v, slot := s.cur, gen := s.me.gen, va := va, at_ := 0 }
    let s := s.modSlot s.cur fun t => { t with queued := t.queued + 1 }
    pure { s with elemsOut := s.elemsOut ++ [(s.gatherIsle s.cur dest, e, dest, job)] }

/-! ### Requests (R208, R209, R211) -/

/-- The register number in the return tag of a probe, which has no register (R227). DESIGN CHOICE: log entry 41. -/
def probeReg : Nat := 0

/-- The return tag of a request of the issuing slot. -/
def State.tagFor (s : State) (reg : Nat) : RetTag where
  core := coreOf s.cur
  slot := slotNo s.cur
  gen := s.me.gen.toNat
  reg := reg

/-- Queue a request behind the slot's elements of its connection. -/
def State.sendRequest (s : State) (dest job reg : Nat) (dst : RetDst) (off : Nat) (op : RemOp) (sgn : Bool) : State :=
  let s := s.sealFor s.cur dest job
  s.pushPkt dest job {
    pkt := .request (s.tagFor reg) off op, shadow := [], slot := s.cur, gen := s.me.gen, dst := dst, sgn := sgn, settled := false }

/-- An element, with its connection, is one of a slot for a connection. -/
def elemOfConn (k : Nat) (gen : BitVec 8) (dest job : Nat) (e : ShElem × Nat × Nat) : Bool :=
  e.1.slot == k && decide (e.1.gen = gen) && e.2.1 == dest && e.2.2 == job

/-- An element of the slot for this connection, of those given or promised a buffer, comes before what the slot sends there next. -/
def State.elemsAhead (s : State) (out : List (Nat × ShElem × Nat × Nat)) (k : Nat) (gen : BitVec 8) (dest job : Nat) : Bool :=
  out.any (fun e => elemOfConn k gen dest job e.2) || s.isles.any fun i => i.2.gwait.any (elemOfConn k gen dest job)

/-- An element of the slot for this connection is still on its way to a buffer, so a request behind it waits. -/
def State.elemsBefore (s : State) (k : Nat) (gen : BitVec 8) (dest job : Nat) : Bool := s.elemsAhead s.elemsOut k gen dest job

/-- A remote load, atomic or agent operation; `op` is the request, `probe` what a touch sends in its place. -/
def State.remote (s : State) (d : Dst) (va : Word) (op probe : RemOp) (sgn : Bool) : Res State :=
  let job := (s.slotSet s.cur).job
  let dest := destOf va
  if s.elemsBefore s.cur s.me.gen dest job || s.manyAhead s.serial s.cur s.me.gen [farSpan va] then .error (.wait .other)
  else if d = 0 then do
    s.redRoom
    if s.canReach dest job then pure ((s.redUp s.cur).sendRequest dest job probeReg .none (offOf va) probe false)
    else pure s
  else do
    let j := xIndex s.me.wstate d.toNat
    let t ← s.emptyXj j
    if s.canReach dest job then pure (t.sendRequest dest job ((RetDst.reg j).number s.me.wstate) (.reg j) (offOf va) op sgn)
    else pure (t.replyFatal t.cur t.me.gen (.reg j))

/-! ### Covering points (R219) -/

/-- A connection that is DOWN and holds an element of the slot, in a buffer or sent and without its status. -/
def State.downFor (s : State) (k : Nat) : Option Nat :=
  let gen := (s.slot k).gen
  (s.conns.find? fun c => decide (c.st = .down) &&
    ((c.queue.any fun p => p.shadow.any fun e => e.slot == k && decide (e.gen = gen)) ||
     c.replay.any fun f => f.pkts.any fun p => !p.settled && p.shadow.any fun e => e.slot == k && decide (e.gen = gen))).map
       (·.peer)

/-- How a covering point stands: the path-down trap, still waiting, the remote-element-fault trap, or passed. -/
inductive Cover where
  | down (peer : Nat) | waits | faulted (v : Word) | done
deriving DecidableEq, Repr

/-- A covering point of slot `k`, once its buffers are sealed. -/
def State.cover (s : State) (k : Nat) : Cover :=
  let t := s.slot k
  if t.queued = 0 ∧ t.unacked = 0 then (if rfCount t.rfst ≠ 0 then .faulted t.rfst else .done)
  else match s.downFor k with
    | some p => .down p
    | none => .waits

/-- A covering point of an instruction: it seals and waits, and may trap (R219); in a handler its traps stay pending
(R377). -/
def State.coverPoint (s : State) : Res Unit :=
  let t := s.sealSlot s.cur
  match t.cover s.cur with
  | .down p => .error (if s.me.inh then .waitWith t .other else .asyncWith t 20 (BitVec.ofNat 64 p))
  | .waits => .error (.waitWith t .other)
  | .faulted v => if s.me.inh then .ok () else .error (.asyncTrap 19 v)
  | .done => .ok ()

/-- The request of a register waits on a connection that is DOWN (R210): the peer. -/
def State.downReg (s : State) (k j : Nat) : Option Nat :=
  let gen := (s.slot k).gen
  let mine := fun (p : OutPkt) => !p.settled && p.slot == k && decide (p.gen = gen) && decide (p.dst = .reg j)
  (s.conns.find? fun c => decide (c.st = .down) && (c.queue.any mine || c.replay.any fun f => f.pkts.any mine)).map (·.peer)

end Sys2Proof.Machine
end

