-- ==== Sys2Proof/Machine/Fetch.lean ====
section
/-! DEFINITION. Fetch lines, the code buffer, entry checks, pairs, and what an issue fetches (R24 to R35, R43 to R45). -/

namespace Sys2Proof.Machine

/-! ### Lines (R24, R25) -/

def CodeLine.word (l : CodeLine) : BitVec 32 := l.bytes.extractLsb' 0 32
/-- The 96 bits of instruction `i`. -/
def CodeLine.ins (l : CodeLine) (i : Nat) : BitVec 96 := l.bytes.extractLsb' (32 + 96 * i) 96
def CodeLine.entry (l : CodeLine) (i : Nat) : Bool := l.word.getLsbD i
def CodeLine.pair (l : CodeLine) (i : Nat) : Bool := decide (i < 4) && l.word.getLsbD (5 + i)
/-- The line word's own parity holds, and that of instruction `i` (R25). -/
def CodeLine.wordOk (l : CodeLine) : Bool := l.word.getLsbD 31 == parityNat 26 l.word.toNat
def CodeLine.insOk (l : CodeLine) (i : Nat) : Bool := l.word.getLsbD (26 + i) == parityNat 96 (l.ins i).toNat
/-- The instructions that an issue from slot `k` of the line takes (R29). -/
def CodeLine.issued (l : CodeLine) (k : Nat) : List Nat := if l.pair k then [k, k + 1] else [k]
/-- The checks of R34 for the given instructions. -/
def CodeLine.passes (l : CodeLine) (is : List Nat) : Bool := l.wordOk && is.all l.insOk

/-! ### The code buffer (R35) -/

def Quire.lineAt (q : Quire) (space line : Nat) : Option CodeLine :=
  q.code.find? fun l => l.space == space && l.line == line

/-- Place a line at the recent end: a full buffer of 8,192 lines gives up a bad line, else its least recent.
DESIGN CHOICE: log entry 67. -/
def Quire.placeLine (q : Quire) (l : CodeLine) : Quire :=
  let rest := q.code.filter fun m => !(m.space == l.space && m.line == l.line)
  let rest := if rest.length < 8192 then rest
    else if rest.any (·.bad) then removeFirst (·.bad) rest else rest.dropLast
  { q with code := l :: rest }

/-- Mark a line as the most recently issued from. -/
def Quire.touchLine (q : Quire) (l : CodeLine) : Quire :=
  { q with code := l :: q.code.filter fun m => !(m.space == l.space && m.line == l.line) }

/-- Change the line with these tags. -/
def Quire.modLine (q : Quire) (space line : Nat) (f : CodeLine → CodeLine) : Quire :=
  { q with code := q.code.map fun l => if l.space = space ∧ l.line = line then f l else l }

/-- The space and quire of the issuing slot. -/
def State.mySpace (s : State) : Nat := (s.slotSet s.cur).space
def State.myQuire (s : State) : Nat := quireOf (coreOf s.cur)

/-- A PC that cannot be fetched raises the address trap (R35, R28). -/
def pcAddr (pc : Word) : Res Unit :=
  if !topOk pc || isGlobal pc || inWindow pc.toNat then .error (.trap 11 pc) else .ok ()

/-- The line at `pc`, from the code buffer: a miss asks for it, a fill that ended in a fault traps (R28, R35). -/
def State.lineFor (s : State) (pc : Word) : Res CodeLine := do
  pcAddr pc
  match (s.quire s.myQuire).lineAt s.mySpace (pcLine pc) with
  | some l => .ok l
  | none =>
    match s.codeFills.find? fun f => f.slot == s.cur && decide (f.gen = s.me.gen) && decide (f.pc = pc) && f.ended.isSome with
    | some f => .error (.trap (f.ended.getD 0) pc)
    | none => .error (.fetch { slot := s.cur, gen := s.me.gen, space := s.mySpace, pc := pc, ended := none })

/-- The check of a transfer's destination (R28). -/
def State.checkEntry (s : State) (t : Word) : Res Unit := do
  if !pcOk t then .error (.trap 2 t)
  else do
    let l ← s.lineFor t
    if !l.again.isEmpty then .error (.wait .other)
    else if l.entry (pcSlot t) then .ok () else .error (.trap 2 t)

/-! ### Pairs (R30, R31, R43) -/

/-- The issue groups: scalar, memory, vector, engine, control, solo (R43). -/
inductive Grp where
  | s | m | v | x | c | f
deriving DecidableEq, Repr

def groupOf (op : Nat) : Grp :=
  if 0x040 ≤ op ∧ op ≤ 0x065 ∨ 0x080 ≤ op ∧ op ≤ 0x084 ∨ op = 0x000 ∨ 0x008 ≤ op ∧ op ≤ 0x00F ∨ 0x014 ≤ op ∧ op ≤ 0x018
      ∨ op = 0x108 ∨ op = 0x1A4 then .s
  else if 0x0A0 ≤ op ∧ op ≤ 0x0AA ∨ 0x0C0 ≤ op ∧ op ≤ 0x0D5 ∨ 0x0E2 ≤ op ∧ op ≤ 0x0E7 ∨ op = 0x106 ∨ op = 0x107 then .m
  else if 0x122 ≤ op ∧ op ≤ 0x149 then .v
  else if 0x102 ≤ op ∧ op ≤ 0x105 ∨ op = 0x109 ∨ 0x161 ≤ op ∧ op ≤ 0x16A ∨ op = 0x16C ∨ op = 0x16D then .x
  else if 0x001 ≤ op ∧ op ≤ 0x005 ∨ 0x010 ≤ op ∧ op ≤ 0x012 then .c
  else .f

/-- Operand numbers as a pair check names them: 0 to 63, and 64 + n for predicate n. -/
def predNo (n : Nat) : Nat := 64 + n

/-- The destination names a predicate; the first two sources name predicates. -/
def dstIsP (op : Nat) : Bool := decide (0x008 ≤ op ∧ op ≤ 0x00E ∨ op = 0x05F ∨ op = 0x060 ∨ op = 0x0A9)
def srcIsP (op : Nat) : Bool := decide (0x008 ≤ op ∧ op ≤ 0x00E)

/-- A run of `k` registers from number `r`. -/
def runOf (r k : Nat) : List Nat := (List.range k).map (r + ·)

/-- Registers of the groups of R267: of the destination and of the first source. -/
def groupSizes (r : Raw) : Nat × Nat :=
  let op := r.opcode.toNat
  let tf := fmtWidth (Fmt.ofCode (r.cmpl.extractLsb' 4 4))
  let sf := fmtWidth (Fmt.ofCode (r.cmpl.extractLsb' 0 4))
  if op = 0x141 then (if sf < tf then (tf / sf, 1) else (1, sf / tf))
  else if op = 0x142 then (1, sf / tf)
  else if op = 0x143 ∨ op = 0x144 then (2, 1)
  else (1, 1)

/-- The accumulator a matrix instruction names, with whether it reads and writes it (R305, R307). -/
def accOf (r : Raw) : List (Nat × Bool × Bool) :=
  let a := 48 + (r.low.extractLsb' 22 3).toNat
  match r.opcode.toNat with
  | 0x165 => [(a, false, true)]
  | 0x166 => [(a, true, true)]
  | 0x167 => [(a, true, false)]
  | 0x168 => [(a, false, true)]
  | 0x169 => [(48 + (r.low.extractLsb' 32 3).toNat, true, true)]
  | _ => []

/-- The source fields of an encoding as (number, killed); MOVI has none. -/
def srcFields (r : Raw) : List (Nat × Bool) :=
  let op := r.opcode.toNat
  let f := fun (p : Bool) (b : BitVec 8) (k : Nat) =>
    (runOf ((if p then predNo 0 else 0) + (b.extractLsb' 0 6).toNat) k).map fun n => (n, b.getLsbD 6)
  if op = 0x063 ∨ 0x080 ≤ op ∧ op ≤ 0x082 then []
  else f (srcIsP op) r.s1 (groupSizes r).2 ++ f (srcIsP op) r.s2 1 ++ f (decide (op = 0x061)) r.s3 1

/-- The register that CWRES, REGST or KILL names. -/
def namedReg (r : Raw) : List Nat :=
  let n := (r.s1.extractLsb' 0 6).toNat
  let p := if r.opcode.toNat = 0x080 then decide (r.cmpl.extractLsb' 0 2 = 1) else r.cmpl.getLsbD 0
  if r.opcode.toNat = 0x080 ∧ r.cmpl.extractLsb' 0 2 = 2 then [] else [(if p then predNo n else n)]

/-- Registers that always read as a constant are no part of a dependence. -/
def realReg (n : Nat) : Bool := decide (n ≠ 0 ∧ n ≠ predNo 0)

/-- What an instruction reads (R31). The register that CWRES or REGST names counts as a read; CWRES.all and REGMAP, which name none,
read nothing. DESIGN CHOICE: log entry 62. -/
def readsOf (r : Raw) : List Nat :=
  let op := r.opcode.toNat
  let named := if op = 0x080 ∨ op = 0x081 then namedReg r else []
  (predNo (r.pred.extractLsb' 0 3).toNat :: named ++ (srcFields r).map (·.1)
    ++ ((accOf r).filter (·.2.1)).map (·.1)).filter realReg

/-- What an instruction writes or kills (R31). Registers are compared by the number in the instruction, also the link that CALL and
CALLX write in the new window. DESIGN CHOICE: log entry 62. -/
def writesOf (r : Raw) : List Nat :=
  let op := r.opcode.toNat
  let d := runOf ((if dstIsP op then predNo 0 else 0) + r.dst.toNat) (groupSizes r).1
  let killed := if op = 0x082 then namedReg r else []
  (d ++ killed ++ ((srcFields r).filter (·.2)).map (·.1) ++ ((accOf r).filter (·.2.2)).map (·.1)).filter realReg

def isPortNo (n : Nat) : Bool := decide (56 ≤ n ∧ n < 60)

/-- Members A and B are dependent (R31). -/
def dependent (a b : Raw) : Bool :=
  (readsOf b ++ writesOf b).any (fun n => !isPortNo n && (writesOf a).contains n)
    || ((readsOf a ++ writesOf a).any isPortNo && (readsOf b ++ writesOf b).any isPortNo)

/-- The groups permit the pair (R30). -/
def pairable (a b : Grp) : Bool :=
  (a == .s || a == .m || a == .v || a == .x) && (b != .f) && (a != b)

/-- The pair check of R32. -/
def pairOk (a b : BitVec 96) : Bool :=
  pairable (groupOf (rawOf a).opcode.toNat) (groupOf (rawOf b).opcode.toNat) && !dependent (rawOf a) (rawOf b)

/-! ### Issue (R29, R34, R45) -/

/-- What one issue executes. -/
structure Issue where
  a : Instr
  b : Option Instr
deriving DecidableEq, Repr

/-- The decoding checks from the line's slot `k` on, in the order of R45 steps 2 to 5. -/
def CodeLine.decode (l : CodeLine) (k : Nat) (pc : Word) : Res Issue :=
  if l.word.extractLsb' 9 17 ≠ 0 then .error (.trap 1 5)
  else match decodeWord (l.ins k) with
    | .error e => .error (.trap 1 (BitVec.ofNat 64 (detailOf e)))
    | .ok a =>
      if l.pair k then
        match decodeWord (l.ins (k + 1)) with
        | .error _ => .ok ⟨a, none⟩
        | .ok b => if pairOk (l.ins k) (l.ins (k + 1)) then .ok ⟨a, some b⟩ else .error (.trap 3 pc)
      else .ok ⟨a, none⟩

/-- The parity checks, the entry check of a first issue, and the decoding checks, on a line that is held (R34, R45). -/
def State.issueFrom (s : State) (l : CodeLine) : Res Issue :=
  let t := s.me
  let k := pcSlot t.pc
  let used := l.issued k
  if !l.again.isEmpty then .error (.wait .fetch)
  else if l.bad then .error (.trap 4 t.pc)
  else if !l.passes used then
    .error (.waitWith (s.modQuire s.myQuire fun q => q.modLine l.space l.line fun m => { m with again := used }) .fetch)
  else if (t.entryDue || t.handlerDue) && !l.entry k then .error (.trap 2 t.pc)
  else l.decode k t.pc

/-- What the issuing slot fetches at its PC (R26, R29, R35). -/
def State.fetch (s : State) : Res Issue := do
  if !pcOk s.me.pc then .error (.trap 2 s.me.pc)
  else do
    let l ← s.lineFor s.me.pc
    s.issueFrom l

/-- The code buffer after an issue: its line is the most recent one. -/
def State.usedLine (s : State) : State :=
  match (s.quire s.myQuire).lineAt s.mySpace (pcLine s.me.pc) with
  | some l => s.modQuire s.myQuire fun q => q.touchLine l
  | none => s

/-! ### Waits that end in a trap (R136, R210) -/

/-- A register whose reply a wait on register j hangs on: j itself, or the one that its identifier is bound to (R136). -/
def State.awaited (s : State) (k j : Nat) : List Nat :=
  match s.boundAt k j with
  | none => [j]
  | some c => j :: (List.range 102).filter fun i => s.replyAt k i && s.boundAt k i == some c

/-- The connection that is DOWN under a wait on register j (R210). -/
def State.downUnder (s : State) (k j : Nat) : Option Nat := (s.awaited k j).findSome? (s.downReg k)

/-- The trap that ends the wait of slot `k` on the registers `js`, if one is due: an orphan or fatal one, or one whose
request is on a connection that is DOWN, while no handler runs (R136, R210). -/
def State.regsTrap (s : State) (k : Nat) (js : List Nat) : Option Stop :=
  match js.findSome? (s.blame k) with
  | some (c, i) => some (.trap c (waitValue (s.slot k).wstate i (s.codeAt k i)))
  | none =>
    if (s.slot k).inh then none
    else (js.findSome? (s.downUnder k)).map fun p => .asyncTrap 20 (BitVec.ofNat 64 p)

/-- The trap that ends the wait of the issuing slot, if one is due. -/
def State.waitTrap (s : State) : Option Stop := s.regsTrap s.cur s.me.wait.regList

/-- A fetch of the slot is parked on a fault entry. -/
def State.fetchParked (s : State) (k : Nat) : Bool :=
  s.isles.any fun e => e.2.faults.any fun f => f.2.parked.any fun p => match p.what with
    | .fetch g => g.slot == k
    | _ => false

/-- The condition that a slot waits for under its mark has ended (R76). A mark `.other` stands until the schedule clears it:
`State.clearMarks`. DEDUCED: log entry 7. -/
def State.waitOver (s : State) (k : Nat) : Bool :=
  let t := s.slot k
  match t.wait with
  | .none => true
  | .reg j => !s.pendingAt k j || (s.regsTrap k [j]).isSome
  | .regs js => !js.any (s.pendingAt k) || (s.regsTrap k js).isSome
  | .pairRegs js => !js.any (s.pendingAt k) || (s.regsTrap k js).isSome
  | .port p => (s.portWord k p).isSome
  | .fetch => !(s.codeFills.any fun f => f.slot == k && decide (f.gen = t.gen) && f.ended.isNone) && !s.fetchParked k
      && !((s.quire (quireOf (coreOf k))).code.any fun l =>
        l.space == (s.slotSet k).space && l.line == pcLine t.pc && !l.again.isEmpty)
  | .tlb => !s.walks.any fun w => w.slot == k && decide (w.gen = t.gen)
  | .leaf => false
  | .other => false

/-- A slot is ACTIVE. -/
def isActive : SlotSt → Bool
  | .active => true
  | _ => false

/-- A wait of BAR, EVWAIT or TWAIT has found its status. DEDUCED: log entry 58. -/
def stallDone : Stall → Bool
  | .bar _ st => st.isSome
  | .evwait _ _ _ st => st.isSome
  | .twait _ _ _ _ st => st.isSome
  | .none => false

/-- A pre-emption holds the slot (R365): not while a handler runs, nor while an instruction that has its status completes. -/
def Slot.held_ (t : Slot) : Bool := t.stopped && !t.inh && !stallDone t.stall

/-- A slot is ready (R76): ACTIVE, 8 clk after its last selection, not waiting, and not stopped by a pre-emption.
DEDUCED: log entry 7. -/
def State.ready (s : State) (k : Nat) : Bool :=
  let t := s.slot k
  isActive t.st && !t.held_ && decide (t.lastSel + 8 ≤ s.cyc) && s.waitOver k

/-! ### Selection (R77, R78) -/

/-- Current class of a slot; the ferry slot stands in class 3 (R74). DEDUCED: log entry 7. -/
def State.classOf (s : State) (k : Nat) : Nat := if slotNo k = 0 then 3 else (s.slot k).cls

/-- Ready slots of a core: those the table lists. -/
def State.readySlots (s : State) (core : Nat) : List Nat :=
  ((s.slots.filter fun e => coreOf e.1 == core && s.ready e.1).map (·.1))

/-- The highest class with a ready slot, searching down with fuel. -/
def topClass (cs : List Nat) : Nat := cs.foldl Nat.max 0

/-- SEL has made its pick on the core at this clock (R77). DEDUCED: log entry 7. -/
def State.pickedNow (s : State) (core : Nat) : Bool :=
  s.slots.any fun e => coreOf e.1 == core && decide (0 < s.cyc ∧ e.2.lastSel = s.cyc)

/-- The slot that SEL picks on a core at this clock, with its class (R77). DEDUCED: log entry 7. -/
def State.pick (s : State) (core : Nat) : Option (Nat × Nat) :=
  if s.pickedNow core then none else
  let rs := s.readySlots core
  let c := topClass (rs.map s.classOf)
  let cand := rs.filter fun k => s.classOf k == c
  let ptr := (s.core core).ptrs.getD c 0
  (match cand.find? fun k => decide (ptr < slotNo k) with
    | some k => some k
    | none => cand.head?).map fun k => (k, c)

/-- The state in which a picked slot issues: its selection is recorded (R77, R78). -/
def State.selected (s : State) (k c : Nat) : State :=
  let s := s.modCore (coreOf k) fun t => { t with ptrs := t.ptrs.set c (slotNo k) }
  let s := s.modSlot k fun t => { t with lastSel := s.cyc, age := 0, cls := t.baseCls }
  { s with cur := k }

end Sys2Proof.Machine
end

