-- ==== Sys2Proof/Machine/Issue.lean ====
section
/-! DEFINITION. Events of an issue: a pending asynchronous trap, an encoding that is no instruction, an ill-formed PC. -/

namespace Sys2Proof.Machine

/-- A pending trap is taken when the slot is selected: none while a handler runs, nor while the slot stands in an instruction
that has its status and completes first. DEDUCED: log entry 58. -/
def Slot.trapDue (t : Slot) : Bool := !t.pend.isEmpty && !t.inh && !stallDone t.stall

/-- ASYNC_TRAP_DELIVER (R380): its core selects the slot, and the lowest pending cause is taken at the PC about to issue. -/
def execAsyncTrapDeliver (slot : Nat) (s : State) : Host.Outcome State Fault Refusal :=
  .next (match s.pick (coreOf slot) with
    | some (k, c) => if k = slot ∧ (s.slot slot).trapDue ∧ s.phase = .up then (s.selected k c).takePending k else s
    | none => s)

/-- ILLEGAL_INSTRUCTION (R44): the issuing slot takes the trap with the detail code. -/
def execIllegalInstruction (detail : BitVec 8) (s : State) : Host.Outcome State Fault Refusal :=
  s.finish (.error (.trap 1 (detail.setWidth 64)))

/-- ILL_FORMED_PC_ISSUE (R26): nothing is fetched; the PC is the trap's value and EPC. -/
def execIllFormedPcIssue (s : State) : Host.Outcome State Fault Refusal :=
  .next (if pcOk s.me.pc then s else s.takeTrap s.cur false 2 s.me.pc s.me.pc)

end Sys2Proof.Machine
end

