-- ==== Sys2Proof/Machine/Tagged.lean ====
section
/-! DEFINITION. Loads, stores, synchronising operations, TAGRD and TAGSET at issue (R152 to R160, R168, R170). -/

namespace Sys2Proof.Machine

/-- A plain load into an x register: local, remote, or a touch (R155, R156, R208). -/
def State.loadAt (s : State) (d : Dst) (va : Word) (w : Width) (sgn : Bool) : Res State := do
  s.holdFor (setsOf va setL)
  addrCheck va (widthBytes w) false
  if isGlobal va then s.remote d va (.load w) (.probe true false false w) sgn
  else if d = 0 then s.touch setL va true false
  else do
    let j := xIndex s.me.wstate d.toNat
    let t ← s.emptyXj j
    t.loadLocal va w sgn (.reg j)

/-- A plain store: local, or an element (R157, R212). -/
def State.storeAt (s : State) (va : Word) (w : Width) (v : Word) : Res State := do
  s.holdFor (setsOf va setS)
  addrCheck va (widthBytes w) false
  if isGlobal va then s.sendElem va (widthBytes w) 0 v
  else s.storeLocal va (bytesOf (widthBytes w) v.toNat)

/-- A synchronising operation with a reply into an x register; a touch with x0 (R155, R158). -/
def State.syncAt (s : State) (sets : BitVec 5) (d : Dst) (va : Word) (op : RefOp) : Res State := do
  s.holdFor sets
  addrCheck va 8 true
  if d = 0 then s.touch sets va op.needR op.needW
  else do
    let j := xIndex s.me.wstate d.toNat
    let t ← s.emptyXj j
    t.sendRef sets va (.reg j) op false

/-- A synchronising operation without a reply. -/
def State.syncPlain (s : State) (va : Word) (op : RefOp) : Res State := do
  s.holdFor setS
  addrCheck va 8 true
  s.sendRef setS va .none op false

/-- An instruction with a base and a displacement. -/
def State.memOp (s : State) (g : Guard) (b : Src) (imm : BitVec 40) (f : State → Word → Res State) :
    Host.Outcome State Fault Refusal :=
  s.issue g do
    let (x, r) ← readX 0 b s.rd
    let t ← f (r.s.killXs [b]) (x + sext40 imm)
    pure t.advance

/-- An instruction with a base, a displacement and a data operand. -/
def State.memOpV (s : State) (g : Guard) (b v : Src) (imm : BitVec 40) (f : State → Word → Word → Res State) :
    Host.Outcome State Fault Refusal :=
  s.issue g do
    let (x, r) ← readX 0 b s.rd
    let (y, r) ← readX 1 v r
    let t ← f (r.s.killXs [b, v]) (x + sext40 imm) y
    pure t.advance

/-- LD (R156). -/
def execLd (g : Guard) (d : Dst) (b : Src) (w : Width) (sgn : Bool) (imm : BitVec 40) (s : State) :
    Host.Outcome State Fault Refusal := s.memOp g b imm fun t va => t.loadAt d va w sgn
/-- LDX (R154, R156). -/
def execLdx (g : Guard) (d : Dst) (b i : Src) (scale : BitVec 2) (w : Width) (sgn : Bool) (s : State) :
    Host.Outcome State Fault Refusal :=
  s.issue g do
    let (x, r) ← readX 0 b s.rd
    let (y, r) ← readX 1 i r
    let t ← (r.s.killXs [b, i]).loadAt d (x + y <<< scale.toNat) w sgn
    pure t.advance
/-- ST (R157). -/
def execSt (g : Guard) (b v : Src) (w : Width) (imm : BitVec 40) (s : State) : Host.Outcome State Fault Refusal :=
  s.memOpV g b v imm fun t va y => t.storeAt va w y
/-- STX (R154, R157). -/
def execStx (g : Guard) (b i v : Src) (scale : BitVec 2) (w : Width) (s : State) : Host.Outcome State Fault Refusal :=
  s.issue g do
    let (x, r) ← readX 0 b s.rd
    let (y, r) ← readX 1 i r
    let (z, r) ← readX 2 v r
    let t ← (r.s.killXs [b, i, v]).storeAt (x + y <<< scale.toNat) w z
    pure t.advance
/-- LDF (R158). -/
def execLdf (g : Guard) (d : Dst) (b : Src) (imm : BitVec 40) (s : State) : Host.Outcome State Fault Refusal :=
  s.memOp g b imm fun t va => t.syncAt setL d va .ldf
/-- LDFE (R158). -/
def execLdfe (g : Guard) (d : Dst) (b : Src) (imm : BitVec 40) (s : State) : Host.Outcome State Fault Refusal :=
  s.memOp g b imm fun t va => t.syncAt setL d va .ldfe
/-- STEF (R158). -/
def execStef (g : Guard) (d : Dst) (b v : Src) (imm : BitVec 40) (s : State) : Host.Outcome State Fault Refusal :=
  s.memOpV g b v imm fun t va y => t.syncAt setS d va (.stef y)
/-- STF (R158). -/
def execStf (g : Guard) (b v : Src) (imm : BitVec 40) (s : State) : Host.Outcome State Fault Refusal :=
  s.memOpV g b v imm fun t va y => t.syncPlain va (.stf y)
/-- PURGE (R158). -/
def execPurge (g : Guard) (b : Src) (imm : BitVec 40) (s : State) : Host.Outcome State Fault Refusal :=
  s.memOp g b imm fun t va => t.syncPlain va .purge
/-- TAGRD (R168). -/
def execTagrd (g : Guard) (d : Dst) (b : Src) (w : Bool) (imm : BitVec 40) (s : State) :
    Host.Outcome State Fault Refusal :=
  s.memOp g b imm fun t va => do
    t.holdFor setL
    addrCheck va 8 true
    if d = 0 then t.touch setL va true false
    else do
      let u ← t.emptyP d.toNat
      u.sendRef setL va (.reg (78 + d.toNat)) (.tagrd w) false

/-- The words that a TAGSET names by address; those it names by home are found as it goes (R160). -/
def State.tagsetWords (s : State) (id va n : Nat) : State := s.accWords id (if n = 0 then [] else [vaSpan va (8 * n)])

/-- TAGSET (R170): no word at all replies at once, and so does a range whose first page denies the write.
DESIGN CHOICE: log entry 37. -/
def execTagset (g : Guard) (d : Dst) (b l : Src) (full : Bool) (s : State) : Host.Outcome State Fault Refusal :=
  s.issue g do
    let (va, r) ← readX 0 b s.rd
    let (n, r) ← readX 1 l r
    let t := r.s.killXs [b, l]
    t.holdFor setS
    addrCheck va 8 true
    if 2 ^ 56 < va.toNat + 8 * n.toNat then .error (.trap 11 va) else pure ()
    let j := xIndex t.me.wstate d.toNat
    let t ← if d = 0 then pure t else t.emptyXj j
    let dst : RetDst := if d = 0 then .none else .reg j
    if n = 0 then pure (t.reply t.cur t.me.gen dst 0).advance
    else
      match t.sendRef setS va dst (.tagset full n.toNat 0 0 []) false with
      | .error (.trap 13 _) => pure (t.reply t.cur t.me.gen dst (BitVec.ofNat 64 (2 ^ 63))).advance
      | .error e => .error e
      | .ok t =>
        pure (t.tagsetWords (t.serial - 1) va.toNat (tagsetLen va.toNat n.toNat)).advance

end Sys2Proof.Machine
end

