-- ==== Sys2Proof/Machine/Thread.lean ====
section
/-! DEFINITION. Thread and control instructions at issue, and PARK (R80 to R101, R169). -/

namespace Sys2Proof.Machine

/-! ### Transfers and the window (R82 to R87) -/

/-- NOP (R81). -/
def execNop (g : Guard) (s : State) : Host.Outcome State Fault Refusal := s.issue g (pure s.advance)

/-- BR (R82). -/
def execBr (g : Guard) (disp : BitVec 40) (s : State) : Host.Outcome State Fault Refusal :=
  s.issue g do
    let t := branchTarget s.me.pc disp
    s.checkEntry t
    pure (s.jumpTo t)

/-- JMP (R82). -/
def execJmp (g : Guard) (t : Src) (s : State) : Host.Outcome State Fault Refusal :=
  s.issue g do
    let (pc, r) ← readX 0 t s.rd
    s.checkEntry pc
    pure ((r.s.killXs [t]).jumpTo pc)

/-- Register indices of octet `o` (R83, R367). -/
def octetRegs (o : Nat) : List Nat := (List.range 8).map fun r => 7 + 8 * o + r

/-- A register becomes DEAD, whatever it held; a binding on it ends. -/
def State.deadReg (s : State) (k j : Nat) : State :=
  let cw := match (s.slot k).xCell j with
    | .empty m => m.cw
    | _ => none
  (s.modSlot k fun t => t.setXCell j .dead).releaseCw k cw

def State.deadRegs (s : State) (k : Nat) (js : List Nat) : State := js.foldl (fun s j => s.deadReg k j) s

/-- The value of a window trap (R86). -/
def windowValue (depth k : Nat) (fold : Bool) : Word := BitVec.ofNat 64 (depth % 16 + k % 4 * 16 + if fold then 64 else 0)

/-- The slide of CALL and CALLX to destination `t` (R84). -/
def State.slideUp (s : State) (t : Word) (d : Dst) (k : Nat) : Res State := do
  s.checkEntry t
  let w := s.me.wstate
  let wb := wbOf w
  if 6 < depthOf w + k then .error (.trap 6 (windowValue (depthOf w) k false))
  else do
    let link := nextPc s.me.pc
    let tags := (List.range k).foldl (fun ts j => setTag ts ((wb + j) % 9) k) (tagsOf w)
    let wb' := (wb + k) % 9
    let new := (List.range k).flatMap fun i => octetRegs ((wb' + (3 - k) + i) % 9)
    let u := (s.modSlot s.cur fun u => { u with wstate := mkWstate tags (depthOf w + k) wb' }).deadRegs s.cur new
    let u ← u.put d link
    pure (u.jumpTo t)

/-- CALL (R84). -/
def execCall (g : Guard) (d : Dst) (slide : BitVec 2) (disp : BitVec 40) (s : State) : Host.Outcome State Fault Refusal :=
  s.issue g (s.slideUp (branchTarget s.me.pc disp) d slide.toNat)

/-- CALLX (R84): the destination is read in the old window. -/
def execCallx (g : Guard) (d : Dst) (t : Src) (slide : BitVec 2) (s : State) : Host.Outcome State Fault Refusal :=
  s.issue g do
    let (pc, r) ← readX 0 t s.rd
    (r.s.killXs [t]).slideUp pc d slide.toNat

/-- RET (R85). -/
def execRet (g : Guard) (t : Src) (s : State) : Host.Outcome State Fault Refusal :=
  s.issue g do
    let (pc, r) ← readX 0 t s.rd
    s.checkEntry pc
    let u := r.s.killXs [t]
    let w := u.me.wstate
    let wb := wbOf w
    if depthOf w = 0 then .error (.trap 7 0)
    else if !u.me.fills.isEmpty then .error (.wait .other)
    else do
      let k := tagOf w ((wb + 8) % 9)
      if depthOf w < k then .error (.trap 7 (windowValue (depthOf w) k false))
      else do
        let gone := (List.range k).flatMap fun i => octetRegs ((wb + 3 - k + i) % 9)
        u.waitRegs gone
        let v := (u.deadRegs u.cur gone).modSlot u.cur fun v => { v with
          wstate := mkWstate (tagsOf w) (depthOf w - k) ((wb + 9 - k) % 9) }
        pure (v.jumpTo pc)

/-- The value a register is stored as: DEAD is 0 (R87, R91). -/
def cellWord (c : XCell) : Word :=
  match c with
  | .full v => v
  | _ => 0

/-- The nine words of octet `o` (R87). -/
def Slot.octetWords (t : Slot) (o : Nat) : List Word :=
  let regs := octetRegs o
  let st := (List.range 8).map fun j => stateCode (t.xCell (7 + 8 * o + j)) * 4 ^ j
  regs.map (fun j => cellWord (t.xCell j)) ++ [BitVec.ofNat 64 (st.sum + tagOf t.wstate o * 2 ^ 16)]

/-- The addresses of nine words from `va` (R87, R154). -/
def nineAddrs (va : Word) : List Word := (List.range 9).map fun i => va + BitVec.ofNat 64 (8 * i)

/-- Check every word of an octet image. -/
def checkWords : List Word → Res Unit
  | [] => .ok ()
  | a :: as => do
    addrCheck a 8 true
    checkWords as

/-- Ordinary word stores, one after the other (R87, R329). -/
def State.storeWords (s : State) : List (Word × Word) → Res State
  | [] => .ok s
  | (a, v) :: rest => do
    let t ← s.storeLocal a (bytesOf 8 v.toNat)
    t.storeWords rest

/-- SPILL (R87). -/
def execSpill (g : Guard) (s : State) : Host.Outcome State Fault Refusal :=
  s.issue g do
    let w := s.me.wstate
    let o := (wbOf w + 9 - depthOf w) % 9
    if depthOf w = 0 then pure s.advance
    else do
      s.waitRegs (octetRegs o)
      s.holdFor setS
      let va := s.me.spillp
      checkWords (nineAddrs va)
      let t ← s.storeWords ((nineAddrs va).zip (s.me.octetWords o))
      pure (t.modSlot t.cur fun u => { u with
        spillp := va + 72, wstate := mkWstate (tagsOf w) (depthOf w - 1) (wbOf w) }).advance

/-- Mark the registers of a FILL's octet EMPTY (R87). DESIGN CHOICE: log entry 70. -/
def State.emptyRegs (s : State) : List Nat → Res State
  | [] => .ok s
  | j :: js => do
    let _ ← writable (s.me.xCell j) j
    ((s.deadReg s.cur j).modSlot s.cur fun t => t.setXCell j (.empty (awaiting none))).emptyRegs js

/-- The nine loads of a FILL. -/
def State.fillLoads (s : State) (o : Nat) : List (Nat × Word) → Res State
  | [] => .ok s
  | (i, a) :: rest => do
    let t ← s.loadLocal a .b64 false (.fillWord o i)
    t.fillLoads o rest

/-- FILL (R87). DEDUCED: log entry 40. -/
def execFill (g : Guard) (s : State) : Host.Outcome State Fault Refusal :=
  s.issue g do
    let w := s.me.wstate
    if depthOf w = 6 then pure s.advance
    else do
      s.holdFor setL
      let va := s.me.spillp - 72
      checkWords (nineAddrs va)
      let o := (wbOf w + 9 - (depthOf w + 1)) % 9
      let t ← s.emptyRegs (octetRegs o)
      let t := t.modSlot t.cur fun u => { u with
        spillp := va
        wstate := mkWstate (tagsOf w) (depthOf w + 1) (wbOf w)
        fills := u.fills ++ [{ octet := o, got := [], fatals := [] }] }
      let t ← t.fillLoads o ((List.range 9).zip (nineAddrs va))
      pure t.advance

/-! ### Predicates (R88) -/

/-- PAND (R88). -/
def execPand (g : Guard) (d : Dst) (a b : Src) (s : State) : Host.Outcome State Fault Refusal := s.opP g d a b (· && ·)
/-- POR (R88). -/
def execPor (g : Guard) (d : Dst) (a b : Src) (s : State) : Host.Outcome State Fault Refusal := s.opP g d a b (· || ·)
/-- PXOR (R88). -/
def execPxor (g : Guard) (d : Dst) (a b : Src) (s : State) : Host.Outcome State Fault Refusal := s.opP g d a b (· ^^ ·)
/-- PANDN (R88). -/
def execPandn (g : Guard) (d : Dst) (a b : Src) (s : State) : Host.Outcome State Fault Refusal :=
  s.opP g d a b fun x y => x && !y
/-- A predicate from one predicate source. -/
def State.opP1 (s : State) (g : Guard) (d : Dst) (a : Src) (f : Bool → Bool) : Host.Outcome State Fault Refusal :=
  s.issue g do
    let (x, r) ← readP 0 a s.rd
    let t ← (r.s.killPs [a]).writeP d (f x)
    pure t.advance
/-- PNOT (R88). -/
def execPnot (g : Guard) (d : Dst) (a : Src) (s : State) : Host.Outcome State Fault Refusal := s.opP1 g d a (!·)
/-- PMOVI (R88). -/
def execPmovi (g : Guard) (d : Dst) (v : Bool) (s : State) : Host.Outcome State Fault Refusal :=
  s.issue g do
    let t ← s.writeP d v
    pure t.advance
/-- PMOV (R88). -/
def execPmov (g : Guard) (d : Dst) (a : Src) (s : State) : Host.Outcome State Fault Refusal := s.opP1 g d a id

/-! ### Splitting work (R89) -/

/-- The coordinate and its natural extent. -/
def State.partCoord (s : State) (c : PartCoord) : Nat × Nat :=
  match c with
  | .task => (s.me.tag.toNat, (s.slotSet s.cur).tasks)
  | .isle => (isleOf (coreOf s.cur), 16)
  | .quire => (quireOf (coreOf s.cur) % 12, 12)
  | .core => (coreOf s.cur % 4, 4)
  | .slot => (slotNo s.cur, 256)

/-- The bound of share `i` (R89). -/
def partBound (n g c e m p : Nat) (hi : Bool) : Nat :=
  let g := if g = 0 then 1 else g
  let m := if m = 0 then 1 else m
  let pp := if p ≠ 0 then p else ceilDiv e m
  let i := if pp = 0 then 0 else c / m % pp
  let gr := ceilDiv n g
  let q := gr / pp
  let rm := gr % pp
  let j := i + if hi then 1 else 0
  Nat.min n (g * (j * q + Nat.min j rm))

/-- PART (R89). -/
def execPart (g : Guard) (d : Dst) (n gr : Src) (hi : Bool) (coord : PartCoord) (m p : BitVec 16) (s : State) :
    Host.Outcome State Fault Refusal :=
  s.op2 g d n gr fun x y =>
    BitVec.ofNat 64 (partBound x.toNat y.toNat (s.partCoord coord).1 (s.partCoord coord).2 m.toNat p.toNat hi)

/-! ### Pausing and ending (R90 to R92, R169) -/

/-- The slot rests. -/
def State.restUntil (s : State) (wake : Nat) (r : Rest) : State :=
  s.advance.modSlot s.cur fun t => { t with st := .resting wake r }

/-- YIELD (R90). -/
def execYield (g : Guard) (s : State) : Host.Outcome State Fault Refusal :=
  s.issue g (pure (s.restUntil (s.cyc + 256) .yield))
/-- SLEEP (R90). -/
def execSleep (g : Guard) (msg : Bool) (n : BitVec 40) (s : State) : Host.Outcome State Fault Refusal :=
  s.issue g (pure (s.restUntil (s.cyc + Nat.max n.toNat 8) (if msg then .sleepMsg else .sleep)))

/-- The scratchpad guard trap of BAR, EXIT, FOLD and PARK (R249); it stays pending while a handler runs (R377).
DEDUCED: log entry 21. -/
def State.guardTrap (s : State) : Res Unit :=
  if grecCount s.me.grec ≠ 0 ∧ s.me.inh = false then .error (.asyncTrap 21 s.me.grec) else .ok ()

/-- The slot becomes CLOSING at the instruction (R91). DEDUCED: log entry 20. -/
def State.closeWith (s : State) (c : Closing) : State :=
  s.sealSlot s.cur |>.modSlot s.cur fun t => { t with st := .closing c, wait := .none }

/-- EXIT at issue (R91). -/
def execExit (g : Guard) (s : State) : Host.Outcome State Fault Refusal :=
  s.issue g do
    s.guardTrap
    pure (s.closeWith .exit)

/-- The window test of FOLD and PARK (R91). -/
def State.windowTest (s : State) (fold : Bool) : Res Unit :=
  if depthOf s.me.wstate ≠ 0 then .error (.trap 6 (windowValue (depthOf s.me.wstate) 0 fold)) else .ok ()

/-- FOLD at issue (R91). DEDUCED: log entry 20. -/
def execFold (g : Guard) (leaf ev ext : Src) (x : Bool) (regs : BitVec 36) (s : State) :
    Host.Outcome State Fault Refusal :=
  s.issue g do
    s.guardTrap
    let (va, r) ← readX 0 leaf s.rd
    let (e, r) ← readX 1 ev r
    let (xa, _) ← readX 2 ext r
    addrCheck va 64 true
    if x then addrCheck xa 64 true else pure ()
    s.windowTest true
    pure (s.closeWith (.leaf {
      leaf := va, events := e, ext := if x then some xa else none, regs := regs, word := none,
      nextPc := nextPc s.me.pc, deadline := 0 } none))

/-- PARK at issue (R169). DEDUCED: log entry 20. DESIGN CHOICE: log entry 63. -/
def execPark (g : Guard) (b leaf ev : Src) (x : Bool) (regs : BitVec 36) (s : State) : Host.Outcome State Fault Refusal :=
  s.issue g do
    s.guardTrap
    let (wa, r) ← readX 0 b s.rd
    let (va, r) ← readX 1 leaf r
    let (e, _) ← readX 2 ev r
    addrCheck wa 8 true
    addrCheck va (if x then 128 else 64) true
    s.windowTest false
    pure (s.closeWith (.leaf {
      leaf := va, events := e, ext := if x then some (va + 64) else none, regs := regs, word := some wa,
      nextPc := nextPc s.me.pc, deadline := s.me.waitlim.toNat } none))

/-! ### Mesh messages (R93, R96, R100, R101) -/

/-- MDSET (R93). -/
def execMdset (g : Guard) (a : Src) (s : State) : Host.Outcome State Fault Refusal :=
  s.issue g do
    let (x, r) ← readX 0 a s.rd
    pure ((r.s.killXs [a]).modSlot s.cur fun t => { t with mdest := x &&& 0x0FFFFFFC#64 }).advance
/-- MDGET (R93). -/
def execMdget (g : Guard) (d : Dst) (s : State) : Host.Outcome State Fault Refusal := s.op0 g d s.me.mdest
/-- Words that a slot may read with a tag (R96). -/
def State.readable (s : State) (k tag : Nat) : Nat :=
  let c := s.core (coreOf k)
  if slotNo k = 0 then (c.ferry.filter fun w => w.tag == tag).length
  else (c.inbox.filter fun w => w.tag == tag && targetSlot w.target == slotNo k).length
/-- INBCNT (R96). -/
def execInbcnt (g : Guard) (d : Dst) (s : State) : Host.Outcome State Fault Refusal :=
  s.op0 g d (BitVec.ofNat 64 (((List.range 4).map fun t => s.readable s.cur t * 2 ^ (16 * t)).sum))
/-- SLOTID (R93). -/
def execSlotid (g : Guard) (d : Dst) (s : State) : Host.Outcome State Fault Refusal :=
  s.op0 g d ((ownName s.cur s.me.gen).setWidth 64)
/-- STRAYRD .hdr (R100). -/
def execStrayrdHdr (g : Guard) (d : Dst) (s : State) : Host.Outcome State Fault Refusal :=
  s.op0 g d (if slotNo s.cur = 0 then s.me.hdr else 0)
/-- STRAYRD .cnt (R100). -/
def execStrayrdCnt (g : Guard) (d : Dst) (s : State) : Host.Outcome State Fault Refusal :=
  s.op0 g d (BitVec.ofNat 64 (s.core (coreOf s.cur)).strays)

/-- What LOOPBK does with its header and data in the ferry slot: the status and the core (R101). Only slot, generation and tag
of the header are used; the injected word names its own core as its sender. DESIGN CHOICE: log entry 22. -/
def State.loopback (s : State) (hdr data : Word) (last : Bool) : Word × State :=
  let core := coreOf s.cur
  let target := hdr.setWidth 28
  let k := 256 * core + targetSlot target
  let t := s.slot k
  let own := ownName k (targetGen target)
  let stop := fun (c : Core) => if last then { c with diverted := c.diverted.filter (· ≠ targetSlot target) } else c
  if !(accepts t.st && decide (t.gen = targetGen target)) then
    (2, s.modCore core fun c => stop { c with strays := Nat.min (c.strays + 1) (2 ^ 32 - 1) })
  else if 512 ≤ (s.core core).inboxUsed then (1, s)
  else
    let w : MeshWord := {
      target := own, tag := (hdr.extractLsb' 30 2).toNat, data := data, sender := core, reason := 0 }
    (0, s.modCore core fun c => c.divertFull (stop (c.placeWord w)))

/-- LOOPBK (R101). -/
def execLoopbk (g : Guard) (d : Dst) (hdr data : Src) (last : Bool) (s : State) : Host.Outcome State Fault Refusal :=
  s.issue g do
    let (h, r) ← readX 0 hdr s.rd
    let (v, r) ← readX 1 data r
    let t := r.s.killXs [hdr, data]
    let (st, t) := if slotNo t.cur = 0 then t.loopback h v last else (2, t)
    let t ← t.put d st
    pure t.advance

end Sys2Proof.Machine
end

