-- ==== Sys2Proof/Machine/Tasks.lean ====
section
/-! DEFINITION. Task sets, events, barriers: LAUNCH, TRIGGER, BAR, EVSET, EVCLR, EVWAIT and what they share (R341 to R362). -/

namespace Sys2Proof.Machine

/-! ### Events (R358, R359) -/

/-- The causeways between two isles (R14). -/
def causeways (a b : Nat) : Nat :=
  let d := fun (x y : Nat) => (x - y) + (y - x)
  d (a / 4) (b / 4) + d (a % 4) (b % 4)

/-- Clocks between an event name's leaving and its effect (R358). -/
def evDelay (src dst : Nat) : Nat :=
  if src = dst then 4 else if src / 12 = dst / 12 then 20 else 40 + 16 * causeways (src / 12) (dst / 12)

/-- The quire that an event name means for a slot of quire `own`; none for quires 12 to 14 (R358). -/
def eventQuire (own : Nat) (e : Word) : Option Nat :=
  let q := (e.extractLsb' 8 4).toNat
  if q = 15 then some own else if q < 12 then some (12 * (e.extractLsb' 12 4).toNat + q) else none

/-- A slot number that no slot has: the sender of event settings that no slot orders. -/
def noSlot : Nat := 2 ^ 20

/-- Send a setting or clearing of an event bit on its way. -/
def State.sendEvent (s : State) (slot : Nat) (gen : BitVec 8) (src dst bit : Nat) (set : Bool) : State :=
  { s with evUpds := s.evUpds ++ [{
      quire := dst, bit := bit % 256, set := set, slot := slot, gen := gen, at_ := s.cyc + evDelay src dst }] }

/-- An update reaches its bit in this clock: it is due, and so is every one that its slot sent before it (R358). -/
def State.evArrives (s : State) (u : EvUpd) : Bool :=
  (s.evUpds.takeWhile (· ≠ u)).all (fun v => v.slot == noSlot || v.slot != u.slot || decide (v.gen ≠ u.gen) || decide (v.at_ ≤ s.cyc))
    && decide (u.at_ ≤ s.cyc)

/-- An event bit is written. -/
def State.writeBit (s : State) (quire bit : Nat) (set : Bool) : State :=
  let m : BitVec 256 := 1#256 <<< bit
  s.modQuire quire fun q => { q with events := if set then q.events ||| m else q.events &&& ~~~m }

/-- The slot's earlier EVSET and EVCLR have all taken effect (R358). -/
def State.eventsDone (s : State) (k : Nat) : Bool :=
  !s.evUpds.any fun u => u.slot == k && decide (u.gen = (s.slot k).gen)
def State.holdEvents (s : State) : Res Unit := if s.eventsDone s.cur then .ok () else .error (.wait .other)

/-- The sets of a release (R341 to R344). -/
def setLSE : BitVec 5 := setL ||| setS ||| setE

/-- A release waits until the slot's earlier local and engine accesses are performed. -/
def State.holdCover (s : State) : Res Unit := if (s.accsIn s.cur setLSE).isEmpty then .ok () else .error (.wait .other)

/-- EVSET and EVCLR. -/
def State.evOp (s : State) (g : Guard) (e : Src) (set : Bool) : Host.Outcome State Fault Refusal :=
  s.issue g do
    s.holdPublish
    let (x, r) ← readX 0 e s.rd
    if set then s.holdCover else pure ()
    let t := r.s.killXs [e]
    let own := quireOf (coreOf t.cur)
    match eventQuire own x with
    | some q => pure (t.sendEvent t.cur t.me.gen own q (x.toNat % 256) set).advance
    | none => pure t.advance

/-- EVSET (R342, R358). -/
def execEvset (g : Guard) (e : Src) (s : State) : Host.Outcome State Fault Refusal := s.evOp g e true
/-- EVCLR (R358). -/
def execEvclr (g : Guard) (e : Src) (s : State) : Host.Outcome State Fault Refusal := s.evOp g e false

/-- All the events are set in a quire. -/
def Quire.allSet (q : Quire) (es : List Nat) : Bool := es.all fun e => q.events.getLsbD e

/-- The events are set in a quire, and no update reaches one of its bits later in this clock (R358). -/
def State.bitsNow (s : State) (quire : Nat) (es : List Nat) : Bool :=
  (s.quire quire).allSet es && !s.evUpds.any fun u => u.quire == quire && s.evArrives u

/-- EVWAIT (R359): the bits found set at one clock's end are remembered until the slot issues again. Bits that are set now, with
no update of the quire still to come in this clock, are set at its end. -/
def execEvwait (g : Guard) (d : Dst) (e dl : Src) (k : BitVec 2) (s : State) : Host.Outcome State Fault Refusal :=
  s.issue g do
    let (x, r) ← readX 0 e s.rd
    let (y, r) ← readX 1 dl r
    let n := k.toNat + 1
    let finish := fun (st : Nat) => do
      let t := (r.s.killXs [e, dl]).modSlot s.cur fun u => { u with stall := .none }
      let t ← t.put d (BitVec.ofNat 64 st)
      pure t.advance
    match s.me.stall with
    | .evwait _ _ _ (some st) => finish st
    | .evwait _ _ _ none => .error (.wait .other)
    | _ =>
      if s.bitsNow (quireOf (coreOf s.cur)) (eventBytes x n) then finish 0
      else .error (.waitWith (s.modSlot s.cur fun u => { u with stall := .evwait n x y none }) .other)

/-! ### Task sets (R346 to R353, R360, R361) -/

/-- Tasks that isle number `i` of the placement, in ascending order, has dispatched. -/
def TaskSet.sentBy (t : TaskSet) (i : Nat) : Nat := t.sent.getD i 0
/-- The isles of the placement, ascending. -/
def TaskSet.isleList (t : TaskSet) : List Nat := (List.range 16).filter fun i => t.isles.getLsbD i
/-- Every task of the set has been dispatched. -/
def TaskSet.allSent (t : TaskSet) : Bool := decide (t.tasks ≤ t.sent.sum)

/-- The completion event is set, once (R360, R361): a clearing that reaches the bit in this clock comes first (R358).
DEDUCED: log entry 23. -/
def State.setDone (s : State) (tsid : Nat) : State :=
  let t := s.tset_ tsid
  if t.evon && !t.evDone then
    let s := s.modSet tsid fun t => { t with evDone := true }
    let now := fun (u : EvUpd) => !u.set && u.quire == t.evQuire && u.bit == t.evBit && s.evArrives u
    { s with evUpds := s.evUpds.filter fun u => !now u }.writeBit t.evQuire t.evBit true
  else s

/-- The event of a set whose tasks have all been dispatched and have triggered, those by their EXIT once what they left is
performed (R342, R361). DEDUCED: log entry 23. -/
def State.checkTriggered (s : State) (tsid : Nat) : State :=
  let t := s.tset_ tsid
  if t.everTrig && t.allSent && decide (t.tasks ≤ t.trig) && !s.anyOutstanding t.owed then s.setDone tsid else s

/-- The task of a slot triggers (R361). DEDUCED: log entry 23. -/
def State.triggerTask (s : State) (k : Nat) : State :=
  match (s.slot k).tsid with
  | none => s
  | some t =>
    if (s.slot k).triggered then s
    else ((s.modSlot k fun u => { u with triggered := true }).modSet t fun u => { u with trig := u.trig + 1 })

/-- TRIGGER (R343, R361). -/
def execTrigger (g : Guard) (s : State) : Host.Outcome State Fault Refusal :=
  s.issue g do
    s.holdPublish
    s.holdEvents
    s.holdCover
    match s.me.tsid with
    | none => pure s.advance
    | some t =>
      let u := (s.modSet t fun v => { v with everTrig := true }).triggerTask s.cur
      pure (u.checkTriggered t).advance

/-- LAUNCH (R350): the record is read at its home like a load. -/
def execLaunch (g : Guard) (d : Dst) (a : Src) (s : State) : Host.Outcome State Fault Refusal :=
  s.issue g do
    s.holdPublish
    let (va, r) ← readX 0 a s.rd
    addrCheck va 64 true
    s.holdEvents
    let t := r.s.killXs [a]
    let j := xIndex t.me.wstate d.toNat
    let t ← t.emptyXj j
    let t ← t.sendRef 0 va (.reg j) (.record .launch 64) false
    pure t.advance

/-- The fields of a launch record (R348). DEDUCED: log entry 30. -/
structure LaunchRec where
  entry : Word
  prio : Nat
  slots : Nat
  isles : BitVec 16
  tasks : Nat
  args : Word
  evon : Bool
  evIsle : Nat
  evQuire : Nat
  evBit : Nat
  depth : Nat
  pvalid : Bool
  parent : Nat
deriving DecidableEq, Repr

def launchRec (r : List Word) : LaunchRec :=
  let w := fun i => r.getD i 0
  let f := fun (i lo n : Nat) => ((w i).toNat / 2 ^ lo) % 2 ^ n
  { entry := w 0, prio := f 1 56 2, slots := f 1 48 8, isles := BitVec.ofNat 16 (f 1 32 16), tasks := f 1 0 32,
    args := w 2, evon := f 3 16 1 == 1, evIsle := f 3 12 4, evQuire := f 3 8 4, evBit := f 3 0 8,
    depth := f 4 17 5, pvalid := f 4 16 1 == 1, parent := f 4 0 16 }

/-- A record is bad: a zero row is not zero, or a field has a value that R348 calls bad. -/
def launchBad (r : List Word) (ferry : Bool) : Bool :=
  let w := fun i => r.getD i 0
  let l := launchRec r
  decide ((w 1).toNat / 2 ^ 58 ≠ 0) || decide ((w 3).toNat / 2 ^ 17 ≠ 0) || decide ((w 4).toNat / 2 ^ 22 ≠ 0)
    || decide (w 5 ≠ 0) || decide (w 6 ≠ 0) || decide (w 7 ≠ 0) || !pcOk l.entry
    || (!ferry && (decide (l.slots = 0) || decide (l.tasks = 0))) || decide (12 ≤ l.evQuire ∧ l.evQuire ≤ 14)

/-- A core may take tasks (R375, R418). -/
def State.placeable (s : State) (core : Nat) : Bool := !(s.core core).excluded && !(s.core core).failed

/-- Cores of a placement that are not excluded, ascending. -/
def State.placedCores (s : State) (isles : BitVec 16) : List Nat :=
  (List.range 768).filter fun c => isles.getLsbD (c / 48) && s.placeable c

/-- The lowest free record of an isle's pool (R347). DEDUCED: log entry 30. -/
def Isle.freeRec (i : Isle) : Option Nat := leastFrom (fun n => !i.pool.contains n) 4096 0

/-- One record of each isle, or none at all. DEDUCED: log entry 30. -/
def State.takeRecs (s : State) : List Nat → Option (List (Nat × Nat))
  | [] => some []
  | i :: is =>
    match (s.isle i).freeRec, s.takeRecs is with
    | some n, some l => some ((i, n) :: l)
    | _, _ => none

/-- A negative LAUNCH status (R350). -/
def launchFail (n : Nat) : Word := BitVec.ofNat 64 (2 ^ 63 + n)

/-- Who creates a set: its parent with the launching slot's quire, or a harbour command with job, space and level.
DEDUCED: log entry 51. -/
structure Launcher where
  parent : Option Nat
  quire : Option Nat
  job : Nat
  space : Nat
  service : Bool
  ferry : Bool
  cover : List Nat

/-- Create a task set after every check has passed (R346, R347, R350); answers its TSID. DEDUCED: log entry 51. -/
def State.createSet (s : State) (l : LaunchRec) (b : Launcher) (depth limit : Nat) (recs : List (Nat × Nat)) :
    Nat × State :=
  let isle := (recs.map (·.1)).headD 0
  let tsid := isle * 4096 + (recs.map (·.2)).headD 0
  let s := recs.foldl (fun s r => s.modIsle r.1 fun i => { i with pool := r.2 :: i.pool }) s
  let p := match b.parent with
    | some p => s.tset_ p
    | none => TaskSet.init
  let cores := s.placedCores l.isles
  let evq := if l.evQuire = 15 then b.quire.getD 0 else 12 * l.evIsle + l.evQuire
  let t : TaskSet := {
    st := .live, job := b.job, depth := depth, limit := limit, prio := if b.ferry then 3 else l.prio, parent := b.parent,
    service := b.service, space := b.space, tsvec := p.tsvec, entry := l.entry,
    tasks := if b.ferry then cores.length else l.tasks, args := l.args, isles := l.isles,
    slots := if b.ferry then 256 else l.slots, evon := l.evon, evQuire := evq, evBit := l.evBit, evDone := false,
    key := Config.bankKey s.draws, recs := recs, sent := recs.map fun _ => 0, ended := 0, trig := 0, everTrig := false,
    children := 0, no := s.serial, cover := b.cover, owed := [], ferry := b.ferry, preempt := none, images := [], folded := [],
    foldedT := [] }
  let s : State := { s with draws := s.draws + 1, serial := s.serial + 1 }
  let s := match b.parent with
    | some p => s.modSet p fun t => { t with children := t.children + 1 }
    | none => s
  (tsid, s.setSet tsid t)

/-- The LAUNCH of a slot acts on its record (R350): the status and the state. DEDUCED: log entry 51. -/
def State.launch (s : State) (k : Nat) (cover : List Nat) (r : List Word) : Word × State :=
  let l := launchRec r
  let me := (s.slot k).tsid.getD 0
  let p := if l.pvalid then l.parent else me
  if launchBad r false then (launchFail 3, s)
  else if l.pvalid && !(p == me || (s.ancestors 24 me).contains p) then (launchFail 3, s)
  else
    let pt := s.tset_ p
    let d := pt.depth + 1
    let lim := if l.depth = 0 then pt.limit else Nat.min (Nat.min 24 l.depth) pt.limit
    if pt.limit < d then (launchFail 2, s)
    else if (s.placedCores l.isles).isEmpty then (launchFail 4, s)
    else if pt.st ≠ .live then (launchFail 5, s)
    else match s.takeRecs ((List.range 16).filter fun i => l.isles.getLsbD i) with
      | none => (launchFail 1, s)
      | some recs =>
        let mt := s.tset_ me
        let b : Launcher := {
          parent := some p, quire := some (quireOf (coreOf k)), job := mt.job, space := pt.space, service := mt.service,
          ferry := false, cover := cover }
        let (tsid, s) := s.createSet l b d lim recs
        (BitVec.ofNat 64 (d * 2 ^ 16 + tsid), s)

/-! ### Barriers (R362) -/

/-- Instance of a scope for a slot, and the largest count (R362). DESIGN CHOICE: log entry 57. -/
def barInst (sc : BarScope) (slot : Nat) : Nat × Nat :=
  match sc with
  | .lane => (coreOf slot * 16 + slotNo slot / 16, 16)
  | .core => (coreOf slot, 255)
  | .quire => (quireOf (coreOf slot), 1020)
  | .isle => (isleOf (coreOf slot), 12240)
  | .package => (0, 195840)
  | .pod => (0, 2 ^ 32 - 1)

/-- The key of a context: the TSID, or the job for a pod. -/
def State.barKey (s : State) (sc : BarScope) : Nat := if sc = .pod then (s.slotSet s.cur).job else s.me.tsid.getD 0

def BarCtx.is (c : BarCtx) (sc : BarScope) (inst key num : Nat) : Bool :=
  c.scope == sc && c.inst == inst && c.key == key && c.num == num

/-- Set the status that a slot finds at its BAR. DEDUCED: log entry 24. -/
def State.barStatus (s : State) (k st : Nat) : State :=
  s.modSlot k fun t => match t.stall with
    | .bar dl _ => { t with stall := .bar dl (some st) }
    | _ => t

/-- The slot arrives; the last arrival releases every one (R362). DEDUCED: log entry 24. DESIGN CHOICE: log entry 57. -/
def State.barArrive (s : State) (sc : BarScope) (inst key num count : Nat) (dl : Word) : State :=
  let q := fun (c : BarCtx) => c.is sc inst key num
  let old := match s.bars.find? q with
    | some c => c.arrived
    | none => []
  let arr := old ++ [s.cur]
  let rest := s.bars.filter fun c => !q c
  let s := s.modSlot s.cur fun t => { t with stall := .bar dl none }
  if arr.length = count then arr.foldl (fun s k => s.barStatus k 0) { s with bars := rest }
  else { s with bars := rest ++ [{ scope := sc, inst := inst, key := key, num := num, count := count, arrived := arr }] }

/-- BAR (R344, R362). -/
def execBar (g : Guard) (d : Dst) (n dl : Src) (sc : BarScope) (b : BitVec 4) (s : State) :
    Host.Outcome State Fault Refusal :=
  s.issue g do
    let (x, r) ← readX 0 n s.rd
    let (y, r) ← readX 1 dl r
    let count := x.toNat % 2 ^ 32
    let (inst, most) := barInst sc s.cur
    let key := s.barKey sc
    let finish := fun (t : State) (st : Nat) => do
      let t := (t.killXs [n, dl]).modSlot s.cur fun u => { u with stall := .none }
      let t ← t.put d (BitVec.ofNat 64 st)
      pure t.advance
    match s.me.stall with
    | .bar _ (some st) => finish r.s st
    | .bar _ none => .error (.wait .other)
    | _ => do
      s.holdPublish
      s.guardTrap
      if count = 0 ∨ most < count then finish r.s 3
      else
        let ctx := s.bars.find? fun c => c.is sc inst key b.toNat
        if ctx.isNone && decide (16 ≤ (s.bars.filter fun c => c.scope == sc && c.inst == inst).length) then
          .error (.wait .other)
        else do
          s.holdEvents
          s.holdCover
          match ctx with
          | some c =>
            if c.count ≠ count then finish r.s 1
            else do
              let _ ← s.put d 0
              .error (.waitWith (s.barArrive sc inst key b.toNat count y) .other)
          | none => do
            let _ ← s.put d 0
            .error (.waitWith (s.barArrive sc inst key b.toNat count y) .other)

end Sys2Proof.Machine
end

