-- ==== Sys2Proof/Machine/Closing.lean ====
section
/-! DEFINITION. Events of slots and of the quire: rests and closings that end, leaves, dispatch, event bits, deadlines,
retirement (R73, R78, R90 to R92, R169, R352 to R362). -/

namespace Sys2Proof.Machine

/-! ### Rests and ages (R78, R90) -/

/-- AGE_CLASS_RISE (R78): the class of a slot whose age has passed a further multiple of 4,096. -/
def execAgeClassRise (slot : Nat) (s : State) : Host.Outcome State Fault Refusal :=
  let t := s.slot slot
  .next (if t.cls < Nat.min 3 (t.baseCls + t.age / 4096) ∧ slotNo slot ≠ 0 then
    s.modSlot slot fun t => { t with cls := t.cls + 1 } else s)

/-- The rest of a slot ends now (R90). DESIGN CHOICE: log entry 69. -/
def State.restOver (s : State) (k wake : Nat) (r : Rest) : Bool :=
  decide (wake ≤ s.cyc) || (match r with
    | .yield => (s.readySlots (coreOf k)).all (· == k)
    | .sleep => false
    | .sleepMsg => (List.range 4).any fun t => decide (0 < s.readable k t))

/-- REST_END (R90). -/
def execRestEnd (slot : Nat) (s : State) : Host.Outcome State Fault Refusal :=
  .next (match (s.slot slot).st with
    | .resting wake r => if s.restOver slot wake r then s.modSlot slot fun t => { t with st := .active } else s
    | _ => s)

/-! ### Closings (R91, R92, R169) -/

/-- A CLOSING slot returns to ACTIVE, same generation, to take a trap at its instruction (R91). -/
def State.reopen (s : State) (k : Nat) : State := s.modSlot k fun t => { t with st := .active, wait := .none }

/-- What the wait of R91 finds: a trap to take at the instruction, still waiting, or over. -/
inductive CloseWait where
  | trap (async : Bool) (cause : Nat) (value : Word)
  | waits
  | over
deriving DecidableEq, Repr

/-- The wait of EXIT, FOLD and PARK (R91, R136, R210, R219, R337). -/
def State.closeWait (s : State) (k : Nat) : CloseWait :=
  let t := s.slot k
  match s.regsTrap k (List.range 102) with
  | some (.trap c v) => .trap false c v
  | some (.asyncTrap c v) => .trap true c v
  | _ =>
    match s.cover k with
    | .down p => if t.inh then .waits else .trap true 20 (BitVec.ofNat 64 p)
    | .waits => .waits
    | c =>
      if (List.range 102).any (s.pendingAt k) || decide (t.redcnt ≠ 0) || s.fencesPending k || !t.fills.isEmpty
          || !(s.mxMine k).isEmpty then .waits
      else if t.inh then .over
      else match c, lowestPend t.pend with
        | .faulted v, _ => .trap true 19 v
        | _, some (cause, v) => .trap true cause (t.pendValue cause v)
        | _, none => .over

/-- A task of the slot's set ends at its EXIT (R360, R361); `cover` are its accesses that are still to be performed. -/
def State.endTask (s : State) (k : Nat) : State :=
  match (s.slot k).tsid with
  | none => s
  | some t =>
    let left := s.accsIn k 31
    let s := s.triggerTask k
    (s.modSet t fun u => { u with ended := u.ended + 1, owed := u.owed ++ left }).checkTriggered t

/-- EXIT completes (R91, R358): the set events of the leaf the thread came from, then the task ends. -/
def State.finishExit (s : State) (k : Nat) : State :=
  let t := s.slot k
  if !t.setEv.isEmpty && !((s.accsIn k setLSE).isEmpty && s.eventsDone k) then s
  else
    let own := quireOf (coreOf k)
    let s := t.setEv.foldl (fun s e => s.sendEvent noSlot 0 own t.evQuire e true) s
    (s.endTask k).freeSlot k

/-- The words of a leaf and of its extension with their addresses (R91, R355). -/
def Slot.leafWords (t : Slot) (f : FoldInfo) : List (Word × Word) :=
  let x := fun n => if n = 0 then (0 : Word) else cellWord (t.xCell (xIndex t.wstate n))
  let named := (List.range 6).map fun i => x (regField f.regs i).toNat
  let ws := [f.nextPc ||| (if f.ext.isSome then 8 else 0), f.events] ++ named
  let at8 := fun (a : Word) (l : List Word) => (List.range l.length).zipWith (fun i w => (a + BitVec.ofNat 64 (8 * i), w)) l
  at8 f.leaf ws ++ match f.ext with
    | some a => at8 a ((List.range 8).map fun i => x (24 + i))
    | none => []

/-- Run issue-time operations on behalf of a CLOSING slot: a stop leaves its mark on the slot or reopens it. -/
def State.onBehalf (s : State) (k : Nat) (r : State → Res State) : State :=
  match r { s with cur := k } with
  | .ok t => { t with cur := s.cur }
  | .error (.trap c v) => (s.reopen k).takeTrap k false c v (s.slot k).pc
  | .error (.asyncTrap c v) => (s.reopen k).takeTrap k true c v (s.slot k).pc
  | .error (.asyncWith t c v) => ({ t with cur := s.cur }.reopen k).takeTrap k true c v (s.slot k).pc
  | .error (.walk w) => if s.walks.contains w then s else { s with walks := s.walks ++ [w] }
  | .error _ => s

/-- Write the leaf (R91): the accesses it made are remembered. -/
def State.writeLeaf (s : State) (k : Nat) (f : FoldInfo) : State :=
  s.onBehalf k fun t => do
    let first := t.serial
    let u ← t.storeWords ((t.slot k).leafWords f)
    let ids := (u.accs.filter fun a => decide (first ≤ a.id)).map (·.id)
    pure (u.modSlot k fun v => { v with st := .closing (.leaf f (some ids)) })

/-- Enter a leaf in the table of the slot's quire and free the slot (R91, R92, R356); what the thread leaves to be performed is owed
by its set (R342). -/
def State.enterLeaf (s : State) (k : Nat) (f : FoldInfo) (st : LeafSt) (mark : Option (Nat × Word)) : State :=
  let t := s.slot k
  let l : Leaf := {
    no := s.serial, leaf := f.leaf, ext := f.ext, regs := f.regs, tsid := t.tsid.getD 0, tag := t.tag, cls := t.baseCls,
    mark := mark, guardEv := none, events := f.events, triggered := t.triggered, st := st, readyNo := 0 }
  let left := s.accsIn k 31
  let s := { s with serial := s.serial + 1 }.modQuire (quireOf (coreOf k)) fun q => { q with leaves := q.leaves ++ [l] }
  let s := t.tsid.elim s fun n => s.modSet n fun u => { u with owed := u.owed ++ left }
  s.freeSlot k

/-- PARK sends its reference once its leaf is written (R169). -/
def State.sendPark (s : State) (k : Nat) (f : FoldInfo) (va : Word) : State :=
  let t := s.slot k
  let no := s.serial
  let mk := fun (s : State) (home isle : Nat) (w : List (Nat × Nat)) =>
    let (id, s) := s.newAcc k setL w false
    let r : Ref := {
      id := id, slot := k, gen := t.gen, tsid := t.tsid.getD 0, num := 0, job := (s.slotSet k).job
      space := (s.slotSet k).space, va := va, isle := isle, home := home, dst := .none,
      op := .park no, limit := f.deadline, counted := false }
    (r, s)
  match s.locate k va.toNat true false with
  | .deny => s.enterLeaf k f .waiting (some (13, va))
  | .home h i =>
    let (r, u) := mk { s with serial := s.serial + 1 } h i (spansOf va.toNat 8 (some h))
    let u := { { u with serial := no }.enterLeaf k f .moored none with serial := u.serial }
    { u with refs := u.refs ++ [r] }
  | .fault i n =>
    let (r, u) := mk { s with serial := s.serial + 1 } 0 i (spansOf va.toNat 8 none)
    let u := { { u with serial := no }.enterLeaf k f .moored none with serial := u.serial }
    u.park i n (.ref r) true false
  | _ =>
    let w : Walk := { slot := k, gen := t.gen, space := (s.slotSet k).space, va := va.toNat }
    if s.walks.contains w then s else { s with walks := s.walks ++ [w] }

/-- A CLOSING slot whose wait is over goes on (R91, R92, R356). -/
def State.closeOn (s : State) (k : Nat) (c : Closing) : State :=
  match c with
  | .exit => s.finishExit k
  | .preempt => s
  | .leaf f wrote =>
    if 4096 ≤ (s.quire (quireOf (coreOf k))).leaves.length then s
    else match wrote with
      | none => s.writeLeaf k f
      | some ids =>
        if s.anyOutstanding ids then s
        else match f.word with
          | none => s.enterLeaf k f .waiting none
          | some va => s.sendPark k f va

/-- CLOSING_WAIT_END (R91): the slot seals what it still has in gathering buffers (R219). A pre-emption's drain ends otherwise. -/
def execClosingWaitEnd (slot : Nat) (s : State) : Host.Outcome State Fault Refusal :=
  .next (match (s.slot slot).st with
    | .closing .preempt => s
    | .closing c =>
      let s := s.sealSlot slot
      match s.closeWait slot with
      | .waits => s
      | .trap a cause v =>
        ((s.reopen slot).modSlot slot fun t => if a then t.dropPend cause else t).takeTrap slot a cause v (s.slot slot).pc
      | .over => s.closeOn slot c
    | _ => s)

/-! ### Leaves and dispatch (R352 to R357) -/

/-- A WAITING leaf is READY. -/
def State.leafReady (s : State) (no : Nat) : State :=
  { s with serial := s.serial + 1 }.modLeaf no fun l => { l with st := .ready, readyNo := s.serial }

/-- LEAF_READY (R356): its events are set as they will be at the end of this clock, or it waits for none. -/
def execLeafReady (quire k : Nat) (s : State) : Host.Outcome State Fault Refusal :=
  .next (match (s.quire quire).leaves[k]? with
    | some l =>
      let es := waitEvents l.events
      if l.st = .waiting ∧ (es.isEmpty ∨ s.bitsNow quire es) then s.leafReady l.no else s
    | none => s)

/-- Slots of a core that a set holds (R352). -/
def State.heldBy (s : State) (core tsid : Nat) : Nat :=
  (s.slots.filter fun e => coreOf e.1 == core && e.2.tsid == some tsid && decide (e.2.st ≠ .free)).length

/-- A set may take a further slot of a core. -/
def State.roomFor (s : State) (core tsid : Nat) : Bool :=
  s.hasSet tsid && (s.tset_ tsid).st == .live && decide (s.heldBy core tsid < (s.tset_ tsid).slots)

/-- READY leaves of a quire that a core may resume. -/
def State.readyLeaves (s : State) (core quire : Nat) : List Leaf :=
  (s.quire quire).leaves.filter fun l => l.st == .ready && s.roomFor core l.tsid

/-- The position of an isle among the isles of a set's placement. -/
def TaskSet.islePos (t : TaskSet) (isle : Nat) : Option Nat :=
  if t.isles.getLsbD isle then some (t.isleList.filter (· < isle)).length else none

/-- The next task of a set for an isle (R352). -/
def TaskSet.nextTask (t : TaskSet) (isle : Nat) : Option Nat :=
  match t.islePos isle with
  | some p => let n := p + t.isleList.length * t.sentBy p; if n < t.tasks then some n else none
  | none => none

/-- Sets with an undispatched task that the core may take (R341, R352). -/
def State.workSets (s : State) (core : Nat) : List (Nat × TaskSet) :=
  s.sets.filter fun e => !e.2.ferry && s.roomFor core e.1 && (e.2.nextTask (isleOf core)).isSome
    && !s.anyOutstanding e.2.cover

/-- The least element by a measure. -/
def leastBy {α : Type} (f : α → Nat) : List α → Option α
  | [] => none
  | a :: as => match leastBy f as with
    | some b => if f b < f a then some b else some a
    | none => some a

/-- The work a core starts: a leaf of a quire, or a task of a set. -/
inductive Work where
  | leaf (quire : Nat) (l : Leaf)
  | task (tsid : Nat)

/-- The choice of R354. -/
def State.chooseWork (s : State) (core : Nat) : Option Work :=
  let q := quireOf core
  let ls := s.readyLeaves core q
  let ts := s.workSets core
  let top := topClass (ls.map (·.cls) ++ ts.map (·.2.prio))
  match leastBy (·.readyNo) (ls.filter fun l => l.cls == top) with
  | some l => some (.leaf q l)
  | none =>
    match leastBy (·.2.no) (ts.filter fun t => t.2.prio == top) with
    | some t => some (.task t.1)
    | none =>
      if !ts.isEmpty then none
      else (List.range 11).findSome? fun i =>
        let q' := q / 12 * 12 + (q % 12 + 1 + i) % 12
        let ls := s.readyLeaves core q'
        (leastBy (·.readyNo) (ls.filter fun l => l.cls == topClass (ls.map (·.cls)))).map (Work.leaf q')

/-- A slot that may be given work: its core starts at most one thread in a clock (R352, R354). -/
def State.freeFor (s : State) (slot : Nat) : Bool :=
  decide ((s.slot slot).st = .free) && decide (slotNo slot ≠ 0) && decide (slot < 196608) && s.placeable (coreOf slot)
    && decide (s.phase = .up) && decide ((s.core (coreOf slot)).started ≠ s.cyc + 1)

/-- The core has started a thread in this clock (R354). -/
def State.markStart (s : State) (slot : Nat) : State :=
  s.modCore (coreOf slot) fun c => { c with started := s.cyc + 1 }

/-- Start a task in a slot (R353). -/
def State.startTask (s : State) (slot tsid task : Nat) : State :=
  let t := s.tset_ tsid
  let st : Word := BitVec.ofNat 64 (t.depth * 2 ^ 16 + tsid)
  let s := s.modSlot slot fun u =>
    let u := u.start
    { u with
      pc := t.entry
      xlo := [.full t.args, .full (BitVec.ofNat 64 task), .full (BitVec.ofNat 64 t.tasks), .full st, .dead, .dead, .dead]
      baseCls := t.prio, cls := t.prio, tsid := some tsid, tag := BitVec.ofNat 32 task, entryDue := true }
  s

/-- TASK_DISPATCH (R352, R353, R354). -/
def execTaskDispatch (slot : Nat) (s : State) : Host.Outcome State Fault Refusal :=
  let core := coreOf slot
  .next (if s.freeFor slot then
    match s.chooseWork core with
    | some (.task tsid) =>
      let t := s.tset_ tsid
      match t.nextTask (isleOf core), t.islePos (isleOf core) with
      | some n, some p => ((s.startTask slot tsid n).markStart slot).modSet tsid fun t => { t with sent := t.sent.set p (t.sentBy p + 1) }
      | _, _ => s
    | _ => s
  else s)

/-- The reference that reads a resumed leaf, or its extension. -/
def State.leafRef (s : State) (slot : Nat) (va : Word) (ext : Bool) (home isle : Nat) : Ref × State :=
  let t := s.slot slot
  let (id, s) := s.newAcc slot 0 (spansOf va.toNat 64 (if home < unplaced then some home else none)) false
  ({ id := id, slot := slot, gen := t.gen, tsid := t.tsid.getD 0, num := 0, job := (s.slotSet slot).job, space := (s.slotSet slot).space, va := va,
     isle := isle, home := home, dst := .none, op := .record (.leaf ext) 64, limit := 0, counted := false }, s)

/-- Send it to its home, or park it on its page's fault entry (R357, R389). The scratchpad window is that of the leaf's home
quire. DEDUCED: log entry 26. -/
def State.readLeaf (s : State) (slot : Nat) (r : LeafRead) (va : Word) (ext : Bool) : State :=
  let isle := isleOf (coreOf slot)
  let (loc, s) := s.engineReach (some (coreOf slot)) isle r.quire (s.slotSet slot).space va.toNat true false 0
    (whoOf ((s.slot slot).tsid.getD 0) slot (s.slot slot).gen)
  match loc with
  | .home h i => let (f, t) := s.leafRef slot va ext h i; { t with refs := t.refs ++ [f] }
  | .deny => s.leafDone slot r (some (13, va))
  | .fault i n => let (f, t) := s.leafRef slot va ext unplaced isle; t.park i n (.ref f) true false
  | _ => let (f, t) := s.leafRef slot va ext unplaced isle; { t with refs := t.refs ++ [f] }

/-- LEAF_RESUME (R357): the slot takes the leaf and waits for its words. DEDUCED: log entry 26. -/
def execLeafResume (slot : Nat) (s : State) : Host.Outcome State Fault Refusal :=
  .next (if s.freeFor slot then
    match s.chooseWork (coreOf slot) with
    | some (.leaf q l) =>
      let s := (s.modQuire q fun q => { q with leaves := q.leaves.filter fun m => m.no ≠ l.no }).markStart slot
      let r : LeafRead := { quire := q, leaf := l.leaf, ext := l.ext, regs := l.regs, words := [] }
      let s := s.modSlot slot fun u => { u.start with
        baseCls := l.cls, cls := l.cls, tsid := some l.tsid, tag := l.tag, triggered := l.triggered
        evQuire := q, fromLeaf := true, pend := l.mark.toList, reading := some r, wait := .leaf
        grec := match l.guardEv with
          | some e => grecAdd 0 e
          | none => 0 }
      s.readLeaf slot r l.leaf false
    | _ => s
  else s)

/-! ### Event bits and deadlines (R358, R359, R362) -/

/-- Waiters of a quire that find their events set at a clock's end (R359). -/
def State.wakeEvents (s : State) (quire : Nat) : State :=
  let q := s.quire quire
  s.modSlots (fun k _ => quireOf (coreOf k) == quire) fun t => match t.stall with
    | .evwait n x dl none => if q.allSet (eventBytes x n) then { t with stall := .evwait n x dl (some 0) } else t
    | _ => t

/-- Of the updates that reach one bit in one clock, the clearing ones are applied first (R358). -/
def State.updDue (s : State) (u : EvUpd) : Bool :=
  s.evArrives u && !(u.set && s.evUpds.any fun v => !v.set && v.quire == u.quire && v.bit == u.bit && s.evArrives v)

/-- EVENT_BIT_UPDATE (R358). -/
def execEventBitUpdate (k : Nat) (s : State) : Host.Outcome State Fault Refusal :=
  .next (match s.evUpds[k]? with
    | some u => if s.updDue u then { s with evUpds := lremove s.evUpds k }.writeBit u.quire u.bit u.set else s
    | none => s)

/-- The end of a clock: the updates that it brings are applied; then the leaves and the waiters that find their events set go
on, and the sets whose event is due get it (R356, R358, R359, R361). -/
def State.eventsEnd (s : State) : State :=
  let now := s.evUpds.filter s.evArrives
  let put := fun (s : State) (l : List EvUpd) => l.foldl (fun s u => s.writeBit u.quire u.bit u.set) s
  let s := put (put { s with evUpds := s.evUpds.filter fun u => !now.contains u } (now.filter (!·.set))) (now.filter (·.set))
  let s := s.sets.foldl (fun s e => s.checkTriggered e.1) s
  let ready := s.quires.flatMap fun e =>
    (e.2.leaves.filter fun l => decide (l.st = .waiting) && e.2.allSet (waitEvents l.events)).map (·.no)
  (s.quires.map (·.1)).foldl (fun s q => s.wakeEvents q) (ready.foldl (fun s n => s.leafReady n) s)

/-- A deadline value that has come: 0 means none. -/
def State.due (s : State) (dl : Word) : Bool := decide (dl ≠ 0) && decide (dl.toNat ≤ s.cyc)

/-- EVWAIT_DEADLINE (R359). -/
def execEvwaitDeadline (slot : Nat) (s : State) : Host.Outcome State Fault Refusal :=
  .next (match (s.slot slot).stall with
    | .evwait n x dl none =>
      if s.due dl then s.modSlot slot fun t => { t with stall := .evwait n x dl (some 1) } else s
    | _ => s)

/-- BAR_DEADLINE (R362): the arrival is withdrawn; a context that holds none is free. A release in the clock of the deadline comes
first, so the deadline acts when that clock has passed. -/
def execBarDeadline (slot : Nat) (s : State) : Host.Outcome State Fault Refusal :=
  .next (match (s.slot slot).stall with
    | .bar dl none =>
      if s.due dl && decide (dl.toNat < s.cyc) then
        let bars := (s.bars.map fun b => { b with arrived := b.arrived.filter (· ≠ slot) }).filter fun b => !b.arrived.isEmpty
        ({ s with bars := bars }).barStatus slot 2
      else s
    | _ => s)

/-- TASKSET_RETIRE (R342, R360). -/
def execTasksetRetire (tsid : Nat) (s : State) : Host.Outcome State Fault Refusal :=
  let t := s.tset_ tsid
  .next (if s.hasSet tsid && t.st == .live && t.allSent && decide (t.tasks ≤ t.ended) && decide (t.children = 0)
      && !s.anyOutstanding t.owed then
    let s := (s.setDone tsid).releaseRecs t
    let s := s.dropAllocs [tsid]
    let s := match t.parent with
      | some p => if s.hasSet p then s.modSet p fun u => { u with children := u.children - 1 } else s
      | none => s
    s.setSet tsid TaskSet.init
  else s)

end Sys2Proof.Machine
end

