-- ==== Sys2Proof/Machine/Codec.lean ====
section
/-! DEFINITION. The published codes that the spec names: CRC-32C, the LZ4 block format, KV pack, SHA-384, HKDF, AES key
unwrap (R236, R399, R400, R409 to R411). -/

namespace Sys2Proof.Machine

/-! ### CRC-32C (R399) -/

/-- Eight steps of the reflected Castagnoli polynomial. -/
def crcBits : Nat → Nat → Nat
  | 0, c => c
  | n + 1, c => crcBits n (if c % 2 = 1 then (c / 2) ^^^ 0x82F63B78 else c / 2)

def crcBytes : Nat → List Byte → Nat
  | c, [] => c
  | c, b :: bs => crcBytes (crcBits 8 (c ^^^ b.toNat)) bs

def crc32c (bs : List Byte) : Nat := crcBytes 0xFFFFFFFF bs ^^^ 0xFFFFFFFF

/-! ### LZ4 blocks (R399) -/

/-- A length of 15 in a token goes on in bytes, to the first below 255. -/
def lzLen : Nat → List Byte → Nat → Option (Nat × List Byte)
  | 0, _, _ => none
  | _ + 1, [], _ => none
  | n + 1, b :: bs, acc => if b.toNat = 255 then lzLen n bs (acc + 255) else some (acc + b.toNat, bs)

/-- Copy `n` bytes from `off` back; the output is held last byte first. -/
def lzCopy : Nat → Nat → List Byte → List Byte
  | 0, _, out => out
  | n + 1, off, out => lzCopy n off (out.getD (off - 1) 0 :: out)

/-- Expand a block: the whole input must be used, and the last sequence ends after its literals. -/
def lzGo : Nat → List Byte → List Byte → Option (List Byte)
  | 0, _, _ => none
  | _ + 1, [], _ => none
  | fuel + 1, tok :: bs, out =>
    let ext := fun (n : Nat) (bs : List Byte) => if n = 15 then lzLen (bs.length + 1) bs 15 else some (n, bs)
    match ext (tok.toNat / 16) bs with
    | none => none
    | some (lits, bs) =>
      if bs.length < lits then none
      else
        let out := (bs.take lits).reverse ++ out
        match bs.drop lits with
        | [] => some out.reverse
        | [_] => none
        | lo :: hi :: bs =>
          let off := lo.toNat + 256 * hi.toNat
          if off = 0 ∨ out.length < off then none
          else match ext (tok.toNat % 16) bs with
            | none => none
            | some (n, bs) => lzGo fuel bs (lzCopy (n + 4) off out)

def lz4Expand (bs : List Byte) : Option (List Byte) := lzGo (bs.length + 1) bs []

/-! ### KV pack (R400) -/

/-- The numbers of `n` bytes each that a list of bytes holds. -/
def numsOf (n : Nat) : Nat → List Byte → List Nat
  | 0, _ => []
  | k + 1, bs => natOfBytes (bs.take n) :: numsOf n k (bs.drop n)

/-- The larger of two magnitudes m x 2^e. -/
def magMax (a b : Nat × Int) : Nat × Int := if magLt a.1 a.2 b.1 b.2 then b else a

/-- The scale exponent of a block of BF16 values. -/
def kvScale (xs : List Nat) : Int :=
  let mags := xs.filterMap fun x => match flOf .bf16 x with
    | .fin _ m e => some (m, e)
    | _ => none
  let (m, e) := mags.foldl magMax (0, 0)
  if m = 0 then 0
  else
    let l : Int := (bitLen m : Int) - 1 + e - 8
    max (-127) (min 127 (if magLt 448 l m e then l + 1 else l))

/-- A value times 2^k. -/
def scaleBy (k : Int) : Fl → Fl
  | .fin n m e => .fin n m (e + k)
  | x => x

/-- One block packed: its values and its scale. -/
def kvBlock (xs : List Nat) : List Byte × Byte :=
  let e := kvScale xs
  (xs.map fun x => BitVec.ofNat 8 (cvtFloat .e4m3 .rne (maxBits .e4m3) none (scaleBy (-e) (flOf .bf16 x))), BitVec.ofNat 8 (127 + e).toNat)

/-- Pack a page of 65,536 bytes into 33 KiB. -/
def kvPack (page : List Byte) : List Byte :=
  let vals := numsOf 2 32768 page
  let blocks := (List.range 1024).map fun i => kvBlock ((vals.drop (32 * i)).take 32)
  blocks.flatMap (·.1) ++ blocks.map (·.2)

/-- Unpack 33 KiB into a page (R57, R400). A product beyond the greatest BF16 value becomes infinity, as an operator's result does; R400 does
not say whether it is clamped instead. DESIGN CHOICE: log entry 61. -/
def kvUnpack (bs : List Byte) : List Byte :=
  let scales := bs.drop 32768
  (List.range 1024).flatMap fun i =>
    let scale := scaleFl .e8m0 (scales.getD i 0).toNat
    ((bs.drop (32 * i)).take 32).flatMap fun v => bytesOf 2 (roundFl .bf16 .rne false (mulFl (flOf .e4m3 v.toNat) scale))

/-! ### SHA-384 (R409 to R411) -/

/-- The greatest r below 2^n with r^k ≤ x, bit by bit above `r`. -/
def rootFrom (k x : Nat) : Nat → Nat → Nat
  | 0, r => r
  | n + 1, r => if (r + 2 ^ n) ^ k ≤ x then rootFrom k x n (r + 2 ^ n) else rootFrom k x n r

/-- The first primes from `p` on, by trial division. -/
def primesFrom : Nat → Nat → List Nat → List Nat
  | 0, _, ps => ps
  | n + 1, p, ps => primesFrom n (p + 1) (if ps.any fun q => p % q == 0 then ps else ps ++ [p])

/-- The first 80 primes. -/
def primes80 : List Nat := primesFrom 408 2 []

/-- The first 64 bits of the fractional part of the k-th root of a prime. -/
def rootFrac (k p : Nat) : Word := BitVec.ofNat 64 (rootFrom k (p * 2 ^ (64 * k)) 70 0)

/-- The round constants, and the initial hash value of SHA-384. -/
def shaK : List Word := primes80.map (rootFrac 3)
def sha384Init : List Word := ((primes80.drop 8).take 8).map (rootFrac 2)

def shaCh (x y z : Word) : Word := (x &&& y) ^^^ (~~~x &&& z)
def shaMaj (x y z : Word) : Word := (x &&& y) ^^^ (x &&& z) ^^^ (y &&& z)
def rr (x : Word) (n : Nat) : Word := x.rotateRight n
def bigS0 (x : Word) : Word := rr x 28 ^^^ rr x 34 ^^^ rr x 39
def bigS1 (x : Word) : Word := rr x 14 ^^^ rr x 18 ^^^ rr x 41
def smallS0 (x : Word) : Word := rr x 1 ^^^ rr x 8 ^^^ (x >>> 7)
def smallS1 (x : Word) : Word := rr x 19 ^^^ rr x 61 ^^^ (x >>> 6)

/-- The message schedule, newest word first. -/
def shaSchedule : Nat → List Word → List Word
  | 0, ws => ws
  | n + 1, ws => shaSchedule n ((smallS1 (ws.getD 1 0) + ws.getD 6 0 + smallS0 (ws.getD 14 0) + ws.getD 15 0) :: ws)

/-- One round on the eight working variables. -/
def shaRound (v : List Word) (kw : Word) : List Word :=
  match v with
  | [a, b, c, d, e, f, g, h] =>
    let t1 := h + bigS1 e + shaCh e f g + kw
    [t1 + bigS0 a + shaMaj a b c, a, b, c, d + t1, e, f, g]
  | v => v

/-- One block of 16 words. -/
def shaBlock (hs : List Word) (ws : List Word) : List Word :=
  let sched := (shaSchedule 64 ws.reverse).reverse
  ((shaK.zipWith (· + ·) sched).foldl shaRound hs).zipWith (· + ·) hs

/-- The padded message in bytes. -/
def shaPad (bs : List Byte) : List Byte :=
  let z := (239 - bs.length % 128) % 128
  bs ++ 0x80#8 :: List.replicate z 0 ++ (bytesOf 16 (8 * bs.length)).reverse

/-- Hash blocks of 128 bytes in turn. -/
def shaGo : Nat → List Word → List Byte → List Word
  | 0, hs, _ => hs
  | n + 1, hs, bs =>
    let ws := (List.range 16).map fun i => BitVec.ofNat 64 (natOfBytes ((bs.drop (8 * i)).take 8).reverse)
    shaGo n (shaBlock hs ws) (bs.drop 128)

/-- SHA-384 of a string of bytes, as a number whose most significant byte is the first of the digest. -/
def sha384 (bs : List Byte) : BitVec 384 :=
  let m := shaPad bs
  BitVec.ofNat 384 (((shaGo (m.length / 128) sha384Init m).take 6).foldl (fun a w => a * 2 ^ 64 + w.toNat) 0)

/-- The bytes of a digest, first byte first. -/
def digestBytes (d : BitVec 384) : List Byte := (bytesOf 48 d.toNat).reverse

/-! ### HMAC and HKDF with SHA-384 (R236: RFC 5869) -/

/-- HMAC over SHA-384, whose blocks have 128 bytes; the keys here are shorter than that. -/
def hmac384 (key msg : List Byte) : List Byte :=
  let pad := fun (x : Byte) => (key ++ List.replicate (128 - key.length) 0).map (· ^^^ x)
  digestBytes (sha384 (pad 0x5C ++ digestBytes (sha384 (pad 0x36 ++ msg))))

/-- HKDF with 48 zero bytes as the salt, and an output of at most 48 bytes. -/
def hkdf384 (key info : List Byte) (len : Nat) : List Byte :=
  (hmac384 (hmac384 (List.replicate 48 0) key) (info ++ [1])).take len

/-- A number as `n` bytes, most significant first. -/
def bigBytes (n v : Nat) : List Byte := (bytesOf n v).reverse

/-- The number that bytes give, most significant first. -/
def natOfBig (bs : List Byte) : Nat := natOfBytes bs.reverse

/-- The 44 bytes derived for a connection: its AES-256 key, then the salt of its nonces (R236). -/
def connKey (jobKey : BitVec 256) (src dest job epoch : Nat) : List Byte :=
  let label := [90#8, 69#8, 76#8, 78#8, 65#8, 82#8, 45#8, 67#8, 79#8, 78#8, 78#8]
  hkdf384 (bigBytes 32 jobKey.toNat) (label ++ bigBytes 2 src ++ bigBytes 2 dest ++ bigBytes 2 job ++ bigBytes 1 epoch) 44

/-- The nonce of a frame: the salt XOR its sequence number, or XOR 2^95 plus the acknowledgement counter (R236). -/
def frameNonce (ckey : List Byte) (kind seq : Nat) : BitVec 96 :=
  BitVec.ofNat 96 (natOfBig (ckey.drop 32)) ^^^ BitVec.ofNat 96 (seq + if kind = 1 then 2 ^ 95 else 0)

/-! ### AES-256 key unwrap (R201, R236: RFC 3394 over FIPS 197) -/

/-- Twice a byte in the field of AES. -/
def aesTwice (b : Nat) : Nat := if b < 128 then 2 * b else (2 * b) ^^^ 0x11B

/-- The product of two bytes, over the bits of the second. -/
def aesMul : Nat → Nat → Nat → Nat
  | 0, _, _ => 0
  | n + 1, a, b => (if b % 2 = 1 then a else 0) ^^^ aesMul n (aesTwice a) (b / 2)

/-- The inverse of a byte, its 254th power; 0 for 0. -/
def aesInv (a : Nat) : Nat :=
  let m := aesMul 8
  let a2 := m a a
  let a4 := m a2 a2
  let a8 := m a4 a4
  let a16 := m a8 a8
  let a32 := m a16 a16
  let a64 := m a32 a32
  m (m (m (m a2 a4) (m a8 a16)) (m a32 a64)) (m a64 a64)

def rotByte (b n : Nat) : Nat := b * 2 ^ n % 256 + b / 2 ^ (8 - n)

/-- The substitution of AES and its inverse. -/
def aesSub (b : Nat) : Nat :=
  let i := aesInv b
  i ^^^ rotByte i 1 ^^^ rotByte i 2 ^^^ rotByte i 3 ^^^ rotByte i 4 ^^^ 0x63
def aesUnsub (b : Nat) : Nat := aesInv (rotByte b 1 ^^^ rotByte b 3 ^^^ rotByte b 6 ^^^ 5)

/-- The constant of round `n`. -/
def aesCon : Nat → Nat
  | 0 => 1
  | n + 1 => aesTwice (aesCon n)

/-- Word `i` of the key schedule after the words before it, newest first. -/
def aesKeyWord (i : Nat) (ws : List (List Nat)) : List Nat :=
  let t := ws.headD []
  let t := if i % 8 = 0 then (t.drop 1 ++ t.take 1).map aesSub else if i % 8 = 4 then t.map aesSub else t
  let t := if i % 8 = 0 then t.modify 0 (· ^^^ aesCon (i / 8 - 1)) else t
  t.zipWith (· ^^^ ·) (ws.getD 7 [])

/-- The next `n` words of the schedule, from word `i` on; newest first. -/
def aesExpand : Nat → Nat → List (List Nat) → List (List Nat)
  | 0, _, ws => ws
  | n + 1, i, ws => aesExpand n (i + 1) (aesKeyWord i ws :: ws)

/-- The 15 round keys of an AES-256 key, of 16 bytes each. -/
def aesKeys (key : List Nat) : List (List Nat) :=
  let first := (List.range 8).map fun i => (key.drop (4 * i)).take 4
  let ws := (aesExpand 52 8 first.reverse).reverse
  (List.range 15).map fun r => ((ws.drop (4 * r)).take 4).flatten

/-- Rows of a block go back to their places and bytes are put back. -/
def aesUnshift (b : List Nat) : List Nat :=
  (List.range 16).map fun i => aesUnsub (b.getD (i % 4 + 4 * ((i / 4 + 4 - i % 4) % 4)) 0)

/-- The inverse of the mixing of columns. -/
def aesUnmix (b : List Nat) : List Nat :=
  (List.range 16).map fun i =>
    let at_ := fun (k : Nat) => b.getD (i / 4 * 4 + (i + k) % 4) 0
    aesMul 8 (at_ 0) 14 ^^^ aesMul 8 (at_ 1) 11 ^^^ aesMul 8 (at_ 2) 13 ^^^ aesMul 8 (at_ 3) 9

/-- The inverse rounds, the round keys given last first. -/
def aesRounds : List (List Nat) → List Nat → List Nat
  | [], b => b
  | [k], b => (aesUnshift b).zipWith (· ^^^ ·) k
  | k :: ks, b => aesRounds ks (aesUnmix ((aesUnshift b).zipWith (· ^^^ ·) k))

/-- AES-256 deciphers a block of 16 bytes. -/
def aesDecipher (key block : List Nat) : List Nat :=
  match (aesKeys key).reverse with
  | k :: ks => aesRounds ks (block.zipWith (· ^^^ ·) k)
  | [] => block

/-- The unwrapping steps `t` to 1 over the register of 8 bytes and the blocks of 8 bytes, `n` of them. -/
def unwrapSteps (key : List Nat) (n : Nat) : Nat → List Nat → List (List Nat) → List Nat × List (List Nat)
  | 0, a, rs => (a, rs)
  | t + 1, a, rs =>
    let i := t % n
    let x := a.zipWith (· ^^^ ·) ((bigBytes 8 (t + 1)).map (·.toNat))
    let b := aesDecipher key (x ++ rs.getD i [])
    unwrapSteps key n t (b.take 8) (rs.set i (b.drop 8))

/-- Unwrap a key of 32 bytes from 40: none where the integrity check fails. -/
def unwrapKey (kek : BitVec 256) (wrapped : List Byte) : Option (BitVec 256) :=
  let bs := wrapped.map (·.toNat)
  let key := (bigBytes 32 kek.toNat).map (·.toNat)
  let rs := (List.range 4).map fun i => (bs.drop (8 + 8 * i)).take 8
  let (a, rs) := unwrapSteps key 4 24 (bs.take 8) rs
  if a = List.replicate 8 0xA6 then some (BitVec.ofNat 256 (natOfBig (rs.flatten.map (BitVec.ofNat 8)))) else none

end Sys2Proof.Machine
end

