-- ==== Sys2Proof/Machine/Folio.lean ====
section
/-! DEFINITION. Folio entries: fields, checks, element addresses, format pairs, the copies that quires hold, and privilege
(R54, R272, R274, R293 to R297, R304, R371). -/

namespace Sys2Proof.Machine

/-! ### Fields (R294) -/

def Folio.w (f : Folio) (i : Nat) : Nat := (f.getD i 0).toNat
def Folio.fld (f : Folio) (i lo n : Nat) : Nat := f.w i / 2 ^ lo % 2 ^ n
def Folio.base (f : Folio) : Nat := f.w 0
def Folio.dim (f : Folio) (d : Nat) : Nat := f.fld 1 (16 * d) 16
/-- Byte distance of dimension d, 1 to 3. -/
def Folio.stride (f : Folio) (d : Nat) : Nat := f.fld (1 + d) 0 48
def Folio.scalebase (f : Folio) : Nat := f.w 5
def Folio.valid (f : Folio) : Bool := f.fld 6 63 1 == 1
def Folio.canWrite (f : Folio) : Bool := f.fld 6 57 1 == 1
def Folio.canRead (f : Folio) : Bool := f.fld 6 56 1 == 1
def Folio.pad (f : Folio) : Nat := f.fld 6 52 2
def Folio.rank (f : Folio) : Nat := f.fld 6 48 3
def Folio.sfmtCode (f : Folio) : Nat := f.fld 6 44 4
def Folio.groupCode (f : Folio) : Nat := f.fld 6 42 2
def Folio.fmt (f : Folio) : Fmt := Fmt.ofCode (BitVec.ofNat 4 (f.fld 6 32 4))
def Folio.clamp (f : Folio) : Nat := f.fld 6 0 32
def Folio.space (f : Folio) : Nat := f.fld 7 0 16
/-- The scale format and the group size; none for an unscaled folio. -/
def Folio.sfmt (f : Folio) : Option Fmt :=
  if f.sfmtCode = 0xA then some .bf16 else if f.sfmtCode = 0xF then some .e8m0 else none
def Folio.group (f : Folio) : Nat := 16 * 2 ^ f.groupCode
/-- The clamp bound as an encoding (R65). -/
def Folio.bound (f : Folio) : Nat := if f.clamp = 0 then maxBits f.fmt else f.clamp
/-- Byte width of a format of 8 bits or more. -/
def fmtBytes (f : Fmt) : Nat := fmtWidth f / 8

def Folio.zero : Folio := List.replicate 8 0
def State.folio (s : State) (i : Nat) : Folio := tget Folio.zero s.folios i

/-! ### The checks of FOLSET (R295) -/

/-- Bits that R294 marks zero, per word, `valid` excepted. -/
def folioZeroBits : List Word :=
  [0, 0, 0xFFFF000000000000#64, 0xFFFF000000000000#64, 0xFFFF000000000000#64, 0, 0x7CC803F000000000#64, 0xFFFFFFFFFFFF0000#64]

/-- Check `k` of R295 fails. -/
def Folio.fails (f : Folio) (k : Nat) : Bool :=
  let scaled := decide (f.sfmtCode ≠ 0)
  let weight := decide (f.fmt = .i4) || decide (f.fmt = .i3)
  let bytes := fmtBytes f.fmt
  match k with
  | 1 => decide (2 ^ 56 ≤ f.base) || decide (2 ^ 56 ≤ f.scalebase)
  | 2 => decide (f.rank = 0) || decide (4 < f.rank)
  | 3 => (List.range 4).any fun d =>
      if d < f.rank then decide (f.dim d = 0) else decide (f.dim d ≠ 0) || (decide (1 ≤ d) && decide (f.stride d ≠ 0))
  | 4 => decide (f.fmt = .e8m0) || !(decide (f.sfmtCode = 0) || decide (f.sfmtCode = 0xA) || decide (f.sfmtCode = 0xF))
      || (scaled != decide (f.groupCode ≠ 0))
      || (scaled && !(weight || decide (f.fmt = .e4m3) || decide (f.fmt = .e5m2))) || (weight && !scaled)
  | 5 => (decide (f.fmt = .i4) && decide (f.dim 0 % 2 = 1)) || (decide (f.fmt = .i3) && decide (f.dim 0 % 8 ≠ 0))
  | 6 => decide (8 ≤ fmtWidth f.fmt)
      && (decide (f.base % bytes ≠ 0) || [1, 2, 3].any fun d => decide (f.stride d % bytes ≠ 0))
  | 7 => if isFloat f.fmt then !(decide (f.clamp = 0) || (decide (f.clamp ≤ maxBits f.fmt) && decide (f.clamp ≠ 0)))
      else decide (f.clamp ≠ 0)
  | 8 => decide (2 ≤ f.pad)
  | 9 => (List.range 8).any fun i => decide (f.getD i 0 &&& folioZeroBits.getD i 0 ≠ 0)
  | _ => false

/-- The number of the first failing check, 0 for none. -/
def Folio.check (f : Folio) : Nat := ((List.range 9).map (· + 1)).find? f.fails |>.getD 0

/-! ### Elements (R54, R296) -/

/-- Coordinates packed in a register: coordinate d in bits [16 d + 15 : 16 d]. -/
def coordsOf (w : Word) : List Nat := (List.range 4).map fun d => (w.extractLsb' (16 * d) 16).toNat

/-- Byte offset of coordinate 0. -/
def Folio.off0 (f : Folio) (c : Nat) : Nat :=
  match f.fmt with
  | .i4 => c / 2
  | .i3 => c / 8 * 3
  | _ => c * fmtBytes f.fmt

/-- Address of an element; for I3 that of its 3-byte unit. -/
def Folio.addr (f : Folio) (c : List Nat) : Nat :=
  f.base + f.off0 (c.getD 0 0) + c.getD 1 0 * f.stride 1 + c.getD 2 0 * f.stride 2 + c.getD 3 0 * f.stride 3

/-- The element is out of bounds. -/
def Folio.oob (f : Folio) (c : List Nat) : Bool :=
  ((List.range 4).any fun d => if d < f.rank then decide (f.dim d ≤ c.getD d 0) else decide (c.getD d 0 ≠ 0))
    || decide (2 ^ 56 ≤ f.addr c)

/-- Bytes to read for an element, and the bit position of the element in them. -/
def Folio.cell (f : Folio) (c0 : Nat) : Nat × Nat :=
  match f.fmt with
  | .i4 => (1, c0 % 2 * 4)
  | .i3 => (3, c0 % 8 * 3)
  | g => (fmtBytes g, 0)

/-- Address of an element's scale (R296). -/
def Folio.scaleAddr (f : Folio) (c : List Nat) : Nat :=
  let ng := ceilDiv (f.dim 0) f.group
  let i := ((c.getD 3 0 * f.dim 2 + c.getD 2 0) * f.dim 1 + c.getD 1 0) * ng + c.getD 0 0 / f.group
  f.scalebase + i * (if f.sfmt = some .e8m0 then 1 else 2)

/-- A box with origin `o` and extent `e` names no element (R304). -/
def Folio.boxEmpty (f : Folio) (e : List Nat) : Bool := (List.range 4).any fun d => decide (d < f.rank) && decide (e.getD d 0 = 0)

/-- Some element of a box is out of bounds: its farthest one is (R304). -/
def Folio.boxOob (f : Folio) (o e : List Nat) : Bool :=
  ((List.range 4).any fun d =>
    if d < f.rank then decide (f.dim d < o.getD d 0 + e.getD d 0) else decide (o.getD d 0 ≠ 0) || decide (1 < e.getD d 0))
    || decide (2 ^ 56 ≤ f.addr ((List.range 4).map fun d => o.getD d 0 + (e.getD d 0 - 1)))

/-- The coordinates of a box, dimension 0 fastest (R252). -/
def boxCoords (o e : List Nat) (rank : Nat) : List (List Nat) :=
  let n := fun d => if d < rank then e.getD d 0 else 1
  (List.range (n 3)).flatMap fun c3 => (List.range (n 2)).flatMap fun c2 => (List.range (n 1)).flatMap fun c1 =>
    (List.range (n 0)).map fun c0 => [o.getD 0 0 + c0, o.getD 1 0 + c1, o.getD 2 0 + c2, o.getD 3 0 + c3]

/-! ### Format pairs (R252, R272) -/

/-- Register or tile format `fr` represents every value of folio format `ff`. -/
def holdsAll (fr ff : Fmt) : Bool :=
  match fr with
  | .f32 => isFloat ff
  | .f16 | .bf16 => decide (ff = fr) || decide (ff = .e4m3) || decide (ff = .e5m2)
  | _ => decide (ff = fr) && isFloat ff

def loadPair (fr ff : Fmt) : Bool := decide (fr = ff) || (isFloat fr && isFloat ff && holdsAll fr ff)
def storePair (fr ff : Fmt) : Bool := decide (fr = ff) || (isFloat fr && isFloat ff && decide (fmtWidth ff < fmtWidth fr))

/-- An element read from a folio into format `fr`. -/
def loadConv (fr ff : Fmt) (bits : Nat) : Nat :=
  if fr = ff then bits else cvtFloat fr .rne (maxBits fr) none (flOf ff bits)
/-- An element of format `fr` as the folio stores it. -/
def storeConv (fr : Fmt) (f : Folio) (bits : Nat) : Nat :=
  if fr = f.fmt then bits else cvtFloat f.fmt .rne f.bound none (flOf fr bits)

/-! ### Copies held by quires (R293) -/

/-- The entry that an engine instruction uses: it waits until the quire holds a copy. -/
def State.needFolio (s : State) (i : Nat) : Res Folio :=
  let q := quireOf (coreOf s.cur)
  if (s.quire q).folios.contains i then .ok (s.folio i)
  else .error (.waitWith (if s.folioWait.contains (q, i) then s else { s with folioWait := s.folioWait ++ [(q, i)] }) .other)

/-- FOLIO_FETCH (R293): a full set of 256 copies gives up one that the implementation picks. -/
def execFolioFetch (quire idx : Nat) (s : State) : Host.Outcome State Fault Refusal :=
  .next (if s.folioWait.contains (quire, idx) then
    let v := Config.folioVictim s.draws
    let s := { s with folioWait := s.folioWait.filter (· ≠ (quire, idx)), draws := s.draws + 1 }
    s.modQuire quire fun q => { q with
      folios := idx :: (if q.folios.length < 256 then q.folios else lremove q.folios (v % 256)) }
  else s)

/-- An entry changes: every quire's copy is dropped (R302). -/
def State.setFolio (s : State) (i : Nat) (f : Folio) : State :=
  let s := { s with folios := tset Folio.zero s.folios i f }
  s.quires.foldl (fun s e => s.modQuire e.1 fun q => { q with folios := q.folios.filter (· ≠ i) }) s

/-- The value of the folio trap (R274, R297). -/
def folioTrap (idx detail lane : Nat) : Stop := .trap 14 (BitVec.ofNat 64 (idx % 2 ^ 16 + detail * 2 ^ 16 + lane % 512 * 2 ^ 20))

/-- Validity, rights and a local base, as vector and matrix instructions check them (R274). -/
def Folio.usable (f : Folio) (idx : Nat) (needR needW : Bool) : Res Unit :=
  if !f.valid then .error (folioTrap idx 1 0)
  else if (needR && !f.canRead) || (needW && !f.canWrite) then .error (folioTrap idx 2 0)
  else .ok ()

/-! ### Privilege (R371) -/

/-- An instruction of service level. DEDUCED: log entry 35. -/
def State.needService (s : State) (opcode reg : Nat) : Res Unit :=
  if (s.slotSet s.cur).service then .ok () else .error (.trap 5 (BitVec.ofNat 64 (opcode + reg * 2 ^ 10)))

end Sys2Proof.Machine
end

