-- ==== Sys2Proof/Machine/Engine.lean ====
section
/-! DEFINITION. Memory as the matrix unit and the tile copier reach it: translation, scratchpad checks, uncorrectable words
(R248, R256, R318, R321, R386, R417). -/

namespace Sys2Proof.Machine

/-- What an engine may touch of its quire's scratchpad: as a thread (R248), only ENGINE tiles (R321), or as the copier with its
own tiles unchecked (R256). -/
inductive SpRule where
  | thread
  | sent
  | tiles (first n : Nat)
deriving DecidableEq, Repr

/-- Who accesses: the core whose TLB is used, the quire, the slot that issued the command and its set, the space; and the bytes that
it has read early. -/
structure Eng where
  core : Nat
  quire : Nat
  slot : Nat
  gen : BitVec 8
  tsid : Nat
  space : Nat
  rule : SpRule
  seen : List (Nat × Byte)
deriving DecidableEq, Repr

/-- Why an engine's access is not made: a live fault entry, no free fault entry, a page that denies it, an uncorrectable word,
a scratchpad byte that is refused. -/
inductive EngFail where
  | fault (isle idx : Nat)
  | wait
  | denied
  | fatal
  | refused
deriving DecidableEq, Repr

/-- A scratchpad byte is closed to every engine but the copier in its own tiles: free or guarded. -/
def Quire.closedByte (q : Quire) (off : Nat) : Bool :=
  let t := tileOf q (off / 4096)
  !t.alloc || t.zeroing || t.gd.getLsbD (off / 256 % 16)

def Quire.engRefuses (q : Quire) (r : SpRule) (off : Nat) : Bool :=
  let t := tileOf q (off / 4096)
  match r with
  | .thread => q.closedByte off || t.engine
  | .sent => q.closedByte off || !t.engine
  | .tiles f n => !decide (4096 * f ≤ off ∧ off < 4096 * (f + n)) && (q.closedByte off || t.engine)

/-- A refused access of a command that a thread issued is charged to its slot as R248 states. -/
def State.chargeEng (s : State) (e : Eng) (home len : Nat) (write : Bool) : State :=
  match e.rule with
  | .tiles _ _ => s
  | _ =>
    match s.spRefused home len with
    | some (off, own) => if own && e.rule == .sent then s else s.guardEvent e.slot e.gen home write own off
    | none => s

/-- Access `len` bytes at `va`: their home. -/
def State.engAt (s : State) (e : Eng) (va len : Nat) (needR needW mends : Bool) : Except EngFail Nat × State :=
  let (loc, s) := s.engineReach (some e.core) (e.quire / 12) e.quire e.space va needR needW 1 (whoOf e.tsid e.slot e.gen)
  match loc with
  | .home h _ =>
    if isSp h && (List.range len).any fun i => (s.quire e.quire).engRefuses e.rule (spOff (h + i)) then
      (.error .refused, s.chargeEng e h len needW)
    else if !mends && s.isBroken h len then (.error .fatal, s.recordBroken h)
    else (.ok h, s)
  | .deny => (.error .denied, s)
  | .fault i n => (.error (.fault i n), s)
  | _ => (.error .wait, s)

/-- Read `n` bytes one at a time. -/
def State.engBytes (s : State) (e : Eng) (va : Nat) : Nat → Except EngFail Nat × State
  | 0 => (.ok 0, s)
  | n + 1 =>
    match s.engAt e va 1 true false false with
    | (.ok h, s) =>
      match s.engBytes e (va + 1) n with
      | (.ok v, t) => (.ok ((s.byteOf e.seen h).toNat + 256 * v), t)
      | r => r
    | (.error f, s) => (.error f, s)

/-- Read `len` bytes: at once inside a word, else byte by byte. -/
def State.engRead (s : State) (e : Eng) (va len : Nat) : Except EngFail Nat × State :=
  if va % 8 + len ≤ 8 then
    match s.engAt e va len true false false with
    | (.ok h, s) => (.ok (s.readSeen e.seen h len), s)
    | r => r
  else s.engBytes e va len

/-- Read an element of a folio; none where it is out of bounds (R296). -/
def State.engElem (s : State) (e : Eng) (f : Folio) (c : List Nat) : Except EngFail (Option Nat) × State :=
  if f.oob c then (.ok none, s)
  else
    let (n, sh) := f.cell (c.getD 0 0)
    match s.engRead e (f.addr c) n with
    | (.ok v, s) => (.ok (some (v / 2 ^ sh % 2 ^ fmtWidth f.fmt)), s)
    | (.error x, s) => (.error x, s)

/-- Read a weight with its group scale (R296, R309). -/
def State.engWeight (s : State) (e : Eng) (f : Folio) (c : List Nat) : Except EngFail (Option (Nat × Nat)) × State :=
  match s.engElem e f c with
  | (.ok (some w), s) =>
    if f.sfmt = none then (.ok (some (w, 0)), s)
    else match s.engRead e (f.scaleAddr c) (if f.sfmt = some .e8m0 then 1 else 2) with
      | (.ok v, s) => (.ok (some (w, v)), s)
      | (.error x, s) => (.error x, s)
  | (.ok none, s) => (.ok none, s)
  | (.error x, s) => (.error x, s)

/-- Read a list of elements, up to the first failure. -/
def engList {α β : Type} (rd : State → α → Except EngFail β × State) : State → List α → Except EngFail (List β) × State
  | s, [] => (.ok [], s)
  | s, a :: as =>
    match rd s a with
    | (.ok v, s) =>
      match engList rd s as with
      | (.ok vs, s) => (.ok (v :: vs), s)
      | r => r
    | (.error x, s) => (.error x, s)

/-- A vector store that the slot issued before access `id`. -/
def earlierVst (k : Nat) (gen : BitVec 8) (id : Nat) (r : Ref) : Bool :=
  r.slot == k && decide (r.gen = gen) && decide (r.id < id) && (match r.op with
    | .vstore _ _ => true
    | _ => false)

/-- Every store, atomic and synchronising operation that the slot issued before access `id` has reached its home (R253,
R306). -/
def State.settledBefore (s : State) (k : Nat) (gen : BitVec 8) (id : Nat) : Bool :=
  !(s.accs.any fun a => a.slot == k && decide (a.gen = gen) && decide (a.id < id) && !a.arrived
    && (decide (a.sets &&& setS ≠ 0) || (!a.plain && decide (a.sets &&& setL ≠ 0))))
  && !s.refs.any (earlierVst k gen id)
  && !s.isles.any fun e => e.2.faults.any fun f => f.2.parked.any fun p => match p.what with
    | .ref r => earlierVst k gen id r
    | _ => false

end Sys2Proof.Machine
end

