-- ==== Sys2Proof/Machine/Scratch.lean ====
section
/-! DEFINITION. Scratchpad instructions at issue: allocation, handing, copies, TWAIT and queries (R246 to R260). -/

namespace Sys2Proof.Machine

def tileCount : Nat := 512

/-- The quire of the issuing slot. -/
def State.myQ (s : State) : Quire := s.quire s.myQuire
/-- A tile is free and ready to be allocated (R246, R247). -/
def Quire.tileFree (q : Quire) (t : Nat) : Bool := !(tileOf q t).alloc && !(tileOf q t).zeroing

/-- The lowest run of `n` free tiles. -/
def Quire.firstFit (q : Quire) (n : Nat) : Option Nat :=
  leastFrom (fun t => decide (t + n ≤ tileCount) && (List.range n).all fun i => q.tileFree (t + i)) tileCount 0

/-- Guard bits of the tile that lies `i` tiles behind the first of an allocation of `g` granules (R246). -/
def guardBits (g i : Nat) : BitVec 16 :=
  BitVec.ofNat 16 ((List.range 16).map fun k => if g ≤ 16 * i + k then 2 ^ k else 0).sum

/-- What SPALLOC does for `g` granules: its result and the quire (R246). -/
def Quire.allocate (q : Quire) (tsid : Nat) (key : BitVec 60) (g : Nat) : Word × Quire :=
  let n := ceilDiv g 16
  if g = 0 ∨ 8176 < g then (BitVec.ofNat 64 (2 ^ 63 + 2), q)
  else match q.firstFit (n + 1) with
    | none => (BitVec.ofNat 64 (2 ^ 63 + 1), q)
    | some t =>
      let mk := fun i => { Tile.init with
        first := t, alloc := true, guard := i == n, dirty := true, key := key, gd := guardBits g i, tsid := tsid, granules := g }
      (BitVec.ofNat 64 t, (List.range (n + 1)).foldl (fun q i => q.setTile (t + i) (mk i)) q)

/-- Tiles of a quire hold zero data again, with their errors cleared (R417). -/
def State.mendTiles (s : State) (quire t n : Nat) : State := s.mendRange (spHome quire (4096 * t)) (4096 * n)

/-- SPALLOC for `g` granules: its result and the state (R246, R417). -/
def State.spalloc (s : State) (g : Nat) : Word × State :=
  let (v, q) := s.myQ.allocate (s.me.tsid.getD 0) (s.slotSet s.cur).key g
  let t := s.setQuire s.myQuire q
  (v, if v.getLsbD 63 then t else t.mendTiles s.myQuire v.toNat (ceilDiv g 16 + 1))

/-- SPALLOC (R246). -/
def execSpalloc (g : Guard) (d : Dst) (n : Src) (s : State) : Host.Outcome State Fault Refusal :=
  s.issue g do
    let (x, r) ← readX 0 n s.rd
    let (v, t) := (r.s.killXs [n]).spalloc x.toNat
    let t ← t.put d v
    pure t.advance

/-- A word of a tile is watched. -/
def State.tileWatched (s : State) (quire tile : Nat) : Bool :=
  s.moors.any fun m => decide (spHome quire (4096 * tile) ≤ m.home ∧ m.home < spHome quire (4096 * (tile + 1)))

/-- Tiles of the allocation whose first tile is `t`. -/
def Quire.allocTiles (q : Quire) (t : Nat) : List Nat := (q.tiles.filter fun e => e.2.alloc && e.2.first == t).map (·.1)

/-- SPFREE: the status and the state (R247). -/
def State.spfree (s : State) (t : Nat) : Word × State :=
  let q := s.myQ
  let f := tileOf q t
  let tiles := q.allocTiles t
  if !(f.alloc && f.first == t && f.tsid == s.me.tsid.getD 0) then (1, s)
  else if tiles.any fun i => (tileOf q i).engine || (tileOf q i).inq || s.tileWatched s.myQuire i then (2, s)
  else
    (0, (s.setQuire s.myQuire (q.freeAlloc t)).wakeTiles s.myQuire)

/-- SPFREE (R247). -/
def execSpfree (g : Guard) (d : Dst) (t : Src) (s : State) : Host.Outcome State Fault Refusal :=
  s.issue g do
    let (x, r) ← readX 0 t s.rd
    let (v, u) := (r.s.killXs [t]).spfree (x.toNat % 512)
    let u ← u.put d v
    pure u.advance

/-- An access that the issuing slot made earlier to a word of the `n` tiles from `t` on has not reached its home: the tiles are
handed over behind it (R253, R259, R261). DEDUCED: log entry 38. -/
def State.tilesDue (s : State) (t n : Nat) : Bool :=
  let words := [spanOf (spHome s.myQuire (4096 * t)) (4096 * n)]
  (s.accs.any fun a => a.slot == s.cur && decide (a.gen = s.me.gen) && !a.arrived && spansMeet a.words words)
    || s.manyAhead s.serial s.cur s.me.gen words

/-- THAND .eng (R259). -/
def execThandEng (g : Guard) (d : Dst) (t : Src) (s : State) : Host.Outcome State Fault Refusal :=
  s.issue g do
    let (x, r) ← readX 0 t s.rd
    let n := x.toNat % 512
    let u := r.s.killXs [t]
    let tl := tileOf u.myQ n
    let done := fun (u : State) (v : Word) => do
      let u ← u.put d v
      pure u.advance
    if !tl.alloc || tl.guard then done u 3
    else if tl.engine then done u 1
    else if u.tilesDue n 1 then .error (.wait .other)
    else done (u.modQuire u.myQuire fun q => q.setTile n { tl with engine := true }) 0

/-- THAND .thr (R259). -/
def execThandThr (g : Guard) (d : Dst) (t : Src) (s : State) : Host.Outcome State Fault Refusal :=
  s.issue g do
    let (x, r) ← readX 0 t s.rd
    let n := x.toNat % 512
    let u := r.s.killXs [t]
    let tl := tileOf u.myQ n
    let done := fun (u : State) (v : Word) => do
      let u ← u.put d v
      pure u.advance
    if !tl.alloc || tl.guard then done u 3
    else if !tl.engine then done u 1
    else if tl.inq then done u 2
    else
      let u := (u.modQuire u.myQuire fun q => q.setTile n { tl with engine := false, phase := !tl.phase }).wakeTiles u.myQuire
      done ((u.modQuire u.myQuire fun q => q.reap).wakeTiles u.myQuire) 0

/-! ### Copies (R252 to R254) -/

/-- Elements of a box within the folio's rank. -/
def Folio.boxCount (f : Folio) (e : List Nat) : Nat := ((List.range f.rank).map fun d => e.getD d 0).foldl (· * ·) 1

/-- The refusal code of a TCOPY, 0 for none (R253). -/
def copyRefusal (q : Quire) (f : Folio) (t n b : Nat) (o e : List Nat) (out : Bool) (fmt : Fmt) : Nat :=
  let tl := fun i => tileOf q (t + i)
  let r := List.range n
  let size := f.boxCount e * fmtBytes fmt
  if 512 < t + n || r.any fun i => !(tl i).alloc || (tl i).guard || (tl i).first != (tl 0).first then 1
  else if r.any fun i => (tl i).engine || (tl i).inq then 2
  else if f.valid && ((List.range 4).any (fun d => if d < f.rank then decide (e.getD d 0 = 0)
      else decide (o.getD d 0 ≠ 0) || decide (1 < e.getD d 0)) || decide (size ≠ b) || decide (4096 * n < size)) then 3
  else if !f.valid || (!out && !f.canRead) || (out && !f.canWrite)
      || !(if out then storePair fmt f.fmt else loadPair fmt f.fmt) then 4
  else 0

/-- Latency class of an address for a quire's copier (R254). -/
def State.copyClass (s : State) (quire space a : Nat) : Nat :=
  let isle := quire / 12
  if inWindow a then 32
  else if a.testBit 55 then 4000
  else
    let tlbs := (s.isle isle).tlb ++ (s.cores.filter fun c => isleOf c.1 == isle).flatMap fun c => c.2.tlb
    match tlbFind tlbs space a with
    | some e => if !e.sp && e.hisle == isle then 240 else 320
    | none => 320

/-- TCOPY is accepted (R253, R254): the promise and the state. -/
def State.acceptCopy (s : State) (f : Folio) (t n b : Nat) (o e : Word) (out fill : Bool) (fmt : Fmt) : Word × State :=
  let q := s.myQuire
  let first := coordsOf o
  let last := (List.range 4).map fun d => first.getD d 0 + ((coordsOf e).getD d 0 - 1)
  let l := Nat.max (s.copyClass q f.space (f.addr first)) (s.copyClass q f.space (f.addr last))
  let clk := ceilDiv b 128
  let start := Nat.max s.cyc (s.quire q).horizon
  let (id, s) := s.newAcc s.cur setE [] false
  let c : Copy := {
    no := id, acc := id, slot := s.cur, gen := s.me.gen, job := (s.slotSet s.cur).job, tile := t, tiles := n, bytes := b, out := out, fill := fill, fmt := fmt,
    folio := f, origin := o, extent := e, todo := List.range (f.boxCount (coordsOf e)), held := false }
  let s := s.modQuire q fun u => (List.range n).foldl (fun u i =>
    u.setTile (t + i) { tileOf u (t + i) with engine := true, inq := true, done := 0, err := false, ecode := 0, pm := false })
    { u with copyq := u.copyq ++ [c], horizon := start + clk }
  (BitVec.ofNat 64 (start + l + clk), s)

/-- TCOPY (R252, R253). DEDUCED: log entry 38. -/
def execTcopy (g : Guard) (d : Dst) (t o e : Src) (fill : Bool) (fmt : Fmt) (out : Bool) (bytes : BitVec 16)
    (tiles : BitVec 4) (folio : BitVec 16) (s : State) : Host.Outcome State Fault Refusal :=
  s.issue g do
    s.holdFor setE
    let (x, r) ← readX 0 t s.rd
    let (y, r) ← readX 1 o r
    let (z, r) ← readX 2 e r
    if 32 ≤ s.myQ.copyq.length then .error (.wait .other)
    else do
      let f ← s.needFolio folio.toNat
      let u := r.s.killXs [t, o, e]
      let n := tiles.toNat + 1
      let b := bytes.toNat + 1
      let c := copyRefusal u.myQ f (x.toNat % 512) n b (coordsOf y) (coordsOf z) out fmt
      if decide (c = 0) && s.tilesDue (x.toNat % 512) n then (.error (.wait .other) : Res Unit) else .ok ()
      let (v, u) := if c = 0 then u.acceptCopy f (x.toNat % 512) n b y z out fill fmt else (BitVec.ofNat 64 (2 ^ 63 + c), u)
      let u ← u.put d v
      pure u.advance

/-! ### TWAIT (R257) -/

/-- TWAIT (R257): a status found while the slot waited, or what the tile shows now. Status 4 of the stall stands for the
promise-missed trap. DEDUCED: log entry 27. -/
def execTwait (g : Guard) (d : Dst) (t dl pr : Src) (phase : Bool) (s : State) : Host.Outcome State Fault Refusal :=
  s.issue g do
    let (x, r) ← readX 0 t s.rd
    let (y, r) ← readX 1 dl r
    let (z, r) ← readX 2 pr r
    let n := x.toNat % 512
    let tl := tileOf s.myQ n
    let finish := fun (st : Nat) => do
      let u := (r.s.killXs [t, dl, pr]).modSlot s.cur fun u => { u with stall := .none }
      let u ← u.put d (BitVec.ofNat 64 st)
      pure u.advance
    match s.me.stall with
    | .twait _ _ _ _ (some 4) => .error (.asyncTrap 22 (BitVec.ofNat 64 n))
    | .twait _ _ _ _ (some st) => finish st
    | .twait _ _ _ _ none => .error (.wait .other)
    | _ =>
      if !tl.alloc then finish 3
      else if !tl.engine && tl.phase == phase then finish (if tl.err then 2 else 0)
      else if decide (y ≠ 0) && decide (y.toNat ≤ s.cyc) then finish 1
      else .error (.waitWith (s.modSlot s.cur fun u => { u with stall := .twait n phase y z none }) .other)

/-- TWAIT_DEADLINE (R257). -/
def execTwaitDeadline (slot : Nat) (s : State) : Host.Outcome State Fault Refusal :=
  .next (match (s.slot slot).stall with
    | .twait n ph dl pr none =>
      if dl ≠ 0 ∧ dl.toNat ≤ s.cyc then s.modSlot slot fun t => { t with stall := .twait n ph dl pr (some 1) } else s
    | _ => s)

/-- PROMISE_MISS (R257, R258): `pm` is set once per copy, where the deadline has not come; under TCTL.pmask no trap is taken, and in a
handler it stays pending
(R377). DEDUCED: log entry 27. -/
def execPromiseMiss (slot : Nat) (s : State) : Host.Outcome State Fault Refusal :=
  .next (match (s.slot slot).stall with
    | .twait n ph dl pr none =>
      let q := quireOf (coreOf slot)
      let tl := tileOf (s.quire q) n
      if dl ≠ 0 ∧ dl.toNat ≤ s.cyc then s
      else if pr ≠ 0 ∧ pr.toNat ≤ s.cyc ∧ tl.inq ∧ tl.pm = false then
        let s := s.modQuire q fun u => u.setTile n { tl with pm := true }
        if (s.slot slot).tctl.getLsbD 0 then s
        else if (s.slot slot).inh then s.post slot (s.slot slot).gen 22 (BitVec.ofNat 64 n)
        else s.modSlot slot fun t => { t with stall := .twait n ph dl pr (some 4) }
      else s
    | _ => s)

/-! ### Queries and scalar access (R251, R260) -/

/-- The word of TSTAT (R245). -/
def tstatWord (t : Tile) : Word :=
  let b := fun (x : Bool) (n : Nat) => if x then 2 ^ n else 0
  BitVec.ofNat 64 ((if t.alloc then t.first % 512 else 0) * 2 ^ 41 + t.done % 2 ^ 17 * 2 ^ 24 + t.ecode % 16 * 2 ^ 8 + b t.alloc 7
    + b t.guard 6 + b t.err 5 + b t.pm 4 + b t.inq 2 + b t.phase 1 + b t.engine 0)

/-- TSTAT (R260). -/
def execTstat (g : Guard) (d : Dst) (t : Src) (s : State) : Host.Outcome State Fault Refusal :=
  s.op1 g d t fun x => tstatWord (tileOf s.myQ (x.toNat % 512))
/-- TCQ (R260). -/
def execTcq (g : Guard) (d : Dst) (s : State) : Host.Outcome State Fault Refusal :=
  s.op0 g d (BitVec.ofNat 64 (s.myQ.copyq.length + s.myQ.running.length * 256))
/-- SPHASH (R260). -/
def execSphash (g : Guard) (d : Dst) (o : Src) (key : Bool) (s : State) : Host.Outcome State Fault Refusal :=
  if key then s.op0 g d ((s.slotSet s.cur).key.setWidth 64)
  else s.op1 g d o fun x =>
    let off := x.toNat % 2 ^ 21
    BitVec.ofNat 64 (bankOf (tileOf s.myQ (off / 4096)).key off)

/-- The window address of a scratchpad offset (R251). DEDUCED: log entry 28. -/
def spAddr (o : Word) (w : Width) : Res Word :=
  if 2 ^ 21 ≤ o.toNat then .error (.trap 11 o)
  else do
    let va := BitVec.ofNat 64 spBase + o
    addrCheck va (widthBytes w) false
    pure va

/-- SPLD (R251). DEDUCED: log entry 28. -/
def execSpld (g : Guard) (d : Dst) (b : Src) (w : Width) (sgn : Bool) (imm : BitVec 40) (s : State) :
    Host.Outcome State Fault Refusal :=
  s.memOp g b imm fun t o => do
    t.holdFor setL
    let va ← spAddr o w
    if d = 0 then pure t else t.loadAt d va w sgn
/-- SPST (R251). DEDUCED: log entry 28. -/
def execSpst (g : Guard) (b v : Src) (w : Width) (imm : BitVec 40) (s : State) : Host.Outcome State Fault Refusal :=
  s.memOpV g b v imm fun t o y => do
    t.holdFor setS
    let va ← spAddr o w
    t.storeAt va w y

end Sys2Proof.Machine
end

