-- ==== Sys2Proof/Machine/Atomics.lean ====
section
/-! DEFINITION. Atomics, reductions and memory agents at issue, and what an atomic writes (R176 to R191). -/

namespace Sys2Proof.Machine

/-- The least or greatest of two numbers of a width, signed or not. -/
def minMaxAt (bits : Nat) (mx sgn : Bool) (a b : Nat) : Nat :=
  let lt := if sgn then decide ((BitVec.ofNat bits a).toInt < (BitVec.ofNat bits b).toInt) else decide (a < b)
  if lt = mx then b else a

/-- The value an atomic writes over `old` at a width, none where it leaves the word (R181 to R183).
DESIGN CHOICE: log entry 73. -/
def atomNew (op : AtomOp) (w : Width) (old v c : Nat) : Option Nat :=
  let n := widthBits w
  let m := 2 ^ n
  let v := v % m
  let c := c % m
  match op with
  | .add => some ((old + v) % m)
  | .and => some (old &&& v)
  | .or => some (old ||| v)
  | .xor => some (old ^^^ v)
  | .minS => some (minMaxAt n false true old v)
  | .maxS => some (minMaxAt n true true old v)
  | .minU => some (minMaxAt n false false old v)
  | .maxU => some (minMaxAt n true false old v)
  | .xchg => some v
  | .cas => if old = v then some c else none
  | .fadd => some (fop .add (if n = 16 then .bf16 else .f32) .rne old v)
  | .incw => some (if v ≤ old then 0 else (old + 1) % m)
  | .fab => if old + v ≤ c then some (old + v) else none

/-- A returning atomic (R180, R181, R209). -/
def State.atomAt (s : State) (d : Dst) (va : Word) (op : AtomOp) (w : Width) (v c : Word) : Res State := do
  s.holdFor (setsOf va (setL ||| setS))
  addrCheck va (widthBytes w) false
  if isGlobal va then s.remote d va (.atom op w v c) (.probe true true true w) false
  else if d = 0 then s.touch (setL ||| setS) va true true
  else do
    let j := xIndex s.me.wstate d.toNat
    let t ← s.emptyXj j
    t.sendRef (setL ||| setS) va (.reg j) (.atom op w v c true) false

/-- A reduction (R184, R212). -/
def State.redAt (s : State) (va : Word) (op : AtomOp) (w : Width) (code : BitVec 6) (v : Word) : Res State := do
  s.holdFor (setsOf va setS)
  addrCheck va (widthBytes w) false
  if isGlobal va then s.sendElem va (widthBytes w) code v
  else s.sendRef setS va .none (.atom op w v 0 false) true

/-- The width of AFADD and REDFADD. -/
def faddWidth (f32 : Bool) : Width := if f32 then .b32 else .b16

/-- An address that an agent serves (R179): DRAM only. DESIGN CHOICE: log entry 71. -/
def agentCheck (va : Word) (align : Nat) : Res Unit := do
  addrCheck va align false
  if inWindow va.toNat then .error (.trap 11 va) else pure ()

/-- An atomic with two data operands. -/
def State.atomOp3 (s : State) (g : Guard) (d : Dst) (b v c : Src) (op : AtomOp) (w : Width) (imm : BitVec 40) :
    Host.Outcome State Fault Refusal :=
  s.issue g do
    let (x, r) ← readX 0 b s.rd
    let (y, r) ← readX 1 v r
    let (z, r) ← readX 2 c r
    let t ← (r.s.killXs [b, v, c]).atomAt d (x + sext40 imm) op w y z
    pure t.advance

/-- An atomic with one data operand. -/
def State.atomOp2 (s : State) (g : Guard) (d : Dst) (b v : Src) (op : AtomOp) (w : Width) (imm : BitVec 40) :
    Host.Outcome State Fault Refusal := s.memOpV g b v imm fun t va y => t.atomAt d va op w y 0

/-- A reduction instruction. -/
def State.redOp (s : State) (g : Guard) (b v : Src) (op : AtomOp) (w : Width) (code : BitVec 6) (imm : BitVec 40) :
    Host.Outcome State Fault Refusal := s.memOpV g b v imm fun t va y => t.redAt va op w code y

/-- AADD (R181). -/
def execAadd (g : Guard) (d : Dst) (b v : Src) (w : Width) (imm : BitVec 40) (s : State) :
    Host.Outcome State Fault Refusal := s.atomOp2 g d b v .add w imm
/-- AAND (R181). -/
def execAand (g : Guard) (d : Dst) (b v : Src) (w : Width) (imm : BitVec 40) (s : State) :
    Host.Outcome State Fault Refusal := s.atomOp2 g d b v .and w imm
/-- AOR (R181). -/
def execAor (g : Guard) (d : Dst) (b v : Src) (w : Width) (imm : BitVec 40) (s : State) :
    Host.Outcome State Fault Refusal := s.atomOp2 g d b v .or w imm
/-- AXOR (R181). -/
def execAxor (g : Guard) (d : Dst) (b v : Src) (w : Width) (imm : BitVec 40) (s : State) :
    Host.Outcome State Fault Refusal := s.atomOp2 g d b v .xor w imm
/-- AMIN (R181). -/
def execAmin (g : Guard) (d : Dst) (b v : Src) (uns : Bool) (w : Width) (imm : BitVec 40) (s : State) :
    Host.Outcome State Fault Refusal := s.atomOp2 g d b v (if uns then .minU else .minS) w imm
/-- AMAX (R181). -/
def execAmax (g : Guard) (d : Dst) (b v : Src) (uns : Bool) (w : Width) (imm : BitVec 40) (s : State) :
    Host.Outcome State Fault Refusal := s.atomOp2 g d b v (if uns then .maxU else .maxS) w imm
/-- AXCHG (R181). -/
def execAxchg (g : Guard) (d : Dst) (b v : Src) (w : Width) (imm : BitVec 40) (s : State) :
    Host.Outcome State Fault Refusal := s.atomOp2 g d b v .xchg w imm
/-- ACAS (R181). -/
def execAcas (g : Guard) (d : Dst) (b v c : Src) (w : Width) (imm : BitVec 40) (s : State) :
    Host.Outcome State Fault Refusal := s.atomOp3 g d b v c .cas w imm
/-- AFADD (R183). -/
def execAfadd (g : Guard) (d : Dst) (b v : Src) (f32 : Bool) (imm : BitVec 40) (s : State) :
    Host.Outcome State Fault Refusal := s.atomOp2 g d b v .fadd (faddWidth f32) imm
/-- AINCW (R181, R182). -/
def execAincw (g : Guard) (d : Dst) (b v : Src) (w : Width) (imm : BitVec 40) (s : State) :
    Host.Outcome State Fault Refusal := s.atomOp2 g d b v .incw w imm
/-- AFAB (R181, R182). -/
def execAfab (g : Guard) (d : Dst) (b v c : Src) (w : Width) (imm : BitVec 40) (s : State) :
    Host.Outcome State Fault Refusal := s.atomOp3 g d b v c .fab w imm
/-- REDADD (R184). -/
def execRedadd (g : Guard) (b v : Src) (w : Width) (imm : BitVec 40) (s : State) : Host.Outcome State Fault Refusal :=
  s.redOp g b v .add w 1 imm
/-- REDAND (R184). -/
def execRedand (g : Guard) (b v : Src) (w : Width) (imm : BitVec 40) (s : State) : Host.Outcome State Fault Refusal :=
  s.redOp g b v .and w 2 imm
/-- REDOR (R184). -/
def execRedor (g : Guard) (b v : Src) (w : Width) (imm : BitVec 40) (s : State) : Host.Outcome State Fault Refusal :=
  s.redOp g b v .or w 3 imm
/-- REDXOR (R184). -/
def execRedxor (g : Guard) (b v : Src) (w : Width) (imm : BitVec 40) (s : State) : Host.Outcome State Fault Refusal :=
  s.redOp g b v .xor w 4 imm
/-- REDMIN (R184). -/
def execRedmin (g : Guard) (b v : Src) (uns : Bool) (w : Width) (imm : BitVec 40) (s : State) :
    Host.Outcome State Fault Refusal := s.redOp g b v (if uns then .minU else .minS) w (if uns then 7 else 5) imm
/-- REDMAX (R184). -/
def execRedmax (g : Guard) (b v : Src) (uns : Bool) (w : Width) (imm : BitVec 40) (s : State) :
    Host.Outcome State Fault Refusal := s.redOp g b v (if uns then .maxU else .maxS) w (if uns then 8 else 6) imm
/-- REDFADD (R183, R184). -/
def execRedfadd (g : Guard) (b v : Src) (f32 : Bool) (imm : BitVec 40) (s : State) : Host.Outcome State Fault Refusal :=
  s.redOp g b v .fadd (faddWidth f32) (if f32 then 9 else 10) imm

/-- The buffers of the packages that the global targets of a descriptor name, as it stands, are sealed (R208, R209). -/
def State.sealTargets (s : State) (va : Word) (n : Nat) : State :=
  match s.peekHome (s.slotSet s.cur).space va.toNat with
  | some h => ((s.readWords h n).filter fun w => isGlobal w && topOk w).foldl (fun t w => t.sealFor t.cur (destOf w) (s.slotSet s.cur).job) s
  | none => s

/-- MCAS2 and MCAS4 (R189): the descriptor is local, and is read at its home. -/
def State.mcasOp (s : State) (g : Guard) (d : Dst) (b : Src) (n : Nat) (imm : BitVec 40) :
    Host.Outcome State Fault Refusal :=
  s.memOp g b imm fun t va => do
    t.holdFor (setL ||| setS)
    addrCheck va (32 * n) true
    let j := xIndex t.me.wstate d.toNat
    let u ← t.emptyXj j
    (u.sealTargets va n).sendRef (setL ||| setS) va (.reg j) (.record (.mcas n) (32 * n)) false
/-- MCAS2 (R189, R190). -/
def execMcas2 (g : Guard) (d : Dst) (b : Src) (imm : BitVec 40) (s : State) : Host.Outcome State Fault Refusal :=
  s.mcasOp g d b 2 imm
/-- MCAS4 (R189, R190). -/
def execMcas4 (g : Guard) (d : Dst) (b : Src) (imm : BitVec 40) (s : State) : Host.Outcome State Fault Refusal :=
  s.mcasOp g d b 4 imm

/-- ENQ and CHASE (R191, R192, R209). -/
def State.agentAt (s : State) (sets : BitVec 5) (d : Dst) (va : Word) (align : Nat) (op : RefOp) (rem probe : RemOp) :
    Res State := do
  s.holdFor (setsOf va sets)
  agentCheck va align
  if isGlobal va then s.remote d va rem probe false
  else do
    let j := xIndex s.me.wstate d.toNat
    let t ← s.emptyXj j
    t.sendRef sets va (.reg j) op false
/-- ENQ (R191). -/
def execEnq (g : Guard) (d : Dst) (b node : Src) (imm : BitVec 40) (s : State) : Host.Outcome State Fault Refusal :=
  s.memOpV g b node imm fun t va y =>
    t.agentAt (setL ||| setS) d va 16 (.enq y) (.enq y) (.probe true true true .b64)
/-- CHASE (R192). -/
def execChase (g : Guard) (d : Dst) (b o : Src) (hops : BitVec 7) (imm : BitVec 40) (s : State) :
    Host.Outcome State Fault Refusal :=
  s.memOpV g b o imm fun t va y =>
    t.agentAt setL d va 8 (.chase y hops.toNat) (.chase y hops.toNat) (.probe true false false .b64)

end Sys2Proof.Machine
end

