-- ==== Sys2Proof/Machine/Matrix.lean ====
section
/-! DEFINITION. Folio and matrix instructions, and the array and loader of a core (R297, R301 to R323). -/

namespace Sys2Proof.Machine

/-! ### Folio instructions (R302 to R304) -/

/-- FOLSET (R302). -/
def execFolset (g : Guard) (d : Dst) (i a : Src) (s : State) : Host.Outcome State Fault Refusal :=
  s.issue g do
    s.needService 0x160 0
    let (x, r) ← readX 0 i s.rd
    let (va, r) ← readX 1 a r
    let t := r.s.killXs [i, a]
    t.holdFor setL
    addrCheck va 64 true
    let j := xIndex t.me.wstate d.toNat
    let t ← t.emptyXj j
    let t ← t.sendRef setL va (.reg j) (.record (.folset (x.toNat % 65536)) 64) false
    pure t.advance

/-- What FOLSET does with its record: the reply and the state (R302). -/
def State.folset (s : State) (idx : Nat) (rec_ : List Word) : Word × State :=
  let k := Folio.check rec_
  if k ≠ 0 then (BitVec.ofNat 64 (2 ^ 63 + k), s)
  else (0, s.setFolio idx (rec_.set 6 (rec_.getD 6 0 ||| 0x8000000000000000#64)))

/-- A split-phase result that is known at issue. -/
def State.replyNow (s : State) (d : Dst) (v : Word) : Res State := do
  let j := xIndex s.me.wstate d.toNat
  let t ← s.emptyXj j
  pure (t.reply t.cur t.me.gen (.reg j) v)

/-- FOLSET .inv (R302). -/
def execFolsetInv (g : Guard) (d : Dst) (i : Src) (s : State) : Host.Outcome State Fault Refusal :=
  s.issue g do
    s.needService 0x160 0
    let (x, r) ← readX 0 i s.rd
    let t ← ((r.s.killXs [i]).setFolio (x.toNat % 65536) Folio.zero).replyNow d 0
    pure t.advance

/-- FOLRD (R303): the quire's copy is read (R293). -/
def execFolrd (g : Guard) (d : Dst) (i : Src) (w : BitVec 3) (s : State) : Host.Outcome State Fault Refusal :=
  s.issue g do
    let (x, r) ← readX 0 i s.rd
    let f ← s.needFolio (x.toNat % 65536)
    let t ← (r.s.killXs [i]).replyNow d (f.getD w.toNat 0)
    pure t.advance

/-- The status of FOLCHK (R304). -/
def folchk (f : Folio) (needR needW : Bool) (o e : List Nat) : Word :=
  let d : Nat :=
    if !f.valid then 1
    else if (needR && !f.canRead) || (needW && !f.canWrite) then 2
    else if f.boxEmpty e then 0
    else if f.base.testBit 55 then 5
    else if f.boxOob o e then 4 else 0
  if d = 0 then 0 else BitVec.ofNat 64 (2 ^ 63 + d)

/-- FOLCHK (R304): the quire's copy is checked (R293). -/
def execFolchk (g : Guard) (d : Dst) (o e : Src) (acc : BitVec 2) (folio : BitVec 16) (s : State) :
    Host.Outcome State Fault Refusal :=
  s.issue g do
    let (x, r) ← readX 0 o s.rd
    let (y, r) ← readX 1 e r
    let f ← s.needFolio folio.toNat
    let t ← (r.s.killXs [o, e]).replyNow d
      (folchk f (acc.getLsbD 0) (acc.getLsbD 1) (coordsOf x) (coordsOf y))
    pure t.advance

/-! ### Checks of a command (R297, R309, R313, R315, R316) -/

/-- Formats of an A operand, of a stored weight, and of MXLD and MXST. -/
def aFmt (f : Fmt) : Bool := decide (f = .bf16) || decide (f = .e4m3) || decide (f = .e5m2)
def wFmt (f : Fmt) : Bool := aFmt f || decide (f = .i4) || decide (f = .i3)
def cFmt (f : Fmt) : Bool := isFloat f

/-- Rows that a weight slot holds (R309). -/
def wsRows (f : Fmt) : Nat :=
  if f = .bf16 then 64 else if f = .i4 then 256 else if f = .i3 then 320 else 128

/-- Depth of an MXA by the format of A (R313). -/
def depthK (f : Fmt) : Nat := if f = .bf16 then 32 else 64

/-- The detail of a folio used over a box, 0 for none; `extra` is detail 6 or 7 of R297. -/
def Folio.useDetail (f : Folio) (needR needW fmtOk : Bool) (extra : Nat) (o e : List Nat) : Nat :=
  if !f.valid then 1
  else if (needR && !f.canRead) || (needW && !f.canWrite) then 2
  else if !fmtOk then 3
  else if f.base.testBit 55 then 5
  else if extra ≠ 0 then extra
  else if decide (f.pad = 0) && !e.contains 0 && f.boxOob o e then 4 else 0

/-- An in-bounds element of a box lies outside the scratchpad window. -/
def Folio.outside (f : Folio) (o e : List Nat) : Bool :=
  (boxCoords o e 4).any fun c => !f.oob c && !inWindow (f.addr c)

/-- Rows P of a WBLD. -/
def MxCmd.rows (m : MxCmd) : Nat := m.cmpl.toNat % 512 + 1
/-- Length, row and column of an MXDOT (R315). -/
def MxCmd.len (m : MxCmd) : Nat := m.s3.toNat % 65536
def MxCmd.elem (m : MxCmd) : Nat := m.s3.toNat / 2 ^ 16 % 32 * 32 + m.s3.toNat / 2 ^ 21 % 32

/-- The failing detail of a command and whether it is of folio B (R297). -/
def MxCmd.detail (m : MxCmd) : Option (Bool × Nat) :=
  let o := coordsOf m.s1
  let one := fun (b : Bool) (d : Nat) => if d = 0 then none else some (b, d)
  if m.opcode = 0x163 then
    let extra := if wsRows m.fa.fmt < m.rows ∨ (m.fa.fmt = .i4 ∧ o.getD 0 0 % 2 ≠ 0) ∨ (m.fa.fmt = .i3 ∧ o.getD 0 0 % 8 ≠ 0) then 7 else 0
    one false (m.fa.useDetail true false (wFmt m.fa.fmt) extra o [m.rows, 32, 1, 1])
  else if m.opcode = 0x166 then
    let e := [depthK m.fa.fmt, 32, 1, 1]
    one false (m.fa.useDetail true false (aFmt m.fa.fmt) (if m.fa.outside o e then 6 else 0) o e)
  else if m.opcode = 0x167 then one false (m.fa.useDetail false true (cFmt m.fa.fmt) 0 o [32, 32, 1, 1])
  else if m.opcode = 0x168 then one false (m.fa.useDetail true false (cFmt m.fa.fmt) 0 o [32, 32, 1, 1])
  else if m.opcode = 0x169 then
    match one false (m.fa.useDetail true false (aFmt m.fa.fmt) 0 o [m.len, 1, 1, 1]) with
    | some d => some d
    | none => one true (m.fb.useDetail true false (wFmt m.fb.fmt) 0 (coordsOf m.s2) [m.len, 1, 1, 1])
  else none

/-! ### Acceptance (R305, R306) -/

/-- Commands that name an accumulator, and those that read it. -/
def namesAcc (op : BitVec 10) : Bool := writesAcc op || decide (op = 0x167)
def readsAcc (op : BitVec 10) : Bool := decide (op = 0x166) || decide (op = 0x167) || decide (op = 0x169)
/-- Commands of the loader. -/
def isLoader (op : BitVec 10) : Bool := decide (op = 0x163) || decide (op = 0x164)

/-- The weight slots a loader command writes. -/
def MxCmd.loads (m : MxCmd) (w : Nat) : Bool :=
  if m.opcode = 0x163 then decide (m.slotNo = w) else decide (m.opcode = 0x164) && m.s1.getLsbD w

/-- What a command writes, as accumulators 0 to 7 and weight slots from 8 on (R365). -/
def MxCmd.writes (m : MxCmd) : List Nat :=
  if writesAcc m.opcode then [m.accNo] else ((List.range 64).filter m.loads).map (8 + ·)

/-- A command is accepted by a core (R305, R306, R365). -/
def State.mxAccept (s : State) (core : Nat) (m : MxCmd) (tsid : Nat) : State :=
  s.modCore core fun c =>
    let m := { m with no := c.mxNo }
    let c := if isLoader m.opcode then { c with ldq := c.ldq ++ [m] } else { c with mxq := c.mxq ++ [m] }
    let c := { c with
      mxNo := c.mxNo + 1
      owner := (m.writes.map fun w => (w, tsid)) ++ c.owner.filter fun e => !m.writes.contains e.1 }
    if writesAcc m.opcode && !isPending (c.acc m.accNo) then
      { c.setAcc m.accNo (.empty (awaiting none)) with
        accDead := if c.acc m.accNo = .dead then m.accNo :: c.accDead else c.accDead }
    else c

/-- A command that names an accumulator with `drop` set waits (R306). -/
def Core.accDrops (c : Core) (m : MxCmd) : Bool :=
  namesAcc m.opcode && (match c.acc m.accNo with
    | .empty k => k.drop
    | _ => false)

/-- The copy of a folio that a command takes. -/
def State.folioArg (s : State) (i : Option Nat) : Res Folio :=
  match i with
  | some i => s.needFolio i
  | none => .ok Folio.zero

/-- Issue a matrix command (R306). -/
def State.mxIssue (s : State) (g : Guard) (srcs : List Src) (opcode : BitVec 10) (cmpl : BitVec 12) (low : BitVec 40)
    (fa fb : Option Nat) : Host.Outcome State Fault Refusal :=
  s.issue g do
    let (vs, r) ← readXs 0 srcs s.rd
    s.holdFor setE
    let a ← s.folioArg fa
    let b ← s.folioArg fb
    let c := s.core (coreOf s.cur)
    let m : MxCmd := {
      no := 0, acc := s.serial, src := .own s.cur s.me.gen, tsid := s.me.tsid.getD 0, opcode := opcode, cmpl := cmpl, low := low,
      s1 := vs.getD 0 0, s2 := vs.getD 1 0, s3 := vs.getD 2 0, fa := a, fb := b, next := 0, seen := [] }
    match m.detail with
    | some (isB, d) => .error (folioTrap ((if isB then fb else fa).getD 0) d 0)
    | none =>
      if c.accDrops m then .error (.wait .other)
      else if readsAcc opcode && decide (c.acc m.accNo = .dead) && s.me.deadTraps then
        .error (.trap 9 (useValue (48 + m.accNo) false 3 0))
      else if 32 ≤ c.mxAll.length then .error (.wait .other)
      else
        let t := ((r.s.killXs srcs).newAcc s.cur setE [] false).2
        pure (t.mxAccept (coreOf s.cur) m (s.me.tsid.getD 0)).advance

/-- The low field of a command (R299). -/
def mxLow (acc : BitVec 3) (slot : BitVec 6) (folio : BitVec 16) : BitVec 40 :=
  BitVec.ofNat 40 (acc.toNat * 2 ^ 22 + slot.toNat * 2 ^ 16 + folio.toNat)

/-- WBLD (R309). -/
def execWbld (g : Guard) (o : Src) (rows : BitVec 9) (slot : BitVec 6) (folio : BitVec 16) (s : State) :
    Host.Outcome State Fault Refusal := s.mxIssue g [o] 0x163 (rows.setWidth 12) (mxLow 0 slot folio) (some folio.toNat) none
/-- WBINV (R310). -/
def execWbinv (g : Guard) (m : Src) (s : State) : Host.Outcome State Fault Refusal :=
  s.mxIssue g [m] 0x164 0 0 none none
/-- MXZ (R316). -/
def execMxz (g : Guard) (acc : BitVec 3) (s : State) : Host.Outcome State Fault Refusal :=
  s.mxIssue g [] 0x165 0 (mxLow acc 0 0) none none
/-- MXA (R313). -/
def execMxa (g : Guard) (o h : Src) (acc : BitVec 3) (slot : BitVec 6) (folio : BitVec 16) (s : State) :
    Host.Outcome State Fault Refusal := s.mxIssue g [o, h] 0x166 0 (mxLow acc slot folio) (some folio.toNat) none
/-- MXST (R316). -/
def execMxst (g : Guard) (o : Src) (fill : Bool) (acc : BitVec 3) (folio : BitVec 16) (s : State) :
    Host.Outcome State Fault Refusal :=
  s.mxIssue g [o] 0x167 (if fill then 1 else 0) (mxLow acc 0 folio) (some folio.toNat) none
/-- MXLD (R316). -/
def execMxld (g : Guard) (o : Src) (acc : BitVec 3) (folio : BitVec 16) (s : State) : Host.Outcome State Fault Refusal :=
  s.mxIssue g [o] 0x168 0 (mxLow acc 0 folio) (some folio.toNat) none
/-- MXDOT (R315). -/
def execMxdot (g : Guard) (oa ob l : Src) (acc : BitVec 3) (fb fa : BitVec 16) (s : State) :
    Host.Outcome State Fault Refusal :=
  s.mxIssue g [oa, ob, l] 0x169 0 (BitVec.ofNat 40 (acc.toNat * 2 ^ 32 + fb.toNat * 2 ^ 16 + fa.toNat))
    (some fa.toNat) (some fb.toNat)

/-! ### Keys, sends, status (R319, R320, R322, R323) -/

/-- MXKEY (R319). -/
def execMxkey (g : Guard) (k : Src) (s : State) : Host.Outcome State Fault Refusal :=
  s.issue g do
    s.needService 0x16B 0
    let (x, r) ← readX 0 k s.rd
    pure ((r.s.killXs [k]).modCore (coreOf s.cur) fun c => { c with mxkey := x.setWidth 16 }).advance

/-- MXSEND (R320): its record is read like a load once the slot's buffered stores are home. The record's read is an access of set
`l`, the command one of set `e` with the next number (R326). -/
def execMxsend (g : Guard) (d : Dst) (cap a : Src) (s : State) : Host.Outcome State Fault Refusal :=
  s.issue g do
    let (c, r) ← readX 0 cap s.rd
    let (va, r) ← readX 1 a r
    let t := r.s.killXs [cap, a]
    t.holdFor (setL ||| setE)
    addrCheck va 32 true
    let j := xIndex t.me.wstate d.toNat
    let t ← t.emptyXj j
    let t ← t.sendRef setL va (.reg j) (.record (.mxsend c) 32) false
    pure (t.newAcc t.cur setE [] false).2.advance

/-- Accumulators with a pending writer, bit by bit. -/
def Core.accBusy (c : Core) : Nat :=
  ((List.range 8).map fun n => if isPending (c.acc n) then 2 ^ n else 0).sum

/-- The word of MXSTAT (R322). -/
def State.mxstat (s : State) : Word :=
  let c := s.core (coreOf s.cur)
  BitVec.ofNat 64 ((s.mxMine s.cur).length % 256 * 2 ^ 24 + c.mxAll.length % 256 * 2 ^ 16 + c.accBusy % 256 * 2 ^ 8
    + (if c.arrayHeld || c.loaderHeld then 128 else 0))

/-- MXSTAT (R322). -/
def execMxstat (g : Guard) (d : Dst) (s : State) : Host.Outcome State Fault Refusal := s.op0 g d s.mxstat

/-- MXWAIT (R323). DEDUCED: log entry 49. -/
def execMxwait (g : Guard) (s : State) : Host.Outcome State Fault Refusal :=
  s.issue g do if (s.mxMine s.cur).isEmpty then pure s.advance else .error (.wait .other)

/-! ### Products and runs (R312 to R314) -/

/-- A product: exactly +0 where an operand is missing. -/
def prodFl (a b : Option Fl) : Fl :=
  match a, b with
  | some a, some b => mulFl a b
  | _, _ => .fin false 0 0

/-- The sum of a run, exact and rounded once. -/
def runSum : List Fl → Nat
  | [] => 0
  | p :: ps => roundFl .f32 .rne false (ps.foldl (addFl .rne) p)

/-- The runs of a list of products, eight each. -/
def runsOf : Nat → List Fl → List (List Fl)
  | 0, _ => []
  | n + 1, ps => ps.take 8 :: runsOf n (ps.drop 8)

/-- Add `n` runs to an element, in order. -/
def addRuns (c n : Nat) (ps : List Fl) : Nat := (runsOf n ps).foldl (fun c r => fop .add .f32 .rne c (runSum r)) c

/-- The element at lane i of an accumulator, and an accumulator from its elements. -/
def accElem (v : BitVec 32768) (i : Nat) : Nat := (v.extractLsb' (32 * i) 32).toNat
def packAcc (es : List Nat) : BitVec 32768 := BitVec.ofNat 32768 (es.foldr (fun x a => x % 2 ^ 32 + 2 ^ 32 * a) 0)

/-- Consecutive pieces of length `k`. -/
def pieces {α : Type} (k : Nat) : Nat → List α → List (List α)
  | 0, _ => []
  | n + 1, l => l.take k :: pieces k n (l.drop k)

/-- The expanded weight of a slot (R311); missing ones are none (R309). -/
def WSlot.weight (w : WSlot) (row col : Nat) : Option Fl :=
  (w.cells.lookup (32 * row + col)).map fun p => expandWeight w.fmt w.sfmt p.1 p.2

/-- C + A · B (R313): `a` in rows of `k` elements. -/
def mxaResult (c : BitVec 32768) (k h : Nat) (fa : Fmt) (a : List (Option Nat)) (w : WSlot) : BitVec 32768 :=
  let rows := pieces k 32 (a.map fun v => v.map (flOf fa))
  let cols := (List.range 32).map fun n => (List.range k).map fun i => w.weight (h + i) n
  packAcc ((List.range 32).flatMap fun m => (List.range 32).map fun n =>
    addRuns (accElem c (32 * m + n)) (k / 8) ((rows.getD m []).zipWith prodFl (cols.getD n [])))

/-- C with one element added to (R315). -/
def mxdotResult (c : BitVec 32768) (i len : Nat) (fa fb : Fmt) (sf : Option Fmt) (a : List (Option Nat))
    (b : List (Option (Nat × Nat))) : BitVec 32768 :=
  let ps := (a.map fun v => v.map (flOf fa)).zipWith prodFl (b.map fun v => v.map fun p => expandWeight fb sf p.1 p.2)
  let n := ceilDiv len 8
  let ps := ps ++ List.replicate (8 * n - len) (.fin false 0 0)
  packAcc ((List.range 1024).map fun j => if j = i then addRuns (accElem c j) n ps else accElem c j)

/-! ### The array (R307, R308, R313 to R318) -/

/-- Who the unit is for a command's folio. -/
def MxCmd.eng (m : MxCmd) (core : Nat) (f : Folio) : Eng :=
  match m.src with
  | .own k g => ⟨core, quireOf core, k, g, m.tsid, f.space, .thread, m.seen⟩
  | .sent k g _ => ⟨core, quireOf core, k, g, m.tsid, f.space, .sent, m.seen⟩

/-- The issuing slot's earlier accesses are at their homes; those of a sender were drained before its record was read. -/
def State.mxSettled (s : State) (m : MxCmd) : Bool :=
  match m.src with
  | .own k g => s.settledBefore k g m.acc
  | .sent _ _ _ => true

/-- Row blocks of its slot that an MXA needs (R308). -/
def MxCmd.blocksNeeded (m : MxCmd) (w : WSlot) : Nat :=
  let h := m.s2.toNat
  if h < w.rows then ceilDiv (Nat.min (h + depthK m.fa.fmt) w.rows) 8 else 0

/-- The loads that an MXA depends on have started, and have brought the row blocks that it needs. -/
def Core.wsArrived (c : Core) (m : MxCmd) : Bool :=
  !(c.ldq.any fun l => l.loads m.slotNo && decide (l.no < m.no))
    && (match c.loader with
      | some r => !(r.cmd.loads m.slotNo && decide (r.ended = none)) || decide (m.blocksNeeded (c.wslot m.slotNo) ≤ (c.wslot m.slotNo).blocks)
      | none => true)

/-- The array's command has ended, with a new accumulator value or with an error. -/
def State.arrayEnd (s : State) (core : Nat) (r : MxRun) (v : BitVec 32768) (cause : Nat) : State :=
  s.modCore core fun c => { c with
    array := some { r with ended := some cause }
    accv := if writesAcc r.cmd.opcode then c.accv.set r.cmd.accNo v else c.accv }

/-- An access of the array fails: it is held on the fault, and then reads its operands again, waits for a fault entry, or the
command ends in error with its accumulator as the shadow has it (R317, R318). -/
def State.arrayFail (s : State) (core : Nat) (r : MxRun) (f : EngFail) (write : Bool) : State :=
  match f with
  | .fault i n => (s.park i n (.mx core false) (!write) write).modCore core fun c => { c with
      arrayHeld := true, array := some { r with cmd := { r.cmd with seen := [] } } }
  | .wait => s
  | .fatal => s.arrayEnd core r r.shadow 1
  | .denied => s.arrayEnd core r r.shadow 2
  | .refused => s.arrayEnd core r r.shadow 3

/-- The columns of a row from element `i` on that lie in the same word as it. -/
def Folio.sameWord (f : Folio) (o : List Nat) (i : Nat) : List Nat :=
  let at_ := fun (j : Nat) => f.addr [o.getD 0 0 + j % 32, o.getD 1 0 + j / 32, o.getD 2 0, o.getD 3 0]
  (List.range (32 - i % 32)).map (i + ·) |>.filter fun j => at_ j / 8 == at_ i / 8

/-- Coordinates of element `j` of an accumulator (R316). -/
def accCoords (o : List Nat) (j : Nat) : List Nat := [o.getD 0 0 + j % 32, o.getD 1 0 + j / 32, o.getD 2 0, o.getD 3 0]

/-- Bytes of a word that in-bounds elements below `n` of an MXST write. -/
def Folio.covered (f : Folio) (o : List Nat) (word n : Nat) : List Nat :=
  (List.range n).flatMap fun j =>
    if f.oob (accCoords o j) then []
    else if f.addr (accCoords o j) / 8 = word then (List.range (fmtBytes f.fmt)).map (f.addr (accCoords o j) % 8 + ·) else []

/-- Write elements of one word at its home; with `.fill` a word that is now written in full gets F (R316). -/
def State.storeElems (s : State) (home va : Nat) (bytes : Nat) (vals : List (Nat × Nat)) (full : Bool) : State :=
  let s := vals.foldl (fun s p => s.homeStore (home + (p.1 - va)) (bytesOf bytes p.2)) s
  if full then (s.mend home).fillStep (home / 8 * 8) else s

/-- One word of an MXST. DESIGN CHOICE: log entry 34. -/
def State.mxstStep (s : State) (core : Nat) (r : MxRun) : State :=
  let m := r.cmd
  let f := m.fa
  let o := coordsOf m.s1
  let i := m.next
  let step := fun (s : State) (n : Nat) => s.modCore core fun c => { c with
    array := some { r with cmd := { m with next := n }, ended := if n < 1024 then none else some 0 } }
  if f.oob (accCoords o i) then step s (i + 1)
  else
    let js := (f.sameWord o i).filter fun j => !f.oob (accCoords o j)
    let va := f.addr (accCoords o i)
    let bytes := fmtBytes f.fmt
    let n := (js.getLastD i) + 1
    let fill := m.cmpl.getLsbD 0
    let whole := fill && decide (8 ≤ js.length * bytes)
    let full := fill && (List.range 8).all fun b => (f.covered o (va / 8) n).contains b
    match s.engAt (m.eng core f) va (js.length * bytes) false true whole with
    | (.ok h, s) =>
      let vals := js.map fun j => (f.addr (accCoords o j), storeConv .f32 f (accElem ((s.core core).accVal m.accNo) j))
      step (s.storeElems h va bytes vals full) n
    | (.error x, s) => s.arrayFail core r x true

/-- Execute the array's command, or go on with an MXST (R313 to R317). DESIGN CHOICE: log entry 34. -/
def State.mxRun (s : State) (core : Nat) (r : MxRun) : State :=
  let m := r.cmd
  let e := m.eng core m.fa
  let o := coordsOf m.s1
  let r := { r with shadow := (s.core core).accVal m.accNo }
  let s := s.modCore core fun c => { c with array := some r }
  if m.opcode = 0x165 then s.arrayEnd core r 0 0
  else if m.opcode = 0x167 then s.mxstStep core r
  else if m.opcode = 0x168 then
    match engList (fun s c => s.engElem e m.fa c) s ((List.range 1024).map (accCoords o)) with
    | (.ok vs, s) => s.arrayEnd core r (packAcc (vs.map fun v => match v with
        | some x => loadConv .f32 m.fa.fmt x
        | none => 0)) 0
    | (.error x, s) => s.arrayFail core r x false
  else if m.opcode = 0x166 then
    let w := (s.core core).wslot m.slotNo
    let k := depthK m.fa.fmt
    if w.st = .invalid ∨ w.st = .faulted then s.arrayEnd core r r.shadow 4
    else if w.fmt = .bf16 ∧ m.fa.fmt ≠ .bf16 then s.arrayEnd core r r.shadow 5
    else match engList (fun s c => s.engElem e m.fa c) s (boxCoords o [k, 32, 1, 1] 4) with
      | (.ok vs, s) => s.arrayEnd core r (mxaResult r.shadow k m.s2.toNat m.fa.fmt vs w) 0
      | (.error x, s) => s.arrayFail core r x false
  else
    let row := fun (o : List Nat) => (List.range m.len).map fun t => laneAt o t
    match engList (fun s c => s.engElem e m.fa c) s (row o) with
    | (.ok as, s) =>
      match engList (fun s c => s.engWeight (m.eng core m.fb) m.fb c) s (row (coordsOf m.s2)) with
      | (.ok bs, s) => s.arrayEnd core r (mxdotResult r.shadow m.elem m.len m.fa.fmt m.fb.fmt m.fb.sfmt as bs) 0
      | (.error x, s) => s.arrayFail core r x false
    | (.error x, s) => s.arrayFail core r x false
where
  laneAt (o : List Nat) (t : Nat) : List Nat := [o.getD 0 0 + t, o.getD 1 0, o.getD 2 0, o.getD 3 0]

/-- MATRIX_COMMAND_EXECUTE (R307): the array starts its next command, re-executes one that a REPLAY released, or goes on with
an MXST. DESIGN CHOICE: log entry 34. -/
def execMatrixCommandExecute (core : Nat) (s : State) : Host.Outcome State Fault Refusal :=
  let c := s.core core
  .next (match c.array with
    | some r => if decide (r.ended = none) && !c.arrayHeld then s.mxRun core r else s
    | none =>
      match c.mxq with
      | m :: rest =>
        if s.mxSettled m && (decide (m.opcode ≠ 0x166) || c.wsArrived m) then
          (s.modCore core fun c => { c with mxq := rest }).mxRun core ⟨m, 0, none⟩
        else s
      | [] => s)

/-! ### The loader (R308, R309) -/

/-- LOADER_COMMAND_START (R307, R308). -/
def execLoaderCommandStart (core : Nat) (s : State) : Host.Outcome State Fault Refusal :=
  let c := s.core core
  .next (match c.loader, c.ldq with
    | none, m :: rest =>
      let readers := (c.mxq ++ (c.array.map (·.cmd)).toList).any fun x =>
        decide (x.opcode = 0x166) && decide (x.no < m.no) && m.loads x.slotNo
      if readers || !s.mxSettled m then s
      else if m.opcode = 0x163 then
        s.modCore core fun c => { c.setWs m.slotNo {
            st := .loading, fmt := m.fa.fmt, sfmt := m.fa.sfmt, group := m.fa.groupCode, phase := (coordsOf m.s1).getD 0 0 % 128,
            rows := m.rows, blocks := 0, cells := [] } with
          ldq := rest, loader := some ⟨m, 0, none⟩ }
      else
        s.modCore core fun c => { (List.range 64).foldl (fun c w =>
            if m.s1.getLsbD w then c.setWs w WSlot.init else c) c with
          ldq := rest, loader := some ⟨m, 0, some 0⟩ }
    | _, _ => s)

/-- The load ends in error: its slot is FAULTED (R318). -/
def State.loaderEnd (s : State) (core : Nat) (r : MxRun) (cause : Nat) : State :=
  s.modCore core fun c =>
    { c.setWs r.cmd.slotNo { c.wslot r.cmd.slotNo with st := if cause = 0 then .ready else .faulted } with
      loader := some { r with ended := some cause } }

/-- WEIGHT_ROW_BLOCK_ARRIVE (R308, R309, R317): the next 8 rows of the load, all 32 columns. DESIGN CHOICE: log entry 34. -/
def execWeightRowBlockArrive (core : Nat) (s : State) : Host.Outcome State Fault Refusal :=
  let c := s.core core
  .next (match c.loader with
    | some r =>
      if r.ended.isSome || c.loaderHeld || decide (r.cmd.opcode ≠ 0x163) then s
      else
        let m := r.cmd
        let b := m.next
        let n := Nat.min 8 (m.rows - 8 * b)
        let o := coordsOf m.s1
        let keys := (List.range n).flatMap fun i => (List.range 32).map fun j => (8 * b + i, j)
        let at_ := fun (k : Nat × Nat) => [o.getD 0 0 + k.1, o.getD 1 0 + k.2, o.getD 2 0, o.getD 3 0]
        match engList (fun s k => s.engWeight (m.eng core m.fa) m.fa (at_ k)) s keys with
        | (.ok vs, s) =>
          let new := (keys.zip vs).filterMap fun p => p.2.map fun v => (32 * p.1.1 + p.1.2, v)
          let s := s.modCore core fun c =>
            let w := c.wslot m.slotNo
            { c.setWs m.slotNo { w with blocks := w.blocks + 1, cells := w.cells ++ new } with
              loader := some { r with cmd := { m with next := b + 1 } } }
          if 8 * (b + 1) < m.rows then s else s.loaderEnd core { r with cmd := { m with next := b + 1 } } 0
        | (.error (.fault i k), s) =>
          (s.park i k (.mx core true) true false).modCore core fun c => { c with
            loaderHeld := true, loader := some { r with cmd := { m with seen := [] } } }
        | (.error .wait, s) => s
        | (.error .fatal, s) => s.loaderEnd core r 1
        | (.error .denied, s) => s.loaderEnd core r 2
        | (.error .refused, s) => s.loaderEnd core r 3
    | none => s)

/-! ### Operands read early (R306, R339) -/

/-- The command takes a byte now. -/
def MxCmd.see (m : MxCmd) (s : State) (home : Nat) : MxCmd := { m with seen := s.seeByte m.seen home }

/-- A byte is read for the command that the array or the loader executes, or that the array comes to next, once the slot's earlier
accesses are at their homes: a step that reads operands finds it as it stands now. DESIGN CHOICE: log entry 34. -/
def State.mxReads (s : State) (core : Nat) (loader : Bool) (home : Nat) : State :=
  let c := s.core core
  match (if loader then c.loader else c.array), c.mxq with
  | some r, _ =>
    if r.ended.isSome || (if loader then c.loaderHeld else c.arrayHeld) then s
    else
      let r := { r with cmd := r.cmd.see s home }
      s.modCore core fun c => if loader then { c with loader := some r } else { c with array := some r }
  | none, m :: rest =>
    if !loader && s.mxSettled m then s.modCore core fun c => { c with mxq := m.see s home :: rest } else s
  | none, [] => s

/-! ### Completion (R305, R307, R318, R320) -/

/-- The word that an MXSEND returns (R320). -/
def mxStatus (code detail cause : Nat) : Word := BitVec.ofNat 64 (cause * 256 + detail * 16 + code)

/-- The value of the matrix-error trap (R318). DEDUCED: log entry 49. -/
def mxErrorValue (m : MxCmd) (cause : Nat) : Word :=
  BitVec.ofNat 64 (m.opcode.toNat + cause % 16 * 2 ^ 10 + (if namesAcc m.opcode then m.accNo else 0) * 2 ^ 14)

/-- A reply whose landing performs access `id` (R326). -/
def State.replyFor (s : State) (k : Nat) (gen : BitVec 8) (dst : RetDst) (v : Word) (id : Nat) : State :=
  { s with replies := s.replies ++ [{
      slot := k, gen := gen, dst := dst, value := v, vec := none, fatal := false, acc := some id }] }

/-- Tell the slot or the sender of a command how it ended. DEDUCED: log entry 49. -/
def State.mxReport (s : State) (m : MxCmd) (cause : Nat) : State :=
  match m.src with
  | .own k g => if cause = 0 then s.perform m.acc else (s.perform m.acc).post k g 23 (mxErrorValue m cause)
  | .sent k g j => s.replyFor k g (.reg j) (mxStatus (if cause = 0 then 0 else 5) 0 cause) m.acc

/-- MATRIX_COMMAND_COMPLETE (R305, R307, R318). -/
def execMatrixCommandComplete (core : Nat) (loader : Bool) (s : State) : Host.Outcome State Fault Refusal :=
  let c := s.core core
  .next (match (if loader then c.loader else c.array) with
    | some ⟨m, _, some cause⟩ =>
      let s := s.modCore core fun c =>
        let c := if loader then { c with loader := none } else { c with array := none }
        let c := { c with accDead := c.accDead.filter fun n => !m.writes.contains n
                          mxDirty := m.writes ++ c.mxDirty.filter fun i => !m.writes.contains i }
        (List.range 8).foldl (fun c n => c.settleAcc n) c
      s.mxReport m cause
    | _ => s)

/-! ### Commands from other cores (R320, R321) -/

/-- The bits of the cmpl and low fields that an opcode leaves unused are zero (R299, R300). -/
def mxFieldsOk (op : BitVec 10) (cmpl : BitVec 12) (low : BitVec 40) : Bool :=
  let c := cmpl.toNat
  let l := low.toNat
  if op = 0x163 then decide (c < 512) && decide (l < 2 ^ 22)
  else if op = 0x164 then decide (c = 0) && decide (l = 0)
  else if op = 0x165 then decide (c = 0) && decide (l < 2 ^ 25) && decide (l % 2 ^ 22 = 0)
  else if op = 0x166 then decide (c = 0) && decide (l < 2 ^ 25)
  else if op = 0x167 then decide (c < 2) && decide (l < 2 ^ 25) && decide (l / 2 ^ 16 % 64 = 0)
  else if op = 0x168 then decide (c = 0) && decide (l < 2 ^ 25) && decide (l / 2 ^ 16 % 64 = 0)
  else if op = 0x169 then decide (c = 0) && decide (l < 2 ^ 35)
  else false

/-- MXSEND's record is read: the command is on its way to its core, or is refused for want of one (R320). -/
def State.mxsend (s : State) (r : Ref) (cap : Word) (rec_ : List Word) : State :=
  let isle := cap.toNat % 16
  let n := cap.toNat / 16 % 64
  let core := 48 * isle + n
  let s := s.perform r.id
  if 48 ≤ n ∨ (s.core core).excluded then s.replyFor r.slot r.gen r.dst (mxStatus 2 0 0) (r.id + 1)
  else
    let m : MxMsg := {
      core := core, key := cap.toNat / 2 ^ 10 % 65536, slot := r.slot, gen := r.gen, dst := r.dst, acc := r.id + 1
      tsid := r.tsid, rec_ := rec_ }
    { s with mxMsgs := s.mxMsgs ++ [m] }

/-- The command a message holds. -/
def MxMsg.cmd (m : MxMsg) (s : State) : MxCmd :=
  let w := (m.rec_.getD 0 0).toNat
  let low := w / 2 ^ 22 % 2 ^ 40
  let op := BitVec.ofNat 10 w
  let f := fun (lo : Nat) => s.folio (low / 2 ^ lo % 65536)
  { no := 0, acc := m.acc,
    src := .sent m.slot m.gen (match m.dst with
      | .reg j => j
      | _ => 0),
    tsid := m.tsid, opcode := op, cmpl := BitVec.ofNat 12 (w / 2 ^ 10), low := BitVec.ofNat 40 low,
    s1 := m.rec_.getD 1 0, s2 := m.rec_.getD 2 0, s3 := m.rec_.getD 3 0, fa := f 0,
    fb := if op = 0x169 then f 16 else Folio.zero, next := 0, seen := [] }

/-- MXSEND_RECEIVE (R320, R321): a refusal replies at once; a command that must wait for room or for an accumulator stays. -/
def execMxsendReceive (k : Nat) (s : State) : Host.Outcome State Fault Refusal :=
  .next (match s.mxMsgs[k]? with
    | some m =>
      let c := s.core m.core
      let x := m.cmd s
      let gone : State := { s with mxMsgs := lremove s.mxMsgs k }
      let refuse := fun (v : Word) => gone.replyFor m.slot m.gen m.dst v m.acc
      if c.excluded then refuse (mxStatus 2 0 0)
      else if c.mxkey = 0 ∨ c.mxkey.toNat ≠ m.key then refuse (mxStatus 1 0 0)
      else if !mxFieldsOk x.opcode x.cmpl x.low || decide (2 ^ 62 ≤ (m.rec_.getD 0 0).toNat) then refuse (mxStatus 3 0 0)
      else match x.detail with
        | some (_, d) => refuse (mxStatus 4 d 0)
        | none =>
          if c.accDrops x || decide (32 ≤ c.mxAll.length) then s
          else gone.mxAccept m.core x m.tsid
    | none => s)

end Sys2Proof.Machine
end

