-- ==== Sys2Proof/Machine/Remote.lean ====
section
/-! DEFINITION. Remote access instructions at issue: windows, covering points, counts, records (R202 to R206, R219 to
R223, R235). -/

namespace Sys2Proof.Machine

/-- A FREE window entry (R202). -/
def Window.init : Window where
  closing := false
  job := 0
  space := 0
  obase := 0
  length := 0
  local_ := 0
  rights := 0
  inflight := 0
  closer := none

def State.window (s : State) (h : Nat) : Window := tget Window.init s.windows h
def State.setWindow (s : State) (h : Nat) (w : Window) : State := { s with windows := tset Window.init s.windows h w }
/-- Entry `h` is OPEN or CLOSING. -/
def State.winUsed (s : State) (h : Nat) : Bool := s.windows.any fun e => e.1 == h

/-- The window record is bad (R202). -/
def windowBad (r : List Word) : Bool :=
  let w := fun i => (r.getD i 0).toNat
  let ob := w 0 / 2 ^ 16 % 2 ^ 27
  decide (w 0 / 2 ^ 43 ≠ 0) || decide (w 0 % 2 ^ 16 ≠ 0) || decide (w 1 / 2 ^ 55 ≠ 0) || decide (w 1 % 2 ^ 16 ≠ 0)
    || inWindow (w 1) || decide (w 2 % 2 ^ 16 ≠ 0)
    || decide (w 2 = 0) || decide (w 3 / 16 ≠ 0) || decide (2 ^ 43 < ob * 2 ^ 16 + w 2) || decide (2 ^ 55 < w 1 + w 2)

/-- WINOPEN of a job and a space acts on its record (R204): the reply and the state. -/
def State.winopen (s : State) (job space : Nat) (r : List Word) : Word × State :=
  let w := fun i => (r.getD i 0).toNat
  let ob := w 0 / 2 ^ 16 % 2 ^ 27 * 2 ^ 16
  let meets := fun (x : Window) => x.job == job && decide (x.obase * 2 ^ 16 < ob + w 2) && decide (ob < x.obase * 2 ^ 16 + x.length)
  if windowBad r then (BitVec.ofNat 64 (2 ^ 63 + 3), s)
  else if s.windows.any fun e => meets e.2 then (BitVec.ofNat 64 (2 ^ 63 + 2), s)
  else match leastFrom (fun h => !s.winUsed h) 1024 0 with
    | none => (BitVec.ofNat 64 (2 ^ 63 + 1), s)
    | some h =>
      let x : Window := {
        closing := false, job := job, space := space, obase := ob / 2 ^ 16, length := w 2, local_ := BitVec.ofNat 64 (w 1),
        rights := BitVec.ofNat 4 (w 3), inflight := 0, closer := none }
      (BitVec.ofNat 64 h, (s.setWindow h x).journalAdd 6 h (BitVec.ofNat 64 h))

/-- WINOPEN (R204). -/
def execWinopen (g : Guard) (d : Dst) (a : Src) (s : State) : Host.Outcome State Fault Refusal :=
  s.issue g do
    s.holdFor setL
    let (va, r) ← readX 0 a s.rd
    addrCheck va 32 true
    let t := r.s.killXs [a]
    let j := xIndex t.me.wstate d.toNat
    let t ← t.emptyXj j
    let t ← t.sendRef setL va (.reg j) (.record .winopen 32) false
    pure t.advance

/-- WINCLOSE (R205): the mark is made at once, the reply follows when nothing is in flight. -/
def execWinclose (g : Guard) (d : Dst) (h : Src) (s : State) : Host.Outcome State Fault Refusal :=
  s.issue g do
    let (x, r) ← readX 0 h s.rd
    let t := r.s.killXs [h]
    let j := xIndex t.me.wstate d.toNat
    let t ← t.emptyXj j
    let n := x.toNat % 1024
    let w := t.window n
    if !t.winUsed n || w.closing || decide (w.job ≠ (t.slotSet t.cur).job) then
      pure (t.reply t.cur t.me.gen (.reg j) (BitVec.ofNat 64 (2 ^ 63 + 1))).advance
    else
      let w := { w with closing := true, closer := some (t.cur, t.me.gen, .reg j, 0) }
      pure ((t.setWindow n w).journalAdd 7 n 0).advance

/-- WINCLOSE_DRAIN_END (R205). -/
def execWincloseDrainEnd (h : Nat) (s : State) : Host.Outcome State Fault Refusal :=
  let w := s.window h
  .next (if w.closing ∧ w.inflight = 0 then
    let s := s.setWindow h Window.init
    match w.closer with
    | some (k, gen, dst, _) => s.reply k gen dst 0
    | none => s
  else s)

/-- The word of WINSTAT (R206). -/
def State.winstat (s : State) (h : Nat) : Word :=
  let w := s.window h
  let st := if !s.winUsed h then 0 else if w.closing then 2 else 1
  BitVec.ofNat 64 (w.inflight % 2 ^ 32 * 2 ^ 16 + st)

/-- WINSTAT (R206). -/
def execWinstat (g : Guard) (d : Dst) (h : Src) (s : State) : Host.Outcome State Fault Refusal :=
  s.op1 g d h fun x => s.winstat (x.toNat % 1024)

/-- GFLUSH (R219, R220). -/
def execGflush (g : Guard) (s : State) : Host.Outcome State Fault Refusal :=
  s.issue g do
    s.coverPoint
    pure (s.sealSlot s.cur).advance
/-- GFLUSH .nw (R220). -/
def execGflushNw (g : Guard) (s : State) : Host.Outcome State Fault Refusal :=
  s.issue g (pure (s.sealSlot s.cur).advance)

/-- The words of GSTAT (R221). -/
def State.gstat (s : State) (isle : Bool) : Word :=
  if isle then
    let i := s.isle (isleOf (coreOf s.cur))
    BitVec.ofNat 64 (i.evictions % 2 ^ 32 * 256 + i.gbufs.length % 256)
  else BitVec.ofNat 64 (s.me.queued % 2 ^ 16 * 2 ^ 16 + s.me.unacked % 2 ^ 16)
/-- GSTAT (R221). -/
def execGstat (g : Guard) (d : Dst) (isle : Bool) (s : State) : Host.Outcome State Fault Refusal := s.op0 g d (s.gstat isle)

/-- RFREC .va (R223). -/
def execRfrecVa (g : Guard) (d : Dst) (s : State) : Host.Outcome State Fault Refusal := s.op0 g d s.me.rfva
/-- RFREC .st (R223). -/
def execRfrecSt (g : Guard) (d : Dst) (s : State) : Host.Outcome State Fault Refusal := s.op0 g d s.me.rfst
/-- RFCLR (R223). -/
def execRfclr (g : Guard) (d : Dst) (s : State) : Host.Outcome State Fault Refusal :=
  s.issue g do
    let t ← s.put d s.me.rfst
    pure (t.modSlot t.cur fun u => { u with rfva := 0, rfst := 0 }).advance

/-- CONNST's state code of a connection (R235). DEDUCED: log entry 29. -/
def connCode : ConnSt → Nat
  | .up => 0
  | .hold => 1
  | .down => 2

/-- The word of CONNST (R235): with no connection the rate and the epoch, and with no route the lanes too, hold their reset
value 0. DEDUCED: log entry 29. -/
def State.connst (s : State) (p : Nat) : Word :=
  let job := (s.slotSet s.cur).job
  let word := fun (rate lanes epoch st : Nat) => BitVec.ofNat 64 (rate % 512 * 2 ^ 32 + lanes % 2 ^ 16 * 2 ^ 16 + epoch % 256 * 256 + st)
  let lanes := (s.laneMask (s.channel p)).toNat
  if p = s.fpkg then 0x00000100FFFF0000#64
  else if !s.canReach p job then word 0 0 0 3
  else match s.conn? p job with
    | none => word 0 lanes 0 4
    | some c => if c.used then word c.rate lanes c.epoch (connCode c.st) else word 0 lanes 0 4

/-- CONNST (R235). -/
def execConnst (g : Guard) (d : Dst) (p : Src) (s : State) : Host.Outcome State Fault Refusal :=
  s.op1 g d p fun x => s.connst (x.toNat % 4096)

end Sys2Proof.Machine
end

