-- ==== Sys2Proof/Machine/Home.lean ====
section
/-! DEFINITION. References at their homes: arrival, mooring, deadlines, waves of TAGSET, the lanes of vector loads and stores,
the store buffer's writes, acknowledgements (R156 to R172, R176, R184, R248, R273 to R276, R327 to R331, R417). -/

namespace Sys2Proof.Machine

/-! ### Mooring (R161 to R165) -/

/-- The lowest free record of an isle's overflow area. -/
def State.freeArea (s : State) (isle : Nat) : Option Nat :=
  leastFrom (fun i => !s.moors.any fun m => m.isle == isle && m.area == some i) (s.isle isle).moorlim.toNat 0

/-- Nobody waits for a mooring any more: its thread, or its PARK leaf, ended while it was on its way (R396). -/
def State.forsaken (s : State) (m : Moor) : Bool :=
  match m.kind with
  | .park => !s.quires.any fun e => e.2.leaves.any fun l => l.no == m.data.toNat
  | _ => decide (m.slot < noSlot) && !s.lives m.slot m.gen

/-- Moor a reference in the table, else in the area; with neither free it is not moored (R161, R163, R164). -/
def State.moor (s : State) (m : Moor) : State :=
  if s.forsaken m then s.perform m.acc
  else if s.tableUsed m.isle < moorCap then { s with moors := s.moors ++ [m] }.accArrived m.acc
  else match s.freeArea m.isle with
    | some i => ({ s with moors := s.moors ++ [{ m with area := some i }] }.accArrived m.acc).settleMoors
    | none => s.moorLost m.kind m.slot m.gen m.reg m.acc m.va m.data true

/-- An isle can moor a further reference. -/
def State.moorRoom (s : State) (isle : Nat) : Bool := decide (s.tableUsed isle < moorCap) || (s.freeArea isle).isSome

/-- A synchronising reference at its bank joins the word's list, or acts at once (R159). -/
def State.moorOrAct (s : State) (m : Moor) : State :=
  if s.wBit m.home || !moorCan m.kind (s.fBit m.home) then s.moor m else s.applyMoor m

/-- A synchronising reference at its bank (R158, R159). -/
def State.syncArrive (s : State) (r : Ref) (kind : MoorKind) (data : Word) : State :=
  let m : Moor := {
    isle := r.isle, home := r.home, va := r.va, kind := kind, slot := r.slot, gen := r.gen,
    reg := match r.dst with
      | .reg j => j
      | _ => 0
    num := r.num, acc := r.id, data := data, deadline := if r.limit = 0 then 0 else s.cyc + r.limit, area := none }
  s.moorOrAct m

/-- MOOR_DEADLINE_EXPIRE (R166): the `k`-th entry of the isle's table and area. -/
def execMoorDeadlineExpire (isle k : Nat) (s : State) : Host.Outcome State Fault Refusal :=
  .next (match (s.moors.filter fun m => m.isle == isle)[k]? with
    | some m =>
      if m.deadline ≠ 0 ∧ m.deadline ≤ s.cyc then
        let s : State := { s with moors := removeFirst (· == m) s.moors }
        ((s.moorLost m.kind m.slot m.gen m.reg m.acc m.va m.data false).serve m.home).settleMoors
      else s
    | none => s)

/-! ### Records read at their homes -/

/-- The words of a resumed leaf arrive, then those of its extension where it has one (R357). -/
def State.leafWords (s : State) (slot : Nat) (gen : BitVec 8) (ext : Bool) (ws : List Word) : State :=
  match (if s.lives slot gen then (s.slot slot).reading else none) with
  | none => s
  | some r =>
    let r := { r with words := r.words ++ ws }
    let s := s.modSlot slot fun t => { t with reading := some r }
    match (if !ext && (r.words.getD 0 0).getLsbD 3 then r.ext else none) with
    | some va => s.readLeaf slot r va true
    | none => s.leafDone slot r none

/-- What the instruction that reads a record does with it (R204, R302, R320, R350, R398). -/
def State.recordRead (s : State) (r : Ref) (k : RecKind) (ws : List Word) : State :=
  let done := fun (p : Word × State) => (p.2.perform r.id).reply r.slot r.gen r.dst p.1
  match k with
  | .winopen => done (s.winopen r.job r.space ws)
  | .folset i => done (s.folset i ws)
  | .launch =>
    let cover := (s.accs.filter fun a =>
      a.slot == r.slot && decide (a.gen = r.gen) && decide (a.id < r.id) && decide (a.sets &&& setLSE ≠ 0)).map (·.id)
    done (s.launch r.slot cover ws)
  | .mxsend cap => s.mxsend r cap ws
  | .pgcmd =>
    let p : PgCmd := {
      slot := r.slot, gen := r.gen, dst := r.dst, acc := r.id, tsid := r.tsid, space := r.space,
      rec_ := ws, seen := [] }
    { s.accWords r.id [] with pgq := s.pgq ++ [p] }
  | .mcas _ => s
  | .leaf ext => (s.perform r.id).leafWords r.slot r.gen ext ws

/-! ### Arrival (R159, R176, R248, R417) -/

/-- A reference refused by a scratchpad guard or a free or ENGINE tile: zero data, nothing written (R248). -/
def State.refusedRef (s : State) (r : Ref) (ev : Word) : State :=
  match r.op with
  | .store _ => s.perform r.id
  | .stf _ => s.perform r.id
  | .purge => s.perform r.id
  | .atom _ _ _ _ ret =>
    if ret then (s.perform r.id).reply r.slot r.gen r.dst 0
    else { s.perform r.id with acks := s.acks ++ [(r.slot, r.gen, r.id)] }
  | .park no => ((s.perform r.id).leafWaiting no none).modLeaf no fun l => { l with guardEv := some ev }
  | .record k n => s.recordRead r k (List.replicate (n / 8) 0)
  | _ => (s.perform r.id).reply r.slot r.gen r.dst 0

/-- A reference that meets an uncorrectable word (R417). -/
def State.brokenRef (s : State) (r : Ref) : State :=
  match r.op with
  | .store _ => s.discardRef r
  | .stf _ => s.discardRef r
  | .purge => s.discardRef r
  | .atom _ _ _ _ ret =>
    if ret then (s.perform r.id).replyFatal r.slot r.gen r.dst
    else { s.discardRef r with acks := s.acks ++ [(r.slot, r.gen, r.id)] }
  | .park no => (s.perform r.id).leafWaiting no (some (15, r.va))
  | .record (.leaf _) _ => (s.perform r.id).leafLost r.slot r.gen 15 r.va
  | .record (.mxsend _) _ => ((s.perform r.id).perform (r.id + 1)).replyFatal r.slot r.gen r.dst
  | _ => (s.perform r.id).replyFatal r.slot r.gen r.dst

/-- A reference acts on its word (R156 to R159, R168, R181 to R184). -/
def State.actAt (s : State) (r : Ref) : State :=
  match r.op with
  | .load w sgn => (s.perform r.id).reply r.slot r.gen r.dst (extendTo w sgn (s.readNat r.home (widthBytes w)))
  | .loadLate w sgn => { s with refs := s.refs ++ [{ r with op := .load w sgn }] }
  | .loadAfter w sgn _ => (s.perform r.id).reply r.slot r.gen r.dst (extendTo w sgn (s.readNat r.home (widthBytes w)))
  | .store bs => (s.homeStore r.home bs).perform r.id
  | .ldf => s.syncArrive r .ldf 0
  | .ldfe => s.syncArrive r .ldfe 0
  | .stef v => s.syncArrive r .stef v
  | .park no => s.syncArrive r .park (BitVec.ofNat 64 no)
  | .stf v => (((s.homeWord r.home v).mend r.home).perform r.id).fillStep r.home
  | .purge =>
    let t := (s.setF r.home false).perform r.id
    if s.fBit r.home then t.serve r.home else t
  | .tagrd w =>
    let b := if w then s.wBit r.home else s.fBit r.home
    (s.perform r.id).reply r.slot r.gen r.dst (if b then 1 else 0)
  | .atom op w v c ret =>
    let old := s.readNat r.home (widthBytes w)
    let t := match atomNew op w old v.toNat c.toNat with
      | some n => s.homeStore r.home (bytesOf (widthBytes w) n)
      | none => s
    if ret then (t.perform r.id).reply r.slot r.gen r.dst (BitVec.ofNat 64 old)
    else { t.perform r.id with acks := t.acks ++ [(r.slot, r.gen, r.id)] }
  | .record k n => s.recordRead r k (s.readWords r.home (n / 8))
  | .touch _ _ => (s.perform r.id).redDown r.slot r.gen
  | _ => s

/-- A write that sets data and F together, without reading the word (R417). -/
def RefOp.mends : RefOp → Bool
  | .stf _ => true
  | _ => false

/-- Something of the slot or its core still stands before a reference at its home (R160, R187, R320, R327, R330). -/
def State.refHeld (s : State) (r : Ref) : Bool :=
  let sb := (s.core (coreOf r.slot)).sb
  let own := sb.any fun e => e.slot == r.slot && decide (e.gen = r.gen) && decide (e.id < r.id)
  let ahead := match r.op with
    | .load _ _ => sb.any fun e => decide (e.id < r.id) && e.meets r.home r.op.len
    | .loadAfter _ _ ids => sb.any fun e => ids.contains e.id
    | .record (.mxsend _) _ => own
    | .record (.mcas _) _ => own
    | .record .pgcmd _ => decide (64 ≤ s.pgq.length)
    | _ => false
  ahead || !s.inOrder r.id r.slot r.gen (spansOf r.va.toNat r.op.len (some r.home)) r.op.isPlain

/-- A reference with one home arrives there; `s` no longer lists it. DESIGN CHOICE: log entry 52. -/
def State.arrive (s : State) (r : Ref) : State :=
  let own := (s.spRefused r.home r.op.len).elim (0, false) id
  let ev := grecEvent r.op.needW own.2 (bankOf (tileOf (s.quire (spQuire r.home)) (own.1 / 4096)).key own.1) own.1
  let gen := match r.op with
    | .park _ => (s.slot r.slot).gen - 1
    | _ => r.gen
  match s.atHome r.slot gen r.home r.op.len r.op.needW r.op.mends with
  | (.refused, t) => t.refusedRef r ev
  | (.broken, t) => t.brokenRef r
  | (.ok, t) => t.actAt r

/-! ### Lanes of vector loads and stores (R273, R275, R276) -/

/-- Where one lane's element lies, by the TLBs or a walk. -/
def State.laneReach (s : State) (r : Ref) (va : Nat) : Loc × State :=
  s.engineReach (some (coreOf r.slot)) (isleOf (coreOf r.slot)) (quireOf (coreOf r.slot)) r.space va r.op.needR r.op.needW
    0 (whoOf r.tsid r.slot r.gen)

/-- Read lane number `i` of those still to be read; `s` lists the load no longer. -/
def State.vloadLane (s : State) (r : Ref) (f sf : Fmt) (todo : List (Nat × Nat)) (got : BitVec 4096) (i : Nat) : State :=
  let back := fun (s : State) (r : Ref) => { s with refs := s.refs ++ [r] }
  match todo[i]? with
  | none => back s r
  | some (lane, va) =>
    let rest := lremove todo i
    let n := fmtBytes sf
    let put := fun (s : State) (x : Nat) =>
      let w := fmtWidth f
      let got := got ||| BitVec.ofNat 4096 (x % 2 ^ w * 2 ^ (w * lane))
      back s { r with op := .vload f sf rest got }
    match s.laneReach r va with
    | (.home h _, t) =>
      if !t.inOrder r.id r.slot r.gen (spansOf va n (some h)) false then back t r
      else match t.atHome r.slot r.gen h n false false with
        | (.refused, t) => put t 0
        | (.broken, t) => (t.perform r.id).replyFatal r.slot r.gen r.dst
        | (.ok, t) => put t (loadConv f sf (t.readNat h n))
    | (.deny, t) => (t.perform r.id).replyFatal r.slot r.gen r.dst
    | (.fault isle k, t) => t.park isle k (.ref { r with op := .vload f sf ((lane, va) :: rest) got }) true false
    | (_, t) => back t r

/-- Write lane number `i` of those still to be written; `s` lists the store no longer. A page that faults parks every lane on
it. -/
def State.vstoreLane (s : State) (r : Ref) (n : Nat) (todo : List (Nat × Nat × Nat)) (i : Nat) : State :=
  let keep := fun (s : State) (todo : List (Nat × Nat × Nat)) =>
    if todo.isEmpty then s.vstoreDone r else { s with refs := s.refs ++ [{ r with op := .vstore n todo }] }
  match todo[i]? with
  | none => keep s todo
  | some (_, va, v) =>
    let rest := lremove todo i
    let lost := fun (s : State) => keep (s.post r.slot r.gen 18 (BitVec.ofNat 64 va)) rest
    match s.laneReach r va with
    | (.home h _, t) =>
      if !t.inOrder r.id r.slot r.gen (spansOf va n (some h)) false then keep t todo
      else match t.atHome r.slot r.gen h n true false with
        | (.refused, t) => keep t rest
        | (.broken, t) => lost t
        | (.ok, t) => keep (t.homeStore h (bytesOf n v)) rest
    | (.deny, t) => lost t
    | (.fault isle k, t) =>
      let page := fun (x : Nat × Nat × Nat) => pageOf x.2.1 == pageOf va
      let t := t.park isle k (.ref { r with op := .vstore n (todo.filter page) }) false true
      let rest := todo.filter fun x => !page x
      if rest.isEmpty then t else { t with refs := t.refs ++ [{ r with op := .vstore n rest }] }
    | (_, t) => keep t todo

/-! ### TAGSET (R170 to R172) -/

/-- A TAGSET ends early, with bit 63 and the words done (R170). DESIGN CHOICE: log entry 37. -/
def State.tagsetStop (s : State) (r : Ref) (done : Nat) : State :=
  (s.perform r.id).reply r.slot r.gen r.dst (BitVec.ofNat 64 (2 ^ 63 + done))

/-- Words from `w` to the end of its granule of 256 bytes (R172). -/
def granLeft (r : Ref) (w : Nat) : Nat := (256 - (r.va.toNat + 8 * w) % 256) / 8

/-- The first word below `stop`, from `w` on, that lies in an isle; one that cannot be placed is met too. -/
def State.tagNext (s : State) (r : Ref) (isle stop : Nat) : Nat → Nat → Nat
  | 0, w => Nat.min w stop
  | n + 1, w =>
    if stop ≤ w then stop
    else match s.tagPlace r w with
      | some (_, i) => if i = isle then w else s.tagNext r isle stop n (w + granLeft r w)
      | none => w

/-- The first word that is not done. -/
def State.tagLow (s : State) (r : Ref) (ps : List TagPart) (stop : Nat) : Nat → Nat → Nat
  | 0, w => w
  | n + 1, w =>
    if stop ≤ w then w
    else match s.tagPlace r w with
      | some (_, i) => if w < (partOf ps i).pos then s.tagLow r ps stop n (w + 1) else w
      | none => w

/-- The spans without word `w`. -/
def cutSpan (w : Nat) (l : List (Nat × Nat)) : List (Nat × Nat) :=
  l.flatMap fun p =>
    if p.1 ≤ w ∧ w < p.1 + p.2 then
      (if p.1 < w then [(p.1, w - p.1)] else []) ++ (if w + 1 < p.1 + p.2 then [(w + 1, p.1 + p.2 - w - 1)] else [])
    else [p]

/-- An access names the word at an address no more. -/
def State.cutWord (s : State) (id va : Nat) : State :=
  { s with accs := s.accs.map fun a => if a.id = id then { a with words := cutSpan (va / 8 + 2 ^ 62) a.words } else a }

/-- Word `w` of a TAGSET, in an isle, is done: the operation ends with its last word. -/
def State.tagsetOn (s : State) (r : Ref) (full : Bool) (len done low : Nat) (ps : List TagPart) (isle w : Nat) : State :=
  let stop := tagsetEnd r.va.toNat len
  let ps := setPart ps { partOf ps isle with pos := w + 1 }
  if stop ≤ done + 1 then (if stop = len then (s.perform r.id).reply r.slot r.gen r.dst (BitVec.ofNat 64 len) else s.tagsetStop r (done + 1))
  else { s.cutWord r.id (r.va.toNat + 8 * w) with
    refs := s.refs ++ [{ r with op := .tagset full len (done + 1) (s.tagLow r ps stop (stop - low) low) ps }] }

/-- The step of a TAGSET at word `w`, in an isle; `s` no longer lists it. A page that denies it or faults stops or parks it when
every word before it is done. DESIGN CHOICE: log entry 37. -/
def State.tagsetStep (s : State) (r : Ref) (full : Bool) (len done low : Nat) (ps : List TagPart) (isle w : Nat) : State :=
  let va := r.va.toNat + 8 * w
  let back := fun (s : State) => { s with refs := s.refs ++ [r] }
  match s.laneReach r va with
  | (.home h _, t) =>
    if !t.inOrder r.id r.slot r.gen (spansOf va 8 (some h)) false then back t
    else match t.atHome r.slot r.gen h 8 true false with
      | (.refused, t) => t.tagsetOn r full len done low ps isle w
      | (.broken, t) => t.tagsetStop r done
      | (.ok, t) =>
        let f0 := t.fBit h
        let u := t.setF h full
        (if f0 = full then u else u.serve h).tagsetOn r full len done low ps isle w
  | (l, t) =>
    if w ≠ low then back t
    else match l with
      | .deny => t.tagsetStop r done
      | .fault isle k => t.park isle k (.ref r) false true
      | _ => back t

/-- A TAGSET goes on in an isle, where it is not given in that of its first word left: at the next word of the wave there, if it
has one. A page that is not mapped is met where it comes first. -/
def State.tagsetArrive (s : State) (r : Ref) (full : Bool) (len done low : Nat) (ps : List TagPart) (part : Option Nat) : State :=
  if tagsetEnd r.va.toNat len ≤ low then s.tagsetStop r done
  else match part.or ((s.tagPlace r low).map (·.2)) with
    | none => s.tagsetStep r full len done low ps 0 low
    | some isle =>
      let p := partOf ps isle
      let w := s.tagNext r isle p.stop (p.stop - p.pos) p.pos
      if w < p.stop then s.tagsetStep r full len done low ps isle w
      else { s with refs := s.refs ++ [{ r with op := .tagset full len done low (setPart ps { p with pos := p.stop }) }] }

/-- The active-bank limit of an isle (R171). -/
def Isle.bankLimit (i : Isle) : Nat := Nat.min i.ablimit i.cap

/-- The banks of an isle that the granules from word `w` to word `stop` lie in. -/
def State.waveBanks (s : State) (r : Ref) (isle stop : Nat) : Nat → Nat → List Nat
  | 0, _ => []
  | n + 1, w =>
    if stop ≤ w then []
    else
      let rest := s.waveBanks r isle stop n (w + granLeft r w)
      match s.tagPlace r w with
      | some (h, i) => if i = isle ∧ isSp h = false then s.bankOfPa h :: rest else rest
      | none => rest

/-- The banks of an isle that other bulk operations hold: those of the waves under way (R171). -/
def State.bulkBanks (s : State) (isle but : Nat) : List Nat :=
  s.refs.flatMap fun r => match r.op with
    | .tagset _ _ _ _ ps =>
      let p := partOf ps isle
      if r.id ≠ but ∧ p.pos < p.stop then s.waveBanks r isle p.stop (p.stop - p.start) p.start else []
    | _ => []

/-- Word `w` of a TAGSET lies on a spread page. -/
def State.tagSpread (s : State) (r : Ref) (w : Nat) : Bool :=
  let va := r.va.toNat + 8 * w
  match tlbFind ((s.core (coreOf r.slot)).tlb ++ (s.isle (isleOf (coreOf r.slot))).tlb) r.space va with
  | some e => e.sp
  | none => match s.walk r.space va with
    | .leaf e => e.sp
    | _ => false

/-- The end of an isle's wave: granule after granule, one per bank, and no more banks held than the limit (R171, R172); `own` are
the banks it has taken. On spread pages granules of other isles are passed over, since each isle runs its own; on home pages they
end the wave, and so does a page of the other kind, or one that is not mapped: words are taken in ascending address (R170). -/
def State.waveEnd (s : State) (r : Ref) (isle stop : Nat) (sp : Bool) (held : List Nat) : Nat → List Nat → Nat → Nat × List Nat
  | 0, own, w => (w, own)
  | n + 1, own, w =>
    if stop ≤ w then (stop, own)
    else match s.tagPlace r w with
      | some (h, i) =>
        let b := s.bankOfPa h
        if s.tagSpread r w != sp then (w, own)
        else if i ≠ isle then if sp then s.waveEnd r isle stop sp held n own (w + granLeft r w) else (w, own)
        else if isSp h || own.contains b || decide ((s.isle isle).bankLimit < (b :: own ++ held).eraseDups.length) then (w, own)
        else s.waveEnd r isle stop sp held n (b :: own) (w + granLeft r w)
      | none => (w, own)

/-- TAGSET_WAVE (R172): the next wave of isle `k % 16` in the `k / 16`-th reference, when its last one is over; in the scratchpad
it is 64 words. A wave that can take no granule waits. -/
def execTagsetWave (k : Nat) (s : State) : Host.Outcome State Fault Refusal :=
  let isle := k % 16
  let k := k / 16
  .next (match s.refs[k]? with
    | some r =>
      match r.op with
      | .tagset full len done low ps =>
        let p := partOf ps isle
        let from_ := Nat.max p.pos low
        let stop := tagsetEnd r.va.toNat len
        let wave := fun (e : Nat) => setPart ps { isle := isle, start := from_, pos := from_, stop := e }
        let put := fun (e : Nat) => { s with refs := s.refs.set k { r with op := .tagset full len done low (wave e) } }
        if p.pos < p.stop ∨ stop ≤ from_ then s
        else if inWindow r.va.toNat then (if (s.tagPlace r low).any (·.2 == isle) then put (Nat.min stop (from_ + 64)) else s)
        else
          let sp := s.tagSpread r low
          let (e, own) := s.waveEnd r isle stop sp (s.bulkBanks isle r.id) (stop - from_) [] from_
          if own.isEmpty || (!sp && from_ != low) then s else put (Nat.min stop e)
      | _ => s
    | none => s)

/-! ### Events -/

/-- A load that waited for earlier references of its slot looks up the store buffer now: where it holds only some bytes, the load
waits for their entries and reads at the home (R327, R330). -/
def State.lookUp (s : State) (r : Ref) (w : Width) (sgn : Bool) : State :=
  let len := widthBytes w
  match s.bufferedBytes r.slot r.id r.home len with
  | some bytes => s.forward r.slot r.id r.gen r.home w sgn r.dst bytes
  | none =>
    let some_ := ((s.sbFor r.slot r.id r.home len).filter fun e => e.meets r.home len).map (·.id)
    { s with refs := s.refs ++ [{ r with op := .loadAfter w sgn some_ }] }

/-- Loads that took a byte from a store-buffer entry are performed when the last such entry has left (R331). -/
def State.releaseReaders (s : State) (core : Nat) (ids : List Nat) : State :=
  ids.foldl (fun s id => if (s.core core).sb.any fun e => e.readers.contains id then s else s.perform id) s

/-- STORE_BUFFER_WRITE (R157, R327, R329). -/
def execStoreBufferWrite (core k : Nat) (s : State) : Host.Outcome State Fault Refusal :=
  let sb := (s.core core).sb
  .next (match sb[k]? with
    | some e =>
      let words := [spanOf e.home e.bytes.length]
      let older := (sb.take k).any fun x => spansMeet [spanOf x.home x.bytes.length] words
      if older || !s.inOrder e.id e.slot e.gen (spansOf e.va.toNat e.bytes.length (some e.home)) true then s
      else
        let t := s.modCore core fun c => { c with sb := lremove c.sb k }
        let t := match t.atHome e.slot e.gen e.home e.bytes.length true false with
          | (.refused, t) => t
          | (.broken, t) => t.post e.slot e.gen 18 e.va
          | (.ok, t) => t.homeStore e.home e.bytes
        (t.perform e.id).releaseReaders core e.readers
    | none => s)

/-- REDUCTION_ACK (R184, R397). -/
def execReductionAck (k : Nat) (s : State) : Host.Outcome State Fault Refusal :=
  .next (match s.acks[k]? with
    | some (slot, gen, _) => { s with acks := lremove s.acks k }.redDown slot gen
    | none => s)

/-! ### Replies (R87, R110, R133, R397) -/

/-- The tag of an octet is written with the last word of its image. -/
def State.setOctetTag (s : State) (k o tag : Nat) : State :=
  s.modSlot k fun t => { t with wstate := mkWstate (setTag (tagsOf t.wstate) o tag) (depthOf t.wstate) (wbOf t.wstate) }

/-- Register `i` of a FILL's octet takes its word under its state of word 8; a register that is then DEAD reads as 0 to what is
composed over it (R87, R124). DEDUCED: log entry 40. -/
def State.fillReg (s : State) (k o i : Nat) (word : Word) (code : Nat) : State :=
  let j := 7 + 8 * o + i
  if code = 0 then s.land k j word 0
  else
    let s := s.land k j 0 0
    s.modSlot k fun t => match t.xCell j with
      | .full _ => t.setXCell j .dead
      | _ => t

/-- The end of a FILL whose nine words have arrived (R87). DEDUCED: log entry 40. -/
def State.fillEnd (s : State) (k : Nat) (f : FillSt) : State :=
  let w := fun i => (f.got.lookup i).getD 0
  let s := s.modSlot k fun t => { t with fills := removeFirst (· == f) t.fills }
  let s := s.setOctetTag k f.octet (if f.fatals.contains 8 then 0 else (w 8).toNat / 2 ^ 16 % 4)
  if f.fatals.isEmpty then
    (List.range 8).foldl (fun s i => s.fillReg k f.octet i (w i) ((w 8).toNat / 4 ^ i % 4)) s
  else s

/-- A word of a FILL arrives, or ends FATAL: then every register of the octet is fatal at once (R87). -/
def State.fillWord (s : State) (k octet i : Nat) (r : Reply) : State :=
  match (s.slot k).fills.find? fun f => f.octet == octet && !(f.got.lookup i).isSome && !f.fatals.contains i with
  | none => s
  | some f =>
    let g := if r.fatal then { f with fatals := i :: f.fatals } else { f with got := f.got ++ [(i, r.value)] }
    let s := s.modSlot k fun t => { t with fills := replaceFirst (· == f) (fun _ => g) t.fills }
    let s := if r.fatal ∧ f.fatals = [] then (octetRegs octet).foldl (fun s j => s.landFatal k j) s else s
    if g.got.length + g.fatals.length = 9 then s.fillEnd k g else s

/-- REPLY_ACCEPT (R133, R397): a reply of another generation is discarded. -/
def execReplyAccept (k : Nat) (s : State) : Host.Outcome State Fault Refusal :=
  .next (match s.replies[k]? with
    | some r =>
      let s : State := { s with replies := lremove s.replies k }
      let s := match r.acc with
        | some id => s.perform id
        | none => s
      if !s.lives r.slot r.gen then s
      else match r.dst with
        | .reg j => if r.fatal then s.landFatal r.slot j else s.land r.slot j r.value (r.vec.getD 0)
        | .fillWord o i => s.fillWord r.slot o i r
        | .none => s
    | none => s)

/-- DIVIDER_DELIVER (R110): the oldest operation, 40 clk after it was accepted. -/
def execDividerDeliver (core : Nat) (s : State) : Host.Outcome State Fault Refusal :=
  .next (match (s.core core).div with
    | d :: rest =>
      if d.at_ + 40 ≤ s.cyc then
        let s := s.modCore core fun c => { c with div := rest }
        if s.lives d.slot d.gen then s.land d.slot d.reg d.value 0 else s
      else s
    | [] => s)

/-! ### Mesh words (R94, R97 to R100, R418) -/

/-- SEND_QUEUE_RELEASE (R94). -/
def execSendQueueRelease (core : Nat) (s : State) : Host.Outcome State Fault Refusal :=
  .next (match (s.core core).sendq with
    | w :: rest => { s.modCore core fun c => { c with sendq := rest } with mesh := s.mesh ++ [w] }
    | [] => s)

/-- A mesh word reaches its core: accepted, diverted, a stray, or discarded by a failed core; `s` no longer holds it. None
where it must wait for room (R97 to R100). DEDUCED: log entry 39. -/
def State.meshArrive (s : State) (w : MeshWord) : Option State :=
  match targetCore w.target with
  | none => some s
  | some core =>
    let c := s.core core
    let t := s.slot (256 * core + targetSlot w.target)
    if c.failed || c.excluded then some s
    else if accepts t.st && decide (t.gen = targetGen w.target) then
      if 512 ≤ c.inboxUsed then none
      else some (s.modCore core fun c =>
        if c.diverted.contains (targetSlot w.target) then c.enterFerry w 0 else c.enterWord w)
    else if c.strayDeliver && decide ((s.slot (256 * core)).st ≠ .free) && decide (512 ≤ c.inboxUsed) then none
    else some (s.stray core w (if t.gen = targetGen w.target then 2 else 1))

/-- MESH_WORD_ARRIVAL (R97): words of one core to one slot arrive in the order they were sent. DEDUCED: log entry 39. -/
def execMeshWordArrival (k : Nat) (s : State) : Host.Outcome State Fault Refusal :=
  .next (match s.mesh[k]? with
    | some w =>
      if (s.mesh.take k).any fun x => x.sender == w.sender && decide (x.target = w.target) then s
      else ({ s with mesh := lremove s.mesh k }.meshArrive w).getD s
    | none => s)

end Sys2Proof.Machine
end

