-- ==== Sys2Proof/Machine/Agents.lean ====
section
/-! DEFINITION. The memory-side agents: MCAS, ENQ and CHASE (R188 to R192), for references of this package and, with another way
of reaching memory, for requests of a remote one. -/

namespace Sys2Proof.Machine

/-! ### Reaching several words -/

/-- How a list of addresses is reached: the home and isle of each, the first that is bad, or the place where it stops. -/
inductive Multi where
  | all (l : List (Nat × Nat))
  | bad (i : Nat)
  | stop (l : Loc)
deriving DecidableEq, Repr

/-- Isle number that stands for a package, in the homes of global targets. -/
def packageIsle (p : Nat) : Nat := 16 + p

/-- Check and translate the targets of an MCAS in order (R189): a global one stands for itself. -/
def State.mcasReach (reach : State → Nat → Loc × State) : Nat → List Word → State → Multi × State
  | _, [], s => (.all [], s)
  | i, va :: vas, s =>
    if mcasBad va then (.bad i, s)
    else
      let (loc, t) := if isGlobal va then (.home va.toNat (packageIsle (destOf va)), s) else reach s va.toNat
      match loc with
      | .home h isle =>
        match State.mcasReach reach (i + 1) vas t with
        | (.all l, u) => (.all ((h, isle) :: l), u)
        | r => r
      | l => (.stop l, t)

/-! ### MCAS at the agent (R189, R190) -/

/-- Bit mask of the positions of a list that satisfy `q`. -/
def maskOf {α : Type} (q : α → Bool) : List α → Nat
  | [] => 0
  | a :: l => (if q a then 1 else 0) + 2 * maskOf q l

/-- The status of MCAS2 and MCAS4: its code and its mask of targets (R190). DEDUCED: log entry 46. -/
def mcasStatus (code mask : Nat) : Word := BitVec.ofNat 64 (code * 2 ^ 60 + mask)

/-- Positions whose home stands more than once in the list. -/
def dupMask (hs : List Nat) : Nat := maskOf (fun h => decide (1 < (hs.filter (· == h)).length)) hs

/-- The words are compared, and all or none written, in one step; F is kept. -/
def State.mcasSwap (s : State) (ts : List (Nat × Word × Word)) : Word × State :=
  let mism := maskOf (fun (t : Nat × Word × Word) => decide (s.readWord t.1 ≠ t.2.1)) ts
  if mism = 0 then (mcasStatus 0 0, ts.foldl (fun s t => s.homeWord t.1 t.2.2) s) else (mcasStatus 1 mism, s)

/-- MCAS once its targets are reached: the status, or none where a word holds an uncorrectable error. DEDUCED: log entry 46. -/
def State.mcasAt (s : State) (locs : List (Nat × Nat)) (vals : List (Word × Word)) : Option Word × State :=
  let dups := dupMask (locs.map (·.1))
  let first := (locs.head?.map (·.2)).getD 0
  let off := maskOf (fun (l : Nat × Nat) => l.2 != first) locs
  if dups ≠ 0 then (some (mcasStatus 3 dups), s)
  else if off ≠ 0 then (some (mcasStatus 2 off), s)
  else match locs.find? fun l => s.isBroken l.1 8 with
    | some l => (none, s.recordBroken l.1)
    | none =>
      let (w, t) := s.mcasSwap ((locs.map (·.1)).zip vals)
      (some w, t)

/-! ### References of this package -/

/-- Where an address that an agent meets lies, for a thread's reference; one whose turn has not come waits (R327). -/
def State.agentReach (r : Ref) (needW : Bool) (s : State) (va : Nat) : Loc × State :=
  match s.engineReach (some (coreOf r.slot)) (isleOf (coreOf r.slot)) (quireOf (coreOf r.slot)) r.space va true needW 0
    (whoOf r.tsid r.slot r.gen) with
  | (.home h isle, t) => (if t.inOrder r.id r.slot r.gen (spansOf va 8 (some h)) false then .home h isle else .walk, t)
  | x => x

/-- A reference to DRAM that has come to its agent's turn. -/
def State.agentRef (s : State) (k : Nat) : Option Ref :=
  match s.refs[k]? with
  | some r => if r.home = unplaced || s.refHeld r then none else some r
  | none => none

/-- An agent operation stops where an address could not be reached: it parks there, fails, or stays for its turn. -/
def State.agentStop (s : State) (r : Ref) (needW : Bool) (l : Loc) : State :=
  match l with
  | .fault isle n => s.park isle n (.ref r) true needW
  | .deny => (s.perform r.id).replyFatal r.slot r.gen r.dst
  | _ => { s with refs := s.refs ++ [r] }

/-- A request with global targets waits: for the slot's earlier elements of the connection, or for a fence record before it that
holds remote accesses (R208, R209, R336). -/
def State.requestWaits (s : State) (r : Ref) (dest job : Nat) : Bool :=
  s.elemsBefore r.slot r.gen dest job ||
    (s.lives r.slot r.gen && (s.slot r.slot).fences.any fun f =>
      decide (f.no ≤ r.id) && s.anyOutstanding f.ids && decide (f.later &&& setR ≠ 0))

/-- Queue a request of a slot behind its elements of the connection (R208, R209). -/
def State.requestFrom (s : State) (r : Ref) (dest job off : Nat) (op : RemOp) : State :=
  let s := s.sealFor r.slot dest job
  let tag : RetTag := { core := coreOf r.slot, slot := slotNo r.slot, gen := r.gen.toNat, reg := r.num }
  s.pushPkt dest job {
    pkt := .request tag off op, shadow := [], slot := r.slot, gen := r.gen, dst := r.dst, sgn := false, settled := false }

/-- MCAS with its descriptor read: `ws` holds targets, expected and new values. -/
def State.mcas (s : State) (r : Ref) (n : Nat) (ws : List Word) : State :=
  let vas := ws.take n
  let vals := (List.range n).map fun i => (ws.getD (n + i) 0, ws.getD (2 * n + i) 0)
  let answer := fun (s : State) (w : Word) => (s.perform r.id).reply r.slot r.gen r.dst w
  match State.mcasReach (State.agentReach r true) 0 vas s with
  | (.bad i, t) => answer t (mcasStatus 4 (2 ^ i))
  | (.stop l, t) => t.agentStop r true l
  | (.all locs, t) =>
    let first := (locs.head?.map (·.2)).getD 0
    if 16 ≤ first && locs.all (·.2 == first) then
      if t.requestWaits r (first - 16) r.job then { t with refs := t.refs ++ [r] }
      else if t.canReach (first - 16) r.job then
        let ts := (vas.zip vals).map fun p => (offOf p.1, p.2.1, p.2.2)
        (t.perform r.id).requestFrom r (first - 16) r.job (offOf (vas.headD 0)) (.mcas ts)
      else (t.perform r.id).replyFatal r.slot r.gen r.dst
    else match t.mcasAt locs vals with
      | (some w, u) => answer u w
      | (none, u) => (u.perform r.id).replyFatal r.slot r.gen r.dst

/-- AGENT_MCAS (R189, R190): the `k`-th reference; a refused descriptor reads as zero words. -/
def execAgentMcas (k : Nat) (s : State) : Host.Outcome State Fault Refusal :=
  .next (match s.agentRef k with
    | some r =>
      match r.op with
      | .record (.mcas n) len =>
        let t : State := { s with refs := lremove s.refs k }
        match t.atHome r.slot r.gen r.home len false false with
        | (.refused, t) => t.mcas r n (List.replicate (len / 8) 0)
        | (.broken, t) => (t.perform r.id).replyFatal r.slot r.gen r.dst
        | (.ok, t) => t.mcas r n (t.readWords r.home (len / 8))
      | _ => s
    | none => s)

/-! ### ENQ (R191) -/

/-- The effect of ENQ on header `h`, the node and the old tail at their homes; the old tail's link is written as STF does.
DEDUCED: log entry 46. -/
def State.enqLink (s : State) (h node : Nat) (nodeVa : Word) (tail : Option Nat) : State :=
  let f0 := s.fBit node
  let s := ((s.homeWord node 0).setF node false).mend node
  let s := if f0 then s.serve node else s
  let s := match tail with
    | none => s.homeWord h nodeVa
    | some t => ((s.homeWord t nodeVa).mend t).fillStep t
  s.homeWord (h + 8) nodeVa

/-- How ENQ ends: the old tail, a failure, or the place where it stops. -/
inductive EnqEnd where
  | done (tail : Word)
  | fatal
  | stop (l : Loc)
deriving DecidableEq, Repr

/-- ENQ at its agent, with the header's home and a way to reach node and tail. DEDUCED: log entry 46. -/
def State.enqAt (s : State) (reach : State → Nat → Loc × State) (h : Nat) (node : Word) : EnqEnd × State :=
  if nodeBad node then (.fatal, s)
  else if s.isBroken h 16 then (.fatal, s.recordBroken h)
  else match reach s node.toNat with
    | (.home nh _, t) =>
      let tail := t.readWord (h + 8)
      if tail = 0 then (.done 0, t.enqLink h nh node none)
      else if nodeBad tail then (.fatal, t)
      else match reach t tail.toNat with
        | (.home th _, u) => (.done tail, u.enqLink h nh node (some th))
        | (.deny, u) => (.fatal, u)
        | (l, u) => (.stop l, u)
    | (.deny, t) => (.fatal, t)
    | (l, t) => (.stop l, t)

/-- AGENT_ENQ (R191): the `k`-th reference. -/
def execAgentEnq (k : Nat) (s : State) : Host.Outcome State Fault Refusal :=
  .next (match s.agentRef k with
    | some r =>
      match r.op with
      | .enq node =>
        let t : State := { s with refs := lremove s.refs k }
        match t.enqAt (State.agentReach r true) r.home node with
        | (.done tail, u) => (u.perform r.id).reply r.slot r.gen r.dst tail
        | (.fatal, u) => (u.perform r.id).replyFatal r.slot r.gen r.dst
        | (.stop l, u) => u.agentStop r true l
      | _ => s
    | none => s)

/-! ### CHASE (R192) -/

/-- One step of a chase at a word: its end with a word, a failure, or the next address. -/
inductive Hop where
  | done (w : Word)
  | fatal
  | next (va : Word)
deriving DecidableEq, Repr

/-- One hop of CHASE: the word that it reads and where the chase goes next (R192). DEDUCED: log entry 46. -/
def State.hop (s : State) (h : Nat) (o : Word) (hops : Nat) : Hop :=
  let w := s.readWord h
  if s.isBroken h 8 then .fatal
  else if hops = 0 then .done w
  else if w = 0 then .done 0
  else if hopBad (w + o) then .fatal else .next (w + o)

/-- AGENT_CHASE_HOP (R192): one hop of the `k`-th reference. -/
def execAgentChaseHop (k : Nat) (s : State) : Host.Outcome State Fault Refusal :=
  .next (match s.agentRef k with
    | some r =>
      match r.op with
      | .chase o hops =>
        let t : State := { s with refs := lremove s.refs k }
        let fail := fun (s : State) => (s.perform r.id).replyFatal r.slot r.gen r.dst
        match t.hop r.home o hops with
        | .done w => (t.perform r.id).reply r.slot r.gen r.dst w
        | .fatal => fail (if t.isBroken r.home 8 then t.recordBroken r.home else t)
        | .next a =>
          let r := { r with va := a, op := .chase o (hops - 1) }
          match State.agentReach r false t a.toNat with
          | (.home h isle, u) => { u with refs := u.refs ++ [{ r with home := h, isle := isle }] }
          | (.fault isle n, u) => u.park isle n (.ref r) true false
          | (.deny, u) => fail u
          | (_, u) => { u with refs := u.refs ++ [{ r with home := unplaced }] }
      | _ => s
    | none => s)

end Sys2Proof.Machine
end

