-- ==== Sys2Proof/Machine/Target.lean ====
section
/-! DEFINITION. Remote accesses at the target (R207, R211, R213, R227) and their answers at the sender (R208, R210, R222). -/

namespace Sys2Proof.Machine

/-! ### Answers at the sender -/

/-- Change the first packet that satisfies `q` among the frames of a connection, oldest first. -/
def settleIn (q : OutPkt → Bool) : List OutFrame → List OutFrame
  | [] => []
  | f :: fs =>
    if f.pkts.any q then { f with pkts := replaceFirst q (fun p => { p with settled := true }) f.pkts } :: fs
    else f :: settleIn q fs

/-- Frames that are acknowledged and await no answer are gone (R222, R229). -/
def sweep (fs : List OutFrame) : List OutFrame := fs.filter fun f => !f.done || f.pkts.any fun p => !p.settled

def State.settlePkt (s : State) (peer job : Nat) (q : OutPkt → Bool) : State :=
  s.modConn peer job fun c => { c with replay := sweep (settleIn q c.replay) }

/-- The value that a reply brings to its register (R208). -/
def replyValue (op : RemOp) (sgn : Bool) (v : Word) : Word :=
  match op with
  | .load w => extendTo w sgn v.toNat
  | .atom _ w _ _ => extendTo w false v.toNat
  | _ => v

/-- Kind of a request packet (R227). -/
def remKind : RemOp → Nat
  | .load _ => 1
  | .atom _ _ _ _ => 3
  | .probe _ _ _ _ => 8
  | _ => 5

/-- A reply packet lands (R208 to R211). Its tag names a register by its number only; it answers the oldest request of that kind
and tag. DESIGN CHOICE: log entry 41. -/
def State.replyIn (s : State) (peer job kind : Nat) (tag : RetTag) (status : Nat) (v : Word) : State :=
  let mine := fun (p : OutPkt) => !p.settled && match p.pkt with
    | .request t _ op => t == tag && kind == remKind op + 1
    | _ => false
  match ((s.conn peer job).replay.flatMap (·.pkts)).find? mine with
  | none => s
  | some p =>
    let s := s.settlePkt peer job mine
    match p.pkt with
    | .request _ _ (.probe _ _ _ _) => s.redDown p.slot p.gen
    | .request _ _ op =>
      if status = 0 then s.reply p.slot p.gen p.dst (replyValue op p.sgn v) else s.replyFatal p.slot p.gen p.dst
    | _ => s

/-- An element-status packet lands (R222, R227): the statuses wait for ELEMENT_STATUS_RECEIVE. -/
def State.statusesIn (s : State) (peer job seq idx : Nat) (sts : List Nat) : State :=
  let awaits := fun (f : OutFrame) => f.seq == seq && (f.pkts[idx]?).any fun p => !p.settled && !p.shadow.isEmpty
  match (s.conn peer job).replay.find? awaits with
  | none => s
  | some f =>
    let shadow := ((f.pkts[idx]?).map (·.shadow)).getD []
    let mark := fun (f : OutFrame) => { f with pkts := f.pkts.modify idx fun p => { p with settled := true } }
    let s := s.modConn peer job fun c => { c with replay := sweep (replaceFirst awaits mark c.replay) }
    { s with statusIn := s.statusIn ++ shadow.zip sts }

/-- ELEMENT_STATUS_RECEIVE (R217, R222): the `k`-th status; those of one slot are taken in order. -/
def execElementStatusReceive (k : Nat) (s : State) : Host.Outcome State Fault Refusal :=
  .next (match s.statusIn[k]? with
    | some (e, st) =>
      if (s.statusIn.take k).any fun x => x.1.slot == e.slot && decide (x.1.gen = e.gen) then s
      else
        let t : State := { s with statusIn := lremove s.statusIn k }
        if !t.lives e.slot e.gen then t
        else
          let t := t.modSlot e.slot fun u => { u with unacked := u.unacked - 1 }
          if st = 0 then t else t.rfAdd e.slot e.gen e.va e.el.op st
    | none => s)

/-- Send a packet back to a peer, or hand it over at once where the peer is this package (R200); an answer that can no longer be
sent is dropped (R240). -/
def State.answerTo (s : State) (peer job : Nat) (p : Packet) : State :=
  if peer = s.fpkg then
    match p with
    | .reply k tag st v => s.replyIn peer job k tag st v
    | .statuses seq idx sts => s.statusesIn peer job seq idx sts
    | _ => s
  else if s.canReach peer job then
    s.pushPkt peer job { pkt := p, shadow := [], slot := 0, gen := 0, dst := .none, sgn := false, settled := true }
  else s

/-! ### The end of an access at the target -/

/-- Enter an element's status; the packet's statuses leave when all are known (R227). -/
def State.gatherStatus (s : State) (a : RemAccess) (status : Nat) : State :=
  let mine := fun (g : InGather) => g.peer == a.peer && g.job == a.job && g.seq == a.seq && g.pkt == a.pkt
  let put := fun (g : InGather) => { g with sts := g.sts.set a.el (some status) }
  let s : State := { s with inGathers := replaceFirst mine put s.inGathers }
  match s.inGathers.find? mine with
  | some g =>
    if g.sts.all (·.isSome) then
      { s with inGathers := removeFirst mine s.inGathers }.answerTo a.peer a.job (.statuses a.seq a.pkt (g.sts.map fun (x : Option Nat) => x.getD 0))
    else s
  | none => s

/-- The in-flight count of each window that the access holds falls (R205, R207). -/
def State.leaveWindows (s : State) (hs : List Nat) : State :=
  hs.foldl (fun s h => s.setWindow h { s.window h with inflight := (s.window h).inflight - 1 }) s

/-- An access ends with a status (R207, R222). -/
def State.endRemote (s : State) (a : RemAccess) (status : Nat) (v : Word) : State :=
  let s := s.leaveWindows (if a.targets.isEmpty then [a.handle] else a.targets.map (·.1))
  match a.elem with
  | some _ => s.gatherStatus a status
  | none => s.answerTo a.peer a.job (.reply (remKind a.op + 1) a.tag status v)

def stOk : Nat := 0
def stTranslation : Nat := 1
def stRights : Nat := 2
def stUnreachable : Nat := 3

/-! ### Performing an access (R207) -/

/-- Word 2 of a ring entry for a remote reference (R393): source package and job. -/
def remoteWho (a : RemAccess) : Word := BitVec.ofNat 64 (a.peer % 4096 * 2 ^ 16 + a.job % 2 ^ 16)

/-- A remote access is parked on a fault entry. -/
def FaultEnt.hasRemote (f : FaultEnt) : Bool := f.parked.any fun p => match p.what with
  | .remote _ => true
  | _ => false

/-- The words that an access names, as (space, word): its own, or those of its targets. -/
def RemAccess.words (a : RemAccess) : List (Nat × Nat) :=
  if a.targets.isEmpty then [(a.space, a.va.toNat / 8)] else a.targets.map fun t => (t.2.2, t.2.1 / 8)

/-- An accepted access that has not reached its word names this one. -/
def State.remoteWaits (s : State) (isle space va : Nat) : Bool :=
  let onWord := fun (b : RemAccess) => b.isle == isle && b.words.contains (space, va / 8)
  let parkedOnWord := fun (p : ParkedOn) => match p.what with
    | .remote b => !b.targets.isEmpty && onWord b
    | _ => false
  s.remRefs.any onWord || (s.isle (s.faultIsle isle)).faults.any fun f => f.2.parked.any parkedOnWord

/-- Translate for the ingress; an access to a word that an earlier one still waits for stays behind it, and a page on which a
remote access is parked is joined first (R218). DESIGN CHOICE: log entry 41. DESIGN CHOICE: log entry 60. -/
def State.ingress (a : RemAccess) (space : Nat) (needR needW : Bool) (s : State) (va : Nat) : Loc × State :=
  let isle := s.faultIsle a.isle
  if s.remoteWaits a.isle space va then (.walk, s)
  else match ((s.isle isle).findFault space (pageOf va)).filter fun n => (s.fault isle n).hasRemote with
    | some n => (.fault isle n, s)
    | none => s.engineReach none isle 0 space va needR needW 2 (remoteWho a)

/-- An access that has not reached its word: denied, on a page of an isle left out (R407), parked, or waiting. -/
def State.remoteStop (s : State) (a : RemAccess) (needR needW : Bool) (l : Loc) : State :=
  match l with
  | .fault isle n => s.park isle n (.remote a) needR needW
  | .deny => s.endRemote a stRights 0
  | .dead => s.endRemote a stTranslation 0
  | _ => { s with remRefs := s.remRefs ++ [a] }

/-- An access that met an uncorrectable word ends as TRANSLATION. -/
def State.remoteBroken (s : State) (a : RemAccess) (h : Nat) : State := (s.recordBroken h).endRemote a stTranslation 0

/-- What the codes of R213 do at a home: none for a store. -/
def elemAtom (op : Nat) : Option AtomOp :=
  [none, some .add, some .and, some .or, some .xor, some .minS, some .maxS, some .minU, some .maxU, some .fadd, some .fadd].getD op none

/-- The enabled bytes of an element, as first byte and length, none where the enables are not those of R213; combined stores may
enable any bytes (R216), and have the whole word as their run. -/
def elemRun (e : Elem) : Option (Nat × Nat) :=
  let ok := fun (p : Nat × Nat) => decide (e.be.toNat = (2 ^ p.2 - 1) * 2 ^ p.1)
  let op := e.op.toNat
  let lens := if op = 9 then [4] else if op = 10 then [2] else [4, 8]
  if 10 < op ∨ e.be = 0 then none
  else if op = 0 then some (0, 8)
  else (lens.flatMap fun n => (List.range (8 / n)).map fun i => (i * n, n)).find? ok

def widthOfBytes (n : Nat) : Width := if n = 1 then .b8 else if n = 2 then .b16 else if n = 4 then .b32 else .b64

/-- Apply an element at the home `h` of its first enabled byte. -/
def State.elemApply (s : State) (e : Elem) (h at_ n : Nat) : State :=
  let v := e.value.toNat / 2 ^ (8 * at_) % 2 ^ (8 * n)
  match elemAtom e.op.toNat with
  | none =>
    (List.range 8).foldl (fun s i =>
      if e.be.getLsbD i then s.homeStore (h + i) [BitVec.ofNat 8 (e.value.toNat / 2 ^ (8 * i))] else s) s
  | some op =>
    match atomNew op (widthOfBytes n) (s.readNat h n) v 0 with
    | some x => s.homeStore h (bytesOf n x)
    | none => s

/-- One hop of a chase at the target (R192): each word is read by itself, and the access stays until its last hop. -/
def State.chaseRemote (a : RemAccess) (o : Word) (hops : Nat) (s : State) : State :=
  match State.ingress a a.space true false s a.va.toNat with
  | (.home h _, t) =>
    match t.hop h o hops with
    | .done w => t.endRemote a stOk w
    | .fatal => if t.isBroken h 8 then t.remoteBroken a h else t.endRemote a stTranslation 0
    | .next va => { t with remRefs := t.remRefs ++ [{ a with va := va, op := .chase o (hops - 1) }] }
  | (l, t) => t.remoteStop a true false l

/-- Translate the targets of a remote MCAS in order. -/
def State.mcasIngress (a : RemAccess) : List (Nat × Nat × Nat) → State → Multi × State
  | [], s => (.all [], s)
  | (_, va, space) :: ts, s =>
    match State.ingress a space true true s va with
    | (.home h isle, t) =>
      match State.mcasIngress a ts t with
      | (.all l, u) => (.all ((h, isle) :: l), u)
      | r => r
    | (l, t) => (.stop l, t)

/-- Reads and writes of the page that a request needs. -/
def remNeeds : RemOp → Bool × Bool
  | .load _ => (true, false)
  | .chase _ _ => (true, false)
  | .probe r w _ _ => (r, w)
  | _ => (true, true)

/-- Perform an accepted request (R207). -/
def State.runRequest (s : State) (a : RemAccess) : State :=
  let (nr, nw) := remNeeds a.op
  match a.op with
  | .chase o hops => State.chaseRemote a o hops s
  | .mcas ts =>
    match State.mcasIngress a a.targets s with
    | (.all locs, t) =>
      match t.mcasAt locs (ts.map fun t => t.2) with
      | (some w, u) => u.endRemote a stOk w
      | (none, u) => u.endRemote a stTranslation 0
    | (.bad _, t) => t.endRemote a stTranslation 0
    | (.stop l, t) => t.remoteStop a true true l
  | op =>
    match State.ingress a a.space nr nw s a.va.toNat with
    | (.home h _, t) =>
      match op with
      | .load w =>
        if t.isBroken h (widthBytes w) then t.remoteBroken a h
        else t.endRemote a stOk (BitVec.ofNat 64 (t.readNat h (widthBytes w)))
      | .atom op w v c =>
        if t.isBroken h (widthBytes w) then t.remoteBroken a h
        else
          let old := t.readNat h (widthBytes w)
          let u := match atomNew op w old v.toNat c.toNat with
            | some n => t.homeStore h (bytesOf (widthBytes w) n)
            | none => t
          u.endRemote a stOk (BitVec.ofNat 64 old)
      | .enq node =>
        match t.enqAt (State.ingress a a.space true true) h node with
        | (.done w, u) => u.endRemote a stOk w
        | (.fatal, u) => u.endRemote a stTranslation 0
        | (.stop l, u) => u.remoteStop a true true l
      | _ => t.endRemote a stOk 0
    | (l, t) => t.remoteStop a nr nw l

/-- Perform an accepted element (R207, R213). -/
def State.runElem (s : State) (a : RemAccess) (e : Elem) : State :=
  match elemRun e with
  | none => s.endRemote a stTranslation 0
  | some (i, n) =>
    let reads := decide (e.op ≠ 0)
    match State.ingress a a.space reads true s a.va.toNat with
    | (.home h _, t) => if t.isBroken h n then t.remoteBroken a h else (t.elemApply e h i n).endRemote a stOk 0
    | (l, t) => t.remoteStop a reads true l

/-- Perform an accepted access, at its arrival or when its fault entry releases it. -/
def State.runRemote (s : State) (a : RemAccess) : State :=
  match a.elem with
  | some e => s.runElem a e
  | none => s.runRequest a

/-- An accepted access reaches its word at once, or only later (R218). -/
def State.startRemote (s : State) (late : Bool) (a : RemAccess) : State :=
  if late then { s with remRefs := s.remRefs ++ [a] } else s.runRemote a

/-- The `k`-th access that waits on its way to a home reaches it, when no earlier one names a word of it (R218). -/
def State.remoteArrive (s : State) (k : Nat) : State :=
  match s.remRefs[k]? with
  | some a =>
    if (s.remRefs.take k).any fun b => b.isle == a.isle && b.words.any a.words.contains then s
    else
      -- what came later and names a word of it stays behind it
      let t : State := { s with remRefs := s.remRefs.take k }
      let u := t.runRemote a
      { u with remRefs := u.remRefs ++ s.remRefs.drop (k + 1) }
  | none => s

/-! ### Acceptance (R207) -/

/-- The right that an access needs, as a bit of word 3 of the window record. -/
def remRight : RemOp → Option Nat
  | .load _ => some 0
  | .atom _ _ _ _ => some 2
  | .probe _ _ _ _ => none
  | _ => some 3

/-- The bytes a request names at its offset, and their alignment. -/
def remSize : RemOp → Nat
  | .load w => widthBytes w
  | .atom _ w _ _ => widthBytes w
  | .probe _ _ _ w => widthBytes w
  | .enq _ => 16
  | _ => 8

/-- Look an offset up in the windows of a job: the handle, or the status that the access fails with. -/
def State.lookup (s : State) (job off len : Nat) (right : Option Nat) : Except Nat Nat :=
  let covers := fun (w : Window) => w.job == job && decide (w.obase * 2 ^ 16 ≤ off) && decide (off < w.obase * 2 ^ 16 + w.length)
  match s.windows.find? fun e => covers e.2 with
  | none => .error stTranslation
  | some (h, w) =>
    if w.obase * 2 ^ 16 + w.length < off + len then .error stTranslation
    else if w.closing then .error stRights
    else if right.any fun b => !w.rights.getLsbD b then .error stRights
    else .ok h

/-- The access counts in a window. -/
def State.enterWindow (s : State) (h : Nat) : State :=
  s.setWindow h { s.window h with inflight := (s.window h).inflight + 1 }

/-- The local address of an offset in a window. -/
def Window.va (w : Window) (off : Nat) : Nat := w.local_.toNat + (off - w.obase * 2 ^ 16)

/-- Look every target of an MCAS up; the first that fails gives the status. -/
def State.lookupAll (s : State) (job : Nat) : List Nat → Except Nat (List (Nat × Nat × Nat))
  | [] => .ok []
  | off :: offs =>
    match s.lookup job off 8 (some 3), s.lookupAll job offs with
    | .ok h, .ok l => .ok ((h, (s.window h).va off, (s.window h).space) :: l)
    | .error e, _ => .error e
    | _, .error e => .error e

/-- The return tag of what has none. -/
def noTag : RetTag := { core := 0, slot := 0, gen := 0, reg := 0 }

/-- An access of a peer that has not been looked up. -/
def freshAccess (peer job isle : Nat) (tag : RetTag) (op : RemOp) : RemAccess where
  peer := peer
  job := job
  isle := isle
  handle := 0
  targets := []
  va := 0
  space := 0
  seq := 0
  pkt := 0
  el := 0
  tag := tag
  op := op
  elem := none

/-- A request arrives (R207). DESIGN CHOICE: log entry 41. -/
def State.acceptRequest (s : State) (late : Bool) (peer job isle : Nat) (tag : RetTag) (off : Nat) (op : RemOp) : State :=
  let a := freshAccess peer job isle tag op
  let fail := fun (st : Nat) => s.answerTo peer job (.reply (remKind op + 1) tag st 0)
  match op with
  | .mcas ts =>
    match s.lookupAll job (ts.map (·.1)) with
    | .error st => fail st
    | .ok l =>
      if l.isEmpty || ts.any (fun t => t.1 % 8 != 0) then fail stTranslation
      else (l.foldl (fun s t => s.enterWindow t.1) s).startRemote late { a with targets := l }
  | _ =>
    match s.lookup job off (remSize op) (remRight op) with
    | .error st => fail st
    | .ok h =>
      if off % remSize op ≠ 0 then fail stTranslation
      else
        let w := s.window h
        (s.enterWindow h).startRemote late { a with handle := h, va := BitVec.ofNat 64 (w.va off), space := w.space }

/-- An element arrives, as element `i` of a packet whose statuses are being collected (R207). -/
def State.acceptElem (s : State) (late : Bool) (peer job isle seq pkt : Nat) (tag : RetTag) (i : Nat) (e : Elem) : State :=
  let a := { freshAccess peer job isle tag (.load .b64) with seq := seq, pkt := pkt, el := i, elem := some e }
  match elemRun e with
  | none => s.gatherStatus a stTranslation
  | some (b, n) =>
    let off := 8 * e.off.toNat + b
    match s.lookup job off n (some (if e.op = 0 then 1 else 2)) with
    | .error st => s.gatherStatus a st
    | .ok h =>
      let w := s.window h
      (s.enterWindow h).startRemote late { a with handle := h, va := BitVec.ofNat 64 (w.va off), space := w.space }

/-- Elements in order. -/
def State.acceptElems (s : State) (late : List (Nat × Nat)) (peer job isle seq pkt : Nat) (tag : RetTag) : Nat → List Elem → State
  | _, [] => s
  | i, e :: es =>
    (s.acceptElem (late.contains (pkt, i)) peer job isle seq pkt tag i e).acceptElems late peer job isle seq pkt tag (i + 1) es


/-- A packet of a data frame is applied: packet `idx` of the frame with sequence `seq` (R227). DESIGN CHOICE: log entry 41. -/
def State.applyPacket (s : State) (late : List (Nat × Nat)) (peer job isle seq idx : Nat) (p : Packet) : State :=
  match p with
  | .gathered els =>
    if els.isEmpty then s.answerTo peer job (.statuses seq idx [])
    else
      let g : InGather := { peer := peer, job := job, seq := seq, pkt := idx, tag := noTag, sts := els.map fun _ => none }
      { s with inGathers := s.inGathers ++ [g] }.acceptElems late peer job isle seq idx noTag 0 els
  | .request tag off op => s.acceptRequest (late.contains (idx, 0)) peer job isle tag off op
  | .reply k tag st v => s.replyIn peer job k tag st v
  | .statuses sq ix sts => s.statusesIn peer job sq ix sts
  | .reserved => s

/-- The packets of a frame in order, up to one of a reserved kind (R227). -/
def State.applyPackets (s : State) (late : List (Nat × Nat)) (peer job isle seq : Nat) : Nat → List Packet → State
  | _, [] => s
  | i, p :: ps =>
    if p = .reserved then s else (s.applyPacket late peer job isle seq i p).applyPackets late peer job isle seq (i + 1) ps

/-- MEMREF_ARRIVE (R159): the `k`-th reference reaches its home. `part` picks the lane of a vector reference, the first where it
is not given, or the isle of a TAGSET. Behind the references of threads stand the accesses of peers (R218). A
reference whose page still has to be translated for want of a fault entry is released again (R388); one that cannot go on keeps
its place. DESIGN CHOICE: log entry 52. -/
def execMemrefArrive (k : Nat) (part : Option Nat) (s : State) : Host.Outcome State Fault Refusal :=
  .next (match s.refs[k]? with
    | some r =>
      let t : State := { s with refs := lremove s.refs k }
      let stay := fun (u : State) => if u.refs = t.refs ++ [r] then { u with refs := s.refs } else u
      if r.home = unplaced then stay (t.releaseRef r)
      else match r.op with
        | .vload f sf todo got =>
          if todo.isEmpty then
            { t with replies := t.replies ++ [{
                slot := r.slot, gen := r.gen, dst := r.dst, value := 0, vec := some got, fatal := false, acc := some r.id }] }
          else stay (t.vloadLane r f sf todo got (part.getD 0))
        | .vstore n todo => stay (t.vstoreLane r n todo (part.getD 0))
        | .tagset full len done low ps => stay (t.tagsetArrive r full len done low ps part)
        | .enq _ => s
        | .chase _ _ => s
        | .record (.mcas _) _ => s
        | .loadLate w sgn => if s.refHeld r then s else t.lookUp r w sgn
        | _ => if s.refHeld r then s else t.arrive r
    | none => s.remoteArrive (k - s.refs.length))

/-- Accesses that found no fault entry are tried again, in order. -/
def State.retryRemote (s : State) (isle : Nat) : State :=
  let mine := s.remRefs.filter fun a => s.faultIsle a.isle == isle
  mine.foldl (fun s a => s.runRemote a) { s with remRefs := s.remRefs.filter fun a => s.faultIsle a.isle != isle }

end Sys2Proof.Machine
end

