-- ==== Sys2Proof/Machine/Copier.lean ====
section
/-! DEFINITION. The tile copier at work (R247, R252, R255, R256, R261). A step moves the elements of one word of a tile or of 16 bytes
of a folio; which is next is not defined. -/

namespace Sys2Proof.Machine

/-- COPY_START (R253, R255): in queue order, at most 4 at once. -/
def execCopyStart (quire : Nat) (s : State) : Host.Outcome State Fault Refusal :=
  let q := s.quire quire
  .next (match q.copyq with
    | c :: rest =>
      if q.running.length < 4 && s.settledBefore c.slot c.gen c.acc then
        s.modQuire quire fun q => { q with copyq := rest, running := q.running ++ [c] }
      else s
    | [] => s)

/-! ### The elements of a copy -/

/-- Coordinates of element number `i` of the box, dimension 0 fastest (R252). -/
def Copy.coords (c : Copy) (i : Nat) : List Nat :=
  let o := coordsOf c.origin
  let e := coordsOf c.extent
  let n := fun d => if d < c.folio.rank then e.getD d 0 else 1
  [o.getD 0 0 + i % n 0, o.getD 1 0 + i / n 0 % n 1, o.getD 2 0 + i / (n 0 * n 1) % n 2, o.getD 3 0 + i / (n 0 * n 1 * n 2)]

/-- Home of the tile bytes of element `i`. -/
def Copy.tileHome (c : Copy) (quire i : Nat) : Nat := spHome quire (4096 * c.tile + i * fmtBytes c.fmt)

/-- What is written in one step: a word of a tile, or 16 bytes of a folio (R261). -/
def Copy.destUnit (c : Copy) (i : Nat) : Nat :=
  if c.out then c.folio.addr (c.coords i) / 16 else (4096 * c.tile + i * fmtBytes c.fmt) / 8

/-- The elements still to be moved that are written in the same step as `i`. -/
def Copy.group (c : Copy) (i : Nat) : List Nat := c.todo.filter fun j => c.destUnit j == c.destUnit i

/-- A word is written in full by elements at the given places, each (address, bytes). -/
def fillsWord (ps : List (Nat × Nat)) : Bool :=
  (List.range 8).all fun b => ps.any fun p => decide (p.1 % 8 ≤ b ∧ b < p.1 % 8 + p.2)

/-- The copier acts for the set that owns the tiles. -/
def State.copyEng (s : State) (c : Copy) (quire : Nat) : Eng :=
  ⟨coreOf c.slot, quire, c.slot, c.gen, (tileOf (s.quire quire) c.tile).tsid, c.folio.space, .tiles c.tile c.tiles, []⟩

/-! ### The far side -/

/-- How a far access goes: a home, or the element that a far package holds, which is not known here. -/
inductive Far where
  | home (h : Nat)
  | beyond
deriving DecidableEq, Repr

/-- Reach `n` bytes of the folio at `va`: local memory, a window of this package (R200, R207), or a far package, which may fail
(R256). `.refused` stands for a failed remote access where the address is global. -/
def State.copyReach (s : State) (c : Copy) (quire va n : Nat) (write mends : Bool) : Except EngFail Far × State :=
  let e := s.copyEng c quire
  if va.testBit 55 then
    let job := c.job
    let dest := destOf (BitVec.ofNat 64 va)
    if dest ≠ s.fpkg then
      if s.canReach dest job && Config.freeBool s.draws then (.ok .beyond, { s with draws := s.draws + 1 })
      else (.error .refused, { s with draws := s.draws + 1 })
    else match s.lookup job (offOf (BitVec.ofNat 64 va)) n (some (if write then 1 else 0)) with
      | .error _ => (.error .refused, s)
      | .ok h =>
        let w := s.window h
        match s.engAt { e with space := w.space } (w.va (offOf (BitVec.ofNat 64 va))) n (!write) write mends with
        | (.ok h, s) => (.ok (.home h), s)
        | (.error (.fault i k), s) => (.error (.fault i k), s)
        | (.error .wait, s) => (.error .wait, s)
        | (.error _, s) => (.error .refused, s)
  else match s.engAt e va n (!write) write mends with
    | (.ok h, s) => (.ok (.home h), s)
    | (.error x, s) => (.error x, s)

/-- Why a copy stops short (R256). -/
inductive CopyStop where
  | park (isle idx : Nat)
  | wait
  | ends (ecode : Nat)
deriving DecidableEq, Repr

/-- The error of a failed access at an address (R256). DESIGN CHOICE: log entry 47. -/
def copyStop (va : Nat) : EngFail → CopyStop
  | .fault i k => .park i k
  | .wait => .wait
  | .denied => .ends 2
  | .fatal => .ends 1
  | .refused => .ends (if va.testBit 55 then 4 else 5)

/-! ### Moving -/

/-- Read element `i` from the folio for `.in`, as its bits in the tile format; a padded one is zero, or an error under the
faulting policy. DESIGN CHOICE: log entry 47. -/
def State.copyRead (s : State) (c : Copy) (quire i : Nat) : Except CopyStop Nat × State :=
  let f := c.folio
  let va := f.addr (c.coords i)
  let n := fmtBytes f.fmt
  if f.oob (c.coords i) then (if f.pad = 0 then (.error (.ends 3), s) else (.ok 0, s))
  else match s.copyReach c quire va n false false with
    | (.ok (.home h), s) => (.ok (loadConv c.fmt f.fmt (s.readNat h n)), s)
    | (.ok .beyond, s) =>
      (.ok (loadConv c.fmt f.fmt ((Config.freeWord s.draws).toNat % 2 ^ fmtWidth f.fmt)), { s with draws := s.draws + 1 })
    | (.error x, s) => (.error (copyStop va x), s)

/-- Read elements in turn. -/
def State.copyReads (s : State) (c : Copy) (quire : Nat) : List Nat → Except CopyStop (List Nat) × State
  | [] => (.ok [], s)
  | i :: is =>
    match s.copyRead c quire i with
    | (.ok v, t) =>
      match t.copyReads c quire is with
      | (.ok vs, u) => (.ok (v :: vs), u)
      | r => r
    | (.error x, t) => (.error x, t)

/-- Move a group of `.in`: read its elements, then write one word of the tile, with F where it is written in full (R255). -/
def State.copyIn (s : State) (c : Copy) (quire : Nat) (is : List Nat) : Option CopyStop × State :=
  match s.copyReads c quire is with
  | (.error x, t) => (some x, t)
  | (.ok vs, t) =>
    let n := fmtBytes c.fmt
    let full := c.fill && fillsWord (is.map fun i => (c.tileHome quire i, n))
    let word := c.tileHome quire (is.headD 0) / 8 * 8
    if !full && t.isBroken word 8 then (some (.ends 1), t.recordBroken word)
    else
      let t := (is.zip vs).foldl (fun t p => t.homeStore (c.tileHome quire p.1) (bytesOf n p.2)) t
      (none, if full then (t.mend word).fillStep word else t)

/-- Where element `i` of `.out` goes, once its bytes in the tile are found sound: a home, or none in a far package.
DESIGN CHOICE: log entry 47. -/
def State.copyTarget (s : State) (c : Copy) (quire i : Nat) (mends : Bool) : Except CopyStop (Option Nat) × State :=
  let va := c.folio.addr (c.coords i)
  let src := c.tileHome quire i
  if s.isBroken src (fmtBytes c.fmt) then (.error (.ends 1), s.recordBroken src)
  else match s.copyReach c quire va (fmtBytes c.folio.fmt) true mends with
    | (.ok (.home h), s) => (.ok (some h), s)
    | (.ok .beyond, s) => (.ok none, s)
    | (.error x, s) => (.error (copyStop va x), s)

/-- The targets of elements in turn; nothing is written. -/
def State.copyTargets (s : State) (c : Copy) (quire : Nat) (mends : Nat → Bool) :
    List Nat → Except CopyStop (List (Option Nat)) × State
  | [] => (.ok [], s)
  | i :: is =>
    match s.copyTarget c quire i (mends i) with
    | (.ok h, t) =>
      match t.copyTargets c quire mends is with
      | (.ok hs, u) => (.ok (h :: hs), u)
      | r => r
    | (.error x, t) => (.error x, t)

/-- Write element `i` for `.out` at its target. -/
def State.copyPut (s : State) (c : Copy) (quire i : Nat) (h : Option Nat) : State :=
  h.elim s fun h => s.homeStore h (bytesOf (fmtBytes c.folio.fmt) (storeConv c.fmt c.folio (s.readNat (c.tileHome quire i) (fmtBytes c.fmt))))

/-- Move a group of `.out`, all of it or none (R256, R261): padded elements are skipped, and a word written in full gets F. -/
def State.copyOut (s : State) (c : Copy) (quire : Nat) (is : List Nat) : Option CopyStop × State :=
  let f := c.folio
  let addr := fun (i : Nat) => f.addr (c.coords i)
  let js := is.filter fun i => !f.oob (c.coords i)
  let full := fun (i : Nat) =>
    c.fill && fillsWord ((js.filter fun j => addr j / 8 == addr i / 8).map fun j => (addr j, fmtBytes f.fmt))
  if js.length ≠ is.length ∧ f.pad = 0 then (some (.ends 3), s)
  else match s.copyTargets c quire full js with
    | (.error x, t) => (some x, t)
    | (.ok hs, t) =>
      let t := (js.zip hs).foldl (fun t p => t.copyPut c quire p.1 p.2) t
      let words := ((js.zip hs).filterMap fun p => if full p.1 then p.2.map (· / 8 * 8) else none).eraseDups
      (none, words.foldl (fun t h => (t.mend h).fillStep h) t)

/-- A running copy found by its number. -/
def State.findCopy (s : State) (quire no : Nat) : Option Copy := (s.quire quire).running.find? fun c => c.no == no

/-- Change the tiles of a copy. -/
def Quire.modTiles (q : Quire) (c : Copy) (f : Tile → Tile) : Quire :=
  (List.range c.tiles).foldl (fun q i => q.setTile (c.tile + i) (f (tileOf q (c.tile + i)))) q

/-- A copy completes, in error where `ecode` is not 0 (R255, R256). -/
def State.endCopy (s : State) (quire : Nat) (c : Copy) (ecode : Nat) : State :=
  let s := s.modQuire quire fun q =>
    ({ q with running := q.running.filter fun (x : Copy) => x.no != c.no }.modTiles c fun t =>
      { t with engine := false, inq := false, phase := !t.phase, err := ecode != 0, ecode := ecode })
  let s := s.wakeTiles quire
  ((s.perform c.acc).modQuire quire fun q => q.reap).wakeTiles quire

/-- Move the group of element `i` of copy `no`; answers whether the copy can go on. DESIGN CHOICE: log entry 47. -/
def State.copyStep (s : State) (quire no i : Nat) : Bool × State :=
  match s.findCopy quire no with
  | none => (false, s)
  | some c =>
    let is := c.group i
    let (r, t) := if c.out then s.copyOut c quire is else s.copyIn c quire is
    match r with
    | none =>
      let c' := { c with todo := c.todo.filter fun j => !is.contains j }
      let t := t.modQuire quire fun q =>
        { q with running := q.running.map fun (x : Copy) => if x.no = no then c' else x }.modTiles c fun t =>
          { t with done := t.done + is.length * fmtBytes c.fmt }
      (true, t)
    | some (.park isle k) =>
      let t := t.park isle k (.copy quire no) (!c.out) c.out
      (false, t.modQuire quire fun q =>
        { q with running := q.running.map fun (x : Copy) => if x.no = no then { x with held := true } else x })
    | some .wait => (false, t)
    | some (.ends e) => (false, t.endCopy quire c e)

/-- Move everything that is left, up to a stop. -/
def State.copyAll (quire no : Nat) : Nat → State → State
  | 0, s => s
  | n + 1, s =>
    match s.findCopy quire no with
    | none => s
    | some c =>
      match c.todo with
      | [] => s.endCopy quire c 0
      | i :: _ =>
        match s.copyStep quire no i with
        | (true, t) => State.copyAll quire no n t
        | (false, t) => t

/-- COPY_COMPLETE (R255, R256): of running copy `k` mod 4, `k` / 4 = 0 moves all that is left and completes it; otherwise the
group of the (`k` / 4 - 1)-th remaining element is moved and the copy goes on. DESIGN CHOICE: log entry 47. -/
def execCopyComplete (quire k : Nat) (s : State) : Host.Outcome State Fault Refusal :=
  .next (match (s.quire quire).running[k % 4]? with
    | some c =>
      if c.held then s
      else if k / 4 = 0 then State.copyAll quire c.no (c.todo.length + 1) s
      else match c.todo[k / 4 - 1]? with
        | some i => (s.copyStep quire c.no i).2
        | none => s
    | none => s)

/-- A reference moored in a tile that is cleared: as one that the free tile refuses (R248), since no W is left (R247).
DESIGN CHOICE: log entry 47. -/
def State.refuseMoor (s : State) (m : Moor) : State :=
  let write := decide (m.kind ≠ .ldf ∧ m.kind ≠ .park)
  let s := (s.perform m.acc).guardEvent m.slot m.gen m.home write false (spOff m.home)
  let ev := grecEvent write false (bankOf 0 (spOff m.home)) (spOff m.home)
  if m.kind = .park then (s.leafWaiting m.data.toNat none).modLeaf m.data.toNat fun l => { l with guardEv := some ev }
  else s.reply m.slot m.gen (.reg m.reg) 0

/-- TILE_ZEROING_END (R247): the words of the tile are 0 with F = 0 and W = 0, and the tile may be allocated again. -/
def execTileZeroingEnd (quire tile : Nat) (s : State) : Host.Outcome State Fault Refusal :=
  let lo := spHome quire (4096 * tile)
  let out := fun (a : Nat) => decide (a < lo) || decide (lo + 4096 ≤ a)
  .next (if (tileOf (s.quire quire) tile).zeroing then
    let s : State := { (s.mendTiles quire tile 1).modQuire quire fun q => q.setTile tile Tile.init with
      mem := s.mem.filter fun c => out c.1
      fulls := s.fulls.filter fun c => out (8 * c.1) }
    let here := s.moors.filter fun m => !out m.home
    (here.foldl State.refuseMoor { s with moors := s.moors.filter fun m => out m.home }).settleMoors
  else s)

end Sys2Proof.Machine
end

