-- ==== Sys2Proof/Machine/Link.lean ====
section
/-! DEFINITION. The fabric at this package: elements into buffers, frames, acknowledgements and replay, lanes, connection states,
routes and keys (R199 to R201, R212 to R216, R226 to R240). -/

namespace Sys2Proof.Machine

/-! ### Elements into buffers (R212, R214 to R216, R240) -/

/-- An element that has not been accepted fails as UNREACHABLE: it counts in the record, and a reduction counts no more (R184,
R240). -/
def State.dropElem (s : State) (e : ShElem) : State :=
  if !s.lives e.slot e.gen then s
  else
    let s := s.modSlot e.slot fun t => { t with queued := t.queued - 1, redcnt := if e.el.op = 0 then t.redcnt else t.redcnt - 1 }
    s.rfAdd e.slot e.gen e.va e.el.op stUnreachable

/-- An element is accepted into a buffer (R184). -/
def State.takeElem (s : State) (e : ShElem) : State := if e.el.op = 0 then s else s.redDown e.slot e.gen

/-- The bytes of `new` under its enables, those of `old` elsewhere. -/
def mergeBytes (be : BitVec 8) (old new : Word) : Word :=
  let m : Word := BitVec.ofNat 64 (((List.range 8).map fun i => if be.getLsbD i then 255 * 2 ^ (8 * i) else 0).sum)
  (new &&& m) ||| (old &&& ~~~m)

/-- Two operands of one integer reduction become one (R216): minimum and maximum, and the bitwise and wrapping operations, act at
the enabled width. -/
def combineRed (old new : Elem) : Elem :=
  match elemRun old, elemAtom old.op.toNat with
  | some (i, n), some op =>
    let x := old.value.toNat / 2 ^ (8 * i) % 2 ^ (8 * n)
    let y := new.value.toNat / 2 ^ (8 * i) % 2 ^ (8 * n)
    { old with value := BitVec.ofNat 64 (((atomNew op (widthOfBytes n) x y 0).getD x) * 2 ^ (8 * i)) }
  | _, _ => old

/-- The element that `new` and the earlier `old` become, where they combine (R216). -/
def combine (old new : Elem) : Option Elem :=
  if old.op = 0 ∧ new.op = 0 then some { old with be := old.be ||| new.be, value := mergeBytes new.be old.value new.value }
  else if old.op = new.op ∧ old.be = new.be ∧ old.op.toNat ≤ 8 ∧ 1 ≤ old.op.toNat then some (combineRed old new)
  else none

/-- Combine into the latest element of the slot to the same word, the list given newest first. -/
def joinElem (e : ShElem) : List ShElem → Option (List ShElem)
  | [] => none
  | x :: xs =>
    if x.slot = e.slot ∧ x.gen = e.gen ∧ x.el.off = e.el.off then
      (combine x.el e.el).map fun y => { x with el := y } :: xs
    else (joinElem e xs).map fun ys => x :: ys

/-- The OPEN buffer with the oldest first element (R214). -/
def oldestOpen : List GBuf → Option GBuf
  | [] => none
  | b :: bs =>
    match oldestOpen bs with
    | some c =>
      if b.st = .open_ ∧ (b.els.headD (c.els.headD default_)).at_ ≤ (c.els.headD default_).at_ then some b else some c
    | none => if b.st = .open_ then some b else none
where default_ : ShElem := { el := { op := 0, be := 0, off := 0, value := 0 }, slot := 0, gen := 0, va := 0, at_ := 0 }

/-- The slot of a thread that still lives counts an element less that is queued (R217). -/
def State.lessQueued (s : State) (e : ShElem) : State :=
  if s.lives e.slot e.gen then s.modSlot e.slot fun t => { t with queued := t.queued - 1 } else s

/-- An element enters a buffer of an isle: the OPEN one of its connection, combined or behind its elements, else a free one, of
which `free` says there is one for it (R214 to R216). -/
def State.intoBuf (s : State) (isle : Nat) (free : Bool) (e : ShElem) (dest job : Nat) : Option State :=
  let i := s.isle isle
  let mine := fun (b : GBuf) => b.st = .open_ && b.dest == dest && b.job == job
  let e' := { e with at_ := s.cyc }
  let put := fun (f : List GBuf → List GBuf) => s.modIsle isle fun i => { i with gbufs := f i.gbufs }
  match i.gbufs.find? mine with
  | some b =>
    some (match joinElem e' b.els.reverse with
      | some els => ((put (replaceFirst mine fun b => { b with els := els.reverse })).takeElem e).lessQueued e
      | none =>
        let s := (put (replaceFirst mine fun b => { b with els := b.els ++ [e'] })).takeElem e
        if 16 ≤ b.els.length + 1 then s.sealWhere isle mine else s)
  | none =>
    if free then some ((put fun l => l ++ [{ st := .open_, dest := dest, job := job, els := [e'] }]).takeElem e) else none

/-- The elements that evicted a buffer take the buffers of an isle that become FREE, in turn (R214). -/
def State.takeFreed (isle : Nat) : List (ShElem × Nat × Nat) → State → State
  | [], s => s.modIsle isle fun i => { i with gwait := [] }
  | (e, dest, job) :: w, s =>
    match s.intoBuf isle (decide ((s.isle isle).gbufs.length < gbufCap)) e dest job with
    | some t => State.takeFreed isle w t
    | none => s.modIsle isle fun i => { i with gwait := (e, dest, job) :: w }

/-- Buffers of the isles have become FREE. -/
def State.buffersFreed (s : State) : State :=
  s.isles.foldl (fun t e => if (t.isle e.1).gwait.isEmpty then t else State.takeFreed e.1 (t.isle e.1).gwait t) s

/-- An element arrives at the isle of its buffers: none while it must wait in the mesh (R214). With no free buffer it evicts one
and is promised the next that becomes FREE. -/
def State.gather (s : State) (isle : Nat) (e : ShElem) (dest job : Nat) : Option State :=
  let i := s.isle isle
  match s.intoBuf isle (decide (i.gbufs.length + i.gwait.length < gbufCap)) e dest job with
  | some t => some t
  | none => (oldestOpen i.gbufs).map fun b => (s.sealWhere isle fun c => c == b).modIsle isle fun i => { i with
      evictions := Nat.min (i.evictions + 1) (2 ^ 32 - 1), gwait := i.gwait ++ [(e, dest, job)] }

/-- GATHER_ELEMENT_ARRIVE (R212 to R216, R240): the `k`-th element; those of one slot to one package arrive in order. -/
def execGatherElementArrive (k : Nat) (s : State) : Host.Outcome State Fault Refusal :=
  .next (match s.elemsOut[k]? with
    | some (isle, e, dest, job) =>
      if s.elemsAhead (s.elemsOut.take k) e.slot e.gen dest job then s
      else
        let t : State := { s with elemsOut := lremove s.elemsOut k }
        if t.canReach dest job then (t.gather isle e dest job).getD s else t.dropElem e
    | none => s)

/-- GATHER_AGE_SEAL (R215): the `k`-th buffer of the isle. -/
def execGatherAgeSeal (isle k : Nat) (s : State) : Host.Outcome State Fault Refusal :=
  let i := s.isle isle
  .next (match i.gbufs[k]? with
    | some b =>
      match b.els with
      | e :: _ => if b.st = .open_ ∧ e.at_ + i.gage ≤ s.cyc then s.sealWhere isle fun c => c == b else s
      | [] => s
    | none => s)

/-! ### Event records (R233) -/

/-- Words 0 and 1 of a fabric record: kind, channel number, peer, job. -/
def fabricWord (kind ch peer job : Nat) : Word :=
  BitVec.ofNat 64 (kind * 2 ^ 56 + ch / 2 % 128 * 2 ^ 40 + ch % 2 * 2 ^ 39 + peer % 4096 * 2 ^ 20 + job % 2 ^ 16)

/-- The event record of a fabric event (R233). DEDUCED: log entry 42. -/
def State.fabricRecord (s : State) (kind ch peer job : Nat) (w1 w3 : Word) : State :=
  s.record { w0 := fabricWord kind ch peer job, w1 := w1, w2 := s.cycWord, w3 := w3 }

/-- The record of a new lane mask: it tells of the loss of light, and counts the frames replayed since (R233). With no loss the
event is the agreement. DEDUCED: log entry 42. -/
def State.laneRecord (s : State) (up lost : Bool) (ch : Nat) (w1 : Word) : State :=
  let (at_, n) := if lost then tget (0, 0) s.lossAt ch else (s.cyc, 0)
  s.record { w0 := fabricWord (if up then 1 else 2) ch 0 0, w1 := w1, w2 := BitVec.ofNat 64 at_, w3 := BitVec.ofNat 64 n }

/-! ### Connection states (R214, R234) -/

/-- A connection's state changes; its closed buffers follow (R214). -/
def State.setConnSt (s : State) (peer job : Nat) (st : ConnSt) : State :=
  let s := s.modConn peer job fun c => { c with st := st, since := s.cyc }
  let move := fun (b : GBuf) =>
    if b.st ≠ .open_ ∧ b.dest = peer ∧ b.job = job then { b with st := if st = .up then GSt.sealed_ else GSt.held } else b
  s.isles.foldl (fun t e => t.modIsle e.1 fun i => { i with gbufs := i.gbufs.map move }) s

/-- Enter HOLD where the connection is UP. -/
def State.holdConn (s : State) (c : Conn) : State := if c.used ∧ c.st = .up then s.setConnSt c.peer c.job .hold else s

/-- The connection's channel carries traffic; this package itself is always reached. -/
def State.pathUp (s : State) (peer : Nat) : Bool := peer == s.fpkg || s.channelUp (s.channel peer)

/-- The cause of a HOLD is gone: lanes are back and the sequence is not exhausted. -/
def State.resumeConn (s : State) (c : Conn) : State :=
  if c.used ∧ c.st ≠ .up ∧ c.exhausted = false ∧ s.pathUp c.peer then s.setConnSt c.peer c.job .up else s

/-- Epochs of a job's keys that are newer than a connection's. -/
def State.newerEpochs (s : State) (job epoch : Nat) : List Nat :=
  let l := s.epochsOf job
  if l.contains epoch then (l.dropWhile (· != epoch)).drop 1 else l

/-- A newer epoch is usable for sending (R237): installed here and advertised by the peer. -/
def State.usableEpoch (s : State) (c : Conn) : Option Nat :=
  (s.newerEpochs c.job c.epoch).find? fun e => c.peerAdv.contains e

/-- The key of a job's epoch. -/
def State.jobKey (s : State) (job epoch : Nat) : BitVec 256 :=
  ((s.keys.find? fun k => k.1 == job && k.2.1 == epoch).map fun k => k.2.2).getD 0

/-- The newest epoch held for a job, for `ep_adv`. DEDUCED: log entry 43. -/
def State.newestEpoch (s : State) (job : Nat) : Nat := (s.epochsOf job).getLastD 0

/-- An older epoch of a job goes once every connection of the job sends and receives under a newer one. DEDUCED: log entry 43. -/
def State.pruneKeys (s : State) (job : Nat) : State :=
  match s.epochsOf job with
  | e :: _ :: _ =>
    let busy := s.conns.any fun c => c.job == job && c.peer != s.fpkg && ((c.used && c.epoch == e) || c.rxEpoch == e)
    if busy then s else { s with keys := s.keys.filter fun k => !(k.1 == job && k.2.1 == e) }
  | _ => s

/-! ### Sending (R226, R229, R237, R238) -/

/-- Frames in the replay buffer of a strait's port. -/
def State.replayUsed (s : State) (strait : Nat) : Nat :=
  ((s.conns.filter fun c => c.peer != s.fpkg && s.channel c.peer / 2 == strait).map fun c =>
    (c.replay.filter fun f => !f.done).length).sum

/-- The acknowledgement fields that a frame of the connection carries. -/
def Conn.ackField (c : Conn) : Option Nat := if c.owesNak then some c.rxExpected else if c.rxExpected = 0 then none else some (c.rxExpected - 1)

/-- The last sequence of an epoch (R238). -/
def lastSeq : Nat := 2 ^ 48 - 2

/-- A framed packet's elements are sent and no longer queued, and its buffer is FREE (R214, R217). -/
def State.frameElems (s : State) (c : Conn) (els : List ShElem) : State :=
  let s := els.foldl (fun s e =>
    if s.lives e.slot e.gen then
      s.modSlot e.slot fun t => { t with queued := t.queued - 1, unacked := t.unacked + 1 }
    else s) s
  let mine := fun (b : GBuf) => b.st != .open_ && b.dest == c.peer && b.job == c.job && b.els == els
  match s.isles.find? fun e => e.2.gbufs.any mine with
  | some e => (s.modIsle e.1 fun i => { i with gbufs := removeFirst mine i.gbufs }).buffersFreed
  | none => s

/-! ### The words of a frame (R226, R227, R236) -/

/-- Flits that a packet takes: its header, and what follows it (R227). -/
def packetFlits : Packet → Nat
  | .gathered els => 1 + (els.length + 1) / 2
  | .request _ _ (.mcas ts) => 1 + (ts.length + 1) / 2
  | _ => 1

/-- The operand words of a request, in the order of its instruction. DESIGN CHOICE: log entry 41. -/
def remOperands : RemOp → List Word
  | .load _ => []
  | .atom op _ v c => if op = .cas then [v, c] else [v]
  | .mcas ts => ts.flatMap fun t => [BitVec.ofNat 64 t.1, t.2.1, t.2.2]
  | .enq node => [node]
  | .chase o _ => [o]
  | .probe _ _ _ _ => []

/-- Word 0 of a packet header: the kind, `n` and the return tag. -/
def headWord (kind n : Nat) (t : RetTag) : Word :=
  BitVec.ofNat 64 (kind * 2 ^ 58 + n % 32 * 2 ^ 53 + t.core % 1024 * 2 ^ 32 + t.slot % 256 * 2 ^ 24 + t.gen % 256 * 2 ^ 16
    + t.reg % 64 * 2 ^ 10)

/-- The two words of an element (R212). -/
def elemWords (e : Elem) : List Word := [e.op ++ e.be ++ 0#10 ++ e.off, e.value]

/-- Element statuses, 2 bits each. -/
def statusWord : List Nat → Nat
  | [] => 0
  | x :: xs => x % 4 + 4 * statusWord xs

/-- Words padded with zeros to whole flits of 32 bytes. -/
def toFlits (ws : List Word) : List Word := ws ++ List.replicate ((4 - ws.length % 4) % 4) 0

/-- The words of a packet: its header of 32 bytes, then what follows it (R227). The header says neither the width nor the
operation of a request; the three words of each MCAS target follow one another. DESIGN CHOICE: log entry 41. -/
def packetWords : Packet → List Word
  | .gathered els => headWord 0 els.length noTag :: 0 :: 0 :: 0 :: toFlits (els.flatMap elemWords)
  | .request t off (.mcas ts) =>
    headWord 5 (3 * ts.length) t :: BitVec.ofNat 64 off :: 0 :: 0 :: remOperands (.mcas ts)
  | .request t off op =>
    [headWord (remKind op) (remOperands op).length t, BitVec.ofNat 64 off, (remOperands op).getD 0 0, (remOperands op).getD 1 0]
  | .reply k t st v => [headWord k 1 t, BitVec.ofNat 64 (st % 4), v, 0]
  | .statuses sq ix sts =>
    [headWord 7 sts.length noTag, BitVec.ofNat 64 (sq % 2 ^ 48 * 2 ^ 16 + ix % 16), BitVec.ofNat 64 (statusWord sts), 0]
  | .reserved => [headWord 10 0 noTag, 0, 0, 0]

/-- A frame of a connection leaves: the words of flit 0, its payload and the key and nonce it is encrypted with (R226, R236). -/
def State.sendFrame (s : State) (c : Conn) (kind seq : Nat) (pkts : List Packet) : State :=
  let flits := 1 + (pkts.map packetFlits).sum
  let key := connKey (s.jobKey c.job c.epoch) s.fpkg c.peer c.job c.epoch
  let adv := s.newestEpoch c.job
  let bit := fun (b : Bool) (n : Nat) => if b then 2 ^ n else 0
  let w0 := c.peer % 4096 * 2 ^ 52 + s.fpkg % 4096 * 2 ^ 40 + c.job % 2 ^ 16 * 2 ^ 24 + (flits - 1) % 16 * 2 ^ 20 + kind * 2 ^ 16
  let w1 := seq % 2 ^ 48 * 2 ^ 16 + c.epoch % 256 * 2 ^ 8 + adv % 256
  let w2 := c.ackField.getD 0 % 2 ^ 48 * 2 ^ 16 + bit c.ackField.isSome 15 + bit c.echoDue 14 + bit c.owesNak 13
  { s with sentFrames := s.sentFrames ++ [{
      peer := c.peer, job := c.job, kind := kind, seq := seq, epoch := c.epoch, epAdv := adv, ack := c.ackField
      echo := c.echoDue, nak := c.owesNak, pkts := pkts, flit0 := [BitVec.ofNat 64 w0, BitVec.ofNat 64 w1, BitVec.ofNat 64 w2, 0]
      payload := pkts.flatMap packetWords, cipherKey := key.take 32, nonce := frameNonce key kind seq }] }

/-- The first queued packet of connection `c` leaves in a frame of its own. DESIGN CHOICE: log entry 41. -/
def State.frame (s : State) (c : Conn) (p : OutPkt) : State :=
  let own := c.peer == s.fpkg
  let f : OutFrame := { seq := c.nextSeq, epoch := c.epoch, pkts := [p], at_ := s.cyc, done := own }
  let s := s.frameElems c p.shadow
  let s := s.modConn c.peer c.job fun c => { c with
    queue := c.queue.drop 1, replay := sweep (c.replay ++ [f]), nextSeq := c.nextSeq + 1, owesAck := false, owesNak := false
    echoDue := false }
  if own then
    let isle := if p.shadow.isEmpty then isleOf (coreOf p.slot) else isleOf (coreOf ((p.shadow.map (·.slot)).headD 0))
    s.applyPacket [] c.peer c.job isle f.seq 0 p.pkt
  else
    let s := s.sendFrame c 0 c.nextSeq [p.pkt]
    if c.nextSeq = lastSeq ∧ s.usableEpoch c = none then
      let s := s.modConn c.peer c.job fun c => { c with exhausted := true }
      (s.fabricRecord 3 (s.channel c.peer) c.peer c.job 0 (BitVec.ofNat 64 lastSeq)).setConnSt c.peer c.job .hold
    else s

/-- A new data frame of a connection may leave. -/
def State.maySend (s : State) (c : Conn) : Bool :=
  c.peer == s.fpkg ||
    (c.used && decide (c.st = .up) && s.reachBit c.peer && (s.epochsOf c.job).contains c.epoch && s.channelUp (s.channel c.peer)
      && decide (s.replayUsed (s.channel c.peer / 2) < 2048) && decide (s.usableEpoch c = none) && decide (c.nextSeq ≤ lastSeq))

/-- FRAME_SEND (R229): the first queued packet of the `k`-th connection. DESIGN CHOICE: log entry 41. -/
def execFrameSend (k : Nat) (s : State) : Host.Outcome State Fault Refusal :=
  .next (match s.conns[k]? with
    | some c =>
      match c.queue with
      | p :: _ => if s.maySend c then s.frame c p else s
      | [] => s
    | none => s)

/-- ACK_FRAME_SEND (R226, R229, R236, R238): a kind-1 frame; the counter is incremented before it. The frame that brings the
counter to its end asks for a new key. -/
def execAckFrameSend (peer job : Nat) (s : State) : Host.Outcome State Fault Refusal :=
  .next (match s.conn? peer job with
    | some c =>
      if (c.owesAck || c.owesNak) && peer != s.fpkg && s.canReach peer job && s.channelUp (s.channel peer)
          && (s.epochsOf job).contains c.epoch && decide (c.ackCtr < 2 ^ 48 - 1) then
        let s := s.sendFrame c 1 (c.ackCtr + 1) []
        let s := s.modConn peer job fun c => { c with
          ackCtr := c.ackCtr + 1, owesAck := false, owesNak := false, echoDue := false }
        if c.ackCtr + 1 = 2 ^ 48 - 1 ∧ s.usableEpoch c = none then
          s.fabricRecord 3 (s.channel peer) peer job 0 (BitVec.ofNat 64 (c.nextSeq - 1))
        else s
      else s
    | none => s)

/-- Every unacknowledged frame is sent again, byte for byte as it was last sent (R229). -/
def State.resendAll (s : State) (c : Conn) : State :=
  let again := (c.replay.filter fun f => !f.done).filterMap fun f =>
    s.sentFrames.reverse.find? fun x => x.peer == c.peer && x.job == c.job && x.kind == 0 && x.seq == f.seq && x.epoch == f.epoch
  let touch := fun (f : OutFrame) => if f.done then f else { f with at_ := s.cyc }
  let ch := s.channel c.peer
  let (at_, n) := tget (0, 0) s.lossAt ch
  let lossAt := if tget 0 s.laneLoss ch = 0 then s.lossAt else tset (0, 0) s.lossAt ch (at_, n + again.length)
  { s with sentFrames := s.sentFrames ++ again, lossAt := lossAt }.modConn c.peer c.job fun c => { c with replay := c.replay.map touch }

/-- REPLAY_TIMEOUT (R229): 16,384 clk after the oldest frame was last sent. -/
def execReplayTimeout (peer job : Nat) (s : State) : Host.Outcome State Fault Refusal :=
  .next (match s.conn? peer job with
    | some c =>
      match c.replay.find? fun f => !f.done with
      | some f => if f.at_ + 16384 ≤ s.cyc ∧ s.pathUp peer then s.resendAll c else s
      | none => s
    | none => s)

/-! ### Receiving (R226, R228 to R230, R237) -/

/-- A frame whose tag fails is discarded whole, and none of its fields is used; 16 failures within 2^20 clk at the receiving port
raise an alarm (R228). -/
def State.tagFailure (s : State) (chan : Nat) : State :=
  let strait := chan / 2
  let recent := (tget [] s.tagFails strait).filter (fun t => s.cyc < t + 2 ^ 20) ++ [s.cyc]
  if 16 ≤ recent.length then
    { s with tagFails := tset [] s.tagFails strait [] }.fabricRecord 4 chan 0 0 0 0
  else { s with tagFails := tset [] s.tagFails strait recent }

/-- The rate falls on an echo, at most once per 4,096 clk (R230). -/
def Conn.onEcho (c : Conn) (now : Nat) : Conn :=
  let c := { c with sawEcho := true }
  if c.lastRate = 0 ∨ c.lastRate + 4096 ≤ now then { c with rate := Nat.max 4 (3 * c.rate / 4), lastRate := now } else c

/-- Use the word-2 fields of a verified frame (R229, R230, R237): an acknowledgement releases frames, a NAK has them sent
again. -/
def State.useAck (s : State) (f : Frame) : State :=
  let upd := fun (c : Conn) =>
    let c := { c with peerAdv := if c.peerAdv.contains f.epAdv then c.peerAdv else f.epAdv :: c.peerAdv }
    let c := if f.ackValid && !f.nak then
      { c with sawAck := true, replay := sweep (c.replay.map fun x => if x.seq ≤ f.ack ∧ x.epoch = c.epoch then { x with done := true } else x) }
      else c
    if f.echo then c.onEcho s.cyc else c
  let s := s.modConn f.src f.job upd
  if f.ackValid && f.nak && s.pathUp f.src then s.resendAll (s.conn f.src f.job) else s

/-- The tag of a frame verifies: a key of its job and epoch is held, and the peer has not left that epoch (R237). -/
def State.verifies (s : State) (f : Frame) : Bool :=
  let left := (s.conn? f.src f.job).any fun c => (s.newerEpochs f.job f.epoch).contains c.rxEpoch
  f.tagOk && (s.epochsOf f.job).contains f.epoch && !left

/-- The first data frame of a newer epoch (R237). -/
def State.enterEpoch (s : State) (f : Frame) : State :=
  if (s.conn f.src f.job).rxEpoch = f.epoch then s
  else (s.modConn f.src f.job fun c => { c with rxEpoch := f.epoch, rxExpected := 0 }).pruneKeys f.job

/-- DATA_FRAME_RECEIVE (R226 to R230): discarded, applied, a duplicate, or a gap. DESIGN CHOICE: log entry 41. -/
def execDataFrameReceive (f : Frame) (s : State) : Host.Outcome State Fault Refusal :=
  .next (
    if !s.verifies f then s.tagFailure f.chan
    else if f.src = s.fpkg || f.badHeader then s
    else
      let s := (s.useAck f).enterEpoch f
      let s := if 192 < f.occupied then s.modConn f.src f.job fun c => { c with echoDue := true } else s
      let c := s.conn f.src f.job
      if f.seq = c.rxExpected then
        let s := s.modConn f.src f.job fun c => { c with rxExpected := c.rxExpected + 1, owesAck := true }
        s.applyPackets f.late f.src f.job (s.egress f.src) f.seq 0 f.packets
      else if f.seq < c.rxExpected then s.modConn f.src f.job fun c => { c with owesAck := true }
      else if c.nakAt = 0 ∨ c.nakAt + 1024 ≤ s.cyc then
        s.modConn f.src f.job fun c => { c with owesNak := true, nakAt := s.cyc }
      else s)

/-- ACK_FRAME_RECEIVE (R226): only a greater counter under its epoch is accepted. -/
def execAckFrameReceive (f : Frame) (s : State) : Host.Outcome State Fault Refusal :=
  .next (
    if !s.verifies f then s.tagFailure f.chan
    else if f.src = s.fpkg || f.badHeader then s
    else
      let last := ((s.conn f.src f.job).rxAcks.lookup f.epoch).getD 0
      if f.seq ≤ last then s
      else
        let s := s.modConn f.src f.job fun c => { c with
          rxAcks := (f.epoch, f.seq) :: c.rxAcks.filter fun p => p.1 != f.epoch }
        s.useAck f)

/-- RATE_PERIOD_END (R230). -/
def execRatePeriodEnd (peer job : Nat) (s : State) : Host.Outcome State Fault Refusal :=
  .next (match s.conn? peer job with
    | some c =>
      if c.periodAt + 4096 ≤ s.cyc then
        s.modConn peer job fun c =>
          let up := c.sawAck && !c.sawEcho && decide (c.rate < 256)
          { c with
            rate := if up then c.rate + 1 else c.rate
            lastRate := if up then s.cyc else c.lastRate
            sawAck := false, sawEcho := false, periodAt := s.cyc }
      else s
    | none => s)

/-! ### Lanes (R231, R201) -/

def chanNo (strait : Nat) (chan : Bool) : Nat := 2 * strait + if chan then 1 else 0

/-- Lanes of a channel lose their light: the port stops using them at once (R231). DEDUCED: log entry 42. -/
def State.loseLight (s : State) (lost : BitVec 16) (ch : Nat) : State :=
  let was := tget 0 s.laneLoss ch
  { s with
    laneLoss := tset 0 s.laneLoss ch (was ||| lost)
    lossAt := if was = 0 then tset (0, 0) s.lossAt ch (s.cyc, 0) else s.lossAt }

/-- LANE_LIGHT_LOSS (R231). -/
def execLaneLightLoss (strait : Nat) (chan : Bool) (lost : BitVec 16) (s : State) : Host.Outcome State Fault Refusal :=
  .next (if strait < 128 then s.loseLight lost (chanNo strait chan) else s)

/-- The lanes of a channel that laser source `n` feeds: its wavelength group (R232). -/
def sourceLanes (n : Nat) : BitVec 16 := 0xF#16 <<< (4 * (n % 4))

/-- The channels that laser source `n` feeds: its channel of the 16 straits of two isles (R232). -/
def sourceChannels (n : Nat) : List Nat := (List.range 16).map fun i => chanNo (16 * (n / 8 % 8) + i) (n.testBit 2)

/-- Laser source `n` of 64 fails: each channel that it feeds loses the lanes of one group, and restripes by the agreement that follows
every loss of light (R231, R232). DEDUCED: log entry 42. -/
def State.sourceFails (s : State) (n : Nat) : State :=
  if n < 64 then (sourceChannels n).foldl (fun t ch => t.loseLight (sourceLanes n) ch) s else s

/-- Connections that leave by a channel. -/
def State.connsOf (s : State) (ch : Nat) : List Conn := s.conns.filter fun c => c.peer != s.fpkg && s.channel c.peer == ch

/-- The two ports agree a new mask: a restripe, or the channel is down and its connections HOLD (R231, R233).
DEDUCED: log entry 42. -/
def State.agreeLanes (s : State) (ch : Nat) (new : BitVec 16) : State :=
  let old := tget 0xFFFF s.lanes ch
  let lost := decide (tget 0 s.laneLoss ch ≠ 0)
  let s : State := { s with lanes := tset 0xFFFF s.lanes ch new, laneLoss := tset 0 s.laneLoss ch 0 }
  let up := s.channelUp ch
  let w1 : Word := BitVec.ofNat 64 (old.toNat * 2 ^ 32 + new.toNat * 2 ^ 16)
  let s := s.laneRecord up lost ch w1
  let s : State := { s with lossAt := tset (0, 0) s.lossAt ch (0, 0) }
  (s.connsOf ch).foldl (fun s c => if up then s.resumeConn c else s.holdConn c) s

/-- LANE_MASK_AGREED (R231). -/
def execLaneMaskAgreed (strait : Nat) (chan : Bool) (s : State) : Host.Outcome State Fault Refusal :=
  let ch := chanNo strait chan
  let lost := tget 0 s.laneLoss ch
  .next (if lost = 0 then s else s.agreeLanes ch (tget 0xFFFF s.lanes ch &&& ~~~lost))

/-- LANEREQ (R201, R231): the lanes that are lit are taken back, as the fabric manager asks now or has asked by a store of the
harbour. DEDUCED: log entry 42. -/
def execLanereq (v : Word) (lit : BitVec 16) (s : State) : Host.Outcome State Fault Refusal :=
  let ch := 2 * (v.toNat % 128) + v.toNat / 128 % 2
  let new := s.laneMask ch ||| lit
  let s : State := { s with laneReqs := s.laneReqs.filter fun r => r.toNat % 256 != v.toNat % 256 }
  .next (if new = tget 0xFFFF s.lanes ch then s else s.agreeLanes ch new)

/-- PATH_DOWN_TIMEOUT (R234). -/
def execPathDownTimeout (peer job : Nat) (s : State) : Host.Outcome State Fault Refusal :=
  .next (match s.conn? peer job with
    | some c =>
      if c.used ∧ c.st = .hold ∧ c.since + (s.isle (s.egress peer)).pdto ≤ s.cyc then
        (s.setConnSt peer job .down).fabricRecord 5 (s.channel peer) peer job 0 0
      else s
    | none => s)

/-- EPOCH_SWITCH (R237, R238): every frame of the old epoch is acknowledged. -/
def execEpochSwitch (peer job : Nat) (s : State) : Host.Outcome State Fault Refusal :=
  .next (match s.conn? peer job with
    | some c =>
      match s.usableEpoch c with
      | some e =>
        if c.replay.all (·.done) then
          let s := s.modConn peer job fun c => { c with epoch := e, nextSeq := 0, ackCtr := 0, exhausted := false }
          (s.resumeConn (s.conn peer job)).pruneKeys job
        else s
      | none => s
    | none => s)

/-! ### Closing (R239, R240) -/

/-- A queued or unacknowledged packet completes as UNREACHABLE. -/
def State.dropPkt (s : State) (framed : Bool) (p : OutPkt) : State :=
  if p.settled then s
  else match p.pkt with
    | .request _ _ (.probe _ _ _ _) => s.redDown p.slot p.gen
    | .request _ _ _ => s.replyFatal p.slot p.gen p.dst
    | _ => p.shadow.foldl (fun s e =>
        if s.lives e.slot e.gen then
          (s.modSlot e.slot fun t => if framed then { t with unacked := t.unacked - 1 } else { t with queued := t.queued - 1 }).rfAdd
            e.slot e.gen e.va e.el.op stUnreachable
        else s) s

/-- A connection closes: its queue and frames complete as UNREACHABLE. Its sequence numbers are kept as long as the job's keys
are (R238). -/
def State.closeConn (s : State) (c : Conn) : State :=
  let s := c.replay.foldl (fun s f => f.pkts.foldl (fun s p => s.dropPkt true p) s) s
  let s := c.queue.foldl (fun s p => s.dropPkt false p) s
  if s.hasKey c.job then s.modConn c.peer c.job fun c => { c with used := false, queue := [], replay := [] }
  else { s with conns := removeFirst (fun x => x.peer == c.peer && x.job == c.job) s.conns }

/-- What still stands for the connections that satisfy `q` (peer, job): OPEN buffers and elements on their way fail too. -/
def State.closeWhere (s : State) (q : Nat → Nat → Bool) : State :=
  let s := (s.conns.filter fun c => q c.peer c.job).foldl (fun s c => s.closeConn c) s
  let open_ := s.isles.flatMap fun e => e.2.gbufs.filter fun b => b.st = .open_ && q b.dest b.job
  let s := s.isles.foldl (fun t e => t.modIsle e.1 fun i => { i with gbufs := i.gbufs.filter fun b => !q b.dest b.job }) s
  let fail := fun (s : State) (e : ShElem) => (s.lessQueued e).rfAdd e.slot e.gen e.va e.el.op stUnreachable
  let s := open_.foldl (fun s b => b.els.foldl fail s) s
  let gone := (s.elemsOut.filter fun x => q x.2.2.1 x.2.2.2).map (·.2.1)
    ++ s.isles.flatMap fun e => (e.2.gwait.filter fun x => q x.2.1 x.2.2).map (·.1)
  let s : State := { s with elemsOut := s.elemsOut.filter fun x => !q x.2.2.1 x.2.2.2 }
  let s := s.isles.foldl (fun t e => t.modIsle e.1 fun i => { i with gwait := i.gwait.filter fun x => !q x.2.1 x.2.2 }) s
  (gone.foldl (fun s e => s.dropElem e) s).buffersFreed

/-- A connection of this package as sender is UP. -/
def State.anyUp (s : State) (q : Conn → Bool) : Bool := s.conns.any fun c => c.peer != s.fpkg && c.used && decide (c.st = .up) && q c

/-- Write a route entry (R199, R201): a connection whose channel now carries traffic goes on (R234), one that reaches no more closes
(R240). -/
def State.frouteWrite (s : State) (p : Nat) (v : BitVec 16) : State :=
  if s.anyUp fun c => c.peer == p then s
  else
    let t : State := { s with froute := tset 0 s.froute p (v.toNat / 128 * 128) }
    if v.getLsbD 15 then (t.conns.filter fun c => c.peer == p).foldl (fun t c => t.resumeConn c) t
    else if s.reachBit p && p != s.fpkg then t.closeWhere fun peer _ => peer == p
    else t

/-- FROUTE_WRITE (R201). -/
def execFrouteWrite (p : Nat) (v : BitVec 16) (s : State) : Host.Outcome State Fault Refusal :=
  .next (if p < 4096 then s.frouteWrite p v else s)

/-- Write FPKG (R201). -/
def State.fpkgWrite (s : State) (v : Word) : State :=
  if (s.anyUp fun _ => true) || !s.keys.isEmpty then s else { s with fpkg := v.toNat % 4096 }

/-- FPKG_WRITE (R201). -/
def execFpkgWrite (v : Word) (s : State) : Host.Outcome State Fault Refusal := .next (s.fpkgWrite v)

/-! ### Key commands (R201, R236, R239) -/

/-- The command block breaks its layout: reserved bits of word 0, or words that must be zero; `key` holds words 1 to 6. -/
def keyBad (w0 : Word) (key : List Word) : Bool :=
  decide (w0.toNat / 2 ^ 25 ≠ 0) || (key.drop 5).any (fun w => decide (w ≠ 0)) || (w0.getLsbD 24 && key.any fun w => decide (w ≠ 0))

def keyJob (w0 : Word) : Nat := w0.toNat % 2 ^ 16
def keyEpoch (w0 : Word) : Nat := w0.toNat / 2 ^ 16 % 256

/-- Install a job key: the status of R201. DESIGN CHOICE: log entry 74. -/
def State.keyLoad (s : State) (w0 : Word) (key : List Word) : Nat × State :=
  let job := keyJob w0
  let es := s.epochsOf job
  let jobs := (s.keys.map (·.1)).eraseDups
  if keyBad w0 key then (3, s)
  else match unwrapKey Config.fabricKey ((key.take 5).flatMap fun w => bytesOf 8 w.toNat) with
    | none => (1, s)
    | some k =>
      let has := es.contains (keyEpoch w0)
      if !has && (decide (2 ≤ es.length) || (es.isEmpty && decide (16 ≤ jobs.length))) then (2, s)
      else if has then
        (0, { s with keys := s.keys.map fun x => if x.1 = job ∧ x.2.1 = keyEpoch w0 then (job, keyEpoch w0, k) else x })
      else (0, { s with keys := s.keys ++ [(job, keyEpoch w0, k)] })

/-- Zeroise a job's keys: its connections close, and every strait port records kind 6 (R239). -/
def State.keyZeroise (s : State) (w0 : Word) (key : List Word) : Nat × State :=
  if keyBad w0 key then (3, s)
  else
    let job := keyJob w0
    let s : State := { s with keys := s.keys.filter fun k => k.1 != job }
    let s := s.closeWhere fun peer j => j == job && peer != s.fpkg
    (0, (List.range 128).foldl (fun s n => s.fabricRecord 6 (2 * n) 0 job 0 0) s)

/-- The operation bit of a key command. -/
def keyOp (w0 : Word) : Bool := w0.getLsbD 24

/-- A key command from start to status: journalled, performed, its status in word 7 (R201, R414). DEDUCED: log entry 43. -/
def State.keyCommand (s : State) (w0 : Word) (key : List Word) : State :=
  let s := s.journalAdd (if keyOp w0 then 9 else 8) (keyJob w0) 0
  let (st, s) := if keyOp w0 then s.keyZeroise w0 key else s.keyLoad w0 key
  let word : Word := BitVec.ofNat 64 (2 ^ 63 + st)
  let last := fun (j : List JEntry) => j.dropLast ++ (j.getLast?.map fun e => { e with status := word }).toList
  { s with keycmd := word, journal := last s.journal }

/-- KEYCMD_LOAD (R201): the operation bit of word 0 is clear. DEDUCED: log entry 43. -/
def execKeycmdLoad (w0 : Word) (key : List Word) (s : State) : Host.Outcome State Fault Refusal :=
  .next (if keyOp w0 then s else s.keyCommand w0 key)

/-- KEYCMD_ZEROISE (R201, R239): the operation bit of word 0 is set; words 1 to 5 are zero. DEDUCED: log entry 43. -/
def execKeycmdZeroise (w0 : Word) (s : State) : Host.Outcome State Fault Refusal :=
  .next (if keyOp w0 then s.keyCommand w0 (List.replicate 5 0) else s)

end Sys2Proof.Machine
end

