-- ==== Sys2Proof/Machine/System.lean ====
section
/-! DEFINITION. System registers, RTE, TRAP, CYC, TLBINV, ABORTSET and PGCMD at issue, and the writes of registers that have
acceptance rules of their own (R35, R83, R163, R171, R173, R174, R215, R370 to R378, R387, R391, R396, R398). -/

namespace Sys2Proof.Machine

/-! ### Registers with acceptance rules -/

/-- The base and capacity of the overflow area: ignored while the area holds an entry (R163). -/
def State.writeMoor (s : State) (isle : Nat) (lim : Bool) (v : Word) : State :=
  if s.moors.any fun m => m.isle == isle && m.area.isSome then s
  else s.modIsle isle fun i =>
    if lim then { i with moorlim := BitVec.ofNat 64 (Nat.min (v.toNat % 2 ^ 21) (2 ^ 20)) }
    else { i with moorbase := v &&& 0x0000FFFFFFFFF000#64 }

/-- Masks are linearly independent over GF(2); `basis` holds the reduced ones before them. -/
def independent : List Nat → List Nat → Bool
  | _, [] => true
  | basis, v :: vs =>
    let v := basis.foldl (fun v b => Nat.min v (v ^^^ b)) v
    decide (v ≠ 0) && independent (basis ++ [v]) vs

/-- Writing 1 to `lock` (R174). -/
def Isle.writeLock (i : Isle) : Isle :=
  if i.lock then i
  else if independent [] ((i.ixh ++ i.bxh).map (·.toNat)) then { i with lock := true } else { i with bad := true }

/-- A write of hash mask `k`: IXH0 to IXH3, then BXH0 to BXH8 (R173, R174). -/
def Isle.writeHash (i : Isle) (k : Nat) (v : Word) : Isle :=
  if i.lock then i
  else
    let v := v &&& 0x0000FFFFFFFFFF00#64
    if k < 4 then { i with ixh := i.ixh.set k v } else { i with bxh := i.bxh.set (k - 4) v }

/-- A number taken into a range. -/
def clampTo (lo hi n : Nat) : Nat := Nat.max lo (Nat.min n hi)

/-- ABLIM `limit` (R171). -/
def Isle.writeAblim (i : Isle) (v : Word) : Isle := { i with ablimit := clampTo 16 512 (v.extractLsb' 0 10).toNat }
/-- GAGE `age` (R215). -/
def Isle.writeGage (i : Isle) (v : Word) : Isle := { i with gage := clampTo 16 65536 (v.extractLsb' 0 17).toNat }
/-- FQBASE (R391). -/
def Isle.writeFqbase (i : Isle) (v : Word) : Isle :=
  if i.faults.isEmpty then { i with fqbase := v &&& 0x0000FFFFFFFFF000#64, fqnext := 0 } else i
/-- FQCTL (R391). -/
def Isle.writeFqctl (i : Isle) (v : Word) : Isle :=
  let i := { i with fqhirq := v.getLsbD 8 }
  if i.faults.isEmpty then { i with fqsize := Nat.min 8 (v.toNat % 16), fqnext := 0 } else i

/-- Invalidate every line of every code buffer of an isle (R35). -/
def State.dropCode (s : State) (isle : Nat) : State :=
  s.quires.foldl (fun s e => if e.1 / 12 = isle then s.modQuire e.1 fun q => { q with code := [] } else s) s

/-- MOORBASE_WRITE (R163). DEDUCED: log entry 53. -/
def execMoorbaseWrite (isle : Nat) (lim : Bool) (v : Word) (s : State) : Host.Outcome State Fault Refusal :=
  .next (if isle < 16 then s.writeMoor isle lim v else s)
/-- MEMCFG_LOCK (R174). DEDUCED: log entry 53. -/
def execMemcfgLock (isle : Nat) (s : State) : Host.Outcome State Fault Refusal :=
  .next (if isle < 16 then s.modIsle isle (·.writeLock) else s)
/-- HASH_MASK_WRITE (R174). DEDUCED: log entry 53. -/
def execHashMaskWrite (isle k : Nat) (v : Word) (s : State) : Host.Outcome State Fault Refusal :=
  .next (if isle < 16 ∧ k < 13 then s.modIsle isle (·.writeHash k v) else s)
/-- ABLIM_WRITE (R171). DEDUCED: log entry 53. -/
def execAblimWrite (isle : Nat) (v : Word) (s : State) : Host.Outcome State Fault Refusal :=
  .next (if isle < 16 then s.modIsle isle (·.writeAblim v) else s)
/-- GAGE_WRITE (R215). DEDUCED: log entry 53. -/
def execGageWrite (isle : Nat) (v : Word) (s : State) : Host.Outcome State Fault Refusal :=
  .next (if isle < 16 then s.modIsle isle (·.writeGage v) else s)
/-- FQBASE_WRITE (R391). DEDUCED: log entry 53. -/
def execFqbaseWrite (isle : Nat) (v : Word) (s : State) : Host.Outcome State Fault Refusal :=
  .next (if isle < 16 then s.modIsle isle (·.writeFqbase v) else s)
/-- FQCTL_WRITE (R391). DEDUCED: log entry 53. -/
def execFqctlWrite (isle : Nat) (v : Word) (s : State) : Host.Outcome State Fault Refusal :=
  .next (if isle < 16 then s.modIsle isle (·.writeFqctl v) else s)
/-- WSTATE_WRITE (R83). DEDUCED: log entry 53. -/
def execWstateWrite (slot : Nat) (v : Word) (s : State) : Host.Outcome State Fault Refusal :=
  .next (if (s.slot slot).st = .free then s else s.modSlot slot fun t => { t with wstate := wstateWrite t.wstate v })
/-- CBINV (R35). DEDUCED: log entry 53. -/
def execCbinv (isle : Nat) (s : State) : Host.Outcome State Fault Refusal := .next (s.dropCode isle)

/-! ### MFS and MTS (R372 to R376) -/

/-- Registers that R372 marks "—" at task level. DEDUCED: log entry 35. -/
def sysPriv (r : Nat) : Bool :=
  decide (r = 0x002) || decide (r = 0x080) || decide (r = 0x081) || decide (0x084 ≤ r ∧ r ≤ 0x090)
    || decide (0x094 ≤ r ∧ r ≤ 0x096)

/-- A flag as a bit of a word. -/
def bit (b : Bool) (n : Nat) : Nat := if b then 2 ^ n else 0

/-- TSINFO (R375). -/
def tsinfo (t : TaskSet) (tsid : Nat) : Word :=
  BitVec.ofNat 64 (bit t.service 55 + t.prio % 4 * 2 ^ 53 + t.depth % 32 * 2 ^ 48 + t.space % 2 ^ 16 * 2 ^ 32
    + t.job % 2 ^ 16 * 2 ^ 16 + tsid % 2 ^ 16)

/-- MEMCFG (R174). -/
def Isle.memcfg (i : Isle) : Word :=
  BitVec.ofNat 64 (i.deadIsles.toNat * 2 ^ 16 + bit i.nospread 2 + bit i.bad 1 + bit i.lock 0)
/-- FQCTL (R391). -/
def Isle.fqctl (i : Isle) : Word := BitVec.ofNat 64 (i.fqnext % 2 ^ 16 * 2 ^ 16 + bit i.fqhirq 8 + i.fqsize % 16)

/-- The value of a system register for the issuing slot (R372). -/
def State.sysRead (s : State) (r : Nat) : Word :=
  let t := s.me
  let set := s.slotSet s.cur
  let core := s.core (coreOf s.cur)
  let i := s.isle (isleOf (coreOf s.cur))
  let table : List (Nat × Word) := [
    (0x000, s.zid.setWidth 64),
    (0x001, BitVec.ofNat 64 s.fpkg),
    (0x002, s.sptbase),
    (0x010, t.wstate),
    (0x011, t.spillp),
    (0x012, t.waitlim),
    (0x013, t.deadmode),
    (0x014, t.wrec),
    (0x015, t.grec),
    (0x016, t.tctl),
    (0x017, BitVec.ofNat 64 t.redcnt),
    (0x018, set.tsvec),
    (0x019, tsinfo set (t.tsid.getD 0)),
    (0x020, t.epc),
    (0x021, t.ecause),
    (0x022, t.eval),
    (0x023, t.estat),
    (0x024, t.tsave.getD 0 0),
    (0x025, t.tsave.getD 1 0),
    (0x026, t.tsave.getD 2 0),
    (0x027, t.tsave.getD 3 0),
    (0x040, BitVec.ofNat 64 (bit core.excluded 1 + bit core.strayDeliver 0)),
    (0x080, i.moorbase),
    (0x081, i.moorlim),
    (0x082, BitVec.ofNat 64 (i.cap * 2 ^ 16 + i.ablimit)),
    (0x083, i.memcfg),
    (0x091, BitVec.ofNat 64 i.gage),
    (0x092, BitVec.ofNat 64 i.pdto),
    (0x093, BitVec.ofNat 64 (4096 - i.pool.length)),
    (0x094, i.fqbase),
    (0x095, i.fqctl)]
  match table.lookup r with
  | some v => v
  | none => if 0x084 ≤ r ∧ r ≤ 0x087 then i.ixh.getD (r - 0x084) 0
    else if 0x088 ≤ r ∧ r ≤ 0x090 then i.bxh.getD (r - 0x088) 0 else 0

/-- MFS (R374). -/
def execMfs (g : Guard) (d : Dst) (r : BitVec 12) (s : State) : Host.Outcome State Fault Refusal :=
  s.issue g do
    if sysPriv r.toNat then s.needService 0x1A0 r.toNat else pure ()
    let t ← s.put d (s.sysRead r.toNat)
    pure t.advance

/-- A write of a register of slot or set scope (R372). -/
def State.writeSlotReg (s : State) (r : Nat) (v : Word) : State :=
  let set := fun (f : Slot → Slot) => s.modSlot s.cur f
  match r with
  | 0x010 => set fun t => { t with wstate := wstateWrite t.wstate v }
  | 0x011 => set fun t => { t with spillp := v }
  | 0x012 => set fun t => { t with waitlim := v &&& 0xFFFFFFFF#64 }
  | 0x013 => set fun t => { t with deadmode := v &&& 1#64 }
  | 0x014 => set fun t => { t with wrec := v }
  | 0x015 => set fun t => { t with grec := v &&& 0x0000FFFF0FFFFFFF#64 }
  | 0x016 => set fun t => { t with tctl := v &&& 1#64 }
  | 0x018 => match s.me.tsid with
    | some k => s.modSet k fun t => { t with tsvec := v }
    | none => s
  | 0x020 => set fun t => { t with epc := v }
  | 0x021 => set fun t => { t with ecause := v &&& 0x3F#64 }
  | 0x022 => set fun t => { t with eval := v }
  | 0x024 => set fun t => { t with tsave := t.tsave.set 0 v }
  | 0x025 => set fun t => { t with tsave := t.tsave.set 1 v }
  | 0x026 => set fun t => { t with tsave := t.tsave.set 2 v }
  | 0x027 => set fun t => { t with tsave := t.tsave.set 3 v }
  | _ => s

/-- A write of a register of core, isle or package scope (R372). -/
def State.writeUnitReg (s : State) (r : Nat) (v : Word) : State :=
  let core := coreOf s.cur
  let isle := isleOf core
  match r with
  | 0x002 => { s with sptbase := v &&& 0x0000FFFFFFFFF000#64 }
  | 0x040 => s.modCore core fun c => { c with strayDeliver := v.getLsbD 0 }
  | 0x080 => s.writeMoor isle false v
  | 0x081 => s.writeMoor isle true v
  | 0x082 => s.modIsle isle (·.writeAblim v)
  | 0x083 => if v.getLsbD 0 then s.modIsle isle (·.writeLock) else s
  | 0x091 => s.modIsle isle (·.writeGage v)
  | 0x092 => s.modIsle isle fun i => { i with pdto := v.toNat % 2 ^ 32 }
  | 0x094 => s.modIsle isle (·.writeFqbase v)
  | 0x095 => s.modIsle isle (·.writeFqctl v)
  | 0x096 => if v.getLsbD 0 then s.dropCode isle else s
  | _ => if 0x084 ≤ r ∧ r ≤ 0x090 then s.modIsle isle (·.writeHash (r - 0x084) v) else s

/-- The local stores that the slot has issued are performed (R35, R387, R394). -/
def State.storesDone (s : State) : Res Unit :=
  if (s.accsIn s.cur setS).isEmpty then .ok () else .error (.wait .other)

/-- MTS (R374). DEDUCED: log entry 53. -/
def execMts (g : Guard) (a : Src) (r : BitVec 12) (s : State) : Host.Outcome State Fault Refusal :=
  s.issue g do
    if sysPriv r.toNat then s.needService 0x1A1 r.toNat else pure ()
    let (x, rd) ← readX 0 a s.rd
    if r = 0x096 ∧ x.getLsbD 0 then s.storesDone else pure ()
    let t := rd.s.killXs [a]
    let t := if r.toNat < 0x040 ∧ r ≠ 0x002 then t.writeSlotReg r.toNat x
      else if (t.slotSet t.cur).service then t.writeUnitReg r.toNat x else t
    pure t.advance

/-! ### RTE, TRAP, CYC (R378) -/

/-- RTE (R378). -/
def execRte (g : Guard) (s : State) : Host.Outcome State Fault Refusal :=
  s.issue g do
    if !s.me.inh then pure s.advance
    else if pcOk s.me.epc then pure (s.returnTrap s.cur)
    else .error (.trap 2 s.me.epc)

/-- TRAP (R378). -/
def execTrap (g : Guard) (code : BitVec 16) (s : State) : Host.Outcome State Fault Refusal :=
  s.issue g do
    pure (s.takeTrap s.cur false 24 (code.setWidth 64) (nextPc s.me.pc))

/-- CYC (R378). -/
def execCyc (g : Guard) (d : Dst) (s : State) : Host.Outcome State Fault Refusal := s.op0 g d s.cycWord

/-! ### TLBINV (R387) -/

/-- Remove the translations that satisfy `q` from every TLB of the package. -/
def State.dropTlbs (s : State) (q : TlbEntry → Bool) : State :=
  let s := s.cores.foldl (fun s e => s.modCore e.1 fun c => { c with tlb := c.tlb.filter fun t => !q t }) s
  s.isles.foldl (fun s e => s.modIsle e.1 fun i => { i with tlb := i.tlb.filter fun t => !q t }) s

/-- TLBINV .page (R387). -/
def execTlbinvPage (g : Guard) (sp va : Src) (s : State) : Host.Outcome State Fault Refusal :=
  s.issue g do
    s.needService 0x1A5 0
    let (x, r) ← readX 0 sp s.rd
    let (y, r) ← readX 1 va r
    s.storesDone
    pure ((r.s.killXs [sp, va]).dropTlbs fun t => t.covers (x.toNat % 2 ^ 16) y.toNat).advance
/-- TLBINV .space (R387). -/
def execTlbinvSpace (g : Guard) (sp : Src) (s : State) : Host.Outcome State Fault Refusal :=
  s.issue g do
    s.needService 0x1A5 0
    let (x, r) ← readX 0 sp s.rd
    s.storesDone
    pure ((r.s.killXs [sp]).dropTlbs fun t => t.space == x.toNat % 2 ^ 16).advance
/-- TLBINV .all (R387). -/
def execTlbinvAll (g : Guard) (s : State) : Host.Outcome State Fault Refusal :=
  s.issue g do
    s.needService 0x1A5 0
    s.storesDone
    pure (s.dropTlbs fun _ => true).advance

/-! ### ABORTSET and PGCMD (R396, R398) -/

/-- Terminate a set for one of its launchers or for the harbour; `me` is the issuing set, if a thread issues (R396).
DEDUCED: log entry 35. -/
def State.abortSet (s : State) (me : Option Nat) (tsid : Nat) (status : Word) : Word × State :=
  let t := s.tset_ tsid
  let above := match me with
    | some m => m == tsid || (s.ancestors 24 m).contains tsid
    | none => false
  if !s.hasSet tsid then (1, s)
  else if t.st == .terminating || t.st == .stopping || t.preempt.isSome then (2, s)
  else if above then (3, s)
  else (0, s.endSet tsid status)

/-- ABORTSET (R396). -/
def execAbortset (g : Guard) (d : Dst) (t e : Src) (s : State) : Host.Outcome State Fault Refusal :=
  s.issue g do
    s.needService 0x1A7 0
    let (x, r) ← readX 0 t s.rd
    let (y, r) ← readX 1 e r
    let u := r.s.killXs [t, e]
    let j := xIndex u.me.wstate d.toNat
    let u ← u.emptyXj j
    let (st, v) := u.abortSet u.me.tsid (x.toNat % 2 ^ 16) y
    pure (v.reply v.cur v.me.gen (.reg j) st).advance

/-- PGCMD (R398): the record is read at its home like a load; the slot waits while 64 commands are queued. -/
def execPgcmd (g : Guard) (d : Dst) (a : Src) (s : State) : Host.Outcome State Fault Refusal :=
  s.issue g do
    s.needService 0x1A9 0
    let (va, r) ← readX 0 a s.rd
    s.holdFor setG
    addrCheck va 64 true
    if 64 ≤ s.pgq.length then .error (.wait .other) else pure ()
    let t := r.s.killXs [a]
    let j := xIndex t.me.wstate d.toNat
    let t ← t.emptyXj j
    let t ← t.sendRef setG va (.reg j) (.record .pgcmd 64) false
    pure t.advance

end Sys2Proof.Machine
end

