-- ==== Sys2Proof/Machine/Serve.lean ====
section
/-! DEFINITION. Serving faults: walks and code fetches that end, the fault ring, REPLAY and FATAL (R34, R35, R386 to R395). -/

namespace Sys2Proof.Machine

/-! ### Walks (R386, R388) -/

/-- WALK_COMPLETE (R386, R388): the `k`-th walk asked for. It ends at once where the isle's TLB or a live fault entry covers the
page; a fault waits for a free entry. -/
def execWalkComplete (k : Nat) (s : State) : Host.Outcome State Fault Refusal :=
  .next (match s.walks[k]? with
    | some w =>
      let core := coreOf w.slot
      let isle := isleOf core
      let t : State := { s with walks := lremove s.walks k }
      match tlbFind (s.isle isle).tlb w.space w.va with
      | some e => t.fillTlbs core e
      | none =>
        match (s.isle isle).findFault w.space (pageOf w.va) with
        | some _ => t
        | none =>
          match s.walk w.space w.va with
          | .leaf e => t.fillTlbs core e
          | r =>
            let who := whoOf ((s.slot w.slot).tsid.getD 0) w.slot w.gen
            match t.openFault isle w.space (BitVec.ofNat 64 w.va) r.failed.1 0 who with
            | some (_, u) => u.recordWalk r.failed.2
            | none => s
    | none => s)

/-! ### Code lines (R34, R35) -/

/-- The bytes of a line at its home. -/
def State.lineBytes (s : State) (home : Nat) : BitVec 512 := BitVec.ofNat 512 (s.readNat home 64)

/-- A line of 64 bytes holds a word with an uncorrectable error. -/
def State.lineBroken (s : State) (home : Nat) : Bool := (List.range 8).any fun i => s.isBroken (home + 8 * i) 8

/-- Word 2 of a ring entry for a fetch. -/
def State.fetchWho (s : State) (f : CodeFill) : Word := whoOf ((s.slot f.slot).tsid.getD 0) f.slot f.gen

/-- CODE_LINE_FILL (R35): the `k`-th fetch. A page that denies the read gives the access trap. -/
def execCodeLineFill (k : Nat) (s : State) : Host.Outcome State Fault Refusal :=
  .next (match s.codeFills[k]? with
    | some f =>
      let core := coreOf f.slot
      let isle := isleOf core
      let line := pcLine f.pc
      let t : State := { s with codeFills := lremove s.codeFills k }
      let stop := fun (t : State) (c : Nat) => { t with codeFills := t.codeFills ++ [{ f with ended := some c }] }
      if f.ended.isSome then s
      else if !s.lives f.slot f.gen then t
      else if ((s.quire (quireOf core)).lineAt f.space line).isSome then t
      else match t.engineReach (some core) isle (quireOf core) f.space line true false 0 (s.fetchWho f) with
        | (.home h _, t) =>
          if t.lineBroken h then stop (t.recordBroken h) 25
          else t.modQuire (quireOf core) fun q =>
            q.placeLine { space := f.space, line := line, bytes := t.lineBytes h, bad := false, again := [] }
        | (.deny, t) => stop t 13
        | (.fault i n, t) => t.park i n (.fetch f) true false
        | (_, t) => { t with codeFills := t.codeFills ++ [f] }
    | none => s)

/-- Where a line is read again, with no fault opened. -/
def State.lineHome (s : State) (quire space line : Nat) : Option Nat :=
  let isle := quire / 12
  let tlbs := (s.isle isle).tlb ++ (s.cores.filter fun c => isleOf c.1 == isle).flatMap fun c => c.2.tlb
  match tlbFind tlbs space line with
  | some e => some (e.pa + (line - e.va))
  | none =>
    match s.walk space line with
    | .leaf e => if e.r then some (e.pa + (line - e.va)) else none
    | _ => none

/-- CODE_REFETCH (R34): the `k`-th line of the quire, whose check failed, is read again once; the instructions that would now be
issued are checked, by the pair bit of the new line. A line that can no longer be translated leaves the buffer. -/
def execCodeRefetch (quire k : Nat) (s : State) : Host.Outcome State Fault Refusal :=
  .next (match (s.quire quire).code[k]? with
    | some l =>
      if l.again.isEmpty then s
      else match s.lineHome quire l.space l.line with
        | none => s.modQuire quire fun q => { q with code := lremove q.code k }
        | some h =>
          let m := { l with bytes := s.lineBytes h, again := [] }
          let ok := m.passes (m.issued (l.again.headD 0)) && !s.lineBroken h
          s.modQuire quire fun q => q.modLine l.space l.line fun _ => { m with bad := !ok }
    | none => s)

/-! ### Release and failure (R394, R395) -/

/-- What an entry released goes on: a fetch, a copy, a matrix command or a remote access. -/
def State.goOn (s : State) (p : Parked) : State :=
  match p with
  | .ref r => s.releaseRef r
  | .fetch f => { s with codeFills := s.codeFills ++ [f] }
  | .copy q no => s.modQuire q fun q => { q with running := q.running.map fun (c : Copy) => if c.no = no then { c with held := false } else c }
  | .mx core loader => s.modCore core fun c => if loader then { c with loaderHeld := false } else { c with arrayHeld := false }
  | .remote a => s.runRemote a

/-- A copy or a matrix command ends with an error of R256 or R318. -/
def State.endEngine (s : State) (p : Parked) (code : Nat) : State :=
  match p with
  | .copy q no => match s.findCopy q no with
    | some c => s.endCopy q c code
    | none => s
  | .mx core true => match (s.core core).loader with
    | some r => (s.loaderEnd core r code).modCore core fun c => { c with loaderHeld := false }
    | none => s
  | .mx core false => match (s.core core).array with
    | some r => (s.arrayEnd core r r.shadow code).modCore core fun c => { c with arrayHeld := false }
    | none => s
  | _ => s

/-- One parked reference ends FATAL (R395). -/
def State.failParked (s : State) (p : Parked) : State :=
  match p with
  | .ref r => s.failRef false r
  | .fetch f => { s with codeFills := s.codeFills ++ [{ f with ended := some 25 }] }
  | .remote a => s.endRemote a stTranslation 0
  | p => s.endEngine p 1

/-- The page denies what was released: it ends as by FATAL, a copy and a matrix command with their own errors (R394), a remote
access with the status of R207. -/
def State.denyParked (s : State) (p : Parked) : State :=
  match p with
  | .copy _ _ => s.endEngine p 2
  | .mx _ _ => s.endEngine p 2
  | .remote a => s.endRemote a stRights 0
  | p => s.failParked p

/-- Who translates again: the core whose TLB is used, the quire, the origin and word 2 of a ring entry (R386, R393). -/
structure Again where
  core : Option Nat
  quire : Nat
  origin : Nat
  who : Word

/-- Word 2 of a ring entry for a matrix command. -/
def mxWho (m : MxCmd) : Word :=
  match m.src with
  | .own k g => whoOf m.tsid k g
  | .sent k g _ => whoOf m.tsid k g

def State.againOf (s : State) (isle : Nat) (p : Parked) : Again :=
  match p with
  | .ref r => ⟨some (coreOf r.slot), quireOf (coreOf r.slot), 0, whoOf r.tsid r.slot r.gen⟩
  | .fetch f => ⟨some (coreOf f.slot), quireOf (coreOf f.slot), 0, s.fetchWho f⟩
  | .copy q no =>
    match s.findCopy q no with
    | some c => ⟨some (coreOf c.slot), q, 1, whoOf (tileOf (s.quire q) c.tile).tsid c.slot c.gen⟩
    | none => ⟨none, q, 1, 0⟩
  | .mx core loader =>
    ⟨some core, quireOf core, 1, ((if loader then (s.core core).loader else (s.core core).array).map fun r => mxWho r.cmd).getD 0⟩
  | .remote a => ⟨none, 12 * isle, 2, remoteWho a⟩

/-- Release one item of an entry `f`: it translates again from a walk, and goes on, parks again or ends (R394). -/
def State.releaseParked (s : State) (isle : Nat) (f : FaultEnt) (p : ParkedOn) : State :=
  match p.what with
  | .ref r => s.releaseRef r
  | w =>
    let g := s.againOf isle w
    let (needR, needW) := (p.acc.getLsbD 0, p.acc.getLsbD 1)
    match s.walkReach g.core isle g.quire f.space (f.page * 65536 + f.va.toNat % 65536) needR needW g.origin g.who with
    | (.fault i n, t) => t.park i n w needR needW
    | (.deny, t) => t.denyParked w
    | (.dead, t) => t.failParked w
    | (_, t) => t.goOn w

/-- Serve an entry: it becomes FREE, and its references are released or end, in parking order; answers their number (R394).
DEDUCED: log entry 45. -/
def State.serveFault (s : State) (isle idx : Nat) (fatal : Bool) : Nat × State :=
  let f := s.fault isle idx
  let s := s.setFault isle idx FaultEnt.init
  let s := f.parked.foldl (fun s p => if fatal then s.failParked p.what else s.releaseParked isle f p) s
  (f.parked.length, s.retryRemote isle)

/-- The entry that a handle names, if it is QUEUED under the handle's sequence (R394). DEDUCED: log entry 45. -/
def State.handleEntry (s : State) (h : Word) : Option (Nat × Nat) :=
  let isle := h.toNat / 256 % 16
  let idx := h.toNat % 256
  let f := s.fault isle idx
  if f.queued ∧ f.seq = h.toNat / 2 ^ 16 % 2 ^ 16 then some (isle, idx) else none

/-- The answer to a handle that names no QUEUED entry. -/
def staleHandle : Word := 0x8000000000000001#64

/-- REPLAY and FATAL (R394). -/
def State.serveOp (s : State) (g : Guard) (d : Dst) (h : Src) (opcode : Nat) (fatal : Bool) : Host.Outcome State Fault Refusal :=
  s.issue g do
    s.needService opcode 0
    let (x, r) ← readX 0 h s.rd
    let t := r.s.killXs [h]
    match t.handleEntry x with
    | none =>
      let t ← t.replyNow d staleHandle
      pure t.advance
    | some (isle, idx) =>
      s.storesDone
      let j := xIndex t.me.wstate d.toNat
      let t ← t.emptyXj j
      let (n, t) := t.serveFault isle idx fatal
      pure (t.reply s.cur s.me.gen (.reg j) (BitVec.ofNat 64 n)).advance

/-- REPLAY (R394). -/
def execReplay (g : Guard) (d : Dst) (h : Src) (s : State) : Host.Outcome State Fault Refusal := s.serveOp g d h 0x1A6 false
/-- FATAL (R394, R395). -/
def execFatal (g : Guard) (d : Dst) (h : Src) (s : State) : Host.Outcome State Fault Refusal := s.serveOp g d h 0x1A8 true

/-! ### The fault ring (R391 to R393) -/

/-- The OPEN entry that opened first. -/
def firstOpen : List (Nat × FaultEnt) → Option (Nat × FaultEnt)
  | [] => none
  | e :: es =>
    match firstOpen es with
    | some f => if !e.2.queued && decide (e.2.no ≤ f.2.no) then some e else some f
    | none => if e.2.queued then none else some e

/-- Whether a parked reference reads or writes, at the moment (R393). -/
def FaultEnt.acc (f : FaultEnt) : BitVec 2 := (f.parked.map (·.acc)).foldl (· ||| ·) 0

/-- Word 0 of a ring entry (R393). -/
def ringWord (seq isle idx : Nat) (f : FaultEnt) : Word :=
  BitVec.ofNat 64 (seq % 2 ^ 16 * 2 ^ 48 + isle % 16 * 2 ^ 44 + idx % 256 * 2 ^ 32 + f.space % 2 ^ 16 * 2 ^ 16
    + (if f.bad then 2 ^ 12 else 0) + f.origin % 4 * 2 ^ 10 + f.acc.toNat * 2 ^ 8 + Nat.min f.parked.length 255)

/-- A word of the ring is written, with F and its list served (R158). DEDUCED: log entry 45. -/
def State.ringPut (s : State) (a : Nat) (w : Word) : State := ((s.homeWord a w).mend a).fillStep a

/-- The isle's STEF of a ring entry is still moored. -/
def State.ringMoored (s : State) (isle : Nat) : Bool := s.moors.any fun m => m.slot == noSlot + isle

/-- The isle writes an empty word of the ring with STEF semantics (R392): it acts, or joins the tail of the word's list (R159, R452);
one that meets an uncorrectable error fails (R417). DEDUCED: log entry 45. -/
def State.ringStef (s : State) (isle a : Nat) (w : Word) : State :=
  if s.isBroken a 8 then s.recordBroken a
  else s.moorOrAct {
    isle := isle, home := a, va := 0, kind := .stef, slot := noSlot + isle, gen := 0, reg := 0, num := 0, acc := 2 ^ 64
    data := w, deadline := 0, area := none }

/-- Word 0 of a ring entry is written: the entry is QUEUED (R392). -/
def State.ringQueue (s : State) (isle idx a : Nat) : State :=
  let i := s.isle isle
  let s := s.ringPut a (ringWord i.fseq isle idx (s.fault isle idx))
  let s := s.setFault isle idx { s.fault isle idx with queued := true, seq := i.fseq % 2 ^ 16 }
  let s := s.modIsle isle fun i => { i with
    fqnext := (i.fqnext + 1) % 2 ^ (4 + i.fqsize), fqstep := 0, fseq := (i.fseq + 1) % 2 ^ 16 }
  if i.fqhirq then { s with hirqs := s.hirqs + 1 } else s

/-- The isle writes its ring entry at `a` as far as it can: words 1, 2 and 3 in turn, each after the one before it is written and once
its word is empty, then word 0 (R392). -/
def State.ringGo (isle idx a : Nat) : Nat → State → State
  | 0, s => s
  | n + 1, s =>
    let k := (s.isle isle).fqstep
    let f := s.fault isle idx
    if s.ringMoored isle then s
    else if 3 ≤ k then s.ringQueue isle idx a
    else if !s.fBit (a + 8 * (k + 1)) && s.moorRoom isle then
      let w := [f.va &&& 0x00FFFFFFFFFFFFFF#64, f.who, f.cyc].getD k 0
      State.ringGo isle idx a n ((s.ringStef isle (a + 8 * (k + 1)) w).modIsle isle fun i => { i with fqstep := k + 1 })
    else s

/-- FAULT_RING_WRITE (R388, R391 to R393). With no ring the entry ends as by FATAL. DEDUCED: log entry 45.
DESIGN CHOICE: log entry 66. -/
def execFaultRingWrite (isle : Nat) (s : State) : Host.Outcome State Fault Refusal :=
  let i := s.isle isle
  .next (match firstOpen i.faults with
    | none => s
    | some (idx, _) =>
      if 16 ≤ isle then s
      else if i.fqbase = 0 then (s.serveFault isle idx true).2
      else State.ringGo isle idx ((i.fqbase.toNat + 32 * i.fqnext) % 2 ^ 48) 4 s)

end Sys2Proof.Machine
end

