-- ==== Sys2Proof/Machine/Paging.lean ====
section
/-! DEFINITION. The page engine (R398 to R403): page records, transfers to and from flash and peers, completion. -/

namespace Sys2Proof.Machine

def pageBytes : Nat := 65536
def blockBytes : Nat := 4096

/-! ### Whole ranges of memory -/

/-- `n` bytes from `a` of a sparse table of bytes. -/
def tabBytes (t : Tab Byte) (a : Nat) : Nat → List Byte
  | 0 => []
  | n + 1 => tget 0 t a :: tabBytes t (a + 1) n

/-- The bytes of a page, those that were read earlier as they stood then (R340). -/
def bytesSeen (seen : List (Nat × Byte)) (a : Nat) (bs : List Byte) : List Byte :=
  if seen.isEmpty then bs else (bs.zip (List.range bs.length)).map fun p => (seen.lookup (a + p.2)).getD p.1

/-- The entries that a run of values from `a` makes in a table with default `d`. -/
def tabRun {α : Type} [DecidableEq α] (d : α) (a : Nat) : List α → Tab α
  | [] => []
  | v :: vs => if v = d then tabRun d (a + 1) vs else (a, v) :: tabRun d (a + 1) vs

/-- A table with the values from `a` on replaced by `vs`. -/
def tabPut {α : Type} [DecidableEq α] (d : α) (t : Tab α) (a : Nat) (vs : List α) : Tab α :=
  (t.filter fun e => e.1 < a) ++ tabRun d a vs ++ t.filter fun e => a + vs.length ≤ e.1

/-- Write whole words of DRAM from a home on: data and F together, so errors are cleared (R417); the lists of the words are then
served (R401). -/
def State.putPage (s : State) (home : Nat) (bytes : List Byte) (fs : List Bool) : State :=
  let t : State := { s with
    mem := tabPut 0 s.mem home bytes
    fulls := tabPut false s.fulls (home / 8) fs
    broken := tabPut false s.broken (home / 8) (fs.map fun _ => false)
    resv := s.resv.filter fun e => !(decide (home ≤ e.2.word) && decide (e.2.word < home + bytes.length)) }
  let homes := (s.moors.filter fun m => decide (home ≤ m.home) && decide (m.home < home + bytes.length)).map fun m => m.home / 8 * 8
  homes.eraseDups.foldl (fun s h => s.serve h) t

/-! ### Page records (R399) -/

/-- The header map: bit j of the F bits in bit j mod 8 of byte ⌊j / 8⌋. -/
def mapBytes : List Bool → List Byte
  | a :: b :: c :: d :: e :: f :: g :: h :: fs =>
    BitVec.ofNat 8 ([a, b, c, d, e, f, g, h].foldr (fun x n => 2 * n + if x then 1 else 0) 0) :: mapBytes fs
  | _ => []

def mapBits (bs : List Byte) : List Bool := bs.flatMap fun b => (List.range 8).map fun i => b.getLsbD i

/-- Blocks of a payload. -/
def payloadBlocks (len : Nat) : Nat := ceilDiv len blockBytes

/-- A page record: header block and padded payload. -/
def pageRecord (fs : List Bool) (xform : Nat) (payload : List Byte) : List Byte :=
  mapBytes fs ++ bytesOf 4 0x5A504752 ++ bytesOf 4 xform ++ bytesOf 4 payload.length ++ bytesOf 4 (crc32c payload)
    ++ List.replicate (blockBytes - 1040) 0 ++ payload ++ List.replicate (payloadBlocks payload.length * blockBytes - payload.length) 0

/-- What an out command writes for a page under a transform (R399). The compressor's block is used when it expands to the page. -/
def encodePage (xform : Nat) (fs : List Bool) (page : List Byte) : List Byte :=
  if xform = 1 then
    let b := Config.lz4Block page
    if b.length ≤ pageBytes ∧ lz4Expand b = some page then pageRecord fs 1 b else pageRecord fs 0 page
  else if xform = 2 then pageRecord fs 2 (kvPack page)
  else pageRecord fs 0 page

/-- A field of a header. -/
def headerNat (h : List Byte) (a n : Nat) : Nat := natOfBytes ((h.drop a).take n)

/-- The payload's length, where magic, transform and length of a header are good. -/
def headerLen (h : List Byte) : Option Nat :=
  let x := headerNat h 1028 1
  let len := headerNat h 1032 4
  if headerNat h 1024 4 ≠ 0x5A504752 then none
  else if x = 0 ∧ len = pageBytes ∨ x = 1 ∧ len ≤ pageBytes ∨ x = 2 ∧ len = 33792 then some len else none

/-- The page that a payload holds. -/
def decodePayload (x : Nat) (payload : List Byte) : Option (List Byte) :=
  if x = 0 then some payload
  else if x = 2 then some (kvUnpack payload)
  else match lz4Expand payload with
    | some p => if p.length = pageBytes then some p else none
    | none => none

/-! ### Command records (R398) -/

def PgCmd.w (p : PgCmd) (i : Nat) : Nat := (p.rec_.getD i 0).toNat
def PgCmd.op (p : PgCmd) : Nat := p.w 0 % 16
def PgCmd.xform (p : PgCmd) : Nat := p.w 0 / 16 % 16
def PgCmd.isIn (p : PgCmd) : Bool := p.op == 0 || p.op == 2
def PgCmd.isPeer (p : PgCmd) : Bool := decide (2 ≤ p.op)
def PgCmd.pages (p : PgCmd) : Nat := p.w 2 / pageBytes

/-- The record is bad (R398). -/
def PgCmd.bad (p : PgCmd) : Bool :=
  decide (p.w 0 / 2 ^ 10 ≠ 0) || decide (4 ≤ p.op) || decide (3 ≤ p.xform) || (p.isIn && decide (p.xform ≠ 0))
    || decide (p.w 1 % pageBytes ≠ 0) || decide (p.w 2 % pageBytes ≠ 0) || decide (p.w 2 < pageBytes) || decide (2 ^ 30 < p.w 2)
    || decide (2 ^ 55 < p.w 1 + p.w 2) || (decide (p.w 1 < spBase + spSize) && decide (spBase < p.w 1 + p.w 2))
    || (p.isPeer && (decide (p.w 3 % blockBytes ≠ 0) || !isGlobal (p.rec_.getD 3 0) || !topOk (p.rec_.getD 3 0)))
    || decide (p.w 4 / 2 ^ 32 ≠ 0) || (p.isPeer && decide (p.w 4 ≠ 0)) || decide (p.w 5 % 8 ≠ 0) || decide (2 ^ 55 ≤ p.w 5)
    || decide (p.w 7 ≠ 0)

/-- The status word (R402). -/
def pgStatus (blocks detail page code : Nat) : Word :=
  BitVec.ofNat 64 (blocks % 2 ^ 32 * 2 ^ 32 + detail % 2 ^ 16 * 2 ^ 16 + page % 256 * 2 ^ 8 + code)

/-! ### The far side -/

/-- How a command stops: a code with its detail, or a wait for a page of a window of this package. -/
inductive PgStop where
  | code (c detail : Nat)
  | wait
deriving DecidableEq, Repr

/-- Byte address of a block of a namespace in flash. -/
def flashAt (nsid lba : Nat) : Nat := nsid * 2 ^ 80 + lba * blockBytes

/-- Where a block of a window of this package lies; a page that faults is waited for (R200, R207). -/
def State.windowBlock (s : State) (job off : Nat) (write : Bool) : Except PgStop Nat × State :=
  match s.lookup job off blockBytes (some (if write then 1 else 0)) with
  | .error st => (.error (.code 4 st), s)
  | .ok h =>
    let w := s.window h
    match s.engineReach none (s.faultIsle 0) 0 w.space (w.va off) (!write) write 2 (BitVec.ofNat 64 (s.fpkg * 2 ^ 16 + job)) with
    | (.home a _, t) => (.ok a, t)
    | (.deny, t) => (.error (.code 4 stRights), t)
    | (_, t) => (.error .wait, t)

/-- What a far block is: bytes of flash, of a home of this package, or of a far package. -/
inductive FarBlock where
  | flash (a : Nat)
  | home (a : Nat)
  | beyond
deriving DecidableEq, Repr

/-- Reach block number `b` of a command's far side. -/
def State.farBlock (s : State) (p : PgCmd) (b : Nat) (write : Bool) : Except PgStop FarBlock × State :=
  if !p.isPeer then (.ok (.flash (flashAt (p.w 4) (p.w 3 + b))), s)
  else
    let va := BitVec.ofNat 64 (p.w 3)
    let job := (s.tset_ p.tsid).job
    if destOf va ≠ s.fpkg then (if s.canReach (destOf va) job then .ok .beyond else .error (.code 4 stUnreachable), s)
    else match s.windowBlock job (offOf va + b * blockBytes) write with
      | (.ok a, t) => (.ok (.home a), t)
      | (.error x, t) => (.error x, t)

/-- Read a block; a far package's bytes are free. -/
def State.readBlock (s : State) (p : PgCmd) (b : Nat) : Except PgStop (List Byte) × State :=
  match s.farBlock p b false with
  | (.ok (.flash a), t) => (.ok (tabBytes t.flash a blockBytes), t)
  | (.ok (.home a), t) =>
    if t.isBroken a blockBytes then (.error (.code 4 stTranslation), t.recordBroken a)
    else (.ok (tabBytes t.mem a blockBytes), t)
  | (.ok .beyond, t) =>
    (.ok ((List.range 512).flatMap fun i => bytesOf 8 (Config.freeWord (t.draws + i)).toNat), { t with draws := t.draws + 512 })
  | (.error x, t) => (.error x, t)

/-- Read blocks in turn; a stop names the block at which it comes. -/
def State.readBlocks (s : State) (p : PgCmd) : Nat → Nat → Except (Nat × PgStop) (List Byte) × State
  | _, 0 => (.ok [], s)
  | b, n + 1 =>
    match s.readBlock p b with
    | (.ok bs, t) =>
      match t.readBlocks p (b + 1) n with
      | (.ok cs, u) => (.ok (bs ++ cs), u)
      | r => r
    | (.error x, t) => (.error (b, x), t)

/-- Write a block: of flash, of a window of this package as other writes do (R417), or of a far package.
DESIGN CHOICE: log entry 48. -/
def State.writeBlock (s : State) (p : PgCmd) (b : Nat) (bs : List Byte) : Option PgStop × State :=
  match s.farBlock p b true with
  | (.ok (.flash a), t) => (none, { t with flash := tabPut 0 t.flash a bs })
  | (.ok (.home a), t) =>
    if t.isBroken a blockBytes then (some (.code 4 stTranslation), t.recordBroken a)
    else (none, { t.unreserve a blockBytes with mem := tabPut 0 t.mem a bs })
  | (.ok .beyond, t) => (none, { t with sentBlocks := t.sentBlocks ++ [(BitVec.ofNat 64 (p.w 3 + b * blockBytes), bs)] })
  | (.error x, t) => (some x, t)

/-- Write the blocks of a record in turn; a stop names the block at which it comes. -/
def State.writeBlocks (s : State) (p : PgCmd) : Nat → Nat → List Byte → Option (Nat × PgStop) × State
  | _, 0, _ => (none, s)
  | b, n + 1, bs =>
    match s.writeBlock p b (bs.take blockBytes) with
    | (none, t) => t.writeBlocks p (b + 1) n (bs.drop blockBytes)
    | (some x, t) => (some (b, x), t)

/-! ### One page -/

/-- The home of a page of the DRAM range, in the issuing set's space (R398). -/
def State.pgPage (s : State) (p : PgCmd) (i : Nat) : Option Nat × State :=
  let va := p.w 1 + i * pageBytes
  match s.walk p.space va with
  | .leaf e => (if denies e (!p.isIn) p.isIn then none else some (e.pa + (va - e.va)), s)
  | r => (none, s.recordWalk r.failed.2)

/-- How a page went: blocks moved and the state, or a stop with the blocks moved before it. -/
inductive PgPage where
  | done (blocks : Nat)
  | stop (blocks : Nat) (x : PgStop)
deriving DecidableEq, Repr

/-- The `k`-th command, an outbound one, reads a byte before its completion (R340). DESIGN CHOICE: log entry 48. -/
def State.pageReads (s : State) (k home : Nat) : State :=
  match s.pgq[k]? with
  | some p => if p.isIn then s else { s with pgq := s.pgq.set k { p with seen := s.seeByte p.seen home } }
  | none => s

/-- Out: read a page of DRAM and write its record. DESIGN CHOICE: log entry 48. -/
def State.pageOut (s : State) (p : PgCmd) (b home : Nat) : PgPage × State :=
  if (List.range 8192).any fun i => s.isBroken (home + 8 * i) 8 then (.stop 0 (.code 2 0), s.recordBroken home)
  else
    let fs := (List.range 8192).map fun i => s.fBit (home + 8 * i)
    let r := encodePage p.xform fs (bytesSeen p.seen home (tabBytes s.mem home pageBytes))
    match s.writeBlocks p b (r.length / blockBytes) r with
    | (none, t) => (.done (r.length / blockBytes), t)
    | (some (at_, x), t) => (.stop (at_ - b) x, t)

/-- F bits of a page that comes in: those of the header map, or all 1 with `fill` (R401). -/
def pageFs (fill : Bool) (map : List Bool) : List Bool := if fill then List.replicate 8192 true else map

/-- In: read a record and write the page with its F bits. DESIGN CHOICE: log entry 48. -/
def State.pageIn (s : State) (p : PgCmd) (fill : Bool) (b home : Nat) : PgPage × State :=
  match s.readBlocks p b 1 with
  | (.error (_, x), t) => (.stop 0 x, t)
  | (.ok h, t) =>
    match headerLen h with
    | none => (.stop 1 (.code 5 0), t)
    | some len =>
      let n := payloadBlocks len
      match t.readBlocks p (b + 1) n with
      | (.error (at_, x), u) => (.stop (at_ - b) x, u)
      | (.ok bs, u) =>
        let payload := bs.take len
        match (if crc32c payload = headerNat h 1036 4 then decodePayload (headerNat h 1028 1) payload else none) with
        | none => (.stop (1 + n) (.code 5 0), u)
        | some page => (.done (1 + n), u.putPage home page (pageFs fill (mapBits (h.take 1024))))

/-- In from a far package: the page is free, and its record may be found bad. -/
def State.pageFar (s : State) (fill : Bool) (home : Nat) : PgPage × State :=
  let t : State := { s with draws := s.draws + 10000 }
  let n := 2 + (Config.freeWord (s.draws + 9999)).toNat % 16
  if Config.freeBool (s.draws + 9998) then (.stop n (.code 5 0), t)
  else
    let bytes := (List.range 8192).flatMap fun i => bytesOf 8 (Config.freeWord (s.draws + i)).toNat
    (.done n, t.putPage home bytes (pageFs fill ((List.range 8192).map fun i => Config.freeBool (s.draws + i))))

/-- The page at which the far side fails, with its code and detail. -/
def farStop (p : PgCmd) (i : Nat) : FarEnd → Option PgStop
  | .nvme n st => if n = i ∧ !p.isPeer then some (.code 3 st) else none
  | .peer n st => if n = i ∧ p.isPeer then some (.code 4 st) else none
  | .ok => none

/-- The far side of a command is another package. -/
def State.isBeyond (s : State) (p : PgCmd) : Bool := p.isPeer && decide (destOf (BitVec.ofNat 64 (p.w 3)) ≠ s.fpkg)

/-- Page `i` of a command, its record at block `b`. DESIGN CHOICE: log entry 48. -/
def State.pgOne (s : State) (p : PgCmd) (far : FarEnd) (fill : Bool) (i b : Nat) : PgPage × State :=
  match s.pgPage p i with
  | (none, t) => (.stop 0 (.code 2 0), t)
  | (some home, t) =>
    match farStop p i far with
    | some x => (.stop 0 x, t)
    | none =>
      if !p.isIn then t.pageOut p b home
      else if t.isBeyond p then
        if t.canReach (destOf (BitVec.ofNat 64 (p.w 3))) (t.tset_ p.tsid).job then t.pageFar fill home else (.stop 0 (.code 4 stUnreachable), t)
      else t.pageIn p fill b home

/-- The pages from `i` on, `n` of them; answers the status, or none where the command waits. DESIGN CHOICE: log entry 48. -/
def State.pgPages (s : State) (p : PgCmd) (far : FarEnd) (fill : Bool) : Nat → Nat → Nat → Option Word × State
  | _, b, 0 => (some (pgStatus b 0 0 0), s)
  | i, b, n + 1 =>
    match s.pgOne p far fill i b with
    | (.done k, t) => t.pgPages p far fill (i + 1) (b + k) n
    | (.stop k (.code c d), t) => (some (pgStatus (b + k) d (if 2 ≤ c then i else 0) c), t)
    | (.stop _ .wait, t) => (none, t)

/-! ### Completion (R401) -/

/-- All pages of a command: `fill` applies only where every page is good (R401, R402). -/
def State.pgMove (s : State) (p : PgCmd) (far : FarEnd) : Option Word × State :=
  match s.pgPages p far false 0 0 p.pages with
  | (some v, t) =>
    (some v, if v.toNat % 256 = 0 ∧ p.isIn ∧ (p.rec_.getD 0 0).getLsbD 8 then (s.pgPages p far true 0 0 p.pages).2 else t)
  | r => r

/-- The completion word, written as STF writes; a page that is not there is left (R401). -/
def State.pgWord (s : State) (p : PgCmd) (v : Word) : State :=
  if p.w 5 = 0 then s
  else match s.walk p.space (p.w 5) with
    | .leaf e => if e.w then s.ringPut (e.pa + (p.w 5 - e.va)) v else s
    | r => s.recordWalk r.failed.2

/-- The command ends with a status. -/
def State.pgEnd (s : State) (p : PgCmd) (v : Word) : State :=
  let good := decide (v.toNat % 256 = 0)
  let s := if good && (p.rec_.getD 0 0).getLsbD 9 then
      match s.handleEntry (p.rec_.getD 6 0) with
      | some (isle, idx) => (s.serveFault isle idx false).2
      | none => s
    else s
  ((s.pgWord p v).perform p.acc).reply p.slot p.gen p.dst v

/-- PAGE_COMMAND_COMPLETE (R399 to R402): the `k`-th command. DESIGN CHOICE: log entry 48. -/
def execPageCommandComplete (k : Nat) (far : FarEnd) (s : State) : Host.Outcome State Fault Refusal :=
  .next (match s.pgq[k]? with
    | some p =>
      let t : State := { s with pgq := lremove s.pgq k }
      if p.bad then t.pgEnd p (pgStatus 0 0 0 1)
      else match t.pgMove p far with
        | (some v, u) => u.pgEnd p v
        | (none, u) => { s with isles := u.isles, serial := u.serial, draws := u.draws }
    | none => s)

end Sys2Proof.Machine
end

