-- ==== Sys2Proof/Machine/Vector.lean ====
section
/-! DEFINITION. Vector instructions: leases, loads and stores through folios, lane operators, recorded steps, reductions,
conversions (R130, R263 to R291). -/

namespace Sys2Proof.Machine

/-! ### Leases (R263 to R265) -/

/-- The lowest lease of a core that no slot holds. DEDUCED: log entry 31. -/
def Core.freeLease (c : Core) : Option Nat := leastFrom (fun i => !c.leases.contains i) 16 0

/-- It is the slot's turn at its core's leases: it is the first in waiting order, or none waits. A slot that has taken a trap in
place of its VLEASE waits no more (R380). DEDUCED: log entry 31. -/
def State.leaseTurn (s : State) (k : Nat) : Bool :=
  match (s.core (coreOf k)).leaseWait.filter fun h => (s.slot h).leaseDue with
  | [] => true
  | h :: _ => h == k

/-- The slot takes lease `l`; its registers are as `v` gives them. DEDUCED: log entry 31. -/
def State.takeLease (s : State) (k l : Nat) (v : List VCell) : State :=
  let s := s.modCore (coreOf k) fun c => { c with leases := l :: c.leases, leaseWait := c.leaseWait.filter (· ≠ k) }
  s.modSlot k fun t => { t with lease := some l, v := v }

/-- The slot waits for a lease, behind those that wait already. DEDUCED: log entry 31. -/
def State.queueLease (s : State) (k : Nat) : State :=
  if (s.core (coreOf k)).leaseWait.contains k && (s.slot k).leaseDue then s
  else (s.modCore (coreOf k) fun c => { c with leaseWait := c.leaseWait.filter (· ≠ k) ++ [k] }).modSlot k fun t => { t with leaseDue := true }

/-- VLEASE (R263). -/
def execVlease (g : Guard) (d : Dst) (try_ : Bool) (s : State) : Host.Outcome State Fault Refusal :=
  s.issue g do
    let c := s.core (coreOf s.cur)
    if s.me.lease.isSome then do
      let t ← s.put d 0x8000000000000002#64
      pure t.advance
    else match (if s.leaseTurn s.cur then c.freeLease else none) with
      | some l => do
        let fresh := s.modSlot s.cur fun t => { t with vdirty := 0xFFFF#16 }
        let t ← (fresh.takeLease s.cur l (List.replicate 16 .dead)).put d (BitVec.ofNat 64 l)
        pure t.advance
      | none =>
        if try_ then do
          let t ← s.put d 0x8000000000000001#64
          pure t.advance
        else .error (.waitWith (s.queueLease s.cur) .other)

/-- A register of the lease holds VREL back: EMPTY with `reply`, CATCH or held (R264). -/
def Slot.leaseBusy (t : Slot) : Bool :=
  (List.range 16).any fun n => hasReply (t.vCell n) || (match t.vCell n with
    | .catching _ _ => true
    | _ => false) || t.held n

/-- VREL (R264). -/
def execVrel (g : Guard) (s : State) : Host.Outcome State Fault Refusal :=
  s.issue g do
    match s.me.lease with
    | none => pure s.advance
    | some l =>
      if s.me.leaseBusy then .error (.wait .other)
      else
        let t := (List.range 16).foldl (fun t n => t.killReg t.cur (86 + n)) s
        let t := t.modCore (coreOf t.cur) fun c => { c with leases := c.leases.filter (· ≠ l) }
        pure (t.modSlot t.cur fun u => { u with lease := none }).advance

/-! ### Operands -/

/-- The v numbers that killing source fields name, `k` registers each. -/
def vKills (k : Nat) (srcs : List Src) : List Nat :=
  (srcs.filter (·.kill)).flatMap fun a => (List.range k).map (vNum a.reg + ·)

/-- Read the `k` registers of a group through one source field (R267). A trap value names the pending register itself, not the
group's first, which the field names (R147). DESIGN CHOICE: log entry 65. -/
def readVs (field : Nat) (trap : Bool) (n : Nat) : Nat → Rd → Res (List (BitVec 4096) × Rd)
  | 0, r => .ok ([], r)
  | k + 1, r => do
    let (v, r) ← readV field trap n r
    let (vs, r) ← readVs field trap (n + 1) k r
    pure (v :: vs, r)

/-- Write consecutive registers from `n` on. -/
def State.writeVs (s : State) (n : Nat) : List (BitVec 4096) → Res State
  | [] => .ok s
  | v :: vs => do
    let t ← s.writeV n v
    t.writeVs (n + 1) vs

/-- One v source, a v result. -/
def State.v1 (s : State) (g : Guard) (d : Dst) (a : Src) (f : BitVec 4096 → BitVec 4096) :
    Host.Outcome State Fault Refusal :=
  s.issue g do
    s.needLease d
    let (x, r) ← readV 0 a.trap (vNum a.reg) s.rd
    let t ← r.s.killVs (vKills 1 [a])
    let t ← t.writeV (vNum d) (f x)
    pure t.advance

/-- Two v sources, a v result. -/
def State.v2 (s : State) (g : Guard) (d : Dst) (a b : Src) (f : BitVec 4096 → BitVec 4096 → BitVec 4096) :
    Host.Outcome State Fault Refusal :=
  s.issue g do
    s.needLease d
    let (x, r) ← readV 0 a.trap (vNum a.reg) s.rd
    let (y, r) ← readV 1 b.trap (vNum b.reg) r
    let t ← r.s.killVs (vKills 1 [a, b])
    let t ← t.writeV (vNum d) (f x y)
    pure t.advance

/-- Three v sources, a v result. -/
def State.v3 (s : State) (g : Guard) (d : Dst) (a b c : Src)
    (f : BitVec 4096 → BitVec 4096 → BitVec 4096 → BitVec 4096) : Host.Outcome State Fault Refusal :=
  s.issue g do
    s.needLease d
    let (x, r) ← readV 0 a.trap (vNum a.reg) s.rd
    let (y, r) ← readV 1 b.trap (vNum b.reg) r
    let (z, r) ← readV 2 c.trap (vNum c.reg) r
    let t ← r.s.killVs (vKills 1 [a, b, c])
    let t ← t.writeV (vNum d) (f x y z)
    pure t.advance

/-- Apply an operator lane by lane. -/
def map1 (w : Nat) (f : Nat → Nat) (a : BitVec 4096) : BitVec 4096 := vecOf w fun i => f (laneOf w a i)
def map2 (w : Nat) (f : Nat → Nat → Nat) (a b : BitVec 4096) : BitVec 4096 :=
  vecOf w fun i => f (laneOf w a i) (laneOf w b i)
def map3 (w : Nat) (f : Nat → Nat → Nat → Nat) (a b c : BitVec 4096) : BitVec 4096 :=
  vecOf w fun i => f (laneOf w a i) (laneOf w b i) (laneOf w c i)

/-! ### Recorded steps (R130) -/

/-- A pending v operand of a block-mode source: its v number, its identifier, its steps (R123, R130, R137). -/
def State.vPend (s : State) (src : Src) : Option (Nat × Option Nat × List VStep) :=
  if src.trap then none
  else match s.me.vCell (vNum src.reg) with
    | .empty m => some (vNum src.reg, m.cw, [])
    | .catching c steps => some (vNum src.reg, some c, steps)
    | _ => none

/-- The identifier of a pending v operand, drawn and bound if it has none (R126, R127). -/
def State.drawForV (s : State) (n : Nat) (cw : Option Nat) : Res (Nat × State) :=
  match cw with
  | some c => .ok (c, s)
  | none =>
    let core := coreOf s.cur
    match leastFrom (fun i => !(s.core core).cwUsed.contains i) 512 0 with
    | none => .error (.wait .other)
    | some c =>
      let s := s.modCore core fun t => { t with cwUsed := c :: t.cwUsed }
      .ok (c, s.modSlot s.cur fun t => match t.vCell n with
        | .empty m => t.setVCell n (.empty { m with cw := some c })
        | _ => t)

/-- The step that an instruction may record: the pending operand with its identifier and steps, and the new step; none
where the use is not affine (R130). -/
def State.stepFor (s : State) (opcode : BitVec 10) (a b : Src) (rm : Rnd) (f : Fmt) :
    Option (Nat × Option Nat × List VStep × VStep) :=
  let mk := fun (p : Nat × Option Nat × List VStep) (second : Bool) (o : Src) =>
    match s.me.vCell (vNum o.reg) with
    | .full v =>
      if p.2.2.length < 4 then
        some (p.1, p.2.1, p.2.2, { opcode := opcode, second := second, fmt := f, rm := rm, reg := vNum o.reg, val := v })
      else none
    | _ => none
  match s.vPend a, s.vPend b with
  | some p, none => mk p false b
  | none, some p => mk p true a
  | _, _ => none

/-- The registers whose steps hang on orphan `j`, the destination, can hang on the new value instead: none comes to more than
four steps. Else the use is not affine (R125, R132). DESIGN CHOICE: log entry 65. -/
def State.stepFits (s : State) (j steps : Nat) : Bool :=
  match s.me.vCell j with
  | .empty { cw := some b, .. } => s.me.v.all fun r => match r with
    | .catching c st => c != b || decide (st.length + steps + 1 ≤ 4)
    | _ => true
  | _ => true

/-- Record a step: the destination becomes CATCH over the pending operand's identifier (R130); an identifier that a kill
has released leaves it DEAD. The binding of an orphan passes to the new value (R125). DEDUCED: log entry 32. -/
def State.recordStep (s : State) (d : Dst) (a b : Src) (n : Nat) (cw : Option Nat) (steps : List VStep) (st : VStep) :
    Res State := do
  let j := vNum d
  let old ← writable (s.me.vCell j) (86 + j)
  if s.me.held j then .error (.wait .other) else pure ()
  let (c, t) ← s.drawForV n cw
  let t ← t.killVs (vKills 1 [a, b])
  if (t.core (coreOf t.cur)).cwUsed.contains c then
    let t := match old with
      | none => t
      | some o => (t.modSlot t.cur fun u =>
          u.updateHolders o (fun p => .catching o p) fun more => .catching c (steps ++ [st] ++ more)).cwReturnBut (coreOf t.cur) o c
    pure (t.modSlot t.cur fun u => u.setVCell j (.catching c (steps ++ [st])))
  else pure ((t.modSlot t.cur fun u => u.setVCell j .dead).releaseCw t.cur old)

/-! ### Moves and arithmetic (R277 to R281) -/

/-- The result of an integer lane: wrapped, or clamped to the type (R278). -/
def fixLane (f : Fmt) (sat : Bool) (y : Int) : Nat := intBits f (if sat then clampInt f y else y)

/-- Addition, subtraction or multiplication of two lanes (R278, R280). -/
def arithLane (op : FOp) (rm : Rnd) (sat : Bool) (f : Fmt) (a b : Nat) : Nat :=
  if isFloat f then fop op f rm a b
  else fixLane f sat (match op with
    | .add => intOf f a + intOf f b
    | .sub => intOf f a - intOf f b
    | .mul => intOf f a * intOf f b)

/-- VADD, VSUB and VMUL: a recorded step, or lane by lane. -/
def State.vArith (s : State) (g : Guard) (d : Dst) (a b : Src) (rm : Rnd) (sat : Bool) (f : Fmt) (opcode : BitVec 10) :
    Host.Outcome State Fault Refusal :=
  s.issue g do
    s.needLease d
    match (if isFloat f then (s.stepFor opcode a b rm f).filter fun p => s.stepFits (vNum d) p.2.2.1.length else none) with
    | some (n, cw, steps, st) => do
      let t ← s.recordStep d a b n cw steps st
      pure t.advance
    | none => do
      let (x, r) ← readV 0 a.trap (vNum a.reg) s.rd
      let (y, r) ← readV 1 b.trap (vNum b.reg) r
      let t ← r.s.killVs (vKills 1 [a, b])
      let t ← t.writeV (vNum d) (map2 (fmtWidth f) (arithLane (stepOp opcode) rm sat f) x y)
      pure t.advance

/-- VMOV (R277). -/
def execVmov (g : Guard) (d : Dst) (a : Src) (s : State) : Host.Outcome State Fault Refusal := s.v1 g d a id
/-- VSPLAT (R277). -/
def execVsplat (g : Guard) (d : Dst) (a : Src) (f : Fmt) (s : State) : Host.Outcome State Fault Refusal :=
  s.issue g do
    s.needLease d
    let (x, r) ← readX 0 a s.rd
    let t ← (r.s.killXs [a]).writeV (vNum d) (vecOf (fmtWidth f) fun _ => x.toNat)
    pure t.advance
/-- VADD (R278, R280). -/
def execVadd (g : Guard) (d : Dst) (a b : Src) (rm : Rnd) (sat : Bool) (f : Fmt) (s : State) :
    Host.Outcome State Fault Refusal := s.vArith g d a b rm sat f 0x128
/-- VSUB (R278, R280). -/
def execVsub (g : Guard) (d : Dst) (a b : Src) (rm : Rnd) (sat : Bool) (f : Fmt) (s : State) :
    Host.Outcome State Fault Refusal := s.vArith g d a b rm sat f 0x129
/-- VMUL (R278, R280). -/
def execVmul (g : Guard) (d : Dst) (a b : Src) (rm : Rnd) (sat : Bool) (f : Fmt) (s : State) :
    Host.Outcome State Fault Refusal := s.vArith g d a b rm sat f 0x12A
/-- VFMA: a x b + c (R280). -/
def execVfma (g : Guard) (d : Dst) (a b c : Src) (rm : Rnd) (f : Fmt) (s : State) : Host.Outcome State Fault Refusal :=
  s.v3 g d a b c (map3 (fmtWidth f) (ffma f rm false false))
/-- VFMS: a x b - c (R280). -/
def execVfms (g : Guard) (d : Dst) (a b c : Src) (rm : Rnd) (f : Fmt) (s : State) : Host.Outcome State Fault Refusal :=
  s.v3 g d a b c (map3 (fmtWidth f) (ffma f rm false true))
/-- VFNMA: -(a x b) + c (R280). -/
def execVfnma (g : Guard) (d : Dst) (a b c : Src) (rm : Rnd) (f : Fmt) (s : State) : Host.Outcome State Fault Refusal :=
  s.v3 g d a b c (map3 (fmtWidth f) (ffma f rm true false))

/-- Minimum or maximum of two lanes (R281). -/
def minMaxLane (mx : Bool) (f : Fmt) (a b : Nat) : Nat :=
  if isFloat f then fminmax mx f a b else if decide (intOf f a < intOf f b) = mx then b else a

/-- VMIN (R281). -/
def execVmin (g : Guard) (d : Dst) (a b : Src) (f : Fmt) (s : State) : Host.Outcome State Fault Refusal :=
  s.v2 g d a b (map2 (fmtWidth f) (minMaxLane false f))
/-- VMAX (R281). -/
def execVmax (g : Guard) (d : Dst) (a b : Src) (f : Fmt) (s : State) : Host.Outcome State Fault Refusal :=
  s.v2 g d a b (map2 (fmtWidth f) (minMaxLane true f))

/-- Absolute value or negation of a lane (R278, R281). -/
def absNegLane (neg sat : Bool) (f : Fmt) (a : Nat) : Nat :=
  if isFloat f then
    (if isNan (flOf f a) then nanBits f
     else if neg then a ^^^ 2 ^ (fmtWidth f - 1) else a % 2 ^ (fmtWidth f - 1))
  else fixLane f sat (if neg then -(intOf f a) else ((intOf f a).natAbs : Int))

/-- VABS (R278, R281). -/
def execVabs (g : Guard) (d : Dst) (a : Src) (sat : Bool) (f : Fmt) (s : State) : Host.Outcome State Fault Refusal :=
  s.v1 g d a (map1 (fmtWidth f) (absNegLane false sat f))
/-- VNEG (R278, R281). -/
def execVneg (g : Guard) (d : Dst) (a : Src) (sat : Bool) (f : Fmt) (s : State) : Host.Outcome State Fault Refusal :=
  s.v1 g d a (map1 (fmtWidth f) (absNegLane true sat f))
/-- VAND: all 512 bytes, whatever the type (R279). -/
def execVand (g : Guard) (d : Dst) (a b : Src) (_f : Fmt) (s : State) : Host.Outcome State Fault Refusal :=
  s.v2 g d a b (· &&& ·)
/-- VOR (R279). -/
def execVor (g : Guard) (d : Dst) (a b : Src) (_f : Fmt) (s : State) : Host.Outcome State Fault Refusal :=
  s.v2 g d a b (· ||| ·)
/-- VXOR (R279). -/
def execVxor (g : Guard) (d : Dst) (a b : Src) (_f : Fmt) (s : State) : Host.Outcome State Fault Refusal :=
  s.v2 g d a b (· ^^^ ·)
/-- VSHL (R279). -/
def execVshl (g : Guard) (d : Dst) (a b : Src) (f : Fmt) (s : State) : Host.Outcome State Fault Refusal :=
  s.v2 g d a b (map2 (fmtWidth f) fun x n => x * 2 ^ (n % fmtWidth f))
/-- VSHR (R279). -/
def execVshr (g : Guard) (d : Dst) (a b : Src) (f : Fmt) (s : State) : Host.Outcome State Fault Refusal :=
  s.v2 g d a b (map2 (fmtWidth f) fun x n => x / 2 ^ (n % fmtWidth f))
/-- VSRA: copies of the lane's top bit, whatever the signedness of the type (R279). -/
def execVsra (g : Guard) (d : Dst) (a b : Src) (f : Fmt) (s : State) : Host.Outcome State Fault Refusal :=
  s.v2 g d a b (map2 (fmtWidth f) fun x n =>
    ((BitVec.ofNat (fmtWidth f) x).sshiftRight (n % fmtWidth f)).toNat)

/-! ### Compare, select and rearrange (R282 to R286) -/

/-- VCMP (R282). -/
def execVcmp (g : Guard) (d : Dst) (a b : Src) (c : VCond) (f : Fmt) (s : State) : Host.Outcome State Fault Refusal :=
  s.v2 g d a b (map2 (fmtWidth f) fun x y => if vcondHolds c f x y then 2 ^ fmtWidth f - 1 else 0)
/-- VSEL (R283). -/
def execVsel (g : Guard) (d : Dst) (a b m : Src) (f : Fmt) (s : State) : Host.Outcome State Fault Refusal :=
  s.v3 g d a b m (map3 (fmtWidth f) fun x y z => if z ≠ 0 then x else y)

/-- Lane `i` of a : b (R284). -/
def laneCat (w : Nat) (a b : BitVec 4096) (i : Nat) : Nat :=
  if i < 4096 / w then laneOf w a i else laneOf w b (i - 4096 / w)

/-- Result lane `i` of a pattern (R284). -/
def shufLane (pat : Shuf) (w k : Nat) (a b : BitVec 4096) (i : Nat) : Nat :=
  let n := 4096 / w
  match pat with
  | .ziplo => if i % 2 = 0 then laneOf w a (i / 2) else laneOf w b ((i - 1) / 2)
  | .ziphi => if i % 2 = 0 then laneOf w a (n / 2 + i / 2) else laneOf w b (n / 2 + (i - 1) / 2)
  | .unzipe => laneCat w a b (2 * i)
  | .unzipo => laneCat w a b (2 * i + 1)
  | .ext => laneCat w a b (i + k)
  | .rev => laneOf w a (n - 1 - i)
  | .bcast => laneOf w a k

/-- VSHUF (R284). -/
def execVshuf (g : Guard) (d : Dst) (a b : Src) (f : Fmt) (k : BitVec 12) (pat : Shuf) (s : State) :
    Host.Outcome State Fault Refusal :=
  if shufOne pat then s.v1 g d a fun x => vecOf (fmtWidth f) (shufLane pat (fmtWidth f) k.toNat x 0)
  else s.v2 g d a b fun x y => vecOf (fmtWidth f) (shufLane pat (fmtWidth f) k.toNat x y)

/-- VPERM (R285). -/
def execVperm (g : Guard) (d : Dst) (a b i : Src) (f : Fmt) (s : State) : Host.Outcome State Fault Refusal :=
  s.v3 g d a b i fun x y z => vecOf (fmtWidth f) fun n =>
    laneCat (fmtWidth f) x y (laneOf (fmtWidth f) z n % (2 * lanesOf f))

/-- The lane that VEXTR and VINS act on (R286). -/
def laneNo (f : Fmt) (l : Word) (off : BitVec 10) : Nat := (l.toNat + off.toNat) % lanesOf f

/-- A lane as an x register holds it (R286). -/
def laneWord (f : Fmt) (bits : Nat) : Word := if isSigned f then BitVec.ofInt 64 (intOf f bits) else BitVec.ofNat 64 bits

/-- VEXTR (R286). -/
def execVextr (g : Guard) (d : Dst) (a l : Src) (f : Fmt) (off : BitVec 10) (s : State) :
    Host.Outcome State Fault Refusal :=
  s.issue g do
    s.needLease a.reg
    let (x, r) ← readV 0 a.trap (vNum a.reg) s.rd
    let (y, r) ← readX 1 l r
    let t ← (r.s.killXs [l]).killVs (vKills 1 [a])
    let t ← t.put d (laneWord f (laneOf (fmtWidth f) x (laneNo f y off)))
    pure t.advance
/-- VINS (R286). -/
def execVins (g : Guard) (d : Dst) (a v l : Src) (f : Fmt) (off : BitVec 10) (s : State) :
    Host.Outcome State Fault Refusal :=
  s.issue g do
    s.needLease d
    let (x, r) ← readV 0 a.trap (vNum a.reg) s.rd
    let (y, r) ← readX 1 v r
    let (z, r) ← readX 2 l r
    let t ← (r.s.killXs [v, l]).killVs (vKills 1 [a])
    let w := fmtWidth f
    let t ← t.writeV (vNum d) (vecOf w fun i => if i = laneNo f z off then y.toNat else laneOf w x i)
    pure t.advance

/-! ### Reductions (R287) -/

/-- One level of the tree. -/
def pairUp {α : Type} (f : α → α → α) : List α → List α
  | a :: b :: t => f a b :: pairUp f t
  | l => l

/-- `n` levels. -/
def levelsUp {α : Type} (f : α → α → α) : Nat → List α → List α
  | 0, l => l
  | n + 1, l => levelsUp f n (pairUp f l)

/-- What a reduction does to two values. -/
inductive Red where
  | add | min | max
deriving DecidableEq, Repr

/-- A lane exact in FP32. -/
def toF32 (f : Fmt) (bits : Nat) : Nat := if f = .f32 then bits else cvtFloat .f32 .rne (maxBits .f32) none (flOf f bits)

/-- The reduction of a register's lanes: 9 levels are enough for 512 lanes. -/
def reduceVec (op : Red) (f : Fmt) (v : BitVec 4096) : Word :=
  let lanes := (List.range (lanesOf f)).map fun i => laneOf (fmtWidth f) v i
  if isFloat f then
    let h := fun a b => match op with
      | .add => fop .add .f32 .rne a b
      | .min => fminmax false .f32 a b
      | .max => fminmax true .f32 a b
    BitVec.ofNat 64 ((levelsUp h 9 (lanes.map (toF32 f))).headD 0)
  else
    let h := fun (a b : Int) => match op with
      | .add => a + b
      | .min => if b < a then b else a
      | .max => if a < b then b else a
    BitVec.ofInt 64 ((levelsUp h 9 (lanes.map (intOf f))).headD 0)

/-- A reduction into an xm destination. -/
def State.vReduce (s : State) (g : Guard) (d : Dst) (a : Src) (f : Fmt) (op : Red) : Host.Outcome State Fault Refusal :=
  s.issue g do
    s.needLease a.reg
    let (x, r) ← readV 0 a.trap (vNum a.reg) s.rd
    let t ← r.s.killVs (vKills 1 [a])
    let t ← t.put d (reduceVec op f x)
    pure t.advance

/-- VREDADD (R287). -/
def execVredadd (g : Guard) (d : Dst) (a : Src) (f : Fmt) (s : State) : Host.Outcome State Fault Refusal :=
  s.vReduce g d a f .add
/-- VREDMIN (R287). -/
def execVredmin (g : Guard) (d : Dst) (a : Src) (f : Fmt) (s : State) : Host.Outcome State Fault Refusal :=
  s.vReduce g d a f .min
/-- VREDMAX (R287). -/
def execVredmax (g : Guard) (d : Dst) (a : Src) (f : Fmt) (s : State) : Host.Outcome State Fault Refusal :=
  s.vReduce g d a f .max

/-! ### Conversions, widening and functions (R267, R288 to R291) -/

/-- Registers on the wide side of a conversion, source and result. -/
def srcRegs (tf sf : Fmt) : Nat := fmtWidth sf / Nat.min (fmtWidth sf) (fmtWidth tf)
def dstRegs (tf sf : Fmt) : Nat := fmtWidth tf / Nat.min (fmtWidth sf) (fmtWidth tf)

/-- Lane placement of R267: `h i x` is the result of narrow-side lane `i` from source lane `x`. -/
def placeLanes (tf sf : Fmt) (srcs : List (BitVec 4096)) (h : Nat → Nat → Nat) : List (BitVec 4096) :=
  let ks := srcRegs tf sf
  let kd := dstRegs tf sf
  (List.range kd).map fun r => vecOf (fmtWidth tf) fun l =>
    let i := l * kd + r
    h i (laneOf (fmtWidth sf) (srcs.getD (i % ks) 0) (i / ks))

/-- VCVT (R288). -/
def execVcvt (g : Guard) (d : Dst) (a : Src) (rm : Rnd) (tf sf : Fmt) (s : State) : Host.Outcome State Fault Refusal :=
  s.issue g do
    s.needLease d
    let ks := srcRegs tf sf
    let (xs, r) ← readVs 0 a.trap (vNum a.reg) ks s.rd
    let t ← r.s.killVs (vKills ks [a])
    let t ← t.writeVs (vNum d) (placeLanes tf sf xs fun _ x => cvtElem tf sf rm (maxBits tf) none x)
    pure t.advance
/-- VCVTS (R67, R289). -/
def execVcvts (g : Guard) (d : Dst) (a seed : Src) (tf sf : Fmt) (s : State) : Host.Outcome State Fault Refusal :=
  s.issue g do
    s.needLease d
    let ks := srcRegs tf sf
    let (xs, r) ← readVs 0 a.trap (vNum a.reg) ks s.rd
    let (y, r) ← readX 1 seed r
    let t ← (r.s.killXs [seed]).killVs (vKills ks [a])
    let t ← t.writeVs (vNum d) (placeLanes tf sf xs fun i x => cvtElem tf sf .rne (maxBits tf) (some (srBits y i)) x)
    pure t.advance

/-- The result type of a widening operation (R290). -/
def wideOf : Fmt → Fmt
  | .i8 => .i16
  | .n8 => .n16
  | .i16 => .i32
  | .n16 => .n32
  | _ => .f32

/-- A widening sum or product of two lanes (R290). -/
def wideLane (mul : Bool) (rm : Rnd) (f : Fmt) (a b : Nat) : Nat :=
  if isFloat f then
    roundFl .f32 rm false (if mul then mulFl (flOf f a) (flOf f b) else addFl rm (flOf f a) (flOf f b))
  else intBits (wideOf f) (if mul then intOf f a * intOf f b else intOf f a + intOf f b)

/-- VWADD and VWMUL. -/
def State.vWide (s : State) (g : Guard) (d : Dst) (a b : Src) (rm : Rnd) (f : Fmt) (mul : Bool) :
    Host.Outcome State Fault Refusal :=
  s.issue g do
    s.needLease d
    let (x, r) ← readV 0 a.trap (vNum a.reg) s.rd
    let (y, r) ← readV 1 b.trap (vNum b.reg) r
    let t ← r.s.killVs (vKills 1 [a, b])
    let t ← t.writeVs (vNum d) (placeLanes (wideOf f) f [x] fun i u => wideLane mul rm f u (laneOf (fmtWidth f) y i))
    pure t.advance

/-- VWADD (R290). -/
def execVwadd (g : Guard) (d : Dst) (a b : Src) (rm : Rnd) (f : Fmt) (s : State) : Host.Outcome State Fault Refusal :=
  s.vWide g d a b rm f false
/-- VWMUL (R290). -/
def execVwmul (g : Guard) (d : Dst) (a b : Src) (rm : Rnd) (f : Fmt) (s : State) : Host.Outcome State Fault Refusal :=
  s.vWide g d a b rm f true
/-- VEXP2 (R291). -/
def execVexp2 (g : Guard) (d : Dst) (a : Src) (rm : Rnd) (_f : Fmt) (s : State) : Host.Outcome State Fault Refusal :=
  s.v1 g d a (map1 32 (funF32 .exp2 rm))
/-- VLOG2 (R291). -/
def execVlog2 (g : Guard) (d : Dst) (a : Src) (rm : Rnd) (_f : Fmt) (s : State) : Host.Outcome State Fault Refusal :=
  s.v1 g d a (map1 32 (funF32 .log2 rm))
/-- VRCP (R291). -/
def execVrcp (g : Guard) (d : Dst) (a : Src) (rm : Rnd) (_f : Fmt) (s : State) : Host.Outcome State Fault Refusal :=
  s.v1 g d a (map1 32 (funF32 .rcp rm))
/-- VRSQRT (R291). -/
def execVrsqrt (g : Guard) (d : Dst) (a : Src) (rm : Rnd) (_f : Fmt) (s : State) : Host.Outcome State Fault Refusal :=
  s.v1 g d a (map1 32 (funF32 .rsqrt rm))
/-- VSQRT (R291). -/
def execVsqrt (g : Guard) (d : Dst) (a : Src) (rm : Rnd) (_f : Fmt) (s : State) : Host.Outcome State Fault Refusal :=
  s.v1 g d a (map1 32 (funF32 .sqrt rm))

/-! ### Loads and stores through folios (R271 to R276) -/

/-- Coordinates of lane `i`: from `c` with `x` added along dimension 0, without wrap (R271). -/
def laneCoords (c : List Nat) (x : Nat) : List Nat := [c.getD 0 0 + x, c.getD 1 0, c.getD 2 0, c.getD 3 0]

/-- The folio checks of a vector load or store (R274), then its in-bounds lanes with their addresses. -/
def Folio.vecLanes (fo : Folio) (idx : Nat) (store : Bool) (f : Fmt) (coords : List (List Nat)) :
    Res (List (Nat × Nat)) := do
  fo.usable idx (!store) store
  if (if store then storePair f fo.fmt else loadPair f fo.fmt) = false then .error (folioTrap idx 3 0) else pure ()
  if fo.base.testBit 55 then .error (folioTrap idx 5 0) else pure ()
  match if fo.pad = 0 then (List.range coords.length).find? (fun i => fo.oob (coords.getD i [])) else none with
  | some i => .error (folioTrap idx 4 i)
  | none => pure ((List.range coords.length).filterMap fun i =>
      let c := coords.getD i []
      if fo.oob c then none else some (i, fo.addr c))

/-- The access trap of a lane whose page denies it: the first in lane order (R386). DEDUCED: log entry 33. -/
def State.vecAccess (s : State) (space : Nat) (lanes : List (Nat × Nat)) (needR needW : Bool) : Res Unit :=
  match lanes.find? fun l => s.peek s.cur space l.2 needR needW = .deny with
  | some l => .error (.trap 13 (BitVec.ofNat 64 l.2))
  | none => .ok ()

/-- The reference of a vector instruction, sent to the homes of its lanes (R273, R275); the words that they name are found as it
goes (R276). -/
def State.sendVec (s : State) (fo : Folio) (lanes : List (Nat × Nat)) (dst : RetDst) (op : RefOp) (counted : Bool) :
    State :=
  let (id, t) := s.newAcc s.cur setE [] false
  let first := match lanes with
    | l :: _ => l.2
    | [] => fo.base
  let r : Ref := {
    id := id, slot := s.cur, gen := s.me.gen, tsid := s.me.tsid.getD 0, num := 0, job := (s.slotSet s.cur).job
    space := fo.space, va := BitVec.ofNat 64 first,
    isle := isleOf (coreOf s.cur), home := 0, dst := dst, op := op, limit := 0, counted := counted }
  { t with refs := t.refs ++ [r] }

/-- A vector load of the given coordinates, once its operands are read (R273). DEDUCED: log entry 33. -/
def State.vecLoad (s : State) (d : Dst) (f : Fmt) (idx : Nat) (fo : Folio) (coords : List (List Nat)) : Res State := do
  s.holdFor setE
  let lanes ← fo.vecLanes idx false f coords
  s.vecAccess fo.space lanes true false
  let t ← s.emptyV (vNum d)
  pure (t.sendVec fo lanes (.reg (86 + vNum d)) (.vload f fo.fmt lanes 0) false)

/-- Of lanes that name one element the highest one remains (R275). -/
def dropDup : List (Nat × Nat) → List (Nat × Nat)
  | [] => []
  | l :: ls => if ls.any (fun m => m.2 == l.2) then dropDup ls else l :: dropDup ls

/-- A vector store of `v` to the given coordinates (R275). DEDUCED: log entry 33. -/
def State.vecStore (s : State) (f : Fmt) (idx : Nat) (fo : Folio) (coords : List (List Nat)) (v : BitVec 4096) :
    Res State := do
  s.holdFor setE
  s.redRoom
  let lanes ← fo.vecLanes idx true f coords
  s.vecAccess fo.space lanes false true
  let lanes := dropDup lanes
  if lanes.isEmpty then pure s
  else
    let todo := lanes.map fun l => (l.1, l.2, storeConv f fo (laneOf (fmtWidth f) v l.1))
    pure ((s.redUp s.cur).sendVec fo lanes .none (.vstore (fmtBytes fo.fmt) todo) true)

/-- Coordinates of the lanes of VLD and VST. -/
def rowCoords (f : Fmt) (c : Word) : List (List Nat) := (List.range (lanesOf f)).map (laneCoords (coordsOf c))
/-- Coordinates of the lanes of VLDX and VSTX. -/
def indexCoords (f : Fmt) (c : Word) (x : BitVec 4096) : List (List Nat) :=
  (List.range (lanesOf f)).map fun i => laneCoords (coordsOf c) (laneOf (fmtWidth f) x i)

/-- VLD (R271 to R274). -/
def execVld (g : Guard) (d : Dst) (c : Src) (f : Fmt) (folio : BitVec 16) (s : State) :
    Host.Outcome State Fault Refusal :=
  s.issue g do
    s.needLease d
    let (x, r) ← readX 0 c s.rd
    let fo ← s.needFolio folio.toNat
    let t ← (r.s.killXs [c]).vecLoad d f folio.toNat fo (rowCoords f x)
    pure t.advance
/-- VST (R271 to R275). -/
def execVst (g : Guard) (c v : Src) (f : Fmt) (folio : BitVec 16) (s : State) : Host.Outcome State Fault Refusal :=
  s.issue g do
    s.needLease v.reg
    let (x, r) ← readX 0 c s.rd
    let (y, r) ← readV 1 v.trap (vNum v.reg) r
    let fo ← s.needFolio folio.toNat
    let t ← (r.s.killXs [c]).killVs (vKills 1 [v])
    let t ← t.vecStore f folio.toNat fo (rowCoords f x) y
    pure t.advance
/-- VLDX (R271 to R274). -/
def execVldx (g : Guard) (d : Dst) (c i : Src) (f : Fmt) (folio : BitVec 16) (s : State) :
    Host.Outcome State Fault Refusal :=
  s.issue g do
    s.needLease d
    let (x, r) ← readX 0 c s.rd
    let (z, r) ← readV 1 i.trap (vNum i.reg) r
    let fo ← s.needFolio folio.toNat
    let t ← (r.s.killXs [c]).killVs (vKills 1 [i])
    let t ← t.vecLoad d f folio.toNat fo (indexCoords f x z)
    pure t.advance
/-- VSTX (R271 to R275). -/
def execVstx (g : Guard) (c v i : Src) (f : Fmt) (folio : BitVec 16) (s : State) : Host.Outcome State Fault Refusal :=
  s.issue g do
    s.needLease v.reg
    let (x, r) ← readX 0 c s.rd
    let (y, r) ← readV 1 v.trap (vNum v.reg) r
    let (z, r) ← readV 2 i.trap (vNum i.reg) r
    let fo ← s.needFolio folio.toNat
    let t ← (r.s.killXs [c]).killVs (vKills 1 [v, i])
    let t ← t.vecStore f folio.toNat fo (indexCoords f x z) y
    pure t.advance

end Sys2Proof.Machine
end

