-- ==== Sys2Proof/Machine/Image.lean ====
section
/-! DEFINITION. Images of pre-empted task sets: writing one and reading one (R148, R366, R367). -/

namespace Sys2Proof.Machine

/-! ### Memory of space 0xFFFF -/

/-- Home of `len` bytes at a harbour address that the device itself uses, within one page; where it has none, the place of an
uncorrectable error that it met (R417). -/
def State.imgHome (s : State) (va len : Nat) (write : Bool) : Except (Option Nat) Nat :=
  match s.walk 0xFFFF va with
  | .leaf e =>
    let h := e.pa + (va - e.va)
    if denies e (!write) write then .error none else if s.isBroken h len then .error (some h) else .ok h
  | r => .error r.failed.2

/-- `n` words at a harbour address, each found by its own walk. -/
def State.imgWords (s : State) (va : Nat) : Nat → Except (Option Nat) (List Word)
  | 0 => .ok []
  | n + 1 => do
    let h ← s.imgHome va 8 false
    let ws ← s.imgWords (va + 8) n
    pure (s.readWord h :: ws)

/-- Write bytes from a harbour address on, by pages of 4 KiB, up to one that cannot be written. -/
def State.imgWrite (va : Nat) (bs : List Byte) : Nat → State → Except (Option Nat) State
  | 0, s => .ok s
  | n + 1, s =>
    if bs.isEmpty then .ok s
    else
      let k := 4096 - va % 4096
      match s.imgHome va (bs.take k).length true with
      | .error b => .error b
      | .ok h => State.imgWrite (va + k) (bs.drop k) n
          { s.unreserve h (bs.take k).length with mem := tabPut 0 s.mem h (bs.take k) }

/-- A number in `n` words, lowest first. -/
def natWords : Nat → Nat → List Word
  | 0, _ => []
  | n + 1, v => BitVec.ofNat 64 v :: natWords n (v / 2 ^ 64)

def wordsNat (ws : List Word) : Nat := ws.foldr (fun w a => w.toNat + 2 ^ 64 * a) 0

/-- Words padded with zeros to a multiple of 64 bytes. -/
def pad64 (ws : List Word) : List Word := ws ++ List.replicate ((8 - ws.length % 8) % 8) 0

/-! ### Thread records (R367) -/

/-- The value that a register shows in an image: 0 unless FULL. DESIGN CHOICE: log entry 50. -/
def Slot.imgReg (t : Slot) (j : Nat) : Word :=
  if j < 79 then (match t.xCell j with
    | .full v => v
    | _ => 0)
  else match t.pCell (j - 78) with
    | .full b => if b then 1 else 0
    | _ => 0

/-- The state code of register `j` below 86. -/
def Slot.imgCode (t : Slot) (j : Nat) : Nat := if j < 79 then stateCode (t.xCell j) else stateCode (t.pCell (j - 78))

/-- A withdrawn reference's entry, a matrix command with its record. -/
def Withdrawn.words (w : Withdrawn) : List Word :=
  [BitVec.ofNat 64 (w.kind * 2 ^ 61) ||| (w.va &&& 0x00FFFFFFFFFFFFF8#64), w.data, BitVec.ofNat 64 (w.reg % 128), 0] ++ w.record

/-- The EMPTY register that an identifier is bound to: an x register, or 86 + n for v n. -/
def Slot.boundTo (t : Slot) (c : Nat) : Nat :=
  let q := fun j => if j < 79 then isPending (t.xCell j) && stateCode (t.xCell j) == 1 && cellCw (t.xCell j) == some c
    else if j < 86 then false else stateCode (t.vCell (j - 86)) == 1 && cellCw (t.vCell (j - 86)) == some c
  ((List.range 102).find? q).getD 0

/-- A recorded step in its 32 bits. DESIGN CHOICE: log entry 50. -/
def VStep.bits (v : VStep) : Nat :=
  v.opcode.toNat + (if v.second then 2 ^ 10 else 0) + v.fmt.code.toNat * 2 ^ 11 + rndCode v.rm * 2 ^ 15 + v.reg % 16 * 2 ^ 17
where
  rndCode (r : Rnd) : Nat := r.ctorIdx

/-- The transform entries of a slot (R148, R367). DESIGN CHOICE: log entry 50. -/
def Slot.transforms (t : Slot) : List (List Word) :=
  let xs := (List.range 79).filterMap fun j => match t.xCell j with
    | .catching c (sc, o) => some [BitVec.ofNat 64 (j + t.boundTo c * 256), sc, o, (0 : Word)]
    | _ => none
  let vs := (List.range 16).filterMap fun n => match t.vCell n with
    | .catching c steps =>
      let b := fun (i : Nat) => (steps[i]?).elim 0 VStep.bits
      some [BitVec.ofNat 64 (86 + n + t.boundTo c * 256 + 2 ^ 15 + steps.length * 2 ^ 16),
        BitVec.ofNat 64 (b 0 + b 1 * 2 ^ 32), BitVec.ofNat 64 (b 2 + b 3 * 2 ^ 32), (0 : Word)]
    | _ => none
  xs ++ vs

/-- Inbox words of a slot, data and tag with sender. -/
def State.imgInbox (s : State) (k : Nat) : List (List Word) :=
  ((s.core (coreOf k)).inbox.filter fun w => targetSlot w.target == slotNo k).map fun w =>
    [w.data, BitVec.ofNat 64 (w.tag % 4 + w.sender % 1024 * 4)]

/-- A v register's value where it is FULL. -/
def Slot.imgV (t : Slot) (n : Nat) : Nat := match t.vCell n with
  | .full v => v.toNat
  | _ => 0

/-- The record of a thread; with `all` every register is written, else the dirty ones (R366, R367). -/
def State.threadWords (s : State) (k : Nat) (all : Bool) : List Word :=
  let t := s.slot k
  let dirty := if all then 2 ^ 86 - 1 else t.dirty.toNat % 2 ^ 86
  let vdirty := if all then 2 ^ 16 - 1 else t.vdirty.toNat
  let trs := t.transforms
  let box := s.imgInbox k
  let w0 := t.tag.toNat + (if t.lease.isSome then 2 ^ 32 else 0) + box.length % 2 ^ 10 * 2 ^ 33 + trs.length % 2 ^ 8 * 2 ^ 43
    + t.withdrawn.length % 2 ^ 13 * 2 ^ 51
  let codes := ((List.range 86).map fun j => t.imgCode j * 4 ^ j).sum
  let fixed := [BitVec.ofNat 64 w0, t.pc, t.wstate, t.spillp, t.mdest, t.waitlim, t.deadmode, t.wrec, t.grec, t.tctl, t.rfva, t.rfst,
      BitVec.ofNat 64 ((ownName k t.gen).toNat + t.baseCls % 4 * 2 ^ 28)]
    ++ natWords 3 codes ++ natWords 2 dirty
    ++ ((List.range 86).map fun j => if dirty.testBit j then t.imgReg j else 0) ++ List.replicate 24 0
  let vpart := if t.lease.isSome then
      let vcodes := ((List.range 16).map fun n => stateCode (t.vCell n) * 4 ^ n).sum
      [BitVec.ofNat 64 (vcodes + vdirty * 2 ^ 32), 0, 0, 0, 0, 0, 0, 0]
        ++ (List.range 16).flatMap fun n => natWords 64 (if vdirty.testBit n then t.imgV n else 0)
    else []
  pad64 (fixed ++ t.withdrawn.flatMap (·.words) ++ trs.flatten ++ box.flatten ++ vpart)

/-! ### Weight slots (R308, R367)

The 640 words of a slot are its data part, 512 words, and its scale part, 128 words, in whose first 31 words stand the state and
how much of each row is present. -/

def WSt.code : WSt → Nat
  | .invalid => 0
  | .loading => 1
  | .ready => 2
  | .faulted => 3

def WSt.ofCode : Nat → WSt
  | 0 => .invalid
  | 1 => .loading
  | 2 => .ready
  | _ => .faulted

/-- Rows of one group of the slot's load, and the group in which a row lies. -/
def WSlot.groupOf (w : WSlot) (row : Nat) : Nat :=
  let g := 16 * 2 ^ w.group
  (w.phase % g + row) / g

/-- A row begins a group. -/
def WSlot.begins (w : WSlot) (row : Nat) : Bool := row == 0 || w.groupOf row != w.groupOf (row - 1)

/-- A number of which each entry (i, v) of a list fills the `n` bits at i. -/
def fieldsNat (n : Nat) (l : List (Nat × Nat)) : Nat := (l.map fun e => e.2 % 2 ^ n * 2 ^ (n * e.1)).sum

/-- The 640 words of a weight slot. DESIGN CHOICE: log entry 50. -/
def WSlot.words (w : WSlot) : List Word :=
  let head := w.st.code + w.fmt.code.toNat * 2 ^ 2 + (w.sfmt.elim 0 fun f => f.code.toNat) * 2 ^ 6 + w.rows % 2 ^ 9 * 2 ^ 10
    + w.blocks % 2 ^ 6 * 2 ^ 19 + w.group % 4 * 2 ^ 25 + w.phase % 2 ^ 7 * 2 ^ 27
  natWords 512 (fieldsNat (fmtWidth w.fmt) (w.cells.map fun c => (c.1, c.2.1)))
    ++ BitVec.ofNat 64 head :: natWords 30 (w.cells.map fun c => 2 ^ (6 * (c.1 / 32))).sum
    ++ natWords 97 (fieldsNat 16 ((w.cells.filter fun c => w.begins (c.1 / 32)).map fun c =>
      (32 * w.groupOf (c.1 / 32) + c.1 % 32, c.2.2)))

/-- A weight slot from its 640 words. -/
def WSlot.ofWords (ws : List Word) : WSlot :=
  let head := (ws.getD 512 0).toNat
  let data := wordsNat (ws.take 512)
  let counts := wordsNat ((ws.drop 513).take 30)
  let scales := wordsNat (ws.drop 543)
  let sf := head / 2 ^ 6 % 16
  let w : WSlot := {
    st := WSt.ofCode (head % 4), fmt := Fmt.ofCode (BitVec.ofNat 4 (head / 2 ^ 2)),
    sfmt := if sf = 0 then none else some (Fmt.ofCode (BitVec.ofNat 4 sf)), group := head / 2 ^ 25 % 4, phase := head / 2 ^ 27 % 2 ^ 7,
    rows := head / 2 ^ 10 % 2 ^ 9, blocks := head / 2 ^ 19 % 2 ^ 6, cells := [] }
  let n := fmtWidth w.fmt
  { w with cells := (List.range 320).flatMap fun i => (List.range (counts / 2 ^ (6 * i) % 64)).map fun j =>
      (32 * i + j, (data / 2 ^ (n * (32 * i + j)) % 2 ^ n,
        if sf = 0 then 0 else scales / 2 ^ (16 * (32 * w.groupOf i + j)) % 2 ^ 16)) }

/-! ### Core and allocation sections (R367) -/

/-- Accumulators (below 8) and weight slots (from 8 on) of a core that a set owns. -/
def Core.ownedBy (c : Core) (tsid : Nat) : List Nat := (c.owner.filter fun e => e.2 == tsid).map (·.1)

def maskBits (l : List Nat) : Nat := ((l.eraseDups).map fun i => 2 ^ i).sum

/-- The section of a core. -/
def Core.section_ (c : Core) (core tsid : Nat) (all : Bool) : List Word :=
  let own := c.ownedBy tsid
  let accs := (List.range 8).filter own.contains
  let ws := (List.range 64).filter fun n => own.contains (8 + n)
  let isDirty := fun n => all || c.mxDirty.contains n
  let w0 := core % 1024 + maskBits accs * 2 ^ 10 + maskBits (accs.filter isDirty) * 2 ^ 18
  [BitVec.ofNat 64 w0, BitVec.ofNat 64 (maskBits ws), BitVec.ofNat 64 (maskBits (ws.filter fun n => isDirty (8 + n))), 0, 0, 0, 0, 0]
    ++ (accs.filter isDirty).flatMap (fun n => natWords 512 (c.accVal n).toNat)
    ++ (ws.filter fun n => isDirty (8 + n)).flatMap fun n => (c.wslot n).words

/-- The F bits of a tile as 64 bytes. -/
def State.tileF (s : State) (home : Nat) : Nat := ((List.range 512).map fun i => if s.fBit (home + 8 * i) then 2 ^ i else 0).sum

/-- An image holds the data of a tile: of every one, or of those that are dirty (R366). -/
def Tile.saved (t : Tile) (all : Bool) : Bool := all || t.dirty

/-- A tile of an allocation that an image would hold the data of has a word with an uncorrectable error (R417). -/
def State.allocBroken (s : State) (quire f : Nat) (all : Bool) : Bool :=
  ((s.quire quire).allocTiles f).any fun n => (tileOf (s.quire quire) n).saved all && s.isBroken (spHome quire (4096 * n)) 4096

/-- The section of an allocation with first tile `f`. -/
def State.allocSection (s : State) (quire f : Nat) (all : Bool) : List Word :=
  let q := s.quire quire
  let t0 := tileOf q f
  let tiles := q.allocTiles f
  let w0 := f + tiles.length * 2 ^ 9 + t0.granules % 2 ^ 13 * 2 ^ 19 + quire % 12 * 2 ^ 32 + quire / 12 * 2 ^ 36
  [BitVec.ofNat 64 w0, t0.key.setWidth 64, 0, 0, 0, 0, 0, 0] ++ tiles.flatMap fun n =>
    let t := tileOf q n
    let here := t.saved all
    let home := spHome quire (4096 * n)
    [BitVec.ofNat 64 ((if t.engine then 1 else 0) + (if t.phase then 2 else 0) + if here then 0 else 4), 0, 0, 0, 0, 0, 0, 0]
      ++ if here then s.readWords home 512 ++ natWords 8 (s.tileF home) else []

/-! ### Reading an image -/

/-- A thread record as read: its 128 words and its variable parts. -/
structure ThreadRec where
  w : List Word
  wd : List Withdrawn
  tr : List (List Word)
  box : List (List Word)
  vec : List Word
deriving DecidableEq, Repr

/-- A core section as read: word block, accumulators and weight slots written with their values. -/
structure CoreSec where
  core : Nat
  accs : Nat
  ws : Nat
  vals : List (Nat × Nat)
  wvals : List (Nat × WSlot)
deriving DecidableEq, Repr

/-- An allocation section as read: first tile, tile count, granules, quire, key, and for each tile its flags with data and F. -/
structure AllocSec where
  first : Nat
  count : Nat
  granules : Nat
  quire : Nat
  key : BitVec 60
  tiles : List (Nat × Option (List Word × Nat))
deriving DecidableEq, Repr

structure Img where
  head : List Word
  threads : List ThreadRec
  cores : List CoreSec
  allocs : List AllocSec
deriving DecidableEq, Repr

/-- Withdrawn entries from a list of words. -/
def readWithdrawn : Nat → List Word → List Withdrawn × List Word
  | 0, ws => ([], ws)
  | n + 1, ws =>
    let kind := (ws.getD 0 0).toNat / 2 ^ 61
    let rec_ := if kind = 4 then (ws.drop 4).take 4 else []
    let w : Withdrawn := {
      kind := kind, va := ws.getD 0 0 &&& 0x00FFFFFFFFFFFFF8#64, data := ws.getD 1 0, reg := (ws.getD 2 0).toNat % 128, record := rec_
      folios := none, seq := 0 }
    let (l, rest) := readWithdrawn n (ws.drop (4 + rec_.length))
    (w :: l, rest)

/-- Pieces of `k` words. -/
def takePieces (k : Nat) : Nat → List Word → List (List Word) × List Word
  | 0, ws => ([], ws)
  | n + 1, ws =>
    let (l, rest) := takePieces k n (ws.drop k)
    (ws.take k :: l, rest)

/-- Words that are left of `ws` after a multiple of 64 bytes of `all` has been read. -/
def alignRest (all ws : List Word) : List Word := ws.drop ((8 - (all.length - ws.length) % 8) % 8)

def readThreads : Nat → List Word → List ThreadRec × List Word
  | 0, ws => ([], ws)
  | n + 1, ws =>
    let w0 := (ws.getD 0 0).toNat
    let (wd, r) := readWithdrawn (w0 / 2 ^ 51) (ws.drop 128)
    let (tr, r) := takePieces 4 (w0 / 2 ^ 43 % 2 ^ 8) r
    let (box, r) := takePieces 2 (w0 / 2 ^ 33 % 2 ^ 10) r
    let v := if w0 / 2 ^ 32 % 2 = 1 then r.take 1032 else []
    let (l, rest) := readThreads n (alignRest ws (r.drop v.length))
    ({ w := ws.take 128, wd := wd, tr := tr, box := box, vec := v } :: l, rest)

/-- The numbers of set bits below `n`. -/
def bitList (n m : Nat) : List Nat := (List.range n).filter fun i => m.testBit i

def readCores : Nat → List Word → List CoreSec × List Word
  | 0, ws => ([], ws)
  | n + 1, ws =>
    let w0 := (ws.getD 0 0).toNat
    let there := bitList 8 (w0 / 2 ^ 18)
    let wd := bitList 64 (ws.getD 2 0).toNat
    let (accs, r) := takePieces 512 there.length (ws.drop 8)
    let (slots, r) := takePieces 640 wd.length r
    let (l, rest) := readCores n r
    ({ core := w0 % 1024, accs := w0 / 2 ^ 10 % 256, ws := (ws.getD 1 0).toNat, vals := there.zip (accs.map wordsNat),
       wvals := wd.zip (slots.map WSlot.ofWords) } :: l, rest)

def readTiles : Nat → List Word → List (Nat × Option (List Word × Nat)) × List Word
  | 0, ws => ([], ws)
  | n + 1, ws =>
    let f := (ws.getD 0 0).toNat % 8
    let r := ws.drop 8
    let here := decide (f < 4)
    let (l, rest) := readTiles n (if here then r.drop 520 else r)
    ((f, if here then some (r.take 512, wordsNat ((r.drop 512).take 8)) else none) :: l, rest)

/-- The quire that an isle and a 4-bit quire field name; 192 where the field names none (R15). -/
def quireAt (isle q : Nat) : Nat := if q < 12 then 12 * isle + q else 192

def readAllocs : Nat → List Word → List AllocSec × List Word
  | 0, ws => ([], ws)
  | n + 1, ws =>
    let w0 := (ws.getD 0 0).toNat
    let count := w0 / 2 ^ 9 % 1024
    let (tiles, r) := readTiles count (ws.drop 8)
    let (l, rest) := readAllocs n r
    ({ first := w0 % 512, count := count, granules := w0 / 2 ^ 19 % 2 ^ 13, quire := quireAt (w0 / 2 ^ 36 % 16) (w0 / 2 ^ 32 % 16),
       key := (ws.getD 1 0).setWidth 60, tiles := tiles } :: l, rest)

def ThreadRec.tag (r : ThreadRec) : Nat := (r.w.getD 0 0).toNat % 2 ^ 32
/-- The slot that a record was taken from, package-wide. -/
def ThreadRec.from_ (r : ThreadRec) : Nat :=
  let n := (r.w.getD 12 0).toNat
  256 * (4 * quireAt (n / 2 ^ 24 % 16) (n / 2 ^ 20 % 16) + n / 2 ^ 18 % 4) + n / 2 ^ 10 % 256

/-- Every core and quire that an image names is one of the package's (R13, R15). DESIGN CHOICE: log entry 9. -/
def Img.placesOk (i : Img) : Bool :=
  i.threads.all (fun r => decide (r.from_ < 196608)) && i.cores.all (fun c => decide (c.core < 768))
    && i.allocs.all fun a => decide (a.quire < 192)

/-- Read the image at a harbour address: an error where its header is not one, it names a place that the package does not have, or
it cannot be read. DESIGN CHOICE: log entry 9. -/
def State.readImage (s : State) (va : Nat) : Except (Option Nat) Img := do
  let h ← s.imgWords va 8
  if (h.getD 0 0).toNat % 2 ^ 40 ≠ 0x15A494D47 then .error none
  let ws ← s.imgWords va ((h.getD 2 0).toNat / 8)
  let n := (h.getD 4 0).toNat
  let ts := readThreads (n % 2 ^ 18) (ws.drop 8)
  let cs := readCores (n / 2 ^ 18 % 2 ^ 10) ts.2
  let as := readAllocs (n / 2 ^ 28 % 2 ^ 16) cs.2
  let i : Img := { head := h, threads := ts.1, cores := cs.1, allocs := as.1 }
  if i.placesOk then pure i else .error none

/-- A record of an incremental image over the record of its base with the same tag (R366). -/
def ThreadRec.over (r b : ThreadRec) : ThreadRec :=
  let dirty := wordsNat [r.w.getD 16 0, r.w.getD 17 0]
  let vdirty := (r.vec.getD 0 0).toNat / 2 ^ 32
  { r with
    w := (List.range 128).map fun i => if 18 ≤ i ∧ i < 104 ∧ !dirty.testBit (i - 18) then b.w.getD i 0 else r.w.getD i 0
    vec := (List.range r.vec.length).map fun i =>
      if 8 ≤ i ∧ !vdirty.testBit ((i - 8) / 64) then b.vec.getD i 0 else r.vec.getD i 0 }

/-- Numbered entries over those of a base. -/
def entriesOver {α : Type} (l b : List (Nat × α)) : List (Nat × α) := l ++ b.filter fun v => !(l.any fun x => x.1 == v.1)

def CoreSec.over (c b : CoreSec) : CoreSec := { c with vals := entriesOver c.vals b.vals, wvals := entriesOver c.wvals b.wvals }

def AllocSec.over (a b : AllocSec) : AllocSec :=
  { a with tiles := (List.range a.tiles.length).map fun i =>
      let t := a.tiles.getD i (0, none)
      (t.1, if t.2.isSome then t.2 else (b.tiles.getD i (0, none)).2) }

/-- An incremental image over its base. -/
def Img.over (i b : Img) : Img :=
  { i with
    threads := i.threads.map fun r => match b.threads.find? fun x => x.tag == r.tag with
      | some x => r.over x
      | none => r
    cores := i.cores.map fun c => match b.cores.find? fun x => x.core == c.core with
      | some x => c.over x
      | none => c
    allocs := i.allocs.map fun a => match b.allocs.find? fun x => x.quire == a.quire && x.first == a.first with
      | some x => a.over x
      | none => a }

/-- The image at an address with its chain of bases, of at most `n` images, and their addresses, the named one last; an error where
the chain is broken. -/
def State.readChain (s : State) (tsid : Nat) : Nat → Nat → Except (Option Nat) (Img × List Word)
  | 0, _ => .error none
  | n + 1, va => do
    let i ← s.readImage va
    if (i.head.getD 1 0).toNat % 2 ^ 16 ≠ tsid then .error none
    else if (i.head.getD 0 0).getLsbD 40 = false then pure (i, [BitVec.ofNat 64 va])
    else do
      let b ← s.readChain tsid n (i.head.getD 3 0).toNat
      pure (i.over b.1, b.2 ++ [BitVec.ofNat 64 va])

/-! ### Writing an image -/

/-- Slots that hold a thread of a set, ascending. -/
def State.setSlots (s : State) (tsid : Nat) : List Nat :=
  (s.slots.filter fun e => e.2.tsid == some tsid && decide (e.2.st ≠ .free)).map (·.1)

/-- Cores with something that the set owns, and the first tiles of its allocations by quire. -/
def State.setCores (s : State) (tsid : Nat) : List Nat := (s.cores.filter fun e => !(e.2.ownedBy tsid).isEmpty).map (·.1)
def State.setAllocs (s : State) (tsid : Nat) : List (Nat × Nat) := s.quires.flatMap fun e => (e.2.allocsOf [tsid]).map fun f => (e.1, f)

/-- The words of a set's image (R367); `old` are the tags that the base holds, none for a full image.
DESIGN CHOICE: log entry 9. -/
def State.imageWords (s : State) (tsid : Nat) (evict : Bool) (base : Word) (old : Option (List Nat)) : List Word :=
  let t := s.tset_ tsid
  let ks := s.setSlots tsid
  let cs := s.setCores tsid
  let as := s.setAllocs tsid
  let full := old.isNone
  let all := fun k => full || !((old.getD []).contains (s.slot k).tag.toNat)
  let body := ks.flatMap (fun k => s.threadWords k (all k))
    ++ cs.flatMap (fun c => (s.core c).section_ c tsid full)
    ++ as.flatMap fun a => s.allocSection a.1 a.2 full
  let w0 := 0x15A494D47 + (if full then 0 else 2 ^ 40) + if evict then 2 ^ 41 else 0
  let w1 := tsid % 2 ^ 16 + t.job % 2 ^ 16 * 2 ^ 16 + t.depth % 32 * 2 ^ 32 + t.prio % 4 * 2 ^ 37
  [BitVec.ofNat 64 w0, BitVec.ofNat 64 w1, BitVec.ofNat 64 (8 * (8 + body.length)), if full then 0 else base,
    BitVec.ofNat 64 (ks.length + cs.length * 2 ^ 18 + as.length * 2 ^ 28), s.cycWord, 0, 0] ++ body

end Sys2Proof.Machine
end

