-- ==== Sys2Proof/Machine/Ports.lean ====
section
/-! DEFINITION. The launch ports: launches, pre-emption, resumption, termination (R74, R348, R363 to R368, R396, R413, R414). -/

namespace Sys2Proof.Machine

/-! ### Launches (R74, R350, R413) -/

/-- A launch record at a harbour address, where it can be read. -/
def State.portRecord (s : State) (va : Word) : Except (Option Nat) (List Word) :=
  if va.toNat % 64 ≠ 0 ∨ 2 ^ 55 ≤ va.toNat ∨ inWindow va.toNat then .error none else s.imgWords va.toNat 8

/-- Field `n` bits wide at bit `lo` of a command word. -/
def portField (w : Word) (lo n : Nat) : Nat := w.toNat / 2 ^ lo % 2 ^ n

/-- Start the tasks of a ferry set in the slots 0 of its cores (R74). -/
def State.startFerries (s : State) (tsid : Nat) (cores : List Nat) : State :=
  ((List.range cores.length).zip cores).foldl (fun s p => s.startTask (256 * p.2) tsid p.1) s

/-- A launch from a port: its LAUNCH status and the state (R350, R413). -/
def State.portLaunch (s : State) (c : PortCmd) (ferry : Bool) : Word × State :=
  match s.portRecord c.w1 with
  | .error b => (launchFail 3, s.recordWalk b)
  | .ok r =>
    let l := launchRec r
    let cores := s.placedCores l.isles
    if launchBad r ferry || l.pvalid || decide (l.evQuire = 15) then (launchFail 3, s)
    else if cores.isEmpty || (ferry && cores.any fun k => decide ((s.slot (256 * k)).st ≠ .free)) then (launchFail 4, s)
    else
      let isles := (List.range 16).filter fun i => l.isles.getLsbD i
      match s.takeRecs isles with
      | none => (launchFail 1, s)
      | some recs =>
        let b : Launcher := {
          parent := none, quire := none, job := portField c.w0 16 16, space := portField c.w0 32 16,
          service := ferry || c.w0.getLsbD 4, ferry := ferry, cover := [] }
        let s := if c.w0.getLsbD 5 then isles.foldl (fun s i => s.dropCode i) s else s
        let (tsid, s) := s.createSet l b 1 (if l.depth = 0 then 24 else Nat.min 24 l.depth) recs
        let s := if ferry then
            (s.modSet tsid fun t => { t with sent := t.sent.set 0 cores.length }).startFerries tsid cores
          else s
        (BitVec.ofNat 64 (2 ^ 16 + tsid), s)

/-! ### Stopping and withdrawing (R365) -/

/-- What a slot has withdrawn is recorded for its re-issue, behind what was withdrawn before. DESIGN CHOICE: log entry 9. -/
def State.recordGone (s : State) (k : Nat) (ws : List Withdrawn) : State :=
  ({ s with serial := s.serial + 1 } : State).modSlot k fun t => { t with withdrawn := t.withdrawn ++ ws.map fun w => { w with seq := s.serial } }

/-- The moored references of a slot are withdrawn and recorded; the lists behind them are served. -/
def State.withdrawMoors (s : State) (k : Nat) : State :=
  let mine := fun (m : Moor) => decide (m.kind ≠ .park) && m.slot == k && decide (m.gen = (s.slot k).gen)
  let gone := s.moors.filter mine
  let s : State := { s with moors := s.moors.filter fun m => !mine m }
  let s := s.recordGone k (gone.map fun m => {
    kind := moorCode m.kind, va := m.va, data := m.data, reg := m.reg, record := [], folios := none, seq := 0 })
  gone.foldl (fun s m => (s.perform m.acc).serve m.home) s

/-- A matrix command as a record of R320. -/
def MxCmd.record (m : MxCmd) : List Word :=
  [BitVec.ofNat 64 (m.opcode.toNat + m.cmpl.toNat * 2 ^ 10 + m.low.toNat * 2 ^ 22), m.s1, m.s2, m.s3]

/-- The command that the array is held on: the one that it executes, or an MXA that waits for a row block of a load held on a
fault (R317). -/
def Core.heldA (c : Core) : Option MxCmd :=
  match c.array with
  | some r => if c.arrayHeld then some r.cmd else none
  | none =>
    match c.mxq with
    | m :: _ => if c.loaderHeld && decide (m.opcode = 0x166) && !c.wsArrived m then some m else none
    | [] => none

/-- An MXA reads what load `l` brings: no later command before it writes its slot (R308). -/
def Core.dependsOn (c : Core) (l m : MxCmd) : Bool :=
  decide (m.opcode = 0x166) && l.loads m.slotNo && decide (l.no < m.no)
    && !(c.ldq.any fun x => x.loads m.slotNo && decide (l.no < x.no ∧ x.no < m.no))

/-- The load that the loader is held on, where it can be withdrawn with every MXA that reads what it brings: all satisfy `q`, and
none is being executed. -/
def Core.heldL (c : Core) (q : MxCmd → Bool) : Option MxCmd :=
  match c.loader with
  | some r =>
    let l := r.cmd
    let ran := fun (x : MxRun) => c.dependsOn l x.cmd && decide (x.ended = none) && !(c.arrayHeld && q x.cmd)
    if c.loaderHeld && q l && (c.mxq.all fun m => !c.dependsOn l m || q m) && !c.array.any ran then some l else none
  | none => none

/-- Put in by rising key, before what has the same. -/
def insertBy {α : Type} (key : α → Nat) (a : α) : List α → List α
  | [] => [a]
  | b :: l => if key a ≤ key b then a :: b :: l else b :: insertBy key a l

/-- A list in rising order of a key; what has the same key stays in order. -/
def sortBy {α : Type} (key : α → Nat) (l : List α) : List α := l.foldr (insertBy key) []

/-- The commands of a core that are withdrawn, in the order of their acceptance, of those that satisfy `q`: the ones held on a fault,
and what was accepted after the first of them and has not begun, so that no command overtakes an earlier one. DESIGN CHOICE: log
entry 9. DESIGN CHOICE: log entry 9. -/
def Core.toWithdraw (c : Core) (q : MxCmd → Bool) : List MxCmd :=
  let held := sortBy (·.no) ((c.heldA.filter q).toList ++ (c.heldL q).toList)
  match held with
  | [] => []
  | h :: _ => sortBy (·.no) (held ++ (c.mxq ++ c.ldq).filter fun m => q m && decide (h.no < m.no) && !held.contains m)

/-- Commands are taken out of a core; their accumulators are as before them, and the slot of a load that had begun is INVALID
(R317, R365). -/
def Core.takeOut (c : Core) (gone : List MxCmd) : Core :=
  let out := fun (m : MxCmd) => gone.any fun x => x.no == m.no
  let c := match c.loader with
    | some r => if out r.cmd then { c.setWs r.cmd.slotNo WSlot.init with loader := none, loaderHeld := false } else c
    | none => c
  let c := if (c.array.map (·.cmd)).any out then { c with array := none, arrayHeld := false } else c
  let c := { c with mxq := c.mxq.filter fun m => !out m, ldq := c.ldq.filter fun m => !out m }
  (List.range 8).foldl (fun c n => c.settleAcc n) c

/-- A command comes from a slot of the set that is stopped. -/
def State.stoppedCmd (s : State) (tsid : Nat) (m : MxCmd) : Bool :=
  (s.setSlots tsid).any fun k => decide ((s.slot k).st = .closing .preempt) && m.ofSlot k (s.slot k).gen

/-- Matrix commands of a set that are held on a fault are withdrawn from a core, and recorded at their slots. -/
def State.withdrawMx (s : State) (tsid core : Nat) : State :=
  let gone := (s.core core).toWithdraw (s.stoppedCmd tsid)
  if gone.isEmpty then s
  else
    let s := s.modCore core fun c => c.takeOut gone
    let s := gone.foldl (fun s m => match m.src with
      | .own k _ => (s.perform m.acc).recordGone k [{
          kind := 4, va := 0, data := 0, reg := 0, record := m.record, folios := some (m.fa, m.fb), seq := 0 }]
      | .sent _ _ _ => s) s
    s.keepParked s.parkedLives

/-- A wait of BAR, EVWAIT or TWAIT without a status is undone: the instruction is void. -/
def Slot.unstall (t : Slot) : Slot :=
  if stallDone t.stall then t else match t.stall with
    | .none => t
    | _ => { t with stall := .none, wait := .none }

/-- A slot that goes on for a while when it is stopped: in a handler until it returns, with the status of a BAR, EVWAIT or TWAIT
until it has taken it, with a leaf that it resumes until it has read it. -/
def Slot.finishing (t : Slot) : Bool := t.inh || stallDone t.stall || t.reading.isSome

/-- Stop one slot, which is CLOSING then with its rest ended, and withdraw what it has moored, held or arrived at; one that is
CLOSING already completes its EXIT, FOLD or PARK first (R73, R365). -/
def State.stopSlot (s : State) (k : Nat) : State :=
  if isClosing (s.slot k).st then s
  else if (s.slot k).finishing then s.modSlot k fun t => { t with stopped := true }
  else
    let bars := (s.bars.map fun b => { b with arrived := b.arrived.filter (· ≠ k) }).filter fun b => !b.arrived.isEmpty
    let s := { s with bars := bars }.modSlot k fun t => { t.unstall with stopped := true, st := .closing .preempt }
    (s.sealSlot k).withdrawMoors k

/-- Steps 1 and 2 for a set (R365); again, they act on what has changed since. -/
def State.stopSet (s : State) (tsid : Nat) : State :=
  ((s.setSlots tsid).map coreOf).eraseDups.foldl (fun s c => s.withdrawMx tsid c) ((s.setSlots tsid).foldl (fun s k => s.stopSlot k) s)

/-! ### Draining (R365) -/

/-- Registers of a slot that a withdrawn reference will fill. -/
def Slot.withdrawnRegs (t : Slot) : List Nat := (t.withdrawn.filter fun w => decide (w.kind < 4)).map (·.reg)

/-- The slot has a copy queued or in progress. -/
def State.copiesOf (s : State) (k : Nat) : Bool :=
  s.quires.any fun e => (e.2.copyq ++ e.2.running).any fun c => c.slot == k && decide (c.gen = (s.slot k).gen)

/-- A slot has drained. -/
def State.slotDrained (s : State) (k : Nat) : Bool :=
  let t := s.slot k
  decide (t.st = .closing .preempt) && decide (t.redcnt = 0) && !s.fencesPending k && t.fills.isEmpty
    && (List.range 102).all (fun j => !s.replyAt k j || t.withdrawnRegs.contains j)
    && (s.accsIn k 31).isEmpty && !s.copiesOf k && (s.mxMine k).isEmpty
    && !(s.mxMsgs.any fun m => m.slot == k && decide (m.gen = t.gen))
    && !(s.pgq.any fun m => m.slot == k && decide (m.gen = t.gen))
    && decide (s.cover k ≠ .waits)

/-- A tile of the set's allocations holds a word with W = 1. -/
def State.watchedTiles (s : State) (tsid : Nat) : Bool :=
  s.moors.any fun m => isSp m.home &&
    (let t := tileOf (s.quire (spQuire m.home)) (spOff m.home / 4096)
     t.alloc && t.tsid == tsid)

/-- A set has drained. -/
def State.drained (s : State) (tsid : Nat) (evict : Bool) : Bool :=
  (s.setSlots tsid).all (fun k => s.slotDrained k) && !(evict && s.watchedTiles tsid)

/-! ### Going on (R365, R368) -/

/-- The number by which an instruction names the x register of index `j` through the window, 0 where none does. -/
def Slot.numberOf (t : Slot) (j : Nat) : Nat := (((List.range 31).map (· + 1)).find? fun n => xIndex t.wstate n == j).getD 0

/-- A withdrawn command is accepted again, with the copies of its folios that it had. Without them the table's are taken and checked
(R297), and a command that fails the check ends in error. DESIGN CHOICE: log entry 9. -/
def State.resendMx (s : State) (k : Nat) (w : Withdrawn) : State :=
  let t := s.slot k
  let tsid := t.tsid.getD 0
  let (id, u) := s.newAcc k setE [] false
  let msg : MxMsg := { core := coreOf k, key := 0, slot := k, gen := t.gen, dst := .none, acc := id, tsid := tsid, rec_ := w.record }
  let m := { msg.cmd u with src := .own k t.gen }
  match w.folios with
  | some (a, b) => u.mxAccept (coreOf k) { m with fa := a, fb := b } tsid
  | none =>
    if m.detail.isNone then u.mxAccept (coreOf k) m tsid
    else ({ u with draws := u.draws + 1 } : State).mxReport m (1 + (Config.freeWord u.draws).toNat % 5)

/-- Re-send a withdrawn reference of a slot. -/
def State.resendOne (s : State) (k : Nat) (w : Withdrawn) : State :=
  let t := s.slot k
  let send := fun (sets : BitVec 5) (op : RefOp) =>
    let (id, u) := s.newAcc k sets [vaSpan w.va.toNat 8] false
    let r : Ref := {
      id := id, slot := k, gen := t.gen, tsid := t.tsid.getD 0, num := t.numberOf w.reg, job := (s.slotSet k).job
      space := (s.slotSet k).space, va := w.va, isle := isleOf (coreOf k), home := unplaced, dst := .reg w.reg, op := op
      limit := t.waitlim.toNat, counted := false }
    { u with refs := u.refs ++ [r] }
  match w.kind with
  | 0 => send setL .ldf
  | 1 => send setL .ldfe
  | 2 => send setS (.stef w.data)
  | _ => s.resendMx k w

/-- Re-send the withdrawn references of slots in the order in which they were withdrawn (R365, R368). -/
def State.resendAllOf (s : State) (ws : List (Nat × Withdrawn)) : State :=
  (sortBy (·.2.seq) ws).foldl (fun s p => s.resendOne p.1 p.2) s

/-- The slots of a set go on where they stand (R365). -/
def State.setGoesOn (s : State) (tsid : Nat) : State :=
  let ks := s.setSlots tsid
  let ws := ks.flatMap fun k => (s.slot k).withdrawn.map fun w => (k, w)
  let s := ks.foldl (fun s k => s.modSlot k fun t => { t with
    stopped := false, st := if t.st = .closing .preempt then .active else t.st, withdrawn := [] }) s
  (s.resendAllOf ws).modSet tsid fun t => { t with st := .live, preempt := none }

/-! ### Writing an image (R365, R366) -/

/-- Clear the dirty bits of what a set has. -/
def State.clean (s : State) (tsid : Nat) : State :=
  let s := (s.setSlots tsid).foldl (fun s k => s.modSlot k fun t => { t with dirty := 0, vdirty := 0 }) s
  let s := s.cores.foldl (fun s e => s.modCore e.1 fun c => { c with
    mxDirty := c.mxDirty.filter fun n => !(c.ownedBy tsid).contains n }) s
  s.quires.foldl (fun s e => s.modQuire e.1 fun q => { q with
    tiles := q.tiles.map fun t => (t.1, if t.2.alloc ∧ t.2.tsid = tsid then { t.2 with dirty := false } else t.2) }) s

/-- Thread tags of the base of an incremental image; none for a full image. -/
def State.baseTags (s : State) (base : Word) : Option (List Nat) :=
  if base = 0 then none
  else some (match s.readImage base.toNat with
    | .ok i => i.threads.map (·.tag)
    | .error _ => [])

/-- Write a set's image into its buffer: its length, and an error where the buffer cannot take it or a tile cannot be read.
DESIGN CHOICE: log entry 9. -/
def State.putImage (s : State) (tsid : Nat) (p : Preempt) : Nat × Except (Option Nat) State :=
  let tags := s.baseTags p.base
  let ws := s.imageWords tsid p.evict p.base tags
  let n := 8 * ws.length
  if (s.setAllocs tsid).any fun a => s.allocBroken a.1 a.2 tags.isNone then (n, .error (some 0))
  else if p.image.toNat % 4096 ≠ 0 ∨ 2 ^ 55 ≤ p.image.toNat ∨ inWindow p.image.toNat ∨ p.len.toNat < n then (n, .error none)
  else (n, State.imgWrite p.image.toNat (ws.flatMap fun w => bytesOf 8 w.toNat) (n / 4096 + 1) s)

/-- What an evicted set holds is freed; what its image has no place for is kept with the set (R365). -/
def State.release (s : State) (tsid : Nat) : State :=
  let ks := s.setSlots tsid
  let ts := s.quires.flatMap fun e =>
    (e.2.tiles.filter fun t => t.2.alloc && t.2.tsid == tsid).map fun t => (e.1, t.1, t.2)
  let s := s.modSet tsid fun t => { t with
    st := .folded, preempt := none, folded := ks.map s.slot, foldedT := ts }
  let s := ks.foldl (fun s k => s.modCore (coreOf k) fun c => { c with
    inbox := c.inbox.filter fun w => targetSlot w.target ≠ slotNo k }) s
  let s : State := { s with
    codeFills := s.codeFills.filter fun f => !ks.contains f.slot
    walks := s.walks.filter fun w => !ks.contains w.slot }
  let s := s.keepParked fun p => match p with
    | .fetch f => !ks.contains f.slot
    | _ => true
  let s := ks.foldl (fun s k => s.freeSlot k) s
  let s := s.cores.foldl (fun s e => s.modCore e.1 fun c =>
    let own := c.ownedBy tsid
    let c := own.foldl (fun c n => if n < 8 then c.setAcc n .dead else c.setWs (n - 8) WSlot.init) c
    { c with owner := c.owner.filter fun o => o.2 ≠ tsid, mxDirty := c.mxDirty.filter fun n => !own.contains n }) s
  s.dropAllocs [tsid]

/-- Steps 4 and 5 of a drained pre-emption (R365). -/
def State.finishPreempt (s : State) (tsid : Nat) (p : Preempt) : State :=
  match s.putImage tsid p with
  | (n, .error b) => ((s.recordWalk b).setGoesOn tsid).portEnd p.port p.seq (BitVec.ofNat 64 (2 + n * 2 ^ 8))
  | (_, .ok u) =>
    let u := (u.clean tsid).modSet tsid fun t => { t with
      images := if p.base = 0 then [p.image] else t.images ++ [p.image] }
    (if p.evict then u.release tsid else u.setGoesOn tsid).portEnd p.port p.seq 0

/-- PREEMPT_DRAIN_END (R365): what has drained since is withdrawn; then the image is written. -/
def execPreemptDrainEnd (tsid : Nat) (s : State) : Host.Outcome State Fault Refusal :=
  .next (match (s.tset_ tsid).preempt with
    | some p =>
      let s := s.stopSet tsid
      if s.drained tsid p.evict then s.finishPreempt tsid p else s
    | none => s)

/-- PREEMPT_DEADLINE (R364, R365): the slots resume in place with status 1. -/
def execPreemptDeadline (tsid : Nat) (s : State) : Host.Outcome State Fault Refusal :=
  .next (match (s.tset_ tsid).preempt with
    | some p => if s.due p.deadline then (s.setGoesOn tsid).portEnd p.port p.seq 1 else s
    | none => s)

/-- SNAP or EVICT from acceptance to the start of its drain (R364, R365). DESIGN CHOICE: log entry 9. -/
def State.startPreempt (s : State) (port : Nat) (c : PortCmd) (evict : Bool) : State :=
  let tsid := portField c.w1 0 16
  let s := s.journalAdd (if evict then 3 else 2) tsid 0
  let t := s.tset_ tsid
  if !s.hasSet tsid || decide (t.st ≠ .live) || t.preempt.isSome then s.portEnd port s.jseq 4
  else if c.w4 ≠ 0 ∧ (t.images.getLast? ≠ some c.w4 ∨ 16 ≤ t.images.length) then s.portEnd port s.jseq 3
  else
    let p : Preempt := { port := port, evict := evict, image := c.w2, len := c.w3, base := c.w4, deadline := c.w5, seq := s.jseq }
    (s.modSet tsid fun t => { t with st := .stopping, preempt := some p }).stopSet tsid

/-! ### Resumption (R148, R368) -/

/-- FREE slots for thread records, each on the core that it was taken from. -/
def State.claimSlots (s : State) (ferry : Bool) : List ThreadRec → List Nat → Option (List Nat)
  | [], _ => some []
  | r :: rs, taken =>
    let base := 256 * coreOf r.from_
    let ok := fun n => decide ((s.slot (base + n)).st = .free) && !taken.contains (base + n) && decide (ferry = decide (n = 0))
    match leastFrom ok 256 0 with
    | none => none
    | some n => (s.claimSlots ferry rs ((base + n) :: taken)).map ((base + n) :: ·)

/-- EMPTY registers that the transforms of a record name, each with a fresh identifier to draw. -/
def ThreadRec.bound (r : ThreadRec) : List Nat := (r.tr.map fun e => (e.getD 0 0).toNat / 256 % 128).eraseDups

/-- The lowest identifiers that a core has free. -/
def Core.freeCws (c : Core) (n : Nat) : List Nat := ((List.range 512).filter fun i => !c.cwUsed.contains i).take n

/-- The cores that an image names. -/
def Img.coreList (i : Img) : List Nat := i.threads.map (fun r => coreOf r.from_) ++ i.cores.map (·.core)

/-- Everything that an image claims on its cores and quires is free. -/
def State.claimable (s : State) (i : Img) : Bool :=
  i.allocs.all (fun a => (List.range a.count).all fun n => (s.quire a.quire).tileFree (a.first + n))
    && i.cores.all (fun c =>
      let own := bitList 8 c.accs ++ (bitList 64 c.ws).map fun n => 8 + n
      own.all fun n => !((s.core c.core).owner.any fun o => o.1 == n && s.hasSet o.2) && !isPending ((s.core c.core).acc n))
    && i.coreList.all fun c =>
      decide (((i.threads.filter fun r => coreOf r.from_ == c).map fun r => r.bound.length).sum + (s.core c).cwUsed.length ≤ 512)

/-- A recorded step from its 32 bits (R367); its operand is the restored register. -/
def stepOf (n : Nat) (val : Nat → BitVec 4096) : VStep where
  opcode := BitVec.ofNat 10 n
  second := n.testBit 10
  fmt := Fmt.ofCode (BitVec.ofNat 4 (n / 2 ^ 11))
  rm := Rnd.ofCode (BitVec.ofNat 2 (n / 2 ^ 15))
  reg := n / 2 ^ 17 % 16
  val := val (n / 2 ^ 17 % 16)

/-- The slot of a thread record: `old` is what the set kept of it, `ids` the identifiers drawn for its bindings. -/
def ThreadRec.slot (r : ThreadRec) (old : Slot) (ids : List Nat) (tsid : Nat) (gen : BitVec 8) (lastSel : Nat) : Slot :=
  let w := fun i => r.w.getD i 0
  let idOf := fun j => (r.bound.zip ids).lookup j
  let wregs := (r.wd.filter fun x => decide (x.kind < 4)).map (·.reg)
  let code := fun j => wordsNat [w 13, w 14, w 15] / 4 ^ j % 4
  let marks := fun (j : Nat) (drop fatal : Bool) => ({ reply := wregs.contains j, drop := drop, fatal := fatal, cw := idOf j } : Marks)
  let tr := fun (j : Nat) => r.tr.find? fun e => (e.getD 0 0).toNat % 128 == j
  let drops := fun (j : Nat) => if j < 79 then (match old.xCell j with
      | .empty m => (m.drop, m.fatal)
      | _ => (false, false))
    else if j < 86 then (match old.pCell (j - 78) with
      | .empty m => (m.drop, m.fatal)
      | _ => (false, false))
    else match old.vCell (j - 86) with
      | .empty m => (m.drop, m.fatal)
      | _ => (false, false)
  let src := fun (e : List Word) => (idOf ((e.getD 0 0).toNat / 256 % 128)).getD 0
  let x := fun (j : Nat) => match code j with
    | 0 => (.full (w (18 + j)) : XCell)
    | 1 => .empty (marks j (drops j).1 (drops j).2)
    | 2 => (match tr j with
      | some e => .catching (src e) (e.getD 1 0, e.getD 2 0)
      | none => .dead)
    | _ => .dead
  let p := fun (j : Nat) => match code j with
    | 0 => (.full (decide (w (18 + j) ≠ 0)) : PCell)
    | 1 => .empty (marks j (drops j).1 (drops j).2)
    | _ => .dead
  let vval := fun (n : Nat) => BitVec.ofNat 4096 (wordsNat ((r.vec.drop (8 + 64 * n)).take 64))
  let v := fun (n : Nat) => match (r.vec.getD 0 (-1)).toNat / 4 ^ n % 4 with
    | 0 => (.full (vval n) : VCell)
    | 1 => .empty (marks (86 + n) (drops (86 + n)).1 (drops (86 + n)).2)
    | 2 => (match tr (86 + n) with
      | some e => .catching (src e) ((List.range ((e.getD 0 0).toNat / 2 ^ 16 % 8)).map fun i =>
          stepOf ((e.getD (1 + i / 2) 0).toNat / 2 ^ (32 * (i % 2)) % 2 ^ 32) vval)
      | none => .dead)
    | _ => .dead
  { old with
    st := .active, pc := w 1, xlo := (List.range 7).map x, win := (List.range 72).map fun j => x (7 + j)
    p := (List.range 7).map fun n => p (79 + n), v := (List.range 16).map v
    lease := if (w 0).getLsbD 32 then some 16 else none
    wstate := w 2, spillp := w 3, mdest := w 4, waitlim := w 5, deadmode := w 6, wrec := w 7, grec := w 8, tctl := w 9
    rfva := w 10, rfst := w 11, gen := gen, baseCls := (w 12).toNat / 2 ^ 28 % 4, cls := (w 12).toNat / 2 ^ 28 % 4, age := 0
    lastSel := lastSel, wait := .none, stall := .none, tsid := some tsid, tag := BitVec.ofNat 32 r.tag
    epc := 0, ecause := 0, eval := 0, estat := 0, tsave := [0, 0, 0, 0]
    dirty := 0, vdirty := 0, withdrawn := [], stopped := false }

/-- Elements on their way from a slot's old generation are those of its new one, for its covering point (R365). -/
def ShElem.rename (old : Nat) (og : BitVec 8) (new : Nat) (ng : BitVec 8) (e : ShElem) : ShElem :=
  if e.slot = old ∧ e.gen = og then { e with slot := new, gen := ng } else e

def OutPkt.renamed (f : ShElem → ShElem) (p : OutPkt) : OutPkt := { p with shadow := p.shadow.map f }

def State.renameElems (s : State) (f : ShElem → ShElem) : State :=
  let s : State := { s with
    elemsOut := s.elemsOut.map fun e => (e.1, f e.2.1, e.2.2)
    statusIn := s.statusIn.map fun e => (f e.1, e.2)
    conns := s.conns.map fun (c : Conn) => { c with
      queue := c.queue.map fun p => p.renamed f
      replay := c.replay.map fun (x : OutFrame) => { x with pkts := x.pkts.map fun p => p.renamed f } } }
  s.isles.foldl (fun s e => s.modIsle e.1 fun i => { i with
    gbufs := i.gbufs.map fun b => { b with els := b.els.map f }
    gwait := i.gwait.map fun e => (f e.1, e.2) }) s

/-- What the set kept of a thread that an image names. -/
def keptSlot (kept : List Slot) (r : ThreadRec) : Slot := (kept.find? fun t => t.tag.toNat == r.tag).getD Slot.init

/-- Restore one thread into slot `k`. -/
def State.restoreThread (s : State) (tsid : Nat) (kept : List Slot) (r : ThreadRec) (k : Nat) : State :=
  let old := keptSlot kept r
  let gen := (s.slot k).gen + 1
  let ids := (s.core (coreOf k)).freeCws r.bound.length
  let box := r.box.map fun e => ({
    target := ownName k gen, tag := (e.getD 1 0).toNat % 4, data := e.getD 0 0, sender := (e.getD 1 0).toNat / 4 % 1024,
    reason := 0 } : MeshWord)
  let s := s.modCore (coreOf k) fun c => { c with cwUsed := ids ++ c.cwUsed, inbox := c.inbox ++ box }
  let s := s.setSlot k (r.slot old ids tsid gen (s.slot k).lastSel)
  s.renameElems (ShElem.rename r.from_ (BitVec.ofNat 8 ((r.w.getD 12 0).toNat / 4)) k gen)

/-- Restore a tile: owner and phase, data and F; its claim clears errors as an allocation does (R417).
DESIGN CHOICE: log entry 9. -/
def State.restoreTile (s : State) (tsid : Nat) (a : AllocSec) (kept : List (Nat × Nat × Tile)) (i : Nat)
    (t : Nat × Option (List Word × Nat)) : State :=
  let n := a.first + i
  let base := ((kept.find? fun e => e.1 == a.quire && e.2.1 == n).map (·.2.2)).getD Tile.init
  let tile : Tile := { base with
    first := a.first, alloc := true, guard := i + 1 == a.count, key := a.key, gd := guardBits a.granules i, granules := a.granules
    tsid := tsid, engine := t.1.testBit 0, phase := t.1.testBit 1, inq := false, zeroing := false, dirty := false }
  let home := spHome a.quire (4096 * n)
  let putF := fun (s : State) (f j : Nat) => ({ s with fulls := tset false s.fulls (home / 8 + j) (f.testBit j) } : State)
  let s := match t.2 with
    | some (ws, f) => (List.range 512).foldl (fun s j => putF s f j) (s.writeWords home ws)
    | none => s
  (s.mendTiles a.quire n 1).modQuire a.quire fun q => q.setTile n tile

/-- Restore a core's accumulators and weight slots. -/
def State.restoreCore (s : State) (tsid : Nat) (c : CoreSec) : State :=
  s.modCore c.core fun u =>
    let accs := bitList 8 c.accs
    let ws := bitList 64 c.ws
    let u := accs.foldl (fun u n => { u with
      accs := u.accs.set n (.full ())
      accv := u.accv.set n (BitVec.ofNat 32768 ((c.vals.lookup n).getD 0)) }) u
    let u := ws.foldl (fun u n => u.setWs n ((c.wvals.lookup n).getD WSlot.init)) u
    let own := accs ++ ws.map fun n => 8 + n
    { u with
      owner := own.map (fun n => (n, tsid)) ++ u.owner.filter fun o => !own.contains o.1
      mxDirty := u.mxDirty.filter fun n => !own.contains n }

/-- The withdrawn references of a thread record, with what the set kept of each: the image has no place for it (R367).
DESIGN CHOICE: log entry 9. -/
def ThreadRec.withdrawn (r : ThreadRec) (kept : List Slot) : List Withdrawn :=
  ((List.range r.wd.length).zip r.wd).map fun x => match (keptSlot kept r).withdrawn[x.1]? with
    | some w => if w.kind = x.2.kind ∧ w.record = x.2.record then { x.2 with folios := w.folios, seq := w.seq } else x.2
    | none => x.2

/-- Restore a folded set from its image into the given slots (R368). DESIGN CHOICE: log entry 9. -/
def State.restoreSet (s : State) (tsid : Nat) (i : Img) (ks : List Nat) (chain : List Word) : State :=
  let t := s.tset_ tsid
  let s := i.allocs.foldl (fun s a => ((List.range a.tiles.length).zip a.tiles).foldl (fun s x =>
    s.restoreTile tsid a t.foldedT x.1 x.2) s) s
  let s := i.cores.foldl (fun s c => s.restoreCore tsid c) s
  let s := (i.threads.zip ks).foldl (fun s x => s.restoreThread tsid t.folded x.1 x.2) s
  let s := s.modSet tsid fun u => { u with st := .live, images := chain, folded := [], foldedT := [] }
  s.resendAllOf ((i.threads.zip ks).flatMap fun x => (x.1.withdrawn t.folded).map fun w => (x.2, w))

/-- An accepted resumption with its journal sequence (R368): none while what it claims is not free. -/
def State.portResume (s : State) (port : Nat) (c : PortCmd) (seq : Nat) : Option State :=
  let tsid := portField c.w1 0 16
  let t := s.tset_ tsid
  let end_ := fun (s : State) (st : Word) => some (s.portEnd port seq st)
  if !s.hasSet tsid || decide (t.st ≠ .folded) then end_ s 4
  else match s.readChain tsid 16 c.w2.toNat with
    | .error b => end_ (s.recordWalk b) 3
    | .ok (i, chain) =>
      if i.coreList.any fun k => !s.placeable k then end_ s 5
      else if !s.claimable i then none
      else match s.claimSlots t.ferry i.threads [] with
        | none => none
        | some ks => end_ (s.restoreSet tsid i ks chain) 0

/-! ### Commands of the ports (R413) -/

/-- The operation that a command block names. -/
def portOp (c : PortCmd) : Nat := portField c.w0 0 4

/-- A launch from acceptance to its status. -/
def State.launchFrom (s : State) (port : Nat) (c : PortCmd) (ferry : Bool) : State :=
  let s := s.journalAdd 1 port 0
  let (st, u) := s.portLaunch c ferry
  u.portEnd port s.jseq st

/-- A command is accepted, and performed or under way; a resumption waits for what it claims. -/
def State.portRun (s : State) (port : Nat) (c : PortCmd) : State :=
  match portOp c with
  | 0 => s.launchFrom port c false
  | 1 => s.startPreempt port c false
  | 2 => s.startPreempt port c true
  | 3 =>
    let s := s.journalAdd 4 (portField c.w1 0 16) 0
    (s.portResume port c s.jseq).getD { s with portWait := s.portWait ++ [(port, c, s.jseq)] }
  | 4 =>
    let tsid := portField c.w1 0 16
    let s := s.journalAdd 5 tsid 0
    let (st, u) := s.abortSet none tsid c.w2
    u.portEnd port s.jseq st
  | 5 => s.launchFrom port c true
  | _ => { s with ports := tset 0 s.ports (8 * port + 7) 0x80000000000000FF#64 }

/-- A port takes a command: it is one of the 16 (R13), the device runs, and no command of the port is under way. -/
def State.portFree (s : State) (port : Nat) : Bool :=
  decide (s.phase = .up) && decide (port < 16) && !(s.portWait.any fun p => p.1 == port) && !(s.portHeld.any fun p => p.1 == port)
    && !(s.sets.any fun e => e.2.preempt.any fun p => p.port == port)

/-- The command block of a port as the harbour has written it. -/
def State.writePort (s : State) (port : Nat) (c : PortCmd) : State :=
  let ws := [c.w0, c.w1, c.w2, c.w3, c.w4, c.w5, 0, 1]
  { s with ports := (List.range 8).foldl (fun p i => tset 0 p (8 * port + i) (ws.getD i 0)) s.ports }

/-- A command of a port whose operation is one of an event row's; it waits while a checkpoint runs (R415).
DESIGN CHOICE: log entry 9. -/
def State.portCmd (s : State) (port : Nat) (c : PortCmd) (ops : Nat → Bool) : Host.Outcome State Fault Refusal :=
  .next (if s.portFree port && ops (portOp c) then
    if s.checkpointing.isSome then { s.writePort port c with portHeld := s.portHeld ++ [(port, c)] }
    else (s.writePort port c).portRun port c
  else s)

/-- LAUNCH_PORT_LAUNCH (R413): operation 0, and the reserved ones, which end with status 0xFF. -/
def execLaunchPortLaunch (port : Nat) (c : PortCmd) (s : State) : Host.Outcome State Fault Refusal :=
  s.portCmd port c fun n => n == 0 || decide (6 ≤ n)
/-- FERRY_LAUNCH (R74, R413). -/
def execFerryLaunch (port : Nat) (c : PortCmd) (s : State) : Host.Outcome State Fault Refusal := s.portCmd port c (· == 5)
/-- SNAP (R364 to R366). -/
def execSnap (port : Nat) (c : PortCmd) (s : State) : Host.Outcome State Fault Refusal := s.portCmd port c (· == 1)
/-- EVICT (R364 to R366). -/
def execEvict (port : Nat) (c : PortCmd) (s : State) : Host.Outcome State Fault Refusal := s.portCmd port c (· == 2)
/-- RESUME (R148, R368): accepted, or one that waits goes on. -/
def execResume (port : Nat) (c : PortCmd) (s : State) : Host.Outcome State Fault Refusal :=
  match (if s.checkpointing.isNone && decide (s.phase = .up) then s.portWait.find? fun p => p.1 == port && p.2.1 == c else none) with
  | some p => .next (({ s with portWait := s.portWait.filter (· ≠ p) }.portResume port c p.2.2).getD s)
  | none => s.portCmd port c (· == 3)
/-- TERMINATE (R396, R413). -/
def execTerminate (port : Nat) (c : PortCmd) (s : State) : Host.Outcome State Fault Refusal := s.portCmd port c (· == 4)

/-- The commands that have waited for a checkpoint are accepted in the order in which they came (R415). -/
def State.runWaiting (s : State) : State :=
  s.portHeld.foldl (fun s p => s.portRun p.1 p.2) { s with portHeld := [] }

end Sys2Proof.Machine
end

