-- ==== Sys2Proof/Machine/Device.lean ====
section
/-! DEFINITION. The device: the start sequence and its progress record, measurement and attestation, the management port, the
checkpoint, heat, cores that fail (R406 to R418). -/

namespace Sys2Proof.Machine

/-! ### The progress record (R408) -/

/-- Generation of a copy. -/
def recGen (w : Word) : Nat := w.toNat / 2 ^ 32 % 2 ^ 16

/-- The CRC-32C of a record. -/
def recCrc (w : Word) : BitVec 32 := BitVec.ofNat 32 (crc32c (bytesOf 8 w.toNat))

/-- A copy as far as it is valid. -/
def State.startCopy (s : State) (i : Nat) : Option Word :=
  let c := s.startrec.getD i (0, 0)
  if c.2 = recCrc c.1 then some c.1 else none

/-- The governing copy and its contents; with no valid copy, copy 0 as if it held 0. DESIGN CHOICE: log entry 10. -/
def State.governing (s : State) : Nat × Word :=
  match s.startCopy 0, s.startCopy 1 with
  | some a, some b =>
    let d := (recGen b + 2 ^ 16 - recGen a) % 2 ^ 16
    if 1 ≤ d ∧ d ≤ 32767 then (1, b) else (0, a)
  | some a, none => (0, a)
  | none, some b => (1, b)
  | none, none => (0, 0)

/-- The word that programs of the device read as STARTREC. -/
def State.startWord (s : State) : Word := s.governing.2

/-- Write the record with its CRC to the other copy, its generation one above the governing one; `w` gives every other field. -/
def State.putStart (s : State) (w : Word) : State :=
  let (i, g) := s.governing
  let n := w.toNat - recGen w * 2 ^ 32 + (recGen g + 1) % 2 ^ 16 * 2 ^ 32
  { s with startrec := s.startrec.set (1 - i) (BitVec.ofNat 64 n, recCrc (BitVec.ofNat 64 n)) }

/-- A power loss during a write left something else in the other copy. -/
def State.tornStart (s : State) (torn : Option (Word × BitVec 32)) : State :=
  match torn with
  | some c => { s with startrec := s.startrec.set (1 - s.governing.1) c }
  | none => s

/-- State of step `i` in a record: 0 not run, 1 started, 2 done, 3 failed. -/
def stepState (w : Word) (i : Nat) : Nat := w.toNat / 4 ^ i % 4

/-- Set step `i` to state `v`, and its `alt` bit when it ran its alternate. -/
def State.markStep (s : State) (i v : Nat) (alt : Bool) : State :=
  let w := s.startWord.toNat
  let w := w - w / 4 ^ i % 4 * 4 ^ i + v * 4 ^ i
  let w := if alt && !w.testBit (16 + i) then w + 2 ^ (16 + i) else w
  s.putStart (BitVec.ofNat 64 w)

/-! ### Measurement (R410) -/

/-- A digest is logged and the register extended. -/
def State.measure (s : State) (e : MeasEntry) : State :=
  { s with
    measLog := s.measLog ++ [e]
    measM := sha384 (digestBytes s.measM ++ digestBytes e.digest) }

/-- The SHA-384 digest of an image's header and payload (R409). -/
def imageDigest (m : BootImage) : BitVec 384 := sha384 (m.header ++ m.payload)

/-- An image is accepted (R409): both keys have the fused hashes, both signatures verify, and the version is not below the
anti-rollback counter. -/
def imageAccepted (m : BootImage) : Bool :=
  decide (sha384 m.edKey = Config.fusedEd25519) && decide (sha384 m.mlKey = Config.fusedMlDsa)
    && Config.verifyEd25519 m.edKey (imageDigest m) m.edSig && Config.verifyMlDsa m.mlKey (imageDigest m) m.mlSig
    && decide (Config.fusedVersion ≤ m.version)

/-- The accepted image that a step has in a slot. -/
def bootLoads (b : BootFinds) (step slot : Nat) : Option BootImage :=
  b.images.find? fun m => m.step == step && m.slot == slot && imageAccepted m

/-- The slots whose images a step has tried, A before B. -/
def triedSlots (prev alt : Bool) : List Nat := (if prev then [] else [0]) ++ if alt then [1] else []

/-- The images that a step has accepted and the configuration blocks that it has read are measured (R410).
DESIGN CHOICE: log entry 10. -/
def State.measureStep (s : State) (i : Nat) (b : BootFinds) (tried : List Nat) : State :=
  let s := (tried.filterMap (bootLoads b i)).foldl (fun s m =>
    s.measure { step := i, slot := m.slot, version := m.version, digest := imageDigest m }) s
  (b.blocks.filter fun m => m.step == i).foldl (fun s m =>
    s.measure { step := i, slot := m.slot, version := m.version, digest := sha384 m.bytes }) s

/-! ### The start sequence (R406, R407) -/

/-- Step 2: isles whose DRAM does not train are left unused, and their cores excluded. -/
def State.trainDram (s : State) (b : BootFinds) : State :=
  let dead := (List.range 16).filter b.deadIsles.contains
  if dead.isEmpty then s
  else
    let mask := BitVec.ofNat 16 (dead.map fun i => 2 ^ i).sum
    let s := (List.range 16).foldl (fun s i => s.modIsle i fun t => { t with deadIsles := mask, nospread := true }) s
    (List.range 768).foldl (fun s c => if dead.contains (isleOf c) then s.modCore c fun t => { t with excluded := true } else s) s

/-- Step 3: a core is excluded when it fails its self-test or its isle is left out, and no other one. -/
def State.testCores (s : State) (b : BootFinds) : State :=
  let was := (s.cores.filter fun e => e.2.excluded).map (·.1)
  (was ++ b.badCores.filter (· < 768)).foldl (fun s c => s.modCore c fun t =>
    { t with excluded := b.badCores.contains c || (s.isle 0).deadIsles.getLsbD (isleOf c) }) s

/-- Step 4: the hash masks are locked in every isle, the folio table has its place (`State.folioBase`), and space 0xFFFF is mapped by
tables that the boot controller writes, in isles that work (R407). DESIGN CHOICE: log entry 10. -/
def State.lockMasks (s : State) (b : BootFinds) : State :=
  let s := (List.range 16).foldl (fun s i => s.modIsle i (·.writeLock)) s
  let s := (b.tables.filter fun p => !s.noProgram p.1 8 && s.isleWorks (p.1 / isleBytes)).foldl (fun s p => s.writeWords (p.1 / 8 * 8) [p.2]) s
  { s with sptbase := b.sptbase }

/-- A route entry whose `reach` is 0, where anything is left of it. -/
def unreached (e : Nat × Nat) : Option (Nat × Nat) := if e.2 % 2 ^ 15 = 0 then none else some (e.1, e.2 % 2 ^ 15)

/-- Step 5 failed: no lane of any channel is live. -/
def State.fabricDown (s : State) : State :=
  { s with
    froute := s.froute.filterMap unreached
    lanes := (List.range 256).map fun c => (c, 0) }

/-- The work of a step on this start. -/
def State.bootWork (s : State) (i : Nat) (b : BootFinds) (bad : Bool) : State :=
  match i with
  | 2 => s.trainDram b
  | 3 => s.testCores b
  | 4 => s.lockMasks b
  | 5 => if bad then s.fabricDown else s
  | 7 => { s with phase := .up }
  | _ => s

/-- How step 1 or 6 ends: image slot A, and slot B where that failed now or on the previous start. -/
def loadEnd (i : Nat) (b : BootFinds) (prev : Bool) : Nat × Bool × Bool :=
  if !prev && !b.failTwice.contains i && (bootLoads b i 0).isSome then (2, false, false)
  else if !b.altFails.contains i && (bootLoads b i 1).isSome then (2, true, false)
  else (3, true, true)

/-- How a step ends: its state, whether the alternate ran, and whether the device halts. `prev` is that the step failed on the
previous start. -/
def stepEnd (i : Nat) (b : BootFinds) (prev : Bool) : Nat × Bool × Bool :=
  let twice := b.failTwice.contains i
  match i with
  | 1 => loadEnd i b prev
  | 2 => (if (List.range 16).any b.deadIsles.contains then 3 else 2, false, false)
  | 3 => (if (List.range 768).any b.badCores.contains then 3 else 2, false, false)
  | 5 => (if twice then 3 else 2, false, false)
  | 6 => loadEnd i b prev
  | _ => if twice then (3, false, true) else (2, false, false)

/-- A step whose policy is HALT. -/
def haltStep (i : Nat) : Bool := i == 0 || i == 4 || i == 7

/-- Steps `i` to 7, `n` of them; `prev` is the record that the previous start left. A start that breaks off in a step leaves it at
1. DESIGN CHOICE: log entry 10. -/
def State.bootFrom (b : BootFinds) (prev : Word) : Nat → Nat → State → State
  | _, 0, s => s
  | i, n + 1, s =>
    let failed := stepState prev i == 1 || stepState prev i == 3
    if haltStep i && failed then { s with phase := .halted }
    else if b.hangs = some i then { s.markStep i 1 false with phase := .off }
    else
      let (v, alt, halt) := stepEnd i b failed
      let s := s.markStep i 1 false
      let s := if halt then s else s.bootWork i b (decide (v = 3))
      let s := (s.measureStep i b (triedSlots failed alt)).markStep i v alt
      if halt then { s with phase := .halted } else State.bootFrom b prev (i + 1) n s

/-- The start sequence over a device whose other state is at its reset values. DESIGN CHOICE: log entry 10. -/
def State.boot (s : State) (b : BootFinds) : State :=
  let prev := s.startWord
  let starts := Nat.min 65535 (prev.toNat / 2 ^ 48 + 1)
  let s := { s with zid := if b.stepping = 1 then 0x4A501611 else 0x4A501610 }
  State.bootFrom b prev 0 8 (s.putStart (BitVec.ofNat 64 (starts * 2 ^ 48 + recGen prev * 2 ^ 32)))

/-- What every start keeps: flash with the progress record; the schedule and the counters of the model's own. -/
def State.coldKeep (s : State) : State :=
  { State.reset with flash := s.flash, startrec := s.startrec, sched := s.sched, serial := s.serial, draws := s.draws }

/-- What a warm reset keeps of the cores: that they are excluded (R8, R375). -/
def keptCores (cs : Tab Core) : Tab Core := (cs.filter fun e => e.2.excluded).map fun e => (e.1, { Core.init with excluded := true })

/-- What a warm reset keeps of the isles: the evictions since cold start (R221). -/
def keptIsles (is_ : Tab Isle) : Tab Isle :=
  (is_.filter fun e => e.2.evictions ≠ 0).map fun e => (e.1, { Isle.init with evictions := e.2.evictions })

/-- POWER_UP (R406, R414): everything else is at its reset value, the journal too. DESIGN CHOICE: log entry 5.
DESIGN CHOICE: log entry 10. -/
def execPowerUp (b : BootFinds) (s : State) : Host.Outcome State Fault Refusal := .next ((s.coldKeep.tornStart b.torn).boot b)

/-- A reset request is done once the device starts. -/
def resetDone (j : List JEntry) : List JEntry :=
  j.map fun e => if e.kind = 10 ∧ e.status = 0 then { e with status := 0x8000000000000000#64 } else e

/-- RESET (R8, R201, R221, R406, R414): the journal, the package number, the excluded cores and the count of evictions are kept.
DESIGN CHOICE: log entry 10. -/
def execReset (b : BootFinds) (s : State) : Host.Outcome State Fault Refusal :=
  .next ({ s.coldKeep with
    cores := keptCores s.cores, isles := keptIsles s.isles, journal := resetDone s.journal, jseq := s.jseq, fpkg := s.fpkg }.boot b)

/-! ### The management port (R411 to R415) -/

/-- A request of the management port that a running device takes. -/
def State.mgmt (s : State) (t : State) : Host.Outcome State Fault Refusal := .next (if s.phase = .up then t else s)

/-- STATUS_REQUEST (R406, R412, R413): answered by a halted device too. -/
def execStatusRequest (s : State) : Host.Outcome State Fault Refusal :=
  .next (if s.phase = .off then s else { s with answer := .status s.zid s.drops (decide (s.phase = .halted)) })

/-- The bytes of the fields of an attestation answer. -/
def State.attestBytes (s : State) (nonce : BitVec 256) : List Byte :=
  bytesOf 4 s.zid.toNat ++ bytesOf 8 s.startWord.toNat
    ++ (s.measLog.flatMap fun e => bytesOf 4 e.step ++ bytesOf 4 e.slot ++ bytesOf 4 e.version ++ digestBytes e.digest)
    ++ digestBytes s.measM ++ bytesOf 32 nonce.toNat

/-- ATTESTATION_REQUEST (R411). -/
def execAttestationRequest (nonce : BitVec 256) (s : State) : Host.Outcome State Fault Refusal :=
  let d := sha384 (s.attestBytes nonce)
  let a := Answer.attest s.zid s.startWord s.measLog s.measM nonce (Config.attestEd25519 d) (Config.attestMlDsa d)
  s.mgmt { s with answer := a }

/-- JOURNAL_READ (R414). -/
def execJournalRead (seq : Nat) (s : State) : Host.Outcome State Fault Refusal :=
  s.mgmt { s with answer := .journal (s.journal.filter fun e => seq ≤ e.seq) (s.journal.head?.any fun e => seq < e.seq) }

/-- RESET_REQUEST (R412, R414): journalled and accepted; the device goes down, and RESET starts it again. -/
def execResetRequest (s : State) : Host.Outcome State Fault Refusal :=
  s.mgmt { s.journalAdd 10 0 0 with phase := .off, answer := .ok }

/-- EVENT_RING_SETUP (R413). DESIGN CHOICE: log entry 55. -/
def execEventRingSetup (base : Word) (size : Nat) (s : State) : Host.Outcome State Fault Refusal :=
  s.mgmt { s with ringBase := base, ringSize := size, ringNext := 0, ring := [], answer := .ok }

/-- Write one record of the ring at its place, where the harbour's space maps it for writing. DESIGN CHOICE: log entry 55. -/
def State.ringOne (s : State) (i : Nat) (r : EvRec) : State :=
  match s.walk 0xFFFF (s.ringBase.toNat + 32 * i) with
  | .leaf e =>
    if e.w then s.writeRecord (e.pa + (s.ringBase.toNat + 32 * i - e.va)) [r.w0, r.w1, r.w2, r.w3] else s
  | w => s.recordWalk w.failed.2

/-- The records that have been delivered since are written into the ring (R413). DESIGN CHOICE: log entry 55. -/
def State.ringOut (s : State) : State :=
  if s.ringNext < s.ring.length then
    { ((List.range s.ring.length).zip s.ring).foldl (fun s p => if s.ringNext ≤ p.1 then s.ringOne p.1 p.2 else s) s with
      ringNext := s.ring.length }
  else s

/-! ### Checkpoint (R415) -/

/-- A task set holds a slot. -/
def State.anySlot (s : State) : Bool := s.slots.any fun e => decide (e.2.st ≠ .free)

/-- CHECKPOINT (R415). -/
def execCheckpoint (peer : Bool) (far : Word) (s : State) : Host.Outcome State Fault Refusal :=
  s.mgmt (if s.anySlot || !s.pgq.isEmpty || s.checkpointing.isSome then { s with answer := .checkpoint 1 }
    else { s with checkpointing := some (peer, far) })

/-- The DRAM pages of the working isles, 64 KiB each (R407, R415). DESIGN CHOICE: log entry 9. -/
def State.dramPages (s : State) : List Nat :=
  let n := isleBytes / pageBytes
  ((List.range 16).filter s.isleWorks).flatMap fun i => (List.range n).map fun p => i * n + p

/-- The data of a page: of memory, or of the folio table where the page is one of those that hold it (R293). -/
def State.pageData (s : State) (p : Nat) : List Byte :=
  if s.noProgram (p * pageBytes) pageBytes then
    (List.range (pageBytes / 64)).flatMap fun i =>
      (s.folio ((p * pageBytes - s.folioBase) / 64 + i)).flatMap fun w => bytesOf 8 w.toNat
  else tabBytes s.mem (p * pageBytes) pageBytes

/-- The blocks of a record sent to a peer, from a global address on. -/
def sentFrom (va : Nat) : Nat → List Byte → List (Word × List Byte)
  | 0, _ => []
  | n + 1, bs => (BitVec.ofNat 64 va, bs.take blockBytes) :: sentFrom (va + blockBytes) n (bs.drop blockBytes)

/-- Put a page record at its place: a byte of flash, or a global address of a peer. -/
def State.putRecord (s : State) (peer : Bool) (a : Nat) (r : List Byte) : State :=
  if peer then { s with sentBlocks := s.sentBlocks ++ sentFrom a (r.length / blockBytes) r }
  else { s with flash := tabPut 0 s.flash a r }

/-- Write the records of the pages one after another, from `a` on; false where one meets an uncorrectable error (R417), which ends
the checkpoint. DESIGN CHOICE: log entry 9. -/
def State.checkpointOut (peer : Bool) : Nat → List Nat → State → Bool × State
  | _, [], s => (true, s)
  | a, p :: ps, s =>
    let home := p * pageBytes
    if (List.range 8192).any fun i => s.isBroken (home + 8 * i) 8 then (false, s.recordBroken home)
    else
      let fs := (List.range 8192).map fun i => s.fBit (home + 8 * i)
      let r := pageRecord fs 0 (s.pageData p)
      State.checkpointOut peer (a + r.length) ps (s.putRecord peer a r)

/-- CHECKPOINT_COMPLETE (R415): the pages are written, and the commands that waited proceed. An end in error has a free status.
DESIGN CHOICE: log entry 9. -/
def execCheckpointComplete (far : FarEnd) (s : State) : Host.Outcome State Fault Refusal :=
  .next (match s.checkpointing with
    | some (peer, at_) =>
      let r := State.checkpointOut peer (if peer then at_.toNat else flashAt 0 at_.toNat) s.dramPages s
      let st := if r.1 && decide (far = .ok) then 0 else (Config.freeWord s.draws).toNat
      { r.2 with checkpointing := none, answer := .checkpoint st, draws := r.2.draws + 1 }.runWaiting
    | none => s)

/-! ### Heat (R416) -/

/-- The cap of an isle after a measurement of the module's power in W and of its stack in degrees C. -/
def capAfter (cap power : Nat) (hot : Bool) : Nat :=
  let c := if 2800 < power then Nat.max 16 (cap / 2) else if 100 * power < 95 * 2800 then Nat.min 512 (cap + 16) else cap
  if hot then 16 else c

/-- A stack is hot from above 95 degrees until it falls below 90. -/
def hotAfter (was : Bool) (temp : Nat) : Bool := decide (95 < temp) || (was && decide (90 ≤ temp))

/-- One isle's part of a measurement; a change of its cap raises a record, whose word 1 is not stated.
DESIGN CHOICE: log entry 10. DEDUCED: log entry 25. -/
def State.heatIsle (s : State) (power : Nat) (temps : List Nat) (i : Nat) : State :=
  let hot := hotAfter (s.hot.getLsbD i) (temps.getD i 0)
  let old := (s.isle i).cap
  let cap := capAfter old power hot
  let slow := decide (2800 < power) && decide (old = 16)
  let put := fun (m : BitVec 16) (b : Bool) => if b then m ||| (1#16 <<< i) else m &&& ~~~(1#16 <<< i)
  let s := { s with hot := put s.hot hot, throttled := put s.throttled slow }
  if cap = old then s
  else
    ({ s with draws := s.draws + 1 }.modIsle i fun t => { t with cap := cap }).record {
      w0 := evKind 17, w1 := Config.freeWord s.draws, w2 := s.cycWord, w3 := 0 }

/-- THERMAL_MEASURE (R171, R416): `throttled` isles issue at most one MXA per 64 clk, which is timing only. -/
def execThermalMeasure (power : Nat) (temps : List Nat) (s : State) : Host.Outcome State Fault Refusal :=
  .next (if s.phase = .up then (List.range 16).foldl (fun s i => s.heatIsle power temps i) s else s)

/-! ### Cores that fail (R418) -/

/-- The matrix commands of a failed core are gone; those that came by MXSEND answer code 2. DESIGN CHOICE: log entry 54. -/
def State.failMx (s : State) (core : Nat) : State :=
  let ms := (s.core core).mxAll
  let s := s.modCore core fun c => { c with
    mxq := [], ldq := [], array := none, loader := none, arrayHeld := false, loaderHeld := false }
  let s := ms.foldl (fun s m =>
    match m.src with
    | .sent k g j => s.replyFor k g (.reg j) (mxStatus 2 0 0) m.acc
    | .own _ _ => s.perform m.acc) s
  s.keepParked s.parkedLives

/-- Task sets with a thread in a slot of the core. -/
def State.setsOn (s : State) (core : Nat) : List Nat :=
  ((s.slots.filter fun e => coreOf e.1 == core && decide (e.2.st ≠ .free)).filterMap (·.2.tsid)).eraseDups

/-- A set loses its threads on a failed core: all of it ends, but of a ferry set only its task there.
DESIGN CHOICE: log entry 54. -/
def State.failSet (s : State) (core tsid : Nat) : State :=
  if !s.hasSet tsid then s
  else if (s.tset_ tsid).ferry then
    ((s.setSlots tsid).filter fun k => coreOf k == core).foldl (fun s k => (s.endTask k).freeSlot k) s
  else s.endSet tsid (BitVec.ofNat 64 (3 * 2 ^ 32 + core))

/-- CORE_FAIL (R418). DESIGN CHOICE: log entry 54. -/
def execCoreFail (core : Nat) (s : State) : Host.Outcome State Fault Refusal :=
  .next (if decide (core < 768) && s.placeable core && decide (s.phase = .up) then
    let s := s.modCore core fun c => { c with excluded := true, failed := true, inbox := [], sendq := [] }
    let s := s.failMx core
    let s := (s.setsOn core).foldl (fun s t => s.failSet core t) s
    let s := s.modCore core fun c => { c with
      leases := [], leaseWait := [], accs := List.replicate 8 .dead, accv := List.replicate 8 0, ws := [], owner := [], mxDirty := [] }
    s.record { w0 := evKind 19, w1 := BitVec.ofNat 64 core, w2 := s.cycWord, w3 := 0 }
  else s)

end Sys2Proof.Machine
end

