-- ==== Sys2Proof/Machine/Harbour.lean ====
section
/-! DEFINITION. Accesses of the harbour cores: loads, stores, AMO, LR and SC, the fabric control region (R193 to R195, R201, R404,
R417). -/

namespace Sys2Proof.Machine

/-! ### Translation (R404) -/

/-- Types of harbour access. -/
inductive HAcc where
  | load | store | amo | lr | sc
deriving DecidableEq, Repr

/-- Reads and writes of the page. -/
def HAcc.needR : HAcc → Bool
  | .store => false
  | .sc => false
  | _ => true
def HAcc.needW : HAcc → Bool
  | .load => false
  | .lr => false
  | _ => true
/-- The page must have the system-atomic attribute (R195). -/
def HAcc.needSa : HAcc → Bool
  | .load => false
  | .store => false
  | _ => true
/-- Exception codes of R195 and R404: access fault, and misaligned. PRESUMED: log entry 44. -/
def HAcc.faultCode (a : HAcc) : Nat := if a.needW then 7 else 5
/-- The exception code of a misaligned harbour access (R195). PRESUMED: log entry 44. -/
def HAcc.alignCode (a : HAcc) : Nat := if a.needW then 6 else 4

/-- Harbour addresses from here on are not translated (R404). -/
def portBase : Nat := 2 ^ 55

/-- How an access goes: at a home, or an exception. -/
inductive HRes where
  | home (h : Nat)
  | exc (code : Nat)
deriving DecidableEq, Repr

/-- Alignment, translation in space 0xFFFF, the page's rights and attribute, and the word's error (R195, R404, R417).
PRESUMED: log entry 44. -/
def State.harbourReach (s : State) (a : HAcc) (va len : Nat) : HRes × State :=
  if va % len ≠ 0 then (.exc a.alignCode, s)
  else if inWindow va then (.exc a.faultCode, s)
  else match s.walk 0xFFFF va with
    | .fault _ broken => (.exc a.faultCode, s.recordWalk broken)
    | .dead => (.exc a.faultCode, s)
    | .leaf e =>
      let h := e.pa + (va - e.va)
      if denies e a.needR a.needW || (a.needSa && !e.sa) then (.exc a.faultCode, s)
      else if s.isBroken h len then (.exc a.faultCode, s.recordBroken h)
      else (.home h, s)

/-- Harbour cores, of one hart each (R13). PRESUMED: log entry 44. -/
def hartCount : Nat := 16

/-- Perform an access at its home, or answer its exception; no AMO, LR or SC reaches the ports (R201). -/
def State.harbour (s : State) (hart : Nat) (a : HAcc) (w : Width) (va : Nat) (f : State → Nat → State) : State :=
  if hartCount ≤ hart then s
  else if portBase ≤ va then { s with answer := .exception hart a.faultCode }
  else match s.harbourReach a va (widthBytes w) with
    | (.exc c, t) => { t with answer := .exception hart c }
    | (.home h, t) => f t h

/-! ### AMO, LR and SC (R193, R194) -/

/-- The AMOs of RISC-V and their widths (R193). -/
def isAmo (op : AtomOp) (w : Width) : Bool :=
  (match op with
    | .cas => false
    | .fadd => false
    | .incw => false
    | .fab => false
    | _ => true) && (w == .b32 || w == .b64)

/-- HARBOUR_AMO (R193). -/
def execHarbourAmo (hart : Nat) (op : AtomOp) (w : Width) (addr value : Word) (s : State) : Host.Outcome State Fault Refusal :=
  .next (if isAmo op w then
    s.harbour hart .amo w addr.toNat fun s h =>
      let old := s.readNat h (widthBytes w)
      let t := match atomNew op w old value.toNat 0 with
        | some n => s.homeStore h (bytesOf (widthBytes w) n)
        | none => s
      { t with answer := .load hart (extendTo w true old) }
  else s)

/-- No reservation. -/
def Resv.none : Resv := ⟨2 ^ 61, 0⟩
def State.setResv (s : State) (hart : Nat) (r : Resv) : State := { s with resv := tset Resv.none s.resv hart r }

/-- HARBOUR_LR (R194). -/
def execHarbourLr (hart : Nat) (w : Width) (addr : Word) (s : State) : Host.Outcome State Fault Refusal :=
  .next (if isAmo .add w then
    s.harbour hart .lr w addr.toNat fun s h =>
      { s.setResv hart ⟨h / 8 * 8, s.cyc⟩ with answer := .load hart (extendTo w true (s.readNat h (widthBytes w))) }
  else s)

/-- The reservation of a hart stands on the word. -/
def State.reserved (s : State) (hart h : Nat) : Bool :=
  let r := tget Resv.none s.resv hart
  r.word == h / 8 * 8 && decide (s.cyc < r.at_ + 4096)

/-- HARBOUR_SC (R194): answers 0 where it wrote, 1 where it failed. -/
def execHarbourSc (hart : Nat) (w : Width) (addr value : Word) (s : State) : Host.Outcome State Fault Refusal :=
  .next (if isAmo .add w then
    s.harbour hart .sc w addr.toNat fun s h =>
      if s.reserved hart h then { s.homeStore h (bytesOf (widthBytes w) value.toNat) with answer := .load hart 0 }
      else { s with answer := .load hart 1 }
  else s)

/-- RESERVATION_EXPIRE (R194). -/
def execReservationExpire (hart : Nat) (s : State) : Host.Outcome State Fault Refusal :=
  let r := tget Resv.none s.resv hart
  .next (if r ≠ Resv.none ∧ r.at_ + 4096 ≤ s.cyc then s.setResv hart Resv.none else s)

/-! ### The fabric control region (R201) -/

/-- Word `i` of the key command block, in the table of port words. -/
def keyWordNo (i : Nat) : Nat := 2 ^ 20 + i
def State.portWordAt (s : State) (i : Nat) : Word := tget 0 s.ports i

/-- A read of the region; LANEREQ reads 0 (R7), and what has no stated value is free. PRESUMED: log entry 44. -/
def State.regionRead (s : State) (off : Nat) : Word :=
  if off < 0x2000 then BitVec.ofNat 64 (s.route (off / 2))
  else if off = 0x2000 then BitVec.ofNat 64 s.fpkg
  else if off = 0x2078 then s.keycmd
  else if 0x2040 ≤ off ∧ off < 0x2080 then s.portWordAt (keyWordNo ((off - 0x2040) / 8))
  else if off = 0x2080 then 0
  else Config.freeWord s.draws

/-- A write of the region: a 1 in word 7 of the key block starts a key command. A write of LANEREQ leaves its request, and the
agreement that it asks for is a step of its own. PRESUMED: log entry 44. -/
def State.regionWrite (s : State) (off : Nat) (v : Word) : State :=
  if off < 0x2000 then s.frouteWrite (off / 2) (BitVec.ofNat 16 v.toNat)
  else if off = 0x2000 then s.fpkgWrite v
  else if off = 0x2078 then
    if v = 1 then s.keyCommand (s.portWordAt (keyWordNo 0)) ((List.range 6).map fun i => s.portWordAt (keyWordNo (i + 1))) else { s with keycmd := v }
  else if 0x2040 ≤ off ∧ off < 0x2080 then { s with ports := tset 0 s.ports (keyWordNo ((off - 0x2040) / 8)) v }
  else if off = 0x2080 then { s with laneReqs := s.laneReqs ++ [v] }
  else s

/-- An access of the region has the size and alignment of its place (R201). -/
def regionOk (off len : Nat) : Bool :=
  decide (off < 0x4000) && decide (off % len = 0) && decide (len = if off < 0x2000 then 2 else 8)

/-- HARBOUR_ACCESS (R201, R404): a load or a store. -/
def execHarbourAccess (hart : Nat) (store : Bool) (w : Width) (addr value : Word) (s : State) : Host.Outcome State Fault Refusal :=
  let a := if store then HAcc.store else HAcc.load
  let off := addr.toNat - portBase
  .next (if hart < hartCount ∧ portBase ≤ addr.toNat ∧ regionOk off (widthBytes w) then
    if store then { s.regionWrite off value with answer := .done hart }
    else { s with answer := .load hart (s.regionRead off), draws := s.draws + 1 }
  else s.harbour hart a w addr.toNat fun s h =>
    if store then { s.homeStore h (bytesOf (widthBytes w) value.toNat) with answer := .done hart }
    else { s with answer := .load hart (BitVec.ofNat 64 (s.readNat h (widthBytes w))) })

end Sys2Proof.Machine
end

