-- ==== Sys2Proof/Machine/Integer.lean ====
section
/-! DEFINITION. Integer and address instructions (05_integer). -/

namespace Sys2Proof.Machine

/-- Operations that wait in the divider's queue: it has not accepted them yet (R110). -/
def State.divQueued (s : State) (core : Nat) : Nat := ((s.core core).div.filter fun o => decide (s.cyc < o.at_)).length

/-- An operation enters the divider: accepted 4 clk after the one before it, or at once (R110). -/
def State.enterDivider (s : State) (core : Nat) (slot : Nat) (gen : BitVec 8) (reg : Nat) (value : Word) : State :=
  s.modCore core fun c =>
    let at_ := Nat.max s.cyc c.divNext
    { c with div := c.div ++ [{ slot := slot, gen := gen, reg := reg, value := value, at_ := at_ }], divNext := at_ + 4 }

/-- DIV and REM (R109, R110): the result goes to the core's divider and lands in `d` later; with x0 the divider is not
used (R104). -/
def State.divide (s : State) (g : Guard) (d : Dst) (a b : Src) (f : Word → Word → Word) :
    Host.Outcome State Fault Refusal :=
  s.issue g do
    let (x, r) ← readX 0 a s.rd
    let (y, r) ← readX 1 b r
    let t := r.s.killXs [a, b]
    if d = 0 then pure t.advance
    else if 8 ≤ t.divQueued (coreOf t.cur) then .error (.wait .other)
    else do
      let j := xIndex t.me.wstate d.toNat
      let t ← t.emptyXj j
      pure (t.enterDivider (coreOf t.cur) t.cur t.me.gen j (f x y)).advance

/-- CMP and CMPI: a predicate from two values (R116). -/
def State.compare (s : State) (g : Guard) (d : Dst) (srcs : List Src) (f : List Word → Bool) :
    Host.Outcome State Fault Refusal :=
  s.issue g do
    let (vs, r) ← readXs 0 srcs s.rd
    let t ← (r.s.killXs srcs).writeP d (f vs)
    pure t.advance

/-- ADD (R107, R128). -/
def execAdd (g : Guard) (d : Dst) (a b : Src) (s : State) : Host.Outcome State Fault Refusal := s.opAffine g d [a, b] affAdd
/-- ADDI (R107, R128). -/
def execAddi (g : Guard) (d : Dst) (a : Src) (imm : BitVec 40) (s : State) : Host.Outcome State Fault Refusal :=
  s.opAffine g d [a] (affImm (sext40 imm))
/-- SUB (R107, R128). -/
def execSub (g : Guard) (d : Dst) (a b : Src) (s : State) : Host.Outcome State Fault Refusal := s.opAffine g d [a, b] affSub
/-- NEG (R107, R128). -/
def execNeg (g : Guard) (d : Dst) (a : Src) (s : State) : Host.Outcome State Fault Refusal := s.opAffine g d [a] affNeg
/-- MUL (R108, R128). -/
def execMul (g : Guard) (d : Dst) (a b : Src) (s : State) : Host.Outcome State Fault Refusal := s.opAffine g d [a, b] affMul
/-- MULI (R108, R128). -/
def execMuli (g : Guard) (d : Dst) (a : Src) (imm : BitVec 40) (s : State) : Host.Outcome State Fault Refusal :=
  s.opAffine g d [a] (affMuli (sext40 imm))
/-- MULH (R108). -/
def execMulh (g : Guard) (d : Dst) (a b : Src) (sg : MulSign) (s : State) : Host.Outcome State Fault Refusal :=
  s.op2 g d a b (mulHigh sg)
/-- DIV (R109, R110). -/
def execDiv (g : Guard) (d : Dst) (a b : Src) (uns : Bool) (s : State) : Host.Outcome State Fault Refusal :=
  s.divide g d a b fun x y => (divRem uns x y).1
/-- REM (R109, R110). -/
def execRem (g : Guard) (d : Dst) (a b : Src) (uns : Bool) (s : State) : Host.Outcome State Fault Refusal :=
  s.divide g d a b fun x y => (divRem uns x y).2
/-- AND (R111). -/
def execAnd (g : Guard) (d : Dst) (a b : Src) (s : State) : Host.Outcome State Fault Refusal := s.op2 g d a b (· &&& ·)
/-- ANDI (R111). -/
def execAndi (g : Guard) (d : Dst) (a : Src) (imm : BitVec 40) (s : State) : Host.Outcome State Fault Refusal :=
  s.op1 g d a (· &&& sext40 imm)
/-- OR (R111). -/
def execOr (g : Guard) (d : Dst) (a b : Src) (s : State) : Host.Outcome State Fault Refusal := s.op2 g d a b (· ||| ·)
/-- ORI (R111). -/
def execOri (g : Guard) (d : Dst) (a : Src) (imm : BitVec 40) (s : State) : Host.Outcome State Fault Refusal :=
  s.op1 g d a (· ||| sext40 imm)
/-- XOR (R111). -/
def execXor (g : Guard) (d : Dst) (a b : Src) (s : State) : Host.Outcome State Fault Refusal := s.op2 g d a b (· ^^^ ·)
/-- XORI (R111). -/
def execXori (g : Guard) (d : Dst) (a : Src) (imm : BitVec 40) (s : State) : Host.Outcome State Fault Refusal :=
  s.op1 g d a (· ^^^ sext40 imm)
/-- SHL (R112). -/
def execShl (g : Guard) (d : Dst) (a b : Src) (s : State) : Host.Outcome State Fault Refusal :=
  s.op2 g d a b fun x y => x <<< amount y
/-- SHLI (R112, R128). -/
def execShli (g : Guard) (d : Dst) (a : Src) (n : BitVec 6) (s : State) : Host.Outcome State Fault Refusal :=
  s.opAffine g d [a] (affShl n.toNat)
/-- SHR (R112). -/
def execShr (g : Guard) (d : Dst) (a b : Src) (s : State) : Host.Outcome State Fault Refusal :=
  s.op2 g d a b fun x y => x >>> amount y
/-- SHRI (R112). -/
def execShri (g : Guard) (d : Dst) (a : Src) (n : BitVec 6) (s : State) : Host.Outcome State Fault Refusal :=
  s.op1 g d a (· >>> n.toNat)
/-- SRA (R112). -/
def execSra (g : Guard) (d : Dst) (a b : Src) (s : State) : Host.Outcome State Fault Refusal :=
  s.op2 g d a b fun x y => x.sshiftRight (amount y)
/-- SRAI (R112). -/
def execSrai (g : Guard) (d : Dst) (a : Src) (n : BitVec 6) (s : State) : Host.Outcome State Fault Refusal :=
  s.op1 g d a fun x => x.sshiftRight n.toNat
/-- ROR (R112). -/
def execRor (g : Guard) (d : Dst) (a b : Src) (s : State) : Host.Outcome State Fault Refusal :=
  s.op2 g d a b fun x y => rotr x (amount y)
/-- CLZ (R113). -/
def execClz (g : Guard) (d : Dst) (a : Src) (s : State) : Host.Outcome State Fault Refusal := s.op1 g d a clz64
/-- CTZ (R113). -/
def execCtz (g : Guard) (d : Dst) (a : Src) (s : State) : Host.Outcome State Fault Refusal := s.op1 g d a ctz64
/-- POPC (R113). -/
def execPopc (g : Guard) (d : Dst) (a : Src) (s : State) : Host.Outcome State Fault Refusal := s.op1 g d a popc64
/-- BEXT (R113). -/
def execBext (g : Guard) (d : Dst) (a : Src) (sgn : Bool) (len : BitVec 7) (pos : BitVec 6) (s : State) :
    Host.Outcome State Fault Refusal :=
  s.op1 g d a fun x => extLow sgn (x >>> pos.toNat) len.toNat
/-- BINS (R113). -/
def execBins (g : Guard) (d : Dst) (a b : Src) (len : BitVec 7) (pos : BitVec 6) (s : State) :
    Host.Outcome State Fault Refusal :=
  s.op2 g d a b fun x y => insertField x y len.toNat pos.toNat
/-- SEXT (R114). -/
def execSext (g : Guard) (d : Dst) (a : Src) (w : Width) (s : State) : Host.Outcome State Fault Refusal :=
  s.op1 g d a fun x => sextLow x (widthBits w)
/-- ZEXT (R114). -/
def execZext (g : Guard) (d : Dst) (a : Src) (w : Width) (s : State) : Host.Outcome State Fault Refusal :=
  s.op1 g d a fun x => zextLow x (widthBits w)
/-- MIN (R115). -/
def execMin (g : Guard) (d : Dst) (a b : Src) (uns : Bool) (s : State) : Host.Outcome State Fault Refusal :=
  s.op2 g d a b (minMax false uns)
/-- MAX (R115). -/
def execMax (g : Guard) (d : Dst) (a b : Src) (uns : Bool) (s : State) : Host.Outcome State Fault Refusal :=
  s.op2 g d a b (minMax true uns)
/-- CMP (R116). -/
def execCmp (g : Guard) (d : Dst) (a b : Src) (c : Cond) (s : State) : Host.Outcome State Fault Refusal :=
  s.compare g d [a, b] fun vs => condHolds c (vs.getD 0 0) (vs.getD 1 0)
/-- CMPI (R116). -/
def execCmpi (g : Guard) (d : Dst) (a : Src) (c : Cond) (imm : BitVec 40) (s : State) : Host.Outcome State Fault Refusal :=
  s.compare g d [a] fun vs => condHolds c (vs.getD 0 0) (sext40 imm)
/-- SEL (R117): both values are read, whichever is chosen. -/
def execSel (g : Guard) (d : Dst) (a b p : Src) (s : State) : Host.Outcome State Fault Refusal :=
  s.issue g do
    let (x, r) ← readX 0 a s.rd
    let (y, r) ← readX 1 b r
    let (c, r) ← readP 2 p r
    let t ← ((r.s.killXs [a, b]).killPs [p]).put d (if c then x else y)
    pure t.advance
/-- MOV (R107, R128). -/
def execMov (g : Guard) (d : Dst) (a : Src) (s : State) : Host.Outcome State Fault Refusal := s.opAffine g d [a] affMov
/-- MOVI (R107). -/
def execMovi (g : Guard) (d : Dst) (lit : Word) (s : State) : Host.Outcome State Fault Refusal := s.op0 g d lit
/-- LEA (R118, R128). -/
def execLea (g : Guard) (d : Dst) (b i : Src) (scale : BitVec 2) (imm : BitVec 40) (s : State) :
    Host.Outcome State Fault Refusal :=
  s.opAffine g d [b, i] (affLea scale (sext40 imm))
/-- INCW (R119). -/
def execIncw (g : Guard) (d : Dst) (a b : Src) (s : State) : Host.Outcome State Fault Refusal := s.op2 g d a b incWrap

end Sys2Proof.Machine
end

