-- ==== Sys2Proof/Machine/Ordering.lean ====
section
/-! DEFINITION. FENCE and FENCEX (R335 to R337). -/

namespace Sys2Proof.Machine

/-- The two sets of a fence: bits 0 to 4 are l, s, r, e, g (R326). -/
def State.fenceOp (s t : State) (prior later : BitVec 5) : Res State :=
  if prior = 0 ∨ later = 0 then .ok t
  else do
    if prior &&& setR ≠ 0 then s.coverPoint else pure ()
    let recs := s.me.fences.filter fun f => s.anyOutstanding f.ids
    if 4 ≤ recs.length then .error (.wait .other)
    else
      let ids := s.accsIn s.cur (prior &&& ~~~setR)
      pure (t.modSlot t.cur fun u => { u with
        fences := if ids.isEmpty then recs else recs ++ [{ later := later, ids := ids, no := s.serial }] })

/-- FENCE (R335). -/
def execFence (g : Guard) (later prior : BitVec 5) (s : State) : Host.Outcome State Fault Refusal :=
  s.issue g do
    let t ← s.fenceOp s prior later
    pure t.advance

/-- FENCEX (R335): prior set in [4:0], later set in [9:5]. -/
def execFencex (g : Guard) (a : Src) (s : State) : Host.Outcome State Fault Refusal :=
  s.issue g do
    let (x, r) ← readX 0 a s.rd
    let t ← s.fenceOp (r.s.killXs [a]) (x.extractLsb' 0 5) (x.extractLsb' 5 5)
    pure t.advance

/-- FENCE_RECORD_DISCARD (R335): a record whose accesses are all performed goes. -/
def execFenceRecordDiscard (slot k : Nat) (s : State) : Host.Outcome State Fault Refusal :=
  .next (match (s.slot slot).fences[k]? with
    | some f => if s.anyOutstanding f.ids then s else s.modSlot slot fun t => { t with fences := lremove t.fences k }
    | none => s)

end Sys2Proof.Machine
end

