-- ==== Sys2Proof/Machine/Dispatch.lean ====
section
/-! DEFINITION. One arm per operation, each a direct call of its meaning. -/

namespace Sys2Proof.Machine

def exec (i : Instr) (s : State) : Host.Outcome State Fault Refusal :=
  match i with
  | .nop g => Sys2Proof.Machine.execNop g s
  | .br g disp => Sys2Proof.Machine.execBr g disp s
  | .jmp g t => Sys2Proof.Machine.execJmp g t s
  | .call g d slide disp => Sys2Proof.Machine.execCall g d slide disp s
  | .callx g d t slide => Sys2Proof.Machine.execCallx g d t slide s
  | .ret g t => Sys2Proof.Machine.execRet g t s
  | .spill g => Sys2Proof.Machine.execSpill g s
  | .fill g => Sys2Proof.Machine.execFill g s
  | .pand g d a b => Sys2Proof.Machine.execPand g d a b s
  | .por g d a b => Sys2Proof.Machine.execPor g d a b s
  | .pxor g d a b => Sys2Proof.Machine.execPxor g d a b s
  | .pandn g d a b => Sys2Proof.Machine.execPandn g d a b s
  | .pnot g d a => Sys2Proof.Machine.execPnot g d a s
  | .pmovi g d v => Sys2Proof.Machine.execPmovi g d v s
  | .pmov g d a => Sys2Proof.Machine.execPmov g d a s
  | .part g d n gr hi coord m p => Sys2Proof.Machine.execPart g d n gr hi coord m p s
  | .yield g => Sys2Proof.Machine.execYield g s
  | .sleep g msg n => Sys2Proof.Machine.execSleep g msg n s
  | .exit g => Sys2Proof.Machine.execExit g s
  | .fold g leaf ev ext x regs => Sys2Proof.Machine.execFold g leaf ev ext x regs s
  | .mdset g a => Sys2Proof.Machine.execMdset g a s
  | .mdget g d => Sys2Proof.Machine.execMdget g d s
  | .inbcnt g d => Sys2Proof.Machine.execInbcnt g d s
  | .slotid g d => Sys2Proof.Machine.execSlotid g d s
  | .strayrdHdr g d => Sys2Proof.Machine.execStrayrdHdr g d s
  | .strayrdCnt g d => Sys2Proof.Machine.execStrayrdCnt g d s
  | .loopbk g d hdr data last => Sys2Proof.Machine.execLoopbk g d hdr data last s
  | .add g d a b => Sys2Proof.Machine.execAdd g d a b s
  | .addi g d a imm => Sys2Proof.Machine.execAddi g d a imm s
  | .sub g d a b => Sys2Proof.Machine.execSub g d a b s
  | .neg g d a => Sys2Proof.Machine.execNeg g d a s
  | .mul g d a b => Sys2Proof.Machine.execMul g d a b s
  | .muli g d a imm => Sys2Proof.Machine.execMuli g d a imm s
  | .mulh g d a b sg => Sys2Proof.Machine.execMulh g d a b sg s
  | .div g d a b uns => Sys2Proof.Machine.execDiv g d a b uns s
  | .rem g d a b uns => Sys2Proof.Machine.execRem g d a b uns s
  | .and g d a b => Sys2Proof.Machine.execAnd g d a b s
  | .andi g d a imm => Sys2Proof.Machine.execAndi g d a imm s
  | .or g d a b => Sys2Proof.Machine.execOr g d a b s
  | .ori g d a imm => Sys2Proof.Machine.execOri g d a imm s
  | .xor g d a b => Sys2Proof.Machine.execXor g d a b s
  | .xori g d a imm => Sys2Proof.Machine.execXori g d a imm s
  | .shl g d a b => Sys2Proof.Machine.execShl g d a b s
  | .shli g d a n => Sys2Proof.Machine.execShli g d a n s
  | .shr g d a b => Sys2Proof.Machine.execShr g d a b s
  | .shri g d a n => Sys2Proof.Machine.execShri g d a n s
  | .sra g d a b => Sys2Proof.Machine.execSra g d a b s
  | .srai g d a n => Sys2Proof.Machine.execSrai g d a n s
  | .ror g d a b => Sys2Proof.Machine.execRor g d a b s
  | .clz g d a => Sys2Proof.Machine.execClz g d a s
  | .ctz g d a => Sys2Proof.Machine.execCtz g d a s
  | .popc g d a => Sys2Proof.Machine.execPopc g d a s
  | .bext g d a sgn len pos => Sys2Proof.Machine.execBext g d a sgn len pos s
  | .bins g d a b len pos => Sys2Proof.Machine.execBins g d a b len pos s
  | .sext g d a w => Sys2Proof.Machine.execSext g d a w s
  | .zext g d a w => Sys2Proof.Machine.execZext g d a w s
  | .min g d a b uns => Sys2Proof.Machine.execMin g d a b uns s
  | .max g d a b uns => Sys2Proof.Machine.execMax g d a b uns s
  | .cmp g d a b c => Sys2Proof.Machine.execCmp g d a b c s
  | .cmpi g d a c imm => Sys2Proof.Machine.execCmpi g d a c imm s
  | .sel g d a b p => Sys2Proof.Machine.execSel g d a b p s
  | .mov g d a => Sys2Proof.Machine.execMov g d a s
  | .movi g d lit => Sys2Proof.Machine.execMovi g d lit s
  | .lea g d b ix scale imm => Sys2Proof.Machine.execLea g d b ix scale imm s
  | .incw g d a b => Sys2Proof.Machine.execIncw g d a b s
  | .cwres g form r => Sys2Proof.Machine.execCwres g form r s
  | .regst g d p r => Sys2Proof.Machine.execRegst g d p r s
  | .kill g p r => Sys2Proof.Machine.execKill g p r s
  | .cwfree g d => Sys2Proof.Machine.execCwfree g d s
  | .regmap g d grp => Sys2Proof.Machine.execRegmap g d grp s
  | .ld g d b w sgn imm => Sys2Proof.Machine.execLd g d b w sgn imm s
  | .ldx g d b ix scale w sgn => Sys2Proof.Machine.execLdx g d b ix scale w sgn s
  | .st g b v w imm => Sys2Proof.Machine.execSt g b v w imm s
  | .stx g b ix v scale w => Sys2Proof.Machine.execStx g b ix v scale w s
  | .ldf g d b imm => Sys2Proof.Machine.execLdf g d b imm s
  | .ldfe g d b imm => Sys2Proof.Machine.execLdfe g d b imm s
  | .stef g d b v imm => Sys2Proof.Machine.execStef g d b v imm s
  | .stf g b v imm => Sys2Proof.Machine.execStf g b v imm s
  | .purge g b imm => Sys2Proof.Machine.execPurge g b imm s
  | .tagrd g d b w imm => Sys2Proof.Machine.execTagrd g d b w imm s
  | .tagset g d b l full => Sys2Proof.Machine.execTagset g d b l full s
  | .park g b leaf ev x regs => Sys2Proof.Machine.execPark g b leaf ev x regs s
  | .aadd g d b v w imm => Sys2Proof.Machine.execAadd g d b v w imm s
  | .aand g d b v w imm => Sys2Proof.Machine.execAand g d b v w imm s
  | .aor g d b v w imm => Sys2Proof.Machine.execAor g d b v w imm s
  | .axor g d b v w imm => Sys2Proof.Machine.execAxor g d b v w imm s
  | .amin g d b v uns w imm => Sys2Proof.Machine.execAmin g d b v uns w imm s
  | .amax g d b v uns w imm => Sys2Proof.Machine.execAmax g d b v uns w imm s
  | .axchg g d b v w imm => Sys2Proof.Machine.execAxchg g d b v w imm s
  | .acas g d b v c w imm => Sys2Proof.Machine.execAcas g d b v c w imm s
  | .afadd g d b v f32 imm => Sys2Proof.Machine.execAfadd g d b v f32 imm s
  | .aincw g d b v w imm => Sys2Proof.Machine.execAincw g d b v w imm s
  | .afab g d b v c w imm => Sys2Proof.Machine.execAfab g d b v c w imm s
  | .redadd g b v w imm => Sys2Proof.Machine.execRedadd g b v w imm s
  | .redand g b v w imm => Sys2Proof.Machine.execRedand g b v w imm s
  | .redor g b v w imm => Sys2Proof.Machine.execRedor g b v w imm s
  | .redxor g b v w imm => Sys2Proof.Machine.execRedxor g b v w imm s
  | .redmin g b v uns w imm => Sys2Proof.Machine.execRedmin g b v uns w imm s
  | .redmax g b v uns w imm => Sys2Proof.Machine.execRedmax g b v uns w imm s
  | .redfadd g b v f32 imm => Sys2Proof.Machine.execRedfadd g b v f32 imm s
  | .mcas2 g d b imm => Sys2Proof.Machine.execMcas2 g d b imm s
  | .mcas4 g d b imm => Sys2Proof.Machine.execMcas4 g d b imm s
  | .enq g d b node imm => Sys2Proof.Machine.execEnq g d b node imm s
  | .chase g d b o hops imm => Sys2Proof.Machine.execChase g d b o hops imm s
  | .winopen g d a => Sys2Proof.Machine.execWinopen g d a s
  | .winclose g d h => Sys2Proof.Machine.execWinclose g d h s
  | .winstat g d h => Sys2Proof.Machine.execWinstat g d h s
  | .gflush g => Sys2Proof.Machine.execGflush g s
  | .gflushNw g => Sys2Proof.Machine.execGflushNw g s
  | .gstat g d isle => Sys2Proof.Machine.execGstat g d isle s
  | .rfrecVa g d => Sys2Proof.Machine.execRfrecVa g d s
  | .rfrecSt g d => Sys2Proof.Machine.execRfrecSt g d s
  | .rfclr g d => Sys2Proof.Machine.execRfclr g d s
  | .connst g d p => Sys2Proof.Machine.execConnst g d p s
  | .spalloc g d n => Sys2Proof.Machine.execSpalloc g d n s
  | .spfree g d t => Sys2Proof.Machine.execSpfree g d t s
  | .thandEng g d t => Sys2Proof.Machine.execThandEng g d t s
  | .thandThr g d t => Sys2Proof.Machine.execThandThr g d t s
  | .tcopy g d t o e fill fmt out bytes tiles folio => Sys2Proof.Machine.execTcopy g d t o e fill fmt out bytes tiles folio s
  | .twait g d t dl pr phase => Sys2Proof.Machine.execTwait g d t dl pr phase s
  | .tstat g d t => Sys2Proof.Machine.execTstat g d t s
  | .spld g d b w sgn imm => Sys2Proof.Machine.execSpld g d b w sgn imm s
  | .spst g b v w imm => Sys2Proof.Machine.execSpst g b v w imm s
  | .sphash g d o key => Sys2Proof.Machine.execSphash g d o key s
  | .tcq g d => Sys2Proof.Machine.execTcq g d s
  | .vlease g d try_ => Sys2Proof.Machine.execVlease g d try_ s
  | .vrel g => Sys2Proof.Machine.execVrel g s
  | .vld g d c f folio => Sys2Proof.Machine.execVld g d c f folio s
  | .vst g c v f folio => Sys2Proof.Machine.execVst g c v f folio s
  | .vldx g d c ix f folio => Sys2Proof.Machine.execVldx g d c ix f folio s
  | .vstx g c v ix f folio => Sys2Proof.Machine.execVstx g c v ix f folio s
  | .vmov g d a => Sys2Proof.Machine.execVmov g d a s
  | .vsplat g d a f => Sys2Proof.Machine.execVsplat g d a f s
  | .vadd g d a b rm sat f => Sys2Proof.Machine.execVadd g d a b rm sat f s
  | .vsub g d a b rm sat f => Sys2Proof.Machine.execVsub g d a b rm sat f s
  | .vmul g d a b rm sat f => Sys2Proof.Machine.execVmul g d a b rm sat f s
  | .vfma g d a b c rm f => Sys2Proof.Machine.execVfma g d a b c rm f s
  | .vfms g d a b c rm f => Sys2Proof.Machine.execVfms g d a b c rm f s
  | .vfnma g d a b c rm f => Sys2Proof.Machine.execVfnma g d a b c rm f s
  | .vmin g d a b f => Sys2Proof.Machine.execVmin g d a b f s
  | .vmax g d a b f => Sys2Proof.Machine.execVmax g d a b f s
  | .vabs g d a sat f => Sys2Proof.Machine.execVabs g d a sat f s
  | .vneg g d a sat f => Sys2Proof.Machine.execVneg g d a sat f s
  | .vand g d a b f => Sys2Proof.Machine.execVand g d a b f s
  | .vor g d a b f => Sys2Proof.Machine.execVor g d a b f s
  | .vxor g d a b f => Sys2Proof.Machine.execVxor g d a b f s
  | .vshl g d a b f => Sys2Proof.Machine.execVshl g d a b f s
  | .vshr g d a b f => Sys2Proof.Machine.execVshr g d a b f s
  | .vsra g d a b f => Sys2Proof.Machine.execVsra g d a b f s
  | .vcmp g d a b c f => Sys2Proof.Machine.execVcmp g d a b c f s
  | .vsel g d a b m f => Sys2Proof.Machine.execVsel g d a b m f s
  | .vshuf g d a b f k pat => Sys2Proof.Machine.execVshuf g d a b f k pat s
  | .vperm g d a b ix f => Sys2Proof.Machine.execVperm g d a b ix f s
  | .vextr g d a l f off => Sys2Proof.Machine.execVextr g d a l f off s
  | .vins g d a v l f off => Sys2Proof.Machine.execVins g d a v l f off s
  | .vredadd g d a f => Sys2Proof.Machine.execVredadd g d a f s
  | .vredmin g d a f => Sys2Proof.Machine.execVredmin g d a f s
  | .vredmax g d a f => Sys2Proof.Machine.execVredmax g d a f s
  | .vcvt g d a rm tf sf => Sys2Proof.Machine.execVcvt g d a rm tf sf s
  | .vcvts g d a seed tf sf => Sys2Proof.Machine.execVcvts g d a seed tf sf s
  | .vwadd g d a b rm f => Sys2Proof.Machine.execVwadd g d a b rm f s
  | .vwmul g d a b rm f => Sys2Proof.Machine.execVwmul g d a b rm f s
  | .vexp2 g d a rm f => Sys2Proof.Machine.execVexp2 g d a rm f s
  | .vlog2 g d a rm f => Sys2Proof.Machine.execVlog2 g d a rm f s
  | .vrcp g d a rm f => Sys2Proof.Machine.execVrcp g d a rm f s
  | .vrsqrt g d a rm f => Sys2Proof.Machine.execVrsqrt g d a rm f s
  | .vsqrt g d a rm f => Sys2Proof.Machine.execVsqrt g d a rm f s
  | .folset g d ix a => Sys2Proof.Machine.execFolset g d ix a s
  | .folsetInv g d ix => Sys2Proof.Machine.execFolsetInv g d ix s
  | .folrd g d ix w => Sys2Proof.Machine.execFolrd g d ix w s
  | .folchk g d o e acc folio => Sys2Proof.Machine.execFolchk g d o e acc folio s
  | .wbld g o rows slot folio => Sys2Proof.Machine.execWbld g o rows slot folio s
  | .wbinv g m => Sys2Proof.Machine.execWbinv g m s
  | .mxz g acc => Sys2Proof.Machine.execMxz g acc s
  | .mxa g o h acc slot folio => Sys2Proof.Machine.execMxa g o h acc slot folio s
  | .mxst g o fill acc folio => Sys2Proof.Machine.execMxst g o fill acc folio s
  | .mxld g o acc folio => Sys2Proof.Machine.execMxld g o acc folio s
  | .mxdot g oa ob l acc fb fa => Sys2Proof.Machine.execMxdot g oa ob l acc fb fa s
  | .mxsend g d cap a => Sys2Proof.Machine.execMxsend g d cap a s
  | .mxkey g k => Sys2Proof.Machine.execMxkey g k s
  | .mxstat g d => Sys2Proof.Machine.execMxstat g d s
  | .mxwait g => Sys2Proof.Machine.execMxwait g s
  | .fence g later prior => Sys2Proof.Machine.execFence g later prior s
  | .fencex g a => Sys2Proof.Machine.execFencex g a s
  | .launch g d a => Sys2Proof.Machine.execLaunch g d a s
  | .trigger g => Sys2Proof.Machine.execTrigger g s
  | .bar g d n dl sc b => Sys2Proof.Machine.execBar g d n dl sc b s
  | .evset g e => Sys2Proof.Machine.execEvset g e s
  | .evclr g e => Sys2Proof.Machine.execEvclr g e s
  | .evwait g d e dl k => Sys2Proof.Machine.execEvwait g d e dl k s
  | .mfs g d r => Sys2Proof.Machine.execMfs g d r s
  | .mts g a r => Sys2Proof.Machine.execMts g a r s
  | .rte g => Sys2Proof.Machine.execRte g s
  | .trap g code => Sys2Proof.Machine.execTrap g code s
  | .cyc g d => Sys2Proof.Machine.execCyc g d s
  | .tlbinvPage g sp va => Sys2Proof.Machine.execTlbinvPage g sp va s
  | .tlbinvSpace g sp => Sys2Proof.Machine.execTlbinvSpace g sp s
  | .tlbinvAll g => Sys2Proof.Machine.execTlbinvAll g s
  | .replay g d h => Sys2Proof.Machine.execReplay g d h s
  | .abortset g d t e => Sys2Proof.Machine.execAbortset g d t e s
  | .fatal g d h => Sys2Proof.Machine.execFatal g d h s
  | .pgcmd g d a => Sys2Proof.Machine.execPgcmd g d a s
  | .ageClassRise slot => Sys2Proof.Machine.execAgeClassRise slot s
  | .restEnd slot => Sys2Proof.Machine.execRestEnd slot s
  | .closingWaitEnd slot => Sys2Proof.Machine.execClosingWaitEnd slot s
  | .taskDispatch slot => Sys2Proof.Machine.execTaskDispatch slot s
  | .leafResume slot => Sys2Proof.Machine.execLeafResume slot s
  | .sendQueueRelease core => Sys2Proof.Machine.execSendQueueRelease core s
  | .meshWordArrival k => Sys2Proof.Machine.execMeshWordArrival k s
  | .replyAccept k => Sys2Proof.Machine.execReplyAccept k s
  | .dividerDeliver core => Sys2Proof.Machine.execDividerDeliver core s
  | .codeLineFill k => Sys2Proof.Machine.execCodeLineFill k s
  | .codeRefetch quire k => Sys2Proof.Machine.execCodeRefetch quire k s
  | .cbinv isle => Sys2Proof.Machine.execCbinv isle s
  | .storeBufferWrite core k => Sys2Proof.Machine.execStoreBufferWrite core k s
  | .memrefArrive k part => Sys2Proof.Machine.execMemrefArrive k part s
  | .moorDeadlineExpire isle k => Sys2Proof.Machine.execMoorDeadlineExpire isle k s
  | .tagsetWave k => Sys2Proof.Machine.execTagsetWave k s
  | .reductionAck k => Sys2Proof.Machine.execReductionAck k s
  | .agentMcas k => Sys2Proof.Machine.execAgentMcas k s
  | .agentEnq k => Sys2Proof.Machine.execAgentEnq k s
  | .agentChaseHop k => Sys2Proof.Machine.execAgentChaseHop k s
  | .harbourAmo hart op w addr value => Sys2Proof.Machine.execHarbourAmo hart op w addr value s
  | .harbourLr hart w addr => Sys2Proof.Machine.execHarbourLr hart w addr s
  | .harbourSc hart w addr value => Sys2Proof.Machine.execHarbourSc hart w addr value s
  | .reservationExpire hart => Sys2Proof.Machine.execReservationExpire hart s
  | .harbourAccess hart store w addr value => Sys2Proof.Machine.execHarbourAccess hart store w addr value s
  | .fenceRecordDiscard slot k => Sys2Proof.Machine.execFenceRecordDiscard slot k s
  | .gatherElementArrive k => Sys2Proof.Machine.execGatherElementArrive k s
  | .gatherAgeSeal isle k => Sys2Proof.Machine.execGatherAgeSeal isle k s
  | .frameSend k => Sys2Proof.Machine.execFrameSend k s
  | .dataFrameReceive f => Sys2Proof.Machine.execDataFrameReceive f s
  | .ackFrameReceive f => Sys2Proof.Machine.execAckFrameReceive f s
  | .ackFrameSend peer job => Sys2Proof.Machine.execAckFrameSend peer job s
  | .replayTimeout peer job => Sys2Proof.Machine.execReplayTimeout peer job s
  | .ratePeriodEnd peer job => Sys2Proof.Machine.execRatePeriodEnd peer job s
  | .elementStatusReceive k => Sys2Proof.Machine.execElementStatusReceive k s
  | .wincloseDrainEnd h => Sys2Proof.Machine.execWincloseDrainEnd h s
  | .laneLightLoss strait chan lost => Sys2Proof.Machine.execLaneLightLoss strait chan lost s
  | .laneMaskAgreed strait chan => Sys2Proof.Machine.execLaneMaskAgreed strait chan s
  | .pathDownTimeout peer job => Sys2Proof.Machine.execPathDownTimeout peer job s
  | .epochSwitch peer job => Sys2Proof.Machine.execEpochSwitch peer job s
  | .frouteWrite p v => Sys2Proof.Machine.execFrouteWrite p v s
  | .fpkgWrite v => Sys2Proof.Machine.execFpkgWrite v s
  | .keycmdLoad w0 key => Sys2Proof.Machine.execKeycmdLoad w0 key s
  | .keycmdZeroise w0 => Sys2Proof.Machine.execKeycmdZeroise w0 s
  | .lanereq v lit => Sys2Proof.Machine.execLanereq v lit s
  | .copyStart quire => Sys2Proof.Machine.execCopyStart quire s
  | .copyComplete quire k => Sys2Proof.Machine.execCopyComplete quire k s
  | .promiseMiss slot => Sys2Proof.Machine.execPromiseMiss slot s
  | .twaitDeadline slot => Sys2Proof.Machine.execTwaitDeadline slot s
  | .tileZeroingEnd quire tile => Sys2Proof.Machine.execTileZeroingEnd quire tile s
  | .folioFetch quire idx => Sys2Proof.Machine.execFolioFetch quire idx s
  | .matrixCommandExecute core => Sys2Proof.Machine.execMatrixCommandExecute core s
  | .matrixCommandComplete core loader => Sys2Proof.Machine.execMatrixCommandComplete core loader s
  | .loaderCommandStart core => Sys2Proof.Machine.execLoaderCommandStart core s
  | .weightRowBlockArrive core => Sys2Proof.Machine.execWeightRowBlockArrive core s
  | .mxsendReceive k => Sys2Proof.Machine.execMxsendReceive k s
  | .eventBitUpdate k => Sys2Proof.Machine.execEventBitUpdate k s
  | .leafReady quire k => Sys2Proof.Machine.execLeafReady quire k s
  | .evwaitDeadline slot => Sys2Proof.Machine.execEvwaitDeadline slot s
  | .barDeadline slot => Sys2Proof.Machine.execBarDeadline slot s
  | .tasksetRetire tsid => Sys2Proof.Machine.execTasksetRetire tsid s
  | .asyncTrapDeliver slot => Sys2Proof.Machine.execAsyncTrapDeliver slot s
  | .walkComplete k => Sys2Proof.Machine.execWalkComplete k s
  | .faultRingWrite isle => Sys2Proof.Machine.execFaultRingWrite isle s
  | .pageCommandComplete k far => Sys2Proof.Machine.execPageCommandComplete k far s
  | .moorbaseWrite isle lim v => Sys2Proof.Machine.execMoorbaseWrite isle lim v s
  | .memcfgLock isle => Sys2Proof.Machine.execMemcfgLock isle s
  | .hashMaskWrite isle k v => Sys2Proof.Machine.execHashMaskWrite isle k v s
  | .ablimWrite isle v => Sys2Proof.Machine.execAblimWrite isle v s
  | .gageWrite isle v => Sys2Proof.Machine.execGageWrite isle v s
  | .fqbaseWrite isle v => Sys2Proof.Machine.execFqbaseWrite isle v s
  | .fqctlWrite isle v => Sys2Proof.Machine.execFqctlWrite isle v s
  | .wstateWrite slot v => Sys2Proof.Machine.execWstateWrite slot v s
  | .launchPortLaunch port c => Sys2Proof.Machine.execLaunchPortLaunch port c s
  | .ferryLaunch port c => Sys2Proof.Machine.execFerryLaunch port c s
  | .snap port c => Sys2Proof.Machine.execSnap port c s
  | .evict port c => Sys2Proof.Machine.execEvict port c s
  | .resume port c => Sys2Proof.Machine.execResume port c s
  | .terminate port c => Sys2Proof.Machine.execTerminate port c s
  | .preemptDrainEnd tsid => Sys2Proof.Machine.execPreemptDrainEnd tsid s
  | .preemptDeadline tsid => Sys2Proof.Machine.execPreemptDeadline tsid s
  | .powerUp b => Sys2Proof.Machine.execPowerUp b s
  | .reset b => Sys2Proof.Machine.execReset b s
  | .statusRequest => Sys2Proof.Machine.execStatusRequest s
  | .attestationRequest nonce => Sys2Proof.Machine.execAttestationRequest nonce s
  | .journalRead seq => Sys2Proof.Machine.execJournalRead seq s
  | .resetRequest => Sys2Proof.Machine.execResetRequest s
  | .checkpoint peer far => Sys2Proof.Machine.execCheckpoint peer far s
  | .eventRingSetup base size => Sys2Proof.Machine.execEventRingSetup base size s
  | .thermalMeasure power temps => Sys2Proof.Machine.execThermalMeasure power temps s
  | .coreFail core => Sys2Proof.Machine.execCoreFail core s
  | .illegalInstruction detail => Sys2Proof.Machine.execIllegalInstruction detail s
  | .illFormedPcIssue => Sys2Proof.Machine.execIllFormedPcIssue s
  | .checkpointComplete far => Sys2Proof.Machine.execCheckpointComplete far s

end Sys2Proof.Machine
end

