-- ==== Sys2Proof/Machine/Schedule.lean ====
section
/-! DEFINITION. How a selected slot issues, one clock that passes, and the order in which the machine's units move by themselves
(R33, R45, R77, R78, R136, R264, R380; log entry 1). -/

namespace Sys2Proof.Machine

/-! ### Issue -/

/-- Member A of a pair completed: its slot stands at the next PC, ready to go on (R33). -/
def State.aDone (s t : State) : Bool :=
  let u := t.slot s.cur
  isActive u.st && decide (u.gen = s.me.gen) && decide (u.pc = nextPc s.me.pc) && decide (u.wait = .none)
    && !u.handlerDue

/-- The mark of member B on the pair: a wait on registers is marked as B's. -/
def Wait.ofPair : Wait → Wait
  | .reg j => .pairRegs [j]
  | .regs js => .pairRegs js
  | w => w

/-- A pair that waits as a unit: neither member has its effect, what member B asked for is on its way (R33).
DEDUCED: log entry 8. -/
def State.pairVoid (s : State) (b : Instr) (u : State) : State :=
  let s := match b with
    | .gflush _ => s.sealSlot s.cur
    | .twait _ _ _ _ _ _ => { s with quires := u.quires }
    | _ => s
  let s := s.modSlot s.cur fun t => { t with wait := (u.slot s.cur).wait.ofPair, stall := (u.slot s.cur).stall }
  { s with codeFills := u.codeFills, walks := u.walks, folioWait := u.folioWait }

/-- The issue ended in a wait: the slot stands where it stood. DEDUCED: log entry 8. -/
def State.standsStill (s t : State) : Bool :=
  decide ((t.slot s.cur).wait ≠ .none) && decide ((t.slot s.cur).pc = s.me.pc)

/-- Member B would wait too if A had not run: what it waits for is not A's doing. -/
def State.waitsAlone (s : State) (b : Instr) (pc : Word) : Bool :=
  let t := s.modSlot s.cur fun u => { u with pc := pc, wait := .none }
  match exec b t with
  | .next u => t.standsStill u
  | _ => false

/-- Member B after A, which answered `t`: both complete, or the pair waits as a unit. Where B waits for what A itself began, A has
completed and B waits at its own PC (R33). DEDUCED: log entry 8. -/
def State.runB (s t : State) (b : Instr) : Host.Outcome State Fault Refusal :=
  match exec b t with
  | .next u => if t.standsStill u && s.waitsAlone b t.me.pc then .next (s.pairVoid b u) else .next u
  | o => o

/-- Issue what was fetched: one instruction, or A and then B (R33). DEDUCED: log entry 8. DEDUCED: log entry 58. -/
def State.run (s : State) (i : Issue) : Host.Outcome State Fault Refusal :=
  match exec i.a s with
  | .next t =>
    match i.b with
    | none => .next t
    | some b => if s.aDone t then s.runB t b else .next t
  | o => o

/-- The wait of member B ended in a trap: A completes, and the trap is precise at B (R33, R136). -/
def State.runTrapped (s : State) (i : Issue) (e : Stop) : Host.Outcome State Fault Refusal :=
  match exec i.a s with
  | .next t => if s.aDone t then t.finish (.error e) else .next t
  | o => o

/-- The selected slot issues what its PC holds, or takes the trap that ends its wait (R45, R136). DEDUCED: log entry 8. -/
def State.issueBody (s : State) : Host.Outcome State Fault Refusal :=
  let go := fun (f : State → Issue → Host.Outcome State Fault Refusal) =>
    match s.fetch with
    | .error (.trap 1 d) => execIllegalInstruction (d.setWidth 8) s
    | .error (.trap 2 v) => if pcOk s.me.pc then s.finish (.error (.trap 2 v)) else execIllFormedPcIssue s
    | .error e => s.finish (.error e)
    | .ok i => f s.usedLine i
  match s.waitTrap, s.me.wait with
  | some e, .pairRegs _ => go fun t i => t.runTrapped i e
  | some e, _ => s.finish (.error e)
  | none, _ => go State.run

/-- The selected slot issues: it takes a pending trap first, or its lease again when it was resumed (R264, R380).
DEDUCED: log entry 58. -/
def State.issueSlot (s : State) : Host.Outcome State Fault Refusal :=
  let go := fun (s : State) => if s.me.trapDue then .next (s.takePending s.cur) else s.issueBody
  if s.me.lease = some 16 then
    let c := s.core (coreOf s.cur)
    match (if s.leaseTurn s.cur then c.freeLease else none) with
    | some l => go (s.takeLease s.cur l s.me.v)
    | none => .next ((s.queueLease s.cur).modSlot s.cur fun t => { t with wait := .other })
  else go s

/-- A void issue of slot `k` that answers `t` would ask for nothing that has not been asked for: no buffer to seal (R219), no page,
line or folio to fetch, no arrival at a barrier. -/
def State.asksNothing (s t : State) (k : Nat) : Bool :=
  decide (t.isles = s.isles) && decide (t.walks = s.walks) && decide (t.codeFills = s.codeFills) && decide (t.folioWait = s.folioWait)
    && decide (t.bars = s.bars) && decide ((t.slot k).stall = (s.slot k).stall)

/-- A slot with the mark `.other` would wait at its instruction as before: it has no lease to take again, or its issue stands
where it stood and asks for nothing. -/
def State.stillWaits (s : State) (k : Nat) : Bool :=
  let s := { s with cur := k }
  let c := s.core (coreOf k)
  if s.me.lease = some 16 then !(s.leaseTurn k && c.freeLease.isSome)
  else match s.issueBody with
    | .next t => s.standsStill t && decide ((t.slot k).wait = .other) && s.asksNothing t k
    | _ => false

/-- Marks whose condition has ended are cleared, without an issue: a `wait until` holds its slot until then (R9, R76).
DEDUCED: log entry 7. -/
def State.clearMarks (s : State) : State :=
  s.modSlots (fun k t => decide (t.wait = .other) && isActive t.st && !s.stillWaits k) fun t => { t with wait := .none }

/-- Select on a core (R77): the picked slot issues. -/
def State.select (s : State) (core : Nat) : Host.Outcome State Fault Refusal :=
  if s.phase = .up then
    match s.clearMarks.pick core with
    | some (k, cl) => (s.clearMarks.selected k cl).issueSlot
    | none => .next s
  else .next s

/-! ### Clocks and moves -/

/-- An event row, as opposed to an instruction. -/
def isEvent (e : Instr) : Bool := (encodeRaw e).isNone

/-- Every core counts a clock in which a slot was ready and none was selected; it starts again with a selection, or with none
ready (R418). -/
def State.countStarved (s : State) : State :=
  (s.slots.map fun e => coreOf e.1).eraseDups.foldl (fun t c => t.modCore c fun x =>
    { x with starve := if !s.pickedNow c && !(s.readySlots c).isEmpty then x.starve + 1 else 0 }) s

/-- One clock passes: every ready slot that is not selected grows older (R78). DESIGN CHOICE: log entry 56. -/
def State.tick (s : State) : State :=
  let s := (s.eventsEnd.clearMarks).countStarved
  { s.modSlots (fun k _ => s.ready k) (fun t => { t with age := t.age + 1 }) with cyc := s.cyc + 1 }

/-- A number of clocks pass. DESIGN CHOICE: log entry 56. -/
def State.pass (s : State) : Nat → State
  | 0 => s
  | n + 1 => s.tick.pass n

/-- What starts a device. -/
def isStart (e : Instr) : Bool :=
  match e with
  | .powerUp _ => true
  | .reset _ => true
  | _ => false

def isStatus (e : Instr) : Bool :=
  match e with
  | .statusRequest => true
  | _ => false

/-- A word of memory meets an uncorrectable error: one of DRAM, or of a quire's scratchpad (R417). -/
def State.breakWord (s : State) (home : Nat) : State :=
  if home < dramEnd ∨ (isSp home ∧ spQuire home < 192) then { s with broken := tset false s.broken (home / 8) true } else s

/-- One move of the schedule. A device that is off does nothing until it starts; a halted one answers status requests only
(R406). -/
def State.move (s : State) (m : Move) : Host.Outcome State Fault Refusal :=
  match m with
  | .select c => s.select c
  | .event e =>
    if !isEvent e then .next s
    else if isStart e then exec e s
    else if s.phase = .off then .next s
    else if s.phase = .halted ∧ !isStatus e then .next s
    else exec e s
  | .pass n => .next (s.pass n)
  | .source n => .next (if s.phase = .off then s else s.sourceFails n)
  | .corrected => .next { s with corrected := s.corrected + 1 }
  | .breaks home => .next (s.breakWord home)
  | .debug k r => .next { s with answer := .register (s.debugRead k r) }
  | .mxReads core loader home => .next (if s.phase = .up then s.mxReads core loader home else s)
  | .pageReads k home => .next (if s.phase = .up then s.pageReads k home else s)

/-! ### What the machine does by itself (log entry 1) -/

/-- A candidate move. -/
abbrev Own := State → Host.Outcome State Fault Refusal

/-- One candidate for each position of a list. -/
def each {α : Type} (l : List α) (f : Nat → Own) : List Own := (List.range l.length).map f

/-- What is on its way arrives. -/
def State.arrivals (s : State) : List Own :=
  each s.replies (fun k => execReplyAccept k)
    ++ each s.acks (fun k => execReductionAck k)
    ++ s.cores.map (fun c => execDividerDeliver c.1)
    ++ each s.codeFills (fun k => execCodeLineFill k)
    ++ s.quires.flatMap (fun q => each q.2.code fun k => execCodeRefetch q.1 k)
    ++ each s.walks (fun k => execWalkComplete k)
    ++ s.folioWait.map (fun f => execFolioFetch f.1 f.2)
    ++ s.cores.flatMap (fun c => each c.2.sb fun k => execStoreBufferWrite c.1 k)
    ++ each s.refs (fun k => execMemrefArrive k none)
    ++ each s.remRefs (fun k => execMemrefArrive (s.refs.length + k) none)
    ++ each s.laneReqs (fun _ => execLanereq (s.laneReqs.headD 0) 0xFFFF)
    ++ (List.range (16 * s.refs.length)).map (fun k => execTagsetWave k)
    ++ each s.refs (fun k => execAgentMcas k)
    ++ each s.refs (fun k => execAgentEnq k)
    ++ each s.refs (fun k => execAgentChaseHop k)
    ++ each s.mesh (fun k => execMeshWordArrival k)
    ++ s.cores.map (fun c => execSendQueueRelease c.1)
    ++ each s.evUpds (fun k => execEventBitUpdate k)

/-- The fabric's moves. -/
def State.fabricMoves (s : State) : List Own :=
  each s.elemsOut (fun k => execGatherElementArrive k)
    ++ each s.conns (fun k => execFrameSend k)
    ++ s.conns.map (fun c => execAckFrameSend c.peer c.job)
    ++ each s.statusIn (fun k => execElementStatusReceive k)
    ++ (List.range 1024).map (fun h => execWincloseDrainEnd h)
    ++ s.conns.map (fun c => execPathDownTimeout c.peer c.job)
    ++ s.conns.map (fun c => execEpochSwitch c.peer c.job)
    ++ s.conns.map (fun c => execReplayTimeout c.peer c.job)
    ++ s.conns.map (fun c => execRatePeriodEnd c.peer c.job)
    ++ s.isles.flatMap (fun i => each i.2.gbufs fun k => execGatherAgeSeal i.1 k)

/-- The moves of copiers and matrix units. -/
def State.engineMoves (s : State) : List Own :=
  s.quires.flatMap (fun q => each q.2.running (fun k => execCopyComplete q.1 k) ++ [execCopyStart q.1]
      ++ q.2.tiles.map fun t => execTileZeroingEnd q.1 t.1)
    ++ s.cores.flatMap (fun c => [execMatrixCommandComplete c.1 false, execMatrixCommandComplete c.1 true,
        execMatrixCommandExecute c.1, execLoaderCommandStart c.1, execWeightRowBlockArrive c.1])
    ++ each s.mxMsgs (fun k => execMxsendReceive k)

/-- The oldest OPEN fault entry of an isle has something parked, or 64 clk have passed since it opened (R392): the order
in which the model tries its moves writes a ring entry then. DEDUCED: log entry 45. -/
def State.ringDue (s : State) (isle : Nat) : Bool :=
  (firstOpen (s.isle isle).faults).any fun f => !f.2.parked.isEmpty || decide (f.2.cyc.toNat + 64 ≤ s.cyc)

/-- Deadlines, rests, closings and leaves. -/
def State.slotMoves (s : State) : List Own :=
  s.slots.flatMap (fun e => each e.2.fences (fun k => execFenceRecordDiscard e.1 k)
      ++ [execRestEnd e.1, execClosingWaitEnd e.1, execEvwaitDeadline e.1, execBarDeadline e.1, execTwaitDeadline e.1,
        execPromiseMiss e.1, execAgeClassRise e.1])
    ++ s.isles.flatMap (fun i => (if s.ringDue i.1 then [execFaultRingWrite i.1] else []) ++ each s.moors fun k => execMoorDeadlineExpire i.1 k)
    ++ s.quires.flatMap (fun q => each q.2.leaves fun k => execLeafReady q.1 k)
    ++ s.resv.map (fun r => execReservationExpire r.1)

/-- The lowest FREE slot of a core but slot 0. -/
def State.lowestFree (s : State) (core : Nat) : List Nat :=
  ((leastFrom (fun n => decide ((s.slot (256 * core + 1 + n)).st = .free)) 255 0).map fun n => 256 * core + 1 + n).toList

/-- Cores on which the live sets may run, ascending by set. -/
def State.workCores (s : State) : List Nat := s.sets.flatMap fun e => s.placedCores e.2.isles

/-- Task sets: pre-emptions, dispatch, retirement; commands of the page engine and a checkpoint that end well. -/
def State.setMoves (s : State) : List Own :=
  s.sets.flatMap (fun e => [execPreemptDrainEnd e.1, execPreemptDeadline e.1])
    ++ s.workCores.flatMap (fun c => (s.lowestFree c).flatMap fun k => [execLeafResume k, execTaskDispatch k])
    ++ s.sets.map (fun e => execTasksetRetire e.1)
    ++ each s.pgq (fun k => execPageCommandComplete k .ok)
    ++ [execCheckpointComplete .ok]

/-- Tables that map the first GiB of space 0xFFFF, for reads, writes and system atomics: the space table at 0x10000, then three
levels (R381 to R383, R404). DESIGN CHOICE: log entry 10. -/
def harbourTables : List (Nat × Word) :=
  [(0x10000 + 8 * 0xFFFF, 0x8000000000090000#64), (0x90000, 0x8000000000091000#64), (0x91000, 0x8000000000092000#64),
    (0x92000, 0xE000000000000003#64)]

/-- A start on which nothing fails, with an image in each slot. DESIGN CHOICE: log entry 10. -/
def soundStart : BootFinds where
  failOnce := []
  failTwice := []
  altFails := []
  hangs := none
  torn := none
  deadIsles := []
  badCores := []
  stepping := 0
  images := [1, 6].flatMap fun i => [0, 1].map fun n => {
    step := i, slot := n, version := Config.fusedVersion, edKey := [], mlKey := [], edSig := [], mlSig := [], header := [], payload := [] }
  blocks := []
  sptbase := 0x10000
  tables := harbourTables

/-- A device that is off starts: again after a reset request, else by power-up. -/
def State.startMove (s : State) : Own :=
  if s.journal.any fun e => e.kind == 10 && decide (e.status = 0) then execReset soundStart else execPowerUp soundStart

/-- Cores that have selected no slot for 2^20 clk while one was ready (R418). -/
def State.starved (s : State) : List Nat := (s.cores.filter fun c => decide (2 ^ 20 ≤ c.2.starve)).map (·.1)

/-- The candidates of one step, first to last: an empty schedule. DESIGN CHOICE: log entry 1. -/
def State.ownMoves (s : State) : List Own :=
  match s.phase with
  | .off => [s.startMove]
  | .halted => [fun t => .next (t.pass 1)]
  | .up => s.starved.map (fun c => execCoreFail c) ++ s.arrivals ++ s.fabricMoves ++ s.engineMoves ++ s.slotMoves ++ s.setMoves
      ++ (s.slots.map fun e => coreOf e.1).eraseDups.map (fun c => fun t => t.select c) ++ [fun t => .next (t.pass 1)]

/-- The states differ in more than the model's own counters. -/
def State.moved (s t : State) : Bool := decide ({ t with cur := s.cur, serial := s.serial, draws := s.draws } ≠ s)

/-- The first move of the list that changes the state. -/
def State.firstMove (s : State) : List Own → Host.Outcome State Fault Refusal
  | [] => .next s
  | m :: ms =>
    match m s with
    | .next t => if s.moved t then .next t else s.firstMove ms
    | o => o

/-- The next move: the schedule's, or the machine's own. DESIGN CHOICE: log entry 1. -/
def State.nextMove (s : State) : Host.Outcome State Fault Refusal :=
  match s.sched with
  | m :: rest => { s with sched := rest }.move m
  | [] => s.firstMove s.ownMoves

/-- Records that a move delivered to the event ring are written at its end (R413). -/
def ringAfter (o : Host.Outcome State Fault Refusal) : Host.Outcome State Fault Refusal :=
  match o with
  | .next t => .next t.ringOut
  | o => o

/-! ### Placing an instruction -/

/-- A fetch line whose slot 0 holds the given bits, an entry, with its parities (R24, R25). -/
def lineOf (w : BitVec 96) : BitVec 512 :=
  let lw : Nat := 2 ^ 31 + (if parityNat 96 w.toNat then 2 ^ 26 else 0) + 1
  BitVec.ofNat 512 (lw + w.toNat * 2 ^ 32)

/-- The slot and the line address that `State.withFetchWord` uses (log entry 6). -/
def probeSlot : Nat := 1
def probeLine : Nat := 0x10000

/-- The code-buffer line that holds an instruction word. DESIGN CHOICE: log entry 6. -/
def probeCode (nbits w : Nat) : CodeLine where
  space := 0
  line := probeLine
  bytes := lineOf (BitVec.ofNat 96 (w % 2 ^ nbits))
  bad := false
  again := []

/-- The task set and the slot that run it. DESIGN CHOICE: log entry 6. -/
def probeSet : TaskSet := { TaskSet.init with isles := 1, slots := 1, tasks := 1, sent := [1], no := 1 }
/-- The thread that runs the word placed. DESIGN CHOICE: log entry 6. -/
def probeThread : Slot := { Slot.init with st := .active, pc := BitVec.ofNat 64 probeLine, tsid := some 0, gen := 1 }

end Sys2Proof.Machine
end

