-- ==== Sys2Proof/Machine/Step.lean ====
section
/-! DEFINITION. One step: the schedule's next move, an issue of a picked slot, an event of a unit, or clocks that pass. -/

namespace Sys2Proof.Machine

/-- One step of the machine: the next move, after which the event ring is written. DESIGN CHOICE: log entry 1. -/
def step (s : State) : Host.Outcome State Fault Refusal := ringAfter s.nextMove

/-- `s` with an instruction stored where the next step fetches: a task set with one running thread in slot 1 of core 0,
its line held in the code buffer of quire 0, and that core selected next (log entry 6). DESIGN CHOICE: log entry 6. -/
def State.withFetchWord (s : State) (nbits w : Nat) : State :=
  let s := (s.setSet 0 probeSet).setSlot probeSlot probeThread
  let s := s.modQuire 0 fun q => q.placeLine (probeCode nbits w)
  { s with phase := .up, cyc := Nat.max s.cyc 8, sched := [.select 0] }

end Sys2Proof.Machine
end

