-- ==== Sys2Proof/Safety.lean ====
section
/-! DEFINITION. The terms that statements use: states whose tables are canonical, states whose traps reach a handler, what an
instruction needs before it completes, and tables of what instructions of one shape do. -/

namespace Sys2Proof.Machine

/-! ### States -/

/-- Memory is in its canonical form: strictly rising addresses, no byte equal to what an unlisted address reads as. -/
abbrev Memory.wf (m : List Host.Cell) : Bool := tabWf memDefault m

/-- Memory, presence bits, errors and the tables of units and task sets are in their canonical form. -/
def State.tablesWf (s : State) : Bool :=
  Memory.wf s.mem && tabWf false s.fulls && tabWf false s.broken && tabWf Slot.init s.slots && tabWf Core.init s.cores
    && tabWf Quire.init s.quires && tabWf Isle.init s.isles && tabWf TaskSet.init s.sets

/-- A trap of slot `k` reaches its handler: none runs, and the vector is a usable PC (R377). -/
def State.trapsLand (s : State) (k : Nat) : Prop :=
  (s.slot k).inh = false ∧ (s.slotSet k).tsvec ≠ 0 ∧ pcOk (s.slotSet k).tsvec = true

/-- The issuing slot runs a thread. -/
def State.running (s : State) : Prop := s.me.st = .active

/-- Slots other than `k` hold what they held. -/
def State.sameSlotsBut (s t : State) (k : Nat) : Prop := ∀ n, n ≠ k → t.slot n = s.slot n

/-- Every byte of memory, every presence bit and every error mark is what it was. -/
def State.sameMemory (s t : State) : Prop := t.mem = s.mem ∧ t.fulls = s.fulls ∧ t.broken = s.broken

/-- The line of a transfer's target is held by the code buffer and may be fetched (R28, R35). -/
def State.targetLine (s : State) (pc : Word) (l : CodeLine) : Prop :=
  pcOk pc = true ∧ pcAddr pc = .ok () ∧ (s.quire s.myQuire).lineAt s.mySpace (pcLine pc) = some l ∧ l.again = []

/-- The scratchpad guard trap of BAR, EXIT, FOLD and PARK is not due (R249). -/
def State.guardClear (s : State) : Prop := grecCount s.me.grec = 0 ∨ s.me.inh = true

/-- The slot of a mesh word's target takes it: ACTIVE or RESTING, in the generation that the word names (R97). -/
def State.takesWord (s : State) (core : Nat) (target : BitVec 28) : Prop :=
  accepts (s.slot (256 * core + targetSlot target)).st = true ∧
    (s.slot (256 * core + targetSlot target)).gen = targetGen target

/-- Slot `m` has the most inbox words of a core, and the lowest number of those that do (R99). -/
def Core.mostWords (c : Core) (m : Nat) : Prop :=
  let n (k : Nat) : Nat := (c.inbox.filter fun w => targetSlot w.target == k).length
  m < 256 ∧ 0 < n m ∧ ∀ k, k < 256 → n k ≤ n m ∧ (k < m → n k < n m)

/-! ### Operands -/

/-- The guard of an instruction; none for an event of a unit. -/
def guardIn (i : Instr) : Option Guard := (encodeRaw i).map guardOf

/-- The guard lets the instruction execute and its x and port sources read as `vs`; `u` is the state once port words are taken
and kills are made (R37, R39, R40, R95). -/
def State.operands (s : State) (g : Guard) (srcs : List Src) (vs : List Word) (u : State) : Prop :=
  s.guardTrue g = .ok true ∧ ∃ r, readXs 0 srcs s.rd = .ok (vs, r) ∧ u = r.s.killXs srcs

/-- The same for predicate sources. -/
def State.operandsP (s : State) (g : Guard) (a b : Src) (x y : Bool) (u : State) : Prop :=
  s.guardTrue g = .ok true ∧ ∃ r r', readP 0 a s.rd = .ok (x, r) ∧ readP 1 b r = .ok (y, r') ∧ u = r'.s.killPs [a, b]

/-- An x register whose old content a result may replace: not awaiting a reply and bound to no identifier (R125). -/
def XCell.open_ (c : XCell) : Prop :=
  match c with
  | .empty m => m.reply = false ∧ m.cw = none
  | _ => True

/-! ### Results of instructions that only compute -/

/-- What an instruction that reads x or port sources and writes one x or port destination computes: guard, destination, sources
in field order, and the result from their values. -/
structure Calc where
  g : Guard
  d : Dst
  srcs : List Src
  f : Word → Word → Word

/-- The low `n` bits of a word as a word, extended by sign or by zero (R9). -/
def extended (n : Nat) (sgn : Bool) (x : Word) : Word :=
  if sgn then (x.setWidth n).signExtend 64 else (x.setWidth n).setWidth 64

/-- The results of the integer instructions with x or port results but SEL (R107, R108, R111 to R115, R118, R119). -/
def intCalc : Instr → Option Calc
  | .add g d a b => some ⟨g, d, [a, b], fun x y => x + y⟩
  | .addi g d a imm => some ⟨g, d, [a], fun x _ => x + imm.signExtend 64⟩
  | .sub g d a b => some ⟨g, d, [a, b], fun x y => x - y⟩
  | .neg g d a => some ⟨g, d, [a], fun x _ => 0 - x⟩
  | .mul g d a b => some ⟨g, d, [a, b], fun x y => x * y⟩
  | .muli g d a imm => some ⟨g, d, [a], fun x _ => x * imm.signExtend 64⟩
  | .mulh g d a b .s => some ⟨g, d, [a, b], fun x y => ((x.signExtend 128 * y.signExtend 128) >>> 64).setWidth 64⟩
  | .mulh g d a b .u => some ⟨g, d, [a, b], fun x y => ((x.setWidth 128 * y.setWidth 128) >>> 64).setWidth 64⟩
  | .mulh g d a b .su => some ⟨g, d, [a, b], fun x y => ((x.signExtend 128 * y.setWidth 128) >>> 64).setWidth 64⟩
  | .and g d a b => some ⟨g, d, [a, b], fun x y => x &&& y⟩
  | .andi g d a imm => some ⟨g, d, [a], fun x _ => x &&& imm.signExtend 64⟩
  | .or g d a b => some ⟨g, d, [a, b], fun x y => x ||| y⟩
  | .ori g d a imm => some ⟨g, d, [a], fun x _ => x ||| imm.signExtend 64⟩
  | .xor g d a b => some ⟨g, d, [a, b], fun x y => x ^^^ y⟩
  | .xori g d a imm => some ⟨g, d, [a], fun x _ => x ^^^ imm.signExtend 64⟩
  | .shl g d a b => some ⟨g, d, [a, b], fun x y => x <<< (y.toNat % 64)⟩
  | .shli g d a n => some ⟨g, d, [a], fun x _ => x <<< n.toNat⟩
  | .shr g d a b => some ⟨g, d, [a, b], fun x y => x >>> (y.toNat % 64)⟩
  | .shri g d a n => some ⟨g, d, [a], fun x _ => x >>> n.toNat⟩
  | .sra g d a b => some ⟨g, d, [a, b], fun x y => x.sshiftRight (y.toNat % 64)⟩
  | .srai g d a n => some ⟨g, d, [a], fun x _ => x.sshiftRight n.toNat⟩
  | .ror g d a b => some ⟨g, d, [a, b], fun x y => x.rotateRight (y.toNat % 64)⟩
  | .clz g d a => some ⟨g, d, [a], fun x _ => if x = 0 then 64 else BitVec.ofNat 64 (63 - Nat.log2 x.toNat)⟩
  | .ctz g d a => some ⟨g, d, [a], fun x _ =>
      BitVec.ofNat 64 (((List.range 64).find? fun i => x.getLsbD i).getD 64)⟩
  | .popc g d a => some ⟨g, d, [a], fun x _ => BitVec.ofNat 64 ((List.range 64).filter fun i => x.getLsbD i).length⟩
  | .bext g d a sgn len pos => some ⟨g, d, [a], fun x _ => extended len.toNat sgn (x >>> pos.toNat)⟩
  | .bins g d a b len pos => some ⟨g, d, [a, b], fun x y =>
      let m := ((BitVec.allOnes 64).extractLsb' 0 len.toNat).setWidth 64 <<< pos.toNat
      (x &&& ~~~m) ||| ((y <<< pos.toNat) &&& m)⟩
  | .sext g d a w => some ⟨g, d, [a], fun x _ => extended (widthBits w) true x⟩
  | .zext g d a w => some ⟨g, d, [a], fun x _ => extended (widthBits w) false x⟩
  | .min g d a b uns => some ⟨g, d, [a, b], fun x y => if (if uns then x.ult y else x.slt y) then x else y⟩
  | .max g d a b uns => some ⟨g, d, [a, b], fun x y => if (if uns then x.ult y else x.slt y) then y else x⟩
  | .mov g d a => some ⟨g, d, [a], fun x _ => x⟩
  | .movi g d lit => some ⟨g, d, [], fun _ _ => lit⟩
  | .lea g d b i scale imm => some ⟨g, d, [b, i], fun x y => x + y <<< scale.toNat + imm.signExtend 64⟩
  | .incw g d a b => some ⟨g, d, [a, b], fun x y => if y ≤ x then 0 else x + 1⟩
  | _ => none

/-- An instruction that composes over a pending register: guard, destination, sources, and the pair of its result from the pairs of
its sources; `both` marks MUL, which composes no two pairs with a scale (R105, R128, R132). -/
structure AffForm where
  g : Guard
  d : Dst
  srcs : List Src
  pair : Word × Word → Word × Word → Word × Word
  both : Bool := false

/-- The affine-compatible instructions with the rows of R128's table; an immediate is the pair of scale 0 (R105, R118, R128). -/
def affForm : Instr → Option AffForm
  | .add g d a b => some { g, d, srcs := [a, b], pair := fun x y => (x.1 + y.1, x.2 + y.2) }
  | .addi g d a imm => some { g, d, srcs := [a], pair := fun x _ => (x.1, x.2 + imm.signExtend 64) }
  | .sub g d a b => some { g, d, srcs := [a, b], pair := fun x y => (x.1 - y.1, x.2 - y.2) }
  | .neg g d a => some { g, d, srcs := [a], pair := fun x _ => (0 - x.1, 0 - x.2) }
  | .mov g d a => some { g, d, srcs := [a], pair := fun x _ => x }
  | .shli g d a n => some { g, d, srcs := [a], pair := fun x _ => (x.1 <<< n.toNat, x.2 <<< n.toNat) }
  | .mul g d a b => some { g, d, srcs := [a, b], pair := fun x y => (x.1 * y.2 + y.1 * x.2, x.2 * y.2), both := true }
  | .muli g d a imm => some { g, d, srcs := [a], pair := fun x _ => (x.1 * imm.signExtend 64, x.2 * imm.signExtend 64) }
  | .lea g d b i scale imm => some {
      g, d, srcs := [b, i]
      pair := fun x y => (x.1 + y.1 <<< scale.toNat, x.2 + y.2 <<< scale.toNat + imm.signExtend 64) }
  | _ => none

/-- The pair of a source that is no pending register: x0, or a FULL x register (R123, R128). -/
def State.fullPair (s : State) (a : Src) (p : Word × Word) : Prop :=
  a.reg.toNat < 32 ∧ p.1 = 0 ∧
    if a.reg = 0 then p.2 = 0 else s.me.xCell (xIndex s.me.wstate a.reg.toNat) = .full p.2

/-- The pair of a pending x register read in block mode, EMPTY or CATCH, with the identifier that it names; none where an EMPTY one
is bound to none (R126, R128). -/
def State.pendPair (s : State) (id : Option Nat) (a : Src) (p : Word × Word) : Prop :=
  let c := s.me.xCell (xIndex s.me.wstate a.reg.toNat)
  0 < a.reg.toNat ∧ a.reg.toNat < 32 ∧ a.trap = false ∧
    ((∃ m, c = .empty m ∧ m.cw = id ∧ p = (1, 0)) ∨ ∃ n, id = some n ∧ c = .catching n p)

/-- The sources have these pairs, each of them FULL or pending over `id`, and one at least is pending (R128). -/
def State.pairs (s : State) (id : Option Nat) (srcs : List Src) (ps : List (Word × Word)) : Prop :=
  ps.length = srcs.length ∧ (∃ q ∈ srcs.zip ps, s.pendPair id q.1 q.2) ∧
    ∀ q ∈ srcs.zip ps, s.fullPair q.1 q.2 ∨ s.pendPair id q.1 q.2

/-- The instructions that read a quantity of the machine into an x register or a port, or split work by one. -/
def readCalc (s : State) : Instr → Option Calc
  | .part g d n gr hi coord m p => some ⟨g, d, [n, gr], fun x y =>
      BitVec.ofNat 64 (partBound x.toNat y.toNat (s.partCoord coord).1 (s.partCoord coord).2 m.toNat p.toNat hi)⟩
  | .mdget g d => some ⟨g, d, [], fun _ _ => s.me.mdest⟩
  | .inbcnt g d => some ⟨g, d, [], fun _ _ =>
      BitVec.ofNat 64 (s.readable s.cur 0 + 2 ^ 16 * s.readable s.cur 1 + 2 ^ 32 * s.readable s.cur 2 + 2 ^ 48 * s.readable s.cur 3)⟩
  | .slotid g d => some ⟨g, d, [], fun _ _ => (ownName s.cur s.me.gen).setWidth 64⟩
  | .strayrdHdr g d => some ⟨g, d, [], fun _ _ => if s.cur % 256 = 0 then s.me.hdr else 0⟩
  | .strayrdCnt g d => some ⟨g, d, [], fun _ _ => BitVec.ofNat 64 (s.core (s.cur / 256)).strays⟩
  | .regst g d p r => some ⟨g, d, [], fun _ _ => s.regst p r⟩
  | .cwfree g d => some ⟨g, d, [], fun _ _ => BitVec.ofNat 64 (512 - (s.core (s.cur / 256)).cwUsed.length)⟩
  | .regmap g d grp => some ⟨g, d, [], fun _ _ => s.regmap grp⟩
  | _ => none

/-- The instructions of service level with the trap value that R371 gives them: the opcode, and the register of MFS and MTS. -/
def serviceOnly : Instr → Option (Guard × Word)
  | .folset g _ _ _ => some (g, 0x160)
  | .folsetInv g _ _ => some (g, 0x160)
  | .mxkey g _ => some (g, 0x16B)
  | .mfs g _ r => if sysPriv r.toNat then some (g, 0x1A0 + r.setWidth 64 * 1024) else none
  | .mts g _ r => if sysPriv r.toNat then some (g, 0x1A1 + r.setWidth 64 * 1024) else none
  | .tlbinvPage g _ _ => some (g, 0x1A5)
  | .tlbinvSpace g _ => some (g, 0x1A5)
  | .tlbinvAll g => some (g, 0x1A5)
  | .replay g _ _ => some (g, 0x1A6)
  | .abortset g _ _ _ => some (g, 0x1A7)
  | .fatal g _ _ => some (g, 0x1A8)
  | .pgcmd g _ _ => some (g, 0x1A9)
  | _ => none

/-- The two values that a `Calc` uses. -/
def Calc.value (c : Calc) (vs : List Word) : Word := c.f (vs.getD 0 0) (vs.getD 1 0)

/-! ### Vector instructions -/

/-- The guard lets a vector instruction execute, a lease is held, its v sources read as `xs` (a DEAD one as 0), and `u` is the state
once kills are made (R37, R124, R131, R265). -/
def State.operandsV (s : State) (g : Guard) (srcs : List Src) (xs : List (BitVec 4096)) (u : State) : Prop :=
  s.guardTrue g = .ok true ∧ s.me.lease ≠ none ∧ srcs.length = xs.length ∧
    (∀ (k : Nat) (a : Src) (x : BitVec 4096), srcs[k]? = some a → xs[k]? = some x →
      s.me.vCell (vNum a.reg) = .full x ∨ s.me.vCell (vNum a.reg) = .dead ∧ s.me.deadmode.getLsbD 0 = false ∧ x = 0) ∧
    s.killVs ((srcs.filter (·.kill)).map fun a => vNum a.reg) = .ok u

/-- A vector instruction whose result lanes depend on lanes of its v sources: the lane width in bits, and lane `i` of the result
where `x k n` is lane `n` of source `k`. -/
structure VecCalc where
  g : Guard
  d : Dst
  srcs : List Src
  w : Nat
  f : (Nat → Nat → Nat) → Nat → Nat

/-- An integer result lane: wrapped to the type, or clamped to it first (R278). -/
def intLane (f : Fmt) (sat : Bool) (y : Int) : Nat := intBits f (if sat then clampInt f y else y)

/-- The vector instructions with one v result of the sources' lane width (R277 to R285, R291). -/
def vecCalc : Instr → Option VecCalc
  | .vmov g d a => some ⟨g, d, [a], 8, fun x i => x 0 i⟩
  | .vadd g d a b rm sat f => some ⟨g, d, [a, b], fmtWidth f, fun x i =>
      if isFloat f then fop .add f rm (x 0 i) (x 1 i) else intLane f sat (intOf f (x 0 i) + intOf f (x 1 i))⟩
  | .vsub g d a b rm sat f => some ⟨g, d, [a, b], fmtWidth f, fun x i =>
      if isFloat f then fop .sub f rm (x 0 i) (x 1 i) else intLane f sat (intOf f (x 0 i) - intOf f (x 1 i))⟩
  | .vmul g d a b rm sat f => some ⟨g, d, [a, b], fmtWidth f, fun x i =>
      if isFloat f then fop .mul f rm (x 0 i) (x 1 i) else intLane f sat (intOf f (x 0 i) * intOf f (x 1 i))⟩
  | .vfma g d a b c rm f => some ⟨g, d, [a, b, c], fmtWidth f, fun x i => ffma f rm false false (x 0 i) (x 1 i) (x 2 i)⟩
  | .vfms g d a b c rm f => some ⟨g, d, [a, b, c], fmtWidth f, fun x i => ffma f rm false true (x 0 i) (x 1 i) (x 2 i)⟩
  | .vfnma g d a b c rm f => some ⟨g, d, [a, b, c], fmtWidth f, fun x i => ffma f rm true false (x 0 i) (x 1 i) (x 2 i)⟩
  | .vmin g d a b f => some ⟨g, d, [a, b], fmtWidth f, fun x i =>
      if isFloat f then fminmax false f (x 0 i) (x 1 i) else if intOf f (x 0 i) < intOf f (x 1 i) then x 0 i else x 1 i⟩
  | .vmax g d a b f => some ⟨g, d, [a, b], fmtWidth f, fun x i =>
      if isFloat f then fminmax true f (x 0 i) (x 1 i) else if intOf f (x 0 i) < intOf f (x 1 i) then x 1 i else x 0 i⟩
  | .vabs g d a sat f => some ⟨g, d, [a], fmtWidth f, fun x i =>
      if isFloat f then (if isNan (flOf f (x 0 i)) then nanBits f else x 0 i % 2 ^ (fmtWidth f - 1))
      else intLane f sat ((intOf f (x 0 i)).natAbs : Int)⟩
  | .vneg g d a sat f => some ⟨g, d, [a], fmtWidth f, fun x i =>
      if isFloat f then (if isNan (flOf f (x 0 i)) then nanBits f else x 0 i ^^^ 2 ^ (fmtWidth f - 1))
      else intLane f sat (-intOf f (x 0 i))⟩
  | .vand g d a b _ => some ⟨g, d, [a, b], 8, fun x i => x 0 i &&& x 1 i⟩
  | .vor g d a b _ => some ⟨g, d, [a, b], 8, fun x i => x 0 i ||| x 1 i⟩
  | .vxor g d a b _ => some ⟨g, d, [a, b], 8, fun x i => x 0 i ^^^ x 1 i⟩
  | .vshl g d a b f => some ⟨g, d, [a, b], fmtWidth f, fun x i => x 0 i <<< (x 1 i % fmtWidth f)⟩
  | .vshr g d a b f => some ⟨g, d, [a, b], fmtWidth f, fun x i => x 0 i >>> (x 1 i % fmtWidth f)⟩
  | .vsra g d a b f => some ⟨g, d, [a, b], fmtWidth f, fun x i =>
      ((BitVec.ofNat (fmtWidth f) (x 0 i)).sshiftRight (x 1 i % fmtWidth f)).toNat⟩
  | .vcmp g d a b c f => some ⟨g, d, [a, b], fmtWidth f, fun x i => if vcondHolds c f (x 0 i) (x 1 i) then 2 ^ fmtWidth f - 1 else 0⟩
  | .vsel g d a b m f => some ⟨g, d, [a, b, m], fmtWidth f, fun x i => if x 2 i ≠ 0 then x 0 i else x 1 i⟩
  | .vshuf g d a b f k pat =>
    let n := lanesOf f
    let cat (x : Nat → Nat → Nat) (i : Nat) : Nat := if i < n then x 0 i else x 1 (i - n)
    match pat with
    | .ziplo => some ⟨g, d, [a, b], fmtWidth f, fun x i => x (i % 2) (i / 2)⟩
    | .ziphi => some ⟨g, d, [a, b], fmtWidth f, fun x i => x (i % 2) (n / 2 + i / 2)⟩
    | .unzipe => some ⟨g, d, [a, b], fmtWidth f, fun x i => cat x (2 * i)⟩
    | .unzipo => some ⟨g, d, [a, b], fmtWidth f, fun x i => cat x (2 * i + 1)⟩
    | .ext => some ⟨g, d, [a, b], fmtWidth f, fun x i => cat x (i + k.toNat)⟩
    | .rev => some ⟨g, d, [a], fmtWidth f, fun x i => x 0 (n - 1 - i)⟩
    | .bcast => some ⟨g, d, [a], fmtWidth f, fun x _ => x 0 k.toNat⟩
  | .vperm g d a b p f => some ⟨g, d, [a, b, p], fmtWidth f, fun x i =>
      let m := x 2 i % (2 * lanesOf f)
      if m < lanesOf f then x 0 m else x 1 (m - lanesOf f)⟩
  | .vexp2 g d a rm _ => some ⟨g, d, [a], 32, fun x i => funF32 .exp2 rm (x 0 i)⟩
  | .vlog2 g d a rm _ => some ⟨g, d, [a], 32, fun x i => funF32 .log2 rm (x 0 i)⟩
  | .vrcp g d a rm _ => some ⟨g, d, [a], 32, fun x i => funF32 .rcp rm (x 0 i)⟩
  | .vrsqrt g d a rm _ => some ⟨g, d, [a], 32, fun x i => funF32 .rsqrt rm (x 0 i)⟩
  | .vsqrt g d a rm _ => some ⟨g, d, [a], 32, fun x i => funF32 .sqrt rm (x 0 i)⟩
  | _ => none

/-- The vector with the given lanes of width `w`. -/
def hasLanes (w : Nat) (v : BitVec 4096) (f : Nat → Nat) : Prop := ∀ i, i < 4096 / w → laneOf w v i = f i % 2 ^ w

/-! ### Matrix commands -/

/-- A matrix command as its instruction gives it (R298 to R300): sources in field order, opcode, `cmpl` and `low` fields, the folios
A and B. -/
structure MxForm where
  g : Guard
  srcs : List Src
  opcode : BitVec 10
  cmpl : Nat
  low : Nat
  fa : Option Nat
  fb : Option Nat

/-- The instructions that issue a command to the core's own array or loader. -/
def mxForm : Instr → Option MxForm
  | .wbld g o rows slot folio => some ⟨g, [o], 0x163, rows.toNat, slot.toNat * 2 ^ 16 + folio.toNat, some folio.toNat, none⟩
  | .wbinv g m => some ⟨g, [m], 0x164, 0, 0, none, none⟩
  | .mxz g acc => some ⟨g, [], 0x165, 0, acc.toNat * 2 ^ 22, none, none⟩
  | .mxa g o h acc slot folio =>
    some ⟨g, [o, h], 0x166, 0, acc.toNat * 2 ^ 22 + slot.toNat * 2 ^ 16 + folio.toNat, some folio.toNat, none⟩
  | .mxst g o fill acc folio =>
    some ⟨g, [o], 0x167, if fill then 1 else 0, acc.toNat * 2 ^ 22 + folio.toNat, some folio.toNat, none⟩
  | .mxld g o acc folio => some ⟨g, [o], 0x168, 0, acc.toNat * 2 ^ 22 + folio.toNat, some folio.toNat, none⟩
  | .mxdot g oa ob l acc fb fa =>
    some ⟨g, [oa, ob, l], 0x169, 0, acc.toNat * 2 ^ 32 + fb.toNat * 2 ^ 16 + fa.toNat, some fa.toNat, some fb.toNat⟩
  | _ => none

/-- The command of a slot, before the core numbers it. -/
def MxForm.cmd (c : MxForm) (s : State) (vs : List Word) : MxCmd :=
  let f (i : Option Nat) : Folio := i.elim Folio.zero s.folio
  { no := 0, acc := s.serial, src := .own s.cur s.me.gen, tsid := s.me.tsid.getD 0, opcode := c.opcode, cmpl := BitVec.ofNat 12 c.cmpl,
    low := BitVec.ofNat 40 c.low, s1 := vs.getD 0 0, s2 := vs.getD 1 0, s3 := vs.getD 2 0, fa := f c.fa, fb := f c.fb,
    next := 0, seen := [] }

/-! ### References to memory -/

/-- An address of this package's memory that an access of `align` bytes may name (R21, R154). -/
def localAddr (va : Word) (align : Nat) : Prop := va.toNat < 2 ^ 55 ∧ va.toNat % align = 0

/-- A global address that an access of `align` bytes may name. -/
def globalAddr (va : Word) (align : Nat) : Prop := 2 ^ 55 ≤ va.toNat ∧ va.toNat < 2 ^ 56 ∧ va.toNat % align = 0

/-- Where a reference leaves its answer: in no register, an x register or a predicate. -/
inductive Dest where
  | none
  | x (d : Dst)
  | p (d : Dst)

/-- The destination is made ready: EMPTY, with its reply outstanding (R122). `v` is the state that follows from `u`. -/
def Dest.ready (d : Dest) (u v : State) : Prop :=
  match d with
  | .none => v = u
  | .x d => d ≠ 0 ∧ u.emptyXj (xIndex u.me.wstate d.toNat) = .ok v
  | .p d => d ≠ 0 ∧ u.emptyP d.toNat = .ok v

/-- The name of the destination in a reply. -/
def Dest.ret (d : Dest) (u : State) : RetDst :=
  match d with
  | .none => .none
  | .x d => .reg (xIndex u.me.wstate d.toNat)
  | .p d => .reg (78 + d.toNat)

/-- An instruction that sends one reference to local memory: its operands, the access sets of R326, the address and the operation
from the operands' values, the alignment, and whether the reference counts in REDCNT; `targets` is how many targets the descriptor
of an MCAS has. -/
structure LocalRef where
  g : Guard
  srcs : List Src
  dest : Dest
  sets : BitVec 5
  va : List Word → Word
  align : Nat
  op : List Word → RefOp
  dram : Bool
  counted : Bool
  targets : Nat

/-- Base plus displacement (R154). -/
def baseDisp (imm : BitVec 40) (vs : List Word) : Word := vs.getD 0 0 + imm.signExtend 64

/-- The synchronising operations, atomics, reductions and agent operations on local memory (R152, R158, R168, R181, R184, R189,
R191, R192). -/
def localRef : Instr → Option LocalRef
  | .ldf g d b imm => some ⟨g, [b], .x d, setL, baseDisp imm, 8, fun _ => .ldf, false, false, 0⟩
  | .ldfe g d b imm => some ⟨g, [b], .x d, setL, baseDisp imm, 8, fun _ => .ldfe, false, false, 0⟩
  | .stef g d b v imm => some ⟨g, [b, v], .x d, setS, baseDisp imm, 8, fun vs => .stef (vs.getD 1 0), false, false, 0⟩
  | .stf g b v imm => some ⟨g, [b, v], .none, setS, baseDisp imm, 8, fun vs => .stf (vs.getD 1 0), false, false, 0⟩
  | .purge g b imm => some ⟨g, [b], .none, setS, baseDisp imm, 8, fun _ => .purge, false, false, 0⟩
  | .tagrd g d b w imm => some ⟨g, [b], .p d, setL, baseDisp imm, 8, fun _ => .tagrd w, false, false, 0⟩
  | .aadd g d b v w imm => some (atom g d [b, v] .add w imm)
  | .aand g d b v w imm => some (atom g d [b, v] .and w imm)
  | .aor g d b v w imm => some (atom g d [b, v] .or w imm)
  | .axor g d b v w imm => some (atom g d [b, v] .xor w imm)
  | .amin g d b v uns w imm => some (atom g d [b, v] (if uns then .minU else .minS) w imm)
  | .amax g d b v uns w imm => some (atom g d [b, v] (if uns then .maxU else .maxS) w imm)
  | .axchg g d b v w imm => some (atom g d [b, v] .xchg w imm)
  | .acas g d b v c w imm => some (atom g d [b, v, c] .cas w imm)
  | .afadd g d b v f32 imm => some (atom g d [b, v] .fadd (if f32 then .b32 else .b16) imm)
  | .aincw g d b v w imm => some (atom g d [b, v] .incw w imm)
  | .afab g d b v c w imm => some (atom g d [b, v, c] .fab w imm)
  | .redadd g b v w imm => some (red g [b, v] .add w imm)
  | .redand g b v w imm => some (red g [b, v] .and w imm)
  | .redor g b v w imm => some (red g [b, v] .or w imm)
  | .redxor g b v w imm => some (red g [b, v] .xor w imm)
  | .redmin g b v uns w imm => some (red g [b, v] (if uns then .minU else .minS) w imm)
  | .redmax g b v uns w imm => some (red g [b, v] (if uns then .maxU else .maxS) w imm)
  | .redfadd g b v f32 imm => some (red g [b, v] .fadd (if f32 then .b32 else .b16) imm)
  | .mcas2 g d b imm => some ⟨g, [b], .x d, setL ||| setS, baseDisp imm, 64, fun _ => .record (.mcas 2) 64, false, false, 2⟩
  | .mcas4 g d b imm => some ⟨g, [b], .x d, setL ||| setS, baseDisp imm, 128, fun _ => .record (.mcas 4) 128, false, false, 4⟩
  | .enq g d b node imm =>
    some ⟨g, [b, node], .x d, setL ||| setS, baseDisp imm, 16, fun vs => .enq (vs.getD 1 0), true, false, 0⟩
  | .chase g d b o hops imm =>
    some ⟨g, [b, o], .x d, setL, baseDisp imm, 8, fun vs => .chase (vs.getD 1 0) hops.toNat, true, false, 0⟩
  | _ => none
where
  atom (g : Guard) (d : Dst) (srcs : List Src) (op : AtomOp) (w : Width) (imm : BitVec 40) : LocalRef :=
    ⟨g, srcs, .x d, setL ||| setS, baseDisp imm, widthBytes w, fun vs => .atom op w (vs.getD 1 0) (vs.getD 2 0) true, false, false, 0⟩
  red (g : Guard) (srcs : List Src) (op : AtomOp) (w : Width) (imm : BitVec 40) : LocalRef :=
    ⟨g, srcs, .none, setS, baseDisp imm, widthBytes w, fun vs => .atom op w (vs.getD 1 0) 0 false, false, true, 0⟩

/-- The state in which the reference is sent: the buffers of the packages that an MCAS names are sealed (R209). -/
def LocalRef.from_ (r : LocalRef) (vs : List Word) (s : State) : State :=
  if r.targets = 0 then s else s.sealTargets (r.va vs) r.targets

/-- An access of the issuing slot is entered, and its reference is on its way to the home (R157, R326, R327). -/
def State.withRef (s : State) (r : LocalRef) (vs : List Word) (dst : RetDst) (h isle : Nat) : State :=
  { s with
    serial := s.serial + 1
    accs := s.accs ++ [{
      id := s.serial, slot := s.cur, gen := s.me.gen, sets := r.sets,
      words := [spanOf h (r.op vs).len, vaSpan (r.va vs).toNat (r.op vs).len], plain := (r.op vs).isPlain, arrived := false }]
    refs := s.refs ++ [{
      id := s.serial, slot := s.cur, gen := s.me.gen, tsid := s.me.tsid.getD 0, num := dst.number s.me.wstate,
      job := (s.slotSet s.cur).job, space := (s.slotSet s.cur).space, va := r.va vs, isle := isle, home := h,
      dst := dst, op := r.op vs, limit := s.me.waitlim.toNat, counted := r.counted }] }

/-- The touches of local memory: LD, LDX, LDF, LDFE and the returning atomics with x0, TAGRD with p0 (R155, R180). -/
def touchRef : Instr → Option LocalRef
  | .ld g d b w _ imm => of d g [b] setL (baseDisp imm) (widthBytes w) (.touch true false)
  | .ldx g d b i scale w _ =>
    of d g [b, i] setL (fun vs => vs.getD 0 0 + vs.getD 1 0 <<< scale.toNat) (widthBytes w) (.touch true false)
  | .ldf g d b imm => of d g [b] setL (baseDisp imm) 8 (.touch true false)
  | .ldfe g d b imm => of d g [b] setL (baseDisp imm) 8 (.touch true true)
  | .tagrd g d b _ imm => of d g [b] setL (baseDisp imm) 8 (.touch true false)
  | i =>
    match localRef i with
    | some ⟨g, srcs, .x d, sets, va, align, op, _, _, _⟩ =>
      match op [] with
      | .atom _ _ _ _ true => of d g srcs sets va align (.touch true true)
      | _ => none
    | _ => none
where
  of (d : Dst) (g : Guard) (srcs : List Src) (sets : BitVec 5) (va : List Word → Word) (align : Nat) (op : RefOp) : Option LocalRef :=
    if d = 0 then some ⟨g, srcs, .none, sets, va, align, fun _ => op, false, true, 0⟩ else none

/-- A memory instruction whose one address is checked at issue (R154): `localOnly` where a global one is refused, `dram` where the
scratchpad is. -/
structure AddrForm where
  g : Guard
  srcs : List Src
  sets : BitVec 5
  va : List Word → Word
  align : Nat
  localOnly : Bool
  dram : Bool

/-- The loads and stores, TAGSET, and what `localRef` covers (R154, R189). -/
def addrForm : Instr → Option AddrForm
  | .ld g _ b w _ imm => some ⟨g, [b], setL, baseDisp imm, widthBytes w, false, false⟩
  | .ldx g _ b i scale w _ =>
    some ⟨g, [b, i], setL, fun vs => vs.getD 0 0 + vs.getD 1 0 <<< scale.toNat, widthBytes w, false, false⟩
  | .st g b v w imm => some ⟨g, [b, v], setS, baseDisp imm, widthBytes w, false, false⟩
  | .stx g b i v scale w =>
    some ⟨g, [b, i, v], setS, fun vs => vs.getD 0 0 + vs.getD 1 0 <<< scale.toNat, widthBytes w, false, false⟩
  | .tagset g _ b l _ => some ⟨g, [b, l], setS, fun vs => vs.getD 0 0, 8, true, false⟩
  | i => (localRef i).map fun c => ⟨c.g, c.srcs, c.sets, c.va, c.align, here (c.op []), c.dram⟩
where
  here : RefOp → Bool
    | .atom _ _ _ _ _ => false
    | .enq _ => false
    | .chase _ _ => false
    | _ => true

/-- A reference that has come to a home it may touch: the page is translated, nothing of its slot still stands before it, no
scratchpad guard refuses it and its words hold no error. -/
def State.atHomeNow (s : State) (k : Nat) (r : Ref) : Prop :=
  s.refs[k]? = some r ∧ r.home ≠ unplaced ∧ s.refHeld r = false ∧ s.spRefused r.home r.op.len = none ∧
    s.isBroken r.home r.op.len = false

/-- A remote request of an instruction (R203, R208, R209): operands, destination, address, alignment, request, probe of a touch,
and whether the value is sign-extended. -/
structure RemoteReq where
  g : Guard
  srcs : List Src
  d : Dst
  va : List Word → Word
  align : Nat
  op : List Word → RemOp
  probe : RemOp
  sgn : Bool

/-- Remote loads, atomics and agent operations. -/
def remoteReq : Instr → Option RemoteReq
  | .ld g d b w sgn imm =>
    some ⟨g, [b], d, baseDisp imm, widthBytes w, fun _ => .load w, .probe true false false w, sgn⟩
  | .ldx g d b i scale w sgn =>
    some ⟨g, [b, i], d, fun vs => vs.getD 0 0 + vs.getD 1 0 <<< scale.toNat, widthBytes w, fun _ => .load w,
      .probe true false false w, sgn⟩
  | .aadd g d b v w imm => some (atom g d [b, v] .add w imm)
  | .aand g d b v w imm => some (atom g d [b, v] .and w imm)
  | .aor g d b v w imm => some (atom g d [b, v] .or w imm)
  | .axor g d b v w imm => some (atom g d [b, v] .xor w imm)
  | .amin g d b v uns w imm => some (atom g d [b, v] (if uns then .minU else .minS) w imm)
  | .amax g d b v uns w imm => some (atom g d [b, v] (if uns then .maxU else .maxS) w imm)
  | .axchg g d b v w imm => some (atom g d [b, v] .xchg w imm)
  | .acas g d b v c w imm => some (atom g d [b, v, c] .cas w imm)
  | .afadd g d b v f32 imm => some (atom g d [b, v] .fadd (if f32 then .b32 else .b16) imm)
  | .aincw g d b v w imm => some (atom g d [b, v] .incw w imm)
  | .afab g d b v c w imm => some (atom g d [b, v, c] .fab w imm)
  | .enq g d b node imm =>
    some ⟨g, [b, node], d, baseDisp imm, 16, fun vs => .enq (vs.getD 1 0), .probe true true true .b64, false⟩
  | .chase g d b o hops imm =>
    some ⟨g, [b, o], d, baseDisp imm, 8, fun vs => .chase (vs.getD 1 0) hops.toNat, .probe true false false .b64, false⟩
  | _ => none
where
  atom (g : Guard) (d : Dst) (srcs : List Src) (op : AtomOp) (w : Width) (imm : BitVec 40) : RemoteReq :=
    ⟨g, srcs, d, baseDisp imm, widthBytes w, fun vs => .atom op w (vs.getD 1 0) (vs.getD 2 0), .probe true true true w, false⟩

/-- The element codes of stores and reductions to global addresses (R213), with address, width and value. -/
structure RemoteElem where
  g : Guard
  srcs : List Src
  va : List Word → Word
  w : Width
  code : BitVec 6
  value : List Word → Word

/-- Stores and reductions as elements. -/
def remoteElem : Instr → Option RemoteElem
  | .st g b v w imm => some ⟨g, [b, v], baseDisp imm, w, 0, fun vs => vs.getD 1 0⟩
  | .stx g b i v scale w =>
    some ⟨g, [b, i, v], fun vs => vs.getD 0 0 + vs.getD 1 0 <<< scale.toNat, w, 0, fun vs => vs.getD 2 0⟩
  | .redadd g b v w imm => some ⟨g, [b, v], baseDisp imm, w, 1, fun vs => vs.getD 1 0⟩
  | .redand g b v w imm => some ⟨g, [b, v], baseDisp imm, w, 2, fun vs => vs.getD 1 0⟩
  | .redor g b v w imm => some ⟨g, [b, v], baseDisp imm, w, 3, fun vs => vs.getD 1 0⟩
  | .redxor g b v w imm => some ⟨g, [b, v], baseDisp imm, w, 4, fun vs => vs.getD 1 0⟩
  | .redmin g b v uns w imm => some ⟨g, [b, v], baseDisp imm, w, if uns then 7 else 5, fun vs => vs.getD 1 0⟩
  | .redmax g b v uns w imm => some ⟨g, [b, v], baseDisp imm, w, if uns then 8 else 6, fun vs => vs.getD 1 0⟩
  | .redfadd g b v f32 imm =>
    some ⟨g, [b, v], baseDisp imm, if f32 then .b32 else .b16, if f32 then 9 else 10, fun vs => vs.getD 1 0⟩
  | _ => none

/-! ### Frames -/

/-- The registers that an instruction reads and writes: x and port sources, predicate sources, v sources, and its destinations,
where a destination 0 and an absent v destination write nothing. -/
structure RegForm where
  g : Guard
  xs : List Src
  ps : List Src
  vs : List Src
  xd : Dst
  pd : Dst
  vd : Option Dst

/-- The instructions that use nothing but registers, ports and the divider. -/
def regForm : Instr → Option RegForm
  | .nop g => some ⟨g, [], [], [], 0, 0, none⟩
  | .sel g d a b p => some ⟨g, [a, b], [p], [], d, 0, none⟩
  | .div g d a b _ => some ⟨g, [a, b], [], [], d, 0, none⟩
  | .rem g d a b _ => some ⟨g, [a, b], [], [], d, 0, none⟩
  | .cmp g d a b _ => some ⟨g, [a, b], [], [], 0, d, none⟩
  | .cmpi g d a _ _ => some ⟨g, [a], [], [], 0, d, none⟩
  | .pand g d a b => some ⟨g, [], [a, b], [], 0, d, none⟩
  | .por g d a b => some ⟨g, [], [a, b], [], 0, d, none⟩
  | .pxor g d a b => some ⟨g, [], [a, b], [], 0, d, none⟩
  | .pandn g d a b => some ⟨g, [], [a, b], [], 0, d, none⟩
  | .pnot g d a => some ⟨g, [], [a], [], 0, d, none⟩
  | .pmov g d a => some ⟨g, [], [a], [], 0, d, none⟩
  | .pmovi g d _ => some ⟨g, [], [], [], 0, d, none⟩
  | i =>
    match intCalc i, vecCalc i with
    | some c, _ => some ⟨c.g, c.srcs, [], [], c.d, 0, none⟩
    | none, some c => some ⟨c.g, [], [], c.srcs, 0, 0, some c.d⟩
    | none, none => none

/-- The operand number names x register `j` of the slot's present window. -/
def State.namesX (s : State) (n : BitVec 6) (j : Nat) : Prop := 0 < n.toNat ∧ n.toNat < 32 ∧ xIndex s.me.wstate n.toNat = j

/-- The cell awaits nothing: it is FULL or DEAD. -/
def Cell.settled {α τ : Type} (c : Cell α τ) : Prop := c = .dead ∨ ∃ v, c = .full v

/-- The registers of a slot that hold no value of the program: program counter, handler and wait marks apart, the special registers
and the slot's task are what they were. -/
def Slot.sameSpecials (t u : Slot) : Prop :=
  u.st = t.st ∧ u.wstate = t.wstate ∧ u.spillp = t.spillp ∧ u.mdest = t.mdest ∧ u.waitlim = t.waitlim ∧ u.deadmode = t.deadmode ∧
  u.wrec = t.wrec ∧ u.grec = t.grec ∧ u.tctl = t.tctl ∧ u.redcnt = t.redcnt ∧ u.tsave = t.tsave ∧ u.rfva = t.rfva ∧ u.rfst = t.rfst ∧
  u.gen = t.gen ∧ u.baseCls = t.baseCls ∧ u.tsid = t.tsid ∧ u.tag = t.tag ∧ u.lease = t.lease ∧ u.pend = t.pend

end Sys2Proof.Machine
end

