-- ==== Sys2Proof/Certificates/Slice0/Obligations.lean ====
section
/-! DEFINITION. The statements for the provers. -/

open Sys2Proof Sys2Proof.Machine

/-! ### Reset and encodings -/

/-- Reset: the registers at the values that the spec gives for a cold start, the tables canonical, no unit busy (R18, R45, R72, R77,
R121, R163, R171, R173, R174, R254, R306, R308, R319, R347, R358, R391, R414). That CYC is 0 is the model's choice (log entry 4), and
so is that memory lists nothing (log entry 3). -/
def Obligations.ResetState : Prop :=
  let s := State.reset
  s.tablesWf = true ∧ s.cyc = 0 ∧ s.mem = [] ∧ s.moors = [] ∧ s.refs = [] ∧ s.sets = [] ∧ s.bars = [] ∧ s.journal = [] ∧
  (∀ a, s.fBit a = false) ∧
  (∀ k, (s.slot k).st = .free ∧ (s.slot k).gen = 0 ∧ (s.slot k).fences = [] ∧ (s.slot k).redcnt = 0) ∧
  (∀ c, (s.core c).ptrs = [0, 0, 0, 0] ∧ (s.core c).cwUsed = [] ∧ (s.core c).mxkey = 0 ∧ (∀ n, (s.core c).acc n = .dead) ∧
    ∀ n, ((s.core c).wslot n).st = .invalid) ∧
  (∀ q, (s.quire q).horizon = 0 ∧ (s.quire q).events = 0) ∧
  (∀ i, (s.isle i).moorbase = 0 ∧ (s.isle i).moorlim = 0 ∧ (s.isle i).ablimit = 512 ∧ (s.isle i).cap = 512 ∧
    (s.isle i).lock = false ∧ (s.isle i).bad = false ∧ (s.isle i).fqbase = 0 ∧ (s.isle i).faults = [] ∧ (s.isle i).pool = [] ∧
    (∀ j, j < 4 → (s.isle i).ixh.getD j 0 = 1#64 <<< (8 + j)) ∧ (∀ k, k < 9 → (s.isle i).bxh.getD k 0 = 1#64 <<< (12 + k)))

/-- Words of the spec's worked cases decode to the instructions that they are given for, and a reserved opcode, a reserved guard, a
used unassigned bit and an operand number of 60 are rejected (R36 to R45, R119, R135, R152, R289). -/
def Obligations.SpecWords : Prop :=
  let t : Guard := ⟨false, 0⟩
  let r (n : BitVec 6) : Src := ⟨false, false, n⟩
  decodeWord 0x10409090000000FFFFFFFFFF = .ok (.addi t 9 (r 9) 0xFFFFFFFFFF) ∧
  decodeWord 0x1000C090A000000000000000 = .ok (.add t 12 (r 9) (r 10)) ∧
  decodeWord 0x1000A8A4B000000000000000 = .ok (.add t 10 ⟨true, false, 10⟩ ⟨false, true, 11⟩) ∧
  decodeWord 0x004800000000000000000019 = .ok (.br ⟨false, 2⟩ 0x19) ∧
  decodeWord 0x2940A0600000000000000008 = .ok (.ldfe t 10 (r 6) 8) ∧
  decodeWord 0x5A4000A0B0C0000100040003 = .ok (.mxdot t (r 10) (r 11) (r 12) 1 4 3) ∧
  decodeWord 0xFFC000000000000000000000 = .error .unassigned ∧ decodeWord 0x002000000000000000000000 = .error .reserved ∧
  decodeWord 0x000000000000000000000001 = .error .reserved ∧ decodeWord 0x1003C090A000000000000000 = .error .operand60

/-- Decoding gives back every well-formed instruction that the encoder takes, with every operand at every value (R36 to R43). -/
def Obligations.EncodeThenDecode : Prop :=
  ∀ (i : Instr) (w : BitVec 96), encode i = some w → i.wellFormed = true ∧ decodeWord w = .ok i

/-- A word that decodes is the one encoding of its instruction, which is well formed: no bit of it is ignored (R36, R44). -/
def Obligations.DecodeThenEncode : Prop :=
  ∀ (i : Instr) (w : BitVec 96), decodeWord w = .ok i → i.wellFormed = true ∧ encode i = some w

/-! ### What every step keeps -/

/-- Every step from a state whose memory, presence bits, error marks and unit tables are in their canonical form leaves them so. -/
def Obligations.StepKeepsTables : Prop := ∀ s t : State, s.tablesWf = true → step s = .next t → t.tablesWf = true

/-! ### Guards, sources, kills and destinations (R37 to R40, R88, R94, R95, R121 to R125, R141) -/

/-- A guard of p0 is true, a FULL predicate gives its value or its complement, a DEAD one counts as 0 unless DEADMODE traps, an
EMPTY one with a reply outstanding marks the slot waiting (R37, R88, R123, R124).

An instruction whose guard is false only advances, whatever instruction it is; one whose guard has to wait leaves nothing but
the slot's wait mark (R37, R76). -/
def Obligations.GuardRules : Prop :=
  (∀ (g : Guard) (s : State),
    (g.preg = 0 → s.guardTrue g = .ok (!g.neg)) ∧
    (g.preg ≠ 0 → ∀ b, s.me.pCell g.preg.toNat = .full b → s.guardTrue g = .ok (if g.neg then !b else b)) ∧
    (g.preg ≠ 0 → s.me.pCell g.preg.toNat = .dead → s.me.deadmode.getLsbD 0 = false → s.guardTrue g = .ok g.neg) ∧
    (g.preg ≠ 0 → ∀ m, s.me.pCell g.preg.toNat = .empty m → m.fatal = false → m.reply = true →
      s.guardTrue g = .error (.wait (.reg (78 + g.preg.toNat))))) ∧
  (∀ (i : Instr) (g : Guard) (s : State), guardIn i = some g →
    (s.guardTrue g = .ok false → exec i s = .next s.advance) ∧
    (∀ w, s.guardTrue g = .error (.wait w) → exec i s = .next (s.modSlot s.cur fun t => { t with wait := w })))

/-- What an x or port source reads: x0 reads 0; a FULL register its value; a DEAD one 0, or a trap of cause 9 under DEADMODE; a
pending one waits, traps with cause 8 through a trap-mode source, with 15 when `fatal`, with 16 when orphaned; an empty port waits
or traps; a port word is taken once for all fields that name the port (R39, R94, R95, R123, R124, R137, R147).

A kill makes a register DEAD; where a reply is outstanding it only sets `drop`, so that the reply is thrown away; the
identifier of an orphan is released with it (R40, R122, R141). -/
def Obligations.OperandRules : Prop :=
  (∀ (f : Nat) (a : Src) (r : Rd),
    let n := a.reg.toNat
    let j := xIndex r.s.me.wstate n
    let val (code : Nat) : Word := BitVec.ofNat 64 (n + 128 * code + 512 * (f % 4))
    (n = 0 → readX f a r = .ok (0, r)) ∧
    (0 < n → n < 32 →
      (∀ v, r.s.me.xCell j = .full v → readX f a r = .ok (v, r)) ∧
      (r.s.me.xCell j = .dead → r.s.me.deadmode.getLsbD 0 = false → readX f a r = .ok (0, r)) ∧
      (r.s.me.xCell j = .dead → r.s.me.deadmode.getLsbD 0 = true → readX f a r = .error (.trap 9 (val 3))) ∧
      (∀ c x, r.s.me.xCell j = .catching c x → readX f a r = .error (if a.trap then .trap 8 (val 2) else .wait (.reg j))) ∧
      (∀ m, r.s.me.xCell j = .empty m → readX f a r = .error (
        if m.fatal then .trap 15 (val 1) else if a.trap then .trap 8 (val 1) else if m.reply then .wait (.reg j)
        else .trap 16 (val 1)))) ∧
    (56 ≤ n → n < 60 →
      (∀ w, (n - 56, w) ∈ r.took → (∀ w', (n - 56, w') ∈ r.took → w' = w) → readX f a r = .ok (w, r)) ∧
      ((∀ w, (n - 56, w) ∉ r.took) → ∀ w, r.s.portWord r.s.cur (n - 56) = some w →
        readX f a r = .ok (w.data, ⟨r.s.takePort r.s.cur (n - 56), (n - 56, w.data) :: r.took⟩)) ∧
      ((∀ w, (n - 56, w) ∉ r.took) → r.s.portWord r.s.cur (n - 56) = none →
        readX f a r = .error (if a.trap then .trap 8 (val 1) else .wait (.port (n - 56)))))) ∧
  (∀ (s : State) (k j : Nat), j < 79 →
    let c := (s.slot k).xCell j
    (∀ m, c = .empty m → m.reply = true → s.killReg k j = s.modSlot k fun t => t.setXCell j (.empty { m with drop := true })) ∧
    (∀ m, c = .empty m → m.reply = false → s.killReg k j = (s.modSlot k fun t => t.setXCell j .dead).releaseCw k m.cw) ∧
    ((∀ m, c ≠ .empty m) → s.killReg k j = s.modSlot k fun t => t.setXCell j .dead))

/-- What a write of a result does by its destination: x0 discards; a register that awaits no reply and carries no binding becomes
FULL with the value and marked changed; one that awaits a reply makes the slot wait; an orphan's binding resolves with the value;
a port number sends (R40, R94, R122, R125).

An affine-compatible instruction over pending sources of one identifier composes: its destination becomes CATCH over it with the
composed pair, or FULL with the offset where the scale is 0; a register without an identifier gets the lowest free one first, and an
empty pool makes the slot wait; MUL of two scales and two different identifiers are no affine use. The value that arrives makes each
register of the identifier FULL with scale times value plus offset, and returns the identifier (R105, R126, R127, R128, R132, R133).
That a `fatal` register composes as an EMPTY one does is log entry 11. -/
def Obligations.DestinationRule : Prop :=
  (∀ (d : Dst) (v : Word) (s : State),
    let j := xIndex s.me.wstate d.toNat
    (d = 0 → s.put d v = .ok s) ∧
    (0 < d.toNat → d.toNat < 32 →
      ((s.me.xCell j).open_ → s.put d v = .ok (s.modSlot s.cur fun t => t.setXCell j (.full v))) ∧
      (∀ m, s.me.xCell j = .empty m → m.reply = true → s.put d v = .error (.wait (.reg j))) ∧
      (∀ m c, s.me.xCell j = .empty m → m.reply = false → m.cw = some c →
        s.put d v = .ok ((s.modSlot s.cur fun t => t.setXCell j (.full v)).resolveCw s.cur c v 0))) ∧
    (56 ≤ d.toNat → s.put d v = s.sendPort (d.toNat - 56) v)) ∧
  (∀ (i : Instr) (f : AffForm) (id : Option Nat) (ps : List (Word × Word)) (s : State), affForm i = some f → s.guardTrue f.g = .ok true →
    0 < f.d.toNat → f.d.toNat < 32 → s.pairs id f.srcs ps →
    let x := ps.getD 0 (0, 0)
    let y := ps.getD 1 (0, 0)
    let r := f.pair x y
    let core := s.cur / 256
    let used := (s.core core).cwUsed
    let only (j : Nat) : Prop := ∀ q ∈ f.srcs.zip ps, s.pendPair none q.1 q.2 → xIndex s.me.wstate q.1.reg.toNat = j
    (f.both = true → x.1 ≠ 0 → y.1 ≠ 0 → ∀ e, readXs 0 f.srcs s.rd = .error e → exec i s = s.finish (.error e)) ∧
    ((f.both = true → x.1 = 0 ∨ y.1 = 0) →
      (id = none → (∃ j, only j) → (∀ n, n < 512 → n ∈ used) → exec i s = s.finish (.error (.wait .other))) ∧
      ∀ (c : Nat) (v : State),
        (id = some c ∧ v = s ∨ id = none ∧ c < 512 ∧ c ∉ used ∧ (∀ n, n < c → n ∈ used) ∧ ∃ j m, only j ∧ s.me.xCell j = .empty m ∧
          v = (s.modCore core fun t => { t with cwUsed := c :: t.cwUsed }).modSlot s.cur fun t =>
            t.setXCell j (.empty { m with cw := some c })) →
        let u := v.killXs f.srcs
        let j := xIndex u.me.wstate f.d.toNat
        (r.1 = 0 → ∀ t, u.put f.d r.2 = .ok t → exec i s = .next t.advance) ∧
        (r.1 ≠ 0 → c ∈ (u.core core).cwUsed →
          ((u.me.xCell j).open_ → exec i s = .next (u.modSlot s.cur fun t => t.setXCell j (.catching c r)).advance) ∧
          (∀ m, u.me.xCell j = .empty m → m.reply = true → exec i s = s.finish (.error (.wait (.reg j))))))) ∧
  (∀ (i : Instr) (f : AffForm) (a b : Src) (c c' : Nat) (x y : Word × Word) (e : Stop) (s : State), affForm i = some f →
    s.guardTrue f.g = .ok true → f.srcs = [a, b] → s.pendPair (some c) a x → s.pendPair (some c') b y → c ≠ c' →
    readXs 0 [a, b] s.rd = .error e → exec i s = s.finish (.error e)) ∧
  (∀ (s : State) (k j c : Nat) (m : Marks) (r : Reply), s.tablesWf = true → s.replies[k]? = some r → r.acc = none → r.dst = .reg j →
    j < 79 → s.lives r.slot r.gen = true → r.fatal = false → (s.slot r.slot).xlo.length = 7 → (s.slot r.slot).win.length = 72 →
    (s.slot r.slot).xCell j = .empty m → m.reply = true → m.drop = false → m.cw = some c →
    ∃ t, exec (.replyAccept k) s = .next t ∧ c ∉ (t.core (r.slot / 256)).cwUsed ∧ (t.slot r.slot).xCell j = .full r.value ∧
      (∀ i sc o, i < 79 → (s.slot r.slot).xCell i = .catching c (sc, o) → (t.slot r.slot).xCell i = .full (sc * r.value + o)) ∧
      (∀ i, i < 79 → i ≠ j → (∀ p, (s.slot r.slot).xCell i ≠ .catching c p) → (t.slot r.slot).xCell i = (s.slot r.slot).xCell i))

/-- Taking a trap saves the resume PC, the cause with its asynchronous bit and the value, sets `inh` and continues at TSVEC; nothing
but the slot changes (R376, R377).

A trap while a handler runs, without a vector, or with an ill-formed vector, ends the slot's task set with the end status of
R377.

Where an issue stops short: a wait leaves the state as it was but for the wait mark; a trap is taken by the issuing slot at
its own PC (R76, R377).

The events of an issue that runs no instruction: a pending asynchronous trap is taken when its slot is selected, at its PC, the
lowest cause first, and leaves the pending list (R167, R377); that causes 16 and 17 pend each by its own number, and that their value is
made for the window of that moment, is log entry 17. None is taken by a slot that is not selected, nor while a handler runs. An encoding that is no instruction takes cause 1 with its detail
code; an ill-formed PC takes cause 2 with that PC as value and EPC (R26, R44, R377, R380). -/
def Obligations.WaitsAndTraps : Prop :=
  (∀ (s : State) (k : Nat) (async : Bool) (cause : Nat) (value resume : Word), s.trapsLand k → (s.slot k).st = .active → cause < 32 →
    let t := s.takeTrap k async cause value resume
    (t.slot k).epc = resume ∧ (t.slot k).ecause.getLsbD 5 = async ∧ (t.slot k).ecause.toNat % 32 = cause ∧
    (t.slot k).ecause.toNat < 64 ∧ (t.slot k).eval = value ∧ (t.slot k).estat = 1 ∧ (t.slot k).pc = (s.slotSet k).tsvec ∧
    { t with slots := s.slots } = s ∧ s.sameSlotsBut t k ∧
    (t.slot k).xlo = (s.slot k).xlo ∧ (t.slot k).win = (s.slot k).win ∧ (t.slot k).p = (s.slot k).p ∧ (t.slot k).v = (s.slot k).v ∧
    (t.slot k).wstate = (s.slot k).wstate ∧ (t.slot k).tsave = (s.slot k).tsave ∧ (t.slot k).pend = (s.slot k).pend) ∧
  (∀ (s : State) (k : Nat) (async : Bool) (cause : Nat) (value resume : Word),
    let t := s.takeTrap k async cause value resume
    let tsid := (s.slot k).tsid.getD 0
    ((s.slot k).inh = true → t = s.endSet tsid (BitVec.ofNat 64 (0x200000000 + cause))) ∧
    ((s.slot k).inh = false → (s.slotSet k).tsvec = 0 → t = s.endSet tsid (BitVec.ofNat 64 (0x100000000 + cause))) ∧
    ((s.slot k).inh = false → (s.slotSet k).tsvec ≠ 0 → pcOk (s.slotSet k).tsvec = false → t = s.endSet tsid 0x200000002)) ∧
  (∀ (s : State) (w : Wait) (c : Nat) (v : Word),
    s.finish (.error (.wait w)) = .next (s.modSlot s.cur fun t => { t with wait := w }) ∧
    (s.codeFills = [] → s.finish (.error (.trap c v)) = .next (s.takeTrap s.cur false c v s.me.pc)) ∧
    s.finish (.error (.asyncTrap c v)) = .next (s.takeTrap s.cur true c v s.me.pc)) ∧
  ((∀ (s : State) (k c cl : Nat) (v : Word), s.phase = .up → s.pick (k / 256) = some (k, cl) → (s.slot k).inh = false →
    stallDone (s.slot k).stall = false → (c, v) ∈ (s.slot k).pend → (∀ p ∈ (s.slot k).pend, p = (c, v) ∨ c < p.1) →
    let u := s.selected k cl
    let one : Bool := c == 16 || c == 17
    let value := match (if one then (s.slot k).lost else none) with
      | some (j, kind) => waitTrapValue (s.slot k).wstate j kind (c == 17)
      | none => v
    exec (.asyncTrapDeliver k) s = .next ((u.modSlot k fun t => { t with
      pend := t.pend.filter fun p => p.1 ≠ c, lost := if one then none else t.lost }).takeTrap k true c value (s.slot k).pc)) ∧
  (∀ (s : State) (k : Nat), (∀ cl, s.pick (k / 256) ≠ some (k, cl)) → exec (.asyncTrapDeliver k) s = .next s) ∧
  (∀ (s : State) (k : Nat), (s.slot k).inh = true → exec (.asyncTrapDeliver k) s = .next s) ∧
  (∀ (s : State) (d : BitVec 8), exec (.illegalInstruction d) s = s.finish (.error (.trap 1 (d.setWidth 64)))) ∧
  (∀ s : State, pcOk s.me.pc = false → exec .illFormedPcIssue s = .next (s.takeTrap s.cur false 2 s.me.pc s.me.pc)))

/-! ### Issue, traps and returns (R26 to R34, R45, R77, R377 to R380) -/

/-- A step whose schedule selects a core issues from the picked slot: when that slot has no pending trap to take and its line is
held, passes its checks and decodes at the PC, the step is `exec` of the decoded instruction, after which the event ring is written;
a permitted, independent pair is A followed by B (R29, R33, R45, R77). The state in which `exec` runs differs from `s` in the
schedule, the wait marks whose condition has ended, the selection's own marks and the line's place in the code buffer. -/
def Obligations.StepRunsDecoded : Prop :=
  ∀ (s : State) (core k cl : Nat) (rest : List Move) (l : CodeLine) (i : Instr),
    s.sched = .select core :: rest → s.phase = .up →
    ({ s with sched := rest }).clearMarks.pick core = some (k, cl) →
    let u := ({ s with sched := rest }).clearMarks.selected k cl
    let n := u.me.pc.toNat % 8
    u.me.lease ≠ some 16 → (u.me.pend = [] ∨ u.me.inh = true) → u.waitTrap = none →
    pcOk u.me.pc = true → pcAddr u.me.pc = .ok () → (u.quire u.myQuire).lineAt u.mySpace (pcLine u.me.pc) = some l →
    l.again = [] → l.bad = false → (u.me.entryDue = true ∨ u.me.handlerDue = true → l.entry n = true) →
    l.word.extractLsb' 9 17 = 0 → decodeWord (l.ins n) = .ok i →
    (l.pair n = false → l.passes [n] = true →
      step s = match exec i u.usedLine with
        | .next t => .next t.ringOut
        | o => o) ∧
    (∀ (b : Instr) (t v : State), l.pair n = true → l.passes [n, n + 1] = true → decodeWord (l.ins (n + 1)) = .ok b →
      pairOk (l.ins n) (l.ins (n + 1)) = true → exec i u.usedLine = .next t → u.usedLine.aDone t = true → exec b t = .next v →
      t.standsStill v = false → step s = .next v.ringOut)

/-- No operation stops the machine: an instruction or an event always leaves a next state. -/
def Obligations.ExecAlwaysNext : Prop := ∀ (i : Instr) (s : State), ∃ t, exec i s = .next t

/-- TRAP takes the software trap with its code, to resume after it; RTE clears `inh` and continues at EPC without an entry check,
traps on an ill-formed EPC, and only advances when no handler runs; CYC writes the clock (R378). -/
def Obligations.SoftwareTrapAndReturn : Prop :=
  ∀ (g : Guard) (code : BitVec 16) (s : State), s.guardTrue g = .ok true →
    exec (.trap g code) s = .next (s.takeTrap s.cur false 24 (code.setWidth 64) (nextPc s.me.pc)) ∧
    (s.me.inh = false → exec (.rte g) s = .next s.advance) ∧
    (s.me.inh = true → pcOk s.me.epc = true → exec (.rte g) s = .next (s.modSlot s.cur fun t =>
      { t with estat := 0, pc := t.epc, handlerDue := false, wait := .none })) ∧
    (s.me.inh = true → pcOk s.me.epc = false → exec (.rte g) s = s.finish (.error (.trap 2 s.me.epc))) ∧
    (∀ d t, s.put d (BitVec.ofNat 64 s.cyc) = .ok t → exec (.cyc g d) s = .next t.advance)

/-- The next PC in sequence is PC + 1 from slots 0 to 3 and slot 0 of the following line from slot 4; the target of a B-format
transfer counts lines from the PC's own line and names a slot (R27, R36).

BR, JMP and the slides: a target whose line is held and whose entry bit is set is continued at, one whose entry bit is clear
traps with the target, at each of BR, JMP, CALL, CALLX and RET, and no link is written and no window slides; CALL slides the window, makes its new registers DEAD and writes the link into the new window; RET takes the
slide of the tag back; a CALL past depth 6 and a RET at depth 0 take the window traps (R28, R82 to R86). -/
def Obligations.Transfers : Prop :=
  ((∀ pc : Word, pc.toNat % 8 < 4 → nextPc pc = pc + 1) ∧
  (∀ pc : Word, 4 ≤ pc.toNat % 8 → nextPc pc = (pc &&& ~~~0x3F#64) + 64) ∧
  (∀ (pc : Word) (disp : BitVec 40),
    branchTarget pc disp = (pc &&& ~~~0x3F#64) + (disp.extractLsb' 3 37).signExtend 64 * 64 + (disp.setWidth 3).setWidth 64) ∧
  (∀ (g : Guard) (s : State), s.guardTrue g = .ok true →
    exec (.nop g) s = .next (s.modSlot s.cur fun t => { t with pc := nextPc t.pc, wait := .none, entryDue := false, handlerDue := false }))) ∧
  (∀ (g : Guard) (s : State), s.guardTrue g = .ok true →
    (∀ (disp : BitVec 40) (l : CodeLine), s.targetLine (branchTarget s.me.pc disp) l →
      (l.entry (pcSlot (branchTarget s.me.pc disp)) = true → exec (.br g disp) s = .next (s.jumpTo (branchTarget s.me.pc disp))) ∧
      (l.entry (pcSlot (branchTarget s.me.pc disp)) = false →
        exec (.br g disp) s = s.finish (.error (.trap 2 (branchTarget s.me.pc disp))))) ∧
    (∀ (t : Src) (pc : Word) (u : State) (l : CodeLine), s.operands g [t] [pc] u → s.targetLine pc l →
      l.entry (pcSlot pc) = false →
      exec (.jmp g t) s = s.finish (.error (.trap 2 pc)) ∧ exec (.ret g t) s = s.finish (.error (.trap 2 pc))) ∧
    (∀ (t : Src) (pc : Word) (u : State) (l : CodeLine), s.operands g [t] [pc] u → s.targetLine pc l →
      l.entry (pcSlot pc) = true →
      exec (.jmp g t) s = .next (u.jumpTo pc) ∧
      (depthOf u.me.wstate = 0 → exec (.ret g t) s = s.finish (.error (.trap 7 0))) ∧
      (∀ k, depthOf u.me.wstate ≠ 0 → u.me.fills = [] → k = tagOf u.me.wstate ((wbOf u.me.wstate + 8) % 9) →
        k ≤ depthOf u.me.wstate →
        let gone := (List.range k).flatMap fun i => octetRegs ((wbOf u.me.wstate + 3 - k + i) % 9)
        (∀ j ∈ gone, u.pendingAt u.cur j = false) →
        exec (.ret g t) s = .next (((u.deadRegs u.cur gone).modSlot u.cur fun v => { v with
          wstate := mkWstate (tagsOf u.me.wstate) (depthOf u.me.wstate - k) ((wbOf u.me.wstate + 9 - k) % 9) }).jumpTo pc))) ∧
    (∀ (i : Instr) (d : Dst) (k : BitVec 2) (pc : Word) (u v : State) (l : CodeLine),
      ((∃ disp, i = .call g d k disp ∧ pc = branchTarget s.me.pc disp ∧ u = s) ∨
        (∃ t, i = .callx g d t k ∧ s.operands g [t] [pc] u)) →
      (u.targetLine pc l → l.entry (pcSlot pc) = false → exec i s = s.finish (.error (.trap 2 pc))) ∧
      (u.running → u.targetLine pc l → l.entry (pcSlot pc) = true →
      let w := u.me.wstate
      let wb := (wbOf w + k.toNat) % 9
      let tags := (List.range k.toNat).foldl (fun ts j => setTag ts ((wbOf w + j) % 9) k.toNat) (tagsOf w)
      let new := (List.range k.toNat).flatMap fun i => octetRegs ((wb + (3 - k.toNat) + i) % 9)
      let slid : State := (u.modSlot u.cur fun x => { x with wstate := mkWstate tags (depthOf w + k.toNat) wb }).deadRegs u.cur new
      (6 < depthOf w + k.toNat → exec i s = s.finish (.error (.trap 6 (BitVec.ofNat 64 (depthOf w + k.toNat * 16))))) ∧
      (depthOf w + k.toNat ≤ 6 → slid.put d (nextPc s.me.pc) = .ok v →
        exec i s = .next (v.jumpTo pc) ∧
        wbOf slid.me.wstate = wb ∧ depthOf slid.me.wstate = depthOf w + k.toNat ∧
        (∀ i, i < k.toNat → wbOf w < 9 → tagOf slid.me.wstate ((wbOf w + i) % 9) = k.toNat)))))

/-! ### Instructions that compute (R103 to R119) -/

/-- Every integer instruction of `intCalc` completes with its result whenever its guard is true, its sources can be read and its
destination can be written. -/
def Obligations.IntegerResults : Prop :=
  ∀ (i : Instr) (s u t : State) (c : Calc) (vs : List Word),
    intCalc i = some c → s.running → s.operands c.g c.srcs vs u → u.put c.d (c.value vs) = .ok t → exec i s = .next t.advance

/-- PART and the instructions that read a quantity of the machine complete with it.

MFS writes the register's value wherever its level permits it, and CYC the counter (R372, R374, R375, R378). A debugger's read
of a register answers its state code with its value, with 0 where it is DEAD or EMPTY, and with what a CATCH register records, and
changes nothing else (R41, R149). -/
def Obligations.MachineReads : Prop :=
  (∀ (i : Instr) (s u t : State) (c : Calc) (vs : List Word),
    readCalc s i = some c → s.operands c.g c.srcs vs u → u.put c.d (c.value vs) = .ok t → exec i s = .next t.advance) ∧
  ((∀ (g : Guard) (d : Dst) (r : BitVec 12) (s t : State), s.guardTrue g = .ok true →
    (sysPriv r.toNat = false ∨ (s.slotSet s.cur).service = true) → s.put d (s.sysRead r.toNat) = .ok t →
    exec (.mfs g d r) s = .next t.advance) ∧
  (∀ (g : Guard) (d : Dst) (s t : State), s.guardTrue g = .ok true → s.put d (BitVec.ofNat 64 s.cyc) = .ok t →
    exec (.cyc g d) s = .next t.advance) ∧
  (∀ s : State,
    let t := s.me
    let u := s.slotSet s.cur
    let i := s.isle (s.cur / 256 / 48)
    s.sysRead 0x000 = s.zid.setWidth 64 ∧ s.sysRead 0x001 = BitVec.ofNat 64 s.fpkg ∧ s.sysRead 0x002 = s.sptbase ∧
    s.sysRead 0x010 = t.wstate ∧ s.sysRead 0x011 = t.spillp ∧ s.sysRead 0x012 = t.waitlim ∧ s.sysRead 0x013 = t.deadmode ∧
    s.sysRead 0x014 = t.wrec ∧ s.sysRead 0x015 = t.grec ∧ s.sysRead 0x016 = t.tctl ∧
    s.sysRead 0x017 = BitVec.ofNat 64 t.redcnt ∧ s.sysRead 0x018 = u.tsvec ∧
    s.sysRead 0x020 = t.epc ∧ s.sysRead 0x021 = t.ecause ∧ s.sysRead 0x022 = t.eval ∧ s.sysRead 0x023 = t.estat ∧
    s.sysRead 0x024 = t.tsave.getD 0 0 ∧ s.sysRead 0x025 = t.tsave.getD 1 0 ∧ s.sysRead 0x026 = t.tsave.getD 2 0 ∧
    s.sysRead 0x027 = t.tsave.getD 3 0 ∧
    (s.sysRead 0x040).getLsbD 0 = (s.core (s.cur / 256)).strayDeliver ∧
    (s.sysRead 0x040).getLsbD 1 = (s.core (s.cur / 256)).excluded ∧
    s.sysRead 0x080 = i.moorbase ∧ s.sysRead 0x081 = i.moorlim ∧
    s.sysRead 0x082 = BitVec.ofNat 64 (i.cap * 65536 + i.ablimit) ∧
    (s.sysRead 0x083).getLsbD 0 = i.lock ∧ (s.sysRead 0x083).getLsbD 1 = i.bad ∧ (s.sysRead 0x083).getLsbD 2 = i.nospread ∧
    (∀ n, n < 4 → s.sysRead (0x084 + n) = i.ixh.getD n 0) ∧ (∀ n, n < 9 → s.sysRead (0x088 + n) = i.bxh.getD n 0) ∧
    s.sysRead 0x091 = BitVec.ofNat 64 i.gage ∧ s.sysRead 0x092 = BitVec.ofNat 64 i.pdto ∧
    s.sysRead 0x093 = BitVec.ofNat 64 (4096 - i.pool.length) ∧ s.sysRead 0x094 = i.fqbase)) ∧
  (∀ (s : State) (k : Nat),
    let t := s.slot k
    let shows (r : RegName) (a : RegRead) : Prop := s.move (.debug k r) = .next { s with answer := .register a }
    shows .x0 ⟨0, 0, none, none, []⟩ ∧ shows .p0 ⟨0, 1, none, none, []⟩ ∧
    (∀ j, j < 79 →
      (∀ v, t.xCell j = .full v → shows (.at_ j) ⟨0, v.toNat, none, none, []⟩) ∧
      (∀ m, t.xCell j = .empty m → shows (.at_ j) ⟨1, 0, none, none, []⟩) ∧
      (∀ c q, t.xCell j = .catching c q → shows (.at_ j) ⟨2, 0, some c, some q, []⟩) ∧
      (t.xCell j = .dead → shows (.at_ j) ⟨3, 0, none, none, []⟩)) ∧
    (∀ n, 0 < n → n < 8 → ∀ b, t.pCell n = .full b → shows (.at_ (78 + n)) ⟨0, if b then 1 else 0, none, none, []⟩) ∧
    (∀ n, n < 16 → t.lease ≠ none →
      (∀ v, t.vCell n = .full v → shows (.at_ (86 + n)) ⟨0, v.toNat, none, none, []⟩) ∧
      (∀ c l, t.vCell n = .catching c l → shows (.at_ (86 + n)) ⟨2, 0, some c, none, l⟩)))

/-- The predicate instructions complete with their results (R88).

DIV and REM: with a register destination and room in the divider's queue the destination becomes EMPTY, awaiting a reply, and
the operation with its result enters the divider, which accepts it at once or 4 clk after the one before it; with x0 nothing is
computed; with 8 operations in the queue the slot waits (R104, R109, R110). -/
def Obligations.PredicatesAndDivider : Prop :=
  ((∀ (g : Guard) (d : Dst) (a b : Src) (x y : Bool) (s u t : State), s.operandsP g a b x y u →
    (u.writeP d (x && y) = .ok t → exec (.pand g d a b) s = .next t.advance) ∧
    (u.writeP d (x || y) = .ok t → exec (.por g d a b) s = .next t.advance) ∧
    (u.writeP d (x ^^ y) = .ok t → exec (.pxor g d a b) s = .next t.advance) ∧
    (u.writeP d (x && !y) = .ok t → exec (.pandn g d a b) s = .next t.advance)) ∧
  (∀ (g : Guard) (d : Dst) (a : Src) (x : Bool) (r : Rd) (s t : State),
    s.guardTrue g = .ok true → readP 0 a s.rd = .ok (x, r) →
    ((r.s.killPs [a]).writeP d (!x) = .ok t → exec (.pnot g d a) s = .next t.advance) ∧
    ((r.s.killPs [a]).writeP d x = .ok t → exec (.pmov g d a) s = .next t.advance)) ∧
  (∀ (g : Guard) (d : Dst) (v : Bool) (s t : State),
    s.guardTrue g = .ok true → s.writeP d v = .ok t → exec (.pmovi g d v) s = .next t.advance)) ∧
  (∀ (g : Guard) (d : Dst) (a b : Src) (uns : Bool) (x y : Word) (s u : State), s.operands g [a, b] [x, y] u →
    let q : Word := if y = 0 then BitVec.allOnes 64 else if uns then x / y else x.sdiv y
    let m : Word := if y = 0 then x else if uns then x % y else x.srem y
    let accepted (w : State) : Nat := Nat.max w.cyc (w.core (w.cur / 256)).divNext
    let queued (v : Word) (w : State) : State :=
      (w.modCore (w.cur / 256) fun c => { c with
        div := c.div ++ [{ slot := w.cur, gen := w.me.gen, reg := xIndex u.me.wstate d.toNat, value := v, at_ := accepted w }]
        divNext := accepted w + 4 }).advance
    let waiting := ((u.core (u.cur / 256)).div.filter fun o => decide (u.cyc < o.at_)).length
    (d = 0 → exec (.div g d a b uns) s = .next u.advance ∧ exec (.rem g d a b uns) s = .next u.advance) ∧
    (∀ w : State, d ≠ 0 → waiting < 8 → u.emptyXj (xIndex u.me.wstate d.toNat) = .ok w →
      exec (.div g d a b uns) s = .next (queued q w) ∧ exec (.rem g d a b uns) s = .next (queued m w)) ∧
    (d ≠ 0 → 8 ≤ waiting →
      exec (.div g d a b uns) s = s.finish (.error (.wait .other)) ∧ exec (.rem g d a b uns) s = s.finish (.error (.wait .other))))

/-- CMP and CMPI complete with the predicate that their condition gives, which ends FULL; a source that cannot be read holds or
traps them, as it is no affine use; the condition codes above 0xB are rejected (R116). -/
def Obligations.CompareResults : Prop :=
  (∀ (g : Guard) (d : Dst) (a b : Src) (imm : BitVec 40) (c : Cond) (x y : Word) (s u t : State),
    let holds (y : Word) : Bool := match c with
      | .eq => x == y
      | .ne => x != y
      | .lt => x.slt y
      | .ge => !x.slt y
      | .ltu => x.ult y
      | .geu => !x.ult y
      | .le => x.sle y
      | .gt => !x.sle y
      | .leu => x.ule y
      | .gtu => !x.ule y
      | .tst => (x &&& y) != 0
      | .ntst => (x &&& y) == 0
    (s.operands g [a, b] [x, y] u → u.writeP d (holds y) = .ok t → exec (.cmp g d a b c) s = .next t.advance) ∧
    (s.operands g [a] [x] u → u.writeP d (holds (imm.signExtend 64)) = .ok t → exec (.cmpi g d a c imm) s = .next t.advance)) ∧
  (∀ (g : Guard) (d : Dst) (a b : Src) (imm : BitVec 40) (c : Cond) (e : Stop) (s : State), s.guardTrue g = .ok true →
    (readX 0 a s.rd = .error e → exec (.cmp g d a b c) s = s.finish (.error e) ∧ exec (.cmpi g d a c imm) s = s.finish (.error e)) ∧
    (∀ x r, readX 0 a s.rd = .ok (x, r) → readX 1 b r = .error e → exec (.cmp g d a b c) s = s.finish (.error e))) ∧
  (∀ (s t : State) (d : Dst) (v : Bool), s.running → s.me.p.length = 7 → 0 < d.toNat → d.toNat < 8 → s.writeP d v = .ok t →
    t.me.pCell d.toNat = .full v) ∧
  (∀ w : BitVec 96, w.extractLsb' 86 10 = 0x5F ∨ w.extractLsb' 86 10 = 0x60 → 12 ≤ (w.extractLsb' 40 4).toNat →
    decodeWord w = .error .reserved)

/-- SEL writes its first value when the predicate is 1 and its second when it is 0; both are read, and killed when marked,
whichever is chosen, and a pending value source holds the instruction even when it is not chosen (R117). -/
def Obligations.SelectResult : Prop :=
  ∀ (g : Guard) (d : Dst) (a b p : Src) (s : State),
    (s.guardTrue g = .ok false → exec (.sel g d a b p) s = .next s.advance) ∧
    (s.guardTrue g = .ok true →
    (∀ (x y : Word) (c : Bool) (r r' r'' : Rd) (t : State),
      readX 0 a s.rd = .ok (x, r) → readX 1 b r = .ok (y, r') → readP 2 p r' = .ok (c, r'') →
      ((r''.s.killXs [a, b]).killPs [p]).put d (if c then x else y) = .ok t →
      exec (.sel g d a b p) s = .next t.advance) ∧
    (∀ e : Stop, readX 0 a s.rd = .error e → exec (.sel g d a b p) s = s.finish (.error e)) ∧
    (∀ (x : Word) (r : Rd) (e : Stop), readX 0 a s.rd = .ok (x, r) → readX 1 b r = .error e →
      exec (.sel g d a b p) s = s.finish (.error e)))

/-! ### Frames -/

/-- What an instruction on registers leaves unchanged when it gives a next state, whether it completes, waits, or traps: memory,
presence bits, error marks, task sets, isles, quires, every other slot and the slot's special registers; every x register, predicate
and v register that awaits nothing, but for the destination and the sources it kills; the trap registers, unless it traps (R37, R40,
R76, R377). -/
def Obligations.RegisterFrame : Prop :=
  ∀ (i : Instr) (f : RegForm) (s t : State), regForm i = some f → s.running → s.trapsLand s.cur → exec i s = .next t →
    s.sameMemory t ∧ t.sets = s.sets ∧ t.isles = s.isles ∧ t.quires = s.quires ∧ s.sameSlotsBut t s.cur ∧
    s.me.sameSpecials t.me ∧
    ((t.me.estat = s.me.estat ∧ t.me.epc = s.me.epc ∧ t.me.ecause = s.me.ecause ∧ t.me.eval = s.me.eval) ∨
      (t.me.estat = 1 ∧ t.me.epc = s.me.pc)) ∧
    (∀ j, j < 79 → (s.me.xCell j).settled → ¬ s.namesX f.xd j → (∀ a ∈ f.xs, a.kill = true → ¬ s.namesX a.reg j) →
      t.me.xCell j = s.me.xCell j) ∧
    (∀ n, 1 ≤ n → n < 8 → (s.me.pCell n).settled → n ≠ f.pd.toNat → (∀ a ∈ f.ps, a.kill = true → n ≠ a.reg.toNat) →
      t.me.pCell n = s.me.pCell n) ∧
    (∀ n, n < 16 → (s.me.vCell n).settled → (∀ d, f.vd = some d → n ≠ vNum d) →
      (∀ a ∈ f.vs, a.kill = true → n ≠ vNum a.reg) → t.me.vCell n = s.me.vCell n)

/-- No instruction of a program changes memory, a presence bit or an error mark as it issues: those change when a reference, a
command or another event of a unit is performed. Only ABORTSET, which ends a task set, and REPLAY and FATAL, which answer parked
commands, may (R10, R157, R326, R329). -/
def Obligations.InstructionsLeaveMemory : Prop :=
  ∀ (i : Instr) (g : Guard) (s t : State), guardIn i = some g → (∀ g d a b, i ≠ .abortset g d a b) →
    (∀ g d a, i ≠ .replay g d a ∧ i ≠ .fatal g d a) → s.trapsLand s.cur → exec i s = .next t → s.sameMemory t

/-! ### Memory instructions at issue (R152 to R192, R208 to R217, R326 to R331) -/

/-- A synchronising operation, atomic, reduction or agent operation on local memory whose page is translated and permits it makes
its destination EMPTY and sends its reference to the home; a reduction counts in REDCNT; an MCAS seals the buffers of the packages
that its descriptor names (R154, R158, R168, R180, R184, R189, R191, R192, R209).

LD, LDX, LDF, LDFE and a returning atomic with x0, and TAGRD with p0, are touches: with 16 in REDCNT they wait; on a page that is
translated and permits the access they only advance; on one that denies it they trap; on one with a live fault entry they park
there and count in REDCNT, and no register changes (R155, R180, R185). -/
def Obligations.LocalReferences : Prop :=
  (∀ (i : Instr) (c : LocalRef) (vs : List Word) (s u v : State) (h isle : Nat),
    localRef i = some c → s.operands c.g c.srcs vs u → localAddr (c.va vs) c.align →
    (c.dram = true → inWindow (c.va vs).toNat = false) → u.fenceHolds u.cur c.sets = false → c.dest.ready u v →
    let w := c.from_ vs v
    w.locate w.cur (c.va vs).toNat (c.op vs).needR (c.op vs).needW = .home h isle →
    (c.counted = false → exec i s = .next (w.withRef c vs (c.dest.ret u) h isle).advance) ∧
    (c.counted = true → w.me.redcnt < 16 → w.running →
      exec i s = .next ((w.modSlot w.cur fun t => { t with redcnt := t.redcnt + 1 }).withRef c vs .none h isle).advance)) ∧
  (∀ (i : Instr) (c : LocalRef) (vs : List Word) (s u : State),
    touchRef i = some c → s.operands c.g c.srcs vs u → localAddr (c.va vs) c.align → u.fenceHolds u.cur c.sets = false → u.running →
    let va := c.va vs
    (16 ≤ u.me.redcnt → exec i s = s.finish (.error (.wait .other))) ∧
    (u.me.redcnt < 16 →
      (∀ h isle, u.locate u.cur va.toNat (c.op vs).needR (c.op vs).needW = .home h isle → exec i s = .next u.advance) ∧
      (u.locate u.cur va.toNat (c.op vs).needR (c.op vs).needW = .deny → exec i s = s.finish (.error (.trap 13 va))) ∧
      (∀ isle n, u.locate u.cur va.toNat (c.op vs).needR (c.op vs).needW = .fault isle n →
        ∃ (t : State) (p : Parked), exec i s = .next t ∧ t.me.redcnt = u.me.redcnt + 1 ∧ u.sameMemory t ∧ t.refs = u.refs ∧
          t.replies = u.replies ∧ t.me.xlo = u.me.xlo ∧ t.me.win = u.me.win ∧ t.me.p = u.me.p ∧
          (t.fault isle n).parked.map (·.what) = (u.fault isle n).parked.map (·.what) ++ [p] ∧
          ∃ r : Ref, p = .ref r ∧ r.va = va ∧ r.op = c.op vs ∧ r.slot = u.cur ∧ r.gen = u.me.gen ∧ r.counted = true)))

/-- LD and LDX from local memory: with some of their bytes in no entry of the store buffer the destination becomes EMPTY and a read
is sent to the home; when the buffer holds every byte the newest bytes are forwarded, extended as the instruction says. Behind an
access of the slot to the word that is neither performed, nor a store in the buffer, nor a load that took its bytes there, the load
waits for it before it looks up the buffer (R156, R327, R328, R330); that the order is kept by the address too, and over the words
that an agent operation, a TAGSET or a vector reference still comes to, is the model's choice (log entry 19). With x0 they are
touches: O21.

ST and STX to local memory enter the bytes of their value, lowest first, at the newest end of the core's store buffer; a full
buffer makes the slot wait (R157, R329). -/
def Obligations.LoadsAndStores : Prop :=
  (∀ (i : Instr) (g : Guard) (srcs : List Src) (vs : List Word) (d : Dst) (w : Width) (sgn : Bool) (va : Word) (s u v : State)
    (h isle : Nat),
    ((∃ b imm, i = .ld g d b w sgn imm ∧ srcs = [b] ∧ va = vs.getD 0 0 + imm.signExtend 64) ∨
      (∃ b x scale, i = .ldx g d b x scale w sgn ∧ srcs = [b, x] ∧ va = vs.getD 0 0 + vs.getD 1 0 <<< (scale : BitVec 2).toNat)) →
    s.operands g srcs vs u → localAddr va (widthBytes w) → u.fenceHolds u.cur setL = false → d ≠ 0 →
    u.emptyXj (xIndex u.me.wstate d.toNat) = .ok v → v.locate v.cur va.toNat true false = .home h isle →
    let dst := RetDst.reg (xIndex u.me.wstate d.toNat)
    let all := (v.core (v.cur / 256)).sb
    let sb := all.takeWhile fun e => e.slot ≠ v.cur || decide (e.id < v.serial) ||
      !spansMeet [spanOf e.home e.bytes.length] [spanOf h (widthBytes w)]
    let words := [spanOf h (widthBytes w), vaSpan va.toNat (widthBytes w)]
    let behind := (v.accs.any fun a => a.slot == v.cur && decide (a.gen = v.me.gen) && spansMeet a.words words &&
      !all.any fun e => e.id == a.id || e.readers.contains a.id) || v.manyAhead v.serial v.cur v.me.gen words
    let sent (op : RefOp) : State :=
      (v.withRef ⟨g, srcs, .x d, setL, fun _ => va, widthBytes w, fun _ => op, false, false, 0⟩ vs dst h isle).advance
    (behind = true → exec i s = .next (sent (.loadLate w sgn))) ∧
    (behind = false → (∃ n, n < widthBytes w ∧ ∀ e ∈ sb, h + n < e.home ∨ e.home + e.bytes.length ≤ h + n) →
      exec i s = .next (sent (.load w sgn))) ∧
    (∀ bytes : List Byte, behind = false → bytes.length = widthBytes w →
      (∀ n, n < widthBytes w → newestByte sb (h + n) = bytes[n]?) →
      ∃ t, exec i s = .next t ∧ t.refs = v.refs ∧ t.mem = v.mem ∧
        t.replies = v.replies ++ [{
          slot := v.cur, gen := v.me.gen, dst := dst
          value := if sgn then (BitVec.ofNat (widthBits w) (natOfBytes bytes)).signExtend 64 else BitVec.ofNat 64 (natOfBytes bytes)
          vec := none, fatal := false, acc := none }])) ∧
  (∀ (i : Instr) (g : Guard) (srcs : List Src) (vs : List Word) (w : Width) (va x : Word) (s u : State) (h isle : Nat),
    ((∃ b v imm, i = .st g b v w imm ∧ srcs = [b, v] ∧ va = vs.getD 0 0 + imm.signExtend 64 ∧ x = vs.getD 1 0) ∨
      (∃ b y v scale, i = .stx g b y v scale w ∧ srcs = [b, y, v] ∧
        va = vs.getD 0 0 + vs.getD 1 0 <<< (scale : BitVec 2).toNat ∧ x = vs.getD 2 0)) →
    s.operands g srcs vs u → localAddr va (widthBytes w) → u.fenceHolds u.cur setS = false →
    u.locate u.cur va.toNat false true = .home h isle →
    ((u.core (u.cur / 256)).sb.length < 32 → ∃ t, exec i s = .next t ∧ t.mem = u.mem ∧ t.refs = u.refs ∧
      (t.core (u.cur / 256)).sb = (u.core (u.cur / 256)).sb ++ [{
        id := u.serial, slot := u.cur, gen := u.me.gen, va := va, home := h, bytes := bytesOf (widthBytes w) x.toNat
        readers := [] }]) ∧
    (32 ≤ (u.core (u.cur / 256)).sb.length → exec i s = s.finish (.error (.wait .other))))

/-- A remote load, returning atomic, ENQ or CHASE: with no element of the slot for the same connection still before it, and a peer
in reach, the destination becomes EMPTY and a request joins its connection behind the slot's sealed elements; a peer out of reach
ends it FATAL at once; with x0 it is a probe that counts (R180, R198, R208, R209, R211, R240).

A store or reduction to a global address: with the peer in reach and fewer than 4,096 elements of the slot outstanding, it becomes
one element on its way to the egress isle's buffers, its bytes placed in their word, and counts; a peer out of reach is entered in
the remote fault record with status 3 and nothing is sent (R184, R212, R213, R217, R222, R240). -/
def Obligations.RemoteAccesses : Prop :=
  (∀ (i : Instr) (c : RemoteReq) (vs : List Word) (s u v : State),
    remoteReq i = some c → s.operands c.g c.srcs vs u → globalAddr (c.va vs) c.align → u.fenceHolds u.cur setR = false →
    let job := (u.slotSet u.cur).job
    let dest := (c.va vs).toNat / 2 ^ 43 % 4096
    let off := (c.va vs).toNat % 2 ^ 43
    let j := xIndex u.me.wstate c.d.toNat
    u.elemsBefore u.cur u.me.gen dest job = false → u.manyAhead u.serial u.cur u.me.gen [farSpan (c.va vs)] = false →
    (c.d ≠ 0 → u.emptyXj j = .ok v →
      (v.canReach dest job = true → exec i s = .next (v.sendRequest dest job ((RetDst.reg j).number u.me.wstate) (.reg j) off (c.op vs) c.sgn).advance) ∧
      (v.canReach dest job = false → exec i s = .next (v.replyFatal v.cur v.me.gen (.reg j)).advance)) ∧
    (c.d = 0 → u.me.redcnt < 16 →
      (u.canReach dest job = true →
        exec i s = .next ((u.redUp u.cur).sendRequest dest job probeReg .none off c.probe false).advance) ∧
      (u.canReach dest job = false → exec i s = .next u.advance))) ∧
  (∀ (i : Instr) (c : RemoteElem) (vs : List Word) (s u : State),
    remoteElem i = some c → s.operands c.g c.srcs vs u → globalAddr (c.va vs) (widthBytes c.w) → u.running →
    u.fenceHolds u.cur setR = false →
    let va := c.va vs
    let job := (u.slotSet u.cur).job
    let dest := va.toNat / 2 ^ 43 % 4096
    let n := widthBytes c.w
    let el : Elem := {
      op := c.code
      be := BitVec.ofNat 8 ((2 ^ n - 1) * 2 ^ (va.toNat % 8))
      off := BitVec.ofNat 40 (va.toNat % 2 ^ 43 / 8)
      value := BitVec.ofNat 64 ((c.value vs).toNat % 2 ^ (8 * n) * 2 ^ (8 * (va.toNat % 8))) }
    (u.canReach dest job = true → u.me.queued + u.me.unacked < 4096 → (c.code ≠ 0 → u.me.redcnt < 16) →
      u.manyAhead u.serial u.cur u.me.gen [farSpan va] = false → u.meshFull (u.gatherIsle u.cur dest) (u.cur / 256) = false →
      ∃ t, exec i s = .next t ∧ t.mem = u.mem ∧ t.refs = u.refs ∧
        t.elemsOut = u.elemsOut ++ [(u.gatherIsle u.cur dest, { el := el, slot := u.cur, gen := u.me.gen, va := va, at_ := 0 }, dest, job)] ∧
        t.me.queued = u.me.queued + 1 ∧ t.me.redcnt = (if c.code = 0 then u.me.redcnt else u.me.redcnt + 1)) ∧
    (u.canReach dest job = false → exec i s = .next (u.rfAdd u.cur u.me.gen va c.code 3).advance))

/-- TAGSET: of no words it replies 0 at once; else its destination becomes EMPTY and its reference, which has done no word, is sent
toward its first word; a length that runs past the end of the global addresses is an address trap (R154, R170).

A TAGSET's step in an isle, at the next word there of the isle's wave, sets F of that word and of no other and changes no data;
after the last word it replies with its length, or with bit 63 and the words done where its memory ends before the length
(R170, R172). -/
def Obligations.TagsetRules : Prop :=
  (∀ (g : Guard) (d : Dst) (b l : Src) (full : Bool) (va n : Word) (s u v : State),
    s.operands g [b, l] [va, n] u → va.toNat < 2 ^ 55 → va.toNat % 8 = 0 → u.fenceHolds u.cur setS = false → d ≠ 0 →
    u.emptyXj (xIndex u.me.wstate d.toNat) = .ok v →
    let j := xIndex u.me.wstate d.toNat
    (2 ^ 56 < va.toNat + 8 * n.toNat → exec (.tagset g d b l full) s = s.finish (.error (.trap 11 va))) ∧
    (n = 0 → exec (.tagset g d b l full) s = .next (v.reply v.cur v.me.gen (.reg j) 0).advance) ∧
    (n ≠ 0 → va.toNat + 8 * n.toNat ≤ 2 ^ 56 → ∀ h isle, v.locate v.cur va.toNat false true = .home h isle →
      ∃ t, exec (.tagset g d b l full) s = .next t ∧ t.mem = v.mem ∧ t.fulls = v.fulls ∧ t.refs = v.refs ++ [{
        id := v.serial, slot := v.cur, gen := v.me.gen, tsid := v.me.tsid.getD 0, num := (RetDst.reg j).number v.me.wstate
        job := (v.slotSet v.cur).job, space := (v.slotSet v.cur).space, va := va, isle := isle, home := h
        dst := .reg j, op := .tagset full n.toNat 0 0 [], limit := v.me.waitlim.toNat, counted := false }])) ∧
  (∀ (s : State) (k isle : Nat) (r : Ref) (full : Bool) (len done low h i : Nat) (ps : List TagPart),
    s.refs[k]? = some r → r.home ≠ unplaced → r.op = .tagset full len done low ps →
    let u : State := { s with refs := lremove s.refs k }
    let stop := tagsetEnd r.va.toNat len
    let p := partOf ps isle
    let w := u.tagNext r isle p.stop (p.stop - p.pos) p.pos
    let va := r.va.toNat + 8 * w
    low < stop → w < p.stop → (∀ m ∈ s.moors, m.area = none ∧ m.home / 8 ≠ h / 8) →
    u.laneReach r va = (.home h i, u) → u.inOrder r.id r.slot r.gen (spansOf va 8 (some h)) false = true →
    s.spRefused h 8 = none → s.isBroken h 8 = false →
    ∃ t, exec (.memrefArrive k (some isle)) s = .next t ∧ t.mem = s.mem ∧ t.fulls = tset false s.fulls (h / 8) full ∧
      (stop ≤ done + 1 → t.refs = u.refs ∧ t.replies = s.replies ++ [{
        slot := r.slot, gen := r.gen, dst := r.dst, value := if stop = len then BitVec.ofNat 64 len else BitVec.ofNat 64 (2 ^ 63 + (done + 1))
        vec := none, fatal := false, acc := none }]) ∧
      (done + 1 < stop → t.replies = s.replies ∧
        ∃ low', t.refs = u.refs ++ [{ r with op := .tagset full len (done + 1) low' (setPart ps { p with pos := w + 1 }) }]))

/-- The address checks of every load, store, synchronising operation, atomic, reduction, agent operation, TAGRD and TAGSET come
before its translation: an address with bits above 55 set, or a global one where only local ones are allowed, is an address trap
with the address; one that is not aligned is an alignment trap (R154). PARK checks its word and its leaf, FOLD its leaf and its
extension, at issue; that PARK's word comes first is the model's choice (log entry 63). SPLD and SPST take an offset beyond the
scratchpad as an address trap with the offset, and check the alignment of the window address (R251); the two trap values are the
model's choice (log entry 28).

A local reference on a page that denies it raises the access trap at issue; on a page with no translation held the issue is void
and asks for a walk; an address in the scratchpad window lies in the slot's own quire; a held translation gives its home; a page
with a live fault entry and no translation held leads to that entry (R21, R385, R386, R388). -/
def Obligations.AddressesAndTranslation : Prop :=
  ((∀ (i : Instr) (c : AddrForm) (vs : List Word) (s u : State),
    addrForm i = some c → s.operands c.g c.srcs vs u → u.fenceHolds u.cur c.sets = false → u.fenceHolds u.cur setR = false →
    let va := c.va vs
    (2 ^ 56 ≤ va.toNat → exec i s = s.finish (.error (.trap 11 va))) ∧
    (c.localOnly = true → 2 ^ 55 ≤ va.toNat → exec i s = s.finish (.error (.trap 11 va))) ∧
    (va.toNat < 2 ^ 56 → (c.localOnly = true → va.toNat < 2 ^ 55) → va.toNat % c.align ≠ 0 →
      exec i s = s.finish (.error (.trap 12 va))) ∧
    (c.dram = true → va.toNat % c.align = 0 → inWindow va.toNat = true → exec i s = s.finish (.error (.trap 11 va)))) ∧
  (∀ (i : Instr) (g : Guard) (b leaf ev ext : Src) (x : Bool) (regs : BitVec 36) (wa va e xa : Word) (s u : State), s.guardClear →
    (i = .park g b leaf ev x regs → s.operands g [b, leaf, ev] [wa, va, e] u →
      (2 ^ 55 ≤ wa.toNat → exec i s = s.finish (.error (.trap 11 wa))) ∧
      (wa.toNat < 2 ^ 55 → wa.toNat % 8 ≠ 0 → exec i s = s.finish (.error (.trap 12 wa))) ∧
      (localAddr wa 8 → 2 ^ 55 ≤ va.toNat → exec i s = s.finish (.error (.trap 11 va))) ∧
      (localAddr wa 8 → va.toNat < 2 ^ 55 → va.toNat % (if x then 128 else 64) ≠ 0 → exec i s = s.finish (.error (.trap 12 va)))) ∧
    (i = .fold g leaf ev ext x regs → s.operands g [leaf, ev, ext] [va, e, xa] u →
      (2 ^ 55 ≤ va.toNat → exec i s = s.finish (.error (.trap 11 va))) ∧
      (va.toNat < 2 ^ 55 → va.toNat % 64 ≠ 0 → exec i s = s.finish (.error (.trap 12 va))) ∧
      (x = true → localAddr va 64 → 2 ^ 55 ≤ xa.toNat → exec i s = s.finish (.error (.trap 11 xa))) ∧
      (x = true → localAddr va 64 → xa.toNat < 2 ^ 55 → xa.toNat % 64 ≠ 0 → exec i s = s.finish (.error (.trap 12 xa))))) ∧
  (∀ (i : Instr) (g : Guard) (d : Dst) (b v : Src) (w : Width) (sgn : Bool) (imm : BitVec 40) (vs : List Word) (s u : State),
    ((i = .spld g d b w sgn imm ∧ s.operands g [b] vs u ∧ u.fenceHolds u.cur setL = false) ∨
      (i = .spst g b v w imm ∧ s.operands g [b, v] vs u ∧ u.fenceHolds u.cur setS = false)) →
    let o := baseDisp imm vs
    (2 ^ 21 ≤ o.toNat → exec i s = s.finish (.error (.trap 11 o))) ∧
    (o.toNat < 2 ^ 21 → o.toNat % widthBytes w ≠ 0 → exec i s = s.finish (.error (.trap 12 (BitVec.ofNat 64 spBase + o)))))) ∧
  (∀ (s : State) (va : Word) (r w : Bool),
    (s.locate s.cur va.toNat r w = .deny → s.reach va r w = .error (.trap 13 va)) ∧
    (s.locate s.cur va.toNat r w = .walk → ∃ x : Walk, s.reach va r w = .error (.walk x) ∧ x.slot = s.cur ∧ x.gen = s.me.gen ∧
      x.va = va.toNat ∧ x.space = (s.slotSet s.cur).space) ∧
    (∀ l, s.locate s.cur va.toNat r w = l → l ≠ .deny → l ≠ .walk → s.reach va r w = .ok l) ∧
    (inWindow va.toNat = true → s.locate s.cur va.toNat r w = .home (2 ^ 48 + s.cur / 256 / 4 * 2 ^ 21 + (va.toNat - spBase)) (s.cur / 256 / 48)) ∧
    (∀ e, inWindow va.toNat = false → tlbFind (s.core (s.cur / 256)).tlb (s.slotSet s.cur).space va.toNat = some e →
      s.locate s.cur va.toNat r w = if (r = true ∧ e.r = false) ∨ (w = true ∧ e.w = false) then .deny
        else .home (e.pa + (va.toNat - e.va)) (s.isleOfPa e (e.pa + (va.toNat - e.va)))) ∧
    (∀ n, inWindow va.toNat = false → tlbFind (s.core (s.cur / 256)).tlb (s.slotSet s.cur).space va.toNat = none →
      tlbFind (s.isle (s.cur / 256 / 48)).tlb (s.slotSet s.cur).space va.toNat = none →
      (s.isle (s.cur / 256 / 48)).findFault (s.slotSet s.cur).space (va.toNat / 65536 % 2 ^ 39) = some n →
      s.locate s.cur va.toNat r w = .fault (s.cur / 256 / 48) n))

/-! ### Memory at its home (R150, R156 to R172, R176, R181 to R192, R327 to R331) -/

/-- MEMREF_ARRIVE of plain references and atomics: a load replies with the bytes at its home, zero- or sign-extended; a store writes
its bytes; a returning atomic replies with the old value, a reduction is acknowledged, and both write what R181 to R183 give, or
leave the word; nothing else in memory changes; a touch that was released reads nothing and lowers REDCNT (R10, R155, R156, R157,
R176, R181, R184, R185).

What each atomic writes over an old value of its width: sum, AND, OR, XOR, the lesser or greater signed or unsigned, the new
value, the new value where the old equals the expected one, the rounded floating-point sum, the increment with wrap, and the bounded
sum, none where the word is left (R181 to R183). -/
def Obligations.PlainAndAtomicArrivals : Prop :=
  (∀ (s : State) (k : Nat) (part : Option Nat) (r : Ref), s.atHomeNow k r →
    let u : State := { s with refs := lremove s.refs k }
    (∀ w sgn, r.op = .load w sgn →
      exec (.memrefArrive k part) s = .next ((u.perform r.id).reply r.slot r.gen r.dst
        (extended (widthBits w) sgn (BitVec.ofNat 64 (s.readNat r.home (widthBytes w)))))) ∧
    (∀ a b, r.op = .touch a b → exec (.memrefArrive k part) s = .next ((u.perform r.id).redDown r.slot r.gen)) ∧
    (∀ bs, r.op = .store bs → exec (.memrefArrive k part) s = .next ((u.homeStore r.home bs).perform r.id)) ∧
    (∀ op w v c new, r.op = .atom op w v c true →
      atomNew op w (s.readNat r.home (widthBytes w)) v.toNat c.toNat = some new →
      exec (.memrefArrive k part) s = .next (((u.homeStore r.home (bytesOf (widthBytes w) new)).perform r.id).reply r.slot r.gen r.dst
        (BitVec.ofNat 64 (s.readNat r.home (widthBytes w))))) ∧
    (∀ op w v c, r.op = .atom op w v c true →
      atomNew op w (s.readNat r.home (widthBytes w)) v.toNat c.toNat = none →
      exec (.memrefArrive k part) s = .next ((u.perform r.id).reply r.slot r.gen r.dst
        (BitVec.ofNat 64 (s.readNat r.home (widthBytes w))))) ∧
    (∀ op w v c new, r.op = .atom op w v c false →
      atomNew op w (s.readNat r.home (widthBytes w)) v.toNat c.toNat = some new →
      exec (.memrefArrive k part) s = .next { (u.homeStore r.home (bytesOf (widthBytes w) new)).perform r.id with
        acks := s.acks ++ [(r.slot, r.gen, r.id)] }) ∧
    (∀ t, exec (.memrefArrive k part) s = .next t →
      ((∃ bs, r.op = .store bs) ∨ (∃ w sgn, r.op = .load w sgn) ∨ (∃ op w v c ret, r.op = .atom op w v c ret)) →
      t.fulls = s.fulls ∧ t.broken = s.broken ∧ ∀ a, a < r.home ∨ r.home + r.op.len ≤ a → t.byte a = s.byte a)) ∧
  (∀ (w : Width) (old v c : Nat), old < 2 ^ widthBits w → v < 2 ^ widthBits w → c < 2 ^ widthBits w →
    let n := widthBits w
    let less := (BitVec.ofNat n old).slt (BitVec.ofNat n v)
    atomNew .add w old v c = some ((old + v) % 2 ^ n) ∧ atomNew .and w old v c = some (old &&& v) ∧
    atomNew .or w old v c = some (old ||| v) ∧ atomNew .xor w old v c = some (old ^^^ v) ∧
    atomNew .minS w old v c = some (if less then old else v) ∧ atomNew .maxS w old v c = some (if less then v else old) ∧
    atomNew .minU w old v c = some (min old v) ∧ atomNew .maxU w old v c = some (max old v) ∧
    atomNew .xchg w old v c = some v ∧ atomNew .cas w old v c = (if old = v then some c else none) ∧
    atomNew .incw w old v c = some (if v ≤ old then 0 else old + 1) ∧
    atomNew .fab w old v c = (if old + v ≤ c then some (old + v) else none) ∧
    (w = .b32 → atomNew .fadd w old v c = some (fop .add .f32 .rne old v)) ∧
    (w = .b16 → atomNew .fadd w old v c = some (fop .add .bf16 .rne old v)))

/-- The bytes that a write at a home leaves there: each byte written reads back, every other byte reads as before (R4, R157). -/
def Obligations.WriteThenRead : Prop :=
  ∀ (s : State) (home : Nat) (bs : List Byte), s.tablesWf = true →
    (∀ i, i < bs.length → (s.homeStore home bs).byte (home + i) = bs.getD i 0) ∧
    (∀ a, a < home ∨ home + bs.length ≤ a → (s.homeStore home bs).byte a = s.byte a) ∧
    (∀ v : Word, (s.homeWord home v).readWord home = v) ∧ (s.homeStore home bs).tablesWf = true

/-- MEMREF_ARRIVE of synchronising references on a word that nothing is moored on: LDF and LDFE proceed on a full word and STEF on
an empty one; LDFE empties the word, STEF writes and fills it; STF writes and fills, PURGE empties, TAGRD replies with F or W and
changes nothing; one that cannot proceed is moored at the tail with its deadline (R158, R159, R161, R165, R168). On a word whose W is
1 each of LDF, LDFE, STEF and PARK's reference joins the tail, whatever its F; PARK's reference on a full word that nothing is moored on
makes its leaf WAITING (R159, R169).

The mooring list of a word is served in arrival order while its head can proceed: on a full word the first LDF gets the word and
stays out of the way, the first LDFE takes it and empties the word, the first STEF stops the service; on an empty word a STEF
writes, fills it and service goes on (R158, R159). -/
def Obligations.SyncAndMooring : Prop :=
  (∀ (s : State) (k : Nat) (part : Option Nat) (r : Ref), s.atHomeNow k r → s.wBit r.home = false →
    let u : State := { s with refs := lremove s.refs k }
    let e := exec (.memrefArrive k part) s
    let f := s.fBit r.home
    let v := u.perform r.id
    let moored (kind : MoorKind) (data : Word) : Prop :=
      ∀ j, r.dst = .reg j → s.lives r.slot r.gen = true → (s.moors.filter fun m => m.isle == r.isle && m.area.isNone).length < 32768 →
      ∃ t, e = .next t ∧ t.moors = s.moors ++ [{
        isle := r.isle, home := r.home, va := r.va, kind := kind, slot := r.slot, gen := r.gen, reg := j, num := r.num, acc := r.id
        data := data, deadline := if r.limit = 0 then 0 else s.cyc + r.limit, area := none }] ∧
        t.replies = s.replies ∧ t.mem = s.mem ∧ t.fulls = s.fulls
    (r.op = .ldf → f = true → e = .next (v.reply r.slot r.gen r.dst (s.readWord r.home))) ∧
    (r.op = .ldf → f = false → moored .ldf 0) ∧
    (r.op = .ldfe → f = true → e = .next ((v.setF r.home false).reply r.slot r.gen r.dst (s.readWord r.home))) ∧
    (r.op = .ldfe → f = false → moored .ldfe 0) ∧
    (∀ x, r.op = .stef x → f = false → e = .next (((v.homeWord r.home x).setF r.home true).reply r.slot r.gen r.dst 0)) ∧
    (∀ x, r.op = .stef x → f = true → moored .stef x) ∧
    (∀ x, r.op = .stf x → (∀ m ∈ s.moors, m.area = none) → ∃ t, e = .next t ∧ t.mem = (u.homeWord r.home x).mem ∧
      t.fulls = tset false s.fulls (r.home / 8) true ∧ t.replies = s.replies) ∧
    (r.op = .purge → (∀ m ∈ s.moors, m.area = none) → ∃ t, e = .next t ∧ t.mem = s.mem ∧ t.fulls = tset false s.fulls (r.home / 8) false ∧
      t.replies = s.replies) ∧
    (∀ w, r.op = .tagrd w → e = .next (v.reply r.slot r.gen r.dst (if w then 0 else if f then 1 else 0)))) ∧
  (∀ (s : State) (k no : Nat) (part : Option Nat) (r : Ref) (kind : MoorKind) (data : Word), s.atHomeNow k r → no < 2 ^ 64 →
    (r.op = .ldf ∧ kind = .ldf ∧ data = 0 ∨ r.op = .ldfe ∧ kind = .ldfe ∧ data = 0 ∨ r.op = .stef data ∧ kind = .stef ∨
      r.op = .park no ∧ kind = .park ∧ data = BitVec.ofNat 64 no) →
    (s.wBit r.home = true ∨ s.fBit r.home = decide (kind = .stef)) →
    (kind = .park → ∃ e ∈ s.quires, ∃ l ∈ e.2.leaves, l.no = no) → (kind ≠ .park → s.lives r.slot r.gen = true) →
    (s.moors.filter fun m => m.isle == r.isle && m.area.isNone).length < 32768 →
    ∃ t, exec (.memrefArrive k part) s = .next t ∧ t.replies = s.replies ∧ t.mem = s.mem ∧ t.fulls = s.fulls ∧
      (t.quires = s.quires) ∧ t.moors = s.moors ++ [{
        isle := r.isle, home := r.home, va := r.va, kind := kind, slot := r.slot, gen := r.gen, num := r.num, acc := r.id, data := data
        reg := match r.dst with
          | .reg j => j
          | _ => 0
        deadline := if r.limit = 0 then 0 else s.cyc + r.limit, area := none }]) ∧
  (∀ (s : State) (k no : Nat) (part : Option Nat) (r : Ref), s.atHomeNow k r → r.op = .park no → no < 2 ^ 64 →
    s.wBit r.home = false → s.fBit r.home = true → s.tablesWf = true →
    ∃ t, exec (.memrefArrive k part) s = .next t ∧ s.sameMemory t ∧ t.moors = s.moors ∧ t.accs = s.accs.filter (·.id ≠ r.id) ∧
      ∀ q, (t.quire q).leaves = (s.quire q).leaves.map fun l => if l.no = no then { l with st := .waiting, mark := none } else l) ∧
  (∀ (s : State) (m : Moor) (rest : List Moor) (n home : Nat), s.moors = m :: rest → m.home / 8 = home / 8 →
    s.isBroken m.home 8 = false →
    let u : State := { s with moors := rest }
    let go (kind : MoorKind) (can : Bool) (t : State) : Prop :=
      m.kind = kind → State.serveN (n + 1) s home = if can then State.serveN n t home else s
    go .ldf (s.fBit home) ((u.perform m.acc).reply m.slot m.gen (.reg m.reg) (s.readWord m.home)) ∧
    go .ldfe (s.fBit home) (((u.perform m.acc).setF m.home false).reply m.slot m.gen (.reg m.reg) (s.readWord m.home)) ∧
    go .stef (!s.fBit home)
      ((((u.perform m.acc).homeWord m.home m.data).setF m.home true).reply m.slot m.gen (.reg m.reg) 0) ∧
    go .park (s.fBit home) ((u.perform m.acc).leafWaiting m.data.toNat none))

/-- The other events of memory references: STORE_BUFFER_WRITE takes an entry that nothing older overlaps to its home;
MOOR_DEADLINE_EXPIRE ends a moored reference whose deadline has come; REDUCTION_ACK lowers REDCNT; TAGSET_WAVE, which names
isle `w % 16` of reference `w / 16`, gives a TAGSET its next wave in that isle, of at least one word, and a scratchpad one 64
words; a wave whose first bank would pass the isle's active-bank limit, with the banks that other waves hold there, waits (R157, R165, R166, R171, R172, R184, R329). -/
def Obligations.MemoryEvents : Prop :=
  (∀ (s : State) (core k : Nat) (e : SbEntry), (s.core core).sb[k]? = some e →
    ((s.core core).sb.take k).all (fun x => !spansMeet [spanOf x.home x.bytes.length] [spanOf e.home e.bytes.length]) = true →
    s.inOrder e.id e.slot e.gen [spanOf e.home e.bytes.length, vaSpan e.va.toNat e.bytes.length] true = true →
    s.spRefused e.home e.bytes.length = none → s.isBroken e.home e.bytes.length = false → e.readers = [] →
    exec (.storeBufferWrite core k) s =
      .next (((s.modCore core fun c => { c with sb := lremove c.sb k }).homeStore e.home e.bytes).perform e.id)) ∧
  (∀ (s : State) (isle k : Nat) (m : Moor), (s.moors.filter fun m => m.isle == isle)[k]? = some m → m.deadline ≠ 0 →
    m.deadline ≤ s.cyc → exec (.moorDeadlineExpire isle k) s =
      .next ((({ s with moors := removeFirst (· == m) s.moors }.moorLost m.kind m.slot m.gen m.reg m.acc m.va m.data false).serve
        m.home).settleMoors)) ∧
  (∀ (s : State) (isle k : Nat) (m : Moor), (s.moors.filter fun m => m.isle == isle)[k]? = some m →
    (m.deadline = 0 ∨ s.cyc < m.deadline) → exec (.moorDeadlineExpire isle k) s = .next s) ∧
  (∀ (s : State) (k slot id : Nat) (gen : BitVec 8), s.acks[k]? = some (slot, gen, id) → s.lives slot gen = true →
    exec (.reductionAck k) s =
      .next ({ s with acks := lremove s.acks k }.modSlot slot fun t => { t with redcnt := t.redcnt - 1 })) ∧
  (∀ (s : State) (k slot id : Nat) (gen : BitVec 8), s.acks[k]? = some (slot, gen, id) → s.lives slot gen = false →
    exec (.reductionAck k) s = .next { s with acks := lremove s.acks k }) ∧
  (∀ (s : State) (w len done low h : Nat) (r : Ref) (full : Bool) (ps : List TagPart), s.refs[w / 16]? = some r →
    r.op = .tagset full len done low ps → r.va.toNat % 8 = 0 →
    let isle := w % 16
    let p := partOf ps isle
    let start := max p.pos low
    let stop := tagsetEnd r.va.toNat len
    let begun (e : Nat) : State := { s with refs := s.refs.set (w / 16) { r with
      op := .tagset full len done low (setPart ps { isle := isle, start := start, pos := start, stop := e }) } }
    let banks := s.bankOfPa h :: s.bulkBanks isle r.id
    p.stop ≤ p.pos → start < stop → s.tagSpread r start = s.tagSpread r low → (s.tagSpread r low = true ∨ start = low) →
    (inWindow r.va.toNat = true → (s.tagPlace r low).any (·.2 == isle) = true →
      exec (.tagsetWave w) s = .next (begun (min stop (start + 64)))) ∧
    (inWindow r.va.toNat = false → s.tagPlace r start = some (h, isle) → isSp h = false →
      (banks.eraseDups.length ≤ (s.isle isle).bankLimit →
        ∃ e, start < e ∧ e ≤ stop ∧ exec (.tagsetWave w) s = .next (begun e)) ∧
      ((s.isle isle).bankLimit < banks.eraseDups.length → exec (.tagsetWave w) s = .next s))) ∧
  (∀ (s : State) (w : Nat), (∀ r full len done low ps, s.refs[w / 16]? = some r → r.op ≠ .tagset full len done low ps) →
    exec (.tagsetWave w) s = .next s)

/-- The agents: MCAS writes all its words when every one matches and none otherwise, and answers the mask of those that differ; ENQ
puts the node behind the old tail; CHASE at hop 0 replies with the word, and with 0 at a null link (R189 to R192). -/
def Obligations.AgentOperations : Prop :=
  (∀ (s : State) (ts : List (Nat × Word × Word)),
    (ts.all (fun t => s.readWord t.1 == t.2.1) = true → s.mcasSwap ts = (0, ts.foldl (fun s t => s.homeWord t.1 t.2.2) s)) ∧
    (ts.all (fun t => s.readWord t.1 == t.2.1) = false → ∃ m, m ≠ 0 ∧ s.mcasSwap ts = (BitVec.ofNat 64 (2 ^ 60 + m), s) ∧
      ∀ i, m.testBit i = (ts[i]?.elim false fun t => s.readWord t.1 != t.2.1))) ∧
  (∀ (s : State) (k n len : Nat) (r : Ref), s.atHomeNow k r → r.op = .record (.mcas n) len →
    exec (.agentMcas k) s = .next ({ s with refs := lremove s.refs k }.mcas r n (s.readWords r.home (len / 8)))) ∧
  (∀ (s : State) (k : Nat) (node tail : Word) (r : Ref) (nh ni : Nat), s.atHomeNow k r → r.op = .enq node →
    nodeBad node = false →
    State.agentReach r true { s with refs := lremove s.refs k } node.toNat = (.home nh ni, { s with refs := lremove s.refs k }) →
    tail = s.readWord (r.home + 8) →
    (tail = 0 → exec (.agentEnq k) s =
      .next ((({ s with refs := lremove s.refs k }.enqLink r.home nh node none).perform r.id).reply r.slot r.gen r.dst 0)) ∧
    (∀ th ti, tail ≠ 0 → nodeBad tail = false →
      State.agentReach r true { s with refs := lremove s.refs k } tail.toNat = (.home th ti, { s with refs := lremove s.refs k }) →
      exec (.agentEnq k) s =
        .next ((({ s with refs := lremove s.refs k }.enqLink r.home nh node (some th)).perform r.id).reply r.slot r.gen r.dst tail))) ∧
  (∀ (s : State) (k hops : Nat) (o : Word) (r : Ref), s.atHomeNow k r → r.op = .chase o hops →
    let u : State := { s with refs := lremove s.refs k }
    let w := s.readWord r.home
    (hops = 0 ∨ w = 0 → exec (.agentChaseHop k) s = .next ((u.perform r.id).reply r.slot r.gen r.dst w)) ∧
    (∀ h isle, 0 < hops → w ≠ 0 → hopBad (w + o) = false →
      State.agentReach { r with va := w + o, op := .chase o (hops - 1) } false u (w + o).toNat = (.home h isle, u) →
      exec (.agentChaseHop k) s =
        .next { u with refs := u.refs ++ [{ r with va := w + o, op := .chase o (hops - 1), home := h, isle := isle }] }) ∧
    (0 < hops → w ≠ 0 → hopBad (w + o) = true →
      exec (.agentChaseHop k) s = .next ((u.perform r.id).replyFatal r.slot r.gen r.dst)))

/-! ### Control, windows, threads and mesh words (R28, R36, R72 to R78, R82 to R101, R133, R139, R141, R169, R352 to R358) -/

/-- SPILL stores the nine words of the deepest octet at SPILLP, raises SPILLP by 72 and lowers the depth; FILL takes SPILLP back,
raises the depth, makes the octet's registers EMPTY and reads the nine words; at the ends of the depth they only advance. Of the nine
words a SPILL stores, eight are the registers, a DEAD one as 0, and the ninth their states and the octet's tag (R87). -/
def Obligations.SpillAndFill : Prop :=
  ∀ (g : Guard) (s : State), s.guardTrue g = .ok true →
    let w := s.me.wstate
    let o := (wbOf w + 9 - depthOf w) % 9
    let at9 (va : Word) : List Word := (List.range 9).map fun i => va + BitVec.ofNat 64 (8 * i)
    (depthOf w = 0 → exec (.spill g) s = .next s.advance) ∧ (depthOf w = 6 → exec (.fill g) s = .next s.advance) ∧
    (∀ t : State, depthOf w ≠ 0 → (∀ j ∈ octetRegs o, s.pendingAt s.cur j = false) → s.fenceHolds s.cur setS = false →
      (∀ a ∈ at9 s.me.spillp, localAddr a 8) →
      s.storeWords ((at9 s.me.spillp).zip (s.me.octetWords o)) = .ok t →
      exec (.spill g) s = .next (t.modSlot t.cur fun u => { u with
        spillp := s.me.spillp + 72, wstate := mkWstate (tagsOf w) (depthOf w - 1) (wbOf w) }).advance) ∧
    (∀ i, i < 8 → (s.me.octetWords o)[i]? = some (match s.me.xCell (7 + 8 * o + i) with
      | .full v => v
      | _ => 0)) ∧
    (s.me.octetWords o).length = 9 ∧ (∃ x, (s.me.octetWords o)[8]? = some x ∧ x.toNat < 2 ^ 18 ∧ x.toNat / 2 ^ 16 = tagOf w o ∧
      ∀ i, i < 8 → x.toNat / 4 ^ i % 4 = match s.me.xCell (7 + 8 * o + i) with
        | .full _ => 0
        | .empty _ => 1
        | .catching _ _ => 2
        | .dead => 3) ∧
    (∀ t u : State, depthOf w ≠ 6 → s.fenceHolds s.cur setL = false → (∀ a ∈ at9 (s.me.spillp - 72), localAddr a 8) →
      let o' := (wbOf w + 9 - (depthOf w + 1)) % 9
      s.emptyRegs (octetRegs o') = .ok t →
      (t.modSlot t.cur fun u => { u with
        spillp := s.me.spillp - 72, wstate := mkWstate (tagsOf w) (depthOf w + 1) (wbOf w)
        fills := u.fills ++ [{ octet := o', got := [], fatals := [] }] }).fillLoads o'
          ((List.range 9).zip (at9 (s.me.spillp - 72))) = .ok u →
      exec (.fill g) s = .next u.advance)

/-- YIELD and SLEEP rest the slot; EXIT, FOLD and PARK make it CLOSING, FOLD and PARK after the address checks of their leaf and at
depth 0 only; a scratchpad guard record traps them first (R90, R91, R169, R249). That FOLD and PARK keep their sources' kills out and
take their registers later is log entry 20; that EXIT, FOLD and PARK go on with a guard record while `inh` is 1 is log entry 21. -/
def Obligations.RestsAndEnds : Prop :=
  ∀ (g : Guard) (s : State), s.guardTrue g = .ok true →
    exec (.yield g) s = .next (s.advance.modSlot s.cur fun t => { t with st := .resting (s.cyc + 256) .yield }) ∧
    (∀ (msg : Bool) (n : BitVec 40), exec (.sleep g msg n) s = .next (s.advance.modSlot s.cur fun t =>
      { t with st := .resting (s.cyc + max n.toNat 8) (if msg then .sleepMsg else .sleep) })) ∧
    (s.guardClear → exec (.exit g) s =
      .next ((s.sealSlot s.cur).modSlot s.cur fun t => { t with st := .closing .exit, wait := .none })) ∧
    (s.me.inh = false → grecCount s.me.grec ≠ 0 → exec (.exit g) s = .next (s.takeTrap s.cur true 21 s.me.grec s.me.pc)) ∧
    (∀ (leaf ev ext : Src) (x : Bool) (regs : BitVec 36) (va e xa : Word) (u : State),
      s.guardClear → s.operands g [leaf, ev, ext] [va, e, xa] u → localAddr va 64 → (x = true → localAddr xa 64) →
      (depthOf s.me.wstate = 0 → exec (.fold g leaf ev ext x regs) s =
        .next ((s.sealSlot s.cur).modSlot s.cur fun t => { t with wait := .none, st := .closing (.leaf {
          leaf := va, events := e, ext := if x then some xa else none, regs := regs, word := none,
          nextPc := nextPc s.me.pc, deadline := 0 } none) })) ∧
      (depthOf s.me.wstate ≠ 0 → exec (.fold g leaf ev ext x regs) s =
        s.finish (.error (.trap 6 (BitVec.ofNat 64 (depthOf s.me.wstate + 64)))))) ∧
    (∀ (b leaf ev : Src) (x : Bool) (regs : BitVec 36) (wa va e : Word) (u : State),
      s.guardClear → s.operands g [b, leaf, ev] [wa, va, e] u → localAddr wa 8 → localAddr va (if x then 128 else 64) →
      depthOf s.me.wstate = 0 → exec (.park g b leaf ev x regs) s =
        .next ((s.sealSlot s.cur).modSlot s.cur fun t => { t with wait := .none, st := .closing (.leaf {
          leaf := va, events := e, ext := if x then some (va + 64) else none, regs := regs, word := some wa,
          nextPc := nextPc s.me.pc, deadline := s.me.waitlim.toNat } none) }))

/-- MDSET sets the defined bits of MDEST; a port write enters the send queue with the port's number as tag, waits for room, and is
a stray of its own core where the target does not exist or is excluded; LOOPBK hands a word to an accepting slot of the ferry
slot's core, slot 0's own among them, counts a stray where the slot does not accept it, and answers 1 with no effect at a full inbox; of
the header it uses slot, generation and tag only, and the word names its own core as sender, which is the model's choice (log entry
22). The word that makes 512 diverts the slot with the most words; a word that arrives at a full inbox waits (R93, R94, R97 to R101).

Mesh words and replies on their way: the send queue releases its oldest word; a word that its slot accepts enters the inbox, one
that it does not is a stray; a word for slot 0 or a diverted slot enters the ferry queue; a reply of the slot's generation makes a register that awaits it FULL, resolves what is bound to it,
and is thrown away under `drop`; a FATAL one leaves it `fatal`; one of another generation is discarded; the divider delivers 40
clk after it accepted (R94, R97, R98, R110, R133, R397). -/
def Obligations.MeshRules : Prop :=
  ((∀ (g : Guard) (a : Src) (x : Word) (s u : State), s.operands g [a] [x] u →
    exec (.mdset g a) s = .next (u.modSlot s.cur fun t => { t with mdest := x &&& 0x0FFFFFFC }).advance) ∧
  (∀ (s : State) (k c : Nat) (v : Word), s.fencesPending s.cur = false →
    let core := s.cur / 256
    let w (reason : Nat) : MeshWord := { target := s.me.mdest.setWidth 28, tag := k, data := v, sender := core, reason := reason }
    (targetCore (s.me.mdest.setWidth 28) = none → s.sendPort k v = .ok (s.stray core (w 3) 3)) ∧
    (targetCore (s.me.mdest.setWidth 28) = some c → (s.core c).excluded = true → s.sendPort k v = .ok (s.stray core (w 3) 3)) ∧
    (targetCore (s.me.mdest.setWidth 28) = some c → (s.core c).excluded = false →
      ((s.core core).sendq.length < 16 → s.sendPort k v = .ok (s.modCore core fun c => { c with sendq := c.sendq ++ [w 0] })) ∧
      (16 ≤ (s.core core).sendq.length → s.sendPort k v = .error (.wait .other)))) ∧
  (∀ (g : Guard) (d : Dst) (a b : Src) (last : Bool) (h v : Word) (s u t : State), s.operands g [a, b] [h, v] u →
    let core := u.cur / 256
    let target := h.setWidth 28
    let n := targetSlot target
    let used := (u.core core).inbox.length + (u.core core).ferry.length
    let w : MeshWord := {
      target := ownName (256 * core + n) (targetGen target), tag := h.toNat / 2 ^ 30 % 4, data := v, sender := core, reason := 0 }
    (u.cur % 256 ≠ 0 → u.put d 2 = .ok t → exec (.loopbk g d a b last) s = .next t.advance) ∧
    (u.cur % 256 = 0 → u.takesWord core target →
      (512 ≤ used → u.put d 1 = .ok t → exec (.loopbk g d a b last) s = .next t.advance) ∧
      (used < 512 →
        let c := u.core core
        let p : Core := { c with
          inbox := if n = 0 then c.inbox else c.inbox ++ [w], ferry := if n = 0 then c.ferry ++ [w] else c.ferry
          diverted := if last then c.diverted.filter (· ≠ n) else c.diverted }
        (used < 511 ∨ p.inbox = [] → (u.modCore core fun _ => p).put d 0 = .ok t → exec (.loopbk g d a b last) s = .next t.advance) ∧
        (∀ m, used = 511 → p.mostWords m → (u.modCore core fun _ => { p with
            inbox := p.inbox.filter fun w => targetSlot w.target != m
            ferry := p.ferry ++ (p.inbox.filter fun w => targetSlot w.target == m).map fun w => { w with reason := 0 }
            diverted := if p.diverted.contains m then p.diverted else m :: p.diverted }).put d 0 = .ok t →
          exec (.loopbk g d a b last) s = .next t.advance))) ∧
    (u.cur % 256 = 0 → ¬ u.takesWord core target →
      (u.modCore core fun c => { c with
        strays := min (c.strays + 1) (2 ^ 32 - 1)
        diverted := if last then c.diverted.filter (· ≠ n) else c.diverted }).put d 2 = .ok t →
      exec (.loopbk g d a b last) s = .next t.advance))) ∧
  ((∀ (s : State) (core : Nat) (w : MeshWord) (rest : List MeshWord), (s.core core).sendq = w :: rest →
    exec (.sendQueueRelease core) s =
      .next { s with cores := (s.modCore core fun c => { c with sendq := rest }).cores, mesh := s.mesh ++ [w] }) ∧
  (∀ (s : State) (k core : Nat) (w : MeshWord), s.mesh[k]? = some w → targetCore w.target = some core →
    ((s.mesh.take k).all fun x => x.sender != w.sender || x.target != w.target) = true →
    (s.core core).failed = false → (s.core core).excluded = false →
    let u : State := { s with mesh := lremove s.mesh k }
    (s.takesWord core w.target →
      let c := s.core core
      let used := c.inbox.length + c.ferry.length
      let toFerry := targetSlot w.target = 0 ∨ targetSlot w.target ∈ c.diverted
      let p : Core := { c with
        inbox := if toFerry then c.inbox else c.inbox ++ [w], ferry := if toFerry then c.ferry ++ [{ w with reason := 0 }] else c.ferry }
      (512 ≤ used → exec (.meshWordArrival k) s = .next s) ∧
      (used < 511 ∨ (used = 511 ∧ p.inbox = []) → exec (.meshWordArrival k) s = .next (u.modCore core fun _ => p)) ∧
      (∀ m, used = 511 → p.mostWords m → exec (.meshWordArrival k) s = .next (u.modCore core fun _ => { p with
        inbox := p.inbox.filter fun w => targetSlot w.target != m
        ferry := p.ferry ++ (p.inbox.filter fun w => targetSlot w.target == m).map fun w => { w with reason := 0 }
        diverted := if p.diverted.contains m then p.diverted else m :: p.diverted }))) ∧
    (¬ s.takesWord core w.target → (s.core core).strayDeliver = false →
      exec (.meshWordArrival k) s =
        .next (u.modCore core fun c => { c with strays := min (c.strays + 1) (2 ^ 32 - 1) }))) ∧
  (∀ (s : State) (k j : Nat) (r : Reply), s.replies[k]? = some r → r.acc = none → r.dst = .reg j → j < 79 →
    let u : State := { s with replies := lremove s.replies k }
    (s.lives r.slot r.gen = false → exec (.replyAccept k) s = .next u) ∧
    (s.lives r.slot r.gen = true → ∀ m, (s.slot r.slot).xCell j = .empty m → m.reply = true →
      (r.fatal = false → m.drop = false → m.cw = none →
        exec (.replyAccept k) s = .next (u.modSlot r.slot fun t => t.setXCell j (.full r.value))) ∧
      (∀ c, r.fatal = false → m.drop = false → m.cw = some c →
        exec (.replyAccept k) s =
          .next ((u.modSlot r.slot fun t => t.setXCell j (.full r.value)).resolveCw r.slot c r.value 0)) ∧
      (r.fatal = false → m.drop = true → m.cw = none →
        exec (.replyAccept k) s = .next (u.modSlot r.slot fun t => t.setXCell j .dead)) ∧
      (r.fatal = true → m.drop = false → m.cw = none →
        exec (.replyAccept k) s = .next (u.modSlot r.slot fun t =>
          t.setXCell j (.empty { reply := false, drop := false, fatal := true, cw := none }))))) ∧
  (∀ (s : State) (core : Nat) (d : DivOp) (rest : List DivOp), (s.core core).div = d :: rest →
    (s.cyc < d.at_ + 40 → exec (.dividerDeliver core) s = .next s) ∧
    (d.at_ + 40 ≤ s.cyc → s.lives d.slot d.gen = true → exec (.dividerDeliver core) s =
      .next ((s.modCore core fun c => { c with div := rest }).land d.slot d.reg d.value 0))))

/-- CWRES only advances once its registers are FULL or DEAD, waits on one with a reply outstanding, and traps on an orphan; KILL
makes its register DEAD, and x0 and p0 are left (R139, R141).

Slots over time: a class rises by one with each 4,096 of age; a rest ends when its time has come; a CLOSING slot with nothing
outstanding ends its task, or enters its written leaf in the quire's table, and is FREE; a PARK's slot enters its leaf MOORED and sends
its reference, or WAITING with the access trap where the word's page denies it; a core starts the next task of a set in a
free slot with x1 to x4 of R353; a leaf is resumed in a slot that waits while its words are read at their homes, and then has its
PC, its registers and its quire's events (R73, R78, R90 to R92, R352, R353,
R356 to R358). -/
def Obligations.PendingAndSlotEvents : Prop :=
  (∀ (g : Guard) (r : BitVec 6) (s : State), s.guardTrue g = .ok true →
    (0 < r.toNat → r.toNat < 32 → wbOf s.me.wstate < 9 →
      let j := xIndex s.me.wstate r.toNat
      (s.pendingAt s.cur j = false → exec (.cwres g 0 r) s = .next s.advance) ∧
      (∀ m, s.me.xCell j = .empty m → m.fatal = false → m.reply = true →
        exec (.cwres g 0 r) s = s.finish (.error (.wait (.reg j)))) ∧
      (∀ m, s.me.xCell j = .empty m → m.fatal = false → m.reply = false →
        exec (.cwres g 0 r) s = s.finish (.error (.trap 16 (BitVec.ofNat 64 (r.toNat + 128 + 2048))))) ∧
      exec (.kill g false r) s = .next (s.killReg s.cur j).advance) ∧
    (0 < r.toNat → r.toNat < 8 →
      (s.pendingAt s.cur (78 + r.toNat) = false → exec (.cwres g 1 r) s = .next s.advance) ∧
      exec (.kill g true r) s = .next (s.killReg s.cur (78 + r.toNat)).advance) ∧
    (exec (.kill g true 0) s = .next s.advance ∧ exec (.kill g false 0) s = .next s.advance) ∧
    (32 ≤ r.toNat → r.toNat < 48 → s.me.lease ≠ none →
      (s.pendingAt s.cur (54 + r.toNat) = false → exec (.cwres g 0 r) s = .next s.advance) ∧
      (s.me.held (r.toNat - 32) = false → exec (.kill g false r) s = .next (s.killReg s.cur (54 + r.toNat)).advance)) ∧
    ((∀ j, j < 102 → s.pendingAt s.cur j = false) → (s.core (s.cur / 256)).mxAll = [] →
      exec (.cwres g 2 r) s = .next s.advance)) ∧
  ((∀ (s : State) (k : Nat), k % 256 ≠ 0 →
    (s.slot k).cls < min 3 ((s.slot k).baseCls + (s.slot k).age / 4096) →
    exec (.ageClassRise k) s = .next (s.modSlot k fun t => { t with cls := t.cls + 1 })) ∧
  (∀ (s : State) (k wake : Nat) (r : Rest), (s.slot k).st = .resting wake r →
    (wake ≤ s.cyc → exec (.restEnd k) s = .next (s.modSlot k fun t => { t with st := .active })) ∧
    (s.cyc < wake → r = .sleep → exec (.restEnd k) s = .next s)) ∧
  (∀ (s : State) (k : Nat),
    let v := s.sealSlot k
    (∀ j, j < 102 → v.pendingAt k j = false ∧ v.downReg k j = none) → (v.slot k).queued = 0 →
    (v.slot k).unacked = 0 → rfCount (v.slot k).rfst = 0 → (v.slot k).redcnt = 0 → v.fencesPending k = false →
    (v.slot k).fills = [] → (v.core (k / 256)).mxAll = [] → (v.slot k).pend = [] →
    ((s.slot k).st = .closing .exit → (v.slot k).setEv = [] →
      exec (.closingWaitEnd k) s = .next ((v.endTask k).freeSlot k)) ∧
    (∀ (f : FoldInfo) (ids : List Nat), (s.slot k).st = .closing (.leaf f (some ids)) →
      (v.quire (k / 256 / 4)).leaves.length < 4096 → (∀ a ∈ v.accs, a.id ∉ ids) →
      let t := v.slot k
      let written (st : LeafSt) (mark : Option (Nat × Word)) : Leaf := {
        no := v.serial, leaf := f.leaf, ext := f.ext, regs := f.regs, tsid := t.tsid.getD 0, tag := t.tag
        cls := t.baseCls, mark := mark, guardEv := none, events := f.events, triggered := t.triggered
        st := st, readyNo := 0 }
      let entered (mark : Option (Nat × Word)) : State := { v with serial := v.serial + 1 }.modQuire (k / 256 / 4) fun q => { q with
        leaves := q.leaves ++ [written .waiting mark] }
      let frees (mark : Option (Nat × Word)) : Prop :=
        (t.tsid = none → exec (.closingWaitEnd k) s = .next ((entered mark).freeSlot k)) ∧
        (∀ n, t.tsid = some n → exec (.closingWaitEnd k) s =
          .next (((entered mark).modSet n fun x => { x with owed := x.owed ++ v.accsIn k 31 }).freeSlot k))
      (f.word = none → frees none) ∧
      (∀ va, f.word = some va →
        (v.locate k va.toNat true false = .deny → frees (some (13, va))) ∧
        (∀ h i, s.tablesWf = true → v.locate k va.toNat true false = .home h i → ∃ u, exec (.closingWaitEnd k) s = .next u ∧ u.mem = s.mem ∧
          (u.slot k).st = .free ∧ (u.quire (k / 256 / 4)).leaves = (v.quire (k / 256 / 4)).leaves ++ [written .moored none] ∧
          u.refs = v.refs ++ [{
            id := v.serial + 1, slot := k, gen := t.gen, tsid := t.tsid.getD 0, num := 0, job := (v.slotSet k).job
            space := (v.slotSet k).space, va := va, isle := i, home := h, dst := .none, op := .park v.serial, limit := f.deadline
            counted := false }])))) ∧
  (∀ (s : State) (k tsid n p : Nat), s.freeFor k = true → s.chooseWork (k / 256) = some (.task tsid) →
    (s.tset_ tsid).nextTask (k / 256 / 48) = some n → (s.tset_ tsid).islePos (k / 256 / 48) = some p →
    (s.tset_ tsid).st = .live →
    ∃ t, exec (.taskDispatch k) s = .next t ∧ s.sameSlotsBut t k ∧ (t.slot k).st = .active ∧
      (t.slot k).gen = (s.slot k).gen + 1 ∧ (t.slot k).pc = (s.tset_ tsid).entry ∧ (t.slot k).tsid = some tsid ∧
      (t.slot k).xlo = [.full (s.tset_ tsid).args, .full (BitVec.ofNat 64 n), .full (BitVec.ofNat 64 (s.tset_ tsid).tasks),
        .full (BitVec.ofNat 64 ((s.tset_ tsid).depth * 2 ^ 16 + tsid)), .dead, .dead, .dead] ∧
      (t.slot k).baseCls = (s.tset_ tsid).prio ∧ (t.slot k).entryDue = true ∧
      t.tset_ tsid = { s.tset_ tsid with sent := (s.tset_ tsid).sent.set p ((s.tset_ tsid).sentBy p + 1) }) ∧
  (∀ (s : State) (k q : Nat) (l : Leaf), s.freeFor k = true → s.chooseWork (k / 256) = some (.leaf q l) → s.tablesWf = true →
    let rd : LeafRead := { quire := q, leaf := l.leaf, ext := l.ext, regs := l.regs, words := [] }
    ∃ u, exec (.leafResume k) s = .next (u.readLeaf k rd l.leaf false) ∧ s.sameSlotsBut u k ∧ (u.slot k).st = .active ∧
      (u.slot k).wait = .leaf ∧ (u.slot k).reading = some rd ∧ (u.slot k).gen = (s.slot k).gen + 1 ∧ (u.slot k).wstate = 0 ∧
      (u.slot k).tsid = some l.tsid ∧ (u.slot k).tag = l.tag ∧ (u.slot k).baseCls = l.cls ∧ (u.slot k).evQuire = q ∧
      (∀ j, j < 79 → (u.slot k).xCell j = .dead) ∧
      (u.quire q).leaves = ((s.quire q).leaves.filter fun m => m.no ≠ l.no) ∧
      (∀ h i, State.engineReach u (some (k / 256)) (k / 256 / 48) q (u.slotSet k).space l.leaf.toNat true false 0
          (whoOf l.tsid k (u.slot k).gen) = (.home h i, u) →
        ∃ (t : State) (r : Ref), u.readLeaf k rd l.leaf false = t ∧ t.refs = u.refs ++ [r] ∧ t.slots = u.slots ∧
          r.home = h ∧ r.slot = k ∧ r.gen = (u.slot k).gen ∧ r.op = .record (.leaf false) 64)) ∧
  (∀ (s : State) (n k : Nat) (part : Option Nat) (r : Ref) (rd : LeafRead), s.atHomeNow n r → r.op = .record (.leaf false) 64 →
    r.slot = k → s.lives k r.gen = true → (s.slot k).reading = some rd → rd.words = [] →
    (s.slot k).xlo.length = 7 → (s.slot k).win.length = 72 →
    let ws := s.readWords r.home 8
    let w (i : Nat) : Word := ws.getD i 0
    let num (i : Nat) : Nat := (regField rd.regs i).toNat
    ((w 0).getLsbD 3 = false ∨ rd.ext = none) → (∀ i, i < 6 → num i < 32) →
    ∃ t, exec (.memrefArrive n part) s = .next t ∧ s.sameSlotsBut t k ∧ s.sameMemory t ∧ (t.slot k).pc = w 0 &&& ~~~0x38 ∧
      (t.slot k).wait = .none ∧ (t.slot k).reading = none ∧ (t.slot k).pend = (s.slot k).pend ∧
      (t.slot k).setEv = setEvents (w 1) ∧
      (∀ i, i < 6 → num i ≠ 0 → (∀ i', i < i' → i' < 6 → num i' ≠ num i) →
        (t.slot k).xCell (xIndex 0 (num i)) = .full (w (2 + i))) ∧
      (∀ j, j < 79 → (∀ i, i < 6 → num i = 0 ∨ xIndex 0 (num i) ≠ j) → (t.slot k).xCell j = (s.slot k).xCell j)))

/-! ### Remote access and the fabric (R198 to R240) -/

/-- WINOPEN sends the read of its record; read, it answers the code of R204, or the lowest free handle, whose entry is then OPEN
with the record's fields and the job and space of the slot that issued it, and journalled. WINCLOSE marks an OPEN entry of its own job CLOSING and
answers when nothing is in flight, and 2^63 + 1 at once otherwise; WINSTAT reads state and count (R202 to R206).

Lanes, paths, epochs, routes and keys: lanes that lose light leave use, a laser source that fails takes the four lanes of its group in
its channel of the 16 straits of two isles, and the agreed mask keeps the others; LANEREQ takes lit
lanes back; a connection in HOLD for the isle's time-out is DOWN; an epoch switch starts its sequence at 0; a route entry and FPKG
do not change under a connection that is UP, and a route set to a channel that carries traffic makes its connection UP; a key command leaves its status, and a zeroised job holds no key (R199, R201, R231,
R232, R234, R236 to R239). -/
def Obligations.WindowsAndControl : Prop :=
  ((∀ (g : Guard) (d : Dst) (a : Src) (va : Word) (s u v : State) (h isle : Nat), s.operands g [a] [va] u → localAddr va 32 →
    s.fenceHolds s.cur setL = false → d ≠ 0 → u.emptyXj (xIndex u.me.wstate d.toNat) = .ok v →
    v.locate v.cur va.toNat true false = .home h isle →
    exec (.winopen g d a) s = .next (v.withRef ⟨g, [a], .x d, setL, fun _ => va, 32, fun _ => .record .winopen 32, false, false, 0⟩ [va]
      (.reg (xIndex u.me.wstate d.toNat)) h isle).advance) ∧
  (∀ (s : State) (k : Nat) (part : Option Nat) (r : Ref), s.atHomeNow k r → r.op = .record .winopen 32 →
    let u : State := { s with refs := lremove s.refs k }
    let ws := s.readWords r.home 4
    let w (i : Nat) : Nat := (ws.getD i 0).toNat
    let o := w 0 / 2 ^ 16 % 2 ^ 27
    let job := r.job
    let clear := ∀ e ∈ s.windows, e.2.job = job → e.2.obase * 2 ^ 16 + e.2.length ≤ o * 2 ^ 16 ∨ o * 2 ^ 16 + w 2 ≤ e.2.obase * 2 ^ 16
    let answers (n : Nat) : Prop :=
      exec (.memrefArrive k part) s = .next ((u.perform r.id).reply r.slot r.gen r.dst (BitVec.ofNat 64 (2 ^ 63 + n)))
    (windowBad ws = true → answers 3) ∧ (windowBad ws = false → ¬ clear → answers 2) ∧
    (windowBad ws = false → clear → (∀ h, h < 1024 → s.winUsed h = true) → answers 1) ∧
    (∀ h, windowBad ws = false → clear → h < 1024 → s.winUsed h = false → (∀ j, j < h → s.winUsed j = true) →
      ∃ t, exec (.memrefArrive k part) s = .next t ∧
        t.replies = s.replies ++ [{
          slot := r.slot, gen := r.gen, dst := r.dst, value := BitVec.ofNat 64 h, vec := none, fatal := false, acc := none }] ∧
        t.windows = tset Window.init s.windows h {
          closing := false, job := job, space := r.space, obase := o, length := w 2, local_ := BitVec.ofNat 64 (w 1), rights := BitVec.ofNat 4 (w 3), inflight := 0, closer := none } ∧
        t.mem = s.mem ∧ t.jseq = s.jseq + 1)) ∧
  (∀ (g : Guard) (d : Dst) (a : Src) (x : Word) (s u v : State), s.operands g [a] [x] u → d ≠ 0 →
    u.emptyXj (xIndex u.me.wstate d.toNat) = .ok v →
    let n := x.toNat % 1024
    let j := RetDst.reg (xIndex u.me.wstate d.toNat)
    (v.winUsed n = false ∨ (v.window n).closing = true ∨ (v.window n).job ≠ (v.slotSet v.cur).job →
      exec (.winclose g d a) s = .next (v.reply v.cur v.me.gen j (BitVec.ofNat 64 (2 ^ 63 + 1))).advance) ∧
    (v.winUsed n = true → (v.window n).closing = false → (v.window n).job = (v.slotSet v.cur).job →
      exec (.winclose g d a) s = .next ((v.setWindow n { v.window n with
        closing := true, closer := some (v.cur, v.me.gen, j, 0) }).journalAdd 7 n 0).advance)) ∧
  (∀ (s : State) (n k c : Nat) (gen : BitVec 8) (dst : RetDst), (s.window n).closing = true →
    (s.window n).closer = some (k, gen, dst, c) →
    ((s.window n).inflight = 0 → exec (.wincloseDrainEnd n) s =
      .next ({ s with windows := tset Window.init s.windows n Window.init }.reply k gen dst 0)) ∧
    ((s.window n).inflight ≠ 0 → exec (.wincloseDrainEnd n) s = .next s)) ∧
  (∀ (g : Guard) (d : Dst) (a : Src) (x : Word) (s u t : State), s.operands g [a] [x] u →
    let w := s.window (x.toNat % 1024)
    u.put d (BitVec.ofNat 64 (w.inflight % 2 ^ 32 * 65536 +
      (if s.winUsed (x.toNat % 1024) = false then 0 else if w.closing then 2 else 1))) = .ok t →
    exec (.winstat g d a) s = .next t.advance)) ∧
  (∀ s : State,
    (∀ (strait : Nat) (chan : Bool) (lost : BitVec 16), strait < 128 →
      let ch := 2 * strait + if chan then 1 else 0
      exec (.laneLightLoss strait chan lost) s =
        .next { s with
          laneLoss := tset 0 s.laneLoss ch (tget 0 s.laneLoss ch ||| lost)
          lossAt := if tget 0 s.laneLoss ch = 0 then tset (0, 0) s.lossAt ch (s.cyc, 0) else s.lossAt } ∧
      (tget 0 s.laneLoss ch ≠ 0 → ∃ t, exec (.laneMaskAgreed strait chan) s = .next t ∧ s.sameMemory t ∧
        t.lanes = tset 0xFFFF s.lanes ch (tget 0xFFFF s.lanes ch &&& ~~~(tget 0 s.laneLoss ch)) ∧
        t.laneLoss = tset 0 s.laneLoss ch 0)) ∧
    (∀ n : Nat, n < 64 → s.phase ≠ .off → ∃ t, s.move (.source n) = .next t ∧ s.sameMemory t ∧ t.lanes = s.lanes ∧
      ∀ ch, ch < 256 → tget 0 t.laneLoss ch = tget 0 s.laneLoss ch |||
        (if ch / 32 = n / 8 ∧ ch % 2 = n / 4 % 2 then 0xF#16 <<< (4 * (n % 4)) else 0)) ∧
    (∀ (v : Word) (lit : BitVec 16),
      let ch := 2 * (v.toNat % 128) + v.toNat / 128 % 2
      s.laneMask ch ||| lit ≠ tget 0xFFFF s.lanes ch → ∃ t, exec (.lanereq v lit) s = .next t ∧ s.sameMemory t ∧
        t.lanes = tset 0xFFFF s.lanes ch (s.laneMask ch ||| lit)) ∧
    (∀ (peer job : Nat) (c : Conn), s.conn? peer job = some c →
      (c.used = true → c.st = .hold → c.since + (s.isle (s.egress peer)).pdto ≤ s.cyc →
        ∃ t, exec (.pathDownTimeout peer job) s = .next t ∧ s.sameMemory t ∧
          t.conn peer job = { c with st := .down, since := s.cyc }) ∧
      (s.cyc < c.since + (s.isle (s.egress peer)).pdto → exec (.pathDownTimeout peer job) s = .next s) ∧
      (∀ e, s.usableEpoch c = some e → (∀ f ∈ c.replay, f.done = true) →
        ∃ t, exec (.epochSwitch peer job) s = .next t ∧ s.sameMemory t ∧ (t.conn peer job).epoch = e ∧
          (t.conn peer job).nextSeq = 0 ∧ (t.conn peer job).ackCtr = 0)) ∧
    (∀ (p : Nat) (v : BitVec 16), p < 4096 →
      ((∃ c ∈ s.conns, c.peer = p ∧ c.peer ≠ s.fpkg ∧ c.used = true ∧ c.st = .up) → exec (.frouteWrite p v) s = .next s) ∧
      ((∀ c ∈ s.conns, c.peer = p → c.used = false) → (v.getLsbD 15 = true ∨ s.reachBit p = false) →
        exec (.frouteWrite p v) s = .next { s with froute := tset 0 s.froute p (v.toNat / 128 * 128) }) ∧
      (∀ c, s.conns = [c] → c.peer = p → p ≠ s.fpkg → c.used = true → c.st ≠ .up → c.exhausted = false → v.getLsbD 15 = true →
        let t : State := { s with froute := tset 0 s.froute p (v.toNat / 128 * 128) }
        t.channelUp (t.channel p) = true →
        ∃ u, exec (.frouteWrite p v) s = .next u ∧ s.sameMemory u ∧ u.froute = t.froute ∧
          u.conn p c.job = { c with st := .up, since := s.cyc })) ∧
    (∀ v : Word, (s.keys ≠ [] → exec (.fpkgWrite v) s = .next s) ∧
      (s.keys = [] → (∀ c ∈ s.conns, c.used = false) → exec (.fpkgWrite v) s = .next { s with fpkg := v.toNat % 4096 })) ∧
    (∀ (w0 : Word) (key : List Word), w0.toNat < 2 ^ 24 → (∀ i, 5 ≤ i → key.getD i 0 = 0) →
      let got := unwrapKey Config.fabricKey ((key.take 5).flatMap fun w => bytesOf 8 w.toNat)
      (got = none → ∃ t, exec (.keycmdLoad w0 key) s = .next t ∧ t.keys = s.keys ∧
        t.keycmd = 0x8000000000000001) ∧
      (∀ k, got = some k → s.keys = [] → ∃ t, exec (.keycmdLoad w0 key) s = .next t ∧
        t.keys = [(w0.toNat % 65536, w0.toNat / 65536 % 256, k)] ∧ t.keycmd = 0x8000000000000000)) ∧
    (∀ w0 : Word, w0.toNat < 2 ^ 25 → 2 ^ 24 ≤ w0.toNat → ∃ t, exec (.keycmdZeroise w0) s = .next t ∧
      t.keys = s.keys.filter (fun k => k.1 != w0.toNat % 65536) ∧ t.keycmd = 0x8000000000000000))

/-- GFLUSH seals the slot's buffers and completes once every element is acknowledged and the fault record is empty, waits before
that, and traps with the record where it is not; `.nw` only seals. GSTAT, RFREC, RFCLR and CONNST read their words, and RFCLR clears
the record (R219 to R223, R235). That GFLUSH completes with a record while `inh` is 1 is log entry 21; that CONNST's rate and epoch read 0
in states 3 and 4 is log entry 29. -/
def Obligations.FlushAndRecords : Prop :=
  ∀ (g : Guard) (s : State), s.guardTrue g = .ok true →
    let v := s.sealSlot s.cur
    exec (.gflushNw g) s = .next v.advance ∧
    (s.me.queued = 0 → s.me.unacked = 0 → rfCount s.me.rfst = 0 → exec (.gflush g) s = .next v.advance) ∧
    (s.me.queued = 0 → s.me.unacked = 0 → rfCount s.me.rfst ≠ 0 →
      (s.me.inh = false → exec (.gflush g) s = .next (s.takeTrap s.cur true 19 s.me.rfst s.me.pc)) ∧
      (s.me.inh = true → exec (.gflush g) s = .next v.advance)) ∧
    (s.me.queued ≠ 0 ∨ s.me.unacked ≠ 0 →
      (v.downFor s.cur = none → exec (.gflush g) s = .next (v.modSlot s.cur fun t => { t with wait := .other })) ∧
      (∀ p, v.downFor s.cur = some p →
        (s.me.inh = false → exec (.gflush g) s = .next (v.takeTrap s.cur true 20 (BitVec.ofNat 64 p) s.me.pc)) ∧
        (s.me.inh = true → exec (.gflush g) s = .next (v.modSlot s.cur fun t => { t with wait := .other })))) ∧
    (∀ (d : Dst) (t : State),
      (s.put d (BitVec.ofNat 64 (s.me.queued % 65536 * 65536 + s.me.unacked % 65536)) = .ok t →
        exec (.gstat g d false) s = .next t.advance) ∧
      (s.put d (BitVec.ofNat 64 ((s.isle (s.cur / 256 / 48)).evictions % 2 ^ 32 * 256 +
        (s.isle (s.cur / 256 / 48)).gbufs.length % 256)) = .ok t → exec (.gstat g d true) s = .next t.advance) ∧
      (s.put d s.me.rfva = .ok t → exec (.rfrecVa g d) s = .next t.advance) ∧
      (s.put d s.me.rfst = .ok t → exec (.rfrecSt g d) s = .next t.advance ∧
        exec (.rfclr g d) s = .next (t.modSlot t.cur fun u => { u with rfva := 0, rfst := 0 }).advance)) ∧
    (∀ (d : Dst) (a : Src) (x w : Word) (u t : State), s.operands g [a] [x] u →
      let p := x.toNat % 4096
      let job := (s.slotSet s.cur).job
      (p = s.fpkg → w = 0x00000100FFFF0000) →
      (∀ c, p ≠ s.fpkg → s.canReach p job = true → s.conn? p job = some c → c.used = true →
        w = BitVec.ofNat 64 (c.rate % 512 * 2 ^ 32 + (s.laneMask (s.channel p)).toNat * 2 ^ 16 + c.epoch % 256 * 256 + (match c.st with
          | .up => 0
          | .hold => 1
          | .down => 2))) →
      (p ≠ s.fpkg → s.canReach p job = false → w = 3) →
      (p ≠ s.fpkg → s.canReach p job = true → (∀ c, s.conn? p job = some c → c.used = false) →
        w = BitVec.ofNat 64 ((s.laneMask (s.channel p)).toNat * 2 ^ 16 + 4)) →
      u.put d w = .ok t → exec (.connst g d a) s = .next t.advance)

/-- Elements at their isle: one for a connection with no OPEN buffer opens one; one behind others of its slot waits; one for a
package out of reach enters the fault record with status 3; an OPEN buffer is sealed when its first element has the isle's age. A
status that returns lowers the slot's unacknowledged count, and enters a failure in its record (R212 to R217, R222, R240).

Frames: a connection to another package sends its oldest packet under the next sequence with the acknowledgement it owes; an
acknowledgement frame uses the next counter value; the oldest unacknowledged frame is sent again, with all others, 16,384 clk
after it was last sent. A frame whose tag fails is counted at its port, the sixteenth within 2^20 clk raising an alarm; it, a duplicate, and a frame past a
gap leave memory as it is; a duplicate owes an
acknowledgement, a gap a NAK; an acknowledgement frame is accepted once per counter value; a rate period with acknowledgements and
no echo raises a rate below 256 by one (R226 to R230, R237). That a frame holds one packet is log entry 41. -/
def Obligations.FabricEvents : Prop :=
  ((∀ (s : State) (k isle dest job : Nat) (e : ShElem), s.elemsOut[k]? = some (isle, e, dest, job) →
    (∀ x ∈ s.elemsOut.take k, x.2.1.slot ≠ e.slot) → (∀ i ∈ s.isles, ∀ x ∈ i.2.gwait, x.1.slot ≠ e.slot) →
    let i := s.isle isle
    (s.canReach dest job = true → (∀ b ∈ i.gbufs, ¬ (b.st = .open_ ∧ b.dest = dest ∧ b.job = job)) →
      i.gbufs.length + i.gwait.length < 128 →
      ∃ t, exec (.gatherElementArrive k) s = .next t ∧ t.elemsOut = lremove s.elemsOut k ∧ t.mem = s.mem ∧
        (t.isle isle).gbufs = i.gbufs ++ [{ st := .open_, dest := dest, job := job, els := [{ e with at_ := s.cyc }] }]) ∧
    (s.canReach dest job = false → (s.slot e.slot).gen = e.gen → rfCount (s.slot e.slot).rfst = 0 →
      (s.slot e.slot).st = .active →
      ∃ t, exec (.gatherElementArrive k) s = .next t ∧ (t.slot e.slot).queued = (s.slot e.slot).queued - 1 ∧
        (t.slot e.slot).rfva = e.va &&& 0x00FFFFFFFFFFFFF8 ∧
        (t.slot e.slot).rfst = BitVec.ofNat 64 (2 ^ 32 + e.el.op.toNat * 2 ^ 16 + 3) ||| 0x800)) ∧
  (∀ (s : State) (k : Nat) (e : Nat × ShElem × Nat × Nat) (x : ShElem × Nat × Nat), s.elemsOut[k]? = some e →
    ((∃ i, (i, x) ∈ s.elemsOut.take k) ∨ ∃ i ∈ s.isles, x ∈ i.2.gwait) →
    x.1.slot = e.2.1.slot → x.1.gen = e.2.1.gen → x.2 = e.2.2 → exec (.gatherElementArrive k) s = .next s) ∧
  (∀ (s : State) (isle k : Nat) (b : GBuf) (e : ShElem) (es : List ShElem), (s.isle isle).gbufs[k]? = some b → b.els = e :: es →
    (b.st = .open_ → e.at_ + (s.isle isle).gage ≤ s.cyc →
      exec (.gatherAgeSeal isle k) s = .next (s.sealWhere isle fun c => c == b)) ∧
    (b.st ≠ .open_ ∨ s.cyc < e.at_ + (s.isle isle).gage → exec (.gatherAgeSeal isle k) s = .next s)) ∧
  (∀ (s : State) (k st : Nat) (e : ShElem), s.statusIn[k]? = some (e, st) → (∀ x ∈ s.statusIn.take k, x.1.slot ≠ e.slot) →
    let u : State := { s with statusIn := lremove s.statusIn k }
    (s.lives e.slot e.gen = false → exec (.elementStatusReceive k) s = .next u) ∧
    (s.lives e.slot e.gen = true →
      (st = 0 → exec (.elementStatusReceive k) s = .next (u.modSlot e.slot fun t => { t with unacked := t.unacked - 1 })) ∧
      (st ≠ 0 → exec (.elementStatusReceive k) s =
        .next ((u.modSlot e.slot fun t => { t with unacked := t.unacked - 1 }).rfAdd e.slot e.gen e.va e.el.op st))))) ∧
  ((∀ (s : State) (k : Nat) (c : Conn) (p : OutPkt) (q : List OutPkt), s.conns[k]? = some c → c.queue = p :: q → c.peer ≠ s.fpkg →
    (s.maySend c = true → ∃ t, exec (.frameSend k) s = .next t ∧ t.mem = s.mem ∧
      ∃ fr, t.sentFrames = s.sentFrames ++ [fr] ∧ fr.peer = c.peer ∧ fr.job = c.job ∧
      fr.kind = 0 ∧ fr.seq = c.nextSeq ∧ fr.epoch = c.epoch ∧ fr.epAdv = s.newestEpoch c.job ∧
      fr.ack = (if c.owesNak then some c.rxExpected else if c.rxExpected = 0 then none else some (c.rxExpected - 1)) ∧
      fr.echo = c.echoDue ∧ fr.nak = c.owesNak ∧ fr.pkts = [p.pkt] ∧ fr.payload = packetWords p.pkt ∧
      (let key := connKey (s.jobKey c.job c.epoch) s.fpkg c.peer c.job c.epoch
      fr.cipherKey = key.take 32 ∧ fr.nonce = frameNonce key 0 (c.nextSeq))) ∧
    (s.maySend c = false → exec (.frameSend k) s = .next s)) ∧
  (∀ (s : State) (peer job : Nat) (c : Conn), s.conn? peer job = some c → peer ≠ s.fpkg → s.canReach peer job = true →
    s.channelUp (s.channel peer) = true → c.epoch ∈ s.epochsOf job → c.ackCtr < 2 ^ 48 - 1 → c.owesAck = true ∨ c.owesNak = true →
    ∃ t, exec (.ackFrameSend peer job) s = .next t ∧ t.mem = s.mem ∧
      ∃ fr, t.sentFrames = s.sentFrames ++ [fr] ∧ fr.peer = peer ∧ fr.job = job ∧
      fr.kind = 1 ∧ fr.seq = c.ackCtr + 1 ∧ fr.epoch = c.epoch ∧ fr.epAdv = s.newestEpoch job ∧
      fr.ack = (if c.owesNak then some c.rxExpected else if c.rxExpected = 0 then none else some (c.rxExpected - 1)) ∧
      fr.echo = c.echoDue ∧ fr.nak = c.owesNak ∧ fr.pkts = [] ∧ fr.payload = [] ∧
      (let key := connKey (s.jobKey job c.epoch) s.fpkg peer job c.epoch
      fr.cipherKey = key.take 32 ∧ fr.nonce = frameNonce key 1 (c.ackCtr + 1))) ∧
  (∀ (s : State) (peer job : Nat) (c : Conn) (f : OutFrame), s.conn? peer job = some c → c.replay.find? (fun f => !f.done) = some f →
    (s.cyc < f.at_ + 16384 → exec (.replayTimeout peer job) s = .next s) ∧
    (f.at_ + 16384 ≤ s.cyc → s.pathUp peer = true → ∃ t, exec (.replayTimeout peer job) s = .next t ∧ t.mem = s.mem ∧
      t.sentFrames = s.sentFrames ++ (c.replay.filter fun f => !f.done).filterMap fun f => s.sentFrames.reverse.find? fun x =>
        x.peer == peer && x.job == job && x.kind == 0 && x.seq == f.seq && x.epoch == f.epoch)) ∧
  (∀ (s : State) (f : Frame),
    (s.verifies f = false → ∃ t, exec (.dataFrameReceive f) s = .next t ∧ exec (.ackFrameReceive f) s = .next t ∧
      t.mem = s.mem ∧ t.conns = s.conns ∧ t.slots = s.slots ∧ t.windows = s.windows ∧
      let strait := f.chan / 2
      let fails := (tget [] s.tagFails strait).filter fun at_ => s.cyc < at_ + 2 ^ 20
      t.tagFails = tset [] s.tagFails strait (if fails.length < 15 then fails ++ [s.cyc] else []) ∧
      (t.ring.length + t.drops = s.ring.length + s.drops + if fails.length < 15 then 0 else 1)) ∧
    (s.verifies f = true → f.src = s.fpkg ∨ f.badHeader = true →
      exec (.dataFrameReceive f) s = .next s ∧ exec (.ackFrameReceive f) s = .next s) ∧
    (s.verifies f = true → f.src ≠ s.fpkg → f.badHeader = false → f.ackValid = false → f.echo = false →
      let c := s.conn f.src f.job
      let adv := if c.peerAdv.contains f.epAdv then c.peerAdv else f.epAdv :: c.peerAdv
      c.rxEpoch = f.epoch →
      (f.seq < c.rxExpected → ∃ t, exec (.dataFrameReceive f) s = .next t ∧ s.sameMemory t ∧
        t.conn f.src f.job = { c with peerAdv := adv, echoDue := c.echoDue || decide (192 < f.occupied), owesAck := true }) ∧
      (c.rxExpected < f.seq → c.nakAt = 0 → ∃ t, exec (.dataFrameReceive f) s = .next t ∧ s.sameMemory t ∧
        t.conn f.src f.job = { c with peerAdv := adv, echoDue := c.echoDue || decide (192 < f.occupied), owesNak := true, nakAt := s.cyc }) ∧
      (f.seq = c.rxExpected → f.packets = [] → ∃ t, exec (.dataFrameReceive f) s = .next t ∧ s.sameMemory t ∧
        t.conn f.src f.job = { c with peerAdv := adv, echoDue := c.echoDue || decide (192 < f.occupied), rxExpected := c.rxExpected + 1, owesAck := true }) ∧
      (f.seq ≤ (c.rxAcks.lookup f.epoch).getD 0 → exec (.ackFrameReceive f) s = .next s) ∧
      ((c.rxAcks.lookup f.epoch).getD 0 < f.seq → ∃ t, exec (.ackFrameReceive f) s = .next t ∧ s.sameMemory t ∧
        ((t.conn f.src f.job).rxAcks.lookup f.epoch) = some f.seq))) ∧
  (∀ (s : State) (peer job : Nat) (c : Conn), s.conn? peer job = some c → c.periodAt + 4096 ≤ s.cyc →
    ∃ t, exec (.ratePeriodEnd peer job) s = .next t ∧ s.sameMemory t ∧
      t.conn peer job = { c with
        rate := if c.sawAck && !c.sawEcho && decide (c.rate < 256) then c.rate + 1 else c.rate
        lastRate := if c.sawAck && !c.sawEcho && decide (c.rate < 256) then s.cyc else c.lastRate
        sawAck := false, sawEcho := false, periodAt := s.cyc }))

/-- Frames of a peer applied at this package. The word-2 fields of a verified data frame are used first: an acknowledgement
releases the frames up to it. A frame with the expected sequence raises that sequence, owes an acknowledgement, and its packets
are applied in order, up to one of a reserved kind (R226 to R230).

A request that no window of its job covers, that leaves its window or that is misaligned is answered TRANSLATION, one whose window
is CLOSING or lacks the right RIGHTS. An accepted one counts in its window and translates there: a page that denies it answers
RIGHTS, one of an isle left out TRANSLATION, one that is missing parks it; at its home a load answers the value, an atomic writes
and answers the old value, a probe answers (R207, R209, R211, R227).

The elements of a packet go through the same checks in order, and each one's status is collected: a store writes its enabled bytes
and no other, a reduction what the atomic writes (R207, R213). -/
def Obligations.FramesApplied : Prop :=
  ((∀ (s : State) (f : Frame), f.src ≠ s.fpkg → s.verifies f = true → f.badHeader = false →
    let v := (s.useAck f).enterEpoch f
    let u := v.modConn f.src f.job fun c => { c with
      echoDue := c.echoDue || decide (192 < f.occupied), rxExpected := c.rxExpected + 1, owesAck := true }
    f.seq = (v.conn f.src f.job).rxExpected →
    exec (.dataFrameReceive f) s = .next (u.applyPackets f.late f.src f.job (u.egress f.src) f.seq 0 f.packets)) ∧
  (∀ (s : State) (f : Frame), f.ackValid = true → f.nak = false → f.echo = false →
    let c := s.conn f.src f.job
    (s.useAck f).conn f.src f.job = { c with
      peerAdv := if c.peerAdv.contains f.epAdv then c.peerAdv else f.epAdv :: c.peerAdv
      sawAck := true
      replay := (c.replay.map fun x => if x.seq ≤ f.ack ∧ x.epoch = c.epoch then { x with done := true } else x).filter fun x =>
        !x.done || x.pkts.any fun p => !p.settled }) ∧
  (∀ (s : State) (late : List (Nat × Nat)) (peer job isle seq i : Nat) (p : Packet) (ps : List Packet),
    s.applyPackets late peer job isle seq i [] = s ∧ s.applyPackets late peer job isle seq i (.reserved :: ps) = s ∧
    (p ≠ .reserved → s.applyPackets late peer job isle seq i (p :: ps) =
      (s.applyPacket late peer job isle seq i p).applyPackets late peer job isle seq (i + 1) ps)) ∧
  (∀ (s : State) (peer job : Nat) (p : Packet), peer ≠ s.fpkg →
    (s.canReach peer job = false → s.answerTo peer job p = s) ∧
    (s.canReach peer job = true → s.answerTo peer job p = s.pushPkt peer job {
      pkt := p, shadow := [], slot := 0, gen := 0, dst := .none, sgn := false, settled := true })) ∧
  (∀ (s : State) (a : RemAccess) (st : Nat) (v : Word), a.elem = none → a.targets = [] →
    s.endRemote a st v = (s.setWindow a.handle { s.window a.handle with inflight := (s.window a.handle).inflight - 1 }).answerTo
      a.peer a.job (.reply (remKind a.op + 1) a.tag st v))) ∧
  (∀ (s : State) (late : List (Nat × Nat)) (peer job isle seq idx off : Nat) (tag : RetTag) (op : RemOp),
    (∀ ts, op ≠ .mcas ts) →
    let covers (w : Window) := w.job = job ∧ w.obase * 2 ^ 16 ≤ off ∧ off < w.obase * 2 ^ 16 + w.length
    let u := s.applyPacket late peer job isle seq idx (.request tag off op)
    let fails (st : Nat) := u = s.answerTo peer job (.reply (remKind op + 1) tag st 0)
    ((∀ e ∈ s.windows, ¬ covers e.2) → fails 1) ∧
    (∀ (h : Nat) (w : Window), (h, w) ∈ s.windows → covers w → (∀ e ∈ s.windows, covers e.2 → e = (h, w)) → s.window h = w →
      let past := w.obase * 2 ^ 16 + w.length < off + remSize op
      let barred := w.closing = true ∨ ∃ b, remRight op = some b ∧ w.rights.getLsbD b = false
      (past → fails 1) ∧ (¬ past → barred → fails 2) ∧ (¬ past → ¬ barred → off % remSize op ≠ 0 → fails 1) ∧
      (¬ past → ¬ barred → off % remSize op = 0 → (idx, 0) ∉ late →
        let va := w.local_.toNat + (off - w.obase * 2 ^ 16)
        let a : RemAccess := { freshAccess peer job isle tag op with handle := h, va := BitVec.ofNat 64 va, space := w.space }
        let nr := (remNeeds op).1
        let nw := (remNeeds op).2
        ∀ (l : Loc) (t : State),
          State.ingress a w.space nr nw (s.setWindow h { w with inflight := w.inflight + 1 }) a.va.toNat = (l, t) →
          (l = .deny → u = t.endRemote a 2 0) ∧ (l = .dead → u = t.endRemote a 1 0) ∧
          (∀ i n, l = .fault i n → u = t.park i n (.remote a) nr nw) ∧
          (∀ home i, l = .home home i →
            (∀ x, op = .load x →
              (t.isBroken home (widthBytes x) = true → u = (t.recordBroken home).endRemote a 1 0) ∧
              (t.isBroken home (widthBytes x) = false → u = t.endRemote a 0 (BitVec.ofNat 64 (t.readNat home (widthBytes x))))) ∧
            (∀ k x y z, op = .atom k x y z →
              let old := t.readNat home (widthBytes x)
              (t.isBroken home (widthBytes x) = true → u = (t.recordBroken home).endRemote a 1 0) ∧
              (∀ n, t.isBroken home (widthBytes x) = false → atomNew k x old y.toNat z.toNat = some n →
                u = (t.homeStore home (bytesOf (widthBytes x) n)).endRemote a 0 (BitVec.ofNat 64 old)) ∧
              (t.isBroken home (widthBytes x) = false → atomNew k x old y.toNat z.toNat = none →
                u = t.endRemote a 0 (BitVec.ofNat 64 old))) ∧
            (∀ node x t', op = .enq node → t.enqAt (State.ingress a w.space true true) home node = (.done x, t') →
              u = t'.endRemote a 0 x) ∧
            (∀ o hops x, op = .chase o hops → t.hop home o hops = .done x → u = t.endRemote a 0 x) ∧
            (∀ r x b c, op = .probe r x b c → u = t.endRemote a 0 0))))) ∧
  ((∀ (s : State) (late : List (Nat × Nat)) (peer job isle seq idx : Nat) (els : List Elem), els ≠ [] →
    s.applyPacket late peer job isle seq idx (.gathered els) = ({ s with inGathers := s.inGathers ++ [{
      peer := peer, job := job, seq := seq, pkt := idx, tag := noTag, sts := els.map fun _ => none }] } : State).acceptElems
        late peer job isle seq idx noTag 0 els) ∧
  (∀ (s : State) (late : List (Nat × Nat)) (peer job isle seq idx i : Nat) (tag : RetTag) (e : Elem) (es : List Elem),
    s.acceptElems late peer job isle seq idx tag i (e :: es) =
      (s.acceptElem (late.contains (idx, i)) peer job isle seq idx tag i e).acceptElems late peer job isle seq idx tag (i + 1) es) ∧
  (∀ (s : State) (peer job isle seq idx i : Nat) (tag : RetTag) (e : Elem),
    let a : RemAccess := { freshAccess peer job isle tag (.load .b64) with seq := seq, pkt := idx, el := i, elem := some e }
    let u := s.acceptElem false peer job isle seq idx tag i e
    (elemRun e = none → u = s.gatherStatus a 1) ∧
    (∀ b n, elemRun e = some (b, n) →
      let off := 8 * e.off.toNat + b
      let covers (w : Window) := w.job = job ∧ w.obase * 2 ^ 16 ≤ off ∧ off < w.obase * 2 ^ 16 + w.length
      ((∀ x ∈ s.windows, ¬ covers x.2) → u = s.gatherStatus a 1) ∧
      (∀ (h : Nat) (w : Window), (h, w) ∈ s.windows → covers w → (∀ x ∈ s.windows, covers x.2 → x = (h, w)) → s.window h = w →
        let past := w.obase * 2 ^ 16 + w.length < off + n
        let barred := w.closing = true ∨ w.rights.getLsbD (if e.op = 0 then 1 else 2) = false
        (past → u = s.gatherStatus a 1) ∧ (¬ past → barred → u = s.gatherStatus a 2) ∧
        (¬ past → ¬ barred →
          let va := w.local_.toNat + (off - w.obase * 2 ^ 16)
          let c : RemAccess := { a with handle := h, va := BitVec.ofNat 64 va, space := w.space }
          ∀ (l : Loc) (t : State),
            State.ingress c w.space (decide (e.op ≠ 0)) true (s.setWindow h { w with inflight := w.inflight + 1 }) c.va.toNat = (l, t) →
            (l = .deny → u = t.endRemote c 2 0) ∧ (l = .dead → u = t.endRemote c 1 0) ∧
            (∀ home k, l = .home home k →
              let m := t.elemApply e home b n
              (t.isBroken home n = true → u = (t.recordBroken home).endRemote c 1 0) ∧
              (t.isBroken home n = false → u = m.endRemote c 0 0) ∧
              (e.op = 0 → t.tablesWf = true → ∀ x, m.byte x =
                if home ≤ x ∧ x < home + 8 ∧ e.be.getLsbD (x - home) = true then BitVec.ofNat 8 (e.value.toNat / 2 ^ (8 * (x - home)))
                else t.byte x) ∧
              (∀ op new, elemAtom e.op.toNat = some op →
                atomNew op (widthOfBytes n) (t.readNat home n) (e.value.toNat / 2 ^ (8 * b) % 2 ^ (8 * n)) 0 = some new →
                m = t.homeStore home (bytesOf n new))))))))

/-! ### Harbour accesses (R193 to R195, R201, R404) -/

/-- A harbour load reads its bytes, a store writes them; an AMO answers the old value, sign-extended, and writes the new one; LR
reserves the word and SC writes and answers 0 only under a reservation younger than 4,096 clk, which any write to the word ends (R193,
R194, R404). An access of any of the five types that is misaligned, meets no leaf, or a page that denies it, or for AMO, LR and SC one
without the system-atomic attribute, answers its exception and does nothing, and so does an atomic to the untranslated addresses and a
load or store there outside the region (R195, R201). The control region reads and writes the routes, FPKG, the key block and LANEREQ; a 1
in the block's last word starts its command (R201). The codes of the exceptions are the model's choice (log entry 44). -/
def Obligations.HarbourAccesses : Prop :=
  (∀ (s : State) (hart h : Nat) (w : Width) (addr v : Word), hart < 16 → addr.toNat < 2 ^ 55 →
    let n := widthBytes w
    let old := s.readNat h n
    let sx := extended (widthBits w) true (BitVec.ofNat 64 old)
    (s.harbourReach .load addr.toNat n = (.home h, s) →
      exec (.harbourAccess hart false w addr v) s = .next { s with answer := .load hart (BitVec.ofNat 64 old) }) ∧
    (s.harbourReach .store addr.toNat n = (.home h, s) →
      exec (.harbourAccess hart true w addr v) s = .next { s.homeStore h (bytesOf n v.toNat) with answer := .done hart }) ∧
    (∀ op new, isAmo op w = true → s.harbourReach .amo addr.toNat n = (.home h, s) → atomNew op w old v.toNat 0 = some new →
      exec (.harbourAmo hart op w addr v) s = .next { s.homeStore h (bytesOf n new) with answer := .load hart sx }) ∧
    (w = .b32 ∨ w = .b64 → s.harbourReach .lr addr.toNat n = (.home h, s) → exec (.harbourLr hart w addr) s =
      .next { s with resv := tset ⟨2 ^ 61, 0⟩ s.resv hart ⟨h / 8 * 8, s.cyc⟩, answer := .load hart sx }) ∧
    (w = .b32 ∨ w = .b64 → s.harbourReach .sc addr.toNat n = (.home h, s) →
      (s.reserved hart h = true → exec (.harbourSc hart w addr v) s =
        .next { s.homeStore h (bytesOf n v.toNat) with answer := .load hart 0 }) ∧
      (s.reserved hart h = false → exec (.harbourSc hart w addr v) s = .next { s with answer := .load hart 1 }))) ∧
  (∀ (s : State) (hart h : Nat) (bs : List Byte), h < 2 ^ 61 → bs ≠ [] → (s.homeStore h bs).reserved hart h = false) ∧
  (∀ (s : State) (hart : Nat), s.cyc < (tget (⟨2 ^ 61, 0⟩ : Resv) s.resv hart).at_ + 4096 →
    exec (.reservationExpire hart) s = .next s) ∧
  (∀ (s : State) (hart : Nat), (tget (⟨2 ^ 61, 0⟩ : Resv) s.resv hart).at_ + 4096 ≤ s.cyc →
    tget (⟨2 ^ 61, 0⟩ : Resv) s.resv hart ≠ ⟨2 ^ 61, 0⟩ →
    exec (.reservationExpire hart) s = .next { s with resv := tset ⟨2 ^ 61, 0⟩ s.resv hart ⟨2 ^ 61, 0⟩ }) ∧
  (∀ (s : State) (hart c : Nat) (op : AtomOp) (w : Width) (addr v : Word), hart < 16 →
    (isAmo op w = true → 2 ^ 55 ≤ addr.toNat → exec (.harbourAmo hart op w addr v) s = .next { s with answer := .exception hart 7 } ∧
      exec (.harbourSc hart w addr v) s = .next { s with answer := .exception hart 7 } ∧
      exec (.harbourLr hart w addr) s = .next { s with answer := .exception hart 5 }) ∧
    (addr.toNat < 2 ^ 55 →
      let stops (a : HAcc) (i : Instr) : Prop :=
        ∀ t, s.harbourReach a addr.toNat (widthBytes w) = (.exc c, t) → exec i s = .next { t with answer := .exception hart c }
      stops .load (.harbourAccess hart false w addr v) ∧ stops .store (.harbourAccess hart true w addr v) ∧
      (isAmo op w = true → stops .amo (.harbourAmo hart op w addr v) ∧ stops .lr (.harbourLr hart w addr) ∧
        stops .sc (.harbourSc hart w addr v)))) ∧
  (∀ (s : State) (a : HAcc) (va n : Nat),
    let writes := a = .store ∨ a = .amo ∨ a = .sc
    let atomic := a = .amo ∨ a = .lr ∨ a = .sc
    let code : HRes := .exc (if writes then 7 else 5)
    (va % n ≠ 0 → s.harbourReach a va n = (.exc (if writes then 6 else 4), s)) ∧
    (va % n = 0 → inWindow va = true → s.harbourReach a va n = (code, s)) ∧
    (va % n = 0 → inWindow va = false →
      (∀ b, s.walk 0xFFFF va = .fault b none ∨ s.walk 0xFFFF va = .dead → s.harbourReach a va n = (code, s)) ∧
      (∀ e, s.walk 0xFFFF va = .leaf e →
        let denied := (a ≠ .store ∧ a ≠ .sc ∧ e.r = false) ∨ (writes ∧ e.w = false) ∨ (atomic ∧ e.sa = false)
        let h := e.pa + (va - e.va)
        (denied → s.harbourReach a va n = (code, s)) ∧
        (¬ denied → s.isBroken h n = true → s.harbourReach a va n = (code, s.recordBroken h)) ∧
        (¬ denied → s.isBroken h n = false → s.harbourReach a va n = (.home h, s))))) ∧
  (∀ (s : State) (hart off : Nat) (w : Width) (v : Word), hart < 16 → off < 2 ^ 55 →
    (0x4000 ≤ off ∨ off % widthBytes w ≠ 0 ∨ widthBytes w ≠ if off < 0x2000 then 2 else 8) →
    exec (.harbourAccess hart false w (BitVec.ofNat 64 (2 ^ 55 + off)) v) s = .next { s with answer := .exception hart 5 } ∧
    exec (.harbourAccess hart true w (BitVec.ofNat 64 (2 ^ 55 + off)) v) s = .next { s with answer := .exception hart 7 }) ∧
  (∀ (s : State) (hart : Nat) (v : Word), hart < 16 →
    let at_ (off : Nat) (store : Bool) : Instr := .harbourAccess hart store .b64 (BitVec.ofNat 64 (2 ^ 55 + off)) v
    let reads (off : Nat) (x : Word) : Prop := exec (at_ off false) s = .next { s with answer := .load hart x, draws := s.draws + 1 }
    let key (i : Nat) : Word := tget 0 s.ports (2 ^ 20 + i)
    reads 0x2000 (BitVec.ofNat 64 s.fpkg) ∧
    (∀ t, exec (.fpkgWrite v) s = .next t → exec (at_ 0x2000 true) s = .next { t with answer := .done hart }) ∧
    (∀ i, i < 7 → reads (0x2040 + 8 * i) (key i) ∧ exec (at_ (0x2040 + 8 * i) true) s =
      .next { s with ports := tset 0 s.ports (2 ^ 20 + i) v, answer := .done hart }) ∧
    reads 0x2078 s.keycmd ∧
    (v ≠ 1 → exec (at_ 0x2078 true) s = .next { s with keycmd := v, answer := .done hart }) ∧
    (∀ t, v = 1 → (key 0).getLsbD 24 = false → exec (.keycmdLoad (key 0) ((List.range 6).map fun i => key (i + 1))) s = .next t →
      exec (at_ 0x2078 true) s = .next { t with answer := .done hart }) ∧
    (∀ t, v = 1 → (key 0).getLsbD 24 = true → (∀ i, i < 6 → key (i + 1) = 0) → exec (.keycmdZeroise (key 0)) s = .next t →
      exec (at_ 0x2078 true) s = .next { t with answer := .done hart })) ∧
  (∀ (s : State) (hart off : Nat) (v : Word), hart < 16 → off < 0x2000 → off % 2 = 0 →
    exec (.harbourAccess hart false .b16 (BitVec.ofNat 64 (2 ^ 55 + off)) v) s =
      .next { s with answer := .load hart (BitVec.ofNat 64 (tget 0 s.froute (off / 2))), draws := s.draws + 1 } ∧
    exec (.harbourAccess hart true .b16 (BitVec.ofNat 64 (2 ^ 55 + off)) v) s =
      .next { s.frouteWrite (off / 2) (v.setWidth 16) with answer := .done hart }) ∧
  (∀ (s : State) (hart : Nat) (v : Word), hart < 16 →
    exec (.harbourAccess hart true .b64 (BitVec.ofNat 64 (2 ^ 55 + 0x2080)) v) s =
      .next { s with laneReqs := s.laneReqs ++ [v], answer := .done hart } ∧
    exec (.harbourAccess hart false .b64 (BitVec.ofNat 64 (2 ^ 55 + 0x2080)) v) s =
      .next { s with answer := .load hart 0, draws := s.draws + 1 })

/-! ### The scratchpad and its copies (R245 to R261) -/

/-- SPALLOC takes the lowest run of free tiles for its granules and a guard tile, and answers its first tile, or 2^63 + 1 where no
run fits and 2^63 + 2 for a bad count; SPFREE answers 1 for what is no first tile of an allocation of its set, 2 for one that is
in use, and else leaves its tiles zeroing (R246, R247).

THAND hands a tile over and back with the statuses of R259, and waits for the slot's own loads of the tile, how long being log entry 38
(R261); TSTAT, TCQ and SPHASH read their words; SPLD and SPST act at their offset in the slot's own scratchpad as a load and a store,
in the order among the slot's accesses of log entry 19 (R245, R251, R259, R260). SPALLOC's zeroing clears the errors of its tiles'
words (R417); that a zeroed tile keeps no moored reference is log entry 47. -/
def Obligations.TileRules : Prop :=
  ((∀ (g : Guard) (d : Dst) (a : Src) (x : Word) (s u t : State), s.operands g [a] [x] u →
    let q := u.cur / 256 / 4
    let r := (u.quire q).allocate (u.me.tsid.getD 0) (u.slotSet u.cur).key x.toNat
    let v := u.setQuire q r.2
    (r.1.getLsbD 63 = true → v.put d r.1 = .ok t → exec (.spalloc g d a) s = .next t.advance) ∧
    (r.1.getLsbD 63 = false → ∃ w : State, (w.put d r.1 = .ok t → exec (.spalloc g d a) s = .next t.advance) ∧
      { w with broken := v.broken, mem := v.mem } = v ∧ (s.tablesWf = true → ∀ n, tget false w.broken n =
        if spHome q (4096 * r.1.toNat) / 8 ≤ n ∧ n < spHome q (4096 * (r.1.toNat + (x.toNat + 15) / 16 + 1)) / 8 then false
        else tget false v.broken n))) ∧
  (∀ (q : Quire) (tsid n : Nat) (key : BitVec 60),
    (n = 0 ∨ 8176 < n → q.allocate tsid key n = (0x8000000000000002, q)) ∧
    (0 < n → n ≤ 8176 →
      let k := (n + 15) / 16
      let free (t : Nat) : Prop := t + k < 512 ∧ ∀ i, i ≤ k → (tileOf q (t + i)).alloc = false ∧ (tileOf q (t + i)).zeroing = false
      ((∀ t, ¬ free t) → q.allocate tsid key n = (0x8000000000000001, q)) ∧
      (∀ t, free t → (∀ t', t' < t → ¬ free t') →
        (q.allocate tsid key n).1 = BitVec.ofNat 64 t ∧
        (∀ i, i ≤ k → tileOf (q.allocate tsid key n).2 (t + i) = { Tile.init with
          first := t, alloc := true, guard := decide (i = k), dirty := true, key := key, gd := guardBits n i, tsid := tsid
          granules := n }) ∧
        (∀ j, j < t ∨ t + k < j → tileOf (q.allocate tsid key n).2 j = tileOf q j)))) ∧
  (∀ (g : Guard) (d : Dst) (a : Src) (x : Word) (s u t : State), s.operands g [a] [x] u →
    let n := x.toNat % 512
    let q := u.quire (u.cur / 256 / 4)
    let f := tileOf q n
    let tiles := (q.tiles.filter fun e => e.2.alloc && e.2.first == n).map (·.1)
    let own := f.alloc = true ∧ f.first = n ∧ f.tsid = u.me.tsid.getD 0
    let busy := ∃ i ∈ tiles, (tileOf q i).engine = true ∨ (tileOf q i).inq = true ∨ u.tileWatched (u.cur / 256 / 4) i = true
    (¬ own → u.put d 1 = .ok t → exec (.spfree g d a) s = .next t.advance) ∧
    (own → busy → u.put d 2 = .ok t → exec (.spfree g d a) s = .next t.advance) ∧
    (own → ¬ busy → ((u.setQuire (u.cur / 256 / 4) (q.freeAlloc n)).wakeTiles (u.cur / 256 / 4)).put d 0 = .ok t → exec (.spfree g d a) s = .next t.advance)) ∧
  (∀ (s : State) (quire tile : Nat),
    ((tileOf (s.quire quire) tile).zeroing = false → exec (.tileZeroingEnd quire tile) s = .next s) ∧
    ((tileOf (s.quire quire) tile).zeroing = true → ∃ t, exec (.tileZeroingEnd quire tile) s = .next t ∧
      (s.tablesWf = true → tabWf Tile.init (s.quire quire).tiles = true → tileOf (t.quire quire) tile = Tile.init) ∧
      (s.tablesWf = true → (∀ m ∈ s.moors, m.area = none) → ∀ a, (spHome quire (4096 * tile) ≤ a ∧ a < spHome quire (4096 * tile) + 4096 →
          t.byte a = 0 ∧ t.fBit a = false) ∧
        (a < spHome quire (4096 * tile) ∨ spHome quire (4096 * tile) + 4096 ≤ a → t.byte a = s.byte a ∧ t.fBit a = s.fBit a)) ∧
      (∀ m ∈ t.moors, m.home < spHome quire (4096 * tile) ∨ spHome quire (4096 * tile) + 4096 ≤ m.home)))) ∧
  (∀ (g : Guard) (d : Dst) (a : Src) (x : Word) (s u t : State), s.operands g [a] [x] u →
    let quire := u.cur / 256 / 4
    let n := x.toNat % 512
    let tl := tileOf (u.quire quire) n
    (tl.alloc = false ∨ tl.guard = true → u.put d 3 = .ok t →
      exec (.thandEng g d a) s = .next t.advance ∧ exec (.thandThr g d a) s = .next t.advance) ∧
    (tl.alloc = true → tl.guard = false →
      (tl.engine = true → u.put d 1 = .ok t → exec (.thandEng g d a) s = .next t.advance) ∧
      (tl.engine = false → u.put d 1 = .ok t → exec (.thandThr g d a) s = .next t.advance) ∧
      (tl.engine = false → u.tilesDue n 1 = true → exec (.thandEng g d a) s = s.finish (.error (.wait .other))) ∧
      (tl.engine = false → u.tilesDue n 1 = false →
        (u.modQuire quire fun q => q.setTile n { tl with engine := true }).put d 0 = .ok t →
        exec (.thandEng g d a) s = .next t.advance) ∧
      (tl.engine = true → tl.inq = true → u.put d 2 = .ok t → exec (.thandThr g d a) s = .next t.advance) ∧
      (tl.engine = true → tl.inq = false →
        ((((u.modQuire quire fun q => q.setTile n { tl with engine := false, phase := !tl.phase }).wakeTiles quire).modQuire quire
          fun q => q.reap).wakeTiles quire).put d 0 = .ok t →
        exec (.thandThr g d a) s = .next t.advance)) ∧
    (let q := s.quire (s.cur / 256 / 4)
      let b (x : Bool) (n : Nat) : Nat := if x then 2 ^ n else 0
      let tl := tileOf q n
      (u.put d (BitVec.ofNat 64 (b tl.engine 0 + b tl.phase 1 + b tl.inq 2 + b tl.pm 4 + b tl.err 5 + b tl.guard 6 + b tl.alloc 7
          + tl.ecode % 16 * 2 ^ 8 + tl.done % 2 ^ 17 * 2 ^ 24 + (if tl.alloc then tl.first % 512 * 2 ^ 41 else 0))) = .ok t →
        exec (.tstat g d a) s = .next t.advance) ∧
      (s.put d (BitVec.ofNat 64 (q.copyq.length + 256 * q.running.length)) = .ok t → exec (.tcq g d) s = .next t.advance) ∧
      (u.put d (BitVec.ofNat 64 (bankOf (tileOf q (x.toNat % 2 ^ 21 / 4096)).key (x.toNat % 2 ^ 21))) = .ok t →
        exec (.sphash g d a false) s = .next t.advance) ∧
      (s.put d ((s.slotSet s.cur).key.setWidth 64) = .ok t → exec (.sphash g d a true) s = .next t.advance)) ∧
    (∀ (w : Width) (sgn : Bool) (imm : BitVec 40) (v : State),
      let o := x + imm.signExtend 64
      let h := 2 ^ 48 + quire * 2 ^ 21 + o.toNat
      u.fenceHolds u.cur setL = false → o.toNat < 2 ^ 21 → o.toNat % widthBytes w = 0 → d ≠ 0 →
      u.emptyXj (xIndex u.me.wstate d.toNat) = .ok v →
      let va := BitVec.ofNat 64 spBase + o
      let words := [spanOf h (widthBytes w), vaSpan va.toNat (widthBytes w)]
      let behind := (v.accs.any fun a => a.slot == v.cur && decide (a.gen = v.me.gen) && spansMeet a.words words &&
        !(v.core (v.cur / 256)).sb.any fun e => e.id == a.id || e.readers.contains a.id) || v.manyAhead v.serial v.cur v.me.gen words
      let sent (op : RefOp) : State := (v.withRef ⟨g, [a], .x d, setL, fun _ => va, widthBytes w, fun _ => op, false, false, 0⟩ [x]
        (.reg (xIndex u.me.wstate d.toNat)) h (v.cur / 256 / 48)).advance
      (behind = true → exec (.spld g d a w sgn imm) s = .next (sent (.loadLate w sgn))) ∧
      (behind = false → (∀ e ∈ (v.core (v.cur / 256)).sb, h < e.home ∨ e.home + e.bytes.length ≤ h) →
        exec (.spld g d a w sgn imm) s = .next (sent (.load w sgn)))) ∧
    (2 ^ 21 ≤ x.toNat → u.fenceHolds u.cur setL = false → ∀ (w : Width) (sgn : Bool),
      exec (.spld g d a w sgn 0) s = s.finish (.error (.trap 11 x))) ∧
    (∀ (b : Src) (w : Width) (imm : BitVec 40) (y : Word) (v : State), s.operands g [a, b] [x, y] v →
      let o := x + imm.signExtend 64
      v.fenceHolds v.cur setS = false → o.toNat < 2 ^ 21 → o.toNat % widthBytes w = 0 → (v.core (v.cur / 256)).sb.length < 32 →
      ∃ t, exec (.spst g a b w imm) s = .next t ∧ t.mem = v.mem ∧
        (t.core (v.cur / 256)).sb = (v.core (v.cur / 256)).sb ++ [{
          id := v.serial, slot := v.cur, gen := v.me.gen, va := BitVec.ofNat 64 spBase + o,
          home := 2 ^ 48 + v.cur / 256 / 4 * 2 ^ 21 + o.toNat, bytes := bytesOf (widthBytes w) y.toNat, readers := [] }]))

/-- TCOPY refuses with 2^63 and its code, or queues its copy, its tiles ENGINE and in the copy, and answers the promise; a copy
starts when its slot's earlier accesses are settled and fewer than four run, moves its elements, and completes with its tiles
handed back and the phase turned; what is held waits (R252 to R256).

TWAIT answers 3 for a tile of no allocation, 0 or 2 once the tile is a thread's in the phase it asks for, 1 past its deadline, and
waits otherwise; the deadline ends a wait, and once it has come no promise counts; before that a promise that passes marks a tile in a
copy once and traps unless masked (R257, R258). That the trap bears the asynchronous bit, is taken at the TWAIT's own PC and stays
pending while `inh` is 1 is log entry 27. -/
def Obligations.CopyAndTwait : Prop :=
  ((∀ (g : Guard) (d : Dst) (ts os es : Src) (fill out : Bool) (fmt : Fmt) (bytes idx : BitVec 16) (tiles : BitVec 4)
    (x y z : Word) (s u t : State), s.operands g [ts, os, es] [x, y, z] u → s.fenceHolds s.cur setE = false →
    (s.quire (s.cur / 256 / 4)).copyq.length < 32 → idx.toNat ∈ (s.quire (s.cur / 256 / 4)).folios →
    let f := s.folio idx.toNat
    let q := u.quire (u.cur / 256 / 4)
    let n := tiles.toNat + 1
    let b := bytes.toNat + 1
    let k := x.toNat % 512
    let c := copyRefusal q f k n b (coordsOf y) (coordsOf z) out fmt
    (c ≠ 0 → u.put d (BitVec.ofNat 64 (2 ^ 63 + c)) = .ok t →
      exec (.tcopy g d ts os es fill fmt out bytes tiles idx) s = .next t.advance) ∧
    (c = 0 → s.tilesDue k n = true → exec (.tcopy g d ts os es fill fmt out bytes tiles idx) s = s.finish (.error (.wait .other))) ∧
    (c = 0 → s.tilesDue k n = false →
      let v := (u.acceptCopy f k n b y z out fill fmt).2
      (v.put d (u.acceptCopy f k n b y z out fill fmt).1 = .ok t →
        exec (.tcopy g d ts os es fill fmt out bytes tiles idx) s = .next t.advance) ∧
      (v.quire (u.cur / 256 / 4)).copyq.length = q.copyq.length + 1 ∧ q.copyq <+: (v.quire (u.cur / 256 / 4)).copyq ∧
      (v.quire (u.cur / 256 / 4)).horizon = max u.cyc q.horizon + (b + 127) / 128 ∧
      (∀ i, i < n → (tileOf (v.quire (u.cur / 256 / 4)) (k + i)).engine = true ∧
        (tileOf (v.quire (u.cur / 256 / 4)) (k + i)).inq = true ∧ (tileOf (v.quire (u.cur / 256 / 4)) (k + i)).done = 0 ∧
        (tileOf (v.quire (u.cur / 256 / 4)) (k + i)).phase = (tileOf q (k + i)).phase) ∧
      v.mem = u.mem)) ∧
  (∀ (s : State) (quire : Nat) (c : Copy) (rest : List Copy), (s.quire quire).copyq = c :: rest →
    (4 ≤ (s.quire quire).running.length → exec (.copyStart quire) s = .next s) ∧
    ((s.quire quire).running.length < 4 → s.settledBefore c.slot c.gen c.acc = true → exec (.copyStart quire) s =
      .next (s.modQuire quire fun q => { q with copyq := rest, running := q.running ++ [c] }))) ∧
  (∀ (s : State) (quire k : Nat) (c : Copy), k < 4 → (s.quire quire).running[k]? = some c →
    (c.held = true → exec (.copyComplete quire k) s = .next s) ∧
    (c.held = false → s.findCopy quire c.no = some c → c.todo = [] → exec (.copyComplete quire k) s = .next (s.endCopy quire c 0)) ∧
    (∀ (j i : Nat) (vs : List Nat), c.held = false → s.findCopy quire c.no = some c → c.todo[j]? = some i → c.out = false →
      c.fill = false → s.copyReads c quire (c.group i) = (.ok vs, s) →
      s.isBroken (c.tileHome quire ((c.group i).headD 0) / 8 * 8) 8 = false →
      ∃ t, exec (.copyComplete quire (4 * (j + 1) + k)) s = .next t ∧ t.fulls = s.fulls ∧
        t.mem = (((c.group i).zip vs).foldl (fun u p => u.homeStore (c.tileHome quire p.1) (bytesOf (fmtBytes c.fmt) p.2)) s).mem)) ∧
  (∀ (s : State) (quire idx : Nat), (quire, idx) ∈ s.folioWait → (s.quire quire).folios.length < 256 →
    ∃ t, exec (.folioFetch quire idx) s = .next t ∧ (t.quire quire).folios = idx :: (s.quire quire).folios ∧
      t.mem = s.mem ∧ (quire, idx) ∉ t.folioWait)) ∧
  ((∀ (g : Guard) (d : Dst) (a b c : Src) (ph : Bool) (x y z : Word) (s u t : State), s.operands g [a, b, c] [x, y, z] u →
    let tl := tileOf (s.quire (s.cur / 256 / 4)) (x.toNat % 512)
    let w : State := u.modSlot s.cur fun u => { u with stall := .none }
    let ends (n : Nat) : Prop := w.put d (BitVec.ofNat 64 n) = .ok t → exec (.twait g d a b c ph) s = .next t.advance
    (s.me.stall = .none →
      (tl.alloc = false → ends 3) ∧
      (tl.alloc = true → tl.engine = false → tl.phase = ph → ends (if tl.err then 2 else 0)) ∧
      (tl.alloc = true → tl.engine = true ∨ tl.phase ≠ ph →
        (y ≠ 0 → y.toNat ≤ s.cyc → ends 1) ∧
        (y = 0 ∨ s.cyc < y.toNat → exec (.twait g d a b c ph) s = .next ((s.modSlot s.cur fun u =>
          { u with stall := .twait (x.toNat % 512) ph y z none }).modSlot s.cur fun u => { u with wait := .other })))) ∧
    (∀ n p dl pr st, s.me.stall = .twait n p dl pr (some st) → st < 4 → ends st) ∧
    (∀ n p dl pr, s.me.stall = .twait n p dl pr (some 4) →
      exec (.twait g d a b c ph) s = .next (s.takeTrap s.cur true 22 (BitVec.ofNat 64 (x.toNat % 512)) s.me.pc))) ∧
  (∀ (s : State) (k n : Nat) (ph : Bool) (dl pr : Word), (s.slot k).stall = .twait n ph dl pr none →
    let q := k / 256 / 4
    (dl ≠ 0 → dl.toNat ≤ s.cyc → exec (.twaitDeadline k) s =
      .next (s.modSlot k fun t => { t with stall := .twait n ph dl pr (some 1) })) ∧
    (dl = 0 ∨ s.cyc < dl.toNat → exec (.twaitDeadline k) s = .next s) ∧
    (dl ≠ 0 → dl.toNat ≤ s.cyc → exec (.promiseMiss k) s = .next s) ∧
    (dl = 0 ∨ s.cyc < dl.toNat → pr ≠ 0 → pr.toNat ≤ s.cyc → (tileOf (s.quire q) n).inq = true → (tileOf (s.quire q) n).pm = false →
      let m := s.modQuire q fun u => u.setTile n { tileOf u n with pm := true }
      ((s.slot k).tctl.getLsbD 0 = true → exec (.promiseMiss k) s = .next m) ∧
      ((s.slot k).tctl.getLsbD 0 = false → (s.slot k).inh = true →
        exec (.promiseMiss k) s = .next (m.post k (s.slot k).gen 22 (BitVec.ofNat 64 n))) ∧
      ((s.slot k).tctl.getLsbD 0 = false → (s.slot k).inh = false → exec (.promiseMiss k) s =
        .next (m.modSlot k fun t => { t with stall := .twait n ph dl pr (some 4) }))) ∧
    (pr = 0 ∨ s.cyc < pr.toNat → exec (.promiseMiss k) s = .next s)))

/-! ### Vector instructions (R130, R263 to R291) -/

/-- Every lane-wise vector instruction, rearrangement and function completes with each lane of its destination as the operator gives
it from the source lanes, for lane widths that divide the register (R277 to R285, R291); the values of VEXP2 and VLOG2 are log
entry 14. -/
def Obligations.VectorLanes : Prop :=
  ∀ (i : Instr) (c : VecCalc) (xs : List (BitVec 4096)) (s u t : State) (v : BitVec 4096),
    vecCalc i = some c → s.operandsV c.g c.srcs xs u → 4096 % c.w = 0 →
    hasLanes c.w v (c.f fun k n => laneOf c.w (xs.getD k 0) n) → u.writeV (vNum c.d) v = .ok t → exec i s = .next t.advance

/-- VSPLAT, VEXTR, VINS and the reductions: a splat lane is the operand's low bits; an extracted lane is extended by the type's
signedness; an insertion changes one lane; a sum of integer lanes is exact, and wraps to the destination (R277, R286, R287).

Conversions and widening: with source registers xs, `ks` of them, and `kd` result registers, lane l of result register r comes
from lane i = l kd + r of the narrow side, which is lane i / ks of source register i mod ks (R267, R288 to R290). -/
def Obligations.VectorScalarsAndConversions : Prop :=
  ((∀ (g : Guard) (d : Dst) (a : Src) (f : Fmt) (x : Word) (v : BitVec 4096) (s u t : State), s.operands g [a] [x] u →
    s.me.lease ≠ none → 4096 % fmtWidth f = 0 → hasLanes (fmtWidth f) v (fun _ => x.toNat) → u.writeV (vNum d) v = .ok t →
    exec (.vsplat g d a f) s = .next t.advance) ∧
  (∀ (g : Guard) (d : Dst) (a l : Src) (f : Fmt) (off : BitVec 10) (x : BitVec 4096) (y : Word) (r : Rd) (s u t : State),
    s.guardTrue g = .ok true → s.me.lease ≠ none → s.me.vCell (vNum a.reg) = .full x → readX 1 l s.rd = .ok (y, r) →
    (r.s.killXs [l]).killVs (if a.kill then [vNum a.reg] else []) = .ok u →
    let n := laneOf (fmtWidth f) x ((y.toNat + off.toNat) % lanesOf f)
    u.put d (if isSigned f then BitVec.ofInt 64 (intOf f n) else BitVec.ofNat 64 n) = .ok t →
    exec (.vextr g d a l f off) s = .next t.advance) ∧
  (∀ (g : Guard) (d : Dst) (a b l : Src) (f : Fmt) (off : BitVec 10) (x v : BitVec 4096) (y z : Word) (r r' : Rd) (s u t : State),
    s.guardTrue g = .ok true → s.me.lease ≠ none → s.me.vCell (vNum a.reg) = .full x → readX 1 b s.rd = .ok (y, r) →
    readX 2 l r = .ok (z, r') → (r'.s.killXs [b, l]).killVs (if a.kill then [vNum a.reg] else []) = .ok u →
    4096 % fmtWidth f = 0 →
    hasLanes (fmtWidth f) v (fun i => if i = (z.toNat + off.toNat) % lanesOf f then y.toNat else laneOf (fmtWidth f) x i) →
    u.writeV (vNum d) v = .ok t → exec (.vins g d a b l f off) s = .next t.advance) ∧
  (∀ (g : Guard) (d : Dst) (a : Src) (f : Fmt) (x : BitVec 4096) (s u t : State), s.operandsV g [a] [x] u →
    (u.put d (reduceVec .add f x) = .ok t → exec (.vredadd g d a f) s = .next t.advance) ∧
    (u.put d (reduceVec .min f x) = .ok t → exec (.vredmin g d a f) s = .next t.advance) ∧
    (u.put d (reduceVec .max f x) = .ok t → exec (.vredmax g d a f) s = .next t.advance)) ∧
  (∀ (f : Fmt) (x : BitVec 4096), isFloat f = false → 8 ≤ fmtWidth f →
    reduceVec .add f x = BitVec.ofInt 64 ((List.range (lanesOf f)).map fun i => intOf f (laneOf (fmtWidth f) x i)).sum)) ∧
  (∀ (g : Guard) (d : Dst) (a b : Src) (rm : Rnd) (tf sf : Fmt) (xs ys : List (BitVec 4096)) (s u t : State),
    let n := min (fmtWidth sf) (fmtWidth tf)
    let ks := fmtWidth sf / n
    let kd := fmtWidth tf / n
    let sourceLane (i : Nat) : Nat := laneOf (fmtWidth sf) (xs.getD (i % ks) 0) (i / ks)
    let results (f : Nat → Nat) : Prop :=
      ys.length = kd ∧ ∀ r, r < kd → hasLanes (fmtWidth tf) (ys.getD r 0) fun l => f (l * kd + r)
    s.guardTrue g = .ok true → s.me.lease ≠ none → 4096 % fmtWidth sf = 0 → 4096 % fmtWidth tf = 0 → xs.length = ks →
    (∀ r, r < ks → s.me.vCell (vNum a.reg + r) = .full (xs.getD r 0)) → a.kill = false →
    (results (fun i => cvtElem tf sf rm (maxBits tf) none (sourceLane i)) → s.writeVs (vNum d) ys = .ok t →
      exec (.vcvt g d a rm tf sf) s = .next t.advance) ∧
    (∀ (x : Word) (r : Rd), readX 1 b s.rd = .ok (x, r) → u = r.s.killXs [b] →
      results (fun i => cvtElem tf sf .rne (maxBits tf) (some (srBits x i)) (sourceLane i)) → u.writeVs (vNum d) ys = .ok t →
      exec (.vcvts g d a b tf sf) s = .next t.advance) ∧
    (∀ y, tf = wideOf sf → fmtWidth sf ≤ fmtWidth tf → s.me.vCell (vNum b.reg) = .full y → b.kill = false →
      let wide (mul : Bool) (i : Nat) : Nat := wideLane mul rm sf (sourceLane i) (laneOf (fmtWidth sf) y i)
      (results (wide false) → s.writeVs (vNum d) ys = .ok t → exec (.vwadd g d a b rm sf) s = .next t.advance) ∧
      (results (wide true) → s.writeVs (vNum d) ys = .ok t → exec (.vwmul g d a b rm sf) s = .next t.advance)))

/-- VLEASE takes the lowest free lease with all its registers DEAD, answers 2^63 + 2 when the slot holds one and, with `.try`,
2^63 + 1 when none is free; VREL gives the lease back once none of its registers waits; a use without a lease traps (R263 to R265).

VADD, VSUB and VMUL of a pending register and a FULL one record their step: the destination becomes CATCH over the pending
register's identifier with the step and its operand, and an arriving value is taken through the steps in program order (R130,
R133). -/
def Obligations.VectorLeasesAndCatch : Prop :=
  (∀ (g : Guard) (d : Dst) (s t : State), s.guardTrue g = .ok true →
    let core := s.cur / 256
    (∀ b l, s.me.lease = some l → s.put d 0x8000000000000002 = .ok t → exec (.vlease g d b) s = .next t.advance) ∧
    (s.me.lease = none → (s.core core).leaseWait = [] → (∀ l, l < 16 → l ∈ (s.core core).leases) →
      (s.put d 0x8000000000000001 = .ok t → exec (.vlease g d true) s = .next t.advance)) ∧
    (∀ b l, s.me.lease = none → (s.core core).leaseWait = [] → l < 16 → l ∉ (s.core core).leases →
      (∀ m, m < l → m ∈ (s.core core).leases) →
      (((s.modSlot s.cur fun u => { u with vdirty := 0xFFFF }).modCore core fun c =>
        { c with leases := l :: c.leases }).modSlot s.cur fun u =>
        { u with lease := some l, v := List.replicate 16 .dead }).put d (BitVec.ofNat 64 l) = .ok t →
      exec (.vlease g d b) s = .next t.advance) ∧
    (s.me.lease = none → exec (.vrel g) s = .next s.advance) ∧
    (∀ l, s.me.lease = some l → s.me.leaseBusy = false → s.running → s.tablesWf = true →
      ∃ u, exec (.vrel g) s = .next u ∧ u.me.lease = none ∧ l ∉ (u.core core).leases ∧ u.mem = s.mem ∧ s.sameSlotsBut u s.cur) ∧
    (∀ l, s.me.lease = some l → s.me.leaseBusy = true →
      exec (.vrel g) s = .next (s.modSlot s.cur fun u => { u with wait := .other })) ∧
    (s.me.lease = none → 32 ≤ d.toNat → d.toNat < 48 → ∀ a : Src,
      exec (.vmov g d a) s = s.finish (.error (.trap 10 (BitVec.ofNat 64 d.toNat))))) ∧
  ((∀ (g : Guard) (d : Dst) (a b : Src) (rm : Rnd) (sat : Bool) (f : Fmt) (m : Marks) (c : Nat) (y : BitVec 4096) (s : State),
    s.guardTrue g = .ok true → s.me.lease ≠ none → isFloat f = true → a.trap = false → a.kill = false → b.kill = false →
    s.me.vCell (vNum a.reg) = .empty m → m.fatal = false → m.cw = some c → c ∈ (s.core (s.cur / 256)).cwUsed →
    s.me.vCell (vNum b.reg) = .full y → s.me.vCell (vNum d) = .dead → s.me.held (vNum d) = false →
    let records (op : BitVec 10) : State := (s.modSlot s.cur fun t => t.setVCell (vNum d) (.catching c
      [{ opcode := op, second := false, fmt := f, rm := rm, reg := vNum b.reg, val := y }])).advance
    exec (.vadd g d a b rm sat f) s = .next (records 0x128) ∧ exec (.vsub g d a b rm sat f) s = .next (records 0x129) ∧
    exec (.vmul g d a b rm sat f) s = .next (records 0x12A)) ∧
  (∀ (st : VStep) (rest : List VStep) (v : BitVec 4096) (i : Nat), 4096 % fmtWidth st.fmt = 0 → i < lanesOf st.fmt →
    replaySteps (st :: rest) v = replaySteps rest (replayStep st v st.val) ∧
    (st.opcode = 0x128 → st.second = false → laneOf (fmtWidth st.fmt) (replayStep st v st.val) i =
      fop .add st.fmt st.rm (laneOf (fmtWidth st.fmt) v i) (laneOf (fmtWidth st.fmt) st.val i) % 2 ^ fmtWidth st.fmt)) ∧
  (∀ (s : State) (k n c : Nat) (m : Marks) (r : Reply) (x : BitVec 4096), s.replies[k]? = some r → r.acc = none →
    r.dst = .reg (86 + n) → n < 16 → s.lives r.slot r.gen = true → r.fatal = false → r.vec = some x →
    (s.slot r.slot).vCell n = .empty m → m.reply = true → m.drop = false → m.cw = some c →
    exec (.replyAccept k) s = .next (({ s with replies := lremove s.replies k }.modSlot r.slot fun t =>
      t.setVCell n (.full x)).resolveCw r.slot c 0 x)))

/-- Vector loads and stores through a usable folio that the quire holds, with every lane in bounds and no page denied: a load makes
its register EMPTY and sends one reference that names each lane's element; a store sends each lane's converted element, the highest
lane winning where lanes name one element, and counts; folio errors trap with their detail and lane (R271 to R276). -/
def Obligations.VectorMemory : Prop :=
  ∀ (i : Instr) (g : Guard) (idx : BitVec 16) (f : Fmt) (coords : List (List Nat)) (s : State),
    let q := s.cur / 256 / 4
    let fo := s.folio idx.toNat
    s.guardTrue g = .ok true → s.me.lease ≠ none → idx.toNat ∈ (s.quire q).folios → s.fenceHolds s.cur setE = false →
    coords.length = lanesOf f →
    (∀ (d : Dst) (c : Src) (x : Word) (r : Rd) (u v : State), readX 0 c s.rd = .ok (x, r) →
      (i = .vld g d c f idx ∧ u = r.s.killXs [c] ∧ coords = rowCoords f x ∨
        ∃ z y, i = .vldx g d c z f idx ∧ s.me.vCell (vNum z.reg) = .full y ∧ z.kill = false ∧ u = r.s.killXs [c] ∧
          coords = indexCoords f x y) →
      u.fenceHolds u.cur setE = false →
      (fo.valid = false → exec i s = s.finish (.error (.trap 14 (BitVec.ofNat 64 (idx.toNat + 0x10000))))) ∧
      (fo.valid = true → fo.canRead = true → loadPair f fo.fmt = true → fo.base < 2 ^ 55 →
        (∀ n, n < lanesOf f → fo.oob (coords.getD n []) = false ∧
          u.peek u.cur fo.space (fo.addr (coords.getD n [])) true false ≠ .deny) →
        u.emptyV (vNum d) = .ok v →
        let lanes := (List.range (lanesOf f)).map fun n => (n, fo.addr (coords.getD n []))
        exec i s = .next (v.sendVec fo lanes (.reg (86 + vNum d)) (.vload f fo.fmt lanes 0) false).advance)) ∧
    (∀ (c a : Src) (x : Word) (y : BitVec 4096) (r : Rd) (u : State), readX 0 c s.rd = .ok (x, r) →
      s.me.vCell (vNum a.reg) = .full y → a.kill = false → u = r.s.killXs [c] →
      (i = .vst g c a f idx ∧ coords = rowCoords f x ∨
        ∃ z n, i = .vstx g c a z f idx ∧ s.me.vCell (vNum z.reg) = .full n ∧ z.kill = false ∧ coords = indexCoords f x n) →
      u.fenceHolds u.cur setE = false → u.me.redcnt < 16 → fo.valid = true → fo.canWrite = true → storePair f fo.fmt = true →
      fo.base < 2 ^ 55 → 0 < lanesOf f →
      (∀ n, n < lanesOf f → fo.oob (coords.getD n []) = false ∧
        u.peek u.cur fo.space (fo.addr (coords.getD n [])) false true ≠ .deny) →
      ∃ lanes : List (Nat × Nat),
        (∀ n va, (n, va) ∈ lanes ↔ n < lanesOf f ∧ va = fo.addr (coords.getD n []) ∧
          ∀ m, n < m → m < lanesOf f → fo.addr (coords.getD m []) ≠ va) ∧
        exec i s = .next ((u.modSlot u.cur fun t => { t with redcnt := t.redcnt + 1 }).sendVec fo lanes .none
          (.vstore (fmtBytes fo.fmt) (lanes.map fun l => (l.1, l.2, storeConv f fo (laneOf (fmtWidth f) y l.1)))) true).advance)

/-! ### Folios and the matrix unit (R293 to R323) -/

/-- FOLSET sends the read of its record; read, a record that fails check k of R295 is answered 2^63 + k with nothing changed, and
any other becomes the entry, valid, with no quire holding a copy. FOLSET .inv clears its entry; FOLRD replies a word of an entry,
FOLCHK the first failing check of its box (R293, R295, R302 to R304).

A matrix or loader command whose folios the quire holds and whose checks pass joins its queue of the core, and its accumulator is
EMPTY until it is written; a failing check traps with the folio and detail; MXKEY sets the core's key, MXSTAT reads the unit's
state, MXWAIT completes once none of the slot's commands is left, and MXSEND sends the read of its record (R297, R305, R306, R309,
R319 to R323). -/
def Obligations.FolioAndMatrix : Prop :=
  ((∀ (g : Guard) (d : Dst) (a b : Src) (x va : Word) (s u v : State) (h isle : Nat), s.operands g [a, b] [x, va] u →
    (s.slotSet s.cur).service = true → u.fenceHolds u.cur setL = false → localAddr va 64 → d ≠ 0 →
    u.emptyXj (xIndex u.me.wstate d.toNat) = .ok v → v.locate v.cur va.toNat true false = .home h isle →
    exec (.folset g d a b) s = .next (v.withRef ⟨g, [a, b], .x d, setL, fun _ => va, 64,
      fun _ => .record (.folset (x.toNat % 65536)) 64, false, false, 0⟩ [x, va] (.reg (xIndex u.me.wstate d.toNat)) h isle).advance) ∧
  (∀ (s : State) (k idx : Nat) (part : Option Nat) (r : Ref), s.atHomeNow k r → r.op = .record (.folset idx) 64 →
    let u : State := { s with refs := lremove s.refs k }
    let rec_ := s.readWords r.home 8
    (Folio.check rec_ ≠ 0 → exec (.memrefArrive k part) s =
      .next ((u.perform r.id).reply r.slot r.gen r.dst (BitVec.ofNat 64 (2 ^ 63 + Folio.check rec_)))) ∧
    (Folio.check rec_ = 0 → ∃ t, exec (.memrefArrive k part) s = .next t ∧ (t.folio idx).valid = true ∧
      (∀ i, i ≠ 6 → (t.folio idx).getD i 0 = rec_.getD i 0) ∧ (∀ j, j ≠ idx → t.folio j = s.folio j) ∧ t.mem = s.mem ∧
      (s.tablesWf = true → ∀ q, idx ∉ (t.quire q).folios))) ∧
  (∀ (g : Guard) (d : Dst) (a : Src) (x : Word) (s u v : State), s.operands g [a] [x] u → (s.slotSet s.cur).service = true →
    (u.setFolio (x.toNat % 65536) Folio.zero).emptyXj (xIndex u.me.wstate d.toNat) = .ok v →
    exec (.folsetInv g d a) s = .next (v.reply v.cur v.me.gen (.reg (xIndex u.me.wstate d.toNat)) 0).advance) ∧
  (∀ (g : Guard) (d : Dst) (a : Src) (w : BitVec 3) (x : Word) (s u v : State), s.operands g [a] [x] u →
    x.toNat % 65536 ∈ (s.quire (s.cur / 256 / 4)).folios → u.emptyXj (xIndex u.me.wstate d.toNat) = .ok v →
    exec (.folrd g d a w) s = .next (v.reply v.cur v.me.gen (.reg (xIndex u.me.wstate d.toNat))
      ((s.folio (x.toNat % 65536)).getD w.toNat 0)).advance) ∧
  (∀ (g : Guard) (d : Dst) (a b : Src) (acc : BitVec 2) (idx : BitVec 16) (x y : Word) (s u v : State),
    s.operands g [a, b] [x, y] u → idx.toNat ∈ (s.quire (s.cur / 256 / 4)).folios →
    u.emptyXj (xIndex u.me.wstate d.toNat) = .ok v →
    let f := s.folio idx.toNat
    let answers (w : Word) : Prop := exec (.folchk g d a b acc idx) s =
      .next (v.reply v.cur v.me.gen (.reg (xIndex u.me.wstate d.toNat)) w).advance
    (f.valid = false → answers 0x8000000000000001) ∧
    (f.valid = true → (acc.getLsbD 0 = true ∧ f.canRead = false ∨ acc.getLsbD 1 = true ∧ f.canWrite = false) →
      answers 0x8000000000000002) ∧
    (f.valid = true → (acc.getLsbD 0 = true → f.canRead = true) → (acc.getLsbD 1 = true → f.canWrite = true) →
      (f.boxEmpty (coordsOf y) = true → answers 0) ∧
      (f.boxEmpty (coordsOf y) = false → f.base.testBit 55 = true → answers 0x8000000000000005) ∧
      (f.boxEmpty (coordsOf y) = false → f.base.testBit 55 = false →
        answers (if f.boxOob (coordsOf x) (coordsOf y) then 0x8000000000000004 else 0))))) ∧
  ((∀ (i : Instr) (c : MxForm) (vs : List Word) (s u : State), mxForm i = some c → s.operands c.g c.srcs vs u →
    let k := s.cur / 256
    let q := s.quire (k / 4)
    let m := c.cmd s vs
    s.fenceHolds s.cur setE = false → (∀ n, c.fa = some n → n ∈ q.folios) → (∀ n, c.fb = some n → n ∈ q.folios) →
    (∀ d, m.detail = some (false, d) → exec i s = s.finish (.error (.trap 14 (BitVec.ofNat 64 (c.fa.getD 0 % 65536 + d * 65536))))) ∧
    (m.detail = none → (s.core k).accDrops m = false → s.me.deadmode.getLsbD 0 = false → (s.core k).mxAll.length < 32 →
      ∃ t, exec i s = .next t ∧ t.mem = u.mem ∧
        (t.core k).mxq = (if isLoader c.opcode then (s.core k).mxq else (s.core k).mxq ++ [{ m with no := (s.core k).mxNo }]) ∧
        (t.core k).ldq = (if isLoader c.opcode then (s.core k).ldq ++ [{ m with no := (s.core k).mxNo }] else (s.core k).ldq) ∧
        (writesAcc c.opcode = true → (s.core k).accs.length = 8 → isPending ((t.core k).acc m.accNo) = true))) ∧
  (∀ (g : Guard) (a : Src) (x : Word) (s u : State), s.operands g [a] [x] u → (s.slotSet s.cur).service = true →
    exec (.mxkey g a) s = .next (u.modCore (s.cur / 256) fun c => { c with mxkey := x.setWidth 16 }).advance) ∧
  (∀ (g : Guard) (d : Dst) (s t : State), s.guardTrue g = .ok true →
    let c := s.core (s.cur / 256)
    ((c.mxAll.filter fun m => m.ofSlot s.cur s.me.gen) = [] → exec (.mxwait g) s = .next s.advance) ∧
    ((c.mxAll.filter fun m => m.ofSlot s.cur s.me.gen) ≠ [] → exec (.mxwait g) s = s.finish (.error (.wait .other))) ∧
    (s.put d (BitVec.ofNat 64 ((if c.arrayHeld ∨ c.loaderHeld then 128 else 0) +
        ((List.range 8).map fun n => if isPending (c.acc n) then 2 ^ (8 + n) else 0).sum + c.mxAll.length % 256 * 2 ^ 16 +
        (c.mxAll.filter fun m => m.ofSlot s.cur s.me.gen).length % 256 * 2 ^ 24)) = .ok t →
      exec (.mxstat g d) s = .next t.advance)) ∧
  (∀ (g : Guard) (d : Dst) (a b : Src) (cap va : Word) (s u v : State) (h isle : Nat), s.operands g [a, b] [cap, va] u →
    u.fenceHolds u.cur (setL ||| setE) = false → localAddr va 32 → d ≠ 0 → u.emptyXj (xIndex u.me.wstate d.toNat) = .ok v →
    v.locate v.cur va.toNat true false = .home h isle →
    let w := v.withRef ⟨g, [a, b], .x d, setL, fun _ => va, 32, fun _ => .record (.mxsend cap) 32, false, false, 0⟩ [cap, va]
      (.reg (xIndex u.me.wstate d.toNat)) h isle
    exec (.mxsend g d a b) s = .next (w.newAcc w.cur setE [] false).2.advance))

/-- The array at work: MXZ ends with a zero accumulator; MXA with C + A B and MXDOT with one element added to, once their operands
are read; an MXA on a slot that holds no weights ends with cause 4 and its accumulator as it was; MXLD takes the converted
elements; an MXST writes its converted in-bounds elements word by word, in index order, and with `.fill` a word that it writes in
full gets F; a page that denies it, an uncorrectable word or a refused tile ends it with cause 2, 1 or 3 (R316, R318). A byte of
an operand may be read earlier than the rest, at an instant of its own, and is used as it stood then (R339). A command that has
ended leaves the array, is reported to its slot when in error, and its accumulator is FULL once it has no writer (R305, R307, R312
to R318).

The loader at work: WBLD starts by making its slot LOADING with the folio's formats; each row block brings eight rows, and the
last makes the slot READY; WBINV makes its slots INVALID. A message of MXSEND reaches its core: refused for a wrong key, a bad
record or a folio error, and accepted otherwise (R307 to R310, R320, R321). -/
def Obligations.ArrayAndLoader : Prop :=
  ((∀ (s : State) (k : Nat) (m : MxCmd) (rest : List MxCmd), s.tablesWf = true → (s.core k).array = none →
    (s.core k).mxq = m :: rest → s.mxSettled m = true →
    let c := s.core k
    let r : MxRun := ⟨m, c.accVal m.accNo, none⟩
    let u : State := (s.modCore k fun c => { c with mxq := rest }).modCore k fun c => { c with array := some r }
    let o := coordsOf m.s1
    let w := c.wslot m.slotNo
    let elem (s : State) (c : List Nat) := s.engElem (m.eng k m.fa) m.fa c
    let ends (cause : Nat) (v : BitVec 32768) : Prop := ∃ t, exec (.matrixCommandExecute k) s = .next t ∧ t.mem = s.mem ∧
      (t.core k).array = some { r with ended := some cause } ∧ (t.core k).accv = c.accv.set m.accNo v ∧ (t.core k).mxq = rest
    (m.opcode = 0x165 → ends 0 0) ∧
    (m.opcode = 0x166 → c.wsArrived m = true →
      (w.st = .invalid ∨ w.st = .faulted → ends 4 (c.accVal m.accNo)) ∧
      (w.st = .ready → w.fmt = .bf16 → m.fa.fmt ≠ .bf16 → ends 5 (c.accVal m.accNo)) ∧
      (∀ vs, w.st = .ready → (w.fmt = .bf16 → m.fa.fmt = .bf16) →
        engList elem u (boxCoords o [depthK m.fa.fmt, 32, 1, 1] 4) = (.ok vs, u) →
        ends 0 (mxaResult (c.accVal m.accNo) (depthK m.fa.fmt) m.s2.toNat m.fa.fmt vs w))) ∧
    (∀ vs, m.opcode = 0x168 → engList elem u ((List.range 1024).map (accCoords o)) = (.ok vs, u) →
      ends 0 (packAcc (vs.map fun v => v.elim 0 (loadConv .f32 m.fa.fmt)))) ∧
    (∀ as bs, m.opcode = 0x169 →
      engList elem u ((List.range m.len).map fun t => [o.getD 0 0 + t, o.getD 1 0, o.getD 2 0, o.getD 3 0]) = (.ok as, u) →
      engList (fun s c => s.engWeight (m.eng k m.fb) m.fb c) u ((List.range m.len).map fun t =>
        [(coordsOf m.s2).getD 0 0 + t, (coordsOf m.s2).getD 1 0, (coordsOf m.s2).getD 2 0, (coordsOf m.s2).getD 3 0]) = (.ok bs, u) →
      ends 0 (mxdotResult (c.accVal m.accNo) m.elem m.len m.fa.fmt m.fb.fmt m.fb.sfmt as bs)) ∧
    (m.opcode = 0x167 → m.next < 1023 → m.fa.oob (accCoords o m.next) = true →
      ∃ t, exec (.matrixCommandExecute k) s = .next t ∧ t.mem = s.mem ∧
        (t.core k).array = some { r with cmd := { m with next := m.next + 1 } })) ∧
  (∀ (s v : State) (k : Nat) (r : MxRun) (res : Except EngFail Nat), v.tablesWf = true → (s.core k).array = some r →
    r.ended = none → (s.core k).arrayHeld = false → r.cmd.opcode = 0x167 → r.cmd.fa.oob (accCoords (coordsOf r.cmd.s1) r.cmd.next) = false →
    let m := r.cmd
    let f := m.fa
    let at_ (j : Nat) : Nat := f.addr (accCoords (coordsOf m.s1) j)
    let js := (f.sameWord (coordsOf m.s1) m.next).filter fun j => !f.oob (accCoords (coordsOf m.s1) j)
    let n := fmtBytes f.fmt
    let last := js.getLastD m.next + 1
    let full := m.cmpl.getLsbD 0 && (List.range 8).all fun b => (f.covered (coordsOf m.s1) (at_ m.next / 8) last).contains b
    let r' : MxRun := { r with shadow := (s.core k).accVal m.accNo }
    (s.modCore k fun c => { c with array := some r' }).engAt (m.eng k f) (at_ m.next) (js.length * n) false true
      (m.cmpl.getLsbD 0 && decide (8 ≤ js.length * n)) = (res, v) →
    let ends (cause : Nat) : Prop := exec (.matrixCommandExecute k) s = .next (v.arrayEnd k r' r'.shadow cause)
    (∀ h, res = .ok h → ∃ t, exec (.matrixCommandExecute k) s = .next t ∧ (t.core k).accv = (v.core k).accv ∧
      (t.core k).array = some { r' with cmd := { m with next := last }, ended := if last < 1024 then none else some 0 } ∧
      let w := js.foldl (fun u j => u.homeStore (h + (at_ j - at_ m.next))
        (bytesOf n (storeConv .f32 f (accElem ((v.core k).accVal m.accNo) j)))) v
      (full = false → t.mem = w.mem ∧ t.fulls = v.fulls) ∧
      (full = true → (∀ x ∈ v.moors, x.home / 8 ≠ h / 8 ∧ x.area = none) →
        t.mem = w.mem ∧ t.fulls = tset false v.fulls (h / 8) true)) ∧
    (res = .error .fatal → ends 1) ∧ (res = .error .denied → ends 2) ∧ (res = .error .refused → ends 3)) ∧
  (∀ (s : State) (k home : Nat) (m : MxCmd) (rest : List MxCmd), s.tablesWf = true → s.phase = .up → (s.core k).array = none →
    (s.core k).mxq = m :: rest → s.mxSettled m = true → m.seen.lookup home = none →
    ∃ t, s.move (.mxReads k false home) = .next t ∧ t.mem = s.mem ∧
      (t.core k).mxq = { m with seen := (home, s.byte home) :: m.seen } :: rest) ∧
  (∀ (e : Eng) (s t : State) (va len h : Nat), va % 8 + len ≤ 8 → s.engAt e va len true false false = (.ok h, t) →
    s.engRead e va len = (.ok (natOfBytes ((List.range len).map fun i => (e.seen.lookup (h + i)).getD (t.byte (h + i)))), t)) ∧
  (∀ (s : State) (k : Nat) (r : MxRun), (s.core k).array = some r → r.ended.isSome ∨ (s.core k).arrayHeld = true →
    exec (.matrixCommandExecute k) s = .next s) ∧
  (∀ (s : State) (k n : Nat) (gen : BitVec 8) (m : MxCmd) (x : BitVec 32768) (cause : Nat), s.tablesWf = true →
    (s.core k).array = some ⟨m, x, some cause⟩ → m.src = .own n gen → (s.core k).mxq = [] → (s.core k).accs.length = 8 →
    m.accNo < 8 →
    ∃ t, exec (.matrixCommandComplete k false) s = .next t ∧ t.mem = s.mem ∧ (t.core k).array = none ∧ t.accs = s.accs.filter (·.id ≠ m.acc) ∧
      (∀ a, (s.core k).acc m.accNo = .empty a → (s.core k).ldq = [] → (s.core k).loader = none →
        writesAcc m.opcode = true → (t.core k).acc m.accNo = if a.drop then .dead else .full ()) ∧
      (cause = 0 → t.slots = s.slots) ∧
      (cause ≠ 0 → t.slots = (s.post n gen 23 (mxErrorValue m cause)).slots))) ∧
  ((∀ (s : State) (k : Nat) (m : MxCmd) (rest : List MxCmd), s.tablesWf = true → (s.core k).loader = none → (s.core k).ldq = m :: rest →
    s.mxSettled m = true → (s.core k).mxq = [] → (s.core k).array = none →
    (m.opcode = 0x163 → ∃ t, exec (.loaderCommandStart k) s = .next t ∧ t.mem = s.mem ∧ (t.core k).ldq = rest ∧
      (t.core k).loader = some ⟨m, 0, none⟩ ∧
      (t.core k).wslot m.slotNo = {
        st := .loading, fmt := m.fa.fmt, sfmt := m.fa.sfmt, group := m.fa.groupCode, phase := (coordsOf m.s1).getD 0 0 % 128
        rows := m.rows, blocks := 0, cells := [] }) ∧
    (m.opcode = 0x164 → ∃ t, exec (.loaderCommandStart k) s = .next t ∧ t.mem = s.mem ∧ (t.core k).ldq = rest ∧
      (tabWf WSlot.init (s.core k).ws = true → ∀ n, n < 64 → (t.core k).wslot n =
        if m.s1.getLsbD n then WSlot.init else (s.core k).wslot n))) ∧
  (∀ (s : State) (k : Nat) (r : MxRun) (vs : List (Option (Nat × Nat))), s.tablesWf = true → (s.core k).loader = some r →
    r.ended = none → (s.core k).loaderHeld = false → r.cmd.opcode = 0x163 → ((s.core k).wslot r.cmd.slotNo).st = .loading →
    let m := r.cmd
    let b := m.next
    let o := coordsOf m.s1
    let keys := (List.range (min 8 (m.rows - 8 * b))).flatMap fun i => (List.range 32).map fun j => (8 * b + i, j)
    engList (fun s (p : Nat × Nat) => s.engWeight (m.eng k m.fa) m.fa [o.getD 0 0 + p.1, o.getD 1 0 + p.2, o.getD 2 0, o.getD 3 0]) s
      keys = (.ok vs, s) →
    ∃ t, exec (.weightRowBlockArrive k) s = .next t ∧ t.mem = s.mem ∧
      ((t.core k).wslot m.slotNo).blocks = ((s.core k).wslot m.slotNo).blocks + 1 ∧
      ((t.core k).wslot m.slotNo).cells = ((s.core k).wslot m.slotNo).cells ++
        (keys.zip vs).filterMap (fun p => p.2.map fun v => (32 * p.1.1 + p.1.2, v)) ∧
      ((t.core k).wslot m.slotNo).st = (if m.rows ≤ 8 * (b + 1) then .ready else .loading)) ∧
  (∀ (s : State) (k : Nat) (part : Option Nat) (cap : Word) (r : Ref), s.atHomeNow k r → r.op = .record (.mxsend cap) 32 →
    let n := cap.toNat / 16 % 64
    let core := 48 * (cap.toNat % 16) + n
    (n < 48 → (s.core core).excluded = false → ∃ t, exec (.memrefArrive k part) s = .next t ∧ t.mxMsgs = s.mxMsgs ++ [{
      core := core, key := cap.toNat / 1024 % 65536, slot := r.slot, gen := r.gen, dst := r.dst, acc := r.id + 1
      tsid := r.tsid, rec_ := s.readWords r.home 4 }]) ∧
    (48 ≤ n → ∃ t, exec (.memrefArrive k part) s = .next t ∧ t.mxMsgs = s.mxMsgs ∧ t.replies = s.replies ++ [{
      slot := r.slot, gen := r.gen, dst := r.dst, value := 2, vec := none, fatal := false, acc := some (r.id + 1) }])) ∧
  (∀ (s : State) (k : Nat) (m : MxMsg), s.mxMsgs[k]? = some m → (s.core m.core).excluded = false →
    let c := s.core m.core
    let x := m.cmd s
    let u : State := { s with mxMsgs := lremove s.mxMsgs k }
    let refused (v : Nat) : Prop :=
      exec (.mxsendReceive k) s = .next (u.replyFor m.slot m.gen m.dst (BitVec.ofNat 64 v) m.acc)
    let good := mxFieldsOk x.opcode x.cmpl x.low = true ∧ (m.rec_.getD 0 0).toNat < 2 ^ 62
    (c.mxkey = 0 ∨ c.mxkey.toNat ≠ m.key → refused 1) ∧
    (c.mxkey ≠ 0 → c.mxkey.toNat = m.key →
      (¬ good → refused 3) ∧ (∀ b d, good → x.detail = some (b, d) → refused (d * 16 + 4)) ∧
      (good → x.detail = none → c.accDrops x = false → c.mxAll.length < 32 →
        ∃ t, exec (.mxsendReceive k) s = .next t ∧ t.mxMsgs = lremove s.mxMsgs k ∧ t.replies = s.replies ∧
          (t.core m.core).mxq ++ (t.core m.core).ldq = (if isLoader x.opcode
            then c.mxq ++ (c.ldq ++ [{ x with no := c.mxNo }]) else (c.mxq ++ [{ x with no := c.mxNo }]) ++ c.ldq)))))

/-! ### Fences, events, task sets and barriers (R335 to R337, R341 to R362) -/

/-- A fence with an empty prior or later set only advances; otherwise, once a fence of remote accesses finds them covered and
fewer than four records are pending, the slot's outstanding accesses of the prior sets become a record that holds its later
instructions of the later sets, or no record when there are none; FENCEX takes the sets from its operand; a record whose accesses
are all performed goes (R335 to R337). -/
def Obligations.FenceRules : Prop :=
  (∀ (i : Instr) (g : Guard) (prior later : BitVec 5) (s u : State),
    (i = .fence g later prior ∧ s.guardTrue g = .ok true ∧ u = s ∨
      ∃ a x, i = .fencex g a ∧ s.operands g [a] [x] u ∧ prior = x.extractLsb' 0 5 ∧ later = (x : Word).extractLsb' 5 5) →
    (prior = 0 ∨ later = 0 → exec i s = .next u.advance) ∧
    (prior ≠ 0 → later ≠ 0 →
      (prior.getLsbD 2 = true → s.me.queued = 0 ∧ s.me.unacked = 0 ∧ s.me.rfst.extractLsb' 32 32 = 0) →
      let live := s.me.fences.filter fun f => s.accs.any fun a => f.ids.contains a.id
      let ids := (s.accs.filter fun a => a.slot == s.cur && decide (a.gen = s.me.gen) &&
        decide (a.sets &&& (prior &&& 0x1B) ≠ 0)).map (·.id)
      (live.length < 4 → exec i s = .next (u.modSlot s.cur fun t => { t with
        fences := if ids = [] then live else live ++ [{ later := later, ids := ids, no := s.serial }] }).advance) ∧
      (4 ≤ live.length → exec i s = s.finish (.error (.wait .other))))) ∧
  (∀ (s : State) (slot k : Nat) (f : FenceRec), (s.slot slot).fences[k]? = some f →
    ((∀ a ∈ s.accs, a.id ∉ f.ids) → exec (.fenceRecordDiscard slot k) s =
      .next (s.modSlot slot fun t => { t with fences := lremove t.fences k })) ∧
    ((∃ a ∈ s.accs, a.id ∈ f.ids) → exec (.fenceRecordDiscard slot k) s = .next s))

/-- EVSET and EVCLR send an update that takes effect after the distance's delay, EVSET as a release; an event name of quires 12 to
14 does nothing; EVWAIT answers 0 once its events are all set and 1 past its deadline; a due update sets or clears its bit, the
clearing ones of a clock first; a waiting leaf whose events are set once the updates of the clock are made is READY (R342, R355,
R356, R358, R359). -/
def Obligations.EventRules : Prop :=
  (∀ (g : Guard) (a : Src) (x : Word) (set : Bool) (s u : State), s.operands g [a] [x] u → s.fencesPending s.cur = false →
    (set = true → s.accsIn s.cur setLSE = []) →
    let own := u.cur / 256 / 4
    let i : Instr := if set then .evset g a else .evclr g a
    let n := x.toNat / 256 % 16
    let q := if n = 15 then own else 12 * (x.toNat / 4096 % 16) + n
    (12 ≤ n → n < 15 → exec i s = .next u.advance) ∧
    (n < 12 ∨ n = 15 → exec i s = .next ({ u with evUpds := u.evUpds ++ [({
      quire := q, bit := x.toNat % 256, set := set, slot := u.cur, gen := u.me.gen
      at_ := u.cyc + (if own = q then 4 else if own / 12 = q / 12 then 20 else 40 + 16 * causeways (own / 12) (q / 12)) } : EvUpd)] }).advance)) ∧
  (∀ (g : Guard) (d : Dst) (a b : Src) (k : BitVec 2) (x y : Word) (s u t : State), s.operands g [a, b] [x, y] u →
    let q := s.quire (s.cur / 256 / 4)
    let es := (List.range (k.toNat + 1)).map fun i => x.toNat / 256 ^ i % 256
    let ends (n : Nat) : Prop :=
      (u.modSlot s.cur fun u => { u with stall := .none }).put d (BitVec.ofNat 64 n) = .ok t → exec (.evwait g d a b k) s = .next t.advance
    (s.me.stall = .none →
      let coming := ∃ w ∈ s.evUpds, w.quire = s.cur / 256 / 4 ∧ s.evArrives w = true
      ((∀ e ∈ es, q.events.getLsbD e = true) → ¬ coming → ends 0) ∧
      ((∃ e ∈ es, q.events.getLsbD e = false) ∨ coming → exec (.evwait g d a b k) s = .next ((s.modSlot s.cur fun u =>
        { u with stall := .evwait (k.toNat + 1) x y none }).modSlot s.cur fun u => { u with wait := .other }))) ∧
    (∀ n v dl st, s.me.stall = .evwait n v dl (some st) → ends st)) ∧
  (∀ (s : State) (k n : Nat) (x dl : Word), (s.slot k).stall = .evwait n x dl none →
    (dl ≠ 0 → dl.toNat ≤ s.cyc → exec (.evwaitDeadline k) s =
      .next (s.modSlot k fun t => { t with stall := .evwait n x dl (some 1) })) ∧
    (dl = 0 ∨ s.cyc < dl.toNat → exec (.evwaitDeadline k) s = .next s)) ∧
  (∀ (s : State) (k : Nat) (v : EvUpd), s.evUpds[k]? = some v → v.bit < 256 →
    (s.cyc < v.at_ → exec (.eventBitUpdate k) s = .next s) ∧
    let cleared := ∃ w ∈ s.evUpds, w.set = false ∧ w.quire = v.quire ∧ w.bit = v.bit ∧ s.evArrives w = true
    (v.set = true → cleared → exec (.eventBitUpdate k) s = .next s) ∧
    (v.at_ ≤ s.cyc → (∀ w ∈ s.evUpds.take k, w.slot ≠ v.slot) → (v.set = true → ¬ cleared) → s.tablesWf = true →
      ∃ t, exec (.eventBitUpdate k) s = .next t ∧ t.evUpds = lremove s.evUpds k ∧ t.mem = s.mem ∧
        ∀ b, b < 256 → (t.quire v.quire).events.getLsbD b =
          if b = v.bit then v.set else (s.quire v.quire).events.getLsbD b)) ∧
  (∀ (s : State) (q k : Nat) (l : Leaf), (s.quire q).leaves[k]? = some l → l.st = .waiting →
    let es := (List.range (min 4 (l.events.toNat / 2 ^ 48 % 8))).map fun i => l.events.toNat / 256 ^ i % 256
    let coming := ∃ w ∈ s.evUpds, w.quire = q ∧ s.evArrives w = true
    ((∃ e ∈ es, (s.quire q).events.getLsbD e = false) ∨ (es ≠ [] ∧ coming) → exec (.leafReady q k) s = .next s) ∧
    ((∀ e ∈ es, (s.quire q).events.getLsbD e = true) → (es = [] ∨ ¬ coming) → exec (.leafReady q k) s =
      .next ({ s with serial := s.serial + 1 }.modLeaf l.no fun l => { l with st := .ready, readyNo := s.serial })))

/-- LAUNCH sends the read of its record; read, it answers 2^63 plus the code of the first failing check of R350 with no set
created, or the new set's depth and TSID, whose set has the record's fields and its launcher's job, level and space; its access names no set of R326, which is log entry 51. TRIGGER, once
released, triggers its task; a set whose tasks have all ended, with no child and nothing owed, retires and its event is set (R341,
R343, R346 to R351, R360, R361). -/
def Obligations.TaskSetRules : Prop :=
  (∀ (g : Guard) (d : Dst) (a : Src) (va : Word) (s u v : State) (h isle : Nat), s.operands g [a] [va] u → localAddr va 64 →
    s.fencesPending s.cur = false → s.eventsDone s.cur = true → d ≠ 0 → u.emptyXj (xIndex u.me.wstate d.toNat) = .ok v →
    v.locate v.cur va.toNat true false = .home h isle →
    exec (.launch g d a) s = .next (v.withRef ⟨g, [a], .x d, 0, fun _ => va, 64, fun _ => .record .launch 64, false, false, 0⟩ [va]
      (.reg (xIndex u.me.wstate d.toNat)) h isle).advance) ∧
  (∀ (s : State) (k : Nat) (part : Option Nat) (r : Ref), s.atHomeNow k r → r.op = .record .launch 64 →
    let u : State := { s with refs := lremove s.refs k }
    let cover := (u.accs.filter fun a => a.slot == r.slot && decide (a.gen = r.gen) && decide (a.id < r.id) &&
      decide (a.sets &&& setLSE ≠ 0)).map (·.id)
    let p := u.launch r.slot cover (s.readWords r.home 8)
    exec (.memrefArrive k part) s = .next ((p.2.perform r.id).reply r.slot r.gen r.dst p.1)) ∧
  (∀ (s : State) (k : Nat) (cover : List Nat) (r : List Word),
    let l := launchRec r
    let me := (s.slot k).tsid.getD 0
    let p := if l.pvalid then l.parent else me
    let depth := (s.tset_ p).depth + 1
    let isles := (List.range 16).filter fun i => l.isles.getLsbD i
    (launchBad r false = true → s.launch k cover r = (BitVec.ofNat 64 (2 ^ 63 + 3), s)) ∧
    (launchBad r false = false → p ≠ me → p ∉ s.ancestors 24 me → s.launch k cover r = (BitVec.ofNat 64 (2 ^ 63 + 3), s)) ∧
    (launchBad r false = false → (p = me ∨ p ∈ s.ancestors 24 me) →
      ((s.tset_ p).limit < depth → s.launch k cover r = (BitVec.ofNat 64 (2 ^ 63 + 2), s)) ∧
      (depth ≤ (s.tset_ p).limit → s.placedCores l.isles = [] → s.launch k cover r = (BitVec.ofNat 64 (2 ^ 63 + 4), s)) ∧
      (depth ≤ (s.tset_ p).limit → s.placedCores l.isles ≠ [] → (s.tset_ p).st ≠ .live →
        s.launch k cover r = (BitVec.ofNat 64 (2 ^ 63 + 5), s)) ∧
      (depth ≤ (s.tset_ p).limit → s.placedCores l.isles ≠ [] → (s.tset_ p).st = .live →
        (s.takeRecs isles = none → s.launch k cover r = (BitVec.ofNat 64 (2 ^ 63 + 1), s)) ∧
        (∀ recs, s.takeRecs isles = some recs →
          let tsid := (recs.map (·.1)).headD 0 * 4096 + (recs.map (·.2)).headD 0
          let t := (s.launch k cover r).2
          let n := t.tset_ tsid
          (s.launch k cover r).1 = BitVec.ofNat 64 (depth * 2 ^ 16 + tsid) ∧ t.mem = s.mem ∧ t.slots = s.slots ∧
          n.st = .live ∧ n.depth = depth ∧ n.parent = some p ∧ n.job = (s.tset_ me).job ∧ n.service = (s.tset_ me).service ∧
          n.space = (s.tset_ p).space ∧ n.tsvec = (s.tset_ p).tsvec ∧ n.entry = l.entry ∧ n.prio = l.prio ∧ n.tasks = l.tasks ∧
          n.args = l.args ∧ n.slots = l.slots ∧ n.isles = l.isles ∧ n.ended = 0 ∧ n.children = 0 ∧
          n.limit = (if l.depth = 0 then (s.tset_ p).limit else min (min 24 l.depth) (s.tset_ p).limit))))) ∧
  (∀ (g : Guard) (s : State) (k : Nat), s.guardTrue g = .ok true → s.fencesPending s.cur = false → s.eventsDone s.cur = true →
    s.accsIn s.cur setLSE = [] → s.me.tsid = some k →
    exec (.trigger g) s = .next (((s.modSet k fun v => { v with everTrig := true }).triggerTask s.cur).checkTriggered k).advance) ∧
  (∀ (s : State) (k : Nat), s.tablesWf = true → s.hasSet k = true → (s.tset_ k).st = .live → (s.tset_ k).allSent = true →
    (s.tset_ k).tasks ≤ (s.tset_ k).ended → (s.tset_ k).children = 0 →
    ((∀ a ∈ s.accs, a.id ∉ (s.tset_ k).owed) → ∃ t, exec (.tasksetRetire k) s = .next t ∧ t.mem = s.mem ∧ t.hasSet k = false ∧
      ((s.tset_ k).evon = true → (s.tset_ k).evDone = false → (s.tset_ k).evBit < 256 →
        (t.quire (s.tset_ k).evQuire).events.getLsbD (s.tset_ k).evBit = true) ∧
      ((s.tset_ k).evon = false ∨ (s.tset_ k).evDone = true →
        t.evUpds = s.evUpds ∧ ∀ q, (t.quire q).events = (s.quire q).events)) ∧
    ((∃ a ∈ s.accs, a.id ∈ (s.tset_ k).owed) → exec (.tasksetRetire k) s = .next s))

/-- BAR answers 3 for a count of 0 or above its scope's, 1 where its context has another count; it arrives once it is released,
and the arrival that completes the count gives every arrived slot the status 0, with which its BAR then completes; a deadline,
once its clock has passed without a release, withdraws the arrival with status 2 (R344, R362). -/
def Obligations.BarrierRules : Prop :=
  (∀ (g : Guard) (d : Dst) (a b : Src) (sc : BarScope) (n : BitVec 4) (x y : Word) (s u t : State), s.operands g [a, b] [x, y] u →
    let count := x.toNat % 2 ^ 32
    let inst := (barInst sc s.cur).1
    let most : Nat := match sc with
      | .lane => 16
      | .core => 255
      | .quire => 1020
      | .isle => 12240
      | .package => 195840
      | .pod => 2 ^ 32 - 1
    let i : Instr := .bar g d a b sc n
    let ends (v : Nat) : Prop :=
      (u.modSlot s.cur fun u => { u with stall := .none }).put d (BitVec.ofNat 64 v) = .ok t → exec i s = .next t.advance
    (∀ dl st, s.me.stall = .bar dl (some st) → ends st) ∧
    (s.me.stall = .none → s.fencesPending s.cur = false → s.guardClear →
      (count = 0 ∨ most < count → ends 3) ∧
      (0 < count → count ≤ most → s.eventsDone s.cur = true → s.accsIn s.cur setLSE = [] →
        (∀ c ∈ s.bars, c.scope = sc → c.inst = inst → c.key = s.barKey sc → c.num = n.toNat →
          s.bars.find? (fun c => c.is sc inst (s.barKey sc) n.toNat) = some c → c.count ≠ count → ends 1) ∧
        (∀ v, s.bars = [] → s.put d 0 = .ok v →
          exec i s = .next ((s.barArrive sc inst (s.barKey sc) n.toNat count y).modSlot s.cur fun u => { u with wait := .other })))) ∧
    (s.running → s.bars = [] →
      (count = 1 → (s.barArrive sc inst (s.barKey sc) n.toNat count y).bars = [] ∧
        (s.barArrive sc inst (s.barKey sc) n.toNat count y).me.stall = .bar y (some 0)) ∧
      (1 < count → (s.barArrive sc inst (s.barKey sc) n.toNat count y).bars = [{
          scope := sc, inst := inst, key := s.barKey sc, num := n.toNat, count := count, arrived := [s.cur] }] ∧
        (s.barArrive sc inst (s.barKey sc) n.toNat count y).me.stall = .bar y none))) ∧
  (∀ (s : State) (sc : BarScope) (inst key num k : Nat) (y dl : Word), k ≠ s.cur → (s.slot k).stall = .bar dl none →
    s.bars = [{ scope := sc, inst := inst, key := key, num := num, count := 2, arrived := [k] }] → s.running →
    let t := s.barArrive sc inst key num 2 y
    t.bars = [] ∧ (t.slot k).stall = .bar dl (some 0) ∧ t.me.stall = .bar y (some 0)) ∧
  (∀ (s : State) (k : Nat) (dl : Word), (s.slot k).stall = .bar dl none →
    (dl ≠ 0 → dl.toNat < s.cyc → ∃ t, exec (.barDeadline k) s = .next t ∧ (t.slot k).stall = .bar dl (some 2) ∧
      t.mem = s.mem ∧ (∀ b ∈ t.bars, k ∉ b.arrived) ∧ s.sameSlotsBut t k) ∧
    (dl = 0 ∨ s.cyc ≤ dl.toNat → exec (.barDeadline k) s = .next s))

/-! ### Code lines, faults and page commands (R34, R35, R386 to R402) -/

/-- A code fetch brings its line from its home into the quire's code buffer, as the most recent, or ends with the access trap
where the page denies it; a line whose check failed is read again and marked bad if it fails again; a walk that finds a leaf fills
the TLBs, and one that faults opens the lowest free fault entry (R34, R35, R386, R388). -/
def Obligations.FetchAndWalk : Prop :=
  (∀ (s : State) (k : Nat) (f : CodeFill), s.codeFills[k]? = some f → f.ended = none → s.lives f.slot f.gen = true →
    let core := f.slot / 256
    let q := core / 4
    let line := f.pc.toNat / 64 * 64
    let u : State := { s with codeFills := lremove s.codeFills k }
    let reach := u.engineReach (some core) (core / 48) q f.space line true false 0 (s.fetchWho f)
    (s.quire q).lineAt f.space line = none →
    (∀ h isle, reach = (.home h isle, u) → (∀ i, i < 8 → s.isBroken (h + 8 * i) 8 = false) →
      ∃ t, exec (.codeLineFill k) s = .next t ∧ t.codeFills = lremove s.codeFills k ∧ t.mem = s.mem ∧
        (t.quire q).lineAt f.space line = some {
          space := f.space, line := line, bytes := BitVec.ofNat 512 (s.readNat h 64), bad := false, again := [] }) ∧
    (reach = (.deny, u) → exec (.codeLineFill k) s =
      .next { s with codeFills := lremove s.codeFills k ++ [{ f with ended := some 13 }] })) ∧
  (∀ (s : State) (q k h : Nat) (l : CodeLine), (s.quire q).code[k]? = some l → l.again ≠ [] → s.lineHome q l.space l.line = some h →
    let m : CodeLine := { l with bytes := BitVec.ofNat 512 (s.readNat h 64), again := [] }
    exec (.codeRefetch q k) s = .next (s.modQuire q fun c => { c with code := c.code.map fun x =>
      if x.space = l.space ∧ x.line = l.line then { m with bad := !(m.passes (m.issued (l.again.headD 0)) && !s.lineBroken h) } else x })) ∧
  (∀ (s : State) (k : Nat) (w : Walk), s.walks[k]? = some w →
    let isle := w.slot / 256 / 48
    let u : State := { s with walks := lremove s.walks k }
    tlbFind (s.isle isle).tlb w.space w.va = none → (s.isle isle).findFault w.space (pageOf w.va) = none →
    (∀ e, s.walk w.space w.va = .leaf e → exec (.walkComplete k) s = .next (u.fillTlbs (w.slot / 256) e)) ∧
    (∀ bad n, s.walk w.space w.va = .fault bad none → n < 256 → (∀ f ∈ (s.isle isle).faults, f.1 ≠ n) →
      (∀ m, m < n → ∃ f ∈ (s.isle isle).faults, f.1 = m) →
      ∃ t, exec (.walkComplete k) s = .next t ∧ t.mem = s.mem ∧ t.walks = lremove s.walks k ∧
        t.fault isle n = { queued := false, seq := 0, space := w.space, page := pageOf w.va, bad := bad, origin := 0
                           va := BitVec.ofNat 64 w.va, who := whoOf ((s.slot w.slot).tsid.getD 0) w.slot w.gen, cyc := BitVec.ofNat 64 s.cyc
                           no := s.serial + 1, parked := [] }) ∧
    (∀ bad x, s.walk w.space w.va = .fault bad x → (∀ n, n < 256 → ∃ f ∈ (s.isle isle).faults, f.1 = n) →
      exec (.walkComplete k) s = .next s))

/-- The oldest OPEN entry is written to the ring: words 1 to 3 in turn with STEF semantics, each once it is empty, behind those that wait on it, then
word 0; the entry is QUEUED under the sequence, which advances with the ring's index; without a ring it ends as by FATAL. REPLAY and
FATAL answer 2^63 + 1 to a handle that names no QUEUED entry, and else free the entry and answer how many references it held; a
released reference translates again from a walk, and one whose page denies it ends as by FATAL (R388, R391 to R395).

A page command with a bad record ends with code 1; one whose pages have been moved, or whose first failing page stopped it, ends
with its status, which is replied and stored at its completion word; one that must wait leaves memory and flash as they were. A byte
of a page that goes out may be read before the completion, and goes out as it stood then (R340, R398 to R402). -/
def Obligations.FaultsAndPages : Prop :=
  ((∀ (s : State) (isle idx : Nat) (f : FaultEnt), isle < 16 → firstOpen (s.isle isle).faults = some (idx, f) → s.fault isle idx = f →
    let i := s.isle isle
    let a := (i.fqbase.toNat + 32 * i.fqnext) % 2 ^ 48
    (i.fqbase = 0 → exec (.faultRingWrite isle) s = .next (s.serveFault isle idx true).2) ∧
    (i.fqbase ≠ 0 → s.ringMoored isle = true → exec (.faultRingWrite isle) s = .next s) ∧
    (i.fqbase ≠ 0 → i.fqstep < 3 → s.fBit (a + 8 * (i.fqstep + 1)) = true → exec (.faultRingWrite isle) s = .next s) ∧
    (∀ m : Moor, i.fqbase ≠ 0 → i.fqstep = 0 → s.moors = [m] → m.home / 8 = (a + 8) / 8 → m.slot ≠ noSlot + isle → s.fBit (a + 8) = false →
      s.isBroken (a + 8) 8 = false → f.queued = false →
      ∃ t, exec (.faultRingWrite isle) s = .next t ∧ t.mem = s.mem ∧ (t.fault isle idx).queued = false ∧ (t.isle isle).fqstep = 1 ∧
        t.moors = [m, {
          isle := isle, home := a + 8, va := 0, kind := .stef, slot := noSlot + isle, gen := 0, reg := 0, num := 0, acc := 2 ^ 64
          data := f.va &&& 0x00FFFFFFFFFFFFFF, deadline := 0, area := none }]) ∧
    (i.fqbase ≠ 0 → i.fqstep = 0 → s.tablesWf = true → s.moors = [] → f.space < 65536 → f.origin < 4 →
      (∀ o ∈ [8, 16, 24], s.fBit (a + o) = false ∧ s.isBroken (a + o) 8 = false) → ∃ t, exec (.faultRingWrite isle) s = .next t ∧
        t.readWord a = BitVec.ofNat 64 (i.fseq % 2 ^ 16 * 2 ^ 48 + isle * 2 ^ 44 + idx % 256 * 2 ^ 32 + f.space * 2 ^ 16 +
          (if f.bad then 2 ^ 12 else 0) + f.origin * 2 ^ 10 + f.acc.toNat * 2 ^ 8 + min f.parked.length 255) ∧
        t.readWord (a + 8) = f.va &&& 0x00FFFFFFFFFFFFFF ∧ t.readWord (a + 16) = f.who ∧ t.readWord (a + 24) = f.cyc ∧
        (∀ o ∈ [0, 8, 16, 24], t.fBit (a + o) = true) ∧
        (∀ b, b < a ∨ a + 32 ≤ b → t.byte b = s.byte b) ∧
        (t.isle isle).fqnext = (i.fqnext + 1) % 2 ^ (4 + i.fqsize) ∧ (t.isle isle).fseq = (i.fseq + 1) % 2 ^ 16 ∧
        t.hirqs = (if i.fqhirq then s.hirqs + 1 else s.hirqs))) ∧
  (∀ (s : State) (isle : Nat), (∀ e ∈ (s.isle isle).faults, e.2.queued = true) → exec (.faultRingWrite isle) s = .next s) ∧
  (∀ (g : Guard) (d : Dst) (a : Src) (x : Word) (s u v : State), s.operands g [a] [x] u → (s.slotSet s.cur).service = true →
    u.emptyXj (xIndex u.me.wstate d.toNat) = .ok v →
    let j := RetDst.reg (xIndex u.me.wstate d.toNat)
    (u.handleEntry x = none →
      exec (.replay g d a) s = .next (v.reply v.cur v.me.gen j 0x8000000000000001).advance ∧
      exec (.fatal g d a) s = .next (v.reply v.cur v.me.gen j 0x8000000000000001).advance) ∧
    (∀ isle idx, u.handleEntry x = some (isle, idx) → s.accsIn s.cur setS = [] →
      let n : Word := BitVec.ofNat 64 (v.fault isle idx).parked.length
      exec (.replay g d a) s = .next ((v.serveFault isle idx false).2.reply s.cur s.me.gen j n).advance ∧
      exec (.fatal g d a) s = .next ((v.serveFault isle idx true).2.reply s.cur s.me.gen j n).advance)) ∧
  (∀ (s : State) (h : Word) (isle idx : Nat), s.handleEntry h = some (isle, idx) →
    isle = h.toNat / 256 % 16 ∧ idx = h.toNat % 256 ∧ (s.fault isle idx).queued = true ∧
      (s.fault isle idx).seq = h.toNat / 65536 % 65536) ∧
  (∀ (s : State) (isle idx : Nat) (b : Bool), (s.fault isle idx).parked = [] → s.remRefs = [] →
    s.serveFault isle idx b = (0, s.setFault isle idx FaultEnt.init)) ∧
  (∀ (s : State) (isle idx : Nat) (f : CodeFill), (s.fault isle idx).parked = [⟨.fetch f, 1⟩] → s.remRefs = [] →
    let e := s.fault isle idx
    let u := s.setFault isle idx FaultEnt.init
    s.serveFault isle idx true = (1, { u with codeFills := u.codeFills ++ [{ f with ended := some 25 }] }) ∧
    ∀ (l : Loc) (t : State), u.walkReach (some (f.slot / 256)) isle (f.slot / 256 / 4) e.space (e.page * 65536 + e.va.toNat % 65536)
        true false 0 (u.fetchWho f) = (l, t) →
      (∀ h n, l = .home h n → s.serveFault isle idx false = (1, { t with codeFills := t.codeFills ++ [f] })) ∧
      (l = .deny → s.serveFault isle idx false = (1, { t with codeFills := t.codeFills ++ [{ f with ended := some 25 }] })) ∧
      (∀ n m, l = .fault n m → s.serveFault isle idx false = (1, t.park n m (.fetch f) true false)))) ∧
  (∀ (s : State) (k : Nat) (far : FarEnd) (p : PgCmd), s.pgq[k]? = some p →
    let u : State := { s with pgq := lremove s.pgq k }
    (p.bad = true → p.w 5 = 0 → exec (.pageCommandComplete k far) s = .next ((u.perform p.acc).reply p.slot p.gen p.dst 1)) ∧
    (∀ (v : Word) (w : State), p.bad = false → p.w 5 = 0 → u.pgPages p far false 0 0 p.pages = (some v, w) → v.toNat % 256 ≠ 0 →
      exec (.pageCommandComplete k far) s = .next ((w.perform p.acc).reply p.slot p.gen p.dst v)) ∧
    (∀ (v : Word) (w : State), p.bad = false → p.w 5 = 0 → u.pgPages p far false 0 0 p.pages = (some v, w) → v.toNat % 256 = 0 →
      (p.rec_.getD 0 0).getLsbD 8 = false → (p.rec_.getD 0 0).getLsbD 9 = false →
      exec (.pageCommandComplete k far) s = .next ((w.perform p.acc).reply p.slot p.gen p.dst v)) ∧
    (∀ w : State, p.bad = false → u.pgPages p far false 0 0 p.pages = (none, w) →
      ∃ t, exec (.pageCommandComplete k far) s = .next t ∧ t.mem = s.mem ∧ t.flash = s.flash ∧ t.pgq = s.pgq) ∧
    (∀ e : TlbEntry, p.bad = true → p.w 5 ≠ 0 → s.walk p.space (p.w 5) = .leaf e → e.w = true → s.tablesWf = true →
      s.moors = [] →
      ∃ t, exec (.pageCommandComplete k far) s = .next t ∧ t.readWord (e.pa + (p.w 5 - e.va)) = 1 ∧
        t.fBit (e.pa + (p.w 5 - e.va)) = true) ∧
    (∀ home, s.phase = .up → p.isIn = false → p.seen.lookup home = none → s.move (.pageReads k home) =
      .next { s with pgq := s.pgq.set k { p with seen := (home, s.byte home) :: p.seen } })) ∧
  (∀ (seen : List (Nat × Byte)) (a i : Nat) (bs : List Byte), i < bs.length →
    (bytesSeen seen a bs)[i]? = some ((seen.lookup (a + i)).getD (bs.getD i 0)))

/-! ### System instructions and registers (R35, R83, R163, R171 to R174, R215, R370 to R378, R387, R391, R396, R398) -/

/-- At task level each of these instructions raises the privilege trap and has no effect (R371). -/
def Obligations.PrivilegeTraps : Prop :=
  ∀ (i : Instr) (g : Guard) (v : Word) (s : State), serviceOnly i = some (g, v) → s.guardTrue g = .ok true →
    (s.slotSet s.cur).service = false → exec i s = s.finish (.error (.trap 5 v))

/-- MTS to a register of slot or set scope writes its writable bits and nothing else; a number of a read-only register leaves the
state as it is (R7, R83, R87, R165, R167, R249, R258, R372, R375, R376).

MTS at service level to a register of core, isle or package scope writes it under its own acceptance rules; at task level a
write that R372 marks read-only is ignored (R163, R171, R173, R174, R215, R234, R372, R375, R381, R391).

The acceptance rules themselves: the overflow area's registers change only while it holds no entry; the hash masks only before
`lock`; `lock` needs independent masks and else sets `bad`; ABLIM, GAGE and MOORLIM clamp; FQBASE and the ring size change only
while no fault entry is live; CBINV empties the code buffers of its isle (R83, R163, R171, R173, R174, R215, R391). -/
def Obligations.RegisterWrites : Prop :=
  (∀ (g : Guard) (a : Src) (x : Word) (s u : State), s.operands g [a] [x] u →
    let w (r : BitVec 12) (f : Slot → Slot) : Prop := exec (.mts g a r) s = .next (u.modSlot u.cur f).advance
    w 0x010 (fun t => { t with wstate := if 8 < x.toNat % 16 ∨ 6 < x.toNat / 16 % 16 then t.wstate else x &&& 0x3FFFFFF }) ∧
    w 0x011 (fun t => { t with spillp := x }) ∧ w 0x012 (fun t => { t with waitlim := x &&& 0xFFFFFFFF }) ∧
    w 0x013 (fun t => { t with deadmode := x &&& 1 }) ∧ w 0x014 (fun t => { t with wrec := x }) ∧
    w 0x015 (fun t => { t with grec := x &&& 0x0000FFFF0FFFFFFF }) ∧ w 0x016 (fun t => { t with tctl := x &&& 1 }) ∧
    w 0x020 (fun t => { t with epc := x }) ∧ w 0x021 (fun t => { t with ecause := x &&& 0x3F }) ∧
    w 0x022 (fun t => { t with eval := x }) ∧
    (∀ n : Nat, n < 4 → exec (.mts g a (BitVec.ofNat 12 (0x024 + n))) s =
      .next (u.modSlot u.cur fun t => { t with tsave := t.tsave.set n x }).advance) ∧
    (∀ k, u.me.tsid = some k → exec (.mts g a 0x018) s = .next (u.modSet k fun t => { t with tsvec := x }).advance) ∧
    (∀ r ∈ [0x000, 0x001, 0x017, 0x019, 0x023], exec (.mts g a r) s = .next u.advance)) ∧
  (∀ (g : Guard) (a : Src) (x : Word) (s u : State), s.operands g [a] [x] u →
    let core := u.cur / 256
    let isle := core / 48
    let w (r : BitVec 12) (t : State) : Prop := exec (.mts g a r) s = .next t.advance
    ((s.slotSet s.cur).service = true → (u.slotSet u.cur).service = true →
      w 0x002 { u with sptbase := x &&& 0x0000FFFFFFFFF000 } ∧
      w 0x040 (u.modCore core fun c => { c with strayDeliver := x.getLsbD 0 }) ∧
      w 0x080 (u.writeMoor isle false x) ∧ w 0x081 (u.writeMoor isle true x) ∧
      w 0x082 (u.modIsle isle (·.writeAblim x)) ∧
      w 0x083 (if x.getLsbD 0 then u.modIsle isle (·.writeLock) else u) ∧
      (∀ n : Nat, n < 13 → w (BitVec.ofNat 12 (0x084 + n)) (u.modIsle isle (·.writeHash n x))) ∧
      w 0x091 (u.modIsle isle (·.writeGage x)) ∧ w 0x092 (u.modIsle isle fun i => { i with pdto := x.toNat % 2 ^ 32 }) ∧
      w 0x094 (u.modIsle isle (·.writeFqbase x)) ∧ w 0x095 (u.modIsle isle (·.writeFqctl x)) ∧
      (x.getLsbD 0 = false → w 0x096 u) ∧
      (x.getLsbD 0 = true → s.accsIn s.cur setS = [] → w 0x096 (u.dropCode isle))) ∧
    ((s.slotSet s.cur).service = false → (u.slotSet u.cur).service = false →
      ∀ r ∈ [0x040, 0x082, 0x083, 0x091, 0x092, 0x093], w r u)) ∧
  (∀ (s : State) (n : Nat) (v : Word), n < 16 →
    ((∀ m ∈ s.moors, m.isle = n → m.area = none) →
      exec (.moorbaseWrite n false v) s = .next (s.modIsle n fun i => { i with moorbase := v &&& 0x0000FFFFFFFFF000 }) ∧
      exec (.moorbaseWrite n true v) s = .next (s.modIsle n fun i => { i with moorlim := BitVec.ofNat 64 (min (v.toNat % 2 ^ 21) 0x100000) })) ∧
    (∀ (b : Bool) (m : Moor), m ∈ s.moors → m.isle = n → m.area ≠ none → exec (.moorbaseWrite n b v) s = .next s) ∧
    ((s.isle n).lock = false → independent [] (((s.isle n).ixh ++ (s.isle n).bxh).map (·.toNat)) = true →
      exec (.memcfgLock n) s = .next (s.modIsle n fun i => { i with lock := true })) ∧
    ((s.isle n).lock = false → independent [] (((s.isle n).ixh ++ (s.isle n).bxh).map (·.toNat)) = false →
      exec (.memcfgLock n) s = .next (s.modIsle n fun i => { i with bad := true })) ∧
    ((s.isle n).lock = false → ∀ k, k < 4 → exec (.hashMaskWrite n k v) s =
      .next (s.modIsle n fun i => { i with ixh := i.ixh.set k (v &&& 0x0000FFFFFFFFFF00) })) ∧
    ((s.isle n).lock = false → ∀ k, k < 9 → exec (.hashMaskWrite n (4 + k) v) s =
      .next (s.modIsle n fun i => { i with bxh := i.bxh.set k (v &&& 0x0000FFFFFFFFFF00) })) ∧
    exec (.ablimWrite n v) s = .next (s.modIsle n fun i => { i with ablimit := max 16 (min (v.toNat % 1024) 512) }) ∧
    exec (.gageWrite n v) s = .next (s.modIsle n fun i => { i with gage := max 16 (min (v.toNat % 131072) 65536) }) ∧
    ((s.isle n).faults = [] →
      exec (.fqbaseWrite n v) s = .next (s.modIsle n fun i => { i with fqbase := v &&& 0x0000FFFFFFFFF000, fqnext := 0 }) ∧
      exec (.fqctlWrite n v) s = .next (s.modIsle n fun i =>
        { i with fqhirq := v.getLsbD 8, fqsize := min 8 (v.toNat % 16), fqnext := 0 })) ∧
    (∀ k, (s.slot k).st ≠ .free → exec (.wstateWrite k v) s = .next (s.modSlot k fun t =>
      { t with wstate := if 8 < v.toNat % 16 ∨ 6 < v.toNat / 16 % 16 then t.wstate else v &&& 0x3FFFFFF })) ∧
    (∃ t, exec (.cbinv n) s = .next t ∧ (∀ q, q / 12 ≠ n → t.quire q = s.quire q) ∧ { t with quires := s.quires } = s ∧
      (s.tablesWf = true → ∀ q, q / 12 = n → (t.quire q).code = [])))

/-- At service level TLBINV removes the translations of a page, a space or all from every TLB once the slot's stores are performed;
ABORTSET answers 0 and terminates the set, 1 for an unknown TSID, 2 for a set that is being terminated or pre-empted, 3 for the issuing
slot's own set and for an ancestor of it; PGCMD sends the read of its record
(R387, R396, R398). -/
def Obligations.ServiceOperations : Prop :=
  ∀ (g : Guard) (s : State), (s.slotSet s.cur).service = true →
    (s.guardTrue g = .ok true → s.accsIn s.cur setS = [] → exec (.tlbinvAll g) s = .next (s.dropTlbs fun _ => true).advance) ∧
    (∀ (a : Src) (x : Word) (u : State), s.operands g [a] [x] u → s.accsIn s.cur setS = [] →
      exec (.tlbinvSpace g a) s = .next (u.dropTlbs fun t => t.space == x.toNat % 65536).advance) ∧
    (∀ (a b : Src) (x y : Word) (u : State), s.operands g [a, b] [x, y] u → s.accsIn s.cur setS = [] →
      exec (.tlbinvPage g a b) s = .next (u.dropTlbs fun t => t.covers (x.toNat % 65536) y.toNat).advance) ∧
    (∀ (d : Dst) (a b : Src) (x y : Word) (u v : State), s.operands g [a, b] [x, y] u →
      let j := xIndex u.me.wstate d.toNat
      let n := x.toNat % 65536
      u.emptyXj j = .ok v →
      (v.hasSet n = false →
        exec (.abortset g d a b) s = .next (v.reply v.cur v.me.gen (.reg j) 1).advance) ∧
      (v.hasSet n = true → (v.tset_ n).st = .terminating ∨ (v.tset_ n).st = .stopping ∨ (v.tset_ n).preempt ≠ none →
        exec (.abortset g d a b) s = .next (v.reply v.cur v.me.gen (.reg j) 2).advance) ∧
      (∀ m, v.hasSet n = true → (v.tset_ n).st = .live → (v.tset_ n).preempt = none → u.me.tsid = some m → m = n ∨ n ∈ v.ancestors 24 m →
        exec (.abortset g d a b) s = .next (v.reply v.cur v.me.gen (.reg j) 3).advance) ∧
      (v.hasSet n = true → (v.tset_ n).st = .live → (v.tset_ n).preempt = none →
        (∀ m, u.me.tsid = some m → m ≠ n ∧ n ∉ v.ancestors 24 m) →
        exec (.abortset g d a b) s =
          .next ((v.endSet n y).reply (v.endSet n y).cur (v.endSet n y).me.gen (.reg j) 0).advance)) ∧
    (∀ (d : Dst) (a : Src) (x : Word) (u v t : State), s.operands g [a] [x] u → s.fenceHolds s.cur setG = false →
      x.toNat < 2 ^ 56 → isGlobal x = false → x.toNat % 64 = 0 → s.pgq.length < 64 →
      u.emptyXj (xIndex u.me.wstate d.toNat) = .ok v →
      v.sendRef setG x (.reg (xIndex u.me.wstate d.toNat)) (.record .pgcmd 64) false = .ok t →
      exec (.pgcmd g d a) s = .next t.advance)

/-! ### Launch ports (R74, R350, R364, R365, R368, R396, R413, R414) -/

/-- A launch and a ferry launch of a free port are journalled and end with their LAUNCH status in word 7, bit 63 set; a launch
that passes every check creates the set. A reserved operation ends with status 0xFF, a port that is not free takes no command, and
while a checkpoint runs a command waits (R74, R350, R413 to R415; what a port does with a command while one is under way is log
entry 9).

TERMINATE acts as ABORTSET and RESUME restores a folded set: status 4 for a set that is not folded, 3 for a chain that cannot be
read, 5 for a core that has been excluded, and 0 once restored; what it claims is waited for (R368, R396, R413; the wait is log
entry 9). -/
def Obligations.PortCommands : Prop :=
  ((∀ (s : State) (port : Nat) (c : PortCmd) (ferry : Bool), s.portFree port = true → s.checkpointing = none →
    portOp c = (if ferry then 5 else 0) →
    let i : Instr := if ferry then .ferryLaunch port c else .launchPortLaunch port c
    let u := (s.writePort port c).journalAdd 1 port 0
    let ends (n : Nat) : Prop := exec i s = .next (u.portEnd port u.jseq (BitVec.ofNat 64 n))
    (∀ b, u.portRecord c.w1 = .error b → exec i s = .next ((u.recordWalk b).portEnd port u.jseq 0x8000000000000003)) ∧
    (∀ r, u.portRecord c.w1 = .ok r →
      let l := launchRec r
      let cores := u.placedCores l.isles
      (launchBad r ferry = true ∨ l.pvalid = true ∨ l.evQuire = 15 → ends (2 ^ 63 + 3)) ∧
      (launchBad r ferry = false → l.pvalid = false → l.evQuire ≠ 15 →
        (cores = [] ∨ (ferry = true ∧ ∃ k ∈ cores, (u.slot (256 * k)).st ≠ .free) → ends (2 ^ 63 + 4)) ∧
        (cores ≠ [] → (ferry = true → ∀ k ∈ cores, (u.slot (256 * k)).st = .free) →
          (u.takeRecs ((List.range 16).filter fun i => l.isles.getLsbD i) = none → ends (2 ^ 63 + 1)) ∧
          (∀ recs, u.takeRecs ((List.range 16).filter fun i => l.isles.getLsbD i) = some recs →
            let tsid := (recs.map (·.1)).headD 0 * 4096 + (recs.map (·.2)).headD 0
            ∃ t, exec i s = .next t ∧ t.mem = s.mem ∧
              tget 0 t.ports (8 * port + 7) = (0x8000000000000000 ||| BitVec.ofNat 64 (2 ^ 16 + tsid)) ∧
              let n := t.tset_ tsid
              n.st = .live ∧ n.depth = 1 ∧ n.parent = none ∧ n.job = c.w0.toNat / 2 ^ 16 % 2 ^ 16 ∧
              n.space = c.w0.toNat / 2 ^ 32 % 2 ^ 16 ∧ n.service = (ferry || c.w0.getLsbD 4) ∧ n.entry = l.entry ∧
              n.args = l.args ∧ n.isles = l.isles ∧ n.limit = (if l.depth = 0 then 24 else min 24 l.depth) ∧
              n.tasks = (if ferry then cores.length else l.tasks) ∧ n.slots = (if ferry then 256 else l.slots) ∧
              (ferry = false → n.prio = l.prio ∧ t.slots = s.slots) ∧
              (ferry = true → n.prio = 3 ∧ ∀ k ∈ cores, (t.slot (256 * k)).tsid = some tsid ∧
                (t.slot (256 * k)).pc = l.entry)))))) ∧
  (∀ (s : State) (port : Nat) (c : PortCmd), s.portFree port = true → s.checkpointing = none → 6 ≤ portOp c →
    ∃ t, exec (.launchPortLaunch port c) s = .next t ∧ tget 0 t.ports (8 * port + 7) = 0x80000000000000FF ∧
      { t with ports := s.ports } = s) ∧
  (∀ (s : State) (port : Nat) (c : PortCmd), s.portFree port = false →
    (∀ i ∈ ([.launchPortLaunch port c, .ferryLaunch port c, .snap port c, .evict port c, .terminate port c] : List Instr),
      exec i s = .next s) ∧
    ((∀ p ∈ s.portWait, p.1 = port → p.2.1 ≠ c) → exec (.resume port c) s = .next s)) ∧
  (∀ (s : State) (port : Nat) (c : PortCmd), s.portFree port = true → s.checkpointing.isSome = true →
    let t : State := { s.writePort port c with portHeld := s.portHeld ++ [(port, c)] }
    (portOp c = 0 → exec (.launchPortLaunch port c) s = .next t) ∧ (portOp c = 5 → exec (.ferryLaunch port c) s = .next t) ∧
    (portOp c = 1 → exec (.snap port c) s = .next t) ∧ (portOp c = 2 → exec (.evict port c) s = .next t) ∧
    (portOp c = 3 → exec (.resume port c) s = .next t) ∧
    (portOp c = 4 → exec (.terminate port c) s = .next t)) ∧
  (∀ (s : State) (port seq : Nat) (st : Word),
    tget 0 (s.portEnd port seq st).ports (8 * port + 7) = (0x8000000000000000 ||| st) ∧
    (∀ e, e ∈ (s.portEnd port seq st).journal ↔
      ∃ x ∈ s.journal, e = (if x.seq = seq then { x with status := st } else x)) ∧
    { s.portEnd port seq st with ports := s.ports, journal := s.journal } = s) ∧
  (∀ (s : State) (kind what : Nat) (st : Word),
    (s.journalAdd kind what st).journal.getLast? = some {
      seq := s.jseq + 1, kind := kind, what := what, cyc := BitVec.ofNat 64 s.cyc, status := st } ∧
    (s.journal.length ≤ 4096 → (s.journalAdd kind what st).journal.length = min 4096 (s.journal.length + 1)) ∧
    (s.journalAdd kind what st).jseq = s.jseq + 1)) ∧
  ((∀ (s : State) (port : Nat) (c : PortCmd), s.portFree port = true → s.checkpointing = none → portOp c = 4 →
    let tsid := c.w1.toNat % 2 ^ 16
    let u := (s.writePort port c).journalAdd 5 tsid 0
    let busy := (s.tset_ tsid).st = .terminating ∨ (s.tset_ tsid).st = .stopping ∨ (s.tset_ tsid).preempt ≠ none
    (s.hasSet tsid = false → exec (.terminate port c) s = .next (u.portEnd port u.jseq 1)) ∧
    (s.hasSet tsid = true → busy → exec (.terminate port c) s = .next (u.portEnd port u.jseq 2)) ∧
    (s.hasSet tsid = true → ¬ busy → exec (.terminate port c) s = .next ((u.endSet tsid c.w2).portEnd port u.jseq 0))) ∧
  (∀ (s : State) (port : Nat) (c : PortCmd), s.checkpointing = none → portOp c = 3 →
    let tsid := c.w1.toNat % 2 ^ 16
    let fresh := (s.writePort port c).journalAdd 4 tsid 0
    let later (seq : Nat) : State := { s with portWait := s.portWait.filter (· ≠ (port, c, seq)) }
    ∀ u wait seq, (s.portFree port = true ∧ u = fresh ∧ seq = fresh.jseq ∧
        wait = ({ fresh with portWait := s.portWait ++ [(port, c, seq)] } : State)) ∨
      (s.phase = .up ∧ s.portWait.find? (fun p => p.1 == port && p.2.1 == c) = some (port, c, seq) ∧ u = later seq ∧ wait = s) →
    let folded := s.hasSet tsid = true ∧ (s.tset_ tsid).st = .folded
    (¬ folded → exec (.resume port c) s = .next (u.portEnd port seq 4)) ∧
    (∀ b, folded → u.readChain tsid 16 c.w2.toNat = .error b →
      exec (.resume port c) s = .next ((u.recordWalk b).portEnd port seq 3)) ∧
    (∀ i chain, folded → u.readChain tsid 16 c.w2.toNat = .ok (i, chain) →
      ((∃ k ∈ i.coreList, u.placeable k = false) → exec (.resume port c) s = .next (u.portEnd port seq 5)) ∧
      ((∀ k ∈ i.coreList, u.placeable k = true) →
        (u.claimable i = false ∨ u.claimSlots (s.tset_ tsid).ferry i.threads [] = none → exec (.resume port c) s = .next wait) ∧
        (∀ ks, u.claimable i = true → u.claimSlots (s.tset_ tsid).ferry i.threads [] = some ks →
          exec (.resume port c) s = .next ((u.restoreSet tsid i ks chain).portEnd port seq 0))))))

/-- SNAP and EVICT: status 4 for a set that is unknown, not live or already being pre-empted, 3 for a base that is not its latest
image; else the set stops. Once it has drained, the image is written, or status 2 gives the length it needs; a SNAP goes on and an
EVICT leaves the set folded; a deadline that passes first gives status 1 and the slots go on (R364, R365). -/
def Obligations.Preemption : Prop :=
  (∀ (s : State) (port : Nat) (c : PortCmd) (evict : Bool), s.portFree port = true → s.checkpointing = none →
    portOp c = (if evict then 2 else 1) →
    let i : Instr := if evict then .evict port c else .snap port c
    let kind := if evict then 3 else 2
    let tsid := c.w1.toNat % 2 ^ 16
    let u := (s.writePort port c).journalAdd kind tsid 0
    let ready := s.hasSet tsid = true ∧ (s.tset_ tsid).st = .live ∧ (s.tset_ tsid).preempt = none
    let based := c.w4 = 0 ∨ ((s.tset_ tsid).images.getLast? = some c.w4 ∧ (s.tset_ tsid).images.length < 16)
    (¬ ready → exec i s = .next (u.portEnd port u.jseq 4)) ∧
    (ready → ¬ based → exec i s = .next (u.portEnd port u.jseq 3)) ∧
    (ready → based →
      let p : Preempt := { port := port, evict := evict, image := c.w2, len := c.w3, base := c.w4, deadline := c.w5, seq := u.jseq }
      exec i s = .next ((u.modSet tsid fun t => { t with st := .stopping, preempt := some p }).stopSet tsid))) ∧
  (∀ (s : State) (tsid : Nat) (p : Preempt), (s.tset_ tsid).preempt = some p →
    let u := s.stopSet tsid
    let ws := u.imageWords tsid p.evict p.base (u.baseTags p.base)
    let fits := p.image.toNat % 4096 = 0 ∧ p.image.toNat < 2 ^ 55 ∧ inWindow p.image.toNat = false ∧ 8 * ws.length ≤ p.len.toNat
    let out := State.imgWrite p.image.toNat (ws.flatMap fun w => bytesOf 8 w.toNat) (8 * ws.length / 4096 + 1) u
    (u.drained tsid p.evict = false → exec (.preemptDrainEnd tsid) s = .next u) ∧
    (∀ b, u.drained tsid p.evict = true → ¬ fits ∧ b = none ∨ fits ∧ out = .error b → exec (.preemptDrainEnd tsid) s =
      .next (((u.recordWalk b).setGoesOn tsid).portEnd p.port p.seq (BitVec.ofNat 64 (2 + 8 * ws.length * 2 ^ 8)))) ∧
    (∀ w, u.drained tsid p.evict = true → fits → out = .ok w → ∃ t, exec (.preemptDrainEnd tsid) s = .next t ∧
      tget 0 t.ports (8 * p.port + 7) = 0x8000000000000000 ∧ (t.tset_ tsid).preempt = none ∧
      (t.tset_ tsid).st = (if p.evict then .folded else .live) ∧
      (t.tset_ tsid).images = (if p.base = 0 then [p.image] else (w.tset_ tsid).images ++ [p.image])) ∧
    (p.deadline ≠ 0 → p.deadline.toNat ≤ s.cyc → exec (.preemptDeadline tsid) s =
      .next ((s.setGoesOn tsid).portEnd p.port p.seq 1)) ∧
    (p.deadline = 0 ∨ s.cyc < p.deadline.toNat → exec (.preemptDeadline tsid) s = .next s)) ∧
  (∀ (s : State) (tsid : Nat), (s.tset_ tsid).preempt = none →
    exec (.preemptDrainEnd tsid) s = .next s ∧ exec (.preemptDeadline tsid) s = .next s) ∧
  (∀ (s : State) (k : Nat), isClosing (s.slot k).st = true → s.stopSlot k = s) ∧
  (∀ (s : State) (k : Nat), isClosing (s.slot k).st = false → (s.slot k).finishing = false → (s.slot k).st ≠ .free →
    ((s.stopSlot k).slot k).st = .closing .preempt) ∧
  (∀ (s : State) (k : Nat), isClosing (s.slot k).st = false → (s.slot k).inh = true → ((s.stopSlot k).slot k).stopped = true ∧
    (s.stopSlot k).moors = s.moors ∧ (s.stopSlot k).bars = s.bars ∧ s.sameSlotsBut (s.stopSlot k) k)

/-! ### The device (R406 to R418) -/

/-- A start leaves everything at its reset value but flash, and but the journal, the package's number and the excluded cores for
RESET; it writes the progress record and counts itself. With nothing failing and an accepted image in each slot A, every step ends
done, the images are measured and the device is up; where step 0 failed on the previous start or fails now, or no slot holds an
accepted image for step 1, the device halts. A start that succeeds excludes exactly the cores that fail their test or lie in an
isle left out. An image is accepted whose keys have the fused hashes, whose signatures verify and whose version is not below the
fused counter (R8, R406 to R410, R414; that a start is one step of the machine is log entry 10). -/
def Obligations.DeviceStarts : Prop :=
  (∀ (b : BootFinds) (s : State), ∃ t, exec (.powerUp b) s = .next t ∧ (b.tables = [] → t.mem = []) ∧ t.slots = [] ∧ t.sets = [] ∧
    t.journal = [] ∧ t.jseq = 0 ∧ t.flash = s.flash ∧ t.zid = (if b.stepping = 1 then 0x4A501611 else 0x4A501610) ∧
    t.fpkg = State.reset.fpkg) ∧
  (∀ (b : BootFinds) (s : State), ∃ t, exec (.reset b) s = .next t ∧ (b.tables = [] → t.mem = []) ∧ t.slots = [] ∧ t.sets = [] ∧
    t.journal.length = s.journal.length ∧ t.jseq = s.jseq ∧ t.flash = s.flash ∧ t.fpkg = s.fpkg ∧
    t.zid = (if b.stepping = 1 then 0x4A501611 else 0x4A501610)) ∧
  (∀ m : BootImage, imageAccepted m = true ↔
    let d := sha384 (m.header ++ m.payload)
    sha384 m.edKey = Config.fusedEd25519 ∧ sha384 m.mlKey = Config.fusedMlDsa ∧ Config.verifyEd25519 m.edKey d m.edSig = true ∧
      Config.verifyMlDsa m.mlKey d m.mlSig = true ∧ Config.fusedVersion ≤ m.version) ∧
  (∀ (b : BootFinds) (s t : State), (b.torn = none ∧ exec (.powerUp b) s = .next t) ∨ exec (.reset b) s = .next t → b.hangs = none →
    (s.startWord.toNat % 4 = 1 ∨ s.startWord.toNat % 4 = 3 ∨ 0 ∈ b.failTwice → t.phase = .halted) ∧
    (bootLoads b 1 0 = none → bootLoads b 1 1 = none → t.phase = .halted) ∧
    (s.tablesWf = true → t.phase = .up → ∀ c, c < 768 → (t.core c).excluded = (b.badCores.contains c || b.deadIsles.contains (c / 48))) ∧
    (∀ m1 m6, (∀ i, i < 8 → stepState s.startWord i ≠ 1 ∧ stepState s.startWord i ≠ 3) → s.startrec.length = 2 → b.failTwice = [] →
      b.deadIsles = [] → b.badCores = [] → bootLoads b 1 0 = some m1 → bootLoads b 6 0 = some m6 → b.blocks = [] →
      (∀ m ∈ b.images, m.step = 1 ∨ m.step = 6) →
      t.phase = .up ∧ (∀ i, i < 8 → stepState t.startWord i = 2) ∧ (∀ i, i < 16 → (t.isle i).lock = true) ∧
      t.sptbase = b.sptbase ∧ t.startWord.toNat / 2 ^ 48 = min 65535 (s.startWord.toNat / 2 ^ 48 + 1) ∧
      t.measLog = [{ step := 1, slot := m1.slot, version := m1.version, digest := imageDigest m1 },
        { step := 6, slot := m6.slot, version := m6.version, digest := imageDigest m6 }] ∧
      t.measM = sha384 (digestBytes (sha384 (digestBytes State.reset.measM ++ digestBytes (imageDigest m1))) ++
        digestBytes (imageDigest m6))))

/-- The management port: a status answer from a running or halted device; an attestation answers its fields with both signatures
over them; a journal read answers the entries held from the named sequence on, and whether older ones are gone; the event ring and
the reset request; a checkpoint is refused with status 1 unless nothing holds a slot and no page command is queued, and writes the
pages of the working isles to flash or sends them to the peer, up to one with an uncorrectable error (R411 to R415, R417).

Heat: power above 2,800 W halves an isle's cap, down to 16; below 95 % of it the cap rises by 16, up to 512; a hot stack puts it
at 16; each change raises a record. A core that fails is excluded, its task sets end with status 3 and the core's number, and a
record of kind 19 is raised (R416, R418). -/
def Obligations.ManagementAndFailures : Prop :=
  ((∀ (s : State), s.phase = .up ∨ s.phase = .halted →
    exec .statusRequest s = .next { s with answer := .status s.zid s.drops (decide (s.phase = .halted)) }) ∧
  (∀ (s : State) (n : BitVec 256) (m : Nat) (b : Word) (p : Bool), s.phase ≠ .up →
    ∀ i ∈ ([.attestationRequest n, .journalRead m, .resetRequest, .eventRingSetup b m, .checkpoint p b] : List Instr),
      exec i s = .next s) ∧
  (∀ (s : State), s.phase = .up →
    (∀ n, exec (.attestationRequest n) s = .next { s with
      answer := .attest s.zid s.startWord s.measLog s.measM n (Config.attestEd25519 (sha384 (s.attestBytes n)))
        (Config.attestMlDsa (sha384 (s.attestBytes n))) }) ∧
    (∀ m, ∃ es gap, exec (.journalRead m) s = .next { s with answer := .journal es gap } ∧
      (∀ e, e ∈ es ↔ e ∈ s.journal ∧ m ≤ e.seq) ∧ (gap = true ↔ ∃ e rest, s.journal = e :: rest ∧ m < e.seq)) ∧
    (∃ t, exec .resetRequest s = .next t ∧ t.phase = .off ∧ t.answer = .ok ∧ t.jseq = s.jseq + 1 ∧
      t.journal.getLast? = some { seq := s.jseq + 1, kind := 10, what := 0, cyc := BitVec.ofNat 64 s.cyc, status := 0 }) ∧
    (∀ b n, exec (.eventRingSetup b n) s =
      .next { s with ringBase := b, ringSize := n, ringNext := 0, ring := [], answer := .ok }) ∧
    (∀ p a, s.anySlot = true ∨ s.pgq ≠ [] ∨ s.checkpointing ≠ none →
      exec (.checkpoint p a) s = .next { s with answer := .checkpoint 1 }) ∧
    (∀ p a, s.anySlot = false → s.pgq = [] → s.checkpointing = none →
      exec (.checkpoint p a) s = .next { s with checkpointing := some (p, a) })) ∧
  (∀ (s : State) (far : FarEnd), s.checkpointing = none → exec (.checkpointComplete far) s = .next s) ∧
  (∀ (s : State) (far : FarEnd) (p : Bool) (a : Word), s.checkpointing = some (p, a) → s.portHeld = [] →
    let r := State.checkpointOut p (if p then a.toNat else flashAt 0 a.toNat) s.dramPages s
    ∃ t, exec (.checkpointComplete far) s = .next t ∧ t.checkpointing = none ∧ t.mem = s.mem ∧ t.fulls = s.fulls ∧
      t.flash = r.2.flash ∧ t.sentBlocks = r.2.sentBlocks ∧ (far = .ok → r.1 = true → t.answer = .checkpoint 0)) ∧
  (∀ (s : State) (peer : Bool) (a p : Nat) (ps : List Nat),
    let broken := ∃ i, i < 8192 ∧ s.isBroken (p * pageBytes + 8 * i) 8 = true
    let fs := (List.range 8192).map fun i => s.fBit (p * pageBytes + 8 * i)
    let r := pageRecord fs 0 (s.pageData p)
    let sent := sentFrom a (r.length / blockBytes) r
    (broken → State.checkpointOut peer a (p :: ps) s = (false, s.recordBroken (p * pageBytes))) ∧
    (¬ broken → State.checkpointOut peer a (p :: ps) s = State.checkpointOut peer (a + r.length) ps (if peer
      then { s with sentBlocks := s.sentBlocks ++ sent } else { s with flash := tabPut 0 s.flash a r })) ∧
    (p * pageBytes + pageBytes ≤ s.folioBase ∨ s.folioBase + 4 * 2 ^ 20 ≤ p * pageBytes →
      p * pageBytes + pageBytes ≤ dramEnd → s.pageData p = tabBytes s.mem (p * pageBytes) pageBytes))) ∧
  ((∀ (power : Nat) (temps : List Nat) (s : State), s.phase ≠ .up → exec (.thermalMeasure power temps) s = .next s) ∧
  (∀ (power : Nat) (temps : List Nat) (s : State), s.phase = .up → s.tablesWf = true →
    let hot (i : Nat) : Prop := 95 < temps.getD i 0 ∨ (s.hot.getLsbD i = true ∧ 90 ≤ temps.getD i 0)
    ∃ t, exec (.thermalMeasure power temps) s = .next t ∧ t.mem = s.mem ∧ t.slots = s.slots ∧ (∀ i, i < 16 →
      (t.hot.getLsbD i = true ↔ hot i) ∧ (hot i → (t.isle i).cap = 16) ∧
      (¬ hot i → 2800 < power → (t.isle i).cap = max 16 ((s.isle i).cap / 2)) ∧
      (¬ hot i → power < 2660 → (t.isle i).cap = min 512 ((s.isle i).cap + 16)) ∧
      (¬ hot i → 2660 ≤ power → power ≤ 2800 → (t.isle i).cap = (s.isle i).cap)) ∧
      t.ring.length + t.drops = s.ring.length + s.drops + ((List.range 16).filter fun i => (t.isle i).cap ≠ (s.isle i).cap).length) ∧
  (∀ (core : Nat) (s : State), 768 ≤ core ∨ s.placeable core = false ∨ s.phase ≠ .up → exec (.coreFail core) s = .next s) ∧
  (∀ (core : Nat) (s : State), core < 768 → s.placeable core = true → s.phase = .up → (s.core core).mxAll = [] →
    let u := (s.modCore core fun c => { c with excluded := true, failed := true, inbox := [], sendq := [] }).failMx core
    let ends (v : State) : State := (v.modCore core fun c => { c with
      leases := [], leaseWait := [], accs := List.replicate 8 .dead, accv := List.replicate 8 0, ws := [], owner := []
      mxDirty := [] }).record { w0 := 0x1300000000000000, w1 := BitVec.ofNat 64 core, w2 := BitVec.ofNat 64 v.cyc, w3 := 0 }
    (u.setsOn core = [] → exec (.coreFail core) s = .next (ends u)) ∧
    (∀ tsid, u.setsOn core = [tsid] → u.hasSet tsid = true → (u.tset_ tsid).ferry = false →
      exec (.coreFail core) s = .next (ends (u.endSet tsid (BitVec.ofNat 64 (3 * 2 ^ 32 + core)))))))
end

