-- ==== Sys2Proof/Laws/Tables.lean ====
section
/-! SUPPORT. Sparse tables: reading after writing, the canonical form, and what keeps it. -/

namespace Sys2Proof.Machine

variable {α : Type} [DecidableEq α]

/-! ### Reading after writing -/

theorem tget_tset_same (d : α) (t : Tab α) (k : Nat) (v : α) (h : tabWf d t = true) : tget d (tset d t k v) k = v := by
  suffices H : ∀ lo, lo ≤ k → tabWfFrom d lo t = true → tget d (tset d t k v) k = v from H 0 (Nat.zero_le _) h
  clear h
  induction t with
  | nil => intro lo _ _; by_cases hv : v = d <;> simp [tset, tget, hv]
  | cons e t ih =>
    obtain ⟨k', v'⟩ := e
    intro lo hlo hw
    simp only [tabWfFrom, Bool.and_eq_true, decide_eq_true_eq] at hw
    have hlow : ∀ (u : Tab α) (b : Nat), k < b → tabWfFrom d b u = true → tget d u k = d := by
      intro u
      induction u with
      | nil => intro b _ _; rfl
      | cons e u ihu =>
        obtain ⟨q, w⟩ := e
        intro b hb hu
        simp only [tabWfFrom, Bool.and_eq_true, decide_eq_true_eq] at hu
        have hne : ¬ k = q := by omega
        simp only [tget, hne, if_false]
        exact ihu (q + 1) (by omega) hu.2
    unfold tset
    split
    · rename_i hlt
      have hne : ¬ k = k' := by omega
      split
      · rename_i hv
        simp only [tget, hne, if_false]
        rw [hv]
        exact hlow t (k' + 1) (by omega) hw.2
      · simp [tget]
    · split
      · rename_i heq
        split
        · rename_i hv
          rw [hv]
          exact hlow t (k' + 1) (by omega) hw.2
        · simp [tget]
      · rename_i hnlt hne
        simp only [tget, hne, if_false]
        exact ih (k' + 1) (by omega) hw.2

theorem tget_tset_ne (d : α) (t : Tab α) (k j : Nat) (v : α) (h : j ≠ k) : tget d (tset d t k v) j = tget d t j := by
  induction t with
  | nil => by_cases hv : v = d <;> simp [tset, tget, hv, h]
  | cons e t ih =>
    obtain ⟨k', v'⟩ := e
    unfold tset
    split
    · split
      · rfl
      · simp [tget, h]
    · split
      · rename_i heq
        subst heq
        split <;> simp [tget, h]
      · simp only [tget, ih]

/-- A value other than the default is read back from any table. -/
theorem tget_tset_listed (d : α) (t : Tab α) (k : Nat) (v : α) (h : v ≠ d) : tget d (tset d t k v) k = v := by
  induction t with
  | nil => simp [tset, tget, h]
  | cons e t ih =>
    obtain ⟨k', v'⟩ := e
    unfold tset
    split
    · simp [tget]
    · split
      · simp [tget]
      · rename_i hne
        simp only [tget, hne, if_false, ih]

/-! ### The canonical form -/

theorem tabWfFrom_iff (d : α) (lo : Nat) (t : Tab α) :
    tabWfFrom d lo t = true ↔ (∀ e ∈ t, lo ≤ e.1 ∧ e.2 ≠ d) ∧ t.Pairwise (fun a b => a.1 < b.1) := by
  induction t generalizing lo with
  | nil => simp [tabWfFrom]
  | cons e t ih =>
    obtain ⟨k, v⟩ := e
    simp only [tabWfFrom, Bool.and_eq_true, decide_eq_true_eq, ih (k + 1), List.mem_cons, List.pairwise_cons]
    constructor
    · rintro ⟨⟨h1, h2⟩, h3, h4⟩
      refine ⟨?_, ?_, h4⟩
      · rintro e (rfl | he)
        · exact ⟨h1, h2⟩
        · have := h3 e he
          exact ⟨by omega, this.2⟩
      · intro b hb
        have := h3 b hb
        omega
    · rintro ⟨h1, h2, h3⟩
      refine ⟨h1 _ (Or.inl rfl), ?_, h3⟩
      intro e he
      exact ⟨h2 e he, (h1 e (Or.inr he)).2⟩

theorem tabWf_iff (d : α) (t : Tab α) :
    tabWf d t = true ↔ (∀ e ∈ t, e.2 ≠ d) ∧ t.Pairwise (fun a b => a.1 < b.1) := by
  simp [tabWf, tabWfFrom_iff]

theorem tabWf_nil (d : α) : tabWf d [] = true := rfl

theorem mem_tset (d : α) (t : Tab α) (k : Nat) (v : α) {e : Nat × α} (h : e ∈ tset d t k v) : e = (k, v) ∧ v ≠ d ∨ e ∈ t := by
  induction t with
  | nil =>
    unfold tset at h
    split at h
    · simp at h
    · rename_i hv
      simp only [List.mem_singleton] at h
      exact Or.inl ⟨h, hv⟩
  | cons f t ih =>
    obtain ⟨k', v'⟩ := f
    unfold tset at h
    split at h
    · split at h
      · exact Or.inr h
      · rename_i hv
        rcases List.mem_cons.1 h with h | h
        · exact Or.inl ⟨h, hv⟩
        · exact Or.inr h
    · split at h
      · split at h
        · exact Or.inr (List.mem_cons_of_mem _ h)
        · rename_i hv
          rcases List.mem_cons.1 h with h | h
          · exact Or.inl ⟨h, hv⟩
          · exact Or.inr (List.mem_cons_of_mem _ h)
      · rcases List.mem_cons.1 h with h | h
        · exact Or.inr (h ▸ List.mem_cons_self)
        · rcases ih h with h | h
          · exact Or.inl h
          · exact Or.inr (List.mem_cons_of_mem _ h)

/-- Writing one entry keeps the canonical form. -/
theorem tset_wf (d : α) (t : Tab α) (k : Nat) (v : α) (h : tabWf d t = true) : tabWf d (tset d t k v) = true := by
  rw [tabWf_iff] at h ⊢
  obtain ⟨h1, h2⟩ := h
  refine ⟨?_, ?_⟩
  · intro e he
    rcases mem_tset d t k v he with ⟨rfl, hv⟩ | he
    · exact hv
    · exact h1 e he
  · induction t with
    | nil => unfold tset; split <;> simp
    | cons f t ih =>
      obtain ⟨k', v'⟩ := f
      rw [List.pairwise_cons] at h2
      have ih := ih (fun e he => h1 e (List.mem_cons_of_mem _ he)) h2.2
      unfold tset
      split
      · rename_i hlt
        split
        · exact List.pairwise_cons.2 h2
        · refine List.pairwise_cons.2 ⟨?_, List.pairwise_cons.2 h2⟩
          intro b hb
          rcases List.mem_cons.1 hb with rfl | hb
          · exact hlt
          · have := h2.1 b hb
            exact Nat.lt_trans hlt this
      · split
        · rename_i heq
          split
          · exact h2.2
          · refine List.pairwise_cons.2 ⟨?_, h2.2⟩
            intro b hb
            have := h2.1 b hb
            exact heq ▸ this
        · rename_i hnlt hne
          refine List.pairwise_cons.2 ⟨?_, ih⟩
          intro b hb
          rcases mem_tset d t k v hb with ⟨rfl, _⟩ | hb
          · show k' < k
            omega
          · exact h2.1 b hb

/-- Leaving out entries keeps the canonical form. -/
theorem filter_wf (d : α) (t : Tab α) (q : Nat × α → Bool) (h : tabWf d t = true) : tabWf d (t.filter q) = true := by
  rw [tabWf_iff] at h ⊢
  exact ⟨fun e he => h.1 e ((List.mem_filter.1 he).1), h.2.filter q⟩

theorem mem_tabRun (d : α) (a : Nat) (vs : List α) {e : Nat × α} (h : e ∈ tabRun d a vs) :
    a ≤ e.1 ∧ e.1 < a + vs.length ∧ e.2 ≠ d := by
  induction vs generalizing a with
  | nil => simp [tabRun] at h
  | cons v vs ih =>
    simp only [List.length_cons]
    unfold tabRun at h
    split at h
    · have := ih (a + 1) h
      exact ⟨by omega, by omega, this.2.2⟩
    · rename_i hv
      rcases List.mem_cons.1 h with rfl | h
      · exact ⟨Nat.le_refl _, by simp, hv⟩
      · have := ih (a + 1) h
        exact ⟨by omega, by omega, this.2.2⟩

theorem pairwise_tabRun (d : α) (a : Nat) (vs : List α) : (tabRun d a vs).Pairwise (fun a b => a.1 < b.1) := by
  induction vs generalizing a with
  | nil => simp [tabRun]
  | cons v vs ih =>
    unfold tabRun
    split
    · exact ih (a + 1)
    · refine List.pairwise_cons.2 ⟨?_, ih (a + 1)⟩
      intro b hb
      have := (mem_tabRun d (a + 1) vs hb).1
      show a < b.1
      omega

/-- Replacing a run of entries keeps the canonical form. -/
theorem tabPut_wf (d : α) (t : Tab α) (a : Nat) (vs : List α) (h : tabWf d t = true) : tabWf d (tabPut d t a vs) = true := by
  rw [tabWf_iff] at h ⊢
  unfold tabPut
  constructor
  · intro e he
    rcases List.mem_append.1 he with he | he
    · rcases List.mem_append.1 he with he | he
      · exact h.1 e ((List.mem_filter.1 he).1)
      · exact (mem_tabRun d a vs he).2.2
    · exact h.1 e ((List.mem_filter.1 he).1)
  · rw [List.pairwise_append, List.pairwise_append]
    refine ⟨⟨h.2.filter _, pairwise_tabRun d a vs, ?_⟩, h.2.filter _, ?_⟩
    · intro x hx y hy
      have hx := (List.mem_filter.1 hx).2
      have hy := (mem_tabRun d a vs hy).1
      simp only [decide_eq_true_eq] at hx
      omega
    · intro x hx y hy
      have hy := (List.mem_filter.1 hy).2
      simp only [decide_eq_true_eq] at hy
      rcases List.mem_append.1 hx with hx | hx
      · have hx := (List.mem_filter.1 hx).2
        simp only [decide_eq_true_eq] at hx
        omega
      · have := (mem_tabRun d a vs hx).2.1
        omega

end Sys2Proof.Machine
end

