-- ==== Sys2Proof/Laws/State.lean ====
section
/-! SUPPORT. What each update of the state leaves of every field: one lemma per field and update, true by definition. -/

set_option Elab.async false

namespace Sys2Proof.Machine


/-! ### setByte -/

@[simp] theorem State.setByte_fulls (s : State) (a : Nat) (b : Byte) : (s.setByte a b).fulls = s.fulls := rfl
@[simp] theorem State.setByte_broken (s : State) (a : Nat) (b : Byte) : (s.setByte a b).broken = s.broken := rfl
@[simp] theorem State.setByte_corrected (s : State) (a : Nat) (b : Byte) : (s.setByte a b).corrected = s.corrected := rfl
@[simp] theorem State.setByte_cyc (s : State) (a : Nat) (b : Byte) : (s.setByte a b).cyc = s.cyc := rfl
@[simp] theorem State.setByte_zid (s : State) (a : Nat) (b : Byte) : (s.setByte a b).zid = s.zid := rfl
@[simp] theorem State.setByte_fpkg (s : State) (a : Nat) (b : Byte) : (s.setByte a b).fpkg = s.fpkg := rfl
@[simp] theorem State.setByte_sptbase (s : State) (a : Nat) (b : Byte) : (s.setByte a b).sptbase = s.sptbase := rfl
@[simp] theorem State.setByte_slots (s : State) (a : Nat) (b : Byte) : (s.setByte a b).slots = s.slots := rfl
@[simp] theorem State.setByte_cores (s : State) (a : Nat) (b : Byte) : (s.setByte a b).cores = s.cores := rfl
@[simp] theorem State.setByte_quires (s : State) (a : Nat) (b : Byte) : (s.setByte a b).quires = s.quires := rfl
@[simp] theorem State.setByte_isles (s : State) (a : Nat) (b : Byte) : (s.setByte a b).isles = s.isles := rfl
@[simp] theorem State.setByte_sets (s : State) (a : Nat) (b : Byte) : (s.setByte a b).sets = s.sets := rfl
@[simp] theorem State.setByte_bars (s : State) (a : Nat) (b : Byte) : (s.setByte a b).bars = s.bars := rfl
@[simp] theorem State.setByte_moors (s : State) (a : Nat) (b : Byte) : (s.setByte a b).moors = s.moors := rfl
@[simp] theorem State.setByte_accs (s : State) (a : Nat) (b : Byte) : (s.setByte a b).accs = s.accs := rfl
@[simp] theorem State.setByte_refs (s : State) (a : Nat) (b : Byte) : (s.setByte a b).refs = s.refs := rfl
@[simp] theorem State.setByte_replies (s : State) (a : Nat) (b : Byte) : (s.setByte a b).replies = s.replies := rfl
@[simp] theorem State.setByte_acks (s : State) (a : Nat) (b : Byte) : (s.setByte a b).acks = s.acks := rfl
@[simp] theorem State.setByte_mesh (s : State) (a : Nat) (b : Byte) : (s.setByte a b).mesh = s.mesh := rfl
@[simp] theorem State.setByte_evUpds (s : State) (a : Nat) (b : Byte) : (s.setByte a b).evUpds = s.evUpds := rfl
@[simp] theorem State.setByte_codeFills (s : State) (a : Nat) (b : Byte) : (s.setByte a b).codeFills = s.codeFills := rfl
@[simp] theorem State.setByte_walks (s : State) (a : Nat) (b : Byte) : (s.setByte a b).walks = s.walks := rfl
@[simp] theorem State.setByte_folioWait (s : State) (a : Nat) (b : Byte) : (s.setByte a b).folioWait = s.folioWait := rfl
@[simp] theorem State.setByte_folios (s : State) (a : Nat) (b : Byte) : (s.setByte a b).folios = s.folios := rfl
@[simp] theorem State.setByte_froute (s : State) (a : Nat) (b : Byte) : (s.setByte a b).froute = s.froute := rfl
@[simp] theorem State.setByte_windows (s : State) (a : Nat) (b : Byte) : (s.setByte a b).windows = s.windows := rfl
@[simp] theorem State.setByte_conns (s : State) (a : Nat) (b : Byte) : (s.setByte a b).conns = s.conns := rfl
@[simp] theorem State.setByte_elemsOut (s : State) (a : Nat) (b : Byte) : (s.setByte a b).elemsOut = s.elemsOut := rfl
@[simp] theorem State.setByte_inGathers (s : State) (a : Nat) (b : Byte) : (s.setByte a b).inGathers = s.inGathers := rfl
@[simp] theorem State.setByte_remRefs (s : State) (a : Nat) (b : Byte) : (s.setByte a b).remRefs = s.remRefs := rfl
@[simp] theorem State.setByte_statusIn (s : State) (a : Nat) (b : Byte) : (s.setByte a b).statusIn = s.statusIn := rfl
@[simp] theorem State.setByte_keys (s : State) (a : Nat) (b : Byte) : (s.setByte a b).keys = s.keys := rfl
@[simp] theorem State.setByte_lanes (s : State) (a : Nat) (b : Byte) : (s.setByte a b).lanes = s.lanes := rfl
@[simp] theorem State.setByte_laneLoss (s : State) (a : Nat) (b : Byte) : (s.setByte a b).laneLoss = s.laneLoss := rfl
@[simp] theorem State.setByte_lossAt (s : State) (a : Nat) (b : Byte) : (s.setByte a b).lossAt = s.lossAt := rfl
@[simp] theorem State.setByte_laneReqs (s : State) (a : Nat) (b : Byte) : (s.setByte a b).laneReqs = s.laneReqs := rfl
@[simp] theorem State.setByte_tagFails (s : State) (a : Nat) (b : Byte) : (s.setByte a b).tagFails = s.tagFails := rfl
@[simp] theorem State.setByte_sentFrames (s : State) (a : Nat) (b : Byte) : (s.setByte a b).sentFrames = s.sentFrames := rfl
@[simp] theorem State.setByte_mxMsgs (s : State) (a : Nat) (b : Byte) : (s.setByte a b).mxMsgs = s.mxMsgs := rfl
@[simp] theorem State.setByte_pgq (s : State) (a : Nat) (b : Byte) : (s.setByte a b).pgq = s.pgq := rfl
@[simp] theorem State.setByte_sentBlocks (s : State) (a : Nat) (b : Byte) : (s.setByte a b).sentBlocks = s.sentBlocks := rfl
@[simp] theorem State.setByte_flash (s : State) (a : Nat) (b : Byte) : (s.setByte a b).flash = s.flash := rfl
@[simp] theorem State.setByte_ports (s : State) (a : Nat) (b : Byte) : (s.setByte a b).ports = s.ports := rfl
@[simp] theorem State.setByte_portWait (s : State) (a : Nat) (b : Byte) : (s.setByte a b).portWait = s.portWait := rfl
@[simp] theorem State.setByte_portHeld (s : State) (a : Nat) (b : Byte) : (s.setByte a b).portHeld = s.portHeld := rfl
@[simp] theorem State.setByte_keycmd (s : State) (a : Nat) (b : Byte) : (s.setByte a b).keycmd = s.keycmd := rfl
@[simp] theorem State.setByte_resv (s : State) (a : Nat) (b : Byte) : (s.setByte a b).resv = s.resv := rfl
@[simp] theorem State.setByte_ringBase (s : State) (a : Nat) (b : Byte) : (s.setByte a b).ringBase = s.ringBase := rfl
@[simp] theorem State.setByte_ringSize (s : State) (a : Nat) (b : Byte) : (s.setByte a b).ringSize = s.ringSize := rfl
@[simp] theorem State.setByte_ringNext (s : State) (a : Nat) (b : Byte) : (s.setByte a b).ringNext = s.ringNext := rfl
@[simp] theorem State.setByte_drops (s : State) (a : Nat) (b : Byte) : (s.setByte a b).drops = s.drops := rfl
@[simp] theorem State.setByte_ring (s : State) (a : Nat) (b : Byte) : (s.setByte a b).ring = s.ring := rfl
@[simp] theorem State.setByte_hirqs (s : State) (a : Nat) (b : Byte) : (s.setByte a b).hirqs = s.hirqs := rfl
@[simp] theorem State.setByte_journal (s : State) (a : Nat) (b : Byte) : (s.setByte a b).journal = s.journal := rfl
@[simp] theorem State.setByte_jseq (s : State) (a : Nat) (b : Byte) : (s.setByte a b).jseq = s.jseq := rfl
@[simp] theorem State.setByte_startrec (s : State) (a : Nat) (b : Byte) : (s.setByte a b).startrec = s.startrec := rfl
@[simp] theorem State.setByte_measM (s : State) (a : Nat) (b : Byte) : (s.setByte a b).measM = s.measM := rfl
@[simp] theorem State.setByte_measLog (s : State) (a : Nat) (b : Byte) : (s.setByte a b).measLog = s.measLog := rfl
@[simp] theorem State.setByte_phase (s : State) (a : Nat) (b : Byte) : (s.setByte a b).phase = s.phase := rfl
@[simp] theorem State.setByte_hot (s : State) (a : Nat) (b : Byte) : (s.setByte a b).hot = s.hot := rfl
@[simp] theorem State.setByte_throttled (s : State) (a : Nat) (b : Byte) : (s.setByte a b).throttled = s.throttled := rfl
@[simp] theorem State.setByte_checkpointing (s : State) (a : Nat) (b : Byte) : (s.setByte a b).checkpointing = s.checkpointing := rfl
@[simp] theorem State.setByte_answer (s : State) (a : Nat) (b : Byte) : (s.setByte a b).answer = s.answer := rfl
@[simp] theorem State.setByte_sched (s : State) (a : Nat) (b : Byte) : (s.setByte a b).sched = s.sched := rfl
@[simp] theorem State.setByte_cur (s : State) (a : Nat) (b : Byte) : (s.setByte a b).cur = s.cur := rfl
@[simp] theorem State.setByte_serial (s : State) (a : Nat) (b : Byte) : (s.setByte a b).serial = s.serial := rfl
@[simp] theorem State.setByte_draws (s : State) (a : Nat) (b : Byte) : (s.setByte a b).draws = s.draws := rfl

/-! ### setSlot -/

@[simp] theorem State.setSlot_mem (s : State) (k : Nat) (v : Slot) : (s.setSlot k v).mem = s.mem := rfl
@[simp] theorem State.setSlot_fulls (s : State) (k : Nat) (v : Slot) : (s.setSlot k v).fulls = s.fulls := rfl
@[simp] theorem State.setSlot_broken (s : State) (k : Nat) (v : Slot) : (s.setSlot k v).broken = s.broken := rfl
@[simp] theorem State.setSlot_corrected (s : State) (k : Nat) (v : Slot) : (s.setSlot k v).corrected = s.corrected := rfl
@[simp] theorem State.setSlot_cyc (s : State) (k : Nat) (v : Slot) : (s.setSlot k v).cyc = s.cyc := rfl
@[simp] theorem State.setSlot_zid (s : State) (k : Nat) (v : Slot) : (s.setSlot k v).zid = s.zid := rfl
@[simp] theorem State.setSlot_fpkg (s : State) (k : Nat) (v : Slot) : (s.setSlot k v).fpkg = s.fpkg := rfl
@[simp] theorem State.setSlot_sptbase (s : State) (k : Nat) (v : Slot) : (s.setSlot k v).sptbase = s.sptbase := rfl
@[simp] theorem State.setSlot_cores (s : State) (k : Nat) (v : Slot) : (s.setSlot k v).cores = s.cores := rfl
@[simp] theorem State.setSlot_quires (s : State) (k : Nat) (v : Slot) : (s.setSlot k v).quires = s.quires := rfl
@[simp] theorem State.setSlot_isles (s : State) (k : Nat) (v : Slot) : (s.setSlot k v).isles = s.isles := rfl
@[simp] theorem State.setSlot_sets (s : State) (k : Nat) (v : Slot) : (s.setSlot k v).sets = s.sets := rfl
@[simp] theorem State.setSlot_bars (s : State) (k : Nat) (v : Slot) : (s.setSlot k v).bars = s.bars := rfl
@[simp] theorem State.setSlot_moors (s : State) (k : Nat) (v : Slot) : (s.setSlot k v).moors = s.moors := rfl
@[simp] theorem State.setSlot_accs (s : State) (k : Nat) (v : Slot) : (s.setSlot k v).accs = s.accs := rfl
@[simp] theorem State.setSlot_refs (s : State) (k : Nat) (v : Slot) : (s.setSlot k v).refs = s.refs := rfl
@[simp] theorem State.setSlot_replies (s : State) (k : Nat) (v : Slot) : (s.setSlot k v).replies = s.replies := rfl
@[simp] theorem State.setSlot_acks (s : State) (k : Nat) (v : Slot) : (s.setSlot k v).acks = s.acks := rfl
@[simp] theorem State.setSlot_mesh (s : State) (k : Nat) (v : Slot) : (s.setSlot k v).mesh = s.mesh := rfl
@[simp] theorem State.setSlot_evUpds (s : State) (k : Nat) (v : Slot) : (s.setSlot k v).evUpds = s.evUpds := rfl
@[simp] theorem State.setSlot_codeFills (s : State) (k : Nat) (v : Slot) : (s.setSlot k v).codeFills = s.codeFills := rfl
@[simp] theorem State.setSlot_walks (s : State) (k : Nat) (v : Slot) : (s.setSlot k v).walks = s.walks := rfl
@[simp] theorem State.setSlot_folioWait (s : State) (k : Nat) (v : Slot) : (s.setSlot k v).folioWait = s.folioWait := rfl
@[simp] theorem State.setSlot_folios (s : State) (k : Nat) (v : Slot) : (s.setSlot k v).folios = s.folios := rfl
@[simp] theorem State.setSlot_froute (s : State) (k : Nat) (v : Slot) : (s.setSlot k v).froute = s.froute := rfl
@[simp] theorem State.setSlot_windows (s : State) (k : Nat) (v : Slot) : (s.setSlot k v).windows = s.windows := rfl
@[simp] theorem State.setSlot_conns (s : State) (k : Nat) (v : Slot) : (s.setSlot k v).conns = s.conns := rfl
@[simp] theorem State.setSlot_elemsOut (s : State) (k : Nat) (v : Slot) : (s.setSlot k v).elemsOut = s.elemsOut := rfl
@[simp] theorem State.setSlot_inGathers (s : State) (k : Nat) (v : Slot) : (s.setSlot k v).inGathers = s.inGathers := rfl
@[simp] theorem State.setSlot_remRefs (s : State) (k : Nat) (v : Slot) : (s.setSlot k v).remRefs = s.remRefs := rfl
@[simp] theorem State.setSlot_statusIn (s : State) (k : Nat) (v : Slot) : (s.setSlot k v).statusIn = s.statusIn := rfl
@[simp] theorem State.setSlot_keys (s : State) (k : Nat) (v : Slot) : (s.setSlot k v).keys = s.keys := rfl
@[simp] theorem State.setSlot_lanes (s : State) (k : Nat) (v : Slot) : (s.setSlot k v).lanes = s.lanes := rfl
@[simp] theorem State.setSlot_laneLoss (s : State) (k : Nat) (v : Slot) : (s.setSlot k v).laneLoss = s.laneLoss := rfl
@[simp] theorem State.setSlot_lossAt (s : State) (k : Nat) (v : Slot) : (s.setSlot k v).lossAt = s.lossAt := rfl
@[simp] theorem State.setSlot_laneReqs (s : State) (k : Nat) (v : Slot) : (s.setSlot k v).laneReqs = s.laneReqs := rfl
@[simp] theorem State.setSlot_tagFails (s : State) (k : Nat) (v : Slot) : (s.setSlot k v).tagFails = s.tagFails := rfl
@[simp] theorem State.setSlot_sentFrames (s : State) (k : Nat) (v : Slot) : (s.setSlot k v).sentFrames = s.sentFrames := rfl
@[simp] theorem State.setSlot_mxMsgs (s : State) (k : Nat) (v : Slot) : (s.setSlot k v).mxMsgs = s.mxMsgs := rfl
@[simp] theorem State.setSlot_pgq (s : State) (k : Nat) (v : Slot) : (s.setSlot k v).pgq = s.pgq := rfl
@[simp] theorem State.setSlot_sentBlocks (s : State) (k : Nat) (v : Slot) : (s.setSlot k v).sentBlocks = s.sentBlocks := rfl
@[simp] theorem State.setSlot_flash (s : State) (k : Nat) (v : Slot) : (s.setSlot k v).flash = s.flash := rfl
@[simp] theorem State.setSlot_ports (s : State) (k : Nat) (v : Slot) : (s.setSlot k v).ports = s.ports := rfl
@[simp] theorem State.setSlot_portWait (s : State) (k : Nat) (v : Slot) : (s.setSlot k v).portWait = s.portWait := rfl
@[simp] theorem State.setSlot_portHeld (s : State) (k : Nat) (v : Slot) : (s.setSlot k v).portHeld = s.portHeld := rfl
@[simp] theorem State.setSlot_keycmd (s : State) (k : Nat) (v : Slot) : (s.setSlot k v).keycmd = s.keycmd := rfl
@[simp] theorem State.setSlot_resv (s : State) (k : Nat) (v : Slot) : (s.setSlot k v).resv = s.resv := rfl
@[simp] theorem State.setSlot_ringBase (s : State) (k : Nat) (v : Slot) : (s.setSlot k v).ringBase = s.ringBase := rfl
@[simp] theorem State.setSlot_ringSize (s : State) (k : Nat) (v : Slot) : (s.setSlot k v).ringSize = s.ringSize := rfl
@[simp] theorem State.setSlot_ringNext (s : State) (k : Nat) (v : Slot) : (s.setSlot k v).ringNext = s.ringNext := rfl
@[simp] theorem State.setSlot_drops (s : State) (k : Nat) (v : Slot) : (s.setSlot k v).drops = s.drops := rfl
@[simp] theorem State.setSlot_ring (s : State) (k : Nat) (v : Slot) : (s.setSlot k v).ring = s.ring := rfl
@[simp] theorem State.setSlot_hirqs (s : State) (k : Nat) (v : Slot) : (s.setSlot k v).hirqs = s.hirqs := rfl
@[simp] theorem State.setSlot_journal (s : State) (k : Nat) (v : Slot) : (s.setSlot k v).journal = s.journal := rfl
@[simp] theorem State.setSlot_jseq (s : State) (k : Nat) (v : Slot) : (s.setSlot k v).jseq = s.jseq := rfl
@[simp] theorem State.setSlot_startrec (s : State) (k : Nat) (v : Slot) : (s.setSlot k v).startrec = s.startrec := rfl
@[simp] theorem State.setSlot_measM (s : State) (k : Nat) (v : Slot) : (s.setSlot k v).measM = s.measM := rfl
@[simp] theorem State.setSlot_measLog (s : State) (k : Nat) (v : Slot) : (s.setSlot k v).measLog = s.measLog := rfl
@[simp] theorem State.setSlot_phase (s : State) (k : Nat) (v : Slot) : (s.setSlot k v).phase = s.phase := rfl
@[simp] theorem State.setSlot_hot (s : State) (k : Nat) (v : Slot) : (s.setSlot k v).hot = s.hot := rfl
@[simp] theorem State.setSlot_throttled (s : State) (k : Nat) (v : Slot) : (s.setSlot k v).throttled = s.throttled := rfl
@[simp] theorem State.setSlot_checkpointing (s : State) (k : Nat) (v : Slot) : (s.setSlot k v).checkpointing = s.checkpointing := rfl
@[simp] theorem State.setSlot_answer (s : State) (k : Nat) (v : Slot) : (s.setSlot k v).answer = s.answer := rfl
@[simp] theorem State.setSlot_sched (s : State) (k : Nat) (v : Slot) : (s.setSlot k v).sched = s.sched := rfl
@[simp] theorem State.setSlot_cur (s : State) (k : Nat) (v : Slot) : (s.setSlot k v).cur = s.cur := rfl
@[simp] theorem State.setSlot_serial (s : State) (k : Nat) (v : Slot) : (s.setSlot k v).serial = s.serial := rfl
@[simp] theorem State.setSlot_draws (s : State) (k : Nat) (v : Slot) : (s.setSlot k v).draws = s.draws := rfl

/-! ### setCore -/

@[simp] theorem State.setCore_mem (s : State) (k : Nat) (v : Core) : (s.setCore k v).mem = s.mem := rfl
@[simp] theorem State.setCore_fulls (s : State) (k : Nat) (v : Core) : (s.setCore k v).fulls = s.fulls := rfl
@[simp] theorem State.setCore_broken (s : State) (k : Nat) (v : Core) : (s.setCore k v).broken = s.broken := rfl
@[simp] theorem State.setCore_corrected (s : State) (k : Nat) (v : Core) : (s.setCore k v).corrected = s.corrected := rfl
@[simp] theorem State.setCore_cyc (s : State) (k : Nat) (v : Core) : (s.setCore k v).cyc = s.cyc := rfl
@[simp] theorem State.setCore_zid (s : State) (k : Nat) (v : Core) : (s.setCore k v).zid = s.zid := rfl
@[simp] theorem State.setCore_fpkg (s : State) (k : Nat) (v : Core) : (s.setCore k v).fpkg = s.fpkg := rfl
@[simp] theorem State.setCore_sptbase (s : State) (k : Nat) (v : Core) : (s.setCore k v).sptbase = s.sptbase := rfl
@[simp] theorem State.setCore_slots (s : State) (k : Nat) (v : Core) : (s.setCore k v).slots = s.slots := rfl
@[simp] theorem State.setCore_quires (s : State) (k : Nat) (v : Core) : (s.setCore k v).quires = s.quires := rfl
@[simp] theorem State.setCore_isles (s : State) (k : Nat) (v : Core) : (s.setCore k v).isles = s.isles := rfl
@[simp] theorem State.setCore_sets (s : State) (k : Nat) (v : Core) : (s.setCore k v).sets = s.sets := rfl
@[simp] theorem State.setCore_bars (s : State) (k : Nat) (v : Core) : (s.setCore k v).bars = s.bars := rfl
@[simp] theorem State.setCore_moors (s : State) (k : Nat) (v : Core) : (s.setCore k v).moors = s.moors := rfl
@[simp] theorem State.setCore_accs (s : State) (k : Nat) (v : Core) : (s.setCore k v).accs = s.accs := rfl
@[simp] theorem State.setCore_refs (s : State) (k : Nat) (v : Core) : (s.setCore k v).refs = s.refs := rfl
@[simp] theorem State.setCore_replies (s : State) (k : Nat) (v : Core) : (s.setCore k v).replies = s.replies := rfl
@[simp] theorem State.setCore_acks (s : State) (k : Nat) (v : Core) : (s.setCore k v).acks = s.acks := rfl
@[simp] theorem State.setCore_mesh (s : State) (k : Nat) (v : Core) : (s.setCore k v).mesh = s.mesh := rfl
@[simp] theorem State.setCore_evUpds (s : State) (k : Nat) (v : Core) : (s.setCore k v).evUpds = s.evUpds := rfl
@[simp] theorem State.setCore_codeFills (s : State) (k : Nat) (v : Core) : (s.setCore k v).codeFills = s.codeFills := rfl
@[simp] theorem State.setCore_walks (s : State) (k : Nat) (v : Core) : (s.setCore k v).walks = s.walks := rfl
@[simp] theorem State.setCore_folioWait (s : State) (k : Nat) (v : Core) : (s.setCore k v).folioWait = s.folioWait := rfl
@[simp] theorem State.setCore_folios (s : State) (k : Nat) (v : Core) : (s.setCore k v).folios = s.folios := rfl
@[simp] theorem State.setCore_froute (s : State) (k : Nat) (v : Core) : (s.setCore k v).froute = s.froute := rfl
@[simp] theorem State.setCore_windows (s : State) (k : Nat) (v : Core) : (s.setCore k v).windows = s.windows := rfl
@[simp] theorem State.setCore_conns (s : State) (k : Nat) (v : Core) : (s.setCore k v).conns = s.conns := rfl
@[simp] theorem State.setCore_elemsOut (s : State) (k : Nat) (v : Core) : (s.setCore k v).elemsOut = s.elemsOut := rfl
@[simp] theorem State.setCore_inGathers (s : State) (k : Nat) (v : Core) : (s.setCore k v).inGathers = s.inGathers := rfl
@[simp] theorem State.setCore_remRefs (s : State) (k : Nat) (v : Core) : (s.setCore k v).remRefs = s.remRefs := rfl
@[simp] theorem State.setCore_statusIn (s : State) (k : Nat) (v : Core) : (s.setCore k v).statusIn = s.statusIn := rfl
@[simp] theorem State.setCore_keys (s : State) (k : Nat) (v : Core) : (s.setCore k v).keys = s.keys := rfl
@[simp] theorem State.setCore_lanes (s : State) (k : Nat) (v : Core) : (s.setCore k v).lanes = s.lanes := rfl
@[simp] theorem State.setCore_laneLoss (s : State) (k : Nat) (v : Core) : (s.setCore k v).laneLoss = s.laneLoss := rfl
@[simp] theorem State.setCore_lossAt (s : State) (k : Nat) (v : Core) : (s.setCore k v).lossAt = s.lossAt := rfl
@[simp] theorem State.setCore_laneReqs (s : State) (k : Nat) (v : Core) : (s.setCore k v).laneReqs = s.laneReqs := rfl
@[simp] theorem State.setCore_tagFails (s : State) (k : Nat) (v : Core) : (s.setCore k v).tagFails = s.tagFails := rfl
@[simp] theorem State.setCore_sentFrames (s : State) (k : Nat) (v : Core) : (s.setCore k v).sentFrames = s.sentFrames := rfl
@[simp] theorem State.setCore_mxMsgs (s : State) (k : Nat) (v : Core) : (s.setCore k v).mxMsgs = s.mxMsgs := rfl
@[simp] theorem State.setCore_pgq (s : State) (k : Nat) (v : Core) : (s.setCore k v).pgq = s.pgq := rfl
@[simp] theorem State.setCore_sentBlocks (s : State) (k : Nat) (v : Core) : (s.setCore k v).sentBlocks = s.sentBlocks := rfl
@[simp] theorem State.setCore_flash (s : State) (k : Nat) (v : Core) : (s.setCore k v).flash = s.flash := rfl
@[simp] theorem State.setCore_ports (s : State) (k : Nat) (v : Core) : (s.setCore k v).ports = s.ports := rfl
@[simp] theorem State.setCore_portWait (s : State) (k : Nat) (v : Core) : (s.setCore k v).portWait = s.portWait := rfl
@[simp] theorem State.setCore_portHeld (s : State) (k : Nat) (v : Core) : (s.setCore k v).portHeld = s.portHeld := rfl
@[simp] theorem State.setCore_keycmd (s : State) (k : Nat) (v : Core) : (s.setCore k v).keycmd = s.keycmd := rfl
@[simp] theorem State.setCore_resv (s : State) (k : Nat) (v : Core) : (s.setCore k v).resv = s.resv := rfl
@[simp] theorem State.setCore_ringBase (s : State) (k : Nat) (v : Core) : (s.setCore k v).ringBase = s.ringBase := rfl
@[simp] theorem State.setCore_ringSize (s : State) (k : Nat) (v : Core) : (s.setCore k v).ringSize = s.ringSize := rfl
@[simp] theorem State.setCore_ringNext (s : State) (k : Nat) (v : Core) : (s.setCore k v).ringNext = s.ringNext := rfl
@[simp] theorem State.setCore_drops (s : State) (k : Nat) (v : Core) : (s.setCore k v).drops = s.drops := rfl
@[simp] theorem State.setCore_ring (s : State) (k : Nat) (v : Core) : (s.setCore k v).ring = s.ring := rfl
@[simp] theorem State.setCore_hirqs (s : State) (k : Nat) (v : Core) : (s.setCore k v).hirqs = s.hirqs := rfl
@[simp] theorem State.setCore_journal (s : State) (k : Nat) (v : Core) : (s.setCore k v).journal = s.journal := rfl
@[simp] theorem State.setCore_jseq (s : State) (k : Nat) (v : Core) : (s.setCore k v).jseq = s.jseq := rfl
@[simp] theorem State.setCore_startrec (s : State) (k : Nat) (v : Core) : (s.setCore k v).startrec = s.startrec := rfl
@[simp] theorem State.setCore_measM (s : State) (k : Nat) (v : Core) : (s.setCore k v).measM = s.measM := rfl
@[simp] theorem State.setCore_measLog (s : State) (k : Nat) (v : Core) : (s.setCore k v).measLog = s.measLog := rfl
@[simp] theorem State.setCore_phase (s : State) (k : Nat) (v : Core) : (s.setCore k v).phase = s.phase := rfl
@[simp] theorem State.setCore_hot (s : State) (k : Nat) (v : Core) : (s.setCore k v).hot = s.hot := rfl
@[simp] theorem State.setCore_throttled (s : State) (k : Nat) (v : Core) : (s.setCore k v).throttled = s.throttled := rfl
@[simp] theorem State.setCore_checkpointing (s : State) (k : Nat) (v : Core) : (s.setCore k v).checkpointing = s.checkpointing := rfl
@[simp] theorem State.setCore_answer (s : State) (k : Nat) (v : Core) : (s.setCore k v).answer = s.answer := rfl
@[simp] theorem State.setCore_sched (s : State) (k : Nat) (v : Core) : (s.setCore k v).sched = s.sched := rfl
@[simp] theorem State.setCore_cur (s : State) (k : Nat) (v : Core) : (s.setCore k v).cur = s.cur := rfl
@[simp] theorem State.setCore_serial (s : State) (k : Nat) (v : Core) : (s.setCore k v).serial = s.serial := rfl
@[simp] theorem State.setCore_draws (s : State) (k : Nat) (v : Core) : (s.setCore k v).draws = s.draws := rfl

/-! ### setQuire -/

@[simp] theorem State.setQuire_mem (s : State) (k : Nat) (v : Quire) : (s.setQuire k v).mem = s.mem := rfl
@[simp] theorem State.setQuire_fulls (s : State) (k : Nat) (v : Quire) : (s.setQuire k v).fulls = s.fulls := rfl
@[simp] theorem State.setQuire_broken (s : State) (k : Nat) (v : Quire) : (s.setQuire k v).broken = s.broken := rfl
@[simp] theorem State.setQuire_corrected (s : State) (k : Nat) (v : Quire) : (s.setQuire k v).corrected = s.corrected := rfl
@[simp] theorem State.setQuire_cyc (s : State) (k : Nat) (v : Quire) : (s.setQuire k v).cyc = s.cyc := rfl
@[simp] theorem State.setQuire_zid (s : State) (k : Nat) (v : Quire) : (s.setQuire k v).zid = s.zid := rfl
@[simp] theorem State.setQuire_fpkg (s : State) (k : Nat) (v : Quire) : (s.setQuire k v).fpkg = s.fpkg := rfl
@[simp] theorem State.setQuire_sptbase (s : State) (k : Nat) (v : Quire) : (s.setQuire k v).sptbase = s.sptbase := rfl
@[simp] theorem State.setQuire_slots (s : State) (k : Nat) (v : Quire) : (s.setQuire k v).slots = s.slots := rfl
@[simp] theorem State.setQuire_cores (s : State) (k : Nat) (v : Quire) : (s.setQuire k v).cores = s.cores := rfl
@[simp] theorem State.setQuire_isles (s : State) (k : Nat) (v : Quire) : (s.setQuire k v).isles = s.isles := rfl
@[simp] theorem State.setQuire_sets (s : State) (k : Nat) (v : Quire) : (s.setQuire k v).sets = s.sets := rfl
@[simp] theorem State.setQuire_bars (s : State) (k : Nat) (v : Quire) : (s.setQuire k v).bars = s.bars := rfl
@[simp] theorem State.setQuire_moors (s : State) (k : Nat) (v : Quire) : (s.setQuire k v).moors = s.moors := rfl
@[simp] theorem State.setQuire_accs (s : State) (k : Nat) (v : Quire) : (s.setQuire k v).accs = s.accs := rfl
@[simp] theorem State.setQuire_refs (s : State) (k : Nat) (v : Quire) : (s.setQuire k v).refs = s.refs := rfl
@[simp] theorem State.setQuire_replies (s : State) (k : Nat) (v : Quire) : (s.setQuire k v).replies = s.replies := rfl
@[simp] theorem State.setQuire_acks (s : State) (k : Nat) (v : Quire) : (s.setQuire k v).acks = s.acks := rfl
@[simp] theorem State.setQuire_mesh (s : State) (k : Nat) (v : Quire) : (s.setQuire k v).mesh = s.mesh := rfl
@[simp] theorem State.setQuire_evUpds (s : State) (k : Nat) (v : Quire) : (s.setQuire k v).evUpds = s.evUpds := rfl
@[simp] theorem State.setQuire_codeFills (s : State) (k : Nat) (v : Quire) : (s.setQuire k v).codeFills = s.codeFills := rfl
@[simp] theorem State.setQuire_walks (s : State) (k : Nat) (v : Quire) : (s.setQuire k v).walks = s.walks := rfl
@[simp] theorem State.setQuire_folioWait (s : State) (k : Nat) (v : Quire) : (s.setQuire k v).folioWait = s.folioWait := rfl
@[simp] theorem State.setQuire_folios (s : State) (k : Nat) (v : Quire) : (s.setQuire k v).folios = s.folios := rfl
@[simp] theorem State.setQuire_froute (s : State) (k : Nat) (v : Quire) : (s.setQuire k v).froute = s.froute := rfl
@[simp] theorem State.setQuire_windows (s : State) (k : Nat) (v : Quire) : (s.setQuire k v).windows = s.windows := rfl
@[simp] theorem State.setQuire_conns (s : State) (k : Nat) (v : Quire) : (s.setQuire k v).conns = s.conns := rfl
@[simp] theorem State.setQuire_elemsOut (s : State) (k : Nat) (v : Quire) : (s.setQuire k v).elemsOut = s.elemsOut := rfl
@[simp] theorem State.setQuire_inGathers (s : State) (k : Nat) (v : Quire) : (s.setQuire k v).inGathers = s.inGathers := rfl
@[simp] theorem State.setQuire_remRefs (s : State) (k : Nat) (v : Quire) : (s.setQuire k v).remRefs = s.remRefs := rfl
@[simp] theorem State.setQuire_statusIn (s : State) (k : Nat) (v : Quire) : (s.setQuire k v).statusIn = s.statusIn := rfl
@[simp] theorem State.setQuire_keys (s : State) (k : Nat) (v : Quire) : (s.setQuire k v).keys = s.keys := rfl
@[simp] theorem State.setQuire_lanes (s : State) (k : Nat) (v : Quire) : (s.setQuire k v).lanes = s.lanes := rfl
@[simp] theorem State.setQuire_laneLoss (s : State) (k : Nat) (v : Quire) : (s.setQuire k v).laneLoss = s.laneLoss := rfl
@[simp] theorem State.setQuire_lossAt (s : State) (k : Nat) (v : Quire) : (s.setQuire k v).lossAt = s.lossAt := rfl
@[simp] theorem State.setQuire_laneReqs (s : State) (k : Nat) (v : Quire) : (s.setQuire k v).laneReqs = s.laneReqs := rfl
@[simp] theorem State.setQuire_tagFails (s : State) (k : Nat) (v : Quire) : (s.setQuire k v).tagFails = s.tagFails := rfl
@[simp] theorem State.setQuire_sentFrames (s : State) (k : Nat) (v : Quire) : (s.setQuire k v).sentFrames = s.sentFrames := rfl
@[simp] theorem State.setQuire_mxMsgs (s : State) (k : Nat) (v : Quire) : (s.setQuire k v).mxMsgs = s.mxMsgs := rfl
@[simp] theorem State.setQuire_pgq (s : State) (k : Nat) (v : Quire) : (s.setQuire k v).pgq = s.pgq := rfl
@[simp] theorem State.setQuire_sentBlocks (s : State) (k : Nat) (v : Quire) : (s.setQuire k v).sentBlocks = s.sentBlocks := rfl
@[simp] theorem State.setQuire_flash (s : State) (k : Nat) (v : Quire) : (s.setQuire k v).flash = s.flash := rfl
@[simp] theorem State.setQuire_ports (s : State) (k : Nat) (v : Quire) : (s.setQuire k v).ports = s.ports := rfl
@[simp] theorem State.setQuire_portWait (s : State) (k : Nat) (v : Quire) : (s.setQuire k v).portWait = s.portWait := rfl
@[simp] theorem State.setQuire_portHeld (s : State) (k : Nat) (v : Quire) : (s.setQuire k v).portHeld = s.portHeld := rfl
@[simp] theorem State.setQuire_keycmd (s : State) (k : Nat) (v : Quire) : (s.setQuire k v).keycmd = s.keycmd := rfl
@[simp] theorem State.setQuire_resv (s : State) (k : Nat) (v : Quire) : (s.setQuire k v).resv = s.resv := rfl
@[simp] theorem State.setQuire_ringBase (s : State) (k : Nat) (v : Quire) : (s.setQuire k v).ringBase = s.ringBase := rfl
@[simp] theorem State.setQuire_ringSize (s : State) (k : Nat) (v : Quire) : (s.setQuire k v).ringSize = s.ringSize := rfl
@[simp] theorem State.setQuire_ringNext (s : State) (k : Nat) (v : Quire) : (s.setQuire k v).ringNext = s.ringNext := rfl
@[simp] theorem State.setQuire_drops (s : State) (k : Nat) (v : Quire) : (s.setQuire k v).drops = s.drops := rfl
@[simp] theorem State.setQuire_ring (s : State) (k : Nat) (v : Quire) : (s.setQuire k v).ring = s.ring := rfl
@[simp] theorem State.setQuire_hirqs (s : State) (k : Nat) (v : Quire) : (s.setQuire k v).hirqs = s.hirqs := rfl
@[simp] theorem State.setQuire_journal (s : State) (k : Nat) (v : Quire) : (s.setQuire k v).journal = s.journal := rfl
@[simp] theorem State.setQuire_jseq (s : State) (k : Nat) (v : Quire) : (s.setQuire k v).jseq = s.jseq := rfl
@[simp] theorem State.setQuire_startrec (s : State) (k : Nat) (v : Quire) : (s.setQuire k v).startrec = s.startrec := rfl
@[simp] theorem State.setQuire_measM (s : State) (k : Nat) (v : Quire) : (s.setQuire k v).measM = s.measM := rfl
@[simp] theorem State.setQuire_measLog (s : State) (k : Nat) (v : Quire) : (s.setQuire k v).measLog = s.measLog := rfl
@[simp] theorem State.setQuire_phase (s : State) (k : Nat) (v : Quire) : (s.setQuire k v).phase = s.phase := rfl
@[simp] theorem State.setQuire_hot (s : State) (k : Nat) (v : Quire) : (s.setQuire k v).hot = s.hot := rfl
@[simp] theorem State.setQuire_throttled (s : State) (k : Nat) (v : Quire) : (s.setQuire k v).throttled = s.throttled := rfl
@[simp] theorem State.setQuire_checkpointing (s : State) (k : Nat) (v : Quire) : (s.setQuire k v).checkpointing = s.checkpointing := rfl
@[simp] theorem State.setQuire_answer (s : State) (k : Nat) (v : Quire) : (s.setQuire k v).answer = s.answer := rfl
@[simp] theorem State.setQuire_sched (s : State) (k : Nat) (v : Quire) : (s.setQuire k v).sched = s.sched := rfl
@[simp] theorem State.setQuire_cur (s : State) (k : Nat) (v : Quire) : (s.setQuire k v).cur = s.cur := rfl
@[simp] theorem State.setQuire_serial (s : State) (k : Nat) (v : Quire) : (s.setQuire k v).serial = s.serial := rfl
@[simp] theorem State.setQuire_draws (s : State) (k : Nat) (v : Quire) : (s.setQuire k v).draws = s.draws := rfl

/-! ### setIsle -/

@[simp] theorem State.setIsle_mem (s : State) (k : Nat) (v : Isle) : (s.setIsle k v).mem = s.mem := rfl
@[simp] theorem State.setIsle_fulls (s : State) (k : Nat) (v : Isle) : (s.setIsle k v).fulls = s.fulls := rfl
@[simp] theorem State.setIsle_broken (s : State) (k : Nat) (v : Isle) : (s.setIsle k v).broken = s.broken := rfl
@[simp] theorem State.setIsle_corrected (s : State) (k : Nat) (v : Isle) : (s.setIsle k v).corrected = s.corrected := rfl
@[simp] theorem State.setIsle_cyc (s : State) (k : Nat) (v : Isle) : (s.setIsle k v).cyc = s.cyc := rfl
@[simp] theorem State.setIsle_zid (s : State) (k : Nat) (v : Isle) : (s.setIsle k v).zid = s.zid := rfl
@[simp] theorem State.setIsle_fpkg (s : State) (k : Nat) (v : Isle) : (s.setIsle k v).fpkg = s.fpkg := rfl
@[simp] theorem State.setIsle_sptbase (s : State) (k : Nat) (v : Isle) : (s.setIsle k v).sptbase = s.sptbase := rfl
@[simp] theorem State.setIsle_slots (s : State) (k : Nat) (v : Isle) : (s.setIsle k v).slots = s.slots := rfl
@[simp] theorem State.setIsle_cores (s : State) (k : Nat) (v : Isle) : (s.setIsle k v).cores = s.cores := rfl
@[simp] theorem State.setIsle_quires (s : State) (k : Nat) (v : Isle) : (s.setIsle k v).quires = s.quires := rfl
@[simp] theorem State.setIsle_sets (s : State) (k : Nat) (v : Isle) : (s.setIsle k v).sets = s.sets := rfl
@[simp] theorem State.setIsle_bars (s : State) (k : Nat) (v : Isle) : (s.setIsle k v).bars = s.bars := rfl
@[simp] theorem State.setIsle_moors (s : State) (k : Nat) (v : Isle) : (s.setIsle k v).moors = s.moors := rfl
@[simp] theorem State.setIsle_accs (s : State) (k : Nat) (v : Isle) : (s.setIsle k v).accs = s.accs := rfl
@[simp] theorem State.setIsle_refs (s : State) (k : Nat) (v : Isle) : (s.setIsle k v).refs = s.refs := rfl
@[simp] theorem State.setIsle_replies (s : State) (k : Nat) (v : Isle) : (s.setIsle k v).replies = s.replies := rfl
@[simp] theorem State.setIsle_acks (s : State) (k : Nat) (v : Isle) : (s.setIsle k v).acks = s.acks := rfl
@[simp] theorem State.setIsle_mesh (s : State) (k : Nat) (v : Isle) : (s.setIsle k v).mesh = s.mesh := rfl
@[simp] theorem State.setIsle_evUpds (s : State) (k : Nat) (v : Isle) : (s.setIsle k v).evUpds = s.evUpds := rfl
@[simp] theorem State.setIsle_codeFills (s : State) (k : Nat) (v : Isle) : (s.setIsle k v).codeFills = s.codeFills := rfl
@[simp] theorem State.setIsle_walks (s : State) (k : Nat) (v : Isle) : (s.setIsle k v).walks = s.walks := rfl
@[simp] theorem State.setIsle_folioWait (s : State) (k : Nat) (v : Isle) : (s.setIsle k v).folioWait = s.folioWait := rfl
@[simp] theorem State.setIsle_folios (s : State) (k : Nat) (v : Isle) : (s.setIsle k v).folios = s.folios := rfl
@[simp] theorem State.setIsle_froute (s : State) (k : Nat) (v : Isle) : (s.setIsle k v).froute = s.froute := rfl
@[simp] theorem State.setIsle_windows (s : State) (k : Nat) (v : Isle) : (s.setIsle k v).windows = s.windows := rfl
@[simp] theorem State.setIsle_conns (s : State) (k : Nat) (v : Isle) : (s.setIsle k v).conns = s.conns := rfl
@[simp] theorem State.setIsle_elemsOut (s : State) (k : Nat) (v : Isle) : (s.setIsle k v).elemsOut = s.elemsOut := rfl
@[simp] theorem State.setIsle_inGathers (s : State) (k : Nat) (v : Isle) : (s.setIsle k v).inGathers = s.inGathers := rfl
@[simp] theorem State.setIsle_remRefs (s : State) (k : Nat) (v : Isle) : (s.setIsle k v).remRefs = s.remRefs := rfl
@[simp] theorem State.setIsle_statusIn (s : State) (k : Nat) (v : Isle) : (s.setIsle k v).statusIn = s.statusIn := rfl
@[simp] theorem State.setIsle_keys (s : State) (k : Nat) (v : Isle) : (s.setIsle k v).keys = s.keys := rfl
@[simp] theorem State.setIsle_lanes (s : State) (k : Nat) (v : Isle) : (s.setIsle k v).lanes = s.lanes := rfl
@[simp] theorem State.setIsle_laneLoss (s : State) (k : Nat) (v : Isle) : (s.setIsle k v).laneLoss = s.laneLoss := rfl
@[simp] theorem State.setIsle_lossAt (s : State) (k : Nat) (v : Isle) : (s.setIsle k v).lossAt = s.lossAt := rfl
@[simp] theorem State.setIsle_laneReqs (s : State) (k : Nat) (v : Isle) : (s.setIsle k v).laneReqs = s.laneReqs := rfl
@[simp] theorem State.setIsle_tagFails (s : State) (k : Nat) (v : Isle) : (s.setIsle k v).tagFails = s.tagFails := rfl
@[simp] theorem State.setIsle_sentFrames (s : State) (k : Nat) (v : Isle) : (s.setIsle k v).sentFrames = s.sentFrames := rfl
@[simp] theorem State.setIsle_mxMsgs (s : State) (k : Nat) (v : Isle) : (s.setIsle k v).mxMsgs = s.mxMsgs := rfl
@[simp] theorem State.setIsle_pgq (s : State) (k : Nat) (v : Isle) : (s.setIsle k v).pgq = s.pgq := rfl
@[simp] theorem State.setIsle_sentBlocks (s : State) (k : Nat) (v : Isle) : (s.setIsle k v).sentBlocks = s.sentBlocks := rfl
@[simp] theorem State.setIsle_flash (s : State) (k : Nat) (v : Isle) : (s.setIsle k v).flash = s.flash := rfl
@[simp] theorem State.setIsle_ports (s : State) (k : Nat) (v : Isle) : (s.setIsle k v).ports = s.ports := rfl
@[simp] theorem State.setIsle_portWait (s : State) (k : Nat) (v : Isle) : (s.setIsle k v).portWait = s.portWait := rfl
@[simp] theorem State.setIsle_portHeld (s : State) (k : Nat) (v : Isle) : (s.setIsle k v).portHeld = s.portHeld := rfl
@[simp] theorem State.setIsle_keycmd (s : State) (k : Nat) (v : Isle) : (s.setIsle k v).keycmd = s.keycmd := rfl
@[simp] theorem State.setIsle_resv (s : State) (k : Nat) (v : Isle) : (s.setIsle k v).resv = s.resv := rfl
@[simp] theorem State.setIsle_ringBase (s : State) (k : Nat) (v : Isle) : (s.setIsle k v).ringBase = s.ringBase := rfl
@[simp] theorem State.setIsle_ringSize (s : State) (k : Nat) (v : Isle) : (s.setIsle k v).ringSize = s.ringSize := rfl
@[simp] theorem State.setIsle_ringNext (s : State) (k : Nat) (v : Isle) : (s.setIsle k v).ringNext = s.ringNext := rfl
@[simp] theorem State.setIsle_drops (s : State) (k : Nat) (v : Isle) : (s.setIsle k v).drops = s.drops := rfl
@[simp] theorem State.setIsle_ring (s : State) (k : Nat) (v : Isle) : (s.setIsle k v).ring = s.ring := rfl
@[simp] theorem State.setIsle_hirqs (s : State) (k : Nat) (v : Isle) : (s.setIsle k v).hirqs = s.hirqs := rfl
@[simp] theorem State.setIsle_journal (s : State) (k : Nat) (v : Isle) : (s.setIsle k v).journal = s.journal := rfl
@[simp] theorem State.setIsle_jseq (s : State) (k : Nat) (v : Isle) : (s.setIsle k v).jseq = s.jseq := rfl
@[simp] theorem State.setIsle_startrec (s : State) (k : Nat) (v : Isle) : (s.setIsle k v).startrec = s.startrec := rfl
@[simp] theorem State.setIsle_measM (s : State) (k : Nat) (v : Isle) : (s.setIsle k v).measM = s.measM := rfl
@[simp] theorem State.setIsle_measLog (s : State) (k : Nat) (v : Isle) : (s.setIsle k v).measLog = s.measLog := rfl
@[simp] theorem State.setIsle_phase (s : State) (k : Nat) (v : Isle) : (s.setIsle k v).phase = s.phase := rfl
@[simp] theorem State.setIsle_hot (s : State) (k : Nat) (v : Isle) : (s.setIsle k v).hot = s.hot := rfl
@[simp] theorem State.setIsle_throttled (s : State) (k : Nat) (v : Isle) : (s.setIsle k v).throttled = s.throttled := rfl
@[simp] theorem State.setIsle_checkpointing (s : State) (k : Nat) (v : Isle) : (s.setIsle k v).checkpointing = s.checkpointing := rfl
@[simp] theorem State.setIsle_answer (s : State) (k : Nat) (v : Isle) : (s.setIsle k v).answer = s.answer := rfl
@[simp] theorem State.setIsle_sched (s : State) (k : Nat) (v : Isle) : (s.setIsle k v).sched = s.sched := rfl
@[simp] theorem State.setIsle_cur (s : State) (k : Nat) (v : Isle) : (s.setIsle k v).cur = s.cur := rfl
@[simp] theorem State.setIsle_serial (s : State) (k : Nat) (v : Isle) : (s.setIsle k v).serial = s.serial := rfl
@[simp] theorem State.setIsle_draws (s : State) (k : Nat) (v : Isle) : (s.setIsle k v).draws = s.draws := rfl

/-! ### setSet -/

@[simp] theorem State.setSet_mem (s : State) (k : Nat) (v : TaskSet) : (s.setSet k v).mem = s.mem := rfl
@[simp] theorem State.setSet_fulls (s : State) (k : Nat) (v : TaskSet) : (s.setSet k v).fulls = s.fulls := rfl
@[simp] theorem State.setSet_broken (s : State) (k : Nat) (v : TaskSet) : (s.setSet k v).broken = s.broken := rfl
@[simp] theorem State.setSet_corrected (s : State) (k : Nat) (v : TaskSet) : (s.setSet k v).corrected = s.corrected := rfl
@[simp] theorem State.setSet_cyc (s : State) (k : Nat) (v : TaskSet) : (s.setSet k v).cyc = s.cyc := rfl
@[simp] theorem State.setSet_zid (s : State) (k : Nat) (v : TaskSet) : (s.setSet k v).zid = s.zid := rfl
@[simp] theorem State.setSet_fpkg (s : State) (k : Nat) (v : TaskSet) : (s.setSet k v).fpkg = s.fpkg := rfl
@[simp] theorem State.setSet_sptbase (s : State) (k : Nat) (v : TaskSet) : (s.setSet k v).sptbase = s.sptbase := rfl
@[simp] theorem State.setSet_slots (s : State) (k : Nat) (v : TaskSet) : (s.setSet k v).slots = s.slots := rfl
@[simp] theorem State.setSet_cores (s : State) (k : Nat) (v : TaskSet) : (s.setSet k v).cores = s.cores := rfl
@[simp] theorem State.setSet_quires (s : State) (k : Nat) (v : TaskSet) : (s.setSet k v).quires = s.quires := rfl
@[simp] theorem State.setSet_isles (s : State) (k : Nat) (v : TaskSet) : (s.setSet k v).isles = s.isles := rfl
@[simp] theorem State.setSet_bars (s : State) (k : Nat) (v : TaskSet) : (s.setSet k v).bars = s.bars := rfl
@[simp] theorem State.setSet_moors (s : State) (k : Nat) (v : TaskSet) : (s.setSet k v).moors = s.moors := rfl
@[simp] theorem State.setSet_accs (s : State) (k : Nat) (v : TaskSet) : (s.setSet k v).accs = s.accs := rfl
@[simp] theorem State.setSet_refs (s : State) (k : Nat) (v : TaskSet) : (s.setSet k v).refs = s.refs := rfl
@[simp] theorem State.setSet_replies (s : State) (k : Nat) (v : TaskSet) : (s.setSet k v).replies = s.replies := rfl
@[simp] theorem State.setSet_acks (s : State) (k : Nat) (v : TaskSet) : (s.setSet k v).acks = s.acks := rfl
@[simp] theorem State.setSet_mesh (s : State) (k : Nat) (v : TaskSet) : (s.setSet k v).mesh = s.mesh := rfl
@[simp] theorem State.setSet_evUpds (s : State) (k : Nat) (v : TaskSet) : (s.setSet k v).evUpds = s.evUpds := rfl
@[simp] theorem State.setSet_codeFills (s : State) (k : Nat) (v : TaskSet) : (s.setSet k v).codeFills = s.codeFills := rfl
@[simp] theorem State.setSet_walks (s : State) (k : Nat) (v : TaskSet) : (s.setSet k v).walks = s.walks := rfl
@[simp] theorem State.setSet_folioWait (s : State) (k : Nat) (v : TaskSet) : (s.setSet k v).folioWait = s.folioWait := rfl
@[simp] theorem State.setSet_folios (s : State) (k : Nat) (v : TaskSet) : (s.setSet k v).folios = s.folios := rfl
@[simp] theorem State.setSet_froute (s : State) (k : Nat) (v : TaskSet) : (s.setSet k v).froute = s.froute := rfl
@[simp] theorem State.setSet_windows (s : State) (k : Nat) (v : TaskSet) : (s.setSet k v).windows = s.windows := rfl
@[simp] theorem State.setSet_conns (s : State) (k : Nat) (v : TaskSet) : (s.setSet k v).conns = s.conns := rfl
@[simp] theorem State.setSet_elemsOut (s : State) (k : Nat) (v : TaskSet) : (s.setSet k v).elemsOut = s.elemsOut := rfl
@[simp] theorem State.setSet_inGathers (s : State) (k : Nat) (v : TaskSet) : (s.setSet k v).inGathers = s.inGathers := rfl
@[simp] theorem State.setSet_remRefs (s : State) (k : Nat) (v : TaskSet) : (s.setSet k v).remRefs = s.remRefs := rfl
@[simp] theorem State.setSet_statusIn (s : State) (k : Nat) (v : TaskSet) : (s.setSet k v).statusIn = s.statusIn := rfl
@[simp] theorem State.setSet_keys (s : State) (k : Nat) (v : TaskSet) : (s.setSet k v).keys = s.keys := rfl
@[simp] theorem State.setSet_lanes (s : State) (k : Nat) (v : TaskSet) : (s.setSet k v).lanes = s.lanes := rfl
@[simp] theorem State.setSet_laneLoss (s : State) (k : Nat) (v : TaskSet) : (s.setSet k v).laneLoss = s.laneLoss := rfl
@[simp] theorem State.setSet_lossAt (s : State) (k : Nat) (v : TaskSet) : (s.setSet k v).lossAt = s.lossAt := rfl
@[simp] theorem State.setSet_laneReqs (s : State) (k : Nat) (v : TaskSet) : (s.setSet k v).laneReqs = s.laneReqs := rfl
@[simp] theorem State.setSet_tagFails (s : State) (k : Nat) (v : TaskSet) : (s.setSet k v).tagFails = s.tagFails := rfl
@[simp] theorem State.setSet_sentFrames (s : State) (k : Nat) (v : TaskSet) : (s.setSet k v).sentFrames = s.sentFrames := rfl
@[simp] theorem State.setSet_mxMsgs (s : State) (k : Nat) (v : TaskSet) : (s.setSet k v).mxMsgs = s.mxMsgs := rfl
@[simp] theorem State.setSet_pgq (s : State) (k : Nat) (v : TaskSet) : (s.setSet k v).pgq = s.pgq := rfl
@[simp] theorem State.setSet_sentBlocks (s : State) (k : Nat) (v : TaskSet) : (s.setSet k v).sentBlocks = s.sentBlocks := rfl
@[simp] theorem State.setSet_flash (s : State) (k : Nat) (v : TaskSet) : (s.setSet k v).flash = s.flash := rfl
@[simp] theorem State.setSet_ports (s : State) (k : Nat) (v : TaskSet) : (s.setSet k v).ports = s.ports := rfl
@[simp] theorem State.setSet_portWait (s : State) (k : Nat) (v : TaskSet) : (s.setSet k v).portWait = s.portWait := rfl
@[simp] theorem State.setSet_portHeld (s : State) (k : Nat) (v : TaskSet) : (s.setSet k v).portHeld = s.portHeld := rfl
@[simp] theorem State.setSet_keycmd (s : State) (k : Nat) (v : TaskSet) : (s.setSet k v).keycmd = s.keycmd := rfl
@[simp] theorem State.setSet_resv (s : State) (k : Nat) (v : TaskSet) : (s.setSet k v).resv = s.resv := rfl
@[simp] theorem State.setSet_ringBase (s : State) (k : Nat) (v : TaskSet) : (s.setSet k v).ringBase = s.ringBase := rfl
@[simp] theorem State.setSet_ringSize (s : State) (k : Nat) (v : TaskSet) : (s.setSet k v).ringSize = s.ringSize := rfl
@[simp] theorem State.setSet_ringNext (s : State) (k : Nat) (v : TaskSet) : (s.setSet k v).ringNext = s.ringNext := rfl
@[simp] theorem State.setSet_drops (s : State) (k : Nat) (v : TaskSet) : (s.setSet k v).drops = s.drops := rfl
@[simp] theorem State.setSet_ring (s : State) (k : Nat) (v : TaskSet) : (s.setSet k v).ring = s.ring := rfl
@[simp] theorem State.setSet_hirqs (s : State) (k : Nat) (v : TaskSet) : (s.setSet k v).hirqs = s.hirqs := rfl
@[simp] theorem State.setSet_journal (s : State) (k : Nat) (v : TaskSet) : (s.setSet k v).journal = s.journal := rfl
@[simp] theorem State.setSet_jseq (s : State) (k : Nat) (v : TaskSet) : (s.setSet k v).jseq = s.jseq := rfl
@[simp] theorem State.setSet_startrec (s : State) (k : Nat) (v : TaskSet) : (s.setSet k v).startrec = s.startrec := rfl
@[simp] theorem State.setSet_measM (s : State) (k : Nat) (v : TaskSet) : (s.setSet k v).measM = s.measM := rfl
@[simp] theorem State.setSet_measLog (s : State) (k : Nat) (v : TaskSet) : (s.setSet k v).measLog = s.measLog := rfl
@[simp] theorem State.setSet_phase (s : State) (k : Nat) (v : TaskSet) : (s.setSet k v).phase = s.phase := rfl
@[simp] theorem State.setSet_hot (s : State) (k : Nat) (v : TaskSet) : (s.setSet k v).hot = s.hot := rfl
@[simp] theorem State.setSet_throttled (s : State) (k : Nat) (v : TaskSet) : (s.setSet k v).throttled = s.throttled := rfl
@[simp] theorem State.setSet_checkpointing (s : State) (k : Nat) (v : TaskSet) : (s.setSet k v).checkpointing = s.checkpointing := rfl
@[simp] theorem State.setSet_answer (s : State) (k : Nat) (v : TaskSet) : (s.setSet k v).answer = s.answer := rfl
@[simp] theorem State.setSet_sched (s : State) (k : Nat) (v : TaskSet) : (s.setSet k v).sched = s.sched := rfl
@[simp] theorem State.setSet_cur (s : State) (k : Nat) (v : TaskSet) : (s.setSet k v).cur = s.cur := rfl
@[simp] theorem State.setSet_serial (s : State) (k : Nat) (v : TaskSet) : (s.setSet k v).serial = s.serial := rfl
@[simp] theorem State.setSet_draws (s : State) (k : Nat) (v : TaskSet) : (s.setSet k v).draws = s.draws := rfl

/-! ### modSlot -/

@[simp] theorem State.modSlot_mem (s : State) (k : Nat) (f : Slot → Slot) : (s.modSlot k f).mem = s.mem := rfl
@[simp] theorem State.modSlot_fulls (s : State) (k : Nat) (f : Slot → Slot) : (s.modSlot k f).fulls = s.fulls := rfl
@[simp] theorem State.modSlot_broken (s : State) (k : Nat) (f : Slot → Slot) : (s.modSlot k f).broken = s.broken := rfl
@[simp] theorem State.modSlot_corrected (s : State) (k : Nat) (f : Slot → Slot) : (s.modSlot k f).corrected = s.corrected := rfl
@[simp] theorem State.modSlot_cyc (s : State) (k : Nat) (f : Slot → Slot) : (s.modSlot k f).cyc = s.cyc := rfl
@[simp] theorem State.modSlot_zid (s : State) (k : Nat) (f : Slot → Slot) : (s.modSlot k f).zid = s.zid := rfl
@[simp] theorem State.modSlot_fpkg (s : State) (k : Nat) (f : Slot → Slot) : (s.modSlot k f).fpkg = s.fpkg := rfl
@[simp] theorem State.modSlot_sptbase (s : State) (k : Nat) (f : Slot → Slot) : (s.modSlot k f).sptbase = s.sptbase := rfl
@[simp] theorem State.modSlot_cores (s : State) (k : Nat) (f : Slot → Slot) : (s.modSlot k f).cores = s.cores := rfl
@[simp] theorem State.modSlot_quires (s : State) (k : Nat) (f : Slot → Slot) : (s.modSlot k f).quires = s.quires := rfl
@[simp] theorem State.modSlot_isles (s : State) (k : Nat) (f : Slot → Slot) : (s.modSlot k f).isles = s.isles := rfl
@[simp] theorem State.modSlot_sets (s : State) (k : Nat) (f : Slot → Slot) : (s.modSlot k f).sets = s.sets := rfl
@[simp] theorem State.modSlot_bars (s : State) (k : Nat) (f : Slot → Slot) : (s.modSlot k f).bars = s.bars := rfl
@[simp] theorem State.modSlot_moors (s : State) (k : Nat) (f : Slot → Slot) : (s.modSlot k f).moors = s.moors := rfl
@[simp] theorem State.modSlot_accs (s : State) (k : Nat) (f : Slot → Slot) : (s.modSlot k f).accs = s.accs := rfl
@[simp] theorem State.modSlot_refs (s : State) (k : Nat) (f : Slot → Slot) : (s.modSlot k f).refs = s.refs := rfl
@[simp] theorem State.modSlot_replies (s : State) (k : Nat) (f : Slot → Slot) : (s.modSlot k f).replies = s.replies := rfl
@[simp] theorem State.modSlot_acks (s : State) (k : Nat) (f : Slot → Slot) : (s.modSlot k f).acks = s.acks := rfl
@[simp] theorem State.modSlot_mesh (s : State) (k : Nat) (f : Slot → Slot) : (s.modSlot k f).mesh = s.mesh := rfl
@[simp] theorem State.modSlot_evUpds (s : State) (k : Nat) (f : Slot → Slot) : (s.modSlot k f).evUpds = s.evUpds := rfl
@[simp] theorem State.modSlot_codeFills (s : State) (k : Nat) (f : Slot → Slot) : (s.modSlot k f).codeFills = s.codeFills := rfl
@[simp] theorem State.modSlot_walks (s : State) (k : Nat) (f : Slot → Slot) : (s.modSlot k f).walks = s.walks := rfl
@[simp] theorem State.modSlot_folioWait (s : State) (k : Nat) (f : Slot → Slot) : (s.modSlot k f).folioWait = s.folioWait := rfl
@[simp] theorem State.modSlot_folios (s : State) (k : Nat) (f : Slot → Slot) : (s.modSlot k f).folios = s.folios := rfl
@[simp] theorem State.modSlot_froute (s : State) (k : Nat) (f : Slot → Slot) : (s.modSlot k f).froute = s.froute := rfl
@[simp] theorem State.modSlot_windows (s : State) (k : Nat) (f : Slot → Slot) : (s.modSlot k f).windows = s.windows := rfl
@[simp] theorem State.modSlot_conns (s : State) (k : Nat) (f : Slot → Slot) : (s.modSlot k f).conns = s.conns := rfl
@[simp] theorem State.modSlot_elemsOut (s : State) (k : Nat) (f : Slot → Slot) : (s.modSlot k f).elemsOut = s.elemsOut := rfl
@[simp] theorem State.modSlot_inGathers (s : State) (k : Nat) (f : Slot → Slot) : (s.modSlot k f).inGathers = s.inGathers := rfl
@[simp] theorem State.modSlot_remRefs (s : State) (k : Nat) (f : Slot → Slot) : (s.modSlot k f).remRefs = s.remRefs := rfl
@[simp] theorem State.modSlot_statusIn (s : State) (k : Nat) (f : Slot → Slot) : (s.modSlot k f).statusIn = s.statusIn := rfl
@[simp] theorem State.modSlot_keys (s : State) (k : Nat) (f : Slot → Slot) : (s.modSlot k f).keys = s.keys := rfl
@[simp] theorem State.modSlot_lanes (s : State) (k : Nat) (f : Slot → Slot) : (s.modSlot k f).lanes = s.lanes := rfl
@[simp] theorem State.modSlot_laneLoss (s : State) (k : Nat) (f : Slot → Slot) : (s.modSlot k f).laneLoss = s.laneLoss := rfl
@[simp] theorem State.modSlot_lossAt (s : State) (k : Nat) (f : Slot → Slot) : (s.modSlot k f).lossAt = s.lossAt := rfl
@[simp] theorem State.modSlot_laneReqs (s : State) (k : Nat) (f : Slot → Slot) : (s.modSlot k f).laneReqs = s.laneReqs := rfl
@[simp] theorem State.modSlot_tagFails (s : State) (k : Nat) (f : Slot → Slot) : (s.modSlot k f).tagFails = s.tagFails := rfl
@[simp] theorem State.modSlot_sentFrames (s : State) (k : Nat) (f : Slot → Slot) : (s.modSlot k f).sentFrames = s.sentFrames := rfl
@[simp] theorem State.modSlot_mxMsgs (s : State) (k : Nat) (f : Slot → Slot) : (s.modSlot k f).mxMsgs = s.mxMsgs := rfl
@[simp] theorem State.modSlot_pgq (s : State) (k : Nat) (f : Slot → Slot) : (s.modSlot k f).pgq = s.pgq := rfl
@[simp] theorem State.modSlot_sentBlocks (s : State) (k : Nat) (f : Slot → Slot) : (s.modSlot k f).sentBlocks = s.sentBlocks := rfl
@[simp] theorem State.modSlot_flash (s : State) (k : Nat) (f : Slot → Slot) : (s.modSlot k f).flash = s.flash := rfl
@[simp] theorem State.modSlot_ports (s : State) (k : Nat) (f : Slot → Slot) : (s.modSlot k f).ports = s.ports := rfl
@[simp] theorem State.modSlot_portWait (s : State) (k : Nat) (f : Slot → Slot) : (s.modSlot k f).portWait = s.portWait := rfl
@[simp] theorem State.modSlot_portHeld (s : State) (k : Nat) (f : Slot → Slot) : (s.modSlot k f).portHeld = s.portHeld := rfl
@[simp] theorem State.modSlot_keycmd (s : State) (k : Nat) (f : Slot → Slot) : (s.modSlot k f).keycmd = s.keycmd := rfl
@[simp] theorem State.modSlot_resv (s : State) (k : Nat) (f : Slot → Slot) : (s.modSlot k f).resv = s.resv := rfl
@[simp] theorem State.modSlot_ringBase (s : State) (k : Nat) (f : Slot → Slot) : (s.modSlot k f).ringBase = s.ringBase := rfl
@[simp] theorem State.modSlot_ringSize (s : State) (k : Nat) (f : Slot → Slot) : (s.modSlot k f).ringSize = s.ringSize := rfl
@[simp] theorem State.modSlot_ringNext (s : State) (k : Nat) (f : Slot → Slot) : (s.modSlot k f).ringNext = s.ringNext := rfl
@[simp] theorem State.modSlot_drops (s : State) (k : Nat) (f : Slot → Slot) : (s.modSlot k f).drops = s.drops := rfl
@[simp] theorem State.modSlot_ring (s : State) (k : Nat) (f : Slot → Slot) : (s.modSlot k f).ring = s.ring := rfl
@[simp] theorem State.modSlot_hirqs (s : State) (k : Nat) (f : Slot → Slot) : (s.modSlot k f).hirqs = s.hirqs := rfl
@[simp] theorem State.modSlot_journal (s : State) (k : Nat) (f : Slot → Slot) : (s.modSlot k f).journal = s.journal := rfl
@[simp] theorem State.modSlot_jseq (s : State) (k : Nat) (f : Slot → Slot) : (s.modSlot k f).jseq = s.jseq := rfl
@[simp] theorem State.modSlot_startrec (s : State) (k : Nat) (f : Slot → Slot) : (s.modSlot k f).startrec = s.startrec := rfl
@[simp] theorem State.modSlot_measM (s : State) (k : Nat) (f : Slot → Slot) : (s.modSlot k f).measM = s.measM := rfl
@[simp] theorem State.modSlot_measLog (s : State) (k : Nat) (f : Slot → Slot) : (s.modSlot k f).measLog = s.measLog := rfl
@[simp] theorem State.modSlot_phase (s : State) (k : Nat) (f : Slot → Slot) : (s.modSlot k f).phase = s.phase := rfl
@[simp] theorem State.modSlot_hot (s : State) (k : Nat) (f : Slot → Slot) : (s.modSlot k f).hot = s.hot := rfl
@[simp] theorem State.modSlot_throttled (s : State) (k : Nat) (f : Slot → Slot) : (s.modSlot k f).throttled = s.throttled := rfl
@[simp] theorem State.modSlot_checkpointing (s : State) (k : Nat) (f : Slot → Slot) : (s.modSlot k f).checkpointing = s.checkpointing := rfl
@[simp] theorem State.modSlot_answer (s : State) (k : Nat) (f : Slot → Slot) : (s.modSlot k f).answer = s.answer := rfl
@[simp] theorem State.modSlot_sched (s : State) (k : Nat) (f : Slot → Slot) : (s.modSlot k f).sched = s.sched := rfl
@[simp] theorem State.modSlot_cur (s : State) (k : Nat) (f : Slot → Slot) : (s.modSlot k f).cur = s.cur := rfl
@[simp] theorem State.modSlot_serial (s : State) (k : Nat) (f : Slot → Slot) : (s.modSlot k f).serial = s.serial := rfl
@[simp] theorem State.modSlot_draws (s : State) (k : Nat) (f : Slot → Slot) : (s.modSlot k f).draws = s.draws := rfl

/-! ### modCore -/

@[simp] theorem State.modCore_mem (s : State) (k : Nat) (f : Core → Core) : (s.modCore k f).mem = s.mem := rfl
@[simp] theorem State.modCore_fulls (s : State) (k : Nat) (f : Core → Core) : (s.modCore k f).fulls = s.fulls := rfl
@[simp] theorem State.modCore_broken (s : State) (k : Nat) (f : Core → Core) : (s.modCore k f).broken = s.broken := rfl
@[simp] theorem State.modCore_corrected (s : State) (k : Nat) (f : Core → Core) : (s.modCore k f).corrected = s.corrected := rfl
@[simp] theorem State.modCore_cyc (s : State) (k : Nat) (f : Core → Core) : (s.modCore k f).cyc = s.cyc := rfl
@[simp] theorem State.modCore_zid (s : State) (k : Nat) (f : Core → Core) : (s.modCore k f).zid = s.zid := rfl
@[simp] theorem State.modCore_fpkg (s : State) (k : Nat) (f : Core → Core) : (s.modCore k f).fpkg = s.fpkg := rfl
@[simp] theorem State.modCore_sptbase (s : State) (k : Nat) (f : Core → Core) : (s.modCore k f).sptbase = s.sptbase := rfl
@[simp] theorem State.modCore_slots (s : State) (k : Nat) (f : Core → Core) : (s.modCore k f).slots = s.slots := rfl
@[simp] theorem State.modCore_quires (s : State) (k : Nat) (f : Core → Core) : (s.modCore k f).quires = s.quires := rfl
@[simp] theorem State.modCore_isles (s : State) (k : Nat) (f : Core → Core) : (s.modCore k f).isles = s.isles := rfl
@[simp] theorem State.modCore_sets (s : State) (k : Nat) (f : Core → Core) : (s.modCore k f).sets = s.sets := rfl
@[simp] theorem State.modCore_bars (s : State) (k : Nat) (f : Core → Core) : (s.modCore k f).bars = s.bars := rfl
@[simp] theorem State.modCore_moors (s : State) (k : Nat) (f : Core → Core) : (s.modCore k f).moors = s.moors := rfl
@[simp] theorem State.modCore_accs (s : State) (k : Nat) (f : Core → Core) : (s.modCore k f).accs = s.accs := rfl
@[simp] theorem State.modCore_refs (s : State) (k : Nat) (f : Core → Core) : (s.modCore k f).refs = s.refs := rfl
@[simp] theorem State.modCore_replies (s : State) (k : Nat) (f : Core → Core) : (s.modCore k f).replies = s.replies := rfl
@[simp] theorem State.modCore_acks (s : State) (k : Nat) (f : Core → Core) : (s.modCore k f).acks = s.acks := rfl
@[simp] theorem State.modCore_mesh (s : State) (k : Nat) (f : Core → Core) : (s.modCore k f).mesh = s.mesh := rfl
@[simp] theorem State.modCore_evUpds (s : State) (k : Nat) (f : Core → Core) : (s.modCore k f).evUpds = s.evUpds := rfl
@[simp] theorem State.modCore_codeFills (s : State) (k : Nat) (f : Core → Core) : (s.modCore k f).codeFills = s.codeFills := rfl
@[simp] theorem State.modCore_walks (s : State) (k : Nat) (f : Core → Core) : (s.modCore k f).walks = s.walks := rfl
@[simp] theorem State.modCore_folioWait (s : State) (k : Nat) (f : Core → Core) : (s.modCore k f).folioWait = s.folioWait := rfl
@[simp] theorem State.modCore_folios (s : State) (k : Nat) (f : Core → Core) : (s.modCore k f).folios = s.folios := rfl
@[simp] theorem State.modCore_froute (s : State) (k : Nat) (f : Core → Core) : (s.modCore k f).froute = s.froute := rfl
@[simp] theorem State.modCore_windows (s : State) (k : Nat) (f : Core → Core) : (s.modCore k f).windows = s.windows := rfl
@[simp] theorem State.modCore_conns (s : State) (k : Nat) (f : Core → Core) : (s.modCore k f).conns = s.conns := rfl
@[simp] theorem State.modCore_elemsOut (s : State) (k : Nat) (f : Core → Core) : (s.modCore k f).elemsOut = s.elemsOut := rfl
@[simp] theorem State.modCore_inGathers (s : State) (k : Nat) (f : Core → Core) : (s.modCore k f).inGathers = s.inGathers := rfl
@[simp] theorem State.modCore_remRefs (s : State) (k : Nat) (f : Core → Core) : (s.modCore k f).remRefs = s.remRefs := rfl
@[simp] theorem State.modCore_statusIn (s : State) (k : Nat) (f : Core → Core) : (s.modCore k f).statusIn = s.statusIn := rfl
@[simp] theorem State.modCore_keys (s : State) (k : Nat) (f : Core → Core) : (s.modCore k f).keys = s.keys := rfl
@[simp] theorem State.modCore_lanes (s : State) (k : Nat) (f : Core → Core) : (s.modCore k f).lanes = s.lanes := rfl
@[simp] theorem State.modCore_laneLoss (s : State) (k : Nat) (f : Core → Core) : (s.modCore k f).laneLoss = s.laneLoss := rfl
@[simp] theorem State.modCore_lossAt (s : State) (k : Nat) (f : Core → Core) : (s.modCore k f).lossAt = s.lossAt := rfl
@[simp] theorem State.modCore_laneReqs (s : State) (k : Nat) (f : Core → Core) : (s.modCore k f).laneReqs = s.laneReqs := rfl
@[simp] theorem State.modCore_tagFails (s : State) (k : Nat) (f : Core → Core) : (s.modCore k f).tagFails = s.tagFails := rfl
@[simp] theorem State.modCore_sentFrames (s : State) (k : Nat) (f : Core → Core) : (s.modCore k f).sentFrames = s.sentFrames := rfl
@[simp] theorem State.modCore_mxMsgs (s : State) (k : Nat) (f : Core → Core) : (s.modCore k f).mxMsgs = s.mxMsgs := rfl
@[simp] theorem State.modCore_pgq (s : State) (k : Nat) (f : Core → Core) : (s.modCore k f).pgq = s.pgq := rfl
@[simp] theorem State.modCore_sentBlocks (s : State) (k : Nat) (f : Core → Core) : (s.modCore k f).sentBlocks = s.sentBlocks := rfl
@[simp] theorem State.modCore_flash (s : State) (k : Nat) (f : Core → Core) : (s.modCore k f).flash = s.flash := rfl
@[simp] theorem State.modCore_ports (s : State) (k : Nat) (f : Core → Core) : (s.modCore k f).ports = s.ports := rfl
@[simp] theorem State.modCore_portWait (s : State) (k : Nat) (f : Core → Core) : (s.modCore k f).portWait = s.portWait := rfl
@[simp] theorem State.modCore_portHeld (s : State) (k : Nat) (f : Core → Core) : (s.modCore k f).portHeld = s.portHeld := rfl
@[simp] theorem State.modCore_keycmd (s : State) (k : Nat) (f : Core → Core) : (s.modCore k f).keycmd = s.keycmd := rfl
@[simp] theorem State.modCore_resv (s : State) (k : Nat) (f : Core → Core) : (s.modCore k f).resv = s.resv := rfl
@[simp] theorem State.modCore_ringBase (s : State) (k : Nat) (f : Core → Core) : (s.modCore k f).ringBase = s.ringBase := rfl
@[simp] theorem State.modCore_ringSize (s : State) (k : Nat) (f : Core → Core) : (s.modCore k f).ringSize = s.ringSize := rfl
@[simp] theorem State.modCore_ringNext (s : State) (k : Nat) (f : Core → Core) : (s.modCore k f).ringNext = s.ringNext := rfl
@[simp] theorem State.modCore_drops (s : State) (k : Nat) (f : Core → Core) : (s.modCore k f).drops = s.drops := rfl
@[simp] theorem State.modCore_ring (s : State) (k : Nat) (f : Core → Core) : (s.modCore k f).ring = s.ring := rfl
@[simp] theorem State.modCore_hirqs (s : State) (k : Nat) (f : Core → Core) : (s.modCore k f).hirqs = s.hirqs := rfl
@[simp] theorem State.modCore_journal (s : State) (k : Nat) (f : Core → Core) : (s.modCore k f).journal = s.journal := rfl
@[simp] theorem State.modCore_jseq (s : State) (k : Nat) (f : Core → Core) : (s.modCore k f).jseq = s.jseq := rfl
@[simp] theorem State.modCore_startrec (s : State) (k : Nat) (f : Core → Core) : (s.modCore k f).startrec = s.startrec := rfl
@[simp] theorem State.modCore_measM (s : State) (k : Nat) (f : Core → Core) : (s.modCore k f).measM = s.measM := rfl
@[simp] theorem State.modCore_measLog (s : State) (k : Nat) (f : Core → Core) : (s.modCore k f).measLog = s.measLog := rfl
@[simp] theorem State.modCore_phase (s : State) (k : Nat) (f : Core → Core) : (s.modCore k f).phase = s.phase := rfl
@[simp] theorem State.modCore_hot (s : State) (k : Nat) (f : Core → Core) : (s.modCore k f).hot = s.hot := rfl
@[simp] theorem State.modCore_throttled (s : State) (k : Nat) (f : Core → Core) : (s.modCore k f).throttled = s.throttled := rfl
@[simp] theorem State.modCore_checkpointing (s : State) (k : Nat) (f : Core → Core) : (s.modCore k f).checkpointing = s.checkpointing := rfl
@[simp] theorem State.modCore_answer (s : State) (k : Nat) (f : Core → Core) : (s.modCore k f).answer = s.answer := rfl
@[simp] theorem State.modCore_sched (s : State) (k : Nat) (f : Core → Core) : (s.modCore k f).sched = s.sched := rfl
@[simp] theorem State.modCore_cur (s : State) (k : Nat) (f : Core → Core) : (s.modCore k f).cur = s.cur := rfl
@[simp] theorem State.modCore_serial (s : State) (k : Nat) (f : Core → Core) : (s.modCore k f).serial = s.serial := rfl
@[simp] theorem State.modCore_draws (s : State) (k : Nat) (f : Core → Core) : (s.modCore k f).draws = s.draws := rfl

/-! ### modQuire -/

@[simp] theorem State.modQuire_mem (s : State) (k : Nat) (f : Quire → Quire) : (s.modQuire k f).mem = s.mem := rfl
@[simp] theorem State.modQuire_fulls (s : State) (k : Nat) (f : Quire → Quire) : (s.modQuire k f).fulls = s.fulls := rfl
@[simp] theorem State.modQuire_broken (s : State) (k : Nat) (f : Quire → Quire) : (s.modQuire k f).broken = s.broken := rfl
@[simp] theorem State.modQuire_corrected (s : State) (k : Nat) (f : Quire → Quire) : (s.modQuire k f).corrected = s.corrected := rfl
@[simp] theorem State.modQuire_cyc (s : State) (k : Nat) (f : Quire → Quire) : (s.modQuire k f).cyc = s.cyc := rfl
@[simp] theorem State.modQuire_zid (s : State) (k : Nat) (f : Quire → Quire) : (s.modQuire k f).zid = s.zid := rfl
@[simp] theorem State.modQuire_fpkg (s : State) (k : Nat) (f : Quire → Quire) : (s.modQuire k f).fpkg = s.fpkg := rfl
@[simp] theorem State.modQuire_sptbase (s : State) (k : Nat) (f : Quire → Quire) : (s.modQuire k f).sptbase = s.sptbase := rfl
@[simp] theorem State.modQuire_slots (s : State) (k : Nat) (f : Quire → Quire) : (s.modQuire k f).slots = s.slots := rfl
@[simp] theorem State.modQuire_cores (s : State) (k : Nat) (f : Quire → Quire) : (s.modQuire k f).cores = s.cores := rfl
@[simp] theorem State.modQuire_isles (s : State) (k : Nat) (f : Quire → Quire) : (s.modQuire k f).isles = s.isles := rfl
@[simp] theorem State.modQuire_sets (s : State) (k : Nat) (f : Quire → Quire) : (s.modQuire k f).sets = s.sets := rfl
@[simp] theorem State.modQuire_bars (s : State) (k : Nat) (f : Quire → Quire) : (s.modQuire k f).bars = s.bars := rfl
@[simp] theorem State.modQuire_moors (s : State) (k : Nat) (f : Quire → Quire) : (s.modQuire k f).moors = s.moors := rfl
@[simp] theorem State.modQuire_accs (s : State) (k : Nat) (f : Quire → Quire) : (s.modQuire k f).accs = s.accs := rfl
@[simp] theorem State.modQuire_refs (s : State) (k : Nat) (f : Quire → Quire) : (s.modQuire k f).refs = s.refs := rfl
@[simp] theorem State.modQuire_replies (s : State) (k : Nat) (f : Quire → Quire) : (s.modQuire k f).replies = s.replies := rfl
@[simp] theorem State.modQuire_acks (s : State) (k : Nat) (f : Quire → Quire) : (s.modQuire k f).acks = s.acks := rfl
@[simp] theorem State.modQuire_mesh (s : State) (k : Nat) (f : Quire → Quire) : (s.modQuire k f).mesh = s.mesh := rfl
@[simp] theorem State.modQuire_evUpds (s : State) (k : Nat) (f : Quire → Quire) : (s.modQuire k f).evUpds = s.evUpds := rfl
@[simp] theorem State.modQuire_codeFills (s : State) (k : Nat) (f : Quire → Quire) : (s.modQuire k f).codeFills = s.codeFills := rfl
@[simp] theorem State.modQuire_walks (s : State) (k : Nat) (f : Quire → Quire) : (s.modQuire k f).walks = s.walks := rfl
@[simp] theorem State.modQuire_folioWait (s : State) (k : Nat) (f : Quire → Quire) : (s.modQuire k f).folioWait = s.folioWait := rfl
@[simp] theorem State.modQuire_folios (s : State) (k : Nat) (f : Quire → Quire) : (s.modQuire k f).folios = s.folios := rfl
@[simp] theorem State.modQuire_froute (s : State) (k : Nat) (f : Quire → Quire) : (s.modQuire k f).froute = s.froute := rfl
@[simp] theorem State.modQuire_windows (s : State) (k : Nat) (f : Quire → Quire) : (s.modQuire k f).windows = s.windows := rfl
@[simp] theorem State.modQuire_conns (s : State) (k : Nat) (f : Quire → Quire) : (s.modQuire k f).conns = s.conns := rfl
@[simp] theorem State.modQuire_elemsOut (s : State) (k : Nat) (f : Quire → Quire) : (s.modQuire k f).elemsOut = s.elemsOut := rfl
@[simp] theorem State.modQuire_inGathers (s : State) (k : Nat) (f : Quire → Quire) : (s.modQuire k f).inGathers = s.inGathers := rfl
@[simp] theorem State.modQuire_remRefs (s : State) (k : Nat) (f : Quire → Quire) : (s.modQuire k f).remRefs = s.remRefs := rfl
@[simp] theorem State.modQuire_statusIn (s : State) (k : Nat) (f : Quire → Quire) : (s.modQuire k f).statusIn = s.statusIn := rfl
@[simp] theorem State.modQuire_keys (s : State) (k : Nat) (f : Quire → Quire) : (s.modQuire k f).keys = s.keys := rfl
@[simp] theorem State.modQuire_lanes (s : State) (k : Nat) (f : Quire → Quire) : (s.modQuire k f).lanes = s.lanes := rfl
@[simp] theorem State.modQuire_laneLoss (s : State) (k : Nat) (f : Quire → Quire) : (s.modQuire k f).laneLoss = s.laneLoss := rfl
@[simp] theorem State.modQuire_lossAt (s : State) (k : Nat) (f : Quire → Quire) : (s.modQuire k f).lossAt = s.lossAt := rfl
@[simp] theorem State.modQuire_laneReqs (s : State) (k : Nat) (f : Quire → Quire) : (s.modQuire k f).laneReqs = s.laneReqs := rfl
@[simp] theorem State.modQuire_tagFails (s : State) (k : Nat) (f : Quire → Quire) : (s.modQuire k f).tagFails = s.tagFails := rfl
@[simp] theorem State.modQuire_sentFrames (s : State) (k : Nat) (f : Quire → Quire) : (s.modQuire k f).sentFrames = s.sentFrames := rfl
@[simp] theorem State.modQuire_mxMsgs (s : State) (k : Nat) (f : Quire → Quire) : (s.modQuire k f).mxMsgs = s.mxMsgs := rfl
@[simp] theorem State.modQuire_pgq (s : State) (k : Nat) (f : Quire → Quire) : (s.modQuire k f).pgq = s.pgq := rfl
@[simp] theorem State.modQuire_sentBlocks (s : State) (k : Nat) (f : Quire → Quire) : (s.modQuire k f).sentBlocks = s.sentBlocks := rfl
@[simp] theorem State.modQuire_flash (s : State) (k : Nat) (f : Quire → Quire) : (s.modQuire k f).flash = s.flash := rfl
@[simp] theorem State.modQuire_ports (s : State) (k : Nat) (f : Quire → Quire) : (s.modQuire k f).ports = s.ports := rfl
@[simp] theorem State.modQuire_portWait (s : State) (k : Nat) (f : Quire → Quire) : (s.modQuire k f).portWait = s.portWait := rfl
@[simp] theorem State.modQuire_portHeld (s : State) (k : Nat) (f : Quire → Quire) : (s.modQuire k f).portHeld = s.portHeld := rfl
@[simp] theorem State.modQuire_keycmd (s : State) (k : Nat) (f : Quire → Quire) : (s.modQuire k f).keycmd = s.keycmd := rfl
@[simp] theorem State.modQuire_resv (s : State) (k : Nat) (f : Quire → Quire) : (s.modQuire k f).resv = s.resv := rfl
@[simp] theorem State.modQuire_ringBase (s : State) (k : Nat) (f : Quire → Quire) : (s.modQuire k f).ringBase = s.ringBase := rfl
@[simp] theorem State.modQuire_ringSize (s : State) (k : Nat) (f : Quire → Quire) : (s.modQuire k f).ringSize = s.ringSize := rfl
@[simp] theorem State.modQuire_ringNext (s : State) (k : Nat) (f : Quire → Quire) : (s.modQuire k f).ringNext = s.ringNext := rfl
@[simp] theorem State.modQuire_drops (s : State) (k : Nat) (f : Quire → Quire) : (s.modQuire k f).drops = s.drops := rfl
@[simp] theorem State.modQuire_ring (s : State) (k : Nat) (f : Quire → Quire) : (s.modQuire k f).ring = s.ring := rfl
@[simp] theorem State.modQuire_hirqs (s : State) (k : Nat) (f : Quire → Quire) : (s.modQuire k f).hirqs = s.hirqs := rfl
@[simp] theorem State.modQuire_journal (s : State) (k : Nat) (f : Quire → Quire) : (s.modQuire k f).journal = s.journal := rfl
@[simp] theorem State.modQuire_jseq (s : State) (k : Nat) (f : Quire → Quire) : (s.modQuire k f).jseq = s.jseq := rfl
@[simp] theorem State.modQuire_startrec (s : State) (k : Nat) (f : Quire → Quire) : (s.modQuire k f).startrec = s.startrec := rfl
@[simp] theorem State.modQuire_measM (s : State) (k : Nat) (f : Quire → Quire) : (s.modQuire k f).measM = s.measM := rfl
@[simp] theorem State.modQuire_measLog (s : State) (k : Nat) (f : Quire → Quire) : (s.modQuire k f).measLog = s.measLog := rfl
@[simp] theorem State.modQuire_phase (s : State) (k : Nat) (f : Quire → Quire) : (s.modQuire k f).phase = s.phase := rfl
@[simp] theorem State.modQuire_hot (s : State) (k : Nat) (f : Quire → Quire) : (s.modQuire k f).hot = s.hot := rfl
@[simp] theorem State.modQuire_throttled (s : State) (k : Nat) (f : Quire → Quire) : (s.modQuire k f).throttled = s.throttled := rfl
@[simp] theorem State.modQuire_checkpointing (s : State) (k : Nat) (f : Quire → Quire) : (s.modQuire k f).checkpointing = s.checkpointing := rfl
@[simp] theorem State.modQuire_answer (s : State) (k : Nat) (f : Quire → Quire) : (s.modQuire k f).answer = s.answer := rfl
@[simp] theorem State.modQuire_sched (s : State) (k : Nat) (f : Quire → Quire) : (s.modQuire k f).sched = s.sched := rfl
@[simp] theorem State.modQuire_cur (s : State) (k : Nat) (f : Quire → Quire) : (s.modQuire k f).cur = s.cur := rfl
@[simp] theorem State.modQuire_serial (s : State) (k : Nat) (f : Quire → Quire) : (s.modQuire k f).serial = s.serial := rfl
@[simp] theorem State.modQuire_draws (s : State) (k : Nat) (f : Quire → Quire) : (s.modQuire k f).draws = s.draws := rfl

/-! ### modIsle -/

@[simp] theorem State.modIsle_mem (s : State) (k : Nat) (f : Isle → Isle) : (s.modIsle k f).mem = s.mem := rfl
@[simp] theorem State.modIsle_fulls (s : State) (k : Nat) (f : Isle → Isle) : (s.modIsle k f).fulls = s.fulls := rfl
@[simp] theorem State.modIsle_broken (s : State) (k : Nat) (f : Isle → Isle) : (s.modIsle k f).broken = s.broken := rfl
@[simp] theorem State.modIsle_corrected (s : State) (k : Nat) (f : Isle → Isle) : (s.modIsle k f).corrected = s.corrected := rfl
@[simp] theorem State.modIsle_cyc (s : State) (k : Nat) (f : Isle → Isle) : (s.modIsle k f).cyc = s.cyc := rfl
@[simp] theorem State.modIsle_zid (s : State) (k : Nat) (f : Isle → Isle) : (s.modIsle k f).zid = s.zid := rfl
@[simp] theorem State.modIsle_fpkg (s : State) (k : Nat) (f : Isle → Isle) : (s.modIsle k f).fpkg = s.fpkg := rfl
@[simp] theorem State.modIsle_sptbase (s : State) (k : Nat) (f : Isle → Isle) : (s.modIsle k f).sptbase = s.sptbase := rfl
@[simp] theorem State.modIsle_slots (s : State) (k : Nat) (f : Isle → Isle) : (s.modIsle k f).slots = s.slots := rfl
@[simp] theorem State.modIsle_cores (s : State) (k : Nat) (f : Isle → Isle) : (s.modIsle k f).cores = s.cores := rfl
@[simp] theorem State.modIsle_quires (s : State) (k : Nat) (f : Isle → Isle) : (s.modIsle k f).quires = s.quires := rfl
@[simp] theorem State.modIsle_sets (s : State) (k : Nat) (f : Isle → Isle) : (s.modIsle k f).sets = s.sets := rfl
@[simp] theorem State.modIsle_bars (s : State) (k : Nat) (f : Isle → Isle) : (s.modIsle k f).bars = s.bars := rfl
@[simp] theorem State.modIsle_moors (s : State) (k : Nat) (f : Isle → Isle) : (s.modIsle k f).moors = s.moors := rfl
@[simp] theorem State.modIsle_accs (s : State) (k : Nat) (f : Isle → Isle) : (s.modIsle k f).accs = s.accs := rfl
@[simp] theorem State.modIsle_refs (s : State) (k : Nat) (f : Isle → Isle) : (s.modIsle k f).refs = s.refs := rfl
@[simp] theorem State.modIsle_replies (s : State) (k : Nat) (f : Isle → Isle) : (s.modIsle k f).replies = s.replies := rfl
@[simp] theorem State.modIsle_acks (s : State) (k : Nat) (f : Isle → Isle) : (s.modIsle k f).acks = s.acks := rfl
@[simp] theorem State.modIsle_mesh (s : State) (k : Nat) (f : Isle → Isle) : (s.modIsle k f).mesh = s.mesh := rfl
@[simp] theorem State.modIsle_evUpds (s : State) (k : Nat) (f : Isle → Isle) : (s.modIsle k f).evUpds = s.evUpds := rfl
@[simp] theorem State.modIsle_codeFills (s : State) (k : Nat) (f : Isle → Isle) : (s.modIsle k f).codeFills = s.codeFills := rfl
@[simp] theorem State.modIsle_walks (s : State) (k : Nat) (f : Isle → Isle) : (s.modIsle k f).walks = s.walks := rfl
@[simp] theorem State.modIsle_folioWait (s : State) (k : Nat) (f : Isle → Isle) : (s.modIsle k f).folioWait = s.folioWait := rfl
@[simp] theorem State.modIsle_folios (s : State) (k : Nat) (f : Isle → Isle) : (s.modIsle k f).folios = s.folios := rfl
@[simp] theorem State.modIsle_froute (s : State) (k : Nat) (f : Isle → Isle) : (s.modIsle k f).froute = s.froute := rfl
@[simp] theorem State.modIsle_windows (s : State) (k : Nat) (f : Isle → Isle) : (s.modIsle k f).windows = s.windows := rfl
@[simp] theorem State.modIsle_conns (s : State) (k : Nat) (f : Isle → Isle) : (s.modIsle k f).conns = s.conns := rfl
@[simp] theorem State.modIsle_elemsOut (s : State) (k : Nat) (f : Isle → Isle) : (s.modIsle k f).elemsOut = s.elemsOut := rfl
@[simp] theorem State.modIsle_inGathers (s : State) (k : Nat) (f : Isle → Isle) : (s.modIsle k f).inGathers = s.inGathers := rfl
@[simp] theorem State.modIsle_remRefs (s : State) (k : Nat) (f : Isle → Isle) : (s.modIsle k f).remRefs = s.remRefs := rfl
@[simp] theorem State.modIsle_statusIn (s : State) (k : Nat) (f : Isle → Isle) : (s.modIsle k f).statusIn = s.statusIn := rfl
@[simp] theorem State.modIsle_keys (s : State) (k : Nat) (f : Isle → Isle) : (s.modIsle k f).keys = s.keys := rfl
@[simp] theorem State.modIsle_lanes (s : State) (k : Nat) (f : Isle → Isle) : (s.modIsle k f).lanes = s.lanes := rfl
@[simp] theorem State.modIsle_laneLoss (s : State) (k : Nat) (f : Isle → Isle) : (s.modIsle k f).laneLoss = s.laneLoss := rfl
@[simp] theorem State.modIsle_lossAt (s : State) (k : Nat) (f : Isle → Isle) : (s.modIsle k f).lossAt = s.lossAt := rfl
@[simp] theorem State.modIsle_laneReqs (s : State) (k : Nat) (f : Isle → Isle) : (s.modIsle k f).laneReqs = s.laneReqs := rfl
@[simp] theorem State.modIsle_tagFails (s : State) (k : Nat) (f : Isle → Isle) : (s.modIsle k f).tagFails = s.tagFails := rfl
@[simp] theorem State.modIsle_sentFrames (s : State) (k : Nat) (f : Isle → Isle) : (s.modIsle k f).sentFrames = s.sentFrames := rfl
@[simp] theorem State.modIsle_mxMsgs (s : State) (k : Nat) (f : Isle → Isle) : (s.modIsle k f).mxMsgs = s.mxMsgs := rfl
@[simp] theorem State.modIsle_pgq (s : State) (k : Nat) (f : Isle → Isle) : (s.modIsle k f).pgq = s.pgq := rfl
@[simp] theorem State.modIsle_sentBlocks (s : State) (k : Nat) (f : Isle → Isle) : (s.modIsle k f).sentBlocks = s.sentBlocks := rfl
@[simp] theorem State.modIsle_flash (s : State) (k : Nat) (f : Isle → Isle) : (s.modIsle k f).flash = s.flash := rfl
@[simp] theorem State.modIsle_ports (s : State) (k : Nat) (f : Isle → Isle) : (s.modIsle k f).ports = s.ports := rfl
@[simp] theorem State.modIsle_portWait (s : State) (k : Nat) (f : Isle → Isle) : (s.modIsle k f).portWait = s.portWait := rfl
@[simp] theorem State.modIsle_portHeld (s : State) (k : Nat) (f : Isle → Isle) : (s.modIsle k f).portHeld = s.portHeld := rfl
@[simp] theorem State.modIsle_keycmd (s : State) (k : Nat) (f : Isle → Isle) : (s.modIsle k f).keycmd = s.keycmd := rfl
@[simp] theorem State.modIsle_resv (s : State) (k : Nat) (f : Isle → Isle) : (s.modIsle k f).resv = s.resv := rfl
@[simp] theorem State.modIsle_ringBase (s : State) (k : Nat) (f : Isle → Isle) : (s.modIsle k f).ringBase = s.ringBase := rfl
@[simp] theorem State.modIsle_ringSize (s : State) (k : Nat) (f : Isle → Isle) : (s.modIsle k f).ringSize = s.ringSize := rfl
@[simp] theorem State.modIsle_ringNext (s : State) (k : Nat) (f : Isle → Isle) : (s.modIsle k f).ringNext = s.ringNext := rfl
@[simp] theorem State.modIsle_drops (s : State) (k : Nat) (f : Isle → Isle) : (s.modIsle k f).drops = s.drops := rfl
@[simp] theorem State.modIsle_ring (s : State) (k : Nat) (f : Isle → Isle) : (s.modIsle k f).ring = s.ring := rfl
@[simp] theorem State.modIsle_hirqs (s : State) (k : Nat) (f : Isle → Isle) : (s.modIsle k f).hirqs = s.hirqs := rfl
@[simp] theorem State.modIsle_journal (s : State) (k : Nat) (f : Isle → Isle) : (s.modIsle k f).journal = s.journal := rfl
@[simp] theorem State.modIsle_jseq (s : State) (k : Nat) (f : Isle → Isle) : (s.modIsle k f).jseq = s.jseq := rfl
@[simp] theorem State.modIsle_startrec (s : State) (k : Nat) (f : Isle → Isle) : (s.modIsle k f).startrec = s.startrec := rfl
@[simp] theorem State.modIsle_measM (s : State) (k : Nat) (f : Isle → Isle) : (s.modIsle k f).measM = s.measM := rfl
@[simp] theorem State.modIsle_measLog (s : State) (k : Nat) (f : Isle → Isle) : (s.modIsle k f).measLog = s.measLog := rfl
@[simp] theorem State.modIsle_phase (s : State) (k : Nat) (f : Isle → Isle) : (s.modIsle k f).phase = s.phase := rfl
@[simp] theorem State.modIsle_hot (s : State) (k : Nat) (f : Isle → Isle) : (s.modIsle k f).hot = s.hot := rfl
@[simp] theorem State.modIsle_throttled (s : State) (k : Nat) (f : Isle → Isle) : (s.modIsle k f).throttled = s.throttled := rfl
@[simp] theorem State.modIsle_checkpointing (s : State) (k : Nat) (f : Isle → Isle) : (s.modIsle k f).checkpointing = s.checkpointing := rfl
@[simp] theorem State.modIsle_answer (s : State) (k : Nat) (f : Isle → Isle) : (s.modIsle k f).answer = s.answer := rfl
@[simp] theorem State.modIsle_sched (s : State) (k : Nat) (f : Isle → Isle) : (s.modIsle k f).sched = s.sched := rfl
@[simp] theorem State.modIsle_cur (s : State) (k : Nat) (f : Isle → Isle) : (s.modIsle k f).cur = s.cur := rfl
@[simp] theorem State.modIsle_serial (s : State) (k : Nat) (f : Isle → Isle) : (s.modIsle k f).serial = s.serial := rfl
@[simp] theorem State.modIsle_draws (s : State) (k : Nat) (f : Isle → Isle) : (s.modIsle k f).draws = s.draws := rfl

/-! ### modSet -/

@[simp] theorem State.modSet_mem (s : State) (k : Nat) (f : TaskSet → TaskSet) : (s.modSet k f).mem = s.mem := rfl
@[simp] theorem State.modSet_fulls (s : State) (k : Nat) (f : TaskSet → TaskSet) : (s.modSet k f).fulls = s.fulls := rfl
@[simp] theorem State.modSet_broken (s : State) (k : Nat) (f : TaskSet → TaskSet) : (s.modSet k f).broken = s.broken := rfl
@[simp] theorem State.modSet_corrected (s : State) (k : Nat) (f : TaskSet → TaskSet) : (s.modSet k f).corrected = s.corrected := rfl
@[simp] theorem State.modSet_cyc (s : State) (k : Nat) (f : TaskSet → TaskSet) : (s.modSet k f).cyc = s.cyc := rfl
@[simp] theorem State.modSet_zid (s : State) (k : Nat) (f : TaskSet → TaskSet) : (s.modSet k f).zid = s.zid := rfl
@[simp] theorem State.modSet_fpkg (s : State) (k : Nat) (f : TaskSet → TaskSet) : (s.modSet k f).fpkg = s.fpkg := rfl
@[simp] theorem State.modSet_sptbase (s : State) (k : Nat) (f : TaskSet → TaskSet) : (s.modSet k f).sptbase = s.sptbase := rfl
@[simp] theorem State.modSet_slots (s : State) (k : Nat) (f : TaskSet → TaskSet) : (s.modSet k f).slots = s.slots := rfl
@[simp] theorem State.modSet_cores (s : State) (k : Nat) (f : TaskSet → TaskSet) : (s.modSet k f).cores = s.cores := rfl
@[simp] theorem State.modSet_quires (s : State) (k : Nat) (f : TaskSet → TaskSet) : (s.modSet k f).quires = s.quires := rfl
@[simp] theorem State.modSet_isles (s : State) (k : Nat) (f : TaskSet → TaskSet) : (s.modSet k f).isles = s.isles := rfl
@[simp] theorem State.modSet_bars (s : State) (k : Nat) (f : TaskSet → TaskSet) : (s.modSet k f).bars = s.bars := rfl
@[simp] theorem State.modSet_moors (s : State) (k : Nat) (f : TaskSet → TaskSet) : (s.modSet k f).moors = s.moors := rfl
@[simp] theorem State.modSet_accs (s : State) (k : Nat) (f : TaskSet → TaskSet) : (s.modSet k f).accs = s.accs := rfl
@[simp] theorem State.modSet_refs (s : State) (k : Nat) (f : TaskSet → TaskSet) : (s.modSet k f).refs = s.refs := rfl
@[simp] theorem State.modSet_replies (s : State) (k : Nat) (f : TaskSet → TaskSet) : (s.modSet k f).replies = s.replies := rfl
@[simp] theorem State.modSet_acks (s : State) (k : Nat) (f : TaskSet → TaskSet) : (s.modSet k f).acks = s.acks := rfl
@[simp] theorem State.modSet_mesh (s : State) (k : Nat) (f : TaskSet → TaskSet) : (s.modSet k f).mesh = s.mesh := rfl
@[simp] theorem State.modSet_evUpds (s : State) (k : Nat) (f : TaskSet → TaskSet) : (s.modSet k f).evUpds = s.evUpds := rfl
@[simp] theorem State.modSet_codeFills (s : State) (k : Nat) (f : TaskSet → TaskSet) : (s.modSet k f).codeFills = s.codeFills := rfl
@[simp] theorem State.modSet_walks (s : State) (k : Nat) (f : TaskSet → TaskSet) : (s.modSet k f).walks = s.walks := rfl
@[simp] theorem State.modSet_folioWait (s : State) (k : Nat) (f : TaskSet → TaskSet) : (s.modSet k f).folioWait = s.folioWait := rfl
@[simp] theorem State.modSet_folios (s : State) (k : Nat) (f : TaskSet → TaskSet) : (s.modSet k f).folios = s.folios := rfl
@[simp] theorem State.modSet_froute (s : State) (k : Nat) (f : TaskSet → TaskSet) : (s.modSet k f).froute = s.froute := rfl
@[simp] theorem State.modSet_windows (s : State) (k : Nat) (f : TaskSet → TaskSet) : (s.modSet k f).windows = s.windows := rfl
@[simp] theorem State.modSet_conns (s : State) (k : Nat) (f : TaskSet → TaskSet) : (s.modSet k f).conns = s.conns := rfl
@[simp] theorem State.modSet_elemsOut (s : State) (k : Nat) (f : TaskSet → TaskSet) : (s.modSet k f).elemsOut = s.elemsOut := rfl
@[simp] theorem State.modSet_inGathers (s : State) (k : Nat) (f : TaskSet → TaskSet) : (s.modSet k f).inGathers = s.inGathers := rfl
@[simp] theorem State.modSet_remRefs (s : State) (k : Nat) (f : TaskSet → TaskSet) : (s.modSet k f).remRefs = s.remRefs := rfl
@[simp] theorem State.modSet_statusIn (s : State) (k : Nat) (f : TaskSet → TaskSet) : (s.modSet k f).statusIn = s.statusIn := rfl
@[simp] theorem State.modSet_keys (s : State) (k : Nat) (f : TaskSet → TaskSet) : (s.modSet k f).keys = s.keys := rfl
@[simp] theorem State.modSet_lanes (s : State) (k : Nat) (f : TaskSet → TaskSet) : (s.modSet k f).lanes = s.lanes := rfl
@[simp] theorem State.modSet_laneLoss (s : State) (k : Nat) (f : TaskSet → TaskSet) : (s.modSet k f).laneLoss = s.laneLoss := rfl
@[simp] theorem State.modSet_lossAt (s : State) (k : Nat) (f : TaskSet → TaskSet) : (s.modSet k f).lossAt = s.lossAt := rfl
@[simp] theorem State.modSet_laneReqs (s : State) (k : Nat) (f : TaskSet → TaskSet) : (s.modSet k f).laneReqs = s.laneReqs := rfl
@[simp] theorem State.modSet_tagFails (s : State) (k : Nat) (f : TaskSet → TaskSet) : (s.modSet k f).tagFails = s.tagFails := rfl
@[simp] theorem State.modSet_sentFrames (s : State) (k : Nat) (f : TaskSet → TaskSet) : (s.modSet k f).sentFrames = s.sentFrames := rfl
@[simp] theorem State.modSet_mxMsgs (s : State) (k : Nat) (f : TaskSet → TaskSet) : (s.modSet k f).mxMsgs = s.mxMsgs := rfl
@[simp] theorem State.modSet_pgq (s : State) (k : Nat) (f : TaskSet → TaskSet) : (s.modSet k f).pgq = s.pgq := rfl
@[simp] theorem State.modSet_sentBlocks (s : State) (k : Nat) (f : TaskSet → TaskSet) : (s.modSet k f).sentBlocks = s.sentBlocks := rfl
@[simp] theorem State.modSet_flash (s : State) (k : Nat) (f : TaskSet → TaskSet) : (s.modSet k f).flash = s.flash := rfl
@[simp] theorem State.modSet_ports (s : State) (k : Nat) (f : TaskSet → TaskSet) : (s.modSet k f).ports = s.ports := rfl
@[simp] theorem State.modSet_portWait (s : State) (k : Nat) (f : TaskSet → TaskSet) : (s.modSet k f).portWait = s.portWait := rfl
@[simp] theorem State.modSet_portHeld (s : State) (k : Nat) (f : TaskSet → TaskSet) : (s.modSet k f).portHeld = s.portHeld := rfl
@[simp] theorem State.modSet_keycmd (s : State) (k : Nat) (f : TaskSet → TaskSet) : (s.modSet k f).keycmd = s.keycmd := rfl
@[simp] theorem State.modSet_resv (s : State) (k : Nat) (f : TaskSet → TaskSet) : (s.modSet k f).resv = s.resv := rfl
@[simp] theorem State.modSet_ringBase (s : State) (k : Nat) (f : TaskSet → TaskSet) : (s.modSet k f).ringBase = s.ringBase := rfl
@[simp] theorem State.modSet_ringSize (s : State) (k : Nat) (f : TaskSet → TaskSet) : (s.modSet k f).ringSize = s.ringSize := rfl
@[simp] theorem State.modSet_ringNext (s : State) (k : Nat) (f : TaskSet → TaskSet) : (s.modSet k f).ringNext = s.ringNext := rfl
@[simp] theorem State.modSet_drops (s : State) (k : Nat) (f : TaskSet → TaskSet) : (s.modSet k f).drops = s.drops := rfl
@[simp] theorem State.modSet_ring (s : State) (k : Nat) (f : TaskSet → TaskSet) : (s.modSet k f).ring = s.ring := rfl
@[simp] theorem State.modSet_hirqs (s : State) (k : Nat) (f : TaskSet → TaskSet) : (s.modSet k f).hirqs = s.hirqs := rfl
@[simp] theorem State.modSet_journal (s : State) (k : Nat) (f : TaskSet → TaskSet) : (s.modSet k f).journal = s.journal := rfl
@[simp] theorem State.modSet_jseq (s : State) (k : Nat) (f : TaskSet → TaskSet) : (s.modSet k f).jseq = s.jseq := rfl
@[simp] theorem State.modSet_startrec (s : State) (k : Nat) (f : TaskSet → TaskSet) : (s.modSet k f).startrec = s.startrec := rfl
@[simp] theorem State.modSet_measM (s : State) (k : Nat) (f : TaskSet → TaskSet) : (s.modSet k f).measM = s.measM := rfl
@[simp] theorem State.modSet_measLog (s : State) (k : Nat) (f : TaskSet → TaskSet) : (s.modSet k f).measLog = s.measLog := rfl
@[simp] theorem State.modSet_phase (s : State) (k : Nat) (f : TaskSet → TaskSet) : (s.modSet k f).phase = s.phase := rfl
@[simp] theorem State.modSet_hot (s : State) (k : Nat) (f : TaskSet → TaskSet) : (s.modSet k f).hot = s.hot := rfl
@[simp] theorem State.modSet_throttled (s : State) (k : Nat) (f : TaskSet → TaskSet) : (s.modSet k f).throttled = s.throttled := rfl
@[simp] theorem State.modSet_checkpointing (s : State) (k : Nat) (f : TaskSet → TaskSet) : (s.modSet k f).checkpointing = s.checkpointing := rfl
@[simp] theorem State.modSet_answer (s : State) (k : Nat) (f : TaskSet → TaskSet) : (s.modSet k f).answer = s.answer := rfl
@[simp] theorem State.modSet_sched (s : State) (k : Nat) (f : TaskSet → TaskSet) : (s.modSet k f).sched = s.sched := rfl
@[simp] theorem State.modSet_cur (s : State) (k : Nat) (f : TaskSet → TaskSet) : (s.modSet k f).cur = s.cur := rfl
@[simp] theorem State.modSet_serial (s : State) (k : Nat) (f : TaskSet → TaskSet) : (s.modSet k f).serial = s.serial := rfl
@[simp] theorem State.modSet_draws (s : State) (k : Nat) (f : TaskSet → TaskSet) : (s.modSet k f).draws = s.draws := rfl

/-! ### Reading a unit back -/

theorem State.slot_setSlot_same (s : State) (k : Nat) (v : Slot) (h : v ≠ Slot.init) : (s.setSlot k v).slot k = v :=
  tget_tset_listed _ _ _ _ h
theorem State.slot_setSlot_ne (s : State) (k j : Nat) (v : Slot) (h : j ≠ k) : (s.setSlot k v).slot j = s.slot j :=
  tget_tset_ne _ _ _ _ _ h
theorem State.slot_modSlot_ne (s : State) (k j : Nat) (f : Slot → Slot) (h : j ≠ k) : (s.modSlot k f).slot j = s.slot j :=
  tget_tset_ne _ _ _ _ _ h
@[simp] theorem State.slot_setCore (s : State) (k : Nat) (v : Core) (j : Nat) : (s.setCore k v).slot j = s.slot j := rfl
@[simp] theorem State.slot_modCore (s : State) (k : Nat) (f : Core → Core) (j : Nat) : (s.modCore k f).slot j = s.slot j := rfl
@[simp] theorem State.slot_setQuire (s : State) (k : Nat) (v : Quire) (j : Nat) : (s.setQuire k v).slot j = s.slot j := rfl
@[simp] theorem State.slot_modQuire (s : State) (k : Nat) (f : Quire → Quire) (j : Nat) : (s.modQuire k f).slot j = s.slot j := rfl
@[simp] theorem State.slot_setIsle (s : State) (k : Nat) (v : Isle) (j : Nat) : (s.setIsle k v).slot j = s.slot j := rfl
@[simp] theorem State.slot_modIsle (s : State) (k : Nat) (f : Isle → Isle) (j : Nat) : (s.modIsle k f).slot j = s.slot j := rfl
@[simp] theorem State.slot_setSet (s : State) (k : Nat) (v : TaskSet) (j : Nat) : (s.setSet k v).slot j = s.slot j := rfl
@[simp] theorem State.slot_modSet (s : State) (k : Nat) (f : TaskSet → TaskSet) (j : Nat) : (s.modSet k f).slot j = s.slot j := rfl
theorem State.core_setCore_same (s : State) (k : Nat) (v : Core) (h : v ≠ Core.init) : (s.setCore k v).core k = v :=
  tget_tset_listed _ _ _ _ h
theorem State.core_setCore_ne (s : State) (k j : Nat) (v : Core) (h : j ≠ k) : (s.setCore k v).core j = s.core j :=
  tget_tset_ne _ _ _ _ _ h
theorem State.core_modCore_ne (s : State) (k j : Nat) (f : Core → Core) (h : j ≠ k) : (s.modCore k f).core j = s.core j :=
  tget_tset_ne _ _ _ _ _ h
@[simp] theorem State.core_setSlot (s : State) (k : Nat) (v : Slot) (j : Nat) : (s.setSlot k v).core j = s.core j := rfl
@[simp] theorem State.core_modSlot (s : State) (k : Nat) (f : Slot → Slot) (j : Nat) : (s.modSlot k f).core j = s.core j := rfl
@[simp] theorem State.core_setQuire (s : State) (k : Nat) (v : Quire) (j : Nat) : (s.setQuire k v).core j = s.core j := rfl
@[simp] theorem State.core_modQuire (s : State) (k : Nat) (f : Quire → Quire) (j : Nat) : (s.modQuire k f).core j = s.core j := rfl
@[simp] theorem State.core_setIsle (s : State) (k : Nat) (v : Isle) (j : Nat) : (s.setIsle k v).core j = s.core j := rfl
@[simp] theorem State.core_modIsle (s : State) (k : Nat) (f : Isle → Isle) (j : Nat) : (s.modIsle k f).core j = s.core j := rfl
@[simp] theorem State.core_setSet (s : State) (k : Nat) (v : TaskSet) (j : Nat) : (s.setSet k v).core j = s.core j := rfl
@[simp] theorem State.core_modSet (s : State) (k : Nat) (f : TaskSet → TaskSet) (j : Nat) : (s.modSet k f).core j = s.core j := rfl
theorem State.quire_setQuire_same (s : State) (k : Nat) (v : Quire) (h : v ≠ Quire.init) : (s.setQuire k v).quire k = v :=
  tget_tset_listed _ _ _ _ h
theorem State.quire_setQuire_ne (s : State) (k j : Nat) (v : Quire) (h : j ≠ k) : (s.setQuire k v).quire j = s.quire j :=
  tget_tset_ne _ _ _ _ _ h
theorem State.quire_modQuire_ne (s : State) (k j : Nat) (f : Quire → Quire) (h : j ≠ k) : (s.modQuire k f).quire j = s.quire j :=
  tget_tset_ne _ _ _ _ _ h
@[simp] theorem State.quire_setSlot (s : State) (k : Nat) (v : Slot) (j : Nat) : (s.setSlot k v).quire j = s.quire j := rfl
@[simp] theorem State.quire_modSlot (s : State) (k : Nat) (f : Slot → Slot) (j : Nat) : (s.modSlot k f).quire j = s.quire j := rfl
@[simp] theorem State.quire_setCore (s : State) (k : Nat) (v : Core) (j : Nat) : (s.setCore k v).quire j = s.quire j := rfl
@[simp] theorem State.quire_modCore (s : State) (k : Nat) (f : Core → Core) (j : Nat) : (s.modCore k f).quire j = s.quire j := rfl
@[simp] theorem State.quire_setIsle (s : State) (k : Nat) (v : Isle) (j : Nat) : (s.setIsle k v).quire j = s.quire j := rfl
@[simp] theorem State.quire_modIsle (s : State) (k : Nat) (f : Isle → Isle) (j : Nat) : (s.modIsle k f).quire j = s.quire j := rfl
@[simp] theorem State.quire_setSet (s : State) (k : Nat) (v : TaskSet) (j : Nat) : (s.setSet k v).quire j = s.quire j := rfl
@[simp] theorem State.quire_modSet (s : State) (k : Nat) (f : TaskSet → TaskSet) (j : Nat) : (s.modSet k f).quire j = s.quire j := rfl
theorem State.isle_setIsle_same (s : State) (k : Nat) (v : Isle) (h : v ≠ Isle.init) : (s.setIsle k v).isle k = v :=
  tget_tset_listed _ _ _ _ h
theorem State.isle_setIsle_ne (s : State) (k j : Nat) (v : Isle) (h : j ≠ k) : (s.setIsle k v).isle j = s.isle j :=
  tget_tset_ne _ _ _ _ _ h
theorem State.isle_modIsle_ne (s : State) (k j : Nat) (f : Isle → Isle) (h : j ≠ k) : (s.modIsle k f).isle j = s.isle j :=
  tget_tset_ne _ _ _ _ _ h
@[simp] theorem State.isle_setSlot (s : State) (k : Nat) (v : Slot) (j : Nat) : (s.setSlot k v).isle j = s.isle j := rfl
@[simp] theorem State.isle_modSlot (s : State) (k : Nat) (f : Slot → Slot) (j : Nat) : (s.modSlot k f).isle j = s.isle j := rfl
@[simp] theorem State.isle_setCore (s : State) (k : Nat) (v : Core) (j : Nat) : (s.setCore k v).isle j = s.isle j := rfl
@[simp] theorem State.isle_modCore (s : State) (k : Nat) (f : Core → Core) (j : Nat) : (s.modCore k f).isle j = s.isle j := rfl
@[simp] theorem State.isle_setQuire (s : State) (k : Nat) (v : Quire) (j : Nat) : (s.setQuire k v).isle j = s.isle j := rfl
@[simp] theorem State.isle_modQuire (s : State) (k : Nat) (f : Quire → Quire) (j : Nat) : (s.modQuire k f).isle j = s.isle j := rfl
@[simp] theorem State.isle_setSet (s : State) (k : Nat) (v : TaskSet) (j : Nat) : (s.setSet k v).isle j = s.isle j := rfl
@[simp] theorem State.isle_modSet (s : State) (k : Nat) (f : TaskSet → TaskSet) (j : Nat) : (s.modSet k f).isle j = s.isle j := rfl
theorem State.tset__setSet_same (s : State) (k : Nat) (v : TaskSet) (h : v ≠ TaskSet.init) : (s.setSet k v).tset_ k = v :=
  tget_tset_listed _ _ _ _ h
theorem State.tset__setSet_ne (s : State) (k j : Nat) (v : TaskSet) (h : j ≠ k) : (s.setSet k v).tset_ j = s.tset_ j :=
  tget_tset_ne _ _ _ _ _ h
theorem State.tset__modSet_ne (s : State) (k j : Nat) (f : TaskSet → TaskSet) (h : j ≠ k) : (s.modSet k f).tset_ j = s.tset_ j :=
  tget_tset_ne _ _ _ _ _ h
@[simp] theorem State.tset__setSlot (s : State) (k : Nat) (v : Slot) (j : Nat) : (s.setSlot k v).tset_ j = s.tset_ j := rfl
@[simp] theorem State.tset__modSlot (s : State) (k : Nat) (f : Slot → Slot) (j : Nat) : (s.modSlot k f).tset_ j = s.tset_ j := rfl
@[simp] theorem State.tset__setCore (s : State) (k : Nat) (v : Core) (j : Nat) : (s.setCore k v).tset_ j = s.tset_ j := rfl
@[simp] theorem State.tset__modCore (s : State) (k : Nat) (f : Core → Core) (j : Nat) : (s.modCore k f).tset_ j = s.tset_ j := rfl
@[simp] theorem State.tset__setQuire (s : State) (k : Nat) (v : Quire) (j : Nat) : (s.setQuire k v).tset_ j = s.tset_ j := rfl
@[simp] theorem State.tset__modQuire (s : State) (k : Nat) (f : Quire → Quire) (j : Nat) : (s.modQuire k f).tset_ j = s.tset_ j := rfl
@[simp] theorem State.tset__setIsle (s : State) (k : Nat) (v : Isle) (j : Nat) : (s.setIsle k v).tset_ j = s.tset_ j := rfl
@[simp] theorem State.tset__modIsle (s : State) (k : Nat) (f : Isle → Isle) (j : Nat) : (s.modIsle k f).tset_ j = s.tset_ j := rfl

/-- A slot that runs a thread is no free slot. -/
theorem Slot.ne_init_of_active {t : Slot} (h : t.st = .active) : t ≠ Slot.init := by
  intro e
  rw [e] at h
  cases h

/-- The issuing slot after a change that leaves it running. -/
theorem State.me_modSlot (s : State) (f : Slot → Slot) (h : (f s.me).st = .active) : (s.modSlot s.cur f).me = f s.me :=
  State.slot_setSlot_same _ _ _ (Slot.ne_init_of_active h)

end Sys2Proof.Machine
end

