-- ==== Sys2Proof/Laws/Memory.lean ====
section
/-! SUPPORT. Memory: reading after writing, what the named operations leave of memory, and that each keeps the canonical form. -/

namespace Sys2Proof.Machine

/-! ### Reading after writing -/

theorem State.byte_setByte_same (s : State) (a : Nat) (b : Byte) (h : Memory.wf s.mem = true) : (s.setByte a b).byte a = b :=
  tget_tset_same _ _ _ _ h

theorem State.byte_setByte_ne (s : State) (a a' : Nat) (b : Byte) (h : a' ≠ a) : (s.setByte a b).byte a' = s.byte a' :=
  tget_tset_ne _ _ _ _ _ h

theorem State.writeBytes_out (s : State) (a a' : Nat) (bs : List Byte) (h : a' < a ∨ a + bs.length ≤ a') :
    (s.writeBytes a bs).byte a' = s.byte a' := by
  induction bs generalizing s a with
  | nil => rfl
  | cons b bs ih =>
    simp only [List.length_cons] at h
    rw [State.writeBytes, ih _ _ (by omega), State.byte_setByte_ne _ _ _ _ (by omega)]

theorem State.setByte_wf (s : State) (a : Nat) (b : Byte) (h : Memory.wf s.mem = true) : Memory.wf (s.setByte a b).mem = true :=
  tset_wf _ _ _ _ h

theorem State.writeBytes_wf (s : State) (a : Nat) (bs : List Byte) (h : Memory.wf s.mem = true) :
    Memory.wf (s.writeBytes a bs).mem = true := by
  induction bs generalizing s a with
  | nil => exact h
  | cons b bs ih => exact ih _ _ (s.setByte_wf a b h)

theorem State.writeBytes_in (s : State) (a i : Nat) (bs : List Byte) (h : Memory.wf s.mem = true) (hi : i < bs.length) :
    (s.writeBytes a bs).byte (a + i) = bs.getD i 0 := by
  induction bs generalizing s a i with
  | nil => simp at hi
  | cons b bs ih =>
    cases i with
    | zero =>
      rw [State.writeBytes, State.writeBytes_out _ _ _ _ (by omega)]
      exact s.byte_setByte_same a b h
    | succ i =>
      simp only [List.length_cons] at hi
      have := ih (s.setByte a b) (a + 1) i (s.setByte_wf a b h) (by omega)
      rw [State.writeBytes, show a + (i + 1) = a + 1 + i by omega, this]
      rfl

/-! ### Frames of the named operations -/

/-- A write of bytes changes the memory table only. -/
theorem State.writeBytes_rest (s : State) (a : Nat) (bs : List Byte) : s.writeBytes a bs = { s with mem := (s.writeBytes a bs).mem } := by
  induction bs generalizing s a with
  | nil => rfl
  | cons b bs ih =>
    have h := ih (s.setByte a b) (a + 1)
    rw [State.writeBytes, h]
    rfl

theorem State.writeBytes_fulls (s : State) (a : Nat) (bs : List Byte) : (s.writeBytes a bs).fulls = s.fulls := by
  rw [s.writeBytes_rest a bs]

theorem State.writeBytes_broken (s : State) (a : Nat) (bs : List Byte) : (s.writeBytes a bs).broken = s.broken := by
  rw [s.writeBytes_rest a bs]

theorem State.unreserve_mem (s : State) (a n : Nat) : (s.unreserve a n).mem = s.mem := rfl
theorem State.unreserve_fulls (s : State) (a n : Nat) : (s.unreserve a n).fulls = s.fulls := rfl
theorem State.unreserve_broken (s : State) (a n : Nat) : (s.unreserve a n).broken = s.broken := rfl

theorem State.markTile_mem (s : State) (h : Nat) : (s.markTile h).mem = s.mem := by unfold State.markTile; split <;> rfl
theorem State.markTile_fulls (s : State) (h : Nat) : (s.markTile h).fulls = s.fulls := by unfold State.markTile; split <;> rfl
theorem State.markTile_broken (s : State) (h : Nat) : (s.markTile h).broken = s.broken := by unfold State.markTile; split <;> rfl

/-- A write at a home changes no byte outside the bytes written. -/
theorem State.homeStore_out (s : State) (a a' : Nat) (bs : List Byte) (h : a' < a ∨ a + bs.length ≤ a') :
    (s.homeStore a bs).byte a' = s.byte a' := by
  have : (s.homeStore a bs).byte a' = (s.writeBytes a bs).byte a' := by
    unfold State.homeStore State.byte
    rw [State.markTile_mem, State.unreserve_mem]
  rw [this, s.writeBytes_out a a' bs h]

theorem State.setF_mem (s : State) (h : Nat) (b : Bool) : (s.setF h b).mem = s.mem := by
  unfold State.setF; rw [State.markTile_mem]
theorem State.setF_broken (s : State) (h : Nat) (b : Bool) : (s.setF h b).broken = s.broken := by
  unfold State.setF; rw [State.markTile_broken]

theorem State.fBit_setF_same (s : State) (h : Nat) (b : Bool) (hw : tabWf false s.fulls = true) : (s.setF h b).fBit h = b := by
  unfold State.fBit State.setF
  rw [State.markTile_fulls]
  exact tget_tset_same _ _ _ _ hw

theorem State.fBit_setF_ne (s : State) (h h' : Nat) (b : Bool) (hn : h' / 8 ≠ h / 8) : (s.setF h b).fBit h' = s.fBit h' := by
  unfold State.fBit State.setF
  rw [State.markTile_fulls]
  exact tget_tset_ne _ _ _ _ _ hn

/-! ### The canonical form is kept -/

theorem State.tablesWf_iff (s : State) :
    s.tablesWf = true ↔ (Memory.wf s.mem = true ∧ tabWf false s.fulls = true ∧ tabWf false s.broken = true) ∧
      tabWf Slot.init s.slots = true ∧ tabWf Core.init s.cores = true ∧ tabWf Quire.init s.quires = true ∧
      tabWf Isle.init s.isles = true ∧ tabWf TaskSet.init s.sets = true := by
  simp [State.tablesWf, and_assoc]

/-- Two states that agree on the eight tables are equally canonical. -/
theorem State.tablesWf_congr {s t : State} (h1 : t.mem = s.mem) (h2 : t.fulls = s.fulls) (h3 : t.broken = s.broken)
    (h4 : t.slots = s.slots) (h5 : t.cores = s.cores) (h6 : t.quires = s.quires) (h7 : t.isles = s.isles) (h8 : t.sets = s.sets) :
    t.tablesWf = s.tablesWf := by
  unfold State.tablesWf
  rw [h1, h2, h3, h4, h5, h6, h7, h8]

theorem State.setSlot_tablesWf (s : State) (k : Nat) (v : Slot) (h : s.tablesWf = true) : (s.setSlot k v).tablesWf = true := by
  rw [State.tablesWf_iff] at h ⊢
  exact ⟨h.1, tset_wf _ _ _ _ h.2.1, h.2.2⟩

theorem State.setCore_tablesWf (s : State) (k : Nat) (v : Core) (h : s.tablesWf = true) : (s.setCore k v).tablesWf = true := by
  rw [State.tablesWf_iff] at h ⊢
  exact ⟨h.1, h.2.1, tset_wf _ _ _ _ h.2.2.1, h.2.2.2⟩

theorem State.setQuire_tablesWf (s : State) (k : Nat) (v : Quire) (h : s.tablesWf = true) : (s.setQuire k v).tablesWf = true := by
  rw [State.tablesWf_iff] at h ⊢
  exact ⟨h.1, h.2.1, h.2.2.1, tset_wf _ _ _ _ h.2.2.2.1, h.2.2.2.2⟩

theorem State.setIsle_tablesWf (s : State) (k : Nat) (v : Isle) (h : s.tablesWf = true) : (s.setIsle k v).tablesWf = true := by
  rw [State.tablesWf_iff] at h ⊢
  exact ⟨h.1, h.2.1, h.2.2.1, h.2.2.2.1, tset_wf _ _ _ _ h.2.2.2.2.1, h.2.2.2.2.2⟩

theorem State.setSet_tablesWf (s : State) (k : Nat) (v : TaskSet) (h : s.tablesWf = true) : (s.setSet k v).tablesWf = true := by
  rw [State.tablesWf_iff] at h ⊢
  exact ⟨h.1, h.2.1, h.2.2.1, h.2.2.2.1, h.2.2.2.2.1, tset_wf _ _ _ _ h.2.2.2.2.2⟩

theorem State.modSlot_tablesWf (s : State) (k : Nat) (f : Slot → Slot) (h : s.tablesWf = true) : (s.modSlot k f).tablesWf = true :=
  s.setSlot_tablesWf k _ h
theorem State.modCore_tablesWf (s : State) (k : Nat) (f : Core → Core) (h : s.tablesWf = true) : (s.modCore k f).tablesWf = true :=
  s.setCore_tablesWf k _ h
theorem State.modQuire_tablesWf (s : State) (k : Nat) (f : Quire → Quire) (h : s.tablesWf = true) :
    (s.modQuire k f).tablesWf = true := s.setQuire_tablesWf k _ h
theorem State.modIsle_tablesWf (s : State) (k : Nat) (f : Isle → Isle) (h : s.tablesWf = true) : (s.modIsle k f).tablesWf = true :=
  s.setIsle_tablesWf k _ h
theorem State.modSet_tablesWf (s : State) (k : Nat) (f : TaskSet → TaskSet) (h : s.tablesWf = true) :
    (s.modSet k f).tablesWf = true := s.setSet_tablesWf k _ h

theorem State.setByte_tablesWf (s : State) (a : Nat) (b : Byte) (h : s.tablesWf = true) : (s.setByte a b).tablesWf = true := by
  rw [State.tablesWf_iff] at h ⊢
  exact ⟨⟨s.setByte_wf a b h.1.1, h.1.2⟩, h.2⟩

theorem State.writeBytes_tablesWf (s : State) (a : Nat) (bs : List Byte) (h : s.tablesWf = true) :
    (s.writeBytes a bs).tablesWf = true := by
  induction bs generalizing s a with
  | nil => exact h
  | cons b bs ih => exact ih _ _ (s.setByte_tablesWf a b h)

theorem State.writeWord_tablesWf (s : State) (a : Nat) (v : Word) (h : s.tablesWf = true) : (s.writeWord a v).tablesWf = true :=
  s.writeBytes_tablesWf a _ h

theorem State.writeWords_tablesWf (s : State) (a : Nat) (ws : List Word) (h : s.tablesWf = true) :
    (s.writeWords a ws).tablesWf = true := by
  induction ws generalizing s a with
  | nil => exact h
  | cons w ws ih => exact ih _ _ (s.writeWord_tablesWf a w h)

theorem State.markTile_tablesWf (s : State) (a : Nat) (h : s.tablesWf = true) : (s.markTile a).tablesWf = true := by
  unfold State.markTile
  split
  · exact s.modQuire_tablesWf _ _ h
  · exact h

theorem State.setF_tablesWf (s : State) (a : Nat) (b : Bool) (h : s.tablesWf = true) : (s.setF a b).tablesWf = true := by
  rw [State.tablesWf_iff] at h
  exact State.markTile_tablesWf _ _ ((State.tablesWf_iff _).2 ⟨⟨h.1.1, tset_wf _ _ _ _ h.1.2.1, h.1.2.2⟩, h.2⟩)

theorem State.mend_tablesWf (s : State) (a : Nat) (h : s.tablesWf = true) : (s.mend a).tablesWf = true := by
  rw [State.tablesWf_iff] at h ⊢
  exact ⟨⟨h.1.1, h.1.2.1, tset_wf _ _ _ _ h.1.2.2⟩, h.2⟩

theorem State.homeStore_tablesWf (s : State) (a : Nat) (bs : List Byte) (h : s.tablesWf = true) :
    (s.homeStore a bs).tablesWf = true :=
  State.markTile_tablesWf _ _ (s.writeBytes_tablesWf a bs h)

theorem State.homeWord_tablesWf (s : State) (a : Nat) (v : Word) (h : s.tablesWf = true) : (s.homeWord a v).tablesWf = true :=
  s.homeStore_tablesWf a _ h

/-- The run replacements of page commands, images and restores. -/
theorem State.tabPut_tablesWf (s : State) (a : Nat) (bs : List Byte) (h : s.tablesWf = true) :
    { s with mem := tabPut memDefault s.mem a bs }.tablesWf = true := by
  rw [State.tablesWf_iff] at h ⊢
  exact ⟨⟨tabPut_wf _ _ _ _ h.1.1, h.1.2⟩, h.2⟩

theorem State.putRuns_tablesWf (s : State) (a b c : Nat) (bs : List Byte) (fs gs : List Bool) (h : s.tablesWf = true) :
    { s with mem := tabPut memDefault s.mem a bs, fulls := tabPut false s.fulls b fs, broken := tabPut false s.broken c gs }.tablesWf
      = true := by
  rw [State.tablesWf_iff] at h ⊢
  exact ⟨⟨tabPut_wf _ _ _ _ h.1.1, tabPut_wf _ _ _ _ h.1.2.1, tabPut_wf _ _ _ _ h.1.2.2⟩, h.2⟩

/-- The zeroing of a tile. -/
theorem State.filter_tablesWf (s : State) (p : Nat × Byte → Bool) (q r : Nat × Bool → Bool) (h : s.tablesWf = true) :
    { s with mem := s.mem.filter p, fulls := s.fulls.filter q, broken := s.broken.filter r }.tablesWf = true := by
  rw [State.tablesWf_iff] at h ⊢
  exact ⟨⟨filter_wf _ _ _ h.1.1, filter_wf _ _ _ h.1.2.1, filter_wf _ _ _ h.1.2.2⟩, h.2⟩

/-- Clearing the errors of a range changes nothing else. -/
@[simp] theorem State.mendRange_mem (s : State) (a n : Nat) : (s.mendRange a n).mem = s.mem := rfl
@[simp] theorem State.mendRange_fulls (s : State) (a n : Nat) : (s.mendRange a n).fulls = s.fulls := rfl
@[simp] theorem State.mendRange_slots (s : State) (a n : Nat) : (s.mendRange a n).slots = s.slots := rfl
@[simp] theorem State.mendRange_quires (s : State) (a n : Nat) : (s.mendRange a n).quires = s.quires := rfl

theorem State.mendRange_tablesWf (s : State) (a n : Nat) (h : s.tablesWf = true) : (s.mendRange a n).tablesWf = true := by
  rw [State.tablesWf_iff] at h ⊢
  exact ⟨⟨h.1.1, h.1.2.1, filter_wf _ _ _ h.1.2.2⟩, h.2⟩

theorem State.setFull_tablesWf (s : State) (k : Nat) (b : Bool) (h : s.tablesWf = true) :
    { s with fulls := tset false s.fulls k b }.tablesWf = true := by
  rw [State.tablesWf_iff] at h ⊢
  exact ⟨⟨h.1.1, tset_wf _ _ _ _ h.1.2.1, h.1.2.2⟩, h.2⟩

end Sys2Proof.Machine
end

