-- ==== Sys2Proof/Laws/Ops.lean ====
section
/-! SUPPORT. What each shared operation of an issue can do, said once: `finish`, `issue`, reading, killing, writing, traps. -/

namespace Sys2Proof.Machine

/-! ### Issue results -/

@[simp] theorem State.finish_ok (s t : State) : s.finish (.ok t) = .next t := rfl

/-- An issue always leaves a next state. -/
theorem State.finish_next (s : State) (r : Res State) : ∃ t, s.finish r = .next t := by
  unfold State.finish
  split <;> exact ⟨_, rfl⟩

theorem State.issue_next (s : State) (g : Guard) (b : Res State) : ∃ t, s.issue g b = .next t := s.finish_next _

theorem State.issue_true {s : State} {g : Guard} (h : s.guardTrue g = .ok true) (b : Res State) : s.issue g b = s.finish b := by
  unfold State.issue
  rw [h]
  rfl

theorem State.issue_false {s : State} {g : Guard} (h : s.guardTrue g = .ok false) (b : Res State) : s.issue g b = .next s.advance := by
  unfold State.issue
  rw [h]
  rfl

/-! ### Reading sources -/

/-- Taking a port word changes the slot's header only. -/
theorem State.takePort_cur (s : State) (k n : Nat) : (s.takePort k n).cur = s.cur := by
  unfold State.takePort
  split <;> rfl

theorem State.takePort_me (s : State) (n : Nat) (h : s.running) : ∃ w, (s.takePort s.cur n).me = { s.me with hdr := w } := by
  unfold State.takePort
  split
  · exact ⟨s.me.hdr, rfl⟩
  · rename_i w _
    exact ⟨headerOf w, State.slot_setSlot_same _ _ _ (Slot.ne_init_of_active h)⟩

/-- The states that reads leave: the same issuing slot but for its header. -/
def Rd.Of (s : State) (r : Rd) : Prop := r.s.cur = s.cur ∧ ∃ w, r.s.me = { s.me with hdr := w }

theorem Rd.of_rd (s : State) : Rd.Of s s.rd := ⟨rfl, s.me.hdr, rfl⟩

theorem readX_of {s : State} {f : Nat} {src : Src} {r r' : Rd} {v : Word} (hs : s.running) (hr : Rd.Of s r)
    (h : readX f src r = .ok (v, r')) : Rd.Of s r' := by
  obtain ⟨hc, w, hw⟩ := hr
  unfold readX at h
  simp only at h
  split at h
  · cases h
    exact ⟨hc, w, hw⟩
  · split at h
    · cases hx : readCell (r.s.me.xCell (xIndex r.s.me.wstate src.reg.toNat)) 0 r.s.me.deadTraps src.trap
          (fun c => useValue src.reg.toNat false c f) (xIndex r.s.me.wstate src.reg.toNat) with
      | error e => rw [hx] at h; cases h
      | ok v' => rw [hx] at h; cases h; exact ⟨hc, w, hw⟩
    · split at h
      · cases h
        exact ⟨hc, w, hw⟩
      · split at h
        · cases h
          have hrun : r.s.running := by unfold State.running; rw [hw]; exact hs
          obtain ⟨w', hw'⟩ := r.s.takePort_me (src.reg.toNat - 56) hrun
          exact ⟨(r.s.takePort_cur _ _).trans hc, w', by rw [hw', hw]⟩
        · split at h <;> cases h

theorem readXs_of {s : State} {f : Nat} {srcs : List Src} {r r' : Rd} {vs : List Word} (hs : s.running) (hr : Rd.Of s r)
    (h : readXs f srcs r = .ok (vs, r')) : Rd.Of s r' := by
  induction srcs generalizing f r r' vs with
  | nil => cases h; exact hr
  | cons src rest ih =>
    unfold readXs at h
    cases hx : readX f src r with
    | error e => rw [hx] at h; cases h
    | ok p =>
      rw [hx] at h
      obtain ⟨v, r1⟩ := p
      have h1 := readX_of hs hr hx
      simp only [bind, Except.bind] at h
      cases hy : readXs (f + 1) rest r1 with
      | error e => rw [hy] at h; cases h
      | ok q =>
        rw [hy] at h
        obtain ⟨ws, r2⟩ := q
        cases h
        exact ih h1 hy

/-- A source that can be read is not pending. -/
theorem readX_notPending {s : State} {f : Nat} {src : Src} {r r' : Rd} {v : Word} (hr : Rd.Of s r)
    (h : readX f src r = .ok (v, r')) : s.pendOf src = none := by
  obtain ⟨hc, w, hw⟩ := hr
  unfold State.pendOf
  simp only
  split
  · rename_i hn
    unfold readX at h
    simp only at h
    have hn0 : ¬ src.reg.toNat = 0 := by omega
    rw [if_neg hn0, if_pos hn.2.1] at h
    have hcell : r.s.me.xCell = s.me.xCell := by rw [hw]; rfl
    have hws : r.s.me.wstate = s.me.wstate := by rw [hw]
    rw [hcell, hws] at h
    split
    · rename_i m hm
      rw [hm] at h
      simp only [readCell, hn.2.2] at h
      simp at h
      split at h
      · cases h
      · split at h <;> cases h
    · rename_i c sc o hm
      rw [hm] at h
      simp only [readCell, hn.2.2] at h
      cases h
    · rfl
  · rfl

theorem readXs_notPending {s : State} {f : Nat} {srcs : List Src} {r r' : Rd} {vs : List Word} (hs : s.running) (hr : Rd.Of s r)
    (h : readXs f srcs r = .ok (vs, r')) : srcs.filterMap s.pendOf = [] := by
  induction srcs generalizing f r r' vs with
  | nil => rfl
  | cons src rest ih =>
    unfold readXs at h
    cases hx : readX f src r with
    | error e => rw [hx] at h; cases h
    | ok p =>
      rw [hx] at h
      obtain ⟨v, r1⟩ := p
      simp only [bind, Except.bind] at h
      cases hy : readXs (f + 1) rest r1 with
      | error e => rw [hy] at h; cases h
      | ok q =>
        rw [hy] at h
        obtain ⟨ws, r2⟩ := q
        rw [List.filterMap_cons, readX_notPending hr hx, ih (readX_of hs hr hx) hy]

/-- An affine instruction whose sources can be read computes on their values (R105). -/
theorem State.affine_plain {s : State} {d : Dst} {srcs : List Src} {f : List (Word × Word) → Option (Word × Word)} {vs : List Word}
    {r : Rd} (hs : s.running) (h : readXs 0 srcs s.rd = .ok (vs, r)) {sc o : Word} (hf : f (vs.map fun v => (0, v)) = some (sc, o)) :
    s.affine d srcs f = (r.s.killXs srcs).put d o := by
  unfold State.affine
  simp only [readXs_notPending hs (Rd.of_rd s) h, agree, Bool.false_and]
  rw [if_neg (by simp)]
  simp only [h, bind, Except.bind, hf]

end Sys2Proof.Machine
end

