-- ==== Sys2Proof/Laws/Effects.lean ====
section
/-! SUPPORT. What the shared operations of an issue do when they succeed, one lemma each, and that they leave memory as it is and
the tables canonical. -/

namespace Sys2Proof.Machine

/-- A sequence of checks that succeeds has succeeded in each part. -/
theorem Res.bind_ok {α β : Type} {x : Res α} {f : α → Res β} {b : β} (h : x >>= f = .ok b) : ∃ a, x = .ok a ∧ f a = .ok b := by
  cases x with
  | error e => cases h
  | ok a => exact ⟨a, rfl, h⟩

/-! ### Outcomes of an issue -/

/-- An issue under a guard only advances, runs its body, or stops at the guard (R37). -/
theorem State.issue_cases {s : State} {g : Guard} {b : Res State} {t : State} (h : s.issue g b = .next t) :
    (s.guardTrue g = .ok false ∧ t = s.advance) ∨ (s.guardTrue g = .ok true ∧ s.finish b = .next t) ∨
      ∃ e, s.guardTrue g = .error e ∧ s.finish (.error e) = .next t := by
  unfold State.issue at h
  cases hg : s.guardTrue g with
  | error e => rw [hg] at h; exact .inr (.inr ⟨e, rfl, h⟩)
  | ok c =>
    rw [hg] at h
    cases c with
    | false => left; cases h; exact ⟨rfl, rfl⟩
    | true => exact .inr (.inl ⟨rfl, h⟩)

/-! ### Reading -/

/-- A cell that is read is FULL with the value, or DEAD without the trap mode of R124. -/
theorem readCell_ok {α τ : Type} {c : Cell α τ} {z v : α} {dt tr : Bool} {val : Nat → Word} {j : Nat}
    (h : readCell c z dt tr val j = .ok v) : c = .full v ∨ (c = .dead ∧ dt = false ∧ v = z) := by
  cases c with
  | full x => cases h; exact .inl rfl
  | dead =>
    unfold readCell at h
    cases dt with
    | true => cases h
    | false => cases h; exact .inr ⟨rfl, rfl, rfl⟩
  | catching c x =>
    unfold readCell at h
    cases tr <;> cases h
  | empty m =>
    simp only [readCell] at h
    split at h
    · cases h
    · split at h
      · cases h
      · split at h <;> cases h

/-- A guard that is settled: its predicate is FULL, or DEAD and counted as 0 (R37, R124). -/
theorem State.guardTrue_ok {s : State} {g : Guard} {b : Bool} (h : s.guardTrue g = .ok b) :
    s.me.pCell g.preg.toNat = .full (b ^^ g.neg) ∨
      (s.me.pCell g.preg.toNat = .dead ∧ s.me.deadTraps = false ∧ b = g.neg) := by
  unfold State.guardTrue at h
  simp only [bind, Except.bind] at h
  split at h
  · cases h
  · rename_i v hv
    cases h
    rcases readCell_ok hv with h1 | ⟨h1, h2, h3⟩
    · exact .inl (by rw [h1]; cases v <;> cases g.neg <;> rfl)
    · exact .inr ⟨h1, h2, by rw [h3]; cases g.neg <;> rfl⟩

/-- A predicate source that is read leaves the read state as it is. -/
theorem readP_ok {f : Nat} {src : Src} {r r' : Rd} {b : Bool} (h : readP f src r = .ok (b, r')) :
    r' = r ∧ (r.s.me.pCell src.reg.toNat = .full b ∨ (r.s.me.pCell src.reg.toNat = .dead ∧ r.s.me.deadTraps = false ∧ b = false)) := by
  unfold readP at h
  simp only [bind, Except.bind] at h
  split at h
  · cases h
  · rename_i v hv
    cases h
    exact ⟨rfl, readCell_ok hv⟩

/-! ### Writing -/

/-- A register that may be written awaits no reply; what it hands over is its binding (R125). -/
theorem writable_ok {α τ : Type} {c : Cell α τ} {j : Nat} {cw : Option Nat} (h : writable c j = .ok cw) :
    (∃ m, c = .empty m ∧ m.reply = false ∧ cw = m.cw) ∨ ((∀ m, c ≠ .empty m) ∧ cw = none) := by
  cases c with
  | empty m =>
    simp only [writable] at h
    split at h
    · cases h
    · rename_i hr
      cases h
      exact .inl ⟨m, rfl, by simpa using hr, rfl⟩
  | full v => cases h; exact .inr ⟨fun _ e => (nomatch e), rfl⟩
  | dead => cases h; exact .inr ⟨fun _ e => (nomatch e), rfl⟩
  | catching c t => cases h; exact .inr ⟨fun _ e => (nomatch e), rfl⟩

theorem State.writeXj_ok {s t : State} {j : Nat} {v : Word} (h : s.writeXj j v = .ok t) :
    ∃ cw, writable (s.me.xCell j) j = .ok cw ∧ t = (s.modSlot s.cur fun u => u.setXCell j (.full v)).resolveOpt s.cur cw v 0 := by
  unfold State.writeXj at h
  simp only [bind, Except.bind] at h
  split at h
  · cases h
  · rename_i cw hcw
    cases h
    exact ⟨cw, hcw, rfl⟩

theorem State.emptyXj_ok {s t : State} {j : Nat} (h : s.emptyXj j = .ok t) :
    ∃ cw, writable (s.me.xCell j) j = .ok cw ∧ t = s.modSlot s.cur fun u => u.setXCell j (.empty (awaiting cw)) := by
  unfold State.emptyXj at h
  simp only [bind, Except.bind] at h
  split at h
  · cases h
  · rename_i cw hcw
    cases h
    exact ⟨cw, hcw, rfl⟩

theorem State.writeP_ok {s t : State} {d : Dst} {b : Bool} (h : s.writeP d b = .ok t) :
    (d.toNat = 0 ∧ t = s) ∨ (0 < d.toNat ∧ t = s.modSlot s.cur fun u => u.setPCell d.toNat (.full b)) := by
  unfold State.writeP at h
  simp only at h
  split at h
  · rename_i hd
    cases h
    exact .inl ⟨hd, rfl⟩
  · rename_i hd
    simp only [bind, Except.bind] at h
    split at h
    · cases h
    · cases h
      exact .inr ⟨Nat.pos_of_ne_zero hd, rfl⟩

theorem State.emptyP_ok {s t : State} {n : Nat} (h : s.emptyP n = .ok t) :
    t = s.modSlot s.cur fun u => u.setPCell n (.empty (awaiting none)) := by
  unfold State.emptyP at h
  simp only [bind, Except.bind] at h
  split at h
  · cases h
  · cases h
    rfl

theorem State.writeV_ok {s t : State} {n : Nat} {v : BitVec 4096} (h : s.writeV n v = .ok t) :
    s.me.held n = false ∧ ∃ cw, writable (s.me.vCell n) (86 + n) = .ok cw ∧
      t = (s.modSlot s.cur fun u => u.setVCell n (.full v)).resolveOpt s.cur cw 0 v := by
  unfold State.writeV at h
  simp only [bind, Except.bind] at h
  split at h
  · cases h
  · rename_i cw hcw
    split at h
    · cases h
    · rename_i hh
      cases h
      exact ⟨by simpa using hh, cw, hcw, rfl⟩

theorem State.emptyV_ok {s t : State} {n : Nat} (h : s.emptyV n = .ok t) :
    s.me.held n = false ∧ ∃ cw, writable (s.me.vCell n) (86 + n) = .ok cw ∧
      t = s.modSlot s.cur fun u => u.setVCell n (.empty (awaiting cw)) := by
  unfold State.emptyV at h
  simp only [bind, Except.bind] at h
  split at h
  · cases h
  · rename_i cw hcw
    split at h
    · cases h
    · rename_i hh
      cases h
      exact ⟨by simpa using hh, cw, hcw, rfl⟩

/-- A port send queues its word or counts a stray, in the slot's own core (R94). -/
theorem State.sendPort_ok {s t : State} {k : Nat} {v : Word} (h : s.sendPort k v = .ok t) :
    s.fencesPending s.cur = false ∧ ((∃ w n, t = s.stray (coreOf s.cur) w n) ∨
      (s.core (coreOf s.cur)).sendq.length < 16 ∧ ∃ w, t = s.modCore (coreOf s.cur) fun c => { c with sendq := c.sendq ++ [w] }) := by
  unfold State.sendPort at h
  split at h
  · cases h
  · rename_i hf
    refine ⟨by simpa using hf, ?_⟩
    simp only at h
    split at h
    · cases h; exact .inl ⟨_, _, rfl⟩
    · split at h
      · cases h; exact .inl ⟨_, _, rfl⟩
      · split at h
        · cases h
        · rename_i hq
          cases h
          exact .inr ⟨Nat.lt_of_not_le hq, _, rfl⟩

/-- A result goes nowhere, to an x register, or through a port (R40). -/
theorem State.put_ok {s t : State} {d : Dst} {v : Word} (h : s.put d v = .ok t) :
    (d.toNat = 0 ∧ t = s) ∨ (0 < d.toNat ∧ d.toNat < 32 ∧ s.writeXj (xIndex s.me.wstate d.toNat) v = .ok t) ∨
      (32 ≤ d.toNat ∧ s.sendPort (d.toNat - 56) v = .ok t) := by
  unfold State.put at h
  simp only at h
  split at h
  · rename_i h0
    cases h
    exact .inl ⟨h0, rfl⟩
  · rename_i h0
    split at h
    · rename_i h1
      exact .inr (.inl ⟨Nat.pos_of_ne_zero h0, h1, h⟩)
    · rename_i h1
      exact .inr (.inr ⟨Nat.le_of_not_lt h1, h⟩)

/-! ### Checks of a reference -/

/-- An address that passes: no bit above 55, local where it must be, aligned (R154). -/
theorem addrCheck_ok {va : Word} {n : Nat} {lo : Bool} (h : addrCheck va n lo = .ok ()) :
    topOk va = true ∧ (lo = true → isGlobal va = false) ∧ va.toNat % n = 0 := by
  unfold addrCheck at h
  split at h
  · cases h
  · rename_i h1
    split at h
    · cases h
    · rename_i h2
      split at h
      · cases h
      · rename_i h3
        exact ⟨by simpa using h1, fun e => by simpa [e] using h2, by simpa using h3⟩

theorem State.holdFor_ok {s : State} {k : BitVec 5} (h : s.holdFor k = .ok ()) : s.fenceHolds s.cur k = false := by
  unfold State.holdFor at h
  split at h
  · cases h
  · rename_i hf
    simpa using hf

theorem State.holdPublish_ok {s : State} (h : s.holdPublish = .ok ()) : s.fencesPending s.cur = false := by
  unfold State.holdPublish at h
  split at h
  · cases h
  · rename_i hf
    simpa using hf

theorem State.redRoom_ok {s : State} (h : s.redRoom = .ok ()) : s.me.redcnt < 16 := by
  unfold State.redRoom at h
  split at h
  · cases h
  · rename_i hf
    exact Nat.lt_of_not_le hf

/-! ### Memory stays as it is -/

theorem State.sameMemory_refl (s : State) : s.sameMemory s := ⟨rfl, rfl, rfl⟩
theorem State.sameMemory_trans {s t u : State} (h : s.sameMemory t) (k : t.sameMemory u) : s.sameMemory u :=
  ⟨k.1.trans h.1, k.2.1.trans h.2.1, k.2.2.trans h.2.2⟩

theorem State.modSlot_sameMemory (s : State) (k : Nat) (f : Slot → Slot) : s.sameMemory (s.modSlot k f) := ⟨rfl, rfl, rfl⟩
theorem State.modCore_sameMemory (s : State) (k : Nat) (f : Core → Core) : s.sameMemory (s.modCore k f) := ⟨rfl, rfl, rfl⟩
theorem State.cwReturn_sameMemory (s : State) (k c : Nat) : s.sameMemory (s.cwReturn k c) := ⟨rfl, rfl, rfl⟩
theorem State.cwReturnBut_sameMemory (s : State) (k b c : Nat) : s.sameMemory (s.cwReturnBut k b c) := by
  unfold State.cwReturnBut
  split <;> exact ⟨rfl, rfl, rfl⟩
theorem State.advance_sameMemory (s : State) : s.sameMemory s.advance := ⟨rfl, rfl, rfl⟩
theorem State.jumpTo_sameMemory (s : State) (pc : Word) : s.sameMemory (s.jumpTo pc) := ⟨rfl, rfl, rfl⟩
theorem State.stray_sameMemory (s : State) (k : Nat) (w : MeshWord) (n : Nat) : s.sameMemory (s.stray k w n) := ⟨rfl, rfl, rfl⟩
theorem State.perform_sameMemory (s : State) (id : Nat) : s.sameMemory (s.perform id) := ⟨rfl, rfl, rfl⟩
theorem State.reply_sameMemory (s : State) (k : Nat) (g : BitVec 8) (d : RetDst) (v : Word) : s.sameMemory (s.reply k g d v) :=
  ⟨rfl, rfl, rfl⟩
theorem State.replyFatal_sameMemory (s : State) (k : Nat) (g : BitVec 8) (d : RetDst) : s.sameMemory (s.replyFatal k g d) :=
  ⟨rfl, rfl, rfl⟩
theorem State.redUp_sameMemory (s : State) (k : Nat) : s.sameMemory (s.redUp k) := ⟨rfl, rfl, rfl⟩
theorem State.redDown_sameMemory (s : State) (k : Nat) (g : BitVec 8) : s.sameMemory (s.redDown k g) := by
  unfold State.redDown
  split <;> exact ⟨rfl, rfl, rfl⟩
theorem State.post_sameMemory (s : State) (k : Nat) (g : BitVec 8) (c : Nat) (v : Word) : s.sameMemory (s.post k g c v) := by
  unfold State.post
  split <;> exact ⟨rfl, rfl, rfl⟩
theorem State.record_sameMemory (s : State) (r : EvRec) : s.sameMemory (s.record r) := by
  unfold State.record
  split <;> exact ⟨rfl, rfl, rfl⟩
theorem State.takePort_sameMemory (s : State) (k n : Nat) : s.sameMemory (s.takePort k n) := by
  unfold State.takePort
  split <;> exact ⟨rfl, rfl, rfl⟩
theorem State.releaseCw_sameMemory (s : State) (k : Nat) (c : Option Nat) : s.sameMemory (s.releaseCw k c) := by
  cases c <;> exact ⟨rfl, rfl, rfl⟩
theorem State.resolveOpt_sameMemory (s : State) (k : Nat) (c : Option Nat) (v : Word) (x : BitVec 4096) :
    s.sameMemory (s.resolveOpt k c v x) := by cases c <;> exact ⟨rfl, rfl, rfl⟩
theorem State.fatalCw_sameMemory (s : State) (k : Nat) (c : Option Nat) : s.sameMemory (s.fatalCw k c) := by
  cases c <;> exact ⟨rfl, rfl, rfl⟩

theorem State.killReg_sameMemory (s : State) (k j : Nat) : s.sameMemory (s.killReg k j) := by
  unfold State.killReg
  simp only
  split
  · exact State.sameMemory_trans (s.modSlot_sameMemory _ _) (State.releaseCw_sameMemory _ _ _)
  · split
    · exact s.modSlot_sameMemory _ _
    · split
      · exact State.sameMemory_trans (s.modSlot_sameMemory _ _) (State.releaseCw_sameMemory _ _ _)
      · exact s.modCore_sameMemory _ _

theorem State.killXs_sameMemory (l : List Src) (s : State) : s.sameMemory (s.killXs l) := by
  induction l generalizing s with
  | nil => exact s.sameMemory_refl
  | cons a l ih =>
    unfold State.killXs
    simp only
    split
    · exact State.sameMemory_trans (s.killReg_sameMemory _ _) (ih _)
    · exact ih s

theorem State.killPs_sameMemory (l : List Src) (s : State) : s.sameMemory (s.killPs l) := by
  induction l generalizing s with
  | nil => exact s.sameMemory_refl
  | cons a l ih =>
    unfold State.killPs
    simp only
    split
    · exact State.sameMemory_trans (s.killReg_sameMemory _ _) (ih _)
    · exact ih s

theorem State.killVs_sameMemory {l : List Nat} {s t : State} (h : s.killVs l = .ok t) : s.sameMemory t := by
  induction l generalizing s with
  | nil => cases h; exact State.sameMemory_refl _
  | cons n l ih =>
    unfold State.killVs at h
    split at h
    · cases h
    · exact State.sameMemory_trans (s.killReg_sameMemory _ _) (ih h)

theorem State.put_sameMemory {s t : State} {d : Dst} {v : Word} (h : s.put d v = .ok t) : s.sameMemory t := by
  rcases State.put_ok h with ⟨_, rfl⟩ | ⟨_, _, h1⟩ | ⟨_, h1⟩
  · exact State.sameMemory_refl _
  · obtain ⟨cw, _, rfl⟩ := State.writeXj_ok h1
    exact State.sameMemory_trans (s.modSlot_sameMemory _ _) (State.resolveOpt_sameMemory _ _ _ _ _)
  · obtain ⟨_, ⟨w, n, rfl⟩ | ⟨_, w, rfl⟩⟩ := State.sendPort_ok h1
    · exact s.stray_sameMemory _ _ _
    · exact s.modCore_sameMemory _ _

theorem readX_sameMemory {f : Nat} {src : Src} {r r' : Rd} {v : Word} (h : readX f src r = .ok (v, r')) : r.s.sameMemory r'.s := by
  unfold readX at h
  simp only at h
  split at h
  · cases h; exact r.s.sameMemory_refl
  · split at h
    · simp only [bind, Except.bind] at h
      split at h
      · cases h
      · cases h; exact r.s.sameMemory_refl
    · split at h
      · cases h; exact r.s.sameMemory_refl
      · split at h
        · cases h; exact r.s.takePort_sameMemory _ _
        · split at h <;> cases h

/-! ### The tables stay canonical -/

theorem State.cwReturn_tablesWf (s : State) (k c : Nat) (h : s.tablesWf = true) : (s.cwReturn k c).tablesWf = true :=
  s.modCore_tablesWf _ _ h
theorem State.cwReturnBut_tablesWf (s : State) (k b c : Nat) (h : s.tablesWf = true) : (s.cwReturnBut k b c).tablesWf = true := by
  unfold State.cwReturnBut
  split
  · exact h
  · exact s.cwReturn_tablesWf _ _ h
theorem State.advance_tablesWf (s : State) (h : s.tablesWf = true) : s.advance.tablesWf = true := s.modSlot_tablesWf _ _ h
theorem State.jumpTo_tablesWf (s : State) (pc : Word) (h : s.tablesWf = true) : (s.jumpTo pc).tablesWf = true :=
  s.modSlot_tablesWf _ _ h
theorem State.stray_tablesWf (s : State) (k : Nat) (w : MeshWord) (n : Nat) (h : s.tablesWf = true) :
    (s.stray k w n).tablesWf = true := s.modCore_tablesWf _ _ h
theorem State.perform_tablesWf (s : State) (id : Nat) : (s.perform id).tablesWf = s.tablesWf :=
  State.tablesWf_congr rfl rfl rfl rfl rfl rfl rfl rfl
theorem State.reply_tablesWf (s : State) (k : Nat) (g : BitVec 8) (d : RetDst) (v : Word) :
    (s.reply k g d v).tablesWf = s.tablesWf :=
  State.tablesWf_congr rfl rfl rfl rfl rfl rfl rfl rfl
theorem State.replyFatal_tablesWf (s : State) (k : Nat) (g : BitVec 8) (d : RetDst) :
    (s.replyFatal k g d).tablesWf = s.tablesWf :=
  State.tablesWf_congr rfl rfl rfl rfl rfl rfl rfl rfl
theorem State.newAcc_tablesWf (s : State) (k : Nat) (c : BitVec 5) (w : List (Nat × Nat)) (p : Bool) :
    (s.newAcc k c w p).2.tablesWf = s.tablesWf :=
  State.tablesWf_congr rfl rfl rfl rfl rfl rfl rfl rfl
theorem State.journalAdd_tablesWf (s : State) (k w : Nat) (v : Word) : (s.journalAdd k w v).tablesWf = s.tablesWf := by
  unfold State.journalAdd
  exact State.tablesWf_congr rfl rfl rfl rfl rfl rfl rfl rfl
theorem State.record_tablesWf (s : State) (r : EvRec) : (s.record r).tablesWf = s.tablesWf := by
  unfold State.record
  split <;> exact State.tablesWf_congr rfl rfl rfl rfl rfl rfl rfl rfl
theorem State.redUp_tablesWf (s : State) (k : Nat) (h : s.tablesWf = true) : (s.redUp k).tablesWf = true :=
  s.modSlot_tablesWf _ _ h
theorem State.redDown_tablesWf (s : State) (k : Nat) (g : BitVec 8) (h : s.tablesWf = true) : (s.redDown k g).tablesWf = true := by
  unfold State.redDown
  split
  · exact s.modSlot_tablesWf _ _ h
  · exact h
theorem State.post_tablesWf (s : State) (k : Nat) (g : BitVec 8) (c : Nat) (v : Word) (h : s.tablesWf = true) :
    (s.post k g c v).tablesWf = true := by
  unfold State.post
  split
  · exact s.modSlot_tablesWf _ _ h
  · exact h
theorem State.takePort_tablesWf (s : State) (k n : Nat) (h : s.tablesWf = true) : (s.takePort k n).tablesWf = true := by
  unfold State.takePort
  split
  · exact h
  · exact State.modSlot_tablesWf _ _ _ (s.modCore_tablesWf _ _ h)
theorem State.releaseCw_tablesWf (s : State) (k : Nat) (c : Option Nat) (h : s.tablesWf = true) :
    (s.releaseCw k c).tablesWf = true := by
  cases c with
  | none => exact h
  | some c => exact State.cwReturn_tablesWf _ _ _ (s.modSlot_tablesWf _ _ h)
theorem State.resolveOpt_tablesWf (s : State) (k : Nat) (c : Option Nat) (v : Word) (x : BitVec 4096) (h : s.tablesWf = true) :
    (s.resolveOpt k c v x).tablesWf = true := by
  cases c with
  | none => exact h
  | some c => exact State.cwReturn_tablesWf _ _ _ (s.modSlot_tablesWf _ _ h)
theorem State.fatalCw_tablesWf (s : State) (k : Nat) (c : Option Nat) (h : s.tablesWf = true) : (s.fatalCw k c).tablesWf = true := by
  cases c with
  | none => exact h
  | some c => exact State.cwReturn_tablesWf _ _ _ (s.modSlot_tablesWf _ _ h)

theorem State.killReg_tablesWf (s : State) (k j : Nat) (h : s.tablesWf = true) : (s.killReg k j).tablesWf = true := by
  unfold State.killReg
  simp only
  split
  · exact State.releaseCw_tablesWf _ _ _ (s.modSlot_tablesWf _ _ h)
  · split
    · exact s.modSlot_tablesWf _ _ h
    · split
      · exact State.releaseCw_tablesWf _ _ _ (s.modSlot_tablesWf _ _ h)
      · exact s.modCore_tablesWf _ _ h

theorem State.killXs_tablesWf (l : List Src) (s : State) (h : s.tablesWf = true) : (s.killXs l).tablesWf = true := by
  induction l generalizing s with
  | nil => exact h
  | cons a l ih =>
    unfold State.killXs
    simp only
    split
    · exact ih _ (s.killReg_tablesWf _ _ h)
    · exact ih s h

theorem State.killPs_tablesWf (l : List Src) (s : State) (h : s.tablesWf = true) : (s.killPs l).tablesWf = true := by
  induction l generalizing s with
  | nil => exact h
  | cons a l ih =>
    unfold State.killPs
    simp only
    split
    · exact ih _ (s.killReg_tablesWf _ _ h)
    · exact ih s h

theorem State.killVs_tablesWf {l : List Nat} {s t : State} (hs : s.tablesWf = true) (h : s.killVs l = .ok t) :
    t.tablesWf = true := by
  induction l generalizing s with
  | nil => cases h; exact hs
  | cons n l ih =>
    unfold State.killVs at h
    split at h
    · cases h
    · exact ih (s.killReg_tablesWf _ _ hs) h

theorem State.put_tablesWf {s t : State} {d : Dst} {v : Word} (hs : s.tablesWf = true) (h : s.put d v = .ok t) :
    t.tablesWf = true := by
  rcases State.put_ok h with ⟨_, rfl⟩ | ⟨_, _, h1⟩ | ⟨_, h1⟩
  · exact hs
  · obtain ⟨cw, _, rfl⟩ := State.writeXj_ok h1
    exact State.resolveOpt_tablesWf _ _ _ _ _ (s.modSlot_tablesWf _ _ hs)
  · obtain ⟨_, ⟨w, n, rfl⟩ | ⟨_, w, rfl⟩⟩ := State.sendPort_ok h1
    · exact s.stray_tablesWf _ _ _ hs
    · exact s.modCore_tablesWf _ _ hs

theorem readX_tablesWf {f : Nat} {src : Src} {r r' : Rd} {v : Word} (hs : r.s.tablesWf = true) (h : readX f src r = .ok (v, r')) :
    r'.s.tablesWf = true := by
  unfold readX at h
  simp only at h
  split at h
  · cases h; exact hs
  · split at h
    · simp only [bind, Except.bind] at h
      split at h
      · cases h
      · cases h; exact hs
    · split at h
      · cases h; exact hs
      · split at h
        · cases h; exact r.s.takePort_tablesWf _ _ hs
        · split at h <;> cases h

theorem State.land_tablesWf (s : State) (k j : Nat) (v : Word) (x : BitVec 4096) (h : s.tablesWf = true) :
    (s.land k j v x).tablesWf = true := by
  unfold State.land
  simp only
  split
  · exact State.resolveOpt_tablesWf _ _ _ _ _ (s.modSlot_tablesWf _ _ h)
  · split
    · exact s.modSlot_tablesWf _ _ h
    · split
      · exact State.resolveOpt_tablesWf _ _ _ _ _ (s.modSlot_tablesWf _ _ h)
      · exact h

theorem State.landFatal_tablesWf (s : State) (k j : Nat) (h : s.tablesWf = true) : (s.landFatal k j).tablesWf = true := by
  unfold State.landFatal
  simp only
  split
  · exact State.fatalCw_tablesWf _ _ _ (s.modSlot_tablesWf _ _ h)
  · split
    · exact s.modSlot_tablesWf _ _ h
    · split
      · exact State.fatalCw_tablesWf _ _ _ (s.modSlot_tablesWf _ _ h)
      · exact h

/-! ### References leave an issue -/

/-- A reference that has left is on its way to its home, or parked on the live fault entry of its page (R389). -/
theorem State.sendRef_ok {s t : State} {k : BitVec 5} {va : Word} {d : RetDst} {op : RefOp} {c : Bool}
    (h : s.sendRef k va d op c = .ok t) :
    let u := if c then s.redUp s.cur else s
    (∃ home isle, u.reach va op.needR op.needW = .ok (.home home isle) ∧ ∃ r : Ref, r.home = home ∧ r.va = va ∧ r.op = op ∧ r.dst = d ∧
      t = { (u.enter k va.toNat op.len (some home) op.isPlain).2 with refs := s.refs ++ [r] }) ∨
    ∃ i n, u.reach va op.needR op.needW = .ok (.fault i n) ∧ ∃ (v : State) (r : Ref), (v = u ∨ v = u.redUp s.cur) ∧
      r.va = va ∧ r.op = op ∧ r.dst = d ∧
      t = (v.enter k va.toNat op.len none op.isPlain).2.park i n (.ref r) op.needR op.needW := by
  cases c with
  | false =>
    obtain ⟨loc, hl, h⟩ := Res.bind_ok h
    cases loc with
    | home home isle => cases h; exact .inl ⟨home, isle, hl, _, rfl, rfl, rfl, rfl, rfl⟩
    | fault i n =>
      by_cases hn : op.noReply = true
      · simp only [hn, Bool.not_false, Bool.and_self, if_true] at h
        obtain ⟨_, _, h⟩ := Res.bind_ok h
        cases h
        exact .inr ⟨i, n, hl, _, _, .inr rfl, rfl, rfl, rfl, rfl⟩
      · simp only [hn, Bool.false_and, if_false, Bool.false_eq_true] at h
        cases h
        exact .inr ⟨i, n, hl, _, _, .inl rfl, rfl, rfl, rfl, rfl⟩
    | deny => cases h
    | dead => cases h
    | walk => cases h
  | true =>
    obtain ⟨_, _, h⟩ := Res.bind_ok h
    obtain ⟨loc, hl, h⟩ := Res.bind_ok h
    cases loc with
    | home home isle => cases h; exact .inl ⟨home, isle, hl, _, rfl, rfl, rfl, rfl, rfl⟩
    | fault i n =>
      simp only [Bool.not_true, Bool.and_false, if_false, Bool.false_eq_true] at h
      cases h
      exact .inr ⟨i, n, hl, _, _, .inl rfl, rfl, rfl, rfl, rfl⟩
    | deny => cases h
    | dead => cases h
    | walk => cases h

/-- A local store that has issued is the newest entry of its core's buffer, or a reference that parks (R329). -/
theorem State.storeLocal_ok {s t : State} {va : Word} {bs : List Byte} (h : s.storeLocal va bs = .ok t) :
    (∃ home isle, s.reach va false true = .ok (.home home isle) ∧ (s.core (coreOf s.cur)).sb.length < 32 ∧
      ∃ e : SbEntry, e.home = home ∧ e.bytes = bs ∧ e.slot = s.cur ∧ e.va = va ∧
        t = (s.enter setS va.toNat bs.length (some home) true).2.modCore (coreOf s.cur) fun c => { c with sb := c.sb ++ [e] }) ∨
    s.sendRef setS va .none (.store bs) false = .ok t := by
  unfold State.storeLocal at h
  simp only [bind, Except.bind, pure, Except.pure] at h
  split at h
  · cases h
  · rename_i loc hl
    split at h
    · rename_i home isle
      split at h
      · cases h
      · rename_i hn
        cases h
        exact .inl ⟨home, isle, hl, Nat.lt_of_not_le hn, _, rfl, rfl, rfl, rfl, rfl⟩
    · exact .inr h

theorem State.park_sameMemory (s : State) (i n : Nat) (p : Parked) (r w : Bool) : s.sameMemory (s.park i n p r w) := ⟨rfl, rfl, rfl⟩
theorem State.park_tablesWf (s : State) (i n : Nat) (p : Parked) (r w : Bool) (h : s.tablesWf = true) :
    (s.park i n p r w).tablesWf = true := s.modIsle_tablesWf _ _ h

theorem State.sendRef_sameMemory {s t : State} {k : BitVec 5} {va : Word} {d : RetDst} {op : RefOp} {c : Bool}
    (h : s.sendRef k va d op c = .ok t) : s.sameMemory t := by
  have hu : s.sameMemory (if c then s.redUp s.cur else s) := by
    cases c
    · exact s.sameMemory_refl
    · exact s.redUp_sameMemory _
  rcases State.sendRef_ok h with ⟨home, isle, _, r, _, _, _, _, rfl⟩ | ⟨i, n, _, v, r, hv, _, _, _, rfl⟩
  · exact State.sameMemory_trans hu ⟨rfl, rfl, rfl⟩
  · refine State.sameMemory_trans (State.sameMemory_trans hu ?_) (State.park_sameMemory _ _ _ _ _ _)
    rcases hv with rfl | rfl <;> exact ⟨rfl, rfl, rfl⟩

theorem State.sendRef_tablesWf {s t : State} {k : BitVec 5} {va : Word} {d : RetDst} {op : RefOp} {c : Bool}
    (hs : s.tablesWf = true) (h : s.sendRef k va d op c = .ok t) : t.tablesWf = true := by
  have hu : (if c then s.redUp s.cur else s).tablesWf = true := by
    cases c
    · exact hs
    · exact s.redUp_tablesWf _ hs
  rcases State.sendRef_ok h with ⟨home, isle, _, r, _, _, _, _, rfl⟩ | ⟨i, n, _, v, r, hv, _, _, _, rfl⟩
  · exact hu
  · refine State.park_tablesWf _ _ _ _ _ _ ?_
    rcases hv with rfl | rfl
    · exact hu
    · exact State.redUp_tablesWf _ _ hu

theorem State.storeLocal_sameMemory {s t : State} {va : Word} {bs : List Byte} (h : s.storeLocal va bs = .ok t) : s.sameMemory t := by
  rcases State.storeLocal_ok h with ⟨home, isle, _, _, e, _, _, _, _, rfl⟩ | h1
  · exact ⟨rfl, rfl, rfl⟩
  · exact State.sendRef_sameMemory h1

theorem State.storeLocal_tablesWf {s t : State} {va : Word} {bs : List Byte} (hs : s.tablesWf = true)
    (h : s.storeLocal va bs = .ok t) : t.tablesWf = true := by
  rcases State.storeLocal_ok h with ⟨home, isle, _, _, e, _, _, _, _, rfl⟩ | h1
  · exact State.modCore_tablesWf _ _ _ hs
  · exact State.sendRef_tablesWf hs h1

/-! ### Taking a trap -/

/-- Where a trap reaches its handler, only the slot changes (R377). -/
theorem State.takeTrap_lands {s : State} {k : Nat} (h : s.trapsLand k) (async : Bool) (cause : Nat) (v pc : Word) :
    ∃ f, s.takeTrap k async cause v pc = s.modSlot k f := by
  obtain ⟨h1, h2, h3⟩ := h
  unfold State.takeTrap
  simp only [h1, h2, h3, if_false, Bool.not_true, Bool.false_eq_true]
  exact ⟨_, rfl⟩

end Sys2Proof.Machine
end

