-- ==== Sys2Proof/Laws/Canonical.lean ====
section
/-! SUPPORT. The larger shared operations (serving a mooring list, freeing a slot, ending a task set, taking a trap, the end of an
issue) keep memory and the unit tables in their canonical form. -/

namespace Sys2Proof.Machine

/-- A fold keeps what each of its steps keeps. -/
theorem foldl_keeps {α : Type} {P : State → Prop} {f : State → α → State} (hf : ∀ s a, P s → P (f s a)) (l : List α) (s : State)
    (h : P s) : P (l.foldl f s) := by
  induction l generalizing s with
  | nil => exact h
  | cons a l ih => exact ih _ (hf s a h)

/-- States that agree on the eight tables, in the form that folds use. -/
theorem tablesWf_of_eq {s t : State} (h : s.tablesWf = true) (h1 : t.mem = s.mem) (h2 : t.fulls = s.fulls) (h3 : t.broken = s.broken)
    (h4 : t.slots = s.slots) (h5 : t.cores = s.cores) (h6 : t.quires = s.quires) (h7 : t.isles = s.isles) (h8 : t.sets = s.sets) :
    t.tablesWf = true := (State.tablesWf_congr h1 h2 h3 h4 h5 h6 h7 h8).trans h

/-! ### Leaves and registers -/

theorem State.modLeaf_tablesWf (s : State) (n : Nat) (f : Leaf → Leaf) (h : s.tablesWf = true) : (s.modLeaf n f).tablesWf = true := by
  unfold State.modLeaf
  refine foldl_keeps (P := fun s => s.tablesWf = true) (fun t e ht => ?_) _ _ h
  split
  · exact t.modQuire_tablesWf _ _ ht
  · exact ht

theorem State.leafWaiting_tablesWf (s : State) (n : Nat) (m : Option (Nat × Word)) (h : s.tablesWf = true) :
    (s.leafWaiting n m).tablesWf = true := s.modLeaf_tablesWf _ _ h

theorem State.makeOrphan_tablesWf (s : State) (k j : Nat) (h : s.tablesWf = true) : (s.makeOrphan k j).tablesWf = true := by
  unfold State.makeOrphan
  simp only
  split
  · split
    · split
      · exact State.releaseCw_tablesWf _ _ _ (s.modSlot_tablesWf _ _ h)
      · exact s.modSlot_tablesWf _ _ h
    · exact h
  · split
    · split
      · split <;> exact s.modSlot_tablesWf _ _ h
      · exact h
    · exact h

/-! ### Mooring lists (R158 to R166) -/

theorem State.recordBroken_tablesWf (s : State) (a : Nat) : (s.recordBroken a).tablesWf = s.tablesWf := State.record_tablesWf _ _

theorem State.brokenMoor_tablesWf (s : State) (m : Moor) (h : s.tablesWf = true) : (s.brokenMoor m).tablesWf = true := by
  have hb : (s.recordBroken m.home).tablesWf = true := (s.recordBroken_tablesWf _).trans h
  unfold State.brokenMoor
  generalize s.recordBroken m.home = t at hb ⊢
  simp only
  split
  · exact State.leafWaiting_tablesWf _ _ _ hb
  · exact (t.replyFatal_tablesWf _ _ _).trans hb

theorem State.applyMoor_tablesWf (s : State) (m : Moor) (h : s.tablesWf = true) : (s.applyMoor m).tablesWf = true := by
  have hp : (s.perform m.acc).tablesWf = true := h
  unfold State.applyMoor
  generalize s.perform m.acc = t at hp ⊢
  simp only
  split
  · exact State.brokenMoor_tablesWf _ _ hp
  · split
    · exact hp
    · exact State.setF_tablesWf _ _ _ hp
    · exact State.setF_tablesWf _ _ _ (State.homeWord_tablesWf _ _ _ hp)
    · exact State.leafWaiting_tablesWf _ _ _ hp

theorem State.serveN_tablesWf (n : Nat) (s : State) (a : Nat) (h : s.tablesWf = true) : (State.serveN n s a).tablesWf = true := by
  induction n generalizing s with
  | zero => exact h
  | succ n ih =>
    unfold State.serveN
    split
    · exact h
    · split
      · exact ih _ (State.applyMoor_tablesWf _ _ h)
      · exact h

theorem State.engineWord_tablesWf (s : State) (pa : Nat) (w : Word) (h : s.tablesWf = true) :
    (s.engineWord pa w).tablesWf = true := by
  unfold State.engineWord
  split
  · exact (s.recordBroken_tablesWf _).trans h
  · exact s.writeWord_tablesWf _ _ h

theorem State.writeRecord_tablesWf (ws : List Word) (s : State) (pa : Nat) (h : s.tablesWf = true) :
    (s.writeRecord pa ws).tablesWf = true := by
  induction ws generalizing s pa with
  | nil => exact h
  | cons w ws ih =>
    rw [State.writeRecord]
    exact ih _ _ (s.engineWord_tablesWf pa w h)

theorem State.writeArea_tablesWf (ms : List Moor) (s : State) (i : Nat) (h : s.tablesWf = true) :
    (s.writeArea i ms).tablesWf = true := by
  induction ms generalizing s with
  | nil => exact h
  | cons m ms ih =>
    unfold State.writeArea
    split
    · split
      · refine ih _ ?_
        split
        · exact h
        · exact State.writeRecord_tablesWf _ _ _ h
      · exact ih s h
    · exact ih s h

theorem State.settleIsle_tablesWf (s : State) (i : Nat) (h : s.tablesWf = true) : (s.settleIsle i).tablesWf = true :=
  State.writeArea_tablesWf _ _ _ h

theorem State.settleMoors_tablesWf (s : State) (h : s.tablesWf = true) : s.settleMoors.tablesWf = true := by
  unfold State.settleMoors
  split
  · exact foldl_keeps (P := fun s => s.tablesWf = true) (fun t i ht => t.settleIsle_tablesWf i ht) _ _ h
  · exact h

theorem State.serve_tablesWf (s : State) (a : Nat) (h : s.tablesWf = true) : (s.serve a).tablesWf = true :=
  State.settleMoors_tablesWf _ (State.serveN_tablesWf _ _ _ h)

theorem State.fillStep_tablesWf (s : State) (a : Nat) (h : s.tablesWf = true) : (s.fillStep a).tablesWf = true :=
  State.serve_tablesWf _ _ (s.setF_tablesWf _ _ h)

theorem State.postLost_tablesWf (s : State) (k : Nat) (g : BitVec 8) (c j n : Nat) (h : s.tablesWf = true) :
    (s.postLost k g c j n).tablesWf = true := by
  unfold State.postLost
  split
  · exact s.modSlot_tablesWf _ _ h
  · exact h

theorem State.moorLost_tablesWf (s : State) (kd : MoorKind) (k : Nat) (g : BitVec 8) (j acc : Nat) (va d : Word) (o : Bool)
    (h : s.tablesWf = true) : (s.moorLost kd k g j acc va d o).tablesWf = true := by
  have hp : (s.perform acc).tablesWf = true := h
  unfold State.moorLost
  generalize s.perform acc = t at hp ⊢
  simp only
  split
  · exact State.leafWaiting_tablesWf _ _ _ hp
  · split
    · have hm := State.modSlot_tablesWf _ k (fun t => { t with wrec := wrecAdd t.wrec va (moorCode kd) })
        (State.makeOrphan_tablesWf _ k j hp)
      split
      · exact hm
      · exact State.postLost_tablesWf _ _ _ _ _ _ hm
    · exact hp

/-! ### Slots and task sets -/

theorem State.freeSlot_tablesWf (s : State) (k : Nat) (h : s.tablesWf = true) : (s.freeSlot k).tablesWf = true := by
  unfold State.freeSlot
  simp only
  exact foldl_keeps (P := fun s => s.tablesWf = true) (fun t w ht => t.stray_tablesWf _ _ _ ht) _ _
    (State.setSlot_tablesWf _ _ _ (State.modCore_tablesWf _ _ _ (State.modCore_tablesWf _ _ _ h)))

theorem State.releaseRecs_tablesWf (s : State) (t : TaskSet) (h : s.tablesWf = true) : (s.releaseRecs t).tablesWf = true :=
  foldl_keeps (P := fun s => s.tablesWf = true) (fun u _ hu => u.modIsle_tablesWf _ _ hu) _ _ h

theorem State.modSlots_tablesWf (s : State) (q : Nat → Slot → Bool) (f : Slot → Slot) (h : s.tablesWf = true) :
    (s.modSlots q f).tablesWf = true :=
  foldl_keeps (P := fun s => s.tablesWf = true) (fun t e ht => by
    split
    · exact t.modSlot_tablesWf _ _ ht
    · exact ht) _ _ h

theorem State.dropAllocs_tablesWf (s : State) (ts : List Nat) (h : s.tablesWf = true) : (s.dropAllocs ts).tablesWf = true :=
  foldl_keeps (P := fun s => s.tablesWf = true)
    (fun _ _ ht => State.modSlots_tablesWf _ _ _ (State.modQuire_tablesWf _ _ _ ht)) _ _ h

theorem State.keepParked_tablesWf (s : State) (q : Parked → Bool) (h : s.tablesWf = true) : (s.keepParked q).tablesWf = true :=
  foldl_keeps (P := fun s => s.tablesWf = true) (fun t _ ht => t.modIsle_tablesWf _ _ ht) _ _ h

theorem State.portEnd_tablesWf (s : State) (port seq : Nat) (v : Word) : (s.portEnd port seq v).tablesWf = s.tablesWf := rfl

/-- Terminating a set keeps the tables canonical (R396). -/
theorem State.endSet_tablesWf (s : State) (tsid : Nat) (v : Word) (h : s.tablesWf = true) : (s.endSet tsid v).tablesWf = true := by
  have keeps {α : Type} {f : State → α → State} (hf : ∀ s a, s.tablesWf = true → (f s a).tablesWf = true) (l : List α)
    {s : State} (h : s.tablesWf = true) : (l.foldl f s).tablesWf = true :=
    foldl_keeps (P := fun s => s.tablesWf = true) hf l s h
  unfold State.endSet
  extract_lets fam ks mineC mine mineM leafNos gone ours s1 s2 s3 s4 s5 s6 s7 used s8 s9 s10 s11 s12 s13 s14
  have h1 : s1.tablesWf = true := tablesWf_of_eq h rfl rfl rfl rfl rfl rfl rfl rfl
  have h2 : s2.tablesWf = true := keeps (fun s m hs => State.serve_tablesWf _ _ ((s.perform_tablesWf _).trans hs)) _ h1
  have h3 : s3.tablesWf = true := tablesWf_of_eq h2 rfl rfl rfl rfl rfl rfl rfl rfl
  have h4 : s4.tablesWf = true := tablesWf_of_eq h3 rfl rfl rfl rfl rfl rfl rfl rfl
  have h5 : s5.tablesWf = true := keeps (fun s e hs => s.modQuire_tablesWf _ _ hs) _ h4
  have h6 : s6.tablesWf = true := keeps (fun s e hs => s.modCore_tablesWf _ _ hs) _ h5
  have h7 : s7.tablesWf = true := s6.keepParked_tablesWf _ h6
  have h8 : s8.tablesWf = true := tablesWf_of_eq h7 rfl rfl rfl rfl rfl rfl rfl rfl
  have h9 : s9.tablesWf = true := keeps (fun s k hs => s.freeSlot_tablesWf _ hs) _ h8
  have h10 : s10.tablesWf = true := s9.dropAllocs_tablesWf _ h9
  have h11 : s11.tablesWf = true := keeps (fun s t hs => s.releaseRecs_tablesWf _ hs) _ h10
  have h12 : s12.tablesWf = true := by
    show (match (s11.tset_ tsid).parent with
      | some p => if s11.hasSet p then s11.modSet p fun t => { t with children := t.children - 1 } else s11
      | none => s11).tablesWf = true
    split
    · split
      · exact s11.modSet_tablesWf _ _ h11
      · exact h11
    · exact h11
  have h13 : s13.tablesWf = true := keeps (fun s t hs => by
    split
    · exact (s.portEnd_tablesWf _ _ _).trans hs
    · exact hs) _ h12
  have h14 : s14.tablesWf = true := keeps (fun s t hs => (s.record_tablesWf _).trans hs) _ h13
  exact keeps (fun s t hs => s.setSet_tablesWf _ _ hs) _ h14

/-- Taking a trap keeps the tables canonical (R377). -/
theorem State.takeTrap_tablesWf (s : State) (k : Nat) (a : Bool) (c : Nat) (v pc : Word) (h : s.tablesWf = true) :
    (s.takeTrap k a c v pc).tablesWf = true := by
  unfold State.takeTrap
  simp only
  split
  · exact s.endSet_tablesWf _ _ h
  · split
    · exact s.endSet_tablesWf _ _ h
    · split
      · exact s.endSet_tablesWf _ _ h
      · exact s.modSlot_tablesWf _ _ h

/-- An issue keeps the tables canonical when what it leaves does: a completed state, a void one, or the state that traps. -/
theorem State.finish_tablesWf {s t : State} {r : Res State} (hs : s.tablesWf = true) (hr : ∀ u, r = .ok u → u.tablesWf = true)
    (hw : ∀ u w, r = .error (.waitWith u w) → u.tablesWf = true)
    (ha : ∀ u c v, r = .error (.asyncWith u c v) → u.tablesWf = true) (h : s.finish r = .next t) : t.tablesWf = true := by
  unfold State.finish at h
  split at h
  · cases h; exact hr _ rfl
  · cases h; exact s.modSlot_tablesWf _ _ hs
  · cases h
    split
    · exact s.modSlot_tablesWf _ _ hs
    · exact s.modSlot_tablesWf _ (fun t => { t with wait := .tlb }) hs
  · cases h
    split
    · exact s.modSlot_tablesWf _ _ hs
    · exact s.modSlot_tablesWf _ (fun t => { t with wait := .fetch }) hs
  · rename_i u w
    cases h
    exact State.modSlot_tablesWf _ _ _ (hw _ _ rfl)
  · cases h
    exact State.takeTrap_tablesWf _ _ _ _ _ _ hs
  · cases h
    exact State.takeTrap_tablesWf _ _ _ _ _ _ hs
  · rename_i u c v
    cases h
    exact State.takeTrap_tablesWf _ _ _ _ _ _ (ha _ _ _ rfl)

end Sys2Proof.Machine
end

