-- ==== Sys2Proof/Laws/Encoding.lean ====
section
/-! SUPPORT. Small facts about fields of an encoding: placing and extracting bits, codes and their inverses, the checks of
R44 on fields that the encoder writes. -/

namespace Sys2Proof

/-! ### Bits placed and extracted -/

theorem getLsbD_at {w : Nat} (W lo i : Nat) (v : BitVec w) :
    (at_ W lo v).getLsbD i = (decide (i < W) && (decide (lo ≤ i) && v.getLsbD (i - lo))) := by
  simp only [at_, BitVec.getLsbD_shiftLeft, BitVec.getLsbD_setWidth]
  by_cases h : i < W <;> by_cases h2 : i < lo
  · have h3 : ¬ lo ≤ i := by omega
    simp [h, h2, h3]
  · have h3 : lo ≤ i := by omega
    have h4 : i - lo < W := by omega
    simp [h, h2, h3, h4]
  · simp [h]
  · simp [h]

theorem getElem_at {w : Nat} (W lo i : Nat) (v : BitVec w) (h : i < W) :
    (at_ W lo v)[i] = (decide (lo ≤ i) && v.getLsbD (i - lo)) := by
  rw [← BitVec.getLsbD_eq_getElem h, getLsbD_at]
  simp [h]

theorem extract_at {w : Nat} (W lo : Nat) (v : BitVec w) (h : lo + w ≤ W) : (at_ W lo v).extractLsb' lo w = v := by
  apply BitVec.eq_of_getLsbD_eq
  intro i hi
  simp only [BitVec.getLsbD_extractLsb', getLsbD_at, hi]
  have h1 : lo + i < W := by omega
  simp [h1]

theorem extract_at_other {w : Nat} (W lo lo' w' : Nat) (v : BitVec w) (h : lo' + w' ≤ lo ∨ lo + w ≤ lo') :
    (at_ W lo v).extractLsb' lo' w' = 0#w' := by
  apply BitVec.eq_of_getLsbD_eq
  intro i hi
  simp only [BitVec.getLsbD_extractLsb', getLsbD_at, hi, BitVec.getLsbD_zero]
  rcases h with h | h
  · have : ¬ lo ≤ lo' + i := by omega
    simp [this]
  · have : v.getLsbD (lo' + i - lo) = false := BitVec.getLsbD_of_ge _ _ (by omega)
    simp [this]

theorem extract_or {W lo w : Nat} (a b : BitVec W) :
    (a ||| b).extractLsb' lo w = a.extractLsb' lo w ||| b.extractLsb' lo w := by
  apply BitVec.eq_of_getLsbD_eq
  intro i hi
  simp only [BitVec.getLsbD_extractLsb', BitVec.getLsbD_or, hi]
  simp

theorem mask_or {W : Nat} {a b m : BitVec W} (ha : a &&& ~~~m = 0) (hb : b &&& ~~~m = 0) : (a ||| b) &&& ~~~m = 0 := by
  apply BitVec.eq_of_getLsbD_eq
  intro i hi
  have h1 := congrArg (BitVec.getLsbD · i) ha
  have h2 := congrArg (BitVec.getLsbD · i) hb
  simp only [BitVec.getLsbD_and, BitVec.getLsbD_or] at h1 h2 ⊢
  revert h1 h2
  cases a.getLsbD i <;> cases b.getLsbD i <;> simp

theorem mask_at {w W lo : Nat} {m : BitVec W} (v : BitVec w) (h : at_ W lo (BitVec.allOnes w) &&& ~~~m = 0) :
    at_ W lo v &&& ~~~m = 0 := by
  apply BitVec.eq_of_getLsbD_eq
  intro i hi
  have h1 := congrArg (BitVec.getLsbD · i) h
  simp only [BitVec.getLsbD_and, getLsbD_at, BitVec.getLsbD_allOnes] at h1 ⊢
  by_cases hw : i - lo < w
  · simp only [hw, decide_true, Bool.and_true] at h1
    revert h1
    cases (~~~m).getLsbD i
    · simp
    · cases decide (i < W) <;> cases decide (lo ≤ i) <;> simp
  · have : v.getLsbD (i - lo) = false := BitVec.getLsbD_of_ge _ _ (by omega)
    simp [this]

theorem mask_all {W : Nat} (x : BitVec W) : x &&& ~~~(BitVec.allOnes W) = 0 := by simp

theorem mask_zero {W : Nat} {m : BitVec W} : (0 : BitVec W) &&& ~~~m = 0 := by simp

theorem low_all (x : BitVec 40) : x &&& ~~~(0xffffffffff#40) = 0 := mask_all x

@[simp] theorem getLsbD_bit (b : Bool) : (bit b).getLsbD 0 = b := by cases b <;> rfl

@[simp] theorem getElem_bit (b : Bool) : (bit b)[0] = b := by cases b <;> rfl

/-! ### Codes -/

@[simp] theorem Fmt.ofCode_code (f : Fmt) : Fmt.ofCode f.code = f := by cases f <;> rfl
@[simp] theorem Rnd.ofCode_code (f : Rnd) : Rnd.ofCode f.code = f := by cases f <;> rfl
@[simp] theorem Width.ofCode_code (f : Width) : Width.ofCode f.code = f := by cases f <;> rfl
@[simp] theorem Cond.ofCode_code (f : Cond) : Cond.ofCode f.code = f := by cases f <;> rfl
@[simp] theorem VCond.ofCode_code (f : VCond) : VCond.ofCode f.code = f := by cases f <;> rfl
@[simp] theorem Shuf.ofCode_code (f : Shuf) : Shuf.ofCode f.code = f := by cases f <;> rfl
@[simp] theorem MulSign.ofCode_code (f : MulSign) : MulSign.ofCode f.code = f := by cases f <;> rfl
@[simp] theorem PartCoord.ofCode_code (f : PartCoord) : PartCoord.ofCode f.code = f := by cases f <;> rfl
@[simp] theorem BarScope.ofCode_code (f : BarScope) : BarScope.ofCode f.code = f := by cases f <;> rfl
@[simp] theorem fpOfCode_fpCode (b : Bool) : fpOfCode (fpCode b) = b := by cases b <;> rfl

@[simp] theorem Cond.code_lt (c : Cond) : decide (12 ≤ c.code.toNat) = false := by cases c <;> rfl
@[simp] theorem VCond.code_lt (c : VCond) : decide (9 ≤ c.code.toNat) = false := by cases c <;> rfl
@[simp] theorem Shuf.code_lt (c : Shuf) : decide (7 ≤ c.code.toNat) = false := by cases c <;> rfl
@[simp] theorem MulSign.code_lt (c : MulSign) : decide (3 ≤ c.code.toNat) = false := by cases c <;> rfl
@[simp] theorem PartCoord.code_lt (c : PartCoord) : decide (5 ≤ c.code.toNat) = false := by cases c <;> rfl
@[simp] theorem BarScope.code_lt (c : BarScope) : decide (6 ≤ c.code.toNat) = false := by cases c <;> rfl
@[simp] theorem fpCode_ok (b : Bool) : decide (fpCode b = 0 ∨ fpCode b = 3) = false := by cases b <;> rfl

/-! ### Fields -/

theorem guardOf_gBits (g : Guard) (r : Raw) (h : r.pred = gBits g) : guardOf r = g := by
  obtain ⟨n, p⟩ := g
  simp only [guardOf, h]
  clear h
  revert n p
  decide

@[simp] theorem guardOf_mk (g : Guard) (o : BitVec 10) (d : BitVec 6) (a b c : BitVec 8) (m : BitVec 12) (l : BitVec 40) :
    guardOf ⟨o, gBits g, d, a, b, c, m, l⟩ = g := guardOf_gBits g _ rfl

theorem gBits_ne (g : Guard) (h : gOk g = true) : gBits g ≠ 8 := by
  obtain ⟨n, p⟩ := g
  revert n p
  decide

@[simp] theorem srcOf_srcBits (s : Src) : srcOf (srcBits s) = s := by
  obtain ⟨t, k, r⟩ := s
  revert t k r
  decide

@[simp] theorem reg_srcBits (s : Src) : (srcBits s).setWidth 6 = s.reg := by
  have h := srcOf_srcBits s
  exact congrArg Src.reg h

/-- A destination field passes the three checks of R44. -/
def DOk (k : Kind) (d : Dst) : Prop := dstReserved k d = false ∧ is60 k d = false ∧ badClass k d = false
/-- A source field passes the three checks of R44. -/
def FOk (k : Kind) (f : BitVec 8) : Prop :=
  srcReserved k f = false ∧ is60 k (f.setWidth 6) = false ∧ badClass k (f.setWidth 6) = false

theorem dOk_none : DOk .none 0 := by unfold DOk; decide
theorem dOk_x {d : Dst} (h : dX d = true) : DOk .x d := by revert d; unfold DOk; decide
theorem dOk_xnz {d : Dst} (h : dXnz d = true) : DOk .xnz d := by revert d; unfold DOk; decide
theorem dOk_xm {d : Dst} (h : dXM d = true) : DOk .xm d := by revert d; unfold DOk; decide
theorem dOk_p {d : Dst} (h : dP d = true) : DOk .p d := by revert d; unfold DOk; decide
theorem dOk_v {d : Dst} (h : dV d = true) : DOk .v d := by revert d; unfold DOk; decide

theorem fOk_none : FOk .none 0 := by unfold FOk; decide
theorem fOk_x {s : Src} (h : sX s = true) : FOk .x (srcBits s) := by
  obtain ⟨t, k, r⟩ := s; revert t k r; unfold FOk; decide
theorem fOk_xm {s : Src} (h : sXM s = true) : FOk .xm (srcBits s) := by
  obtain ⟨t, k, r⟩ := s; revert t k r; unfold FOk; decide
theorem fOk_v {s : Src} (h : sV s = true) : FOk .v (srcBits s) := by
  obtain ⟨t, k, r⟩ := s; revert t k r; unfold FOk; decide
theorem fOk_p {s : Src} (h : sP s = true) : FOk .p (srcBits s) := by
  obtain ⟨t, k, r⟩ := s; revert t k r; unfold FOk; decide
theorem fOk_zero {s : Src} (h : sNone s = true) : FOk .none (srcBits s) := by
  obtain ⟨t, k, r⟩ := s; revert t k r; unfold FOk; decide
theorem fOk_rr {r : BitVec 6} (h : isRR r = true) : FOk .rr (r.setWidth 8) := by revert r; unfold FOk; decide
theorem fOk_pr {r : BitVec 6} (h : isP r = true) : FOk .pr (r.setWidth 8) := by revert r; unfold FOk; decide

@[simp] theorem setWidth_reg (r : BitVec 6) : (r.setWidth 8).setWidth 6 = r := by revert r; decide

/-- Fields that pass every check give their instruction (R44). -/
theorem ck_ok {r : Raw} {n : Need} {i j : Instr} (hp : r.pred ≠ 8) (hc : r.cmpl &&& ~~~n.cm = 0)
    (hl : r.low &&& ~~~n.lm = 0) (hd : DOk n.d r.dst) (h1 : FOk n.s1 r.s1) (h2 : FOk n.s2 r.s2) (h3 : FOk n.s3 r.s3)
    (hb : n.bad = false) (h3' : n.d3 = false) (h4 : n.d4 = false) (hi : i = j) : ck r n i = .ok j := by
  have hp' : ¬ r.pred = 8#4 := hp
  obtain ⟨d1, d2, d3⟩ := hd
  obtain ⟨a1, a2, a3⟩ := h1
  obtain ⟨b1, b2, b3⟩ := h2
  obtain ⟨c1, c2, c3⟩ := h3
  simp [ck, hp', hc, hl, d1, d2, d3, a1, a2, a3, b1, b2, b3, c1, c2, c3, hb, h3', h4, hi]

/-- The fields of a word are the fields it was made from (R36). -/
theorem rawOf_wordOf (r : Raw) : rawOf (wordOf r) = r := by
  obtain ⟨o, p, d, a, b, c, m, l⟩ := r
  simp only [rawOf, wordOf, Raw.mk.injEq]
  refine ⟨?_, ?_, ?_, ?_, ?_, ?_, ?_, ?_⟩
  all_goals
    apply BitVec.eq_of_getLsbD_eq
    intro i hi
    simp only [BitVec.getLsbD_extractLsb', BitVec.getLsbD_append, hi, decide_true, Bool.true_and]
    repeat' split
  all_goals first
    | omega
    | (congr 1; omega)

end Sys2Proof
end

