-- ==== Sys2Proof/Laws/Lanes.lean ====
section
/-! SUPPORT. Lanes of a v register that is put together lane by lane (R266). -/

namespace Sys2Proof.Machine

/-- `n` lanes of width `w` fit in `w n` bits. -/
theorem packLanes_lt (w : Nat) (f : Nat → Nat) : ∀ n, packLanes w f n < 2 ^ (w * n)
  | 0 => by simp [packLanes]
  | n + 1 => by
    have h := packLanes_lt w f n
    have hf : f n % 2 ^ w + 1 ≤ 2 ^ w := Nat.mod_lt _ (Nat.two_pow_pos w)
    calc packLanes w f n + f n % 2 ^ w * 2 ^ (w * n)
        < 2 ^ (w * n) + f n % 2 ^ w * 2 ^ (w * n) := Nat.add_lt_add_right h _
      _ = (f n % 2 ^ w + 1) * 2 ^ (w * n) := by rw [Nat.add_mul, Nat.one_mul, Nat.add_comm]
      _ ≤ 2 ^ w * 2 ^ (w * n) := Nat.mul_le_mul_right _ hf
      _ = 2 ^ (w * (n + 1)) := by rw [← Nat.pow_add]; congr 1; rw [Nat.mul_succ, Nat.add_comm]

/-- Lane `i` of packed lanes is what was packed there. -/
theorem packLanes_lane (w : Nat) (f : Nat → Nat) (i : Nat) : ∀ n, i < n → packLanes w f n / 2 ^ (w * i) % 2 ^ w = f i % 2 ^ w
  | 0, h => absurd h (Nat.not_lt_zero _)
  | n + 1, h => by
    have hp := Nat.two_pow_pos (w * i)
    rcases Nat.lt_succ_iff_lt_or_eq.1 h with h | rfl
    · have e : 2 ^ (w * n) = 2 ^ w * 2 ^ (w * (n - i - 1)) * 2 ^ (w * i) := by
        rw [← Nat.pow_add, ← Nat.pow_add]
        congr 1
        obtain ⟨k, rfl⟩ := Nat.exists_eq_add_of_lt h
        have : i + k + 1 - i - 1 = k := by omega
        rw [this, Nat.mul_add, Nat.mul_add, Nat.mul_one]; omega
      simp only [packLanes]
      rw [e, ← Nat.mul_assoc, Nat.add_mul_div_right _ _ hp, ← packLanes_lane w f i n h, Nat.mul_left_comm, Nat.add_mul_mod_self_left]
    · simp only [packLanes]
      rw [Nat.add_mul_div_right _ _ hp, Nat.div_eq_of_lt (packLanes_lt w f i), Nat.zero_add, Nat.mod_mod]

/-- A v register put together lane by lane has those lanes. -/
theorem hasLanes_vecOf (w : Nat) (f : Nat → Nat) : hasLanes w (vecOf w f) f := by
  intro i hi
  have hw : w * (4096 / w) ≤ 4096 := Nat.mul_div_le 4096 w
  have hlt : packLanes w f (4096 / w) < 2 ^ 4096 := Nat.lt_of_lt_of_le (packLanes_lt w f _) (Nat.pow_le_pow_right Nat.two_pos hw)
  simp only [laneOf, vecOf, BitVec.extractLsb'_toNat, BitVec.toNat_ofNat, Nat.mod_eq_of_lt hlt, Nat.shiftRight_eq_div_pow]
  exact packLanes_lane w f i _ hi

/-- A register with the lanes of `f` is the one put together from them, where the width divides the register. -/
theorem hasLanes_unique (w : Nat) (v u : BitVec 4096) (f : Nat → Nat) (hd : 4096 % w = 0) (hv : hasLanes w v f) (hu : hasLanes w u f) :
    v = u := by
  have hw : 0 < w := by
    rcases Nat.eq_zero_or_pos w with rfl | h
    · simp at hd
    · exact h
  apply BitVec.eq_of_getLsbD_eq
  intro j hj
  have e : j = w * (j / w) + j % w := (Nat.div_add_mod j w).symm
  have hm : j % w < w := Nat.mod_lt _ hw
  have hl : j / w < 4096 / w := Nat.div_lt_div_of_lt_of_dvd (Nat.dvd_of_mod_eq_zero hd) hj
  have h : laneOf w v (j / w) = laneOf w u (j / w) := (hv _ hl).trans (hu _ hl).symm
  have hb : ∀ x : BitVec 4096, (laneOf w x (j / w)).testBit (j % w) = x.getLsbD j := fun x => by
    rw [laneOf, ← BitVec.getLsbD, BitVec.getLsbD_extractLsb', ← e]
    simp [hm]
  rw [← hb v, ← hb u, h]

end Sys2Proof.Machine
end

