-- ==== Sys2Proof/Laws/PerInstr.lean ====
section
/-! SUPPORT. Decoding gives back what was encoded, one lemma per constructor (R36 to R44). -/

set_option Elab.async false
set_option linter.unusedSimpArgs false

namespace Sys2Proof.Laws.RoundTrip

/-- The fields that the encoder writes for a well-formed operation decode to it. -/
def Statement (i : Instr) : Prop := ∀ r, i.wellFormed = true → encodeRaw i = some r → decodeRaw r = .ok i

theorem nofun_of_none {i : Instr} (h : encodeRaw i = none) : Statement i := fun r _ hr => by simp [h] at hr

theorem nop (g : Guard) : Statement (.nop g) := by
  intro r hw hr
  obtain rfl := Option.some.inj hr
  have h0 : gOk g = true := hw
  simp only [decodeRaw, BitVec.reduceToNat, Nat.reduceDiv, Nat.reduceMod]
  with_unfolding_all (change ck _ _ _ = _)
  exact ck_ok (gBits_ne g h0) mask_zero mask_zero dOk_none fOk_none fOk_none fOk_none rfl rfl rfl (by simp only [guardOf_mk])

theorem br (g : Guard) (disp : BitVec 40) : Statement (.br g disp) := by
  intro r hw hr
  obtain rfl := Option.some.inj hr
  have h0 : gOk g = true := hw
  simp only [decodeRaw, BitVec.reduceToNat, Nat.reduceDiv, Nat.reduceMod]
  with_unfolding_all (change ck _ _ _ = _)
  exact ck_ok (gBits_ne g h0) mask_zero (low_all _) dOk_none fOk_none fOk_none fOk_none rfl rfl rfl (by simp only [guardOf_mk])

theorem jmp (g : Guard) (t : Src) : Statement (.jmp g t) := by
  intro r hw hr
  obtain rfl := Option.some.inj hr
  simp only [Instr.wellFormed, Bool.and_eq_true] at hw
  obtain ⟨h0, h1⟩ := hw
  simp only [decodeRaw, BitVec.reduceToNat, Nat.reduceDiv, Nat.reduceMod]
  with_unfolding_all (change ck _ _ _ = _)
  exact ck_ok (gBits_ne g h0) mask_zero mask_zero dOk_none (fOk_x h1) fOk_none fOk_none rfl rfl rfl (by simp only [guardOf_mk, srcOf_srcBits])

theorem call (g : Guard) (d : Dst) (slide : BitVec 2) (disp : BitVec 40) : Statement (.call g d slide disp) := by
  intro r hw hr
  obtain rfl := Option.some.inj hr
  simp only [Instr.wellFormed, Bool.and_eq_true] at hw
  obtain ⟨⟨h0, h1⟩, h2⟩ := hw
  simp only [decodeRaw, BitVec.reduceToNat, Nat.reduceDiv, Nat.reduceMod]
  with_unfolding_all (change ck _ _ _ = _)
  refine ck_ok (gBits_ne g h0) (mask_at (W := 12) (lo := 0) (m := 0x3#12) (slide) (by decide)) (low_all _) (dOk_x h1) fOk_none fOk_none fOk_none ?_ rfl rfl ?_
  · revert h2
    simp (disch := decide) [extract_or, extract_at, extract_at_other, getLsbD_at, getElem_at, BitVec.getLsbD_of_ge]
  · simp (disch := decide) [extract_or, extract_at, extract_at_other, getLsbD_at, getElem_at, BitVec.getLsbD_of_ge]

theorem callx (g : Guard) (d : Dst) (t : Src) (slide : BitVec 2) : Statement (.callx g d t slide) := by
  intro r hw hr
  obtain rfl := Option.some.inj hr
  simp only [Instr.wellFormed, Bool.and_eq_true] at hw
  obtain ⟨⟨⟨h0, h1⟩, h2⟩, h3⟩ := hw
  simp only [decodeRaw, BitVec.reduceToNat, Nat.reduceDiv, Nat.reduceMod]
  with_unfolding_all (change ck _ _ _ = _)
  refine ck_ok (gBits_ne g h0) (mask_at (W := 12) (lo := 0) (m := 0x3#12) (slide) (by decide)) mask_zero (dOk_x h1) (fOk_x h2) fOk_none fOk_none ?_ rfl rfl ?_
  · revert h3
    simp (disch := decide) [extract_or, extract_at, extract_at_other, getLsbD_at, getElem_at, BitVec.getLsbD_of_ge]
  · simp (disch := decide) [extract_or, extract_at, extract_at_other, getLsbD_at, getElem_at, BitVec.getLsbD_of_ge]

theorem ret (g : Guard) (t : Src) : Statement (.ret g t) := by
  intro r hw hr
  obtain rfl := Option.some.inj hr
  simp only [Instr.wellFormed, Bool.and_eq_true] at hw
  obtain ⟨h0, h1⟩ := hw
  simp only [decodeRaw, BitVec.reduceToNat, Nat.reduceDiv, Nat.reduceMod]
  with_unfolding_all (change ck _ _ _ = _)
  exact ck_ok (gBits_ne g h0) mask_zero mask_zero dOk_none (fOk_x h1) fOk_none fOk_none rfl rfl rfl (by simp only [guardOf_mk, srcOf_srcBits])

theorem spill (g : Guard) : Statement (.spill g) := by
  intro r hw hr
  obtain rfl := Option.some.inj hr
  have h0 : gOk g = true := hw
  simp only [decodeRaw, BitVec.reduceToNat, Nat.reduceDiv, Nat.reduceMod]
  with_unfolding_all (change ck _ _ _ = _)
  exact ck_ok (gBits_ne g h0) mask_zero mask_zero dOk_none fOk_none fOk_none fOk_none rfl rfl rfl (by simp only [guardOf_mk])

theorem fill (g : Guard) : Statement (.fill g) := by
  intro r hw hr
  obtain rfl := Option.some.inj hr
  have h0 : gOk g = true := hw
  simp only [decodeRaw, BitVec.reduceToNat, Nat.reduceDiv, Nat.reduceMod]
  with_unfolding_all (change ck _ _ _ = _)
  exact ck_ok (gBits_ne g h0) mask_zero mask_zero dOk_none fOk_none fOk_none fOk_none rfl rfl rfl (by simp only [guardOf_mk])

theorem pand (g : Guard) (d : Dst) (a b : Src) : Statement (.pand g d a b) := by
  intro r hw hr
  obtain rfl := Option.some.inj hr
  simp only [Instr.wellFormed, Bool.and_eq_true] at hw
  obtain ⟨⟨⟨h0, h1⟩, h2⟩, h3⟩ := hw
  simp only [decodeRaw, BitVec.reduceToNat, Nat.reduceDiv, Nat.reduceMod]
  with_unfolding_all (change ck _ _ _ = _)
  exact ck_ok (gBits_ne g h0) mask_zero mask_zero (dOk_p h1) (fOk_p h2) (fOk_p h3) fOk_none rfl rfl rfl (by simp only [guardOf_mk, srcOf_srcBits])

theorem por (g : Guard) (d : Dst) (a b : Src) : Statement (.por g d a b) := by
  intro r hw hr
  obtain rfl := Option.some.inj hr
  simp only [Instr.wellFormed, Bool.and_eq_true] at hw
  obtain ⟨⟨⟨h0, h1⟩, h2⟩, h3⟩ := hw
  simp only [decodeRaw, BitVec.reduceToNat, Nat.reduceDiv, Nat.reduceMod]
  with_unfolding_all (change ck _ _ _ = _)
  exact ck_ok (gBits_ne g h0) mask_zero mask_zero (dOk_p h1) (fOk_p h2) (fOk_p h3) fOk_none rfl rfl rfl (by simp only [guardOf_mk, srcOf_srcBits])

theorem pxor (g : Guard) (d : Dst) (a b : Src) : Statement (.pxor g d a b) := by
  intro r hw hr
  obtain rfl := Option.some.inj hr
  simp only [Instr.wellFormed, Bool.and_eq_true] at hw
  obtain ⟨⟨⟨h0, h1⟩, h2⟩, h3⟩ := hw
  simp only [decodeRaw, BitVec.reduceToNat, Nat.reduceDiv, Nat.reduceMod]
  with_unfolding_all (change ck _ _ _ = _)
  exact ck_ok (gBits_ne g h0) mask_zero mask_zero (dOk_p h1) (fOk_p h2) (fOk_p h3) fOk_none rfl rfl rfl (by simp only [guardOf_mk, srcOf_srcBits])

theorem pandn (g : Guard) (d : Dst) (a b : Src) : Statement (.pandn g d a b) := by
  intro r hw hr
  obtain rfl := Option.some.inj hr
  simp only [Instr.wellFormed, Bool.and_eq_true] at hw
  obtain ⟨⟨⟨h0, h1⟩, h2⟩, h3⟩ := hw
  simp only [decodeRaw, BitVec.reduceToNat, Nat.reduceDiv, Nat.reduceMod]
  with_unfolding_all (change ck _ _ _ = _)
  exact ck_ok (gBits_ne g h0) mask_zero mask_zero (dOk_p h1) (fOk_p h2) (fOk_p h3) fOk_none rfl rfl rfl (by simp only [guardOf_mk, srcOf_srcBits])

theorem pnot (g : Guard) (d : Dst) (a : Src) : Statement (.pnot g d a) := by
  intro r hw hr
  obtain rfl := Option.some.inj hr
  simp only [Instr.wellFormed, Bool.and_eq_true] at hw
  obtain ⟨⟨h0, h1⟩, h2⟩ := hw
  simp only [decodeRaw, BitVec.reduceToNat, Nat.reduceDiv, Nat.reduceMod]
  with_unfolding_all (change ck _ _ _ = _)
  exact ck_ok (gBits_ne g h0) mask_zero mask_zero (dOk_p h1) (fOk_p h2) fOk_none fOk_none rfl rfl rfl (by simp only [guardOf_mk, srcOf_srcBits])

theorem pmovi (g : Guard) (d : Dst) (v : Bool) : Statement (.pmovi g d v) := by
  intro r hw hr
  obtain rfl := Option.some.inj hr
  simp only [Instr.wellFormed, Bool.and_eq_true] at hw
  obtain ⟨h0, h1⟩ := hw
  simp only [decodeRaw, BitVec.reduceToNat, Nat.reduceDiv, Nat.reduceMod]
  with_unfolding_all (change ck _ _ _ = _)
  refine ck_ok (gBits_ne g h0) mask_zero (mask_at (W := 40) (lo := 0) (m := 0x1#40) (bit v) (by decide)) (dOk_p h1) fOk_none fOk_none fOk_none rfl rfl rfl ?_
  · simp (disch := decide) [extract_or, extract_at, extract_at_other, getLsbD_at, getElem_at, BitVec.getLsbD_of_ge]

theorem pmov (g : Guard) (d : Dst) (a : Src) : Statement (.pmov g d a) := by
  intro r hw hr
  obtain rfl := Option.some.inj hr
  simp only [Instr.wellFormed, Bool.and_eq_true] at hw
  obtain ⟨⟨h0, h1⟩, h2⟩ := hw
  simp only [decodeRaw, BitVec.reduceToNat, Nat.reduceDiv, Nat.reduceMod]
  with_unfolding_all (change ck _ _ _ = _)
  exact ck_ok (gBits_ne g h0) mask_zero mask_zero (dOk_p h1) (fOk_p h2) fOk_none fOk_none rfl rfl rfl (by simp only [guardOf_mk, srcOf_srcBits])

theorem part (g : Guard) (d : Dst) (n gr : Src) (hi : Bool) (coord : PartCoord) (m p : BitVec 16) : Statement (.part g d n gr hi coord m p) := by
  intro r hw hr
  obtain rfl := Option.some.inj hr
  simp only [Instr.wellFormed, Bool.and_eq_true] at hw
  obtain ⟨⟨⟨h0, h1⟩, h2⟩, h3⟩ := hw
  simp only [decodeRaw, BitVec.reduceToNat, Nat.reduceDiv, Nat.reduceMod]
  with_unfolding_all (change ck _ _ _ = _)
  refine ck_ok (gBits_ne g h0) (mask_at (W := 12) (lo := 0) (m := 0x1#12) (bit hi) (by decide)) (mask_or (mask_or (mask_at (W := 40) (lo := 37) (m := 0xe0ffffffff#40) (coord.code) (by decide)) (mask_at (W := 40) (lo := 16) (m := 0xe0ffffffff#40) (m) (by decide))) (mask_at (W := 40) (lo := 0) (m := 0xe0ffffffff#40) (p) (by decide))) (dOk_x h1) (fOk_x h2) (fOk_x h3) fOk_none ?_ rfl rfl ?_
  · simp (disch := decide) [extract_or, extract_at, extract_at_other, getLsbD_at, getElem_at, BitVec.getLsbD_of_ge]
  · simp (disch := decide) [extract_or, extract_at, extract_at_other, getLsbD_at, getElem_at, BitVec.getLsbD_of_ge]

theorem yield (g : Guard) : Statement (.yield g) := by
  intro r hw hr
  obtain rfl := Option.some.inj hr
  have h0 : gOk g = true := hw
  simp only [decodeRaw, BitVec.reduceToNat, Nat.reduceDiv, Nat.reduceMod]
  with_unfolding_all (change ck _ _ _ = _)
  exact ck_ok (gBits_ne g h0) mask_zero mask_zero dOk_none fOk_none fOk_none fOk_none rfl rfl rfl (by simp only [guardOf_mk])

theorem sleep (g : Guard) (msg : Bool) (n : BitVec 40) : Statement (.sleep g msg n) := by
  intro r hw hr
  obtain rfl := Option.some.inj hr
  have h0 : gOk g = true := hw
  simp only [decodeRaw, BitVec.reduceToNat, Nat.reduceDiv, Nat.reduceMod]
  with_unfolding_all (change ck _ _ _ = _)
  refine ck_ok (gBits_ne g h0) (mask_at (W := 12) (lo := 0) (m := 0x1#12) (bit msg) (by decide)) (low_all _) dOk_none fOk_none fOk_none fOk_none rfl rfl rfl ?_
  · simp (disch := decide) [extract_or, extract_at, extract_at_other, getLsbD_at, getElem_at, BitVec.getLsbD_of_ge]

theorem exit (g : Guard) : Statement (.exit g) := by
  intro r hw hr
  obtain rfl := Option.some.inj hr
  have h0 : gOk g = true := hw
  simp only [decodeRaw, BitVec.reduceToNat, Nat.reduceDiv, Nat.reduceMod]
  with_unfolding_all (change ck _ _ _ = _)
  exact ck_ok (gBits_ne g h0) mask_zero mask_zero dOk_none fOk_none fOk_none fOk_none rfl rfl rfl (by simp only [guardOf_mk])

theorem fold (g : Guard) (leaf ev ext : Src) (x : Bool) (regs : BitVec 36) : Statement (.fold g leaf ev ext x regs) := by
  intro r hw hr
  obtain rfl := Option.some.inj hr
  simp only [Instr.wellFormed, Bool.and_eq_true] at hw
  obtain ⟨⟨⟨⟨⟨h0, h1⟩, h2⟩, h3⟩, h4⟩, h5⟩ := hw
  simp only [decodeRaw, BitVec.reduceToNat, Nat.reduceDiv, Nat.reduceMod]
  with_unfolding_all (change ck _ _ _ = _)
  refine ck_ok (gBits_ne g h0) (mask_at (W := 12) (lo := 0) (m := 1#12) (bit x) (by decide))
    (mask_at (W := 40) (lo := 0) (m := 0xfffffffff#40) regs (by decide)) dOk_none (fOk_x h1) (fOk_x h2) ?_ rfl ?_ ?_ ?_
  · cases x
    · with_unfolding_all exact fOk_zero h3
    · with_unfolding_all exact fOk_x h3
  · simpa [extract_at] using h4
  · simpa [extract_at] using h5
  · simp (disch := decide) [extract_or, extract_at, extract_at_other, getLsbD_at, getElem_at, BitVec.getLsbD_of_ge]

theorem mdset (g : Guard) (a : Src) : Statement (.mdset g a) := by
  intro r hw hr
  obtain rfl := Option.some.inj hr
  simp only [Instr.wellFormed, Bool.and_eq_true] at hw
  obtain ⟨h0, h1⟩ := hw
  simp only [decodeRaw, BitVec.reduceToNat, Nat.reduceDiv, Nat.reduceMod]
  with_unfolding_all (change ck _ _ _ = _)
  exact ck_ok (gBits_ne g h0) mask_zero mask_zero dOk_none (fOk_x h1) fOk_none fOk_none rfl rfl rfl (by simp only [guardOf_mk, srcOf_srcBits])

theorem mdget (g : Guard) (d : Dst) : Statement (.mdget g d) := by
  intro r hw hr
  obtain rfl := Option.some.inj hr
  simp only [Instr.wellFormed, Bool.and_eq_true] at hw
  obtain ⟨h0, h1⟩ := hw
  simp only [decodeRaw, BitVec.reduceToNat, Nat.reduceDiv, Nat.reduceMod]
  with_unfolding_all (change ck _ _ _ = _)
  exact ck_ok (gBits_ne g h0) mask_zero mask_zero (dOk_x h1) fOk_none fOk_none fOk_none rfl rfl rfl (by simp only [guardOf_mk])

theorem inbcnt (g : Guard) (d : Dst) : Statement (.inbcnt g d) := by
  intro r hw hr
  obtain rfl := Option.some.inj hr
  simp only [Instr.wellFormed, Bool.and_eq_true] at hw
  obtain ⟨h0, h1⟩ := hw
  simp only [decodeRaw, BitVec.reduceToNat, Nat.reduceDiv, Nat.reduceMod]
  with_unfolding_all (change ck _ _ _ = _)
  exact ck_ok (gBits_ne g h0) mask_zero mask_zero (dOk_x h1) fOk_none fOk_none fOk_none rfl rfl rfl (by simp only [guardOf_mk])

theorem slotid (g : Guard) (d : Dst) : Statement (.slotid g d) := by
  intro r hw hr
  obtain rfl := Option.some.inj hr
  simp only [Instr.wellFormed, Bool.and_eq_true] at hw
  obtain ⟨h0, h1⟩ := hw
  simp only [decodeRaw, BitVec.reduceToNat, Nat.reduceDiv, Nat.reduceMod]
  with_unfolding_all (change ck _ _ _ = _)
  exact ck_ok (gBits_ne g h0) mask_zero mask_zero (dOk_x h1) fOk_none fOk_none fOk_none rfl rfl rfl (by simp only [guardOf_mk])

theorem strayrdHdr (g : Guard) (d : Dst) : Statement (.strayrdHdr g d) := by
  intro r hw hr
  obtain rfl := Option.some.inj hr
  simp only [Instr.wellFormed, Bool.and_eq_true] at hw
  obtain ⟨h0, h1⟩ := hw
  simp only [decodeRaw, BitVec.reduceToNat, Nat.reduceDiv, Nat.reduceMod]
  with_unfolding_all (change ck _ _ _ = _)
  exact ck_ok (gBits_ne g h0) mask_zero mask_zero (dOk_x h1) fOk_none fOk_none fOk_none rfl rfl rfl (by simp only [guardOf_mk])

theorem strayrdCnt (g : Guard) (d : Dst) : Statement (.strayrdCnt g d) := by
  intro r hw hr
  obtain rfl := Option.some.inj hr
  simp only [Instr.wellFormed, Bool.and_eq_true] at hw
  obtain ⟨h0, h1⟩ := hw
  simp only [decodeRaw, BitVec.reduceToNat, Nat.reduceDiv, Nat.reduceMod]
  with_unfolding_all (change ck _ _ _ = _)
  refine ck_ok (gBits_ne g h0) (mask_at (W := 12) (lo := 0) (m := 0x1#12) (1#1) (by decide)) mask_zero (dOk_x h1) fOk_none fOk_none fOk_none rfl rfl rfl ?_
  · simp (disch := decide) [extract_or, extract_at, extract_at_other, getLsbD_at, getElem_at, BitVec.getLsbD_of_ge]

theorem loopbk (g : Guard) (d : Dst) (hdr data : Src) (last : Bool) : Statement (.loopbk g d hdr data last) := by
  intro r hw hr
  obtain rfl := Option.some.inj hr
  simp only [Instr.wellFormed, Bool.and_eq_true] at hw
  obtain ⟨⟨⟨h0, h1⟩, h2⟩, h3⟩ := hw
  simp only [decodeRaw, BitVec.reduceToNat, Nat.reduceDiv, Nat.reduceMod]
  with_unfolding_all (change ck _ _ _ = _)
  refine ck_ok (gBits_ne g h0) (mask_at (W := 12) (lo := 0) (m := 0x1#12) (bit last) (by decide)) mask_zero (dOk_x h1) (fOk_x h2) (fOk_x h3) fOk_none rfl rfl rfl ?_
  · simp (disch := decide) [extract_or, extract_at, extract_at_other, getLsbD_at, getElem_at, BitVec.getLsbD_of_ge]

theorem add (g : Guard) (d : Dst) (a b : Src) : Statement (.add g d a b) := by
  intro r hw hr
  obtain rfl := Option.some.inj hr
  simp only [Instr.wellFormed, Bool.and_eq_true] at hw
  obtain ⟨⟨⟨h0, h1⟩, h2⟩, h3⟩ := hw
  simp only [decodeRaw, BitVec.reduceToNat, Nat.reduceDiv, Nat.reduceMod]
  with_unfolding_all (change ck _ _ _ = _)
  exact ck_ok (gBits_ne g h0) mask_zero mask_zero (dOk_xm h1) (fOk_xm h2) (fOk_xm h3) fOk_none rfl rfl rfl (by simp only [guardOf_mk, srcOf_srcBits])

theorem addi (g : Guard) (d : Dst) (a : Src) (imm : BitVec 40) : Statement (.addi g d a imm) := by
  intro r hw hr
  obtain rfl := Option.some.inj hr
  simp only [Instr.wellFormed, Bool.and_eq_true] at hw
  obtain ⟨⟨h0, h1⟩, h2⟩ := hw
  simp only [decodeRaw, BitVec.reduceToNat, Nat.reduceDiv, Nat.reduceMod]
  with_unfolding_all (change ck _ _ _ = _)
  exact ck_ok (gBits_ne g h0) mask_zero (low_all _) (dOk_xm h1) (fOk_xm h2) fOk_none fOk_none rfl rfl rfl (by simp only [guardOf_mk, srcOf_srcBits])

theorem sub (g : Guard) (d : Dst) (a b : Src) : Statement (.sub g d a b) := by
  intro r hw hr
  obtain rfl := Option.some.inj hr
  simp only [Instr.wellFormed, Bool.and_eq_true] at hw
  obtain ⟨⟨⟨h0, h1⟩, h2⟩, h3⟩ := hw
  simp only [decodeRaw, BitVec.reduceToNat, Nat.reduceDiv, Nat.reduceMod]
  with_unfolding_all (change ck _ _ _ = _)
  exact ck_ok (gBits_ne g h0) mask_zero mask_zero (dOk_xm h1) (fOk_xm h2) (fOk_xm h3) fOk_none rfl rfl rfl (by simp only [guardOf_mk, srcOf_srcBits])

theorem neg (g : Guard) (d : Dst) (a : Src) : Statement (.neg g d a) := by
  intro r hw hr
  obtain rfl := Option.some.inj hr
  simp only [Instr.wellFormed, Bool.and_eq_true] at hw
  obtain ⟨⟨h0, h1⟩, h2⟩ := hw
  simp only [decodeRaw, BitVec.reduceToNat, Nat.reduceDiv, Nat.reduceMod]
  with_unfolding_all (change ck _ _ _ = _)
  exact ck_ok (gBits_ne g h0) mask_zero mask_zero (dOk_xm h1) (fOk_xm h2) fOk_none fOk_none rfl rfl rfl (by simp only [guardOf_mk, srcOf_srcBits])

theorem mul (g : Guard) (d : Dst) (a b : Src) : Statement (.mul g d a b) := by
  intro r hw hr
  obtain rfl := Option.some.inj hr
  simp only [Instr.wellFormed, Bool.and_eq_true] at hw
  obtain ⟨⟨⟨h0, h1⟩, h2⟩, h3⟩ := hw
  simp only [decodeRaw, BitVec.reduceToNat, Nat.reduceDiv, Nat.reduceMod]
  with_unfolding_all (change ck _ _ _ = _)
  exact ck_ok (gBits_ne g h0) mask_zero mask_zero (dOk_xm h1) (fOk_xm h2) (fOk_xm h3) fOk_none rfl rfl rfl (by simp only [guardOf_mk, srcOf_srcBits])

theorem muli (g : Guard) (d : Dst) (a : Src) (imm : BitVec 40) : Statement (.muli g d a imm) := by
  intro r hw hr
  obtain rfl := Option.some.inj hr
  simp only [Instr.wellFormed, Bool.and_eq_true] at hw
  obtain ⟨⟨h0, h1⟩, h2⟩ := hw
  simp only [decodeRaw, BitVec.reduceToNat, Nat.reduceDiv, Nat.reduceMod]
  with_unfolding_all (change ck _ _ _ = _)
  exact ck_ok (gBits_ne g h0) mask_zero (low_all _) (dOk_xm h1) (fOk_xm h2) fOk_none fOk_none rfl rfl rfl (by simp only [guardOf_mk, srcOf_srcBits])

theorem mulh (g : Guard) (d : Dst) (a b : Src) (sg : MulSign) : Statement (.mulh g d a b sg) := by
  intro r hw hr
  obtain rfl := Option.some.inj hr
  simp only [Instr.wellFormed, Bool.and_eq_true] at hw
  obtain ⟨⟨⟨h0, h1⟩, h2⟩, h3⟩ := hw
  simp only [decodeRaw, BitVec.reduceToNat, Nat.reduceDiv, Nat.reduceMod]
  with_unfolding_all (change ck _ _ _ = _)
  refine ck_ok (gBits_ne g h0) (mask_at (W := 12) (lo := 0) (m := 0x3#12) (sg.code) (by decide)) mask_zero (dOk_xm h1) (fOk_xm h2) (fOk_xm h3) fOk_none ?_ rfl rfl ?_
  · simp (disch := decide) [extract_or, extract_at, extract_at_other, getLsbD_at, getElem_at, BitVec.getLsbD_of_ge]
  · simp (disch := decide) [extract_or, extract_at, extract_at_other, getLsbD_at, getElem_at, BitVec.getLsbD_of_ge]

theorem div (g : Guard) (d : Dst) (a b : Src) (uns : Bool) : Statement (.div g d a b uns) := by
  intro r hw hr
  obtain rfl := Option.some.inj hr
  simp only [Instr.wellFormed, Bool.and_eq_true] at hw
  obtain ⟨⟨⟨h0, h1⟩, h2⟩, h3⟩ := hw
  simp only [decodeRaw, BitVec.reduceToNat, Nat.reduceDiv, Nat.reduceMod]
  with_unfolding_all (change ck _ _ _ = _)
  refine ck_ok (gBits_ne g h0) (mask_at (W := 12) (lo := 0) (m := 0x1#12) (bit uns) (by decide)) mask_zero (dOk_x h1) (fOk_xm h2) (fOk_xm h3) fOk_none rfl rfl rfl ?_
  · simp (disch := decide) [extract_or, extract_at, extract_at_other, getLsbD_at, getElem_at, BitVec.getLsbD_of_ge]

theorem rem (g : Guard) (d : Dst) (a b : Src) (uns : Bool) : Statement (.rem g d a b uns) := by
  intro r hw hr
  obtain rfl := Option.some.inj hr
  simp only [Instr.wellFormed, Bool.and_eq_true] at hw
  obtain ⟨⟨⟨h0, h1⟩, h2⟩, h3⟩ := hw
  simp only [decodeRaw, BitVec.reduceToNat, Nat.reduceDiv, Nat.reduceMod]
  with_unfolding_all (change ck _ _ _ = _)
  refine ck_ok (gBits_ne g h0) (mask_at (W := 12) (lo := 0) (m := 0x1#12) (bit uns) (by decide)) mask_zero (dOk_x h1) (fOk_xm h2) (fOk_xm h3) fOk_none rfl rfl rfl ?_
  · simp (disch := decide) [extract_or, extract_at, extract_at_other, getLsbD_at, getElem_at, BitVec.getLsbD_of_ge]

theorem and (g : Guard) (d : Dst) (a b : Src) : Statement (.and g d a b) := by
  intro r hw hr
  obtain rfl := Option.some.inj hr
  simp only [Instr.wellFormed, Bool.and_eq_true] at hw
  obtain ⟨⟨⟨h0, h1⟩, h2⟩, h3⟩ := hw
  simp only [decodeRaw, BitVec.reduceToNat, Nat.reduceDiv, Nat.reduceMod]
  with_unfolding_all (change ck _ _ _ = _)
  exact ck_ok (gBits_ne g h0) mask_zero mask_zero (dOk_xm h1) (fOk_xm h2) (fOk_xm h3) fOk_none rfl rfl rfl (by simp only [guardOf_mk, srcOf_srcBits])

theorem andi (g : Guard) (d : Dst) (a : Src) (imm : BitVec 40) : Statement (.andi g d a imm) := by
  intro r hw hr
  obtain rfl := Option.some.inj hr
  simp only [Instr.wellFormed, Bool.and_eq_true] at hw
  obtain ⟨⟨h0, h1⟩, h2⟩ := hw
  simp only [decodeRaw, BitVec.reduceToNat, Nat.reduceDiv, Nat.reduceMod]
  with_unfolding_all (change ck _ _ _ = _)
  exact ck_ok (gBits_ne g h0) mask_zero (low_all _) (dOk_xm h1) (fOk_xm h2) fOk_none fOk_none rfl rfl rfl (by simp only [guardOf_mk, srcOf_srcBits])

theorem or (g : Guard) (d : Dst) (a b : Src) : Statement (.or g d a b) := by
  intro r hw hr
  obtain rfl := Option.some.inj hr
  simp only [Instr.wellFormed, Bool.and_eq_true] at hw
  obtain ⟨⟨⟨h0, h1⟩, h2⟩, h3⟩ := hw
  simp only [decodeRaw, BitVec.reduceToNat, Nat.reduceDiv, Nat.reduceMod]
  with_unfolding_all (change ck _ _ _ = _)
  exact ck_ok (gBits_ne g h0) mask_zero mask_zero (dOk_xm h1) (fOk_xm h2) (fOk_xm h3) fOk_none rfl rfl rfl (by simp only [guardOf_mk, srcOf_srcBits])

theorem ori (g : Guard) (d : Dst) (a : Src) (imm : BitVec 40) : Statement (.ori g d a imm) := by
  intro r hw hr
  obtain rfl := Option.some.inj hr
  simp only [Instr.wellFormed, Bool.and_eq_true] at hw
  obtain ⟨⟨h0, h1⟩, h2⟩ := hw
  simp only [decodeRaw, BitVec.reduceToNat, Nat.reduceDiv, Nat.reduceMod]
  with_unfolding_all (change ck _ _ _ = _)
  exact ck_ok (gBits_ne g h0) mask_zero (low_all _) (dOk_xm h1) (fOk_xm h2) fOk_none fOk_none rfl rfl rfl (by simp only [guardOf_mk, srcOf_srcBits])

theorem xor (g : Guard) (d : Dst) (a b : Src) : Statement (.xor g d a b) := by
  intro r hw hr
  obtain rfl := Option.some.inj hr
  simp only [Instr.wellFormed, Bool.and_eq_true] at hw
  obtain ⟨⟨⟨h0, h1⟩, h2⟩, h3⟩ := hw
  simp only [decodeRaw, BitVec.reduceToNat, Nat.reduceDiv, Nat.reduceMod]
  with_unfolding_all (change ck _ _ _ = _)
  exact ck_ok (gBits_ne g h0) mask_zero mask_zero (dOk_xm h1) (fOk_xm h2) (fOk_xm h3) fOk_none rfl rfl rfl (by simp only [guardOf_mk, srcOf_srcBits])

theorem xori (g : Guard) (d : Dst) (a : Src) (imm : BitVec 40) : Statement (.xori g d a imm) := by
  intro r hw hr
  obtain rfl := Option.some.inj hr
  simp only [Instr.wellFormed, Bool.and_eq_true] at hw
  obtain ⟨⟨h0, h1⟩, h2⟩ := hw
  simp only [decodeRaw, BitVec.reduceToNat, Nat.reduceDiv, Nat.reduceMod]
  with_unfolding_all (change ck _ _ _ = _)
  exact ck_ok (gBits_ne g h0) mask_zero (low_all _) (dOk_xm h1) (fOk_xm h2) fOk_none fOk_none rfl rfl rfl (by simp only [guardOf_mk, srcOf_srcBits])

theorem shl (g : Guard) (d : Dst) (a b : Src) : Statement (.shl g d a b) := by
  intro r hw hr
  obtain rfl := Option.some.inj hr
  simp only [Instr.wellFormed, Bool.and_eq_true] at hw
  obtain ⟨⟨⟨h0, h1⟩, h2⟩, h3⟩ := hw
  simp only [decodeRaw, BitVec.reduceToNat, Nat.reduceDiv, Nat.reduceMod]
  with_unfolding_all (change ck _ _ _ = _)
  exact ck_ok (gBits_ne g h0) mask_zero mask_zero (dOk_xm h1) (fOk_xm h2) (fOk_xm h3) fOk_none rfl rfl rfl (by simp only [guardOf_mk, srcOf_srcBits])

theorem shli (g : Guard) (d : Dst) (a : Src) (n : BitVec 6) : Statement (.shli g d a n) := by
  intro r hw hr
  obtain rfl := Option.some.inj hr
  simp only [Instr.wellFormed, Bool.and_eq_true] at hw
  obtain ⟨⟨h0, h1⟩, h2⟩ := hw
  simp only [decodeRaw, BitVec.reduceToNat, Nat.reduceDiv, Nat.reduceMod]
  with_unfolding_all (change ck _ _ _ = _)
  refine ck_ok (gBits_ne g h0) mask_zero (mask_at (W := 40) (lo := 0) (m := 0x3f#40) (n) (by decide)) (dOk_xm h1) (fOk_xm h2) fOk_none fOk_none rfl rfl rfl ?_
  · simp (disch := decide) [extract_or, extract_at, extract_at_other, getLsbD_at, getElem_at, BitVec.getLsbD_of_ge]

theorem shr (g : Guard) (d : Dst) (a b : Src) : Statement (.shr g d a b) := by
  intro r hw hr
  obtain rfl := Option.some.inj hr
  simp only [Instr.wellFormed, Bool.and_eq_true] at hw
  obtain ⟨⟨⟨h0, h1⟩, h2⟩, h3⟩ := hw
  simp only [decodeRaw, BitVec.reduceToNat, Nat.reduceDiv, Nat.reduceMod]
  with_unfolding_all (change ck _ _ _ = _)
  exact ck_ok (gBits_ne g h0) mask_zero mask_zero (dOk_xm h1) (fOk_xm h2) (fOk_xm h3) fOk_none rfl rfl rfl (by simp only [guardOf_mk, srcOf_srcBits])

theorem shri (g : Guard) (d : Dst) (a : Src) (n : BitVec 6) : Statement (.shri g d a n) := by
  intro r hw hr
  obtain rfl := Option.some.inj hr
  simp only [Instr.wellFormed, Bool.and_eq_true] at hw
  obtain ⟨⟨h0, h1⟩, h2⟩ := hw
  simp only [decodeRaw, BitVec.reduceToNat, Nat.reduceDiv, Nat.reduceMod]
  with_unfolding_all (change ck _ _ _ = _)
  refine ck_ok (gBits_ne g h0) mask_zero (mask_at (W := 40) (lo := 0) (m := 0x3f#40) (n) (by decide)) (dOk_xm h1) (fOk_xm h2) fOk_none fOk_none rfl rfl rfl ?_
  · simp (disch := decide) [extract_or, extract_at, extract_at_other, getLsbD_at, getElem_at, BitVec.getLsbD_of_ge]

theorem sra (g : Guard) (d : Dst) (a b : Src) : Statement (.sra g d a b) := by
  intro r hw hr
  obtain rfl := Option.some.inj hr
  simp only [Instr.wellFormed, Bool.and_eq_true] at hw
  obtain ⟨⟨⟨h0, h1⟩, h2⟩, h3⟩ := hw
  simp only [decodeRaw, BitVec.reduceToNat, Nat.reduceDiv, Nat.reduceMod]
  with_unfolding_all (change ck _ _ _ = _)
  exact ck_ok (gBits_ne g h0) mask_zero mask_zero (dOk_xm h1) (fOk_xm h2) (fOk_xm h3) fOk_none rfl rfl rfl (by simp only [guardOf_mk, srcOf_srcBits])

theorem srai (g : Guard) (d : Dst) (a : Src) (n : BitVec 6) : Statement (.srai g d a n) := by
  intro r hw hr
  obtain rfl := Option.some.inj hr
  simp only [Instr.wellFormed, Bool.and_eq_true] at hw
  obtain ⟨⟨h0, h1⟩, h2⟩ := hw
  simp only [decodeRaw, BitVec.reduceToNat, Nat.reduceDiv, Nat.reduceMod]
  with_unfolding_all (change ck _ _ _ = _)
  refine ck_ok (gBits_ne g h0) mask_zero (mask_at (W := 40) (lo := 0) (m := 0x3f#40) (n) (by decide)) (dOk_xm h1) (fOk_xm h2) fOk_none fOk_none rfl rfl rfl ?_
  · simp (disch := decide) [extract_or, extract_at, extract_at_other, getLsbD_at, getElem_at, BitVec.getLsbD_of_ge]

theorem ror (g : Guard) (d : Dst) (a b : Src) : Statement (.ror g d a b) := by
  intro r hw hr
  obtain rfl := Option.some.inj hr
  simp only [Instr.wellFormed, Bool.and_eq_true] at hw
  obtain ⟨⟨⟨h0, h1⟩, h2⟩, h3⟩ := hw
  simp only [decodeRaw, BitVec.reduceToNat, Nat.reduceDiv, Nat.reduceMod]
  with_unfolding_all (change ck _ _ _ = _)
  exact ck_ok (gBits_ne g h0) mask_zero mask_zero (dOk_xm h1) (fOk_xm h2) (fOk_xm h3) fOk_none rfl rfl rfl (by simp only [guardOf_mk, srcOf_srcBits])

theorem clz (g : Guard) (d : Dst) (a : Src) : Statement (.clz g d a) := by
  intro r hw hr
  obtain rfl := Option.some.inj hr
  simp only [Instr.wellFormed, Bool.and_eq_true] at hw
  obtain ⟨⟨h0, h1⟩, h2⟩ := hw
  simp only [decodeRaw, BitVec.reduceToNat, Nat.reduceDiv, Nat.reduceMod]
  with_unfolding_all (change ck _ _ _ = _)
  exact ck_ok (gBits_ne g h0) mask_zero mask_zero (dOk_xm h1) (fOk_xm h2) fOk_none fOk_none rfl rfl rfl (by simp only [guardOf_mk, srcOf_srcBits])

theorem ctz (g : Guard) (d : Dst) (a : Src) : Statement (.ctz g d a) := by
  intro r hw hr
  obtain rfl := Option.some.inj hr
  simp only [Instr.wellFormed, Bool.and_eq_true] at hw
  obtain ⟨⟨h0, h1⟩, h2⟩ := hw
  simp only [decodeRaw, BitVec.reduceToNat, Nat.reduceDiv, Nat.reduceMod]
  with_unfolding_all (change ck _ _ _ = _)
  exact ck_ok (gBits_ne g h0) mask_zero mask_zero (dOk_xm h1) (fOk_xm h2) fOk_none fOk_none rfl rfl rfl (by simp only [guardOf_mk, srcOf_srcBits])

theorem popc (g : Guard) (d : Dst) (a : Src) : Statement (.popc g d a) := by
  intro r hw hr
  obtain rfl := Option.some.inj hr
  simp only [Instr.wellFormed, Bool.and_eq_true] at hw
  obtain ⟨⟨h0, h1⟩, h2⟩ := hw
  simp only [decodeRaw, BitVec.reduceToNat, Nat.reduceDiv, Nat.reduceMod]
  with_unfolding_all (change ck _ _ _ = _)
  exact ck_ok (gBits_ne g h0) mask_zero mask_zero (dOk_xm h1) (fOk_xm h2) fOk_none fOk_none rfl rfl rfl (by simp only [guardOf_mk, srcOf_srcBits])

theorem bext (g : Guard) (d : Dst) (a : Src) (sgn : Bool) (len : BitVec 7) (pos : BitVec 6) : Statement (.bext g d a sgn len pos) := by
  intro r hw hr
  obtain rfl := Option.some.inj hr
  simp only [Instr.wellFormed, Bool.and_eq_true] at hw
  obtain ⟨⟨⟨h0, h1⟩, h2⟩, h3⟩ := hw
  simp only [decodeRaw, BitVec.reduceToNat, Nat.reduceDiv, Nat.reduceMod]
  with_unfolding_all (change ck _ _ _ = _)
  refine ck_ok (gBits_ne g h0) (mask_at (W := 12) (lo := 0) (m := 0x1#12) (bit sgn) (by decide)) (mask_or (mask_at (W := 40) (lo := 6) (m := 0x1fff#40) (len) (by decide)) (mask_at (W := 40) (lo := 0) (m := 0x1fff#40) (pos) (by decide))) (dOk_xm h1) (fOk_xm h2) fOk_none fOk_none ?_ rfl rfl ?_
  · revert h3
    simp (disch := decide) [extract_or, extract_at, extract_at_other, getLsbD_at, getElem_at, BitVec.getLsbD_of_ge]
  · simp (disch := decide) [extract_or, extract_at, extract_at_other, getLsbD_at, getElem_at, BitVec.getLsbD_of_ge]

theorem bins (g : Guard) (d : Dst) (a b : Src) (len : BitVec 7) (pos : BitVec 6) : Statement (.bins g d a b len pos) := by
  intro r hw hr
  obtain rfl := Option.some.inj hr
  simp only [Instr.wellFormed, Bool.and_eq_true] at hw
  obtain ⟨⟨⟨⟨h0, h1⟩, h2⟩, h3⟩, h4⟩ := hw
  simp only [decodeRaw, BitVec.reduceToNat, Nat.reduceDiv, Nat.reduceMod]
  with_unfolding_all (change ck _ _ _ = _)
  refine ck_ok (gBits_ne g h0) mask_zero (mask_or (mask_at (W := 40) (lo := 6) (m := 0x1fff#40) (len) (by decide)) (mask_at (W := 40) (lo := 0) (m := 0x1fff#40) (pos) (by decide))) (dOk_xm h1) (fOk_xm h2) (fOk_xm h3) fOk_none ?_ rfl rfl ?_
  · revert h4
    simp (disch := decide) [extract_or, extract_at, extract_at_other, getLsbD_at, getElem_at, BitVec.getLsbD_of_ge]
  · simp (disch := decide) [extract_or, extract_at, extract_at_other, getLsbD_at, getElem_at, BitVec.getLsbD_of_ge]

theorem sext (g : Guard) (d : Dst) (a : Src) (w : Width) : Statement (.sext g d a w) := by
  intro r hw hr
  obtain rfl := Option.some.inj hr
  simp only [Instr.wellFormed, Bool.and_eq_true] at hw
  obtain ⟨⟨⟨h0, h1⟩, h2⟩, h3⟩ := hw
  simp only [decodeRaw, BitVec.reduceToNat, Nat.reduceDiv, Nat.reduceMod]
  with_unfolding_all (change ck _ _ _ = _)
  refine ck_ok (gBits_ne g h0) (mask_at (W := 12) (lo := 0) (m := 0x3#12) (w.code) (by decide)) mask_zero (dOk_xm h1) (fOk_xm h2) fOk_none fOk_none ?_ rfl rfl ?_
  · revert h3
    simp (disch := decide) [extract_or, extract_at, extract_at_other, getLsbD_at, getElem_at, BitVec.getLsbD_of_ge]
  · simp (disch := decide) [extract_or, extract_at, extract_at_other, getLsbD_at, getElem_at, BitVec.getLsbD_of_ge]

theorem zext (g : Guard) (d : Dst) (a : Src) (w : Width) : Statement (.zext g d a w) := by
  intro r hw hr
  obtain rfl := Option.some.inj hr
  simp only [Instr.wellFormed, Bool.and_eq_true] at hw
  obtain ⟨⟨⟨h0, h1⟩, h2⟩, h3⟩ := hw
  simp only [decodeRaw, BitVec.reduceToNat, Nat.reduceDiv, Nat.reduceMod]
  with_unfolding_all (change ck _ _ _ = _)
  refine ck_ok (gBits_ne g h0) (mask_at (W := 12) (lo := 0) (m := 0x3#12) (w.code) (by decide)) mask_zero (dOk_xm h1) (fOk_xm h2) fOk_none fOk_none ?_ rfl rfl ?_
  · revert h3
    simp (disch := decide) [extract_or, extract_at, extract_at_other, getLsbD_at, getElem_at, BitVec.getLsbD_of_ge]
  · simp (disch := decide) [extract_or, extract_at, extract_at_other, getLsbD_at, getElem_at, BitVec.getLsbD_of_ge]

theorem min (g : Guard) (d : Dst) (a b : Src) (uns : Bool) : Statement (.min g d a b uns) := by
  intro r hw hr
  obtain rfl := Option.some.inj hr
  simp only [Instr.wellFormed, Bool.and_eq_true] at hw
  obtain ⟨⟨⟨h0, h1⟩, h2⟩, h3⟩ := hw
  simp only [decodeRaw, BitVec.reduceToNat, Nat.reduceDiv, Nat.reduceMod]
  with_unfolding_all (change ck _ _ _ = _)
  refine ck_ok (gBits_ne g h0) (mask_at (W := 12) (lo := 0) (m := 0x1#12) (bit uns) (by decide)) mask_zero (dOk_xm h1) (fOk_xm h2) (fOk_xm h3) fOk_none rfl rfl rfl ?_
  · simp (disch := decide) [extract_or, extract_at, extract_at_other, getLsbD_at, getElem_at, BitVec.getLsbD_of_ge]

theorem max (g : Guard) (d : Dst) (a b : Src) (uns : Bool) : Statement (.max g d a b uns) := by
  intro r hw hr
  obtain rfl := Option.some.inj hr
  simp only [Instr.wellFormed, Bool.and_eq_true] at hw
  obtain ⟨⟨⟨h0, h1⟩, h2⟩, h3⟩ := hw
  simp only [decodeRaw, BitVec.reduceToNat, Nat.reduceDiv, Nat.reduceMod]
  with_unfolding_all (change ck _ _ _ = _)
  refine ck_ok (gBits_ne g h0) (mask_at (W := 12) (lo := 0) (m := 0x1#12) (bit uns) (by decide)) mask_zero (dOk_xm h1) (fOk_xm h2) (fOk_xm h3) fOk_none rfl rfl rfl ?_
  · simp (disch := decide) [extract_or, extract_at, extract_at_other, getLsbD_at, getElem_at, BitVec.getLsbD_of_ge]

theorem cmp (g : Guard) (d : Dst) (a b : Src) (c : Cond) : Statement (.cmp g d a b c) := by
  intro r hw hr
  obtain rfl := Option.some.inj hr
  simp only [Instr.wellFormed, Bool.and_eq_true] at hw
  obtain ⟨⟨⟨h0, h1⟩, h2⟩, h3⟩ := hw
  simp only [decodeRaw, BitVec.reduceToNat, Nat.reduceDiv, Nat.reduceMod]
  with_unfolding_all (change ck _ _ _ = _)
  refine ck_ok (gBits_ne g h0) (mask_at (W := 12) (lo := 0) (m := 0xf#12) (c.code) (by decide)) mask_zero (dOk_p h1) (fOk_xm h2) (fOk_xm h3) fOk_none ?_ rfl rfl ?_
  · simp (disch := decide) [extract_or, extract_at, extract_at_other, getLsbD_at, getElem_at, BitVec.getLsbD_of_ge]
  · simp (disch := decide) [extract_or, extract_at, extract_at_other, getLsbD_at, getElem_at, BitVec.getLsbD_of_ge]

theorem cmpi (g : Guard) (d : Dst) (a : Src) (c : Cond) (imm : BitVec 40) : Statement (.cmpi g d a c imm) := by
  intro r hw hr
  obtain rfl := Option.some.inj hr
  simp only [Instr.wellFormed, Bool.and_eq_true] at hw
  obtain ⟨⟨h0, h1⟩, h2⟩ := hw
  simp only [decodeRaw, BitVec.reduceToNat, Nat.reduceDiv, Nat.reduceMod]
  with_unfolding_all (change ck _ _ _ = _)
  refine ck_ok (gBits_ne g h0) (mask_at (W := 12) (lo := 0) (m := 0xf#12) (c.code) (by decide)) (low_all _) (dOk_p h1) (fOk_xm h2) fOk_none fOk_none ?_ rfl rfl ?_
  · simp (disch := decide) [extract_or, extract_at, extract_at_other, getLsbD_at, getElem_at, BitVec.getLsbD_of_ge]
  · simp (disch := decide) [extract_or, extract_at, extract_at_other, getLsbD_at, getElem_at, BitVec.getLsbD_of_ge]

theorem sel (g : Guard) (d : Dst) (a b p : Src) : Statement (.sel g d a b p) := by
  intro r hw hr
  obtain rfl := Option.some.inj hr
  simp only [Instr.wellFormed, Bool.and_eq_true] at hw
  obtain ⟨⟨⟨⟨h0, h1⟩, h2⟩, h3⟩, h4⟩ := hw
  simp only [decodeRaw, BitVec.reduceToNat, Nat.reduceDiv, Nat.reduceMod]
  with_unfolding_all (change ck _ _ _ = _)
  exact ck_ok (gBits_ne g h0) mask_zero mask_zero (dOk_xm h1) (fOk_xm h2) (fOk_xm h3) (fOk_p h4) rfl rfl rfl (by simp only [guardOf_mk, srcOf_srcBits])

theorem mov (g : Guard) (d : Dst) (a : Src) : Statement (.mov g d a) := by
  intro r hw hr
  obtain rfl := Option.some.inj hr
  simp only [Instr.wellFormed, Bool.and_eq_true] at hw
  obtain ⟨⟨h0, h1⟩, h2⟩ := hw
  simp only [decodeRaw, BitVec.reduceToNat, Nat.reduceDiv, Nat.reduceMod]
  with_unfolding_all (change ck _ _ _ = _)
  exact ck_ok (gBits_ne g h0) mask_zero mask_zero (dOk_xm h1) (fOk_xm h2) fOk_none fOk_none rfl rfl rfl (by simp only [guardOf_mk, srcOf_srcBits])

theorem movi_literal (lit : Word) :
    lit.extractLsb' 56 8 ++ lit.extractLsb' 48 8 ++ lit.extractLsb' 40 8 ++ lit.extractLsb' 28 12
      ++ (lit.extractLsb' 0 28 ++ 0#12).extractLsb' 12 28 = lit := by
  apply BitVec.eq_of_getLsbD_eq
  intro i hi
  simp only [BitVec.getLsbD_append, BitVec.getLsbD_extractLsb']
  by_cases h1 : i < 28
  · have h : ¬ 12 + i < 12 := by omega
    have h' : 12 + i - 12 = i := by omega
    simp [h1, h, h']
  · by_cases h2 : i - 28 < 12
    · have h' : 28 + (i - 28) = i := by omega
      simp [h1, h2, h']
    · by_cases h3 : i - 28 - 12 < 8
      · have h' : 40 + (i - 28 - 12) = i := by omega
        simp [h1, h2, h3, h']
      · by_cases h4 : i - 28 - 12 - 8 < 8
        · have h' : 48 + (i - 28 - 12 - 8) = i := by omega
          simp [h1, h2, h3, h4, h']
        · have h' : 56 + (i - 28 - 12 - 8 - 8) = i := by omega
          have h5 : i - 28 - 12 - 8 - 8 < 8 := by omega
          simp [h1, h2, h3, h4, h5, h']

theorem movi (g : Guard) (d : Dst) (lit : Word) : Statement (.movi g d lit) := by
  intro r hw hr
  obtain rfl := Option.some.inj hr
  simp only [Instr.wellFormed, Bool.and_eq_true] at hw
  obtain ⟨h0, h1⟩ := hw
  obtain ⟨_, h2, h3⟩ := dOk_xm h1
  have hp : ¬ gBits g = 8#4 := gBits_ne g h0
  have hl : (lit.extractLsb' 0 28 ++ 0#12).setWidth 12 = 0#12 := by
    apply BitVec.eq_of_getLsbD_eq
    intro i hi
    rw [BitVec.getLsbD_setWidth, BitVec.getLsbD_append]
    simp [hi]
  have hg : guardOf (moviRaw g d lit) = g := guardOf_gBits g _ rfl
  with_unfolding_all (change ckMovi (moviRaw g d lit) = _)
  simp only [ckMovi, hg]
  simp [moviRaw, hp, hl, h2, h3, movi_literal]

theorem lea (g : Guard) (d : Dst) (b i : Src) (scale : BitVec 2) (imm : BitVec 40) : Statement (.lea g d b i scale imm) := by
  intro r hw hr
  obtain rfl := Option.some.inj hr
  simp only [Instr.wellFormed, Bool.and_eq_true] at hw
  obtain ⟨⟨⟨h0, h1⟩, h2⟩, h3⟩ := hw
  simp only [decodeRaw, BitVec.reduceToNat, Nat.reduceDiv, Nat.reduceMod]
  with_unfolding_all (change ck _ _ _ = _)
  refine ck_ok (gBits_ne g h0) (mask_at (W := 12) (lo := 0) (m := 0x3#12) (scale) (by decide)) (low_all _) (dOk_xm h1) (fOk_xm h2) (fOk_xm h3) fOk_none rfl rfl rfl ?_
  · simp (disch := decide) [extract_or, extract_at, extract_at_other, getLsbD_at, getElem_at, BitVec.getLsbD_of_ge]

theorem incw (g : Guard) (d : Dst) (a b : Src) : Statement (.incw g d a b) := by
  intro r hw hr
  obtain rfl := Option.some.inj hr
  simp only [Instr.wellFormed, Bool.and_eq_true] at hw
  obtain ⟨⟨⟨h0, h1⟩, h2⟩, h3⟩ := hw
  simp only [decodeRaw, BitVec.reduceToNat, Nat.reduceDiv, Nat.reduceMod]
  with_unfolding_all (change ck _ _ _ = _)
  exact ck_ok (gBits_ne g h0) mask_zero mask_zero (dOk_xm h1) (fOk_xm h2) (fOk_xm h3) fOk_none rfl rfl rfl (by simp only [guardOf_mk, srcOf_srcBits])

theorem cwres (g : Guard) (form : BitVec 2) (r : BitVec 6) : Statement (.cwres g form r) := by
  intro q hw hr
  obtain rfl := Option.some.inj hr
  simp only [Instr.wellFormed, Bool.and_eq_true] at hw
  obtain ⟨⟨h0, h1⟩, h2⟩ := hw
  simp only [decodeRaw, BitVec.reduceToNat, Nat.reduceDiv, Nat.reduceMod]
  with_unfolding_all (change ck _ _ _ = _)
  refine ck_ok (gBits_ne g h0) (mask_at (W := 12) (lo := 0) (m := 3#12) form (by decide)) mask_zero dOk_none ?_ fOk_none fOk_none ?_ rfl rfl ?_
  · have hf : (at_ 12 0 form).extractLsb' 0 2 = form := extract_at 12 0 form (by decide)
    simp only [hf]
    unfold cwOk at h1
    split at h1
    · rename_i hz
      simpa [hz] using fOk_rr h1
    · rename_i hz
      split at h1
      · rename_i ho
        simpa [ho] using fOk_pr h1
      · rename_i ho
        have h : r = 0 := by simpa using h1
        subst h
        rw [if_neg hz, if_neg ho]
        exact fOk_none
  · simp (disch := decide) [extract_or, extract_at, extract_at_other, getLsbD_at, getElem_at, BitVec.getLsbD_of_ge]
    simpa using h2
  · simp (disch := decide) [extract_or, extract_at, extract_at_other, getLsbD_at, getElem_at, BitVec.getLsbD_of_ge]

theorem regst (g : Guard) (d : Dst) (p : Bool) (r : BitVec 6) : Statement (.regst g d p r) := by
  intro q hw hr
  obtain rfl := Option.some.inj hr
  simp only [Instr.wellFormed, Bool.and_eq_true] at hw
  obtain ⟨⟨h0, h1⟩, h2⟩ := hw
  simp only [decodeRaw, BitVec.reduceToNat, Nat.reduceDiv, Nat.reduceMod]
  with_unfolding_all (change ck _ _ _ = _)
  refine ck_ok (gBits_ne g h0) (mask_at (W := 12) (lo := 0) (m := 1#12) (bit p) (by decide)) mask_zero (dOk_xm h1) ?_ fOk_none fOk_none rfl rfl rfl ?_
  · cases p
    · with_unfolding_all exact fOk_rr h2
    · with_unfolding_all exact fOk_pr h2
  · simp (disch := decide) [extract_or, extract_at, extract_at_other, getLsbD_at, getElem_at, BitVec.getLsbD_of_ge]

theorem kill (g : Guard) (p : Bool) (r : BitVec 6) : Statement (.kill g p r) := by
  intro q hw hr
  obtain rfl := Option.some.inj hr
  simp only [Instr.wellFormed, Bool.and_eq_true] at hw
  obtain ⟨h0, h2⟩ := hw
  simp only [decodeRaw, BitVec.reduceToNat, Nat.reduceDiv, Nat.reduceMod]
  with_unfolding_all (change ck _ _ _ = _)
  refine ck_ok (gBits_ne g h0) (mask_at (W := 12) (lo := 0) (m := 1#12) (bit p) (by decide)) mask_zero dOk_none ?_ fOk_none fOk_none rfl rfl rfl ?_
  · cases p
    · with_unfolding_all exact fOk_rr h2
    · with_unfolding_all exact fOk_pr h2
  · simp (disch := decide) [extract_or, extract_at, extract_at_other, getLsbD_at, getElem_at, BitVec.getLsbD_of_ge]

theorem cwfree (g : Guard) (d : Dst) : Statement (.cwfree g d) := by
  intro r hw hr
  obtain rfl := Option.some.inj hr
  simp only [Instr.wellFormed, Bool.and_eq_true] at hw
  obtain ⟨h0, h1⟩ := hw
  simp only [decodeRaw, BitVec.reduceToNat, Nat.reduceDiv, Nat.reduceMod]
  with_unfolding_all (change ck _ _ _ = _)
  exact ck_ok (gBits_ne g h0) mask_zero mask_zero (dOk_xm h1) fOk_none fOk_none fOk_none rfl rfl rfl (by simp only [guardOf_mk])

theorem regmap (g : Guard) (d : Dst) (grp : Bool) : Statement (.regmap g d grp) := by
  intro r hw hr
  obtain rfl := Option.some.inj hr
  simp only [Instr.wellFormed, Bool.and_eq_true] at hw
  obtain ⟨h0, h1⟩ := hw
  simp only [decodeRaw, BitVec.reduceToNat, Nat.reduceDiv, Nat.reduceMod]
  with_unfolding_all (change ck _ _ _ = _)
  refine ck_ok (gBits_ne g h0) (mask_at (W := 12) (lo := 0) (m := 0x1#12) (bit grp) (by decide)) mask_zero (dOk_xm h1) fOk_none fOk_none fOk_none rfl rfl rfl ?_
  · simp (disch := decide) [extract_or, extract_at, extract_at_other, getLsbD_at, getElem_at, BitVec.getLsbD_of_ge]

theorem ld (g : Guard) (d : Dst) (b : Src) (w : Width) (sgn : Bool) (imm : BitVec 40) : Statement (.ld g d b w sgn imm) := by
  intro r hw hr
  obtain rfl := Option.some.inj hr
  simp only [Instr.wellFormed, Bool.and_eq_true] at hw
  obtain ⟨⟨⟨h0, h1⟩, h2⟩, h3⟩ := hw
  simp only [decodeRaw, BitVec.reduceToNat, Nat.reduceDiv, Nat.reduceMod]
  with_unfolding_all (change ck _ _ _ = _)
  refine ck_ok (gBits_ne g h0) (mask_or (mask_at (W := 12) (lo := 0) (m := 0x7#12) (w.code) (by decide)) (mask_at (W := 12) (lo := 2) (m := 0x7#12) (bit sgn) (by decide))) (low_all _) (dOk_x h1) (fOk_x h2) fOk_none fOk_none ?_ rfl rfl ?_
  · revert h3
    simp (disch := decide) [extract_or, extract_at, extract_at_other, getLsbD_at, getElem_at, BitVec.getLsbD_of_ge]
    grind
  · simp (disch := decide) [extract_or, extract_at, extract_at_other, getLsbD_at, getElem_at, BitVec.getLsbD_of_ge]

theorem ldx (g : Guard) (d : Dst) (b i : Src) (scale : BitVec 2) (w : Width) (sgn : Bool) : Statement (.ldx g d b i scale w sgn) := by
  intro r hw hr
  obtain rfl := Option.some.inj hr
  simp only [Instr.wellFormed, Bool.and_eq_true] at hw
  obtain ⟨⟨⟨⟨h0, h1⟩, h2⟩, h3⟩, h4⟩ := hw
  simp only [decodeRaw, BitVec.reduceToNat, Nat.reduceDiv, Nat.reduceMod]
  with_unfolding_all (change ck _ _ _ = _)
  refine ck_ok (gBits_ne g h0) (mask_or (mask_or (mask_at (W := 12) (lo := 3) (m := 0x1f#12) (scale) (by decide)) (mask_at (W := 12) (lo := 0) (m := 0x1f#12) (w.code) (by decide))) (mask_at (W := 12) (lo := 2) (m := 0x1f#12) (bit sgn) (by decide))) mask_zero (dOk_x h1) (fOk_x h2) (fOk_x h3) fOk_none ?_ rfl rfl ?_
  · revert h4
    simp (disch := decide) [extract_or, extract_at, extract_at_other, getLsbD_at, getElem_at, BitVec.getLsbD_of_ge]
    grind
  · simp (disch := decide) [extract_or, extract_at, extract_at_other, getLsbD_at, getElem_at, BitVec.getLsbD_of_ge]

theorem st (g : Guard) (b v : Src) (w : Width) (imm : BitVec 40) : Statement (.st g b v w imm) := by
  intro r hw hr
  obtain rfl := Option.some.inj hr
  simp only [Instr.wellFormed, Bool.and_eq_true] at hw
  obtain ⟨⟨h0, h1⟩, h2⟩ := hw
  simp only [decodeRaw, BitVec.reduceToNat, Nat.reduceDiv, Nat.reduceMod]
  with_unfolding_all (change ck _ _ _ = _)
  refine ck_ok (gBits_ne g h0) (mask_at (W := 12) (lo := 0) (m := 0x3#12) (w.code) (by decide)) (low_all _) dOk_none (fOk_x h1) (fOk_xm h2) fOk_none rfl rfl rfl ?_
  · simp (disch := decide) [extract_or, extract_at, extract_at_other, getLsbD_at, getElem_at, BitVec.getLsbD_of_ge]

theorem stx (g : Guard) (b i v : Src) (scale : BitVec 2) (w : Width) : Statement (.stx g b i v scale w) := by
  intro r hw hr
  obtain rfl := Option.some.inj hr
  simp only [Instr.wellFormed, Bool.and_eq_true] at hw
  obtain ⟨⟨⟨h0, h1⟩, h2⟩, h3⟩ := hw
  simp only [decodeRaw, BitVec.reduceToNat, Nat.reduceDiv, Nat.reduceMod]
  with_unfolding_all (change ck _ _ _ = _)
  refine ck_ok (gBits_ne g h0) (mask_or (mask_at (W := 12) (lo := 3) (m := 0x1b#12) (scale) (by decide)) (mask_at (W := 12) (lo := 0) (m := 0x1b#12) (w.code) (by decide))) mask_zero dOk_none (fOk_x h1) (fOk_x h2) (fOk_xm h3) rfl rfl rfl ?_
  · simp (disch := decide) [extract_or, extract_at, extract_at_other, getLsbD_at, getElem_at, BitVec.getLsbD_of_ge]

theorem ldf (g : Guard) (d : Dst) (b : Src) (imm : BitVec 40) : Statement (.ldf g d b imm) := by
  intro r hw hr
  obtain rfl := Option.some.inj hr
  simp only [Instr.wellFormed, Bool.and_eq_true] at hw
  obtain ⟨⟨h0, h1⟩, h2⟩ := hw
  simp only [decodeRaw, BitVec.reduceToNat, Nat.reduceDiv, Nat.reduceMod]
  with_unfolding_all (change ck _ _ _ = _)
  exact ck_ok (gBits_ne g h0) mask_zero (low_all _) (dOk_x h1) (fOk_x h2) fOk_none fOk_none rfl rfl rfl (by simp only [guardOf_mk, srcOf_srcBits])

theorem ldfe (g : Guard) (d : Dst) (b : Src) (imm : BitVec 40) : Statement (.ldfe g d b imm) := by
  intro r hw hr
  obtain rfl := Option.some.inj hr
  simp only [Instr.wellFormed, Bool.and_eq_true] at hw
  obtain ⟨⟨h0, h1⟩, h2⟩ := hw
  simp only [decodeRaw, BitVec.reduceToNat, Nat.reduceDiv, Nat.reduceMod]
  with_unfolding_all (change ck _ _ _ = _)
  exact ck_ok (gBits_ne g h0) mask_zero (low_all _) (dOk_x h1) (fOk_x h2) fOk_none fOk_none rfl rfl rfl (by simp only [guardOf_mk, srcOf_srcBits])

theorem stef (g : Guard) (d : Dst) (b v : Src) (imm : BitVec 40) : Statement (.stef g d b v imm) := by
  intro r hw hr
  obtain rfl := Option.some.inj hr
  simp only [Instr.wellFormed, Bool.and_eq_true] at hw
  obtain ⟨⟨⟨h0, h1⟩, h2⟩, h3⟩ := hw
  simp only [decodeRaw, BitVec.reduceToNat, Nat.reduceDiv, Nat.reduceMod]
  with_unfolding_all (change ck _ _ _ = _)
  exact ck_ok (gBits_ne g h0) mask_zero (low_all _) (dOk_xnz h1) (fOk_x h2) (fOk_xm h3) fOk_none rfl rfl rfl (by simp only [guardOf_mk, srcOf_srcBits])

theorem stf (g : Guard) (b v : Src) (imm : BitVec 40) : Statement (.stf g b v imm) := by
  intro r hw hr
  obtain rfl := Option.some.inj hr
  simp only [Instr.wellFormed, Bool.and_eq_true] at hw
  obtain ⟨⟨h0, h1⟩, h2⟩ := hw
  simp only [decodeRaw, BitVec.reduceToNat, Nat.reduceDiv, Nat.reduceMod]
  with_unfolding_all (change ck _ _ _ = _)
  exact ck_ok (gBits_ne g h0) mask_zero (low_all _) dOk_none (fOk_x h1) (fOk_xm h2) fOk_none rfl rfl rfl (by simp only [guardOf_mk, srcOf_srcBits])

theorem purge (g : Guard) (b : Src) (imm : BitVec 40) : Statement (.purge g b imm) := by
  intro r hw hr
  obtain rfl := Option.some.inj hr
  simp only [Instr.wellFormed, Bool.and_eq_true] at hw
  obtain ⟨h0, h1⟩ := hw
  simp only [decodeRaw, BitVec.reduceToNat, Nat.reduceDiv, Nat.reduceMod]
  with_unfolding_all (change ck _ _ _ = _)
  exact ck_ok (gBits_ne g h0) mask_zero (low_all _) dOk_none (fOk_x h1) fOk_none fOk_none rfl rfl rfl (by simp only [guardOf_mk, srcOf_srcBits])

theorem tagrd (g : Guard) (d : Dst) (b : Src) (w : Bool) (imm : BitVec 40) : Statement (.tagrd g d b w imm) := by
  intro r hw hr
  obtain rfl := Option.some.inj hr
  simp only [Instr.wellFormed, Bool.and_eq_true] at hw
  obtain ⟨⟨h0, h1⟩, h2⟩ := hw
  simp only [decodeRaw, BitVec.reduceToNat, Nat.reduceDiv, Nat.reduceMod]
  with_unfolding_all (change ck _ _ _ = _)
  refine ck_ok (gBits_ne g h0) (mask_at (W := 12) (lo := 0) (m := 0x1#12) (bit w) (by decide)) (low_all _) (dOk_p h1) (fOk_x h2) fOk_none fOk_none rfl rfl rfl ?_
  · simp (disch := decide) [extract_or, extract_at, extract_at_other, getLsbD_at, getElem_at, BitVec.getLsbD_of_ge]

theorem tagset (g : Guard) (d : Dst) (b l : Src) (full : Bool) : Statement (.tagset g d b l full) := by
  intro r hw hr
  obtain rfl := Option.some.inj hr
  simp only [Instr.wellFormed, Bool.and_eq_true] at hw
  obtain ⟨⟨⟨h0, h1⟩, h2⟩, h3⟩ := hw
  simp only [decodeRaw, BitVec.reduceToNat, Nat.reduceDiv, Nat.reduceMod]
  with_unfolding_all (change ck _ _ _ = _)
  refine ck_ok (gBits_ne g h0) (mask_at (W := 12) (lo := 0) (m := 0x1#12) (bit full) (by decide)) mask_zero (dOk_x h1) (fOk_x h2) (fOk_x h3) fOk_none rfl rfl rfl ?_
  · simp (disch := decide) [extract_or, extract_at, extract_at_other, getLsbD_at, getElem_at, BitVec.getLsbD_of_ge]

theorem park (g : Guard) (b leaf ev : Src) (x : Bool) (regs : BitVec 36) : Statement (.park g b leaf ev x regs) := by
  intro r hw hr
  obtain rfl := Option.some.inj hr
  simp only [Instr.wellFormed, Bool.and_eq_true] at hw
  obtain ⟨⟨⟨⟨⟨h0, h1⟩, h2⟩, h3⟩, h4⟩, h5⟩ := hw
  simp only [decodeRaw, BitVec.reduceToNat, Nat.reduceDiv, Nat.reduceMod]
  with_unfolding_all (change ck _ _ _ = _)
  refine ck_ok (gBits_ne g h0) (mask_at (W := 12) (lo := 0) (m := 1#12) (bit x) (by decide))
    (mask_at (W := 40) (lo := 0) (m := 0xfffffffff#40) regs (by decide)) dOk_none (fOk_x h1) (fOk_x h2) (fOk_x h3) rfl
    ?_ ?_ ?_
  · simpa [extract_at] using h4
  · simpa [extract_at] using h5
  · simp (disch := decide) [extract_or, extract_at, extract_at_other, getLsbD_at, getElem_at, BitVec.getLsbD_of_ge]

theorem aadd (g : Guard) (d : Dst) (b v : Src) (w : Width) (imm : BitVec 40) : Statement (.aadd g d b v w imm) := by
  intro r hw hr
  obtain rfl := Option.some.inj hr
  simp only [Instr.wellFormed, Bool.and_eq_true] at hw
  obtain ⟨⟨⟨⟨h0, h1⟩, h2⟩, h3⟩, h4⟩ := hw
  simp only [decodeRaw, BitVec.reduceToNat, Nat.reduceDiv, Nat.reduceMod]
  with_unfolding_all (change ck _ _ _ = _)
  refine ck_ok (gBits_ne g h0) (mask_at (W := 12) (lo := 0) (m := 0x3#12) (w.code) (by decide)) (low_all _) (dOk_x h1) (fOk_x h2) (fOk_xm h3) fOk_none ?_ rfl rfl ?_
  · revert h4
    simp (disch := decide) [extract_or, extract_at, extract_at_other, getLsbD_at, getElem_at, BitVec.getLsbD_of_ge]
  · simp (disch := decide) [extract_or, extract_at, extract_at_other, getLsbD_at, getElem_at, BitVec.getLsbD_of_ge]

theorem aand (g : Guard) (d : Dst) (b v : Src) (w : Width) (imm : BitVec 40) : Statement (.aand g d b v w imm) := by
  intro r hw hr
  obtain rfl := Option.some.inj hr
  simp only [Instr.wellFormed, Bool.and_eq_true] at hw
  obtain ⟨⟨⟨⟨h0, h1⟩, h2⟩, h3⟩, h4⟩ := hw
  simp only [decodeRaw, BitVec.reduceToNat, Nat.reduceDiv, Nat.reduceMod]
  with_unfolding_all (change ck _ _ _ = _)
  refine ck_ok (gBits_ne g h0) (mask_at (W := 12) (lo := 0) (m := 0x3#12) (w.code) (by decide)) (low_all _) (dOk_x h1) (fOk_x h2) (fOk_xm h3) fOk_none ?_ rfl rfl ?_
  · revert h4
    simp (disch := decide) [extract_or, extract_at, extract_at_other, getLsbD_at, getElem_at, BitVec.getLsbD_of_ge]
  · simp (disch := decide) [extract_or, extract_at, extract_at_other, getLsbD_at, getElem_at, BitVec.getLsbD_of_ge]

theorem aor (g : Guard) (d : Dst) (b v : Src) (w : Width) (imm : BitVec 40) : Statement (.aor g d b v w imm) := by
  intro r hw hr
  obtain rfl := Option.some.inj hr
  simp only [Instr.wellFormed, Bool.and_eq_true] at hw
  obtain ⟨⟨⟨⟨h0, h1⟩, h2⟩, h3⟩, h4⟩ := hw
  simp only [decodeRaw, BitVec.reduceToNat, Nat.reduceDiv, Nat.reduceMod]
  with_unfolding_all (change ck _ _ _ = _)
  refine ck_ok (gBits_ne g h0) (mask_at (W := 12) (lo := 0) (m := 0x3#12) (w.code) (by decide)) (low_all _) (dOk_x h1) (fOk_x h2) (fOk_xm h3) fOk_none ?_ rfl rfl ?_
  · revert h4
    simp (disch := decide) [extract_or, extract_at, extract_at_other, getLsbD_at, getElem_at, BitVec.getLsbD_of_ge]
  · simp (disch := decide) [extract_or, extract_at, extract_at_other, getLsbD_at, getElem_at, BitVec.getLsbD_of_ge]

theorem axor (g : Guard) (d : Dst) (b v : Src) (w : Width) (imm : BitVec 40) : Statement (.axor g d b v w imm) := by
  intro r hw hr
  obtain rfl := Option.some.inj hr
  simp only [Instr.wellFormed, Bool.and_eq_true] at hw
  obtain ⟨⟨⟨⟨h0, h1⟩, h2⟩, h3⟩, h4⟩ := hw
  simp only [decodeRaw, BitVec.reduceToNat, Nat.reduceDiv, Nat.reduceMod]
  with_unfolding_all (change ck _ _ _ = _)
  refine ck_ok (gBits_ne g h0) (mask_at (W := 12) (lo := 0) (m := 0x3#12) (w.code) (by decide)) (low_all _) (dOk_x h1) (fOk_x h2) (fOk_xm h3) fOk_none ?_ rfl rfl ?_
  · revert h4
    simp (disch := decide) [extract_or, extract_at, extract_at_other, getLsbD_at, getElem_at, BitVec.getLsbD_of_ge]
  · simp (disch := decide) [extract_or, extract_at, extract_at_other, getLsbD_at, getElem_at, BitVec.getLsbD_of_ge]

theorem amin (g : Guard) (d : Dst) (b v : Src) (uns : Bool) (w : Width) (imm : BitVec 40) : Statement (.amin g d b v uns w imm) := by
  intro r hw hr
  obtain rfl := Option.some.inj hr
  simp only [Instr.wellFormed, Bool.and_eq_true] at hw
  obtain ⟨⟨⟨⟨h0, h1⟩, h2⟩, h3⟩, h4⟩ := hw
  simp only [decodeRaw, BitVec.reduceToNat, Nat.reduceDiv, Nat.reduceMod]
  with_unfolding_all (change ck _ _ _ = _)
  refine ck_ok (gBits_ne g h0) (mask_or (mask_at (W := 12) (lo := 2) (m := 0x7#12) (bit uns) (by decide)) (mask_at (W := 12) (lo := 0) (m := 0x7#12) (w.code) (by decide))) (low_all _) (dOk_x h1) (fOk_x h2) (fOk_xm h3) fOk_none ?_ rfl rfl ?_
  · revert h4
    simp (disch := decide) [extract_or, extract_at, extract_at_other, getLsbD_at, getElem_at, BitVec.getLsbD_of_ge]
  · simp (disch := decide) [extract_or, extract_at, extract_at_other, getLsbD_at, getElem_at, BitVec.getLsbD_of_ge]

theorem amax (g : Guard) (d : Dst) (b v : Src) (uns : Bool) (w : Width) (imm : BitVec 40) : Statement (.amax g d b v uns w imm) := by
  intro r hw hr
  obtain rfl := Option.some.inj hr
  simp only [Instr.wellFormed, Bool.and_eq_true] at hw
  obtain ⟨⟨⟨⟨h0, h1⟩, h2⟩, h3⟩, h4⟩ := hw
  simp only [decodeRaw, BitVec.reduceToNat, Nat.reduceDiv, Nat.reduceMod]
  with_unfolding_all (change ck _ _ _ = _)
  refine ck_ok (gBits_ne g h0) (mask_or (mask_at (W := 12) (lo := 2) (m := 0x7#12) (bit uns) (by decide)) (mask_at (W := 12) (lo := 0) (m := 0x7#12) (w.code) (by decide))) (low_all _) (dOk_x h1) (fOk_x h2) (fOk_xm h3) fOk_none ?_ rfl rfl ?_
  · revert h4
    simp (disch := decide) [extract_or, extract_at, extract_at_other, getLsbD_at, getElem_at, BitVec.getLsbD_of_ge]
  · simp (disch := decide) [extract_or, extract_at, extract_at_other, getLsbD_at, getElem_at, BitVec.getLsbD_of_ge]

theorem axchg (g : Guard) (d : Dst) (b v : Src) (w : Width) (imm : BitVec 40) : Statement (.axchg g d b v w imm) := by
  intro r hw hr
  obtain rfl := Option.some.inj hr
  simp only [Instr.wellFormed, Bool.and_eq_true] at hw
  obtain ⟨⟨⟨⟨h0, h1⟩, h2⟩, h3⟩, h4⟩ := hw
  simp only [decodeRaw, BitVec.reduceToNat, Nat.reduceDiv, Nat.reduceMod]
  with_unfolding_all (change ck _ _ _ = _)
  refine ck_ok (gBits_ne g h0) (mask_at (W := 12) (lo := 0) (m := 0x3#12) (w.code) (by decide)) (low_all _) (dOk_x h1) (fOk_x h2) (fOk_xm h3) fOk_none ?_ rfl rfl ?_
  · revert h4
    simp (disch := decide) [extract_or, extract_at, extract_at_other, getLsbD_at, getElem_at, BitVec.getLsbD_of_ge]
  · simp (disch := decide) [extract_or, extract_at, extract_at_other, getLsbD_at, getElem_at, BitVec.getLsbD_of_ge]

theorem acas (g : Guard) (d : Dst) (b v c : Src) (w : Width) (imm : BitVec 40) : Statement (.acas g d b v c w imm) := by
  intro r hw hr
  obtain rfl := Option.some.inj hr
  simp only [Instr.wellFormed, Bool.and_eq_true] at hw
  obtain ⟨⟨⟨⟨⟨h0, h1⟩, h2⟩, h3⟩, h4⟩, h5⟩ := hw
  simp only [decodeRaw, BitVec.reduceToNat, Nat.reduceDiv, Nat.reduceMod]
  with_unfolding_all (change ck _ _ _ = _)
  refine ck_ok (gBits_ne g h0) (mask_at (W := 12) (lo := 0) (m := 0x3#12) (w.code) (by decide)) (low_all _) (dOk_x h1) (fOk_x h2) (fOk_xm h3) (fOk_xm h4) ?_ rfl rfl ?_
  · revert h5
    simp (disch := decide) [extract_or, extract_at, extract_at_other, getLsbD_at, getElem_at, BitVec.getLsbD_of_ge]
  · simp (disch := decide) [extract_or, extract_at, extract_at_other, getLsbD_at, getElem_at, BitVec.getLsbD_of_ge]

theorem afadd (g : Guard) (d : Dst) (b v : Src) (f32 : Bool) (imm : BitVec 40) : Statement (.afadd g d b v f32 imm) := by
  intro r hw hr
  obtain rfl := Option.some.inj hr
  simp only [Instr.wellFormed, Bool.and_eq_true] at hw
  obtain ⟨⟨⟨h0, h1⟩, h2⟩, h3⟩ := hw
  simp only [decodeRaw, BitVec.reduceToNat, Nat.reduceDiv, Nat.reduceMod]
  with_unfolding_all (change ck _ _ _ = _)
  refine ck_ok (gBits_ne g h0) (mask_at (W := 12) (lo := 0) (m := 0x3#12) (fpCode f32) (by decide)) (low_all _) (dOk_x h1) (fOk_x h2) (fOk_xm h3) fOk_none ?_ rfl rfl ?_
  · cases f32 <;> simp (disch := decide) [fpCode, extract_or, extract_at, extract_at_other, getLsbD_at, getElem_at, BitVec.getLsbD_of_ge]
  · simp (disch := decide) [extract_or, extract_at, extract_at_other, getLsbD_at, getElem_at, BitVec.getLsbD_of_ge]

theorem aincw (g : Guard) (d : Dst) (b v : Src) (w : Width) (imm : BitVec 40) : Statement (.aincw g d b v w imm) := by
  intro r hw hr
  obtain rfl := Option.some.inj hr
  simp only [Instr.wellFormed, Bool.and_eq_true] at hw
  obtain ⟨⟨⟨⟨h0, h1⟩, h2⟩, h3⟩, h4⟩ := hw
  simp only [decodeRaw, BitVec.reduceToNat, Nat.reduceDiv, Nat.reduceMod]
  with_unfolding_all (change ck _ _ _ = _)
  refine ck_ok (gBits_ne g h0) (mask_at (W := 12) (lo := 0) (m := 0x3#12) (w.code) (by decide)) (low_all _) (dOk_x h1) (fOk_x h2) (fOk_xm h3) fOk_none ?_ rfl rfl ?_
  · revert h4
    simp (disch := decide) [extract_or, extract_at, extract_at_other, getLsbD_at, getElem_at, BitVec.getLsbD_of_ge]
  · simp (disch := decide) [extract_or, extract_at, extract_at_other, getLsbD_at, getElem_at, BitVec.getLsbD_of_ge]

theorem afab (g : Guard) (d : Dst) (b v c : Src) (w : Width) (imm : BitVec 40) : Statement (.afab g d b v c w imm) := by
  intro r hw hr
  obtain rfl := Option.some.inj hr
  simp only [Instr.wellFormed, Bool.and_eq_true] at hw
  obtain ⟨⟨⟨⟨⟨h0, h1⟩, h2⟩, h3⟩, h4⟩, h5⟩ := hw
  simp only [decodeRaw, BitVec.reduceToNat, Nat.reduceDiv, Nat.reduceMod]
  with_unfolding_all (change ck _ _ _ = _)
  refine ck_ok (gBits_ne g h0) (mask_at (W := 12) (lo := 0) (m := 0x3#12) (w.code) (by decide)) (low_all _) (dOk_x h1) (fOk_x h2) (fOk_xm h3) (fOk_xm h4) ?_ rfl rfl ?_
  · revert h5
    simp (disch := decide) [extract_or, extract_at, extract_at_other, getLsbD_at, getElem_at, BitVec.getLsbD_of_ge]
  · simp (disch := decide) [extract_or, extract_at, extract_at_other, getLsbD_at, getElem_at, BitVec.getLsbD_of_ge]

theorem redadd (g : Guard) (b v : Src) (w : Width) (imm : BitVec 40) : Statement (.redadd g b v w imm) := by
  intro r hw hr
  obtain rfl := Option.some.inj hr
  simp only [Instr.wellFormed, Bool.and_eq_true] at hw
  obtain ⟨⟨⟨h0, h1⟩, h2⟩, h3⟩ := hw
  simp only [decodeRaw, BitVec.reduceToNat, Nat.reduceDiv, Nat.reduceMod]
  with_unfolding_all (change ck _ _ _ = _)
  refine ck_ok (gBits_ne g h0) (mask_at (W := 12) (lo := 0) (m := 0x3#12) (w.code) (by decide)) (low_all _) dOk_none (fOk_x h1) (fOk_xm h2) fOk_none ?_ rfl rfl ?_
  · revert h3
    simp (disch := decide) [extract_or, extract_at, extract_at_other, getLsbD_at, getElem_at, BitVec.getLsbD_of_ge]
  · simp (disch := decide) [extract_or, extract_at, extract_at_other, getLsbD_at, getElem_at, BitVec.getLsbD_of_ge]

theorem redand (g : Guard) (b v : Src) (w : Width) (imm : BitVec 40) : Statement (.redand g b v w imm) := by
  intro r hw hr
  obtain rfl := Option.some.inj hr
  simp only [Instr.wellFormed, Bool.and_eq_true] at hw
  obtain ⟨⟨⟨h0, h1⟩, h2⟩, h3⟩ := hw
  simp only [decodeRaw, BitVec.reduceToNat, Nat.reduceDiv, Nat.reduceMod]
  with_unfolding_all (change ck _ _ _ = _)
  refine ck_ok (gBits_ne g h0) (mask_at (W := 12) (lo := 0) (m := 0x3#12) (w.code) (by decide)) (low_all _) dOk_none (fOk_x h1) (fOk_xm h2) fOk_none ?_ rfl rfl ?_
  · revert h3
    simp (disch := decide) [extract_or, extract_at, extract_at_other, getLsbD_at, getElem_at, BitVec.getLsbD_of_ge]
  · simp (disch := decide) [extract_or, extract_at, extract_at_other, getLsbD_at, getElem_at, BitVec.getLsbD_of_ge]

theorem redor (g : Guard) (b v : Src) (w : Width) (imm : BitVec 40) : Statement (.redor g b v w imm) := by
  intro r hw hr
  obtain rfl := Option.some.inj hr
  simp only [Instr.wellFormed, Bool.and_eq_true] at hw
  obtain ⟨⟨⟨h0, h1⟩, h2⟩, h3⟩ := hw
  simp only [decodeRaw, BitVec.reduceToNat, Nat.reduceDiv, Nat.reduceMod]
  with_unfolding_all (change ck _ _ _ = _)
  refine ck_ok (gBits_ne g h0) (mask_at (W := 12) (lo := 0) (m := 0x3#12) (w.code) (by decide)) (low_all _) dOk_none (fOk_x h1) (fOk_xm h2) fOk_none ?_ rfl rfl ?_
  · revert h3
    simp (disch := decide) [extract_or, extract_at, extract_at_other, getLsbD_at, getElem_at, BitVec.getLsbD_of_ge]
  · simp (disch := decide) [extract_or, extract_at, extract_at_other, getLsbD_at, getElem_at, BitVec.getLsbD_of_ge]

theorem redxor (g : Guard) (b v : Src) (w : Width) (imm : BitVec 40) : Statement (.redxor g b v w imm) := by
  intro r hw hr
  obtain rfl := Option.some.inj hr
  simp only [Instr.wellFormed, Bool.and_eq_true] at hw
  obtain ⟨⟨⟨h0, h1⟩, h2⟩, h3⟩ := hw
  simp only [decodeRaw, BitVec.reduceToNat, Nat.reduceDiv, Nat.reduceMod]
  with_unfolding_all (change ck _ _ _ = _)
  refine ck_ok (gBits_ne g h0) (mask_at (W := 12) (lo := 0) (m := 0x3#12) (w.code) (by decide)) (low_all _) dOk_none (fOk_x h1) (fOk_xm h2) fOk_none ?_ rfl rfl ?_
  · revert h3
    simp (disch := decide) [extract_or, extract_at, extract_at_other, getLsbD_at, getElem_at, BitVec.getLsbD_of_ge]
  · simp (disch := decide) [extract_or, extract_at, extract_at_other, getLsbD_at, getElem_at, BitVec.getLsbD_of_ge]

theorem redmin (g : Guard) (b v : Src) (uns : Bool) (w : Width) (imm : BitVec 40) : Statement (.redmin g b v uns w imm) := by
  intro r hw hr
  obtain rfl := Option.some.inj hr
  simp only [Instr.wellFormed, Bool.and_eq_true] at hw
  obtain ⟨⟨⟨h0, h1⟩, h2⟩, h3⟩ := hw
  simp only [decodeRaw, BitVec.reduceToNat, Nat.reduceDiv, Nat.reduceMod]
  with_unfolding_all (change ck _ _ _ = _)
  refine ck_ok (gBits_ne g h0) (mask_or (mask_at (W := 12) (lo := 2) (m := 0x7#12) (bit uns) (by decide)) (mask_at (W := 12) (lo := 0) (m := 0x7#12) (w.code) (by decide))) (low_all _) dOk_none (fOk_x h1) (fOk_xm h2) fOk_none ?_ rfl rfl ?_
  · revert h3
    simp (disch := decide) [extract_or, extract_at, extract_at_other, getLsbD_at, getElem_at, BitVec.getLsbD_of_ge]
  · simp (disch := decide) [extract_or, extract_at, extract_at_other, getLsbD_at, getElem_at, BitVec.getLsbD_of_ge]

theorem redmax (g : Guard) (b v : Src) (uns : Bool) (w : Width) (imm : BitVec 40) : Statement (.redmax g b v uns w imm) := by
  intro r hw hr
  obtain rfl := Option.some.inj hr
  simp only [Instr.wellFormed, Bool.and_eq_true] at hw
  obtain ⟨⟨⟨h0, h1⟩, h2⟩, h3⟩ := hw
  simp only [decodeRaw, BitVec.reduceToNat, Nat.reduceDiv, Nat.reduceMod]
  with_unfolding_all (change ck _ _ _ = _)
  refine ck_ok (gBits_ne g h0) (mask_or (mask_at (W := 12) (lo := 2) (m := 0x7#12) (bit uns) (by decide)) (mask_at (W := 12) (lo := 0) (m := 0x7#12) (w.code) (by decide))) (low_all _) dOk_none (fOk_x h1) (fOk_xm h2) fOk_none ?_ rfl rfl ?_
  · revert h3
    simp (disch := decide) [extract_or, extract_at, extract_at_other, getLsbD_at, getElem_at, BitVec.getLsbD_of_ge]
  · simp (disch := decide) [extract_or, extract_at, extract_at_other, getLsbD_at, getElem_at, BitVec.getLsbD_of_ge]

theorem redfadd (g : Guard) (b v : Src) (f32 : Bool) (imm : BitVec 40) : Statement (.redfadd g b v f32 imm) := by
  intro r hw hr
  obtain rfl := Option.some.inj hr
  simp only [Instr.wellFormed, Bool.and_eq_true] at hw
  obtain ⟨⟨h0, h1⟩, h2⟩ := hw
  simp only [decodeRaw, BitVec.reduceToNat, Nat.reduceDiv, Nat.reduceMod]
  with_unfolding_all (change ck _ _ _ = _)
  refine ck_ok (gBits_ne g h0) (mask_at (W := 12) (lo := 0) (m := 0x3#12) (fpCode f32) (by decide)) (low_all _) dOk_none (fOk_x h1) (fOk_xm h2) fOk_none ?_ rfl rfl ?_
  · cases f32 <;> simp (disch := decide) [fpCode, extract_or, extract_at, extract_at_other, getLsbD_at, getElem_at, BitVec.getLsbD_of_ge]
  · simp (disch := decide) [extract_or, extract_at, extract_at_other, getLsbD_at, getElem_at, BitVec.getLsbD_of_ge]

theorem mcas2 (g : Guard) (d : Dst) (b : Src) (imm : BitVec 40) : Statement (.mcas2 g d b imm) := by
  intro r hw hr
  obtain rfl := Option.some.inj hr
  simp only [Instr.wellFormed, Bool.and_eq_true] at hw
  obtain ⟨⟨h0, h1⟩, h2⟩ := hw
  simp only [decodeRaw, BitVec.reduceToNat, Nat.reduceDiv, Nat.reduceMod]
  with_unfolding_all (change ck _ _ _ = _)
  exact ck_ok (gBits_ne g h0) mask_zero (low_all _) (dOk_xnz h1) (fOk_x h2) fOk_none fOk_none rfl rfl rfl (by simp only [guardOf_mk, srcOf_srcBits])

theorem mcas4 (g : Guard) (d : Dst) (b : Src) (imm : BitVec 40) : Statement (.mcas4 g d b imm) := by
  intro r hw hr
  obtain rfl := Option.some.inj hr
  simp only [Instr.wellFormed, Bool.and_eq_true] at hw
  obtain ⟨⟨h0, h1⟩, h2⟩ := hw
  simp only [decodeRaw, BitVec.reduceToNat, Nat.reduceDiv, Nat.reduceMod]
  with_unfolding_all (change ck _ _ _ = _)
  exact ck_ok (gBits_ne g h0) mask_zero (low_all _) (dOk_xnz h1) (fOk_x h2) fOk_none fOk_none rfl rfl rfl (by simp only [guardOf_mk, srcOf_srcBits])

theorem enq (g : Guard) (d : Dst) (b node : Src) (imm : BitVec 40) : Statement (.enq g d b node imm) := by
  intro r hw hr
  obtain rfl := Option.some.inj hr
  simp only [Instr.wellFormed, Bool.and_eq_true] at hw
  obtain ⟨⟨⟨h0, h1⟩, h2⟩, h3⟩ := hw
  simp only [decodeRaw, BitVec.reduceToNat, Nat.reduceDiv, Nat.reduceMod]
  with_unfolding_all (change ck _ _ _ = _)
  exact ck_ok (gBits_ne g h0) mask_zero (low_all _) (dOk_xnz h1) (fOk_x h2) (fOk_x h3) fOk_none rfl rfl rfl (by simp only [guardOf_mk, srcOf_srcBits])

theorem chase (g : Guard) (d : Dst) (b o : Src) (hops : BitVec 7) (imm : BitVec 40) : Statement (.chase g d b o hops imm) := by
  intro r hw hr
  obtain rfl := Option.some.inj hr
  simp only [Instr.wellFormed, Bool.and_eq_true] at hw
  obtain ⟨⟨⟨⟨h0, h1⟩, h2⟩, h3⟩, h4⟩ := hw
  simp only [decodeRaw, BitVec.reduceToNat, Nat.reduceDiv, Nat.reduceMod]
  with_unfolding_all (change ck _ _ _ = _)
  refine ck_ok (gBits_ne g h0) (mask_at (W := 12) (lo := 0) (m := 0x7f#12) (hops) (by decide)) (low_all _) (dOk_xnz h1) (fOk_x h2) (fOk_xm h3) fOk_none ?_ rfl rfl ?_
  · revert h4
    simp (disch := decide) [extract_or, extract_at, extract_at_other, getLsbD_at, getElem_at, BitVec.getLsbD_of_ge]
  · simp (disch := decide) [extract_or, extract_at, extract_at_other, getLsbD_at, getElem_at, BitVec.getLsbD_of_ge]

theorem winopen (g : Guard) (d : Dst) (a : Src) : Statement (.winopen g d a) := by
  intro r hw hr
  obtain rfl := Option.some.inj hr
  simp only [Instr.wellFormed, Bool.and_eq_true] at hw
  obtain ⟨⟨h0, h1⟩, h2⟩ := hw
  simp only [decodeRaw, BitVec.reduceToNat, Nat.reduceDiv, Nat.reduceMod]
  with_unfolding_all (change ck _ _ _ = _)
  exact ck_ok (gBits_ne g h0) mask_zero mask_zero (dOk_xnz h1) (fOk_x h2) fOk_none fOk_none rfl rfl rfl (by simp only [guardOf_mk, srcOf_srcBits])

theorem winclose (g : Guard) (d : Dst) (h : Src) : Statement (.winclose g d h) := by
  intro r hw hr
  obtain rfl := Option.some.inj hr
  simp only [Instr.wellFormed, Bool.and_eq_true] at hw
  obtain ⟨⟨h0, h1⟩, h2⟩ := hw
  simp only [decodeRaw, BitVec.reduceToNat, Nat.reduceDiv, Nat.reduceMod]
  with_unfolding_all (change ck _ _ _ = _)
  exact ck_ok (gBits_ne g h0) mask_zero mask_zero (dOk_xnz h1) (fOk_x h2) fOk_none fOk_none rfl rfl rfl (by simp only [guardOf_mk, srcOf_srcBits])

theorem winstat (g : Guard) (d : Dst) (h : Src) : Statement (.winstat g d h) := by
  intro r hw hr
  obtain rfl := Option.some.inj hr
  simp only [Instr.wellFormed, Bool.and_eq_true] at hw
  obtain ⟨⟨h0, h1⟩, h2⟩ := hw
  simp only [decodeRaw, BitVec.reduceToNat, Nat.reduceDiv, Nat.reduceMod]
  with_unfolding_all (change ck _ _ _ = _)
  exact ck_ok (gBits_ne g h0) mask_zero mask_zero (dOk_xm h1) (fOk_xm h2) fOk_none fOk_none rfl rfl rfl (by simp only [guardOf_mk, srcOf_srcBits])

theorem gflush (g : Guard) : Statement (.gflush g) := by
  intro r hw hr
  obtain rfl := Option.some.inj hr
  have h0 : gOk g = true := hw
  simp only [decodeRaw, BitVec.reduceToNat, Nat.reduceDiv, Nat.reduceMod]
  with_unfolding_all (change ck _ _ _ = _)
  exact ck_ok (gBits_ne g h0) mask_zero mask_zero dOk_none fOk_none fOk_none fOk_none rfl rfl rfl (by simp only [guardOf_mk])

theorem gflushNw (g : Guard) : Statement (.gflushNw g) := by
  intro r hw hr
  obtain rfl := Option.some.inj hr
  have h0 : gOk g = true := hw
  simp only [decodeRaw, BitVec.reduceToNat, Nat.reduceDiv, Nat.reduceMod]
  with_unfolding_all (change ck _ _ _ = _)
  refine ck_ok (gBits_ne g h0) (mask_at (W := 12) (lo := 0) (m := 0x1#12) (1#1) (by decide)) mask_zero dOk_none fOk_none fOk_none fOk_none rfl rfl rfl ?_
  · simp (disch := decide) [extract_or, extract_at, extract_at_other, getLsbD_at, getElem_at, BitVec.getLsbD_of_ge]

theorem gstat (g : Guard) (d : Dst) (isle : Bool) : Statement (.gstat g d isle) := by
  intro r hw hr
  obtain rfl := Option.some.inj hr
  simp only [Instr.wellFormed, Bool.and_eq_true] at hw
  obtain ⟨h0, h1⟩ := hw
  simp only [decodeRaw, BitVec.reduceToNat, Nat.reduceDiv, Nat.reduceMod]
  with_unfolding_all (change ck _ _ _ = _)
  refine ck_ok (gBits_ne g h0) (mask_at (W := 12) (lo := 0) (m := 0x1#12) (bit isle) (by decide)) mask_zero (dOk_xm h1) fOk_none fOk_none fOk_none rfl rfl rfl ?_
  · simp (disch := decide) [extract_or, extract_at, extract_at_other, getLsbD_at, getElem_at, BitVec.getLsbD_of_ge]

theorem rfrecVa (g : Guard) (d : Dst) : Statement (.rfrecVa g d) := by
  intro r hw hr
  obtain rfl := Option.some.inj hr
  simp only [Instr.wellFormed, Bool.and_eq_true] at hw
  obtain ⟨h0, h1⟩ := hw
  simp only [decodeRaw, BitVec.reduceToNat, Nat.reduceDiv, Nat.reduceMod]
  with_unfolding_all (change ck _ _ _ = _)
  exact ck_ok (gBits_ne g h0) mask_zero mask_zero (dOk_xm h1) fOk_none fOk_none fOk_none rfl rfl rfl (by simp only [guardOf_mk])

theorem rfrecSt (g : Guard) (d : Dst) : Statement (.rfrecSt g d) := by
  intro r hw hr
  obtain rfl := Option.some.inj hr
  simp only [Instr.wellFormed, Bool.and_eq_true] at hw
  obtain ⟨h0, h1⟩ := hw
  simp only [decodeRaw, BitVec.reduceToNat, Nat.reduceDiv, Nat.reduceMod]
  with_unfolding_all (change ck _ _ _ = _)
  refine ck_ok (gBits_ne g h0) (mask_at (W := 12) (lo := 0) (m := 0x1#12) (1#1) (by decide)) mask_zero (dOk_xm h1) fOk_none fOk_none fOk_none rfl rfl rfl ?_
  · simp (disch := decide) [extract_or, extract_at, extract_at_other, getLsbD_at, getElem_at, BitVec.getLsbD_of_ge]

theorem rfclr (g : Guard) (d : Dst) : Statement (.rfclr g d) := by
  intro r hw hr
  obtain rfl := Option.some.inj hr
  simp only [Instr.wellFormed, Bool.and_eq_true] at hw
  obtain ⟨h0, h1⟩ := hw
  simp only [decodeRaw, BitVec.reduceToNat, Nat.reduceDiv, Nat.reduceMod]
  with_unfolding_all (change ck _ _ _ = _)
  exact ck_ok (gBits_ne g h0) mask_zero mask_zero (dOk_xm h1) fOk_none fOk_none fOk_none rfl rfl rfl (by simp only [guardOf_mk])

theorem connst (g : Guard) (d : Dst) (p : Src) : Statement (.connst g d p) := by
  intro r hw hr
  obtain rfl := Option.some.inj hr
  simp only [Instr.wellFormed, Bool.and_eq_true] at hw
  obtain ⟨⟨h0, h1⟩, h2⟩ := hw
  simp only [decodeRaw, BitVec.reduceToNat, Nat.reduceDiv, Nat.reduceMod]
  with_unfolding_all (change ck _ _ _ = _)
  exact ck_ok (gBits_ne g h0) mask_zero mask_zero (dOk_xm h1) (fOk_xm h2) fOk_none fOk_none rfl rfl rfl (by simp only [guardOf_mk, srcOf_srcBits])

theorem spalloc (g : Guard) (d : Dst) (n : Src) : Statement (.spalloc g d n) := by
  intro r hw hr
  obtain rfl := Option.some.inj hr
  simp only [Instr.wellFormed, Bool.and_eq_true] at hw
  obtain ⟨⟨h0, h1⟩, h2⟩ := hw
  simp only [decodeRaw, BitVec.reduceToNat, Nat.reduceDiv, Nat.reduceMod]
  with_unfolding_all (change ck _ _ _ = _)
  exact ck_ok (gBits_ne g h0) mask_zero mask_zero (dOk_xnz h1) (fOk_x h2) fOk_none fOk_none rfl rfl rfl (by simp only [guardOf_mk, srcOf_srcBits])

theorem spfree (g : Guard) (d : Dst) (t : Src) : Statement (.spfree g d t) := by
  intro r hw hr
  obtain rfl := Option.some.inj hr
  simp only [Instr.wellFormed, Bool.and_eq_true] at hw
  obtain ⟨⟨h0, h1⟩, h2⟩ := hw
  simp only [decodeRaw, BitVec.reduceToNat, Nat.reduceDiv, Nat.reduceMod]
  with_unfolding_all (change ck _ _ _ = _)
  exact ck_ok (gBits_ne g h0) mask_zero mask_zero (dOk_x h1) (fOk_x h2) fOk_none fOk_none rfl rfl rfl (by simp only [guardOf_mk, srcOf_srcBits])

theorem thandEng (g : Guard) (d : Dst) (t : Src) : Statement (.thandEng g d t) := by
  intro r hw hr
  obtain rfl := Option.some.inj hr
  simp only [Instr.wellFormed, Bool.and_eq_true] at hw
  obtain ⟨⟨h0, h1⟩, h2⟩ := hw
  simp only [decodeRaw, BitVec.reduceToNat, Nat.reduceDiv, Nat.reduceMod]
  with_unfolding_all (change ck _ _ _ = _)
  exact ck_ok (gBits_ne g h0) mask_zero mask_zero (dOk_x h1) (fOk_x h2) fOk_none fOk_none rfl rfl rfl (by simp only [guardOf_mk, srcOf_srcBits])

theorem thandThr (g : Guard) (d : Dst) (t : Src) : Statement (.thandThr g d t) := by
  intro r hw hr
  obtain rfl := Option.some.inj hr
  simp only [Instr.wellFormed, Bool.and_eq_true] at hw
  obtain ⟨⟨h0, h1⟩, h2⟩ := hw
  simp only [decodeRaw, BitVec.reduceToNat, Nat.reduceDiv, Nat.reduceMod]
  with_unfolding_all (change ck _ _ _ = _)
  refine ck_ok (gBits_ne g h0) (mask_at (W := 12) (lo := 0) (m := 0x1#12) (1#1) (by decide)) mask_zero (dOk_x h1) (fOk_x h2) fOk_none fOk_none rfl rfl rfl ?_
  · simp (disch := decide) [extract_or, extract_at, extract_at_other, getLsbD_at, getElem_at, BitVec.getLsbD_of_ge]

theorem tcopy (g : Guard) (d : Dst) (t o e : Src) (fill : Bool) (fmt : Fmt) (out : Bool) (bytes : BitVec 16) (tiles : BitVec 4) (folio : BitVec 16) : Statement (.tcopy g d t o e fill fmt out bytes tiles folio) := by
  intro r hw hr
  obtain rfl := Option.some.inj hr
  simp only [Instr.wellFormed, Bool.and_eq_true] at hw
  obtain ⟨⟨⟨⟨⟨h0, h1⟩, h2⟩, h3⟩, h4⟩, h5⟩ := hw
  simp only [decodeRaw, BitVec.reduceToNat, Nat.reduceDiv, Nat.reduceMod]
  with_unfolding_all (change ck _ _ _ = _)
  refine ck_ok (gBits_ne g h0) (mask_or (mask_or (mask_at (W := 12) (lo := 5) (m := 0x3f#12) (bit fill) (by decide)) (mask_at (W := 12) (lo := 1) (m := 0x3f#12) (fmt.code) (by decide))) (mask_at (W := 12) (lo := 0) (m := 0x3f#12) (bit out) (by decide))) (mask_or (mask_or (mask_at (W := 40) (lo := 24) (m := 0xfffff0ffff#40) (bytes) (by decide)) (mask_at (W := 40) (lo := 20) (m := 0xfffff0ffff#40) (tiles) (by decide))) (mask_at (W := 40) (lo := 0) (m := 0xfffff0ffff#40) (folio) (by decide))) (dOk_xnz h1) (fOk_x h2) (fOk_x h3) (fOk_x h4) ?_ rfl rfl ?_
  · revert h5
    simp (disch := decide) [extract_or, extract_at, extract_at_other, getLsbD_at, getElem_at, BitVec.getLsbD_of_ge]
  · simp (disch := decide) [extract_or, extract_at, extract_at_other, getLsbD_at, getElem_at, BitVec.getLsbD_of_ge]

theorem twait (g : Guard) (d : Dst) (t dl pr : Src) (phase : Bool) : Statement (.twait g d t dl pr phase) := by
  intro r hw hr
  obtain rfl := Option.some.inj hr
  simp only [Instr.wellFormed, Bool.and_eq_true] at hw
  obtain ⟨⟨⟨⟨h0, h1⟩, h2⟩, h3⟩, h4⟩ := hw
  simp only [decodeRaw, BitVec.reduceToNat, Nat.reduceDiv, Nat.reduceMod]
  with_unfolding_all (change ck _ _ _ = _)
  refine ck_ok (gBits_ne g h0) (mask_at (W := 12) (lo := 0) (m := 0x1#12) (bit phase) (by decide)) mask_zero (dOk_x h1) (fOk_x h2) (fOk_x h3) (fOk_x h4) rfl rfl rfl ?_
  · simp (disch := decide) [extract_or, extract_at, extract_at_other, getLsbD_at, getElem_at, BitVec.getLsbD_of_ge]

theorem tstat (g : Guard) (d : Dst) (t : Src) : Statement (.tstat g d t) := by
  intro r hw hr
  obtain rfl := Option.some.inj hr
  simp only [Instr.wellFormed, Bool.and_eq_true] at hw
  obtain ⟨⟨h0, h1⟩, h2⟩ := hw
  simp only [decodeRaw, BitVec.reduceToNat, Nat.reduceDiv, Nat.reduceMod]
  with_unfolding_all (change ck _ _ _ = _)
  exact ck_ok (gBits_ne g h0) mask_zero mask_zero (dOk_xm h1) (fOk_xm h2) fOk_none fOk_none rfl rfl rfl (by simp only [guardOf_mk, srcOf_srcBits])

theorem spld (g : Guard) (d : Dst) (b : Src) (w : Width) (sgn : Bool) (imm : BitVec 40) : Statement (.spld g d b w sgn imm) := by
  intro r hw hr
  obtain rfl := Option.some.inj hr
  simp only [Instr.wellFormed, Bool.and_eq_true] at hw
  obtain ⟨⟨⟨h0, h1⟩, h2⟩, h3⟩ := hw
  simp only [decodeRaw, BitVec.reduceToNat, Nat.reduceDiv, Nat.reduceMod]
  with_unfolding_all (change ck _ _ _ = _)
  refine ck_ok (gBits_ne g h0) (mask_or (mask_at (W := 12) (lo := 0) (m := 0x7#12) (w.code) (by decide)) (mask_at (W := 12) (lo := 2) (m := 0x7#12) (bit sgn) (by decide))) (low_all _) (dOk_x h1) (fOk_x h2) fOk_none fOk_none ?_ rfl rfl ?_
  · revert h3
    simp (disch := decide) [extract_or, extract_at, extract_at_other, getLsbD_at, getElem_at, BitVec.getLsbD_of_ge]
    grind
  · simp (disch := decide) [extract_or, extract_at, extract_at_other, getLsbD_at, getElem_at, BitVec.getLsbD_of_ge]

theorem spst (g : Guard) (b v : Src) (w : Width) (imm : BitVec 40) : Statement (.spst g b v w imm) := by
  intro r hw hr
  obtain rfl := Option.some.inj hr
  simp only [Instr.wellFormed, Bool.and_eq_true] at hw
  obtain ⟨⟨h0, h1⟩, h2⟩ := hw
  simp only [decodeRaw, BitVec.reduceToNat, Nat.reduceDiv, Nat.reduceMod]
  with_unfolding_all (change ck _ _ _ = _)
  refine ck_ok (gBits_ne g h0) (mask_at (W := 12) (lo := 0) (m := 0x3#12) (w.code) (by decide)) (low_all _) dOk_none (fOk_x h1) (fOk_xm h2) fOk_none rfl rfl rfl ?_
  · simp (disch := decide) [extract_or, extract_at, extract_at_other, getLsbD_at, getElem_at, BitVec.getLsbD_of_ge]

theorem sphash (g : Guard) (d : Dst) (o : Src) (key : Bool) : Statement (.sphash g d o key) := by
  intro r hw hr
  obtain rfl := Option.some.inj hr
  simp only [Instr.wellFormed, Bool.and_eq_true] at hw
  obtain ⟨⟨h0, h1⟩, h2⟩ := hw
  simp only [decodeRaw, BitVec.reduceToNat, Nat.reduceDiv, Nat.reduceMod]
  with_unfolding_all (change ck _ _ _ = _)
  refine ck_ok (gBits_ne g h0) (mask_at (W := 12) (lo := 0) (m := 1#12) (bit key) (by decide)) mask_zero (dOk_xm h1) ?_ fOk_none fOk_none rfl rfl rfl ?_
  · cases key
    · with_unfolding_all exact fOk_xm h2
    · with_unfolding_all exact fOk_zero h2
  · simp (disch := decide) [extract_or, extract_at, extract_at_other, getLsbD_at, getElem_at, BitVec.getLsbD_of_ge]

theorem tcq (g : Guard) (d : Dst) : Statement (.tcq g d) := by
  intro r hw hr
  obtain rfl := Option.some.inj hr
  simp only [Instr.wellFormed, Bool.and_eq_true] at hw
  obtain ⟨h0, h1⟩ := hw
  simp only [decodeRaw, BitVec.reduceToNat, Nat.reduceDiv, Nat.reduceMod]
  with_unfolding_all (change ck _ _ _ = _)
  exact ck_ok (gBits_ne g h0) mask_zero mask_zero (dOk_xm h1) fOk_none fOk_none fOk_none rfl rfl rfl (by simp only [guardOf_mk])

theorem vlease (g : Guard) (d : Dst) (try_ : Bool) : Statement (.vlease g d try_) := by
  intro r hw hr
  obtain rfl := Option.some.inj hr
  simp only [Instr.wellFormed, Bool.and_eq_true] at hw
  obtain ⟨h0, h1⟩ := hw
  simp only [decodeRaw, BitVec.reduceToNat, Nat.reduceDiv, Nat.reduceMod]
  with_unfolding_all (change ck _ _ _ = _)
  refine ck_ok (gBits_ne g h0) (mask_at (W := 12) (lo := 0) (m := 0x1#12) (bit try_) (by decide)) mask_zero (dOk_xnz h1) fOk_none fOk_none fOk_none rfl rfl rfl ?_
  · simp (disch := decide) [extract_or, extract_at, extract_at_other, getLsbD_at, getElem_at, BitVec.getLsbD_of_ge]

theorem vrel (g : Guard) : Statement (.vrel g) := by
  intro r hw hr
  obtain rfl := Option.some.inj hr
  have h0 : gOk g = true := hw
  simp only [decodeRaw, BitVec.reduceToNat, Nat.reduceDiv, Nat.reduceMod]
  with_unfolding_all (change ck _ _ _ = _)
  exact ck_ok (gBits_ne g h0) mask_zero mask_zero dOk_none fOk_none fOk_none fOk_none rfl rfl rfl (by simp only [guardOf_mk])

theorem vld (g : Guard) (d : Dst) (c : Src) (f : Fmt) (folio : BitVec 16) : Statement (.vld g d c f folio) := by
  intro r hw hr
  obtain rfl := Option.some.inj hr
  simp only [Instr.wellFormed, Bool.and_eq_true] at hw
  obtain ⟨⟨⟨h0, h1⟩, h2⟩, h3⟩ := hw
  simp only [decodeRaw, BitVec.reduceToNat, Nat.reduceDiv, Nat.reduceMod]
  with_unfolding_all (change ck _ _ _ = _)
  refine ck_ok (gBits_ne g h0) (mask_at (W := 12) (lo := 0) (m := 0xf#12) (f.code) (by decide)) (mask_at (W := 40) (lo := 0) (m := 0xffff#40) (folio) (by decide)) (dOk_v h1) (fOk_x h2) fOk_none fOk_none ?_ rfl rfl ?_
  · revert h3
    simp (disch := decide) [extract_or, extract_at, extract_at_other, getLsbD_at, getElem_at, BitVec.getLsbD_of_ge]
  · simp (disch := decide) [extract_or, extract_at, extract_at_other, getLsbD_at, getElem_at, BitVec.getLsbD_of_ge]

theorem vst (g : Guard) (c v : Src) (f : Fmt) (folio : BitVec 16) : Statement (.vst g c v f folio) := by
  intro r hw hr
  obtain rfl := Option.some.inj hr
  simp only [Instr.wellFormed, Bool.and_eq_true] at hw
  obtain ⟨⟨⟨h0, h1⟩, h2⟩, h3⟩ := hw
  simp only [decodeRaw, BitVec.reduceToNat, Nat.reduceDiv, Nat.reduceMod]
  with_unfolding_all (change ck _ _ _ = _)
  refine ck_ok (gBits_ne g h0) (mask_at (W := 12) (lo := 0) (m := 0xf#12) (f.code) (by decide)) (mask_at (W := 40) (lo := 0) (m := 0xffff#40) (folio) (by decide)) dOk_none (fOk_x h1) (fOk_v h2) fOk_none ?_ rfl rfl ?_
  · revert h3
    simp (disch := decide) [extract_or, extract_at, extract_at_other, getLsbD_at, getElem_at, BitVec.getLsbD_of_ge]
  · simp (disch := decide) [extract_or, extract_at, extract_at_other, getLsbD_at, getElem_at, BitVec.getLsbD_of_ge]

theorem vldx (g : Guard) (d : Dst) (c i : Src) (f : Fmt) (folio : BitVec 16) : Statement (.vldx g d c i f folio) := by
  intro r hw hr
  obtain rfl := Option.some.inj hr
  simp only [Instr.wellFormed, Bool.and_eq_true] at hw
  obtain ⟨⟨⟨⟨h0, h1⟩, h2⟩, h3⟩, h4⟩ := hw
  simp only [decodeRaw, BitVec.reduceToNat, Nat.reduceDiv, Nat.reduceMod]
  with_unfolding_all (change ck _ _ _ = _)
  refine ck_ok (gBits_ne g h0) (mask_at (W := 12) (lo := 0) (m := 0xf#12) (f.code) (by decide)) (mask_at (W := 40) (lo := 0) (m := 0xffff#40) (folio) (by decide)) (dOk_v h1) (fOk_x h2) (fOk_v h3) fOk_none ?_ rfl rfl ?_
  · revert h4
    simp (disch := decide) [extract_or, extract_at, extract_at_other, getLsbD_at, getElem_at, BitVec.getLsbD_of_ge]
  · simp (disch := decide) [extract_or, extract_at, extract_at_other, getLsbD_at, getElem_at, BitVec.getLsbD_of_ge]

theorem vstx (g : Guard) (c v i : Src) (f : Fmt) (folio : BitVec 16) : Statement (.vstx g c v i f folio) := by
  intro r hw hr
  obtain rfl := Option.some.inj hr
  simp only [Instr.wellFormed, Bool.and_eq_true] at hw
  obtain ⟨⟨⟨⟨h0, h1⟩, h2⟩, h3⟩, h4⟩ := hw
  simp only [decodeRaw, BitVec.reduceToNat, Nat.reduceDiv, Nat.reduceMod]
  with_unfolding_all (change ck _ _ _ = _)
  refine ck_ok (gBits_ne g h0) (mask_at (W := 12) (lo := 0) (m := 0xf#12) (f.code) (by decide)) (mask_at (W := 40) (lo := 0) (m := 0xffff#40) (folio) (by decide)) dOk_none (fOk_x h1) (fOk_v h2) (fOk_v h3) ?_ rfl rfl ?_
  · revert h4
    simp (disch := decide) [extract_or, extract_at, extract_at_other, getLsbD_at, getElem_at, BitVec.getLsbD_of_ge]
  · simp (disch := decide) [extract_or, extract_at, extract_at_other, getLsbD_at, getElem_at, BitVec.getLsbD_of_ge]

theorem vmov (g : Guard) (d : Dst) (a : Src) : Statement (.vmov g d a) := by
  intro r hw hr
  obtain rfl := Option.some.inj hr
  simp only [Instr.wellFormed, Bool.and_eq_true] at hw
  obtain ⟨⟨h0, h1⟩, h2⟩ := hw
  simp only [decodeRaw, BitVec.reduceToNat, Nat.reduceDiv, Nat.reduceMod]
  with_unfolding_all (change ck _ _ _ = _)
  exact ck_ok (gBits_ne g h0) mask_zero mask_zero (dOk_v h1) (fOk_v h2) fOk_none fOk_none rfl rfl rfl (by simp only [guardOf_mk, srcOf_srcBits])

theorem vsplat (g : Guard) (d : Dst) (a : Src) (f : Fmt) : Statement (.vsplat g d a f) := by
  intro r hw hr
  obtain rfl := Option.some.inj hr
  simp only [Instr.wellFormed, Bool.and_eq_true] at hw
  obtain ⟨⟨⟨h0, h1⟩, h2⟩, h3⟩ := hw
  simp only [decodeRaw, BitVec.reduceToNat, Nat.reduceDiv, Nat.reduceMod]
  with_unfolding_all (change ck _ _ _ = _)
  refine ck_ok (gBits_ne g h0) (mask_at (W := 12) (lo := 0) (m := 0xf#12) (f.code) (by decide)) mask_zero (dOk_v h1) (fOk_xm h2) fOk_none fOk_none ?_ rfl rfl ?_
  · revert h3
    simp (disch := decide) [extract_or, extract_at, extract_at_other, getLsbD_at, getElem_at, BitVec.getLsbD_of_ge]
  · simp (disch := decide) [extract_or, extract_at, extract_at_other, getLsbD_at, getElem_at, BitVec.getLsbD_of_ge]

theorem vadd (g : Guard) (d : Dst) (a b : Src) (rm : Rnd) (sat : Bool) (f : Fmt) : Statement (.vadd g d a b rm sat f) := by
  intro r hw hr
  obtain rfl := Option.some.inj hr
  simp only [Instr.wellFormed, Bool.and_eq_true] at hw
  obtain ⟨⟨⟨⟨h0, h1⟩, h2⟩, h3⟩, h4⟩ := hw
  simp only [decodeRaw, BitVec.reduceToNat, Nat.reduceDiv, Nat.reduceMod]
  with_unfolding_all (change ck _ _ _ = _)
  refine ck_ok (gBits_ne g h0) (mask_or (mask_or (mask_at (W := 12) (lo := 10) (m := 0xd0f#12) (rm.code) (by decide)) (mask_at (W := 12) (lo := 8) (m := 0xd0f#12) (bit sat) (by decide))) (mask_at (W := 12) (lo := 0) (m := 0xd0f#12) (f.code) (by decide))) mask_zero (dOk_v h1) (fOk_v h2) (fOk_v h3) fOk_none ?_ rfl rfl ?_
  · revert h4
    simp (disch := decide) [extract_or, extract_at, extract_at_other, getLsbD_at, getElem_at, BitVec.getLsbD_of_ge]
    grind
  · simp (disch := decide) [extract_or, extract_at, extract_at_other, getLsbD_at, getElem_at, BitVec.getLsbD_of_ge]

theorem vsub (g : Guard) (d : Dst) (a b : Src) (rm : Rnd) (sat : Bool) (f : Fmt) : Statement (.vsub g d a b rm sat f) := by
  intro r hw hr
  obtain rfl := Option.some.inj hr
  simp only [Instr.wellFormed, Bool.and_eq_true] at hw
  obtain ⟨⟨⟨⟨h0, h1⟩, h2⟩, h3⟩, h4⟩ := hw
  simp only [decodeRaw, BitVec.reduceToNat, Nat.reduceDiv, Nat.reduceMod]
  with_unfolding_all (change ck _ _ _ = _)
  refine ck_ok (gBits_ne g h0) (mask_or (mask_or (mask_at (W := 12) (lo := 10) (m := 0xd0f#12) (rm.code) (by decide)) (mask_at (W := 12) (lo := 8) (m := 0xd0f#12) (bit sat) (by decide))) (mask_at (W := 12) (lo := 0) (m := 0xd0f#12) (f.code) (by decide))) mask_zero (dOk_v h1) (fOk_v h2) (fOk_v h3) fOk_none ?_ rfl rfl ?_
  · revert h4
    simp (disch := decide) [extract_or, extract_at, extract_at_other, getLsbD_at, getElem_at, BitVec.getLsbD_of_ge]
    grind
  · simp (disch := decide) [extract_or, extract_at, extract_at_other, getLsbD_at, getElem_at, BitVec.getLsbD_of_ge]

theorem vmul (g : Guard) (d : Dst) (a b : Src) (rm : Rnd) (sat : Bool) (f : Fmt) : Statement (.vmul g d a b rm sat f) := by
  intro r hw hr
  obtain rfl := Option.some.inj hr
  simp only [Instr.wellFormed, Bool.and_eq_true] at hw
  obtain ⟨⟨⟨⟨h0, h1⟩, h2⟩, h3⟩, h4⟩ := hw
  simp only [decodeRaw, BitVec.reduceToNat, Nat.reduceDiv, Nat.reduceMod]
  with_unfolding_all (change ck _ _ _ = _)
  refine ck_ok (gBits_ne g h0) (mask_or (mask_or (mask_at (W := 12) (lo := 10) (m := 0xd0f#12) (rm.code) (by decide)) (mask_at (W := 12) (lo := 8) (m := 0xd0f#12) (bit sat) (by decide))) (mask_at (W := 12) (lo := 0) (m := 0xd0f#12) (f.code) (by decide))) mask_zero (dOk_v h1) (fOk_v h2) (fOk_v h3) fOk_none ?_ rfl rfl ?_
  · revert h4
    simp (disch := decide) [extract_or, extract_at, extract_at_other, getLsbD_at, getElem_at, BitVec.getLsbD_of_ge]
    grind
  · simp (disch := decide) [extract_or, extract_at, extract_at_other, getLsbD_at, getElem_at, BitVec.getLsbD_of_ge]

theorem vfma (g : Guard) (d : Dst) (a b c : Src) (rm : Rnd) (f : Fmt) : Statement (.vfma g d a b c rm f) := by
  intro r hw hr
  obtain rfl := Option.some.inj hr
  simp only [Instr.wellFormed, Bool.and_eq_true] at hw
  obtain ⟨⟨⟨⟨⟨h0, h1⟩, h2⟩, h3⟩, h4⟩, h5⟩ := hw
  simp only [decodeRaw, BitVec.reduceToNat, Nat.reduceDiv, Nat.reduceMod]
  with_unfolding_all (change ck _ _ _ = _)
  refine ck_ok (gBits_ne g h0) (mask_or (mask_at (W := 12) (lo := 10) (m := 0xc0f#12) (rm.code) (by decide)) (mask_at (W := 12) (lo := 0) (m := 0xc0f#12) (f.code) (by decide))) mask_zero (dOk_v h1) (fOk_v h2) (fOk_v h3) (fOk_v h4) ?_ rfl rfl ?_
  · revert h5
    simp (disch := decide) [extract_or, extract_at, extract_at_other, getLsbD_at, getElem_at, BitVec.getLsbD_of_ge]
  · simp (disch := decide) [extract_or, extract_at, extract_at_other, getLsbD_at, getElem_at, BitVec.getLsbD_of_ge]

theorem vfms (g : Guard) (d : Dst) (a b c : Src) (rm : Rnd) (f : Fmt) : Statement (.vfms g d a b c rm f) := by
  intro r hw hr
  obtain rfl := Option.some.inj hr
  simp only [Instr.wellFormed, Bool.and_eq_true] at hw
  obtain ⟨⟨⟨⟨⟨h0, h1⟩, h2⟩, h3⟩, h4⟩, h5⟩ := hw
  simp only [decodeRaw, BitVec.reduceToNat, Nat.reduceDiv, Nat.reduceMod]
  with_unfolding_all (change ck _ _ _ = _)
  refine ck_ok (gBits_ne g h0) (mask_or (mask_at (W := 12) (lo := 10) (m := 0xc0f#12) (rm.code) (by decide)) (mask_at (W := 12) (lo := 0) (m := 0xc0f#12) (f.code) (by decide))) mask_zero (dOk_v h1) (fOk_v h2) (fOk_v h3) (fOk_v h4) ?_ rfl rfl ?_
  · revert h5
    simp (disch := decide) [extract_or, extract_at, extract_at_other, getLsbD_at, getElem_at, BitVec.getLsbD_of_ge]
  · simp (disch := decide) [extract_or, extract_at, extract_at_other, getLsbD_at, getElem_at, BitVec.getLsbD_of_ge]

theorem vfnma (g : Guard) (d : Dst) (a b c : Src) (rm : Rnd) (f : Fmt) : Statement (.vfnma g d a b c rm f) := by
  intro r hw hr
  obtain rfl := Option.some.inj hr
  simp only [Instr.wellFormed, Bool.and_eq_true] at hw
  obtain ⟨⟨⟨⟨⟨h0, h1⟩, h2⟩, h3⟩, h4⟩, h5⟩ := hw
  simp only [decodeRaw, BitVec.reduceToNat, Nat.reduceDiv, Nat.reduceMod]
  with_unfolding_all (change ck _ _ _ = _)
  refine ck_ok (gBits_ne g h0) (mask_or (mask_at (W := 12) (lo := 10) (m := 0xc0f#12) (rm.code) (by decide)) (mask_at (W := 12) (lo := 0) (m := 0xc0f#12) (f.code) (by decide))) mask_zero (dOk_v h1) (fOk_v h2) (fOk_v h3) (fOk_v h4) ?_ rfl rfl ?_
  · revert h5
    simp (disch := decide) [extract_or, extract_at, extract_at_other, getLsbD_at, getElem_at, BitVec.getLsbD_of_ge]
  · simp (disch := decide) [extract_or, extract_at, extract_at_other, getLsbD_at, getElem_at, BitVec.getLsbD_of_ge]

theorem vmin (g : Guard) (d : Dst) (a b : Src) (f : Fmt) : Statement (.vmin g d a b f) := by
  intro r hw hr
  obtain rfl := Option.some.inj hr
  simp only [Instr.wellFormed, Bool.and_eq_true] at hw
  obtain ⟨⟨⟨⟨h0, h1⟩, h2⟩, h3⟩, h4⟩ := hw
  simp only [decodeRaw, BitVec.reduceToNat, Nat.reduceDiv, Nat.reduceMod]
  with_unfolding_all (change ck _ _ _ = _)
  refine ck_ok (gBits_ne g h0) (mask_at (W := 12) (lo := 0) (m := 0xf#12) (f.code) (by decide)) mask_zero (dOk_v h1) (fOk_v h2) (fOk_v h3) fOk_none ?_ rfl rfl ?_
  · revert h4
    simp (disch := decide) [extract_or, extract_at, extract_at_other, getLsbD_at, getElem_at, BitVec.getLsbD_of_ge]
  · simp (disch := decide) [extract_or, extract_at, extract_at_other, getLsbD_at, getElem_at, BitVec.getLsbD_of_ge]

theorem vmax (g : Guard) (d : Dst) (a b : Src) (f : Fmt) : Statement (.vmax g d a b f) := by
  intro r hw hr
  obtain rfl := Option.some.inj hr
  simp only [Instr.wellFormed, Bool.and_eq_true] at hw
  obtain ⟨⟨⟨⟨h0, h1⟩, h2⟩, h3⟩, h4⟩ := hw
  simp only [decodeRaw, BitVec.reduceToNat, Nat.reduceDiv, Nat.reduceMod]
  with_unfolding_all (change ck _ _ _ = _)
  refine ck_ok (gBits_ne g h0) (mask_at (W := 12) (lo := 0) (m := 0xf#12) (f.code) (by decide)) mask_zero (dOk_v h1) (fOk_v h2) (fOk_v h3) fOk_none ?_ rfl rfl ?_
  · revert h4
    simp (disch := decide) [extract_or, extract_at, extract_at_other, getLsbD_at, getElem_at, BitVec.getLsbD_of_ge]
  · simp (disch := decide) [extract_or, extract_at, extract_at_other, getLsbD_at, getElem_at, BitVec.getLsbD_of_ge]

theorem vabs (g : Guard) (d : Dst) (a : Src) (sat : Bool) (f : Fmt) : Statement (.vabs g d a sat f) := by
  intro r hw hr
  obtain rfl := Option.some.inj hr
  simp only [Instr.wellFormed, Bool.and_eq_true] at hw
  obtain ⟨⟨⟨h0, h1⟩, h2⟩, h3⟩ := hw
  simp only [decodeRaw, BitVec.reduceToNat, Nat.reduceDiv, Nat.reduceMod]
  with_unfolding_all (change ck _ _ _ = _)
  refine ck_ok (gBits_ne g h0) (mask_or (mask_at (W := 12) (lo := 8) (m := 0x10f#12) (bit sat) (by decide)) (mask_at (W := 12) (lo := 0) (m := 0x10f#12) (f.code) (by decide))) mask_zero (dOk_v h1) (fOk_v h2) fOk_none fOk_none ?_ rfl rfl ?_
  · revert h3
    simp (disch := decide) [extract_or, extract_at, extract_at_other, getLsbD_at, getElem_at, BitVec.getLsbD_of_ge]
    grind
  · simp (disch := decide) [extract_or, extract_at, extract_at_other, getLsbD_at, getElem_at, BitVec.getLsbD_of_ge]

theorem vneg (g : Guard) (d : Dst) (a : Src) (sat : Bool) (f : Fmt) : Statement (.vneg g d a sat f) := by
  intro r hw hr
  obtain rfl := Option.some.inj hr
  simp only [Instr.wellFormed, Bool.and_eq_true] at hw
  obtain ⟨⟨⟨h0, h1⟩, h2⟩, h3⟩ := hw
  simp only [decodeRaw, BitVec.reduceToNat, Nat.reduceDiv, Nat.reduceMod]
  with_unfolding_all (change ck _ _ _ = _)
  refine ck_ok (gBits_ne g h0) (mask_or (mask_at (W := 12) (lo := 8) (m := 0x10f#12) (bit sat) (by decide)) (mask_at (W := 12) (lo := 0) (m := 0x10f#12) (f.code) (by decide))) mask_zero (dOk_v h1) (fOk_v h2) fOk_none fOk_none ?_ rfl rfl ?_
  · revert h3
    simp (disch := decide) [extract_or, extract_at, extract_at_other, getLsbD_at, getElem_at, BitVec.getLsbD_of_ge]
    grind
  · simp (disch := decide) [extract_or, extract_at, extract_at_other, getLsbD_at, getElem_at, BitVec.getLsbD_of_ge]

theorem vand (g : Guard) (d : Dst) (a b : Src) (f : Fmt) : Statement (.vand g d a b f) := by
  intro r hw hr
  obtain rfl := Option.some.inj hr
  simp only [Instr.wellFormed, Bool.and_eq_true] at hw
  obtain ⟨⟨⟨⟨h0, h1⟩, h2⟩, h3⟩, h4⟩ := hw
  simp only [decodeRaw, BitVec.reduceToNat, Nat.reduceDiv, Nat.reduceMod]
  with_unfolding_all (change ck _ _ _ = _)
  refine ck_ok (gBits_ne g h0) (mask_at (W := 12) (lo := 0) (m := 0xf#12) (f.code) (by decide)) mask_zero (dOk_v h1) (fOk_v h2) (fOk_v h3) fOk_none ?_ rfl rfl ?_
  · revert h4
    simp (disch := decide) [extract_or, extract_at, extract_at_other, getLsbD_at, getElem_at, BitVec.getLsbD_of_ge]
  · simp (disch := decide) [extract_or, extract_at, extract_at_other, getLsbD_at, getElem_at, BitVec.getLsbD_of_ge]

theorem vor (g : Guard) (d : Dst) (a b : Src) (f : Fmt) : Statement (.vor g d a b f) := by
  intro r hw hr
  obtain rfl := Option.some.inj hr
  simp only [Instr.wellFormed, Bool.and_eq_true] at hw
  obtain ⟨⟨⟨⟨h0, h1⟩, h2⟩, h3⟩, h4⟩ := hw
  simp only [decodeRaw, BitVec.reduceToNat, Nat.reduceDiv, Nat.reduceMod]
  with_unfolding_all (change ck _ _ _ = _)
  refine ck_ok (gBits_ne g h0) (mask_at (W := 12) (lo := 0) (m := 0xf#12) (f.code) (by decide)) mask_zero (dOk_v h1) (fOk_v h2) (fOk_v h3) fOk_none ?_ rfl rfl ?_
  · revert h4
    simp (disch := decide) [extract_or, extract_at, extract_at_other, getLsbD_at, getElem_at, BitVec.getLsbD_of_ge]
  · simp (disch := decide) [extract_or, extract_at, extract_at_other, getLsbD_at, getElem_at, BitVec.getLsbD_of_ge]

theorem vxor (g : Guard) (d : Dst) (a b : Src) (f : Fmt) : Statement (.vxor g d a b f) := by
  intro r hw hr
  obtain rfl := Option.some.inj hr
  simp only [Instr.wellFormed, Bool.and_eq_true] at hw
  obtain ⟨⟨⟨⟨h0, h1⟩, h2⟩, h3⟩, h4⟩ := hw
  simp only [decodeRaw, BitVec.reduceToNat, Nat.reduceDiv, Nat.reduceMod]
  with_unfolding_all (change ck _ _ _ = _)
  refine ck_ok (gBits_ne g h0) (mask_at (W := 12) (lo := 0) (m := 0xf#12) (f.code) (by decide)) mask_zero (dOk_v h1) (fOk_v h2) (fOk_v h3) fOk_none ?_ rfl rfl ?_
  · revert h4
    simp (disch := decide) [extract_or, extract_at, extract_at_other, getLsbD_at, getElem_at, BitVec.getLsbD_of_ge]
  · simp (disch := decide) [extract_or, extract_at, extract_at_other, getLsbD_at, getElem_at, BitVec.getLsbD_of_ge]

theorem vshl (g : Guard) (d : Dst) (a b : Src) (f : Fmt) : Statement (.vshl g d a b f) := by
  intro r hw hr
  obtain rfl := Option.some.inj hr
  simp only [Instr.wellFormed, Bool.and_eq_true] at hw
  obtain ⟨⟨⟨⟨h0, h1⟩, h2⟩, h3⟩, h4⟩ := hw
  simp only [decodeRaw, BitVec.reduceToNat, Nat.reduceDiv, Nat.reduceMod]
  with_unfolding_all (change ck _ _ _ = _)
  refine ck_ok (gBits_ne g h0) (mask_at (W := 12) (lo := 0) (m := 0xf#12) (f.code) (by decide)) mask_zero (dOk_v h1) (fOk_v h2) (fOk_v h3) fOk_none ?_ rfl rfl ?_
  · revert h4
    simp (disch := decide) [extract_or, extract_at, extract_at_other, getLsbD_at, getElem_at, BitVec.getLsbD_of_ge]
  · simp (disch := decide) [extract_or, extract_at, extract_at_other, getLsbD_at, getElem_at, BitVec.getLsbD_of_ge]

theorem vshr (g : Guard) (d : Dst) (a b : Src) (f : Fmt) : Statement (.vshr g d a b f) := by
  intro r hw hr
  obtain rfl := Option.some.inj hr
  simp only [Instr.wellFormed, Bool.and_eq_true] at hw
  obtain ⟨⟨⟨⟨h0, h1⟩, h2⟩, h3⟩, h4⟩ := hw
  simp only [decodeRaw, BitVec.reduceToNat, Nat.reduceDiv, Nat.reduceMod]
  with_unfolding_all (change ck _ _ _ = _)
  refine ck_ok (gBits_ne g h0) (mask_at (W := 12) (lo := 0) (m := 0xf#12) (f.code) (by decide)) mask_zero (dOk_v h1) (fOk_v h2) (fOk_v h3) fOk_none ?_ rfl rfl ?_
  · revert h4
    simp (disch := decide) [extract_or, extract_at, extract_at_other, getLsbD_at, getElem_at, BitVec.getLsbD_of_ge]
  · simp (disch := decide) [extract_or, extract_at, extract_at_other, getLsbD_at, getElem_at, BitVec.getLsbD_of_ge]

theorem vsra (g : Guard) (d : Dst) (a b : Src) (f : Fmt) : Statement (.vsra g d a b f) := by
  intro r hw hr
  obtain rfl := Option.some.inj hr
  simp only [Instr.wellFormed, Bool.and_eq_true] at hw
  obtain ⟨⟨⟨⟨h0, h1⟩, h2⟩, h3⟩, h4⟩ := hw
  simp only [decodeRaw, BitVec.reduceToNat, Nat.reduceDiv, Nat.reduceMod]
  with_unfolding_all (change ck _ _ _ = _)
  refine ck_ok (gBits_ne g h0) (mask_at (W := 12) (lo := 0) (m := 0xf#12) (f.code) (by decide)) mask_zero (dOk_v h1) (fOk_v h2) (fOk_v h3) fOk_none ?_ rfl rfl ?_
  · revert h4
    simp (disch := decide) [extract_or, extract_at, extract_at_other, getLsbD_at, getElem_at, BitVec.getLsbD_of_ge]
  · simp (disch := decide) [extract_or, extract_at, extract_at_other, getLsbD_at, getElem_at, BitVec.getLsbD_of_ge]

theorem vcmp (g : Guard) (d : Dst) (a b : Src) (c : VCond) (f : Fmt) : Statement (.vcmp g d a b c f) := by
  intro r hw hr
  obtain rfl := Option.some.inj hr
  simp only [Instr.wellFormed, Bool.and_eq_true] at hw
  obtain ⟨⟨⟨⟨h0, h1⟩, h2⟩, h3⟩, h4⟩ := hw
  simp only [decodeRaw, BitVec.reduceToNat, Nat.reduceDiv, Nat.reduceMod]
  with_unfolding_all (change ck _ _ _ = _)
  refine ck_ok (gBits_ne g h0) (mask_or (mask_at (W := 12) (lo := 4) (m := 0xff#12) (c.code) (by decide)) (mask_at (W := 12) (lo := 0) (m := 0xff#12) (f.code) (by decide))) mask_zero (dOk_v h1) (fOk_v h2) (fOk_v h3) fOk_none ?_ rfl rfl ?_
  · revert h4
    simp (disch := decide) [extract_or, extract_at, extract_at_other, getLsbD_at, getElem_at, BitVec.getLsbD_of_ge]
  · simp (disch := decide) [extract_or, extract_at, extract_at_other, getLsbD_at, getElem_at, BitVec.getLsbD_of_ge]

theorem vsel (g : Guard) (d : Dst) (a b m : Src) (f : Fmt) : Statement (.vsel g d a b m f) := by
  intro r hw hr
  obtain rfl := Option.some.inj hr
  simp only [Instr.wellFormed, Bool.and_eq_true] at hw
  obtain ⟨⟨⟨⟨⟨h0, h1⟩, h2⟩, h3⟩, h4⟩, h5⟩ := hw
  simp only [decodeRaw, BitVec.reduceToNat, Nat.reduceDiv, Nat.reduceMod]
  with_unfolding_all (change ck _ _ _ = _)
  refine ck_ok (gBits_ne g h0) (mask_at (W := 12) (lo := 0) (m := 0xf#12) (f.code) (by decide)) mask_zero (dOk_v h1) (fOk_v h2) (fOk_v h3) (fOk_v h4) ?_ rfl rfl ?_
  · revert h5
    simp (disch := decide) [extract_or, extract_at, extract_at_other, getLsbD_at, getElem_at, BitVec.getLsbD_of_ge]
  · simp (disch := decide) [extract_or, extract_at, extract_at_other, getLsbD_at, getElem_at, BitVec.getLsbD_of_ge]

theorem vshuf (g : Guard) (d : Dst) (a b : Src) (f : Fmt) (k : BitVec 12) (pat : Shuf) :
    Statement (.vshuf g d a b f k pat) := by
  intro r hw hr
  obtain rfl := Option.some.inj hr
  simp only [Instr.wellFormed, Bool.and_eq_true] at hw
  obtain ⟨⟨⟨⟨h0, h1⟩, h2⟩, h3⟩, h4⟩ := hw
  simp only [decodeRaw, BitVec.reduceToNat, Nat.reduceDiv, Nat.reduceMod]
  with_unfolding_all (change ck _ _ _ = _)
  refine ck_ok (gBits_ne g h0) (mask_at (W := 12) (lo := 0) (m := 0xf#12) f.code (by decide))
    (mask_or (mask_at (W := 40) (lo := 8) (m := 0xfff0f#40) k (by decide))
      (mask_at (W := 40) (lo := 0) (m := 0xfff0f#40) pat.code (by decide))) (dOk_v h1)
    (fOk_v h2) ?_ fOk_none ?_ rfl rfl ?_
  · simp (disch := decide) only [extract_or, extract_at, extract_at_other, getLsbD_at, getElem_at, BitVec.getLsbD_of_ge, BitVec.zero_or]
    cases pat <;> first
      | exact fOk_v h3
      | exact fOk_zero h3
  · simp (disch := decide) [extract_or, extract_at, extract_at_other, getLsbD_at, getElem_at, BitVec.getLsbD_of_ge]
    have := Shuf.code_lt pat
    simp_all
  · simp (disch := decide) [extract_or, extract_at, extract_at_other, getLsbD_at, getElem_at, BitVec.getLsbD_of_ge]

theorem vperm (g : Guard) (d : Dst) (a b i : Src) (f : Fmt) : Statement (.vperm g d a b i f) := by
  intro r hw hr
  obtain rfl := Option.some.inj hr
  simp only [Instr.wellFormed, Bool.and_eq_true] at hw
  obtain ⟨⟨⟨⟨⟨h0, h1⟩, h2⟩, h3⟩, h4⟩, h5⟩ := hw
  simp only [decodeRaw, BitVec.reduceToNat, Nat.reduceDiv, Nat.reduceMod]
  with_unfolding_all (change ck _ _ _ = _)
  refine ck_ok (gBits_ne g h0) (mask_at (W := 12) (lo := 0) (m := 0xf#12) (f.code) (by decide)) mask_zero (dOk_v h1) (fOk_v h2) (fOk_v h3) (fOk_v h4) ?_ rfl rfl ?_
  · revert h5
    simp (disch := decide) [extract_or, extract_at, extract_at_other, getLsbD_at, getElem_at, BitVec.getLsbD_of_ge]
  · simp (disch := decide) [extract_or, extract_at, extract_at_other, getLsbD_at, getElem_at, BitVec.getLsbD_of_ge]

theorem vextr (g : Guard) (d : Dst) (a l : Src) (f : Fmt) (off : BitVec 10) : Statement (.vextr g d a l f off) := by
  intro r hw hr
  obtain rfl := Option.some.inj hr
  simp only [Instr.wellFormed, Bool.and_eq_true] at hw
  obtain ⟨⟨⟨⟨h0, h1⟩, h2⟩, h3⟩, h4⟩ := hw
  simp only [decodeRaw, BitVec.reduceToNat, Nat.reduceDiv, Nat.reduceMod]
  with_unfolding_all (change ck _ _ _ = _)
  refine ck_ok (gBits_ne g h0) (mask_at (W := 12) (lo := 0) (m := 0xf#12) (f.code) (by decide)) (mask_at (W := 40) (lo := 0) (m := 0x3ff#40) (off) (by decide)) (dOk_xm h1) (fOk_v h2) (fOk_xm h3) fOk_none ?_ rfl rfl ?_
  · revert h4
    simp (disch := decide) [extract_or, extract_at, extract_at_other, getLsbD_at, getElem_at, BitVec.getLsbD_of_ge]
  · simp (disch := decide) [extract_or, extract_at, extract_at_other, getLsbD_at, getElem_at, BitVec.getLsbD_of_ge]

theorem vins (g : Guard) (d : Dst) (a v l : Src) (f : Fmt) (off : BitVec 10) : Statement (.vins g d a v l f off) := by
  intro r hw hr
  obtain rfl := Option.some.inj hr
  simp only [Instr.wellFormed, Bool.and_eq_true] at hw
  obtain ⟨⟨⟨⟨⟨h0, h1⟩, h2⟩, h3⟩, h4⟩, h5⟩ := hw
  simp only [decodeRaw, BitVec.reduceToNat, Nat.reduceDiv, Nat.reduceMod]
  with_unfolding_all (change ck _ _ _ = _)
  refine ck_ok (gBits_ne g h0) (mask_at (W := 12) (lo := 0) (m := 0xf#12) (f.code) (by decide)) (mask_at (W := 40) (lo := 0) (m := 0x3ff#40) (off) (by decide)) (dOk_v h1) (fOk_v h2) (fOk_xm h3) (fOk_xm h4) ?_ rfl rfl ?_
  · revert h5
    simp (disch := decide) [extract_or, extract_at, extract_at_other, getLsbD_at, getElem_at, BitVec.getLsbD_of_ge]
  · simp (disch := decide) [extract_or, extract_at, extract_at_other, getLsbD_at, getElem_at, BitVec.getLsbD_of_ge]

theorem vredadd (g : Guard) (d : Dst) (a : Src) (f : Fmt) : Statement (.vredadd g d a f) := by
  intro r hw hr
  obtain rfl := Option.some.inj hr
  simp only [Instr.wellFormed, Bool.and_eq_true] at hw
  obtain ⟨⟨⟨h0, h1⟩, h2⟩, h3⟩ := hw
  simp only [decodeRaw, BitVec.reduceToNat, Nat.reduceDiv, Nat.reduceMod]
  with_unfolding_all (change ck _ _ _ = _)
  refine ck_ok (gBits_ne g h0) (mask_at (W := 12) (lo := 0) (m := 0xf#12) (f.code) (by decide)) mask_zero (dOk_xm h1) (fOk_v h2) fOk_none fOk_none ?_ rfl rfl ?_
  · revert h3
    simp (disch := decide) [extract_or, extract_at, extract_at_other, getLsbD_at, getElem_at, BitVec.getLsbD_of_ge]
  · simp (disch := decide) [extract_or, extract_at, extract_at_other, getLsbD_at, getElem_at, BitVec.getLsbD_of_ge]

theorem vredmin (g : Guard) (d : Dst) (a : Src) (f : Fmt) : Statement (.vredmin g d a f) := by
  intro r hw hr
  obtain rfl := Option.some.inj hr
  simp only [Instr.wellFormed, Bool.and_eq_true] at hw
  obtain ⟨⟨⟨h0, h1⟩, h2⟩, h3⟩ := hw
  simp only [decodeRaw, BitVec.reduceToNat, Nat.reduceDiv, Nat.reduceMod]
  with_unfolding_all (change ck _ _ _ = _)
  refine ck_ok (gBits_ne g h0) (mask_at (W := 12) (lo := 0) (m := 0xf#12) (f.code) (by decide)) mask_zero (dOk_xm h1) (fOk_v h2) fOk_none fOk_none ?_ rfl rfl ?_
  · revert h3
    simp (disch := decide) [extract_or, extract_at, extract_at_other, getLsbD_at, getElem_at, BitVec.getLsbD_of_ge]
  · simp (disch := decide) [extract_or, extract_at, extract_at_other, getLsbD_at, getElem_at, BitVec.getLsbD_of_ge]

theorem vredmax (g : Guard) (d : Dst) (a : Src) (f : Fmt) : Statement (.vredmax g d a f) := by
  intro r hw hr
  obtain rfl := Option.some.inj hr
  simp only [Instr.wellFormed, Bool.and_eq_true] at hw
  obtain ⟨⟨⟨h0, h1⟩, h2⟩, h3⟩ := hw
  simp only [decodeRaw, BitVec.reduceToNat, Nat.reduceDiv, Nat.reduceMod]
  with_unfolding_all (change ck _ _ _ = _)
  refine ck_ok (gBits_ne g h0) (mask_at (W := 12) (lo := 0) (m := 0xf#12) (f.code) (by decide)) mask_zero (dOk_xm h1) (fOk_v h2) fOk_none fOk_none ?_ rfl rfl ?_
  · revert h3
    simp (disch := decide) [extract_or, extract_at, extract_at_other, getLsbD_at, getElem_at, BitVec.getLsbD_of_ge]
  · simp (disch := decide) [extract_or, extract_at, extract_at_other, getLsbD_at, getElem_at, BitVec.getLsbD_of_ge]

theorem vcvt (g : Guard) (d : Dst) (a : Src) (rm : Rnd) (tf sf : Fmt) : Statement (.vcvt g d a rm tf sf) := by
  intro r hw hr
  obtain rfl := Option.some.inj hr
  simp only [Instr.wellFormed, Bool.and_eq_true] at hw
  obtain ⟨⟨⟨h0, h1⟩, h2⟩, h3⟩ := hw
  simp only [decodeRaw, BitVec.reduceToNat, Nat.reduceDiv, Nat.reduceMod]
  with_unfolding_all (change ck _ _ _ = _)
  refine ck_ok (gBits_ne g h0) (mask_or (mask_or (mask_at (W := 12) (lo := 10) (m := 0xcff#12) (rm.code) (by decide)) (mask_at (W := 12) (lo := 4) (m := 0xcff#12) (tf.code) (by decide))) (mask_at (W := 12) (lo := 0) (m := 0xcff#12) (sf.code) (by decide))) mask_zero (dOk_v h1) (fOk_v h2) fOk_none fOk_none ?_ rfl rfl ?_
  · revert h3
    simp (disch := decide) [extract_or, extract_at, extract_at_other, getLsbD_at, getElem_at, BitVec.getLsbD_of_ge]
  · simp (disch := decide) [extract_or, extract_at, extract_at_other, getLsbD_at, getElem_at, BitVec.getLsbD_of_ge]

theorem vcvts (g : Guard) (d : Dst) (a seed : Src) (tf sf : Fmt) : Statement (.vcvts g d a seed tf sf) := by
  intro r hw hr
  obtain rfl := Option.some.inj hr
  simp only [Instr.wellFormed, Bool.and_eq_true] at hw
  obtain ⟨⟨⟨⟨h0, h1⟩, h2⟩, h3⟩, h4⟩ := hw
  simp only [decodeRaw, BitVec.reduceToNat, Nat.reduceDiv, Nat.reduceMod]
  with_unfolding_all (change ck _ _ _ = _)
  refine ck_ok (gBits_ne g h0) (mask_or (mask_at (W := 12) (lo := 4) (m := 0xff#12) (tf.code) (by decide)) (mask_at (W := 12) (lo := 0) (m := 0xff#12) (sf.code) (by decide))) mask_zero (dOk_v h1) (fOk_v h2) (fOk_xm h3) fOk_none ?_ rfl rfl ?_
  · revert h4
    simp (disch := decide) [extract_or, extract_at, extract_at_other, getLsbD_at, getElem_at, BitVec.getLsbD_of_ge]
  · simp (disch := decide) [extract_or, extract_at, extract_at_other, getLsbD_at, getElem_at, BitVec.getLsbD_of_ge]

theorem vwadd (g : Guard) (d : Dst) (a b : Src) (rm : Rnd) (f : Fmt) : Statement (.vwadd g d a b rm f) := by
  intro r hw hr
  obtain rfl := Option.some.inj hr
  simp only [Instr.wellFormed, Bool.and_eq_true] at hw
  obtain ⟨⟨⟨⟨h0, h1⟩, h2⟩, h3⟩, h4⟩ := hw
  simp only [decodeRaw, BitVec.reduceToNat, Nat.reduceDiv, Nat.reduceMod]
  with_unfolding_all (change ck _ _ _ = _)
  refine ck_ok (gBits_ne g h0) (mask_or (mask_at (W := 12) (lo := 10) (m := 0xc0f#12) (rm.code) (by decide)) (mask_at (W := 12) (lo := 0) (m := 0xc0f#12) (f.code) (by decide))) mask_zero (dOk_v h1) (fOk_v h2) (fOk_v h3) fOk_none ?_ rfl rfl ?_
  · revert h4
    simp (disch := decide) [extract_or, extract_at, extract_at_other, getLsbD_at, getElem_at, BitVec.getLsbD_of_ge]
    grind
  · simp (disch := decide) [extract_or, extract_at, extract_at_other, getLsbD_at, getElem_at, BitVec.getLsbD_of_ge]

theorem vwmul (g : Guard) (d : Dst) (a b : Src) (rm : Rnd) (f : Fmt) : Statement (.vwmul g d a b rm f) := by
  intro r hw hr
  obtain rfl := Option.some.inj hr
  simp only [Instr.wellFormed, Bool.and_eq_true] at hw
  obtain ⟨⟨⟨⟨h0, h1⟩, h2⟩, h3⟩, h4⟩ := hw
  simp only [decodeRaw, BitVec.reduceToNat, Nat.reduceDiv, Nat.reduceMod]
  with_unfolding_all (change ck _ _ _ = _)
  refine ck_ok (gBits_ne g h0) (mask_or (mask_at (W := 12) (lo := 10) (m := 0xc0f#12) (rm.code) (by decide)) (mask_at (W := 12) (lo := 0) (m := 0xc0f#12) (f.code) (by decide))) mask_zero (dOk_v h1) (fOk_v h2) (fOk_v h3) fOk_none ?_ rfl rfl ?_
  · revert h4
    simp (disch := decide) [extract_or, extract_at, extract_at_other, getLsbD_at, getElem_at, BitVec.getLsbD_of_ge]
    grind
  · simp (disch := decide) [extract_or, extract_at, extract_at_other, getLsbD_at, getElem_at, BitVec.getLsbD_of_ge]

theorem vexp2 (g : Guard) (d : Dst) (a : Src) (rm : Rnd) (f : Fmt) : Statement (.vexp2 g d a rm f) := by
  intro r hw hr
  obtain rfl := Option.some.inj hr
  simp only [Instr.wellFormed, Bool.and_eq_true] at hw
  obtain ⟨⟨⟨h0, h1⟩, h2⟩, h3⟩ := hw
  simp only [decodeRaw, BitVec.reduceToNat, Nat.reduceDiv, Nat.reduceMod]
  with_unfolding_all (change ck _ _ _ = _)
  refine ck_ok (gBits_ne g h0) (mask_or (mask_at (W := 12) (lo := 10) (m := 0xc0f#12) (rm.code) (by decide)) (mask_at (W := 12) (lo := 0) (m := 0xc0f#12) (f.code) (by decide))) mask_zero (dOk_v h1) (fOk_v h2) fOk_none fOk_none ?_ rfl rfl ?_
  · revert h3
    simp (disch := decide) [extract_or, extract_at, extract_at_other, getLsbD_at, getElem_at, BitVec.getLsbD_of_ge]
  · simp (disch := decide) [extract_or, extract_at, extract_at_other, getLsbD_at, getElem_at, BitVec.getLsbD_of_ge]

theorem vlog2 (g : Guard) (d : Dst) (a : Src) (rm : Rnd) (f : Fmt) : Statement (.vlog2 g d a rm f) := by
  intro r hw hr
  obtain rfl := Option.some.inj hr
  simp only [Instr.wellFormed, Bool.and_eq_true] at hw
  obtain ⟨⟨⟨h0, h1⟩, h2⟩, h3⟩ := hw
  simp only [decodeRaw, BitVec.reduceToNat, Nat.reduceDiv, Nat.reduceMod]
  with_unfolding_all (change ck _ _ _ = _)
  refine ck_ok (gBits_ne g h0) (mask_or (mask_at (W := 12) (lo := 10) (m := 0xc0f#12) (rm.code) (by decide)) (mask_at (W := 12) (lo := 0) (m := 0xc0f#12) (f.code) (by decide))) mask_zero (dOk_v h1) (fOk_v h2) fOk_none fOk_none ?_ rfl rfl ?_
  · revert h3
    simp (disch := decide) [extract_or, extract_at, extract_at_other, getLsbD_at, getElem_at, BitVec.getLsbD_of_ge]
  · simp (disch := decide) [extract_or, extract_at, extract_at_other, getLsbD_at, getElem_at, BitVec.getLsbD_of_ge]

theorem vrcp (g : Guard) (d : Dst) (a : Src) (rm : Rnd) (f : Fmt) : Statement (.vrcp g d a rm f) := by
  intro r hw hr
  obtain rfl := Option.some.inj hr
  simp only [Instr.wellFormed, Bool.and_eq_true] at hw
  obtain ⟨⟨⟨h0, h1⟩, h2⟩, h3⟩ := hw
  simp only [decodeRaw, BitVec.reduceToNat, Nat.reduceDiv, Nat.reduceMod]
  with_unfolding_all (change ck _ _ _ = _)
  refine ck_ok (gBits_ne g h0) (mask_or (mask_at (W := 12) (lo := 10) (m := 0xc0f#12) (rm.code) (by decide)) (mask_at (W := 12) (lo := 0) (m := 0xc0f#12) (f.code) (by decide))) mask_zero (dOk_v h1) (fOk_v h2) fOk_none fOk_none ?_ rfl rfl ?_
  · revert h3
    simp (disch := decide) [extract_or, extract_at, extract_at_other, getLsbD_at, getElem_at, BitVec.getLsbD_of_ge]
  · simp (disch := decide) [extract_or, extract_at, extract_at_other, getLsbD_at, getElem_at, BitVec.getLsbD_of_ge]

theorem vrsqrt (g : Guard) (d : Dst) (a : Src) (rm : Rnd) (f : Fmt) : Statement (.vrsqrt g d a rm f) := by
  intro r hw hr
  obtain rfl := Option.some.inj hr
  simp only [Instr.wellFormed, Bool.and_eq_true] at hw
  obtain ⟨⟨⟨h0, h1⟩, h2⟩, h3⟩ := hw
  simp only [decodeRaw, BitVec.reduceToNat, Nat.reduceDiv, Nat.reduceMod]
  with_unfolding_all (change ck _ _ _ = _)
  refine ck_ok (gBits_ne g h0) (mask_or (mask_at (W := 12) (lo := 10) (m := 0xc0f#12) (rm.code) (by decide)) (mask_at (W := 12) (lo := 0) (m := 0xc0f#12) (f.code) (by decide))) mask_zero (dOk_v h1) (fOk_v h2) fOk_none fOk_none ?_ rfl rfl ?_
  · revert h3
    simp (disch := decide) [extract_or, extract_at, extract_at_other, getLsbD_at, getElem_at, BitVec.getLsbD_of_ge]
  · simp (disch := decide) [extract_or, extract_at, extract_at_other, getLsbD_at, getElem_at, BitVec.getLsbD_of_ge]

theorem vsqrt (g : Guard) (d : Dst) (a : Src) (rm : Rnd) (f : Fmt) : Statement (.vsqrt g d a rm f) := by
  intro r hw hr
  obtain rfl := Option.some.inj hr
  simp only [Instr.wellFormed, Bool.and_eq_true] at hw
  obtain ⟨⟨⟨h0, h1⟩, h2⟩, h3⟩ := hw
  simp only [decodeRaw, BitVec.reduceToNat, Nat.reduceDiv, Nat.reduceMod]
  with_unfolding_all (change ck _ _ _ = _)
  refine ck_ok (gBits_ne g h0) (mask_or (mask_at (W := 12) (lo := 10) (m := 0xc0f#12) (rm.code) (by decide)) (mask_at (W := 12) (lo := 0) (m := 0xc0f#12) (f.code) (by decide))) mask_zero (dOk_v h1) (fOk_v h2) fOk_none fOk_none ?_ rfl rfl ?_
  · revert h3
    simp (disch := decide) [extract_or, extract_at, extract_at_other, getLsbD_at, getElem_at, BitVec.getLsbD_of_ge]
  · simp (disch := decide) [extract_or, extract_at, extract_at_other, getLsbD_at, getElem_at, BitVec.getLsbD_of_ge]

theorem folset (g : Guard) (d : Dst) (i a : Src) : Statement (.folset g d i a) := by
  intro r hw hr
  obtain rfl := Option.some.inj hr
  simp only [Instr.wellFormed, Bool.and_eq_true] at hw
  obtain ⟨⟨⟨⟨h0, h1⟩, h2⟩, h3⟩, h4⟩ := hw
  simp only [decodeRaw, BitVec.reduceToNat, Nat.reduceDiv, Nat.reduceMod]
  with_unfolding_all (change ck _ _ _ = _)
  refine ck_ok (gBits_ne g h0) mask_zero mask_zero (dOk_xnz h1) (fOk_x h2) (fOk_x h3) fOk_none ?_ rfl rfl ?_
  · revert h4
    simp (disch := decide) [extract_or, extract_at, extract_at_other, getLsbD_at, getElem_at, BitVec.getLsbD_of_ge]
  · simp (disch := decide) [extract_or, extract_at, extract_at_other, getLsbD_at, getElem_at, BitVec.getLsbD_of_ge]

theorem folsetInv (g : Guard) (d : Dst) (i : Src) : Statement (.folsetInv g d i) := by
  intro r hw hr
  obtain rfl := Option.some.inj hr
  simp only [Instr.wellFormed, Bool.and_eq_true] at hw
  obtain ⟨⟨h0, h1⟩, h2⟩ := hw
  simp only [decodeRaw, BitVec.reduceToNat, Nat.reduceDiv, Nat.reduceMod]
  with_unfolding_all (change ck _ _ _ = _)
  refine ck_ok (gBits_ne g h0) (mask_at (W := 12) (lo := 0) (m := 0x1#12) (1#1) (by decide)) mask_zero (dOk_xnz h1) (fOk_x h2) fOk_none fOk_none rfl rfl rfl ?_
  · simp (disch := decide) [extract_or, extract_at, extract_at_other, getLsbD_at, getElem_at, BitVec.getLsbD_of_ge]

theorem folrd (g : Guard) (d : Dst) (i : Src) (w : BitVec 3) : Statement (.folrd g d i w) := by
  intro r hw hr
  obtain rfl := Option.some.inj hr
  simp only [Instr.wellFormed, Bool.and_eq_true] at hw
  obtain ⟨⟨h0, h1⟩, h2⟩ := hw
  simp only [decodeRaw, BitVec.reduceToNat, Nat.reduceDiv, Nat.reduceMod]
  with_unfolding_all (change ck _ _ _ = _)
  refine ck_ok (gBits_ne g h0) (mask_at (W := 12) (lo := 0) (m := 0x7#12) (w) (by decide)) mask_zero (dOk_xnz h1) (fOk_x h2) fOk_none fOk_none rfl rfl rfl ?_
  · simp (disch := decide) [extract_or, extract_at, extract_at_other, getLsbD_at, getElem_at, BitVec.getLsbD_of_ge]

theorem folchk (g : Guard) (d : Dst) (o e : Src) (acc : BitVec 2) (folio : BitVec 16) : Statement (.folchk g d o e acc folio) := by
  intro r hw hr
  obtain rfl := Option.some.inj hr
  simp only [Instr.wellFormed, Bool.and_eq_true] at hw
  obtain ⟨⟨⟨⟨h0, h1⟩, h2⟩, h3⟩, h4⟩ := hw
  simp only [decodeRaw, BitVec.reduceToNat, Nat.reduceDiv, Nat.reduceMod]
  with_unfolding_all (change ck _ _ _ = _)
  refine ck_ok (gBits_ne g h0) (mask_at (W := 12) (lo := 0) (m := 0x3#12) (acc) (by decide)) (mask_at (W := 40) (lo := 0) (m := 0xffff#40) (folio) (by decide)) (dOk_xnz h1) (fOk_x h2) (fOk_x h3) fOk_none ?_ rfl rfl ?_
  · revert h4
    simp (disch := decide) [extract_or, extract_at, extract_at_other, getLsbD_at, getElem_at, BitVec.getLsbD_of_ge]
  · simp (disch := decide) [extract_or, extract_at, extract_at_other, getLsbD_at, getElem_at, BitVec.getLsbD_of_ge]

theorem wbld (g : Guard) (o : Src) (rows : BitVec 9) (slot : BitVec 6) (folio : BitVec 16) : Statement (.wbld g o rows slot folio) := by
  intro r hw hr
  obtain rfl := Option.some.inj hr
  simp only [Instr.wellFormed, Bool.and_eq_true] at hw
  obtain ⟨h0, h1⟩ := hw
  simp only [decodeRaw, BitVec.reduceToNat, Nat.reduceDiv, Nat.reduceMod]
  with_unfolding_all (change ck _ _ _ = _)
  refine ck_ok (gBits_ne g h0) (mask_at (W := 12) (lo := 0) (m := 0x1ff#12) (rows) (by decide)) (mask_or (mask_at (W := 40) (lo := 16) (m := 0x3fffff#40) (slot) (by decide)) (mask_at (W := 40) (lo := 0) (m := 0x3fffff#40) (folio) (by decide))) dOk_none (fOk_x h1) fOk_none fOk_none rfl rfl rfl ?_
  · simp (disch := decide) [extract_or, extract_at, extract_at_other, getLsbD_at, getElem_at, BitVec.getLsbD_of_ge]

theorem wbinv (g : Guard) (m : Src) : Statement (.wbinv g m) := by
  intro r hw hr
  obtain rfl := Option.some.inj hr
  simp only [Instr.wellFormed, Bool.and_eq_true] at hw
  obtain ⟨h0, h1⟩ := hw
  simp only [decodeRaw, BitVec.reduceToNat, Nat.reduceDiv, Nat.reduceMod]
  with_unfolding_all (change ck _ _ _ = _)
  exact ck_ok (gBits_ne g h0) mask_zero mask_zero dOk_none (fOk_x h1) fOk_none fOk_none rfl rfl rfl (by simp only [guardOf_mk, srcOf_srcBits])

theorem mxz (g : Guard) (acc : BitVec 3) : Statement (.mxz g acc) := by
  intro r hw hr
  obtain rfl := Option.some.inj hr
  have h0 : gOk g = true := hw
  simp only [decodeRaw, BitVec.reduceToNat, Nat.reduceDiv, Nat.reduceMod]
  with_unfolding_all (change ck _ _ _ = _)
  refine ck_ok (gBits_ne g h0) mask_zero (mask_at (W := 40) (lo := 22) (m := 0x1c00000#40) (acc) (by decide)) dOk_none fOk_none fOk_none fOk_none rfl rfl rfl ?_
  · simp (disch := decide) [extract_or, extract_at, extract_at_other, getLsbD_at, getElem_at, BitVec.getLsbD_of_ge]

theorem mxa (g : Guard) (o h : Src) (acc : BitVec 3) (slot : BitVec 6) (folio : BitVec 16) : Statement (.mxa g o h acc slot folio) := by
  intro r hw hr
  obtain rfl := Option.some.inj hr
  simp only [Instr.wellFormed, Bool.and_eq_true] at hw
  obtain ⟨⟨h0, h1⟩, h2⟩ := hw
  simp only [decodeRaw, BitVec.reduceToNat, Nat.reduceDiv, Nat.reduceMod]
  with_unfolding_all (change ck _ _ _ = _)
  refine ck_ok (gBits_ne g h0) mask_zero (mask_or (mask_or (mask_at (W := 40) (lo := 22) (m := 0x1ffffff#40) (acc) (by decide)) (mask_at (W := 40) (lo := 16) (m := 0x1ffffff#40) (slot) (by decide))) (mask_at (W := 40) (lo := 0) (m := 0x1ffffff#40) (folio) (by decide))) dOk_none (fOk_x h1) (fOk_x h2) fOk_none rfl rfl rfl ?_
  · simp (disch := decide) [extract_or, extract_at, extract_at_other, getLsbD_at, getElem_at, BitVec.getLsbD_of_ge]

theorem mxst (g : Guard) (o : Src) (fill : Bool) (acc : BitVec 3) (folio : BitVec 16) : Statement (.mxst g o fill acc folio) := by
  intro r hw hr
  obtain rfl := Option.some.inj hr
  simp only [Instr.wellFormed, Bool.and_eq_true] at hw
  obtain ⟨h0, h1⟩ := hw
  simp only [decodeRaw, BitVec.reduceToNat, Nat.reduceDiv, Nat.reduceMod]
  with_unfolding_all (change ck _ _ _ = _)
  refine ck_ok (gBits_ne g h0) (mask_at (W := 12) (lo := 0) (m := 0x1#12) (bit fill) (by decide)) (mask_or (mask_at (W := 40) (lo := 22) (m := 0x1c0ffff#40) (acc) (by decide)) (mask_at (W := 40) (lo := 0) (m := 0x1c0ffff#40) (folio) (by decide))) dOk_none (fOk_x h1) fOk_none fOk_none rfl rfl rfl ?_
  · simp (disch := decide) [extract_or, extract_at, extract_at_other, getLsbD_at, getElem_at, BitVec.getLsbD_of_ge]

theorem mxld (g : Guard) (o : Src) (acc : BitVec 3) (folio : BitVec 16) : Statement (.mxld g o acc folio) := by
  intro r hw hr
  obtain rfl := Option.some.inj hr
  simp only [Instr.wellFormed, Bool.and_eq_true] at hw
  obtain ⟨h0, h1⟩ := hw
  simp only [decodeRaw, BitVec.reduceToNat, Nat.reduceDiv, Nat.reduceMod]
  with_unfolding_all (change ck _ _ _ = _)
  refine ck_ok (gBits_ne g h0) mask_zero (mask_or (mask_at (W := 40) (lo := 22) (m := 0x1c0ffff#40) (acc) (by decide)) (mask_at (W := 40) (lo := 0) (m := 0x1c0ffff#40) (folio) (by decide))) dOk_none (fOk_x h1) fOk_none fOk_none rfl rfl rfl ?_
  · simp (disch := decide) [extract_or, extract_at, extract_at_other, getLsbD_at, getElem_at, BitVec.getLsbD_of_ge]

theorem mxdot (g : Guard) (oa ob l : Src) (acc : BitVec 3) (fb fa : BitVec 16) : Statement (.mxdot g oa ob l acc fb fa) := by
  intro r hw hr
  obtain rfl := Option.some.inj hr
  simp only [Instr.wellFormed, Bool.and_eq_true] at hw
  obtain ⟨⟨⟨h0, h1⟩, h2⟩, h3⟩ := hw
  simp only [decodeRaw, BitVec.reduceToNat, Nat.reduceDiv, Nat.reduceMod]
  with_unfolding_all (change ck _ _ _ = _)
  refine ck_ok (gBits_ne g h0) mask_zero (mask_or (mask_or (mask_at (W := 40) (lo := 32) (m := 0x7ffffffff#40) (acc) (by decide)) (mask_at (W := 40) (lo := 16) (m := 0x7ffffffff#40) (fb) (by decide))) (mask_at (W := 40) (lo := 0) (m := 0x7ffffffff#40) (fa) (by decide))) dOk_none (fOk_x h1) (fOk_x h2) (fOk_x h3) rfl rfl rfl ?_
  · simp (disch := decide) [extract_or, extract_at, extract_at_other, getLsbD_at, getElem_at, BitVec.getLsbD_of_ge]

theorem mxsend (g : Guard) (d : Dst) (cap a : Src) : Statement (.mxsend g d cap a) := by
  intro r hw hr
  obtain rfl := Option.some.inj hr
  simp only [Instr.wellFormed, Bool.and_eq_true] at hw
  obtain ⟨⟨⟨h0, h1⟩, h2⟩, h3⟩ := hw
  simp only [decodeRaw, BitVec.reduceToNat, Nat.reduceDiv, Nat.reduceMod]
  with_unfolding_all (change ck _ _ _ = _)
  exact ck_ok (gBits_ne g h0) mask_zero mask_zero (dOk_xnz h1) (fOk_x h2) (fOk_x h3) fOk_none rfl rfl rfl (by simp only [guardOf_mk, srcOf_srcBits])

theorem mxkey (g : Guard) (k : Src) : Statement (.mxkey g k) := by
  intro r hw hr
  obtain rfl := Option.some.inj hr
  simp only [Instr.wellFormed, Bool.and_eq_true] at hw
  obtain ⟨h0, h1⟩ := hw
  simp only [decodeRaw, BitVec.reduceToNat, Nat.reduceDiv, Nat.reduceMod]
  with_unfolding_all (change ck _ _ _ = _)
  exact ck_ok (gBits_ne g h0) mask_zero mask_zero dOk_none (fOk_x h1) fOk_none fOk_none rfl rfl rfl (by simp only [guardOf_mk, srcOf_srcBits])

theorem mxstat (g : Guard) (d : Dst) : Statement (.mxstat g d) := by
  intro r hw hr
  obtain rfl := Option.some.inj hr
  simp only [Instr.wellFormed, Bool.and_eq_true] at hw
  obtain ⟨h0, h1⟩ := hw
  simp only [decodeRaw, BitVec.reduceToNat, Nat.reduceDiv, Nat.reduceMod]
  with_unfolding_all (change ck _ _ _ = _)
  exact ck_ok (gBits_ne g h0) mask_zero mask_zero (dOk_xm h1) fOk_none fOk_none fOk_none rfl rfl rfl (by simp only [guardOf_mk])

theorem mxwait (g : Guard) : Statement (.mxwait g) := by
  intro r hw hr
  obtain rfl := Option.some.inj hr
  have h0 : gOk g = true := hw
  simp only [decodeRaw, BitVec.reduceToNat, Nat.reduceDiv, Nat.reduceMod]
  with_unfolding_all (change ck _ _ _ = _)
  exact ck_ok (gBits_ne g h0) mask_zero mask_zero dOk_none fOk_none fOk_none fOk_none rfl rfl rfl (by simp only [guardOf_mk])

theorem fence (g : Guard) (later prior : BitVec 5) : Statement (.fence g later prior) := by
  intro r hw hr
  obtain rfl := Option.some.inj hr
  simp only [Instr.wellFormed, Bool.and_eq_true] at hw
  obtain ⟨h0, h1⟩ := hw
  simp only [decodeRaw, BitVec.reduceToNat, Nat.reduceDiv, Nat.reduceMod]
  with_unfolding_all (change ck _ _ _ = _)
  refine ck_ok (gBits_ne g h0) (mask_or (mask_at (W := 12) (lo := 5) (m := 0x3ff#12) (later) (by decide)) (mask_at (W := 12) (lo := 0) (m := 0x3ff#12) (prior) (by decide))) mask_zero dOk_none fOk_none fOk_none fOk_none ?_ rfl rfl ?_
  · revert h1
    simp (disch := decide) [extract_or, extract_at, extract_at_other, getLsbD_at, getElem_at, BitVec.getLsbD_of_ge]
  · simp (disch := decide) [extract_or, extract_at, extract_at_other, getLsbD_at, getElem_at, BitVec.getLsbD_of_ge]

theorem fencex (g : Guard) (a : Src) : Statement (.fencex g a) := by
  intro r hw hr
  obtain rfl := Option.some.inj hr
  simp only [Instr.wellFormed, Bool.and_eq_true] at hw
  obtain ⟨h0, h1⟩ := hw
  simp only [decodeRaw, BitVec.reduceToNat, Nat.reduceDiv, Nat.reduceMod]
  with_unfolding_all (change ck _ _ _ = _)
  exact ck_ok (gBits_ne g h0) mask_zero mask_zero dOk_none (fOk_xm h1) fOk_none fOk_none rfl rfl rfl (by simp only [guardOf_mk, srcOf_srcBits])

theorem launch (g : Guard) (d : Dst) (a : Src) : Statement (.launch g d a) := by
  intro r hw hr
  obtain rfl := Option.some.inj hr
  simp only [Instr.wellFormed, Bool.and_eq_true] at hw
  obtain ⟨⟨h0, h1⟩, h2⟩ := hw
  simp only [decodeRaw, BitVec.reduceToNat, Nat.reduceDiv, Nat.reduceMod]
  with_unfolding_all (change ck _ _ _ = _)
  exact ck_ok (gBits_ne g h0) mask_zero mask_zero (dOk_xnz h1) (fOk_x h2) fOk_none fOk_none rfl rfl rfl (by simp only [guardOf_mk, srcOf_srcBits])

theorem trigger (g : Guard) : Statement (.trigger g) := by
  intro r hw hr
  obtain rfl := Option.some.inj hr
  have h0 : gOk g = true := hw
  simp only [decodeRaw, BitVec.reduceToNat, Nat.reduceDiv, Nat.reduceMod]
  with_unfolding_all (change ck _ _ _ = _)
  exact ck_ok (gBits_ne g h0) mask_zero mask_zero dOk_none fOk_none fOk_none fOk_none rfl rfl rfl (by simp only [guardOf_mk])

theorem bar (g : Guard) (d : Dst) (n dl : Src) (sc : BarScope) (b : BitVec 4) : Statement (.bar g d n dl sc b) := by
  intro r hw hr
  obtain rfl := Option.some.inj hr
  simp only [Instr.wellFormed, Bool.and_eq_true] at hw
  obtain ⟨⟨⟨h0, h1⟩, h2⟩, h3⟩ := hw
  simp only [decodeRaw, BitVec.reduceToNat, Nat.reduceDiv, Nat.reduceMod]
  with_unfolding_all (change ck _ _ _ = _)
  refine ck_ok (gBits_ne g h0) (mask_at (W := 12) (lo := 0) (m := 0x7#12) (sc.code) (by decide)) (mask_at (W := 40) (lo := 0) (m := 0xf#40) (b) (by decide)) (dOk_x h1) (fOk_x h2) (fOk_x h3) fOk_none ?_ rfl rfl ?_
  · simp (disch := decide) [extract_or, extract_at, extract_at_other, getLsbD_at, getElem_at, BitVec.getLsbD_of_ge]
  · simp (disch := decide) [extract_or, extract_at, extract_at_other, getLsbD_at, getElem_at, BitVec.getLsbD_of_ge]

theorem evset (g : Guard) (e : Src) : Statement (.evset g e) := by
  intro r hw hr
  obtain rfl := Option.some.inj hr
  simp only [Instr.wellFormed, Bool.and_eq_true] at hw
  obtain ⟨h0, h1⟩ := hw
  simp only [decodeRaw, BitVec.reduceToNat, Nat.reduceDiv, Nat.reduceMod]
  with_unfolding_all (change ck _ _ _ = _)
  exact ck_ok (gBits_ne g h0) mask_zero mask_zero dOk_none (fOk_x h1) fOk_none fOk_none rfl rfl rfl (by simp only [guardOf_mk, srcOf_srcBits])

theorem evclr (g : Guard) (e : Src) : Statement (.evclr g e) := by
  intro r hw hr
  obtain rfl := Option.some.inj hr
  simp only [Instr.wellFormed, Bool.and_eq_true] at hw
  obtain ⟨h0, h1⟩ := hw
  simp only [decodeRaw, BitVec.reduceToNat, Nat.reduceDiv, Nat.reduceMod]
  with_unfolding_all (change ck _ _ _ = _)
  exact ck_ok (gBits_ne g h0) mask_zero mask_zero dOk_none (fOk_x h1) fOk_none fOk_none rfl rfl rfl (by simp only [guardOf_mk, srcOf_srcBits])

theorem evwait (g : Guard) (d : Dst) (e dl : Src) (k : BitVec 2) : Statement (.evwait g d e dl k) := by
  intro r hw hr
  obtain rfl := Option.some.inj hr
  simp only [Instr.wellFormed, Bool.and_eq_true] at hw
  obtain ⟨⟨⟨h0, h1⟩, h2⟩, h3⟩ := hw
  simp only [decodeRaw, BitVec.reduceToNat, Nat.reduceDiv, Nat.reduceMod]
  with_unfolding_all (change ck _ _ _ = _)
  refine ck_ok (gBits_ne g h0) (mask_at (W := 12) (lo := 0) (m := 0x3#12) (k) (by decide)) mask_zero (dOk_x h1) (fOk_x h2) (fOk_x h3) fOk_none rfl rfl rfl ?_
  · simp (disch := decide) [extract_or, extract_at, extract_at_other, getLsbD_at, getElem_at, BitVec.getLsbD_of_ge]

theorem mfs (g : Guard) (d : Dst) (r : BitVec 12) : Statement (.mfs g d r) := by
  intro r hw hr
  obtain rfl := Option.some.inj hr
  simp only [Instr.wellFormed, Bool.and_eq_true] at hw
  obtain ⟨⟨h0, h1⟩, h2⟩ := hw
  simp only [decodeRaw, BitVec.reduceToNat, Nat.reduceDiv, Nat.reduceMod]
  with_unfolding_all (change ck _ _ _ = _)
  refine ck_ok (gBits_ne g h0) mask_zero (mask_at (W := 40) (lo := 0) (m := 0xfff#40) (r) (by decide)) (dOk_xm h1) fOk_none fOk_none fOk_none ?_ rfl rfl ?_
  · revert h2
    simp (disch := decide) [extract_or, extract_at, extract_at_other, getLsbD_at, getElem_at, BitVec.getLsbD_of_ge]
  · simp (disch := decide) [extract_or, extract_at, extract_at_other, getLsbD_at, getElem_at, BitVec.getLsbD_of_ge]

theorem mts (g : Guard) (a : Src) (r : BitVec 12) : Statement (.mts g a r) := by
  intro r hw hr
  obtain rfl := Option.some.inj hr
  simp only [Instr.wellFormed, Bool.and_eq_true] at hw
  obtain ⟨⟨h0, h1⟩, h2⟩ := hw
  simp only [decodeRaw, BitVec.reduceToNat, Nat.reduceDiv, Nat.reduceMod]
  with_unfolding_all (change ck _ _ _ = _)
  refine ck_ok (gBits_ne g h0) mask_zero (mask_at (W := 40) (lo := 0) (m := 0xfff#40) (r) (by decide)) dOk_none (fOk_xm h1) fOk_none fOk_none ?_ rfl rfl ?_
  · revert h2
    simp (disch := decide) [extract_or, extract_at, extract_at_other, getLsbD_at, getElem_at, BitVec.getLsbD_of_ge]
  · simp (disch := decide) [extract_or, extract_at, extract_at_other, getLsbD_at, getElem_at, BitVec.getLsbD_of_ge]

theorem rte (g : Guard) : Statement (.rte g) := by
  intro r hw hr
  obtain rfl := Option.some.inj hr
  have h0 : gOk g = true := hw
  simp only [decodeRaw, BitVec.reduceToNat, Nat.reduceDiv, Nat.reduceMod]
  with_unfolding_all (change ck _ _ _ = _)
  exact ck_ok (gBits_ne g h0) mask_zero mask_zero dOk_none fOk_none fOk_none fOk_none rfl rfl rfl (by simp only [guardOf_mk])

theorem trap (g : Guard) (code : BitVec 16) : Statement (.trap g code) := by
  intro r hw hr
  obtain rfl := Option.some.inj hr
  have h0 : gOk g = true := hw
  simp only [decodeRaw, BitVec.reduceToNat, Nat.reduceDiv, Nat.reduceMod]
  with_unfolding_all (change ck _ _ _ = _)
  refine ck_ok (gBits_ne g h0) mask_zero (mask_at (W := 40) (lo := 0) (m := 0xffff#40) (code) (by decide)) dOk_none fOk_none fOk_none fOk_none rfl rfl rfl ?_
  · simp (disch := decide) [extract_or, extract_at, extract_at_other, getLsbD_at, getElem_at, BitVec.getLsbD_of_ge]

theorem cyc (g : Guard) (d : Dst) : Statement (.cyc g d) := by
  intro r hw hr
  obtain rfl := Option.some.inj hr
  simp only [Instr.wellFormed, Bool.and_eq_true] at hw
  obtain ⟨h0, h1⟩ := hw
  simp only [decodeRaw, BitVec.reduceToNat, Nat.reduceDiv, Nat.reduceMod]
  with_unfolding_all (change ck _ _ _ = _)
  exact ck_ok (gBits_ne g h0) mask_zero mask_zero (dOk_xm h1) fOk_none fOk_none fOk_none rfl rfl rfl (by simp only [guardOf_mk])

theorem tlbinvPage (g : Guard) (sp va : Src) : Statement (.tlbinvPage g sp va) := by
  intro r hw hr
  obtain rfl := Option.some.inj hr
  simp only [Instr.wellFormed, Bool.and_eq_true] at hw
  obtain ⟨⟨h0, h1⟩, h2⟩ := hw
  simp only [decodeRaw, BitVec.reduceToNat, Nat.reduceDiv, Nat.reduceMod]
  with_unfolding_all (change ck _ _ _ = _)
  exact ck_ok (gBits_ne g h0) mask_zero mask_zero dOk_none (fOk_x h1) (fOk_x h2) fOk_none rfl rfl rfl (by simp only [guardOf_mk, srcOf_srcBits])

theorem tlbinvSpace (g : Guard) (sp : Src) : Statement (.tlbinvSpace g sp) := by
  intro r hw hr
  obtain rfl := Option.some.inj hr
  simp only [Instr.wellFormed, Bool.and_eq_true] at hw
  obtain ⟨h0, h1⟩ := hw
  simp only [decodeRaw, BitVec.reduceToNat, Nat.reduceDiv, Nat.reduceMod]
  with_unfolding_all (change ck _ _ _ = _)
  refine ck_ok (gBits_ne g h0) (mask_at (W := 12) (lo := 0) (m := 0x3#12) (1#2) (by decide)) mask_zero dOk_none (fOk_x h1) fOk_none fOk_none rfl rfl rfl ?_
  · simp (disch := decide) [extract_or, extract_at, extract_at_other, getLsbD_at, getElem_at, BitVec.getLsbD_of_ge]

theorem tlbinvAll (g : Guard) : Statement (.tlbinvAll g) := by
  intro r hw hr
  obtain rfl := Option.some.inj hr
  have h0 : gOk g = true := hw
  simp only [decodeRaw, BitVec.reduceToNat, Nat.reduceDiv, Nat.reduceMod]
  with_unfolding_all (change ck _ _ _ = _)
  refine ck_ok (gBits_ne g h0) (mask_at (W := 12) (lo := 0) (m := 0x3#12) (2#2) (by decide)) mask_zero dOk_none fOk_none fOk_none fOk_none rfl rfl rfl ?_
  · simp (disch := decide) [extract_or, extract_at, extract_at_other, getLsbD_at, getElem_at, BitVec.getLsbD_of_ge]

theorem replay (g : Guard) (d : Dst) (h : Src) : Statement (.replay g d h) := by
  intro r hw hr
  obtain rfl := Option.some.inj hr
  simp only [Instr.wellFormed, Bool.and_eq_true] at hw
  obtain ⟨⟨h0, h1⟩, h2⟩ := hw
  simp only [decodeRaw, BitVec.reduceToNat, Nat.reduceDiv, Nat.reduceMod]
  with_unfolding_all (change ck _ _ _ = _)
  exact ck_ok (gBits_ne g h0) mask_zero mask_zero (dOk_xnz h1) (fOk_x h2) fOk_none fOk_none rfl rfl rfl (by simp only [guardOf_mk, srcOf_srcBits])

theorem abortset (g : Guard) (d : Dst) (t e : Src) : Statement (.abortset g d t e) := by
  intro r hw hr
  obtain rfl := Option.some.inj hr
  simp only [Instr.wellFormed, Bool.and_eq_true] at hw
  obtain ⟨⟨⟨h0, h1⟩, h2⟩, h3⟩ := hw
  simp only [decodeRaw, BitVec.reduceToNat, Nat.reduceDiv, Nat.reduceMod]
  with_unfolding_all (change ck _ _ _ = _)
  exact ck_ok (gBits_ne g h0) mask_zero mask_zero (dOk_xnz h1) (fOk_x h2) (fOk_x h3) fOk_none rfl rfl rfl (by simp only [guardOf_mk, srcOf_srcBits])

theorem fatal (g : Guard) (d : Dst) (h : Src) : Statement (.fatal g d h) := by
  intro r hw hr
  obtain rfl := Option.some.inj hr
  simp only [Instr.wellFormed, Bool.and_eq_true] at hw
  obtain ⟨⟨h0, h1⟩, h2⟩ := hw
  simp only [decodeRaw, BitVec.reduceToNat, Nat.reduceDiv, Nat.reduceMod]
  with_unfolding_all (change ck _ _ _ = _)
  exact ck_ok (gBits_ne g h0) mask_zero mask_zero (dOk_xnz h1) (fOk_x h2) fOk_none fOk_none rfl rfl rfl (by simp only [guardOf_mk, srcOf_srcBits])

theorem pgcmd (g : Guard) (d : Dst) (a : Src) : Statement (.pgcmd g d a) := by
  intro r hw hr
  obtain rfl := Option.some.inj hr
  simp only [Instr.wellFormed, Bool.and_eq_true] at hw
  obtain ⟨⟨h0, h1⟩, h2⟩ := hw
  simp only [decodeRaw, BitVec.reduceToNat, Nat.reduceDiv, Nat.reduceMod]
  with_unfolding_all (change ck _ _ _ = _)
  exact ck_ok (gBits_ne g h0) mask_zero mask_zero (dOk_xnz h1) (fOk_x h2) fOk_none fOk_none rfl rfl rfl (by simp only [guardOf_mk, srcOf_srcBits])

theorem ageClassRise (slot : Nat) : Statement (.ageClassRise slot) := nofun_of_none rfl

theorem restEnd (slot : Nat) : Statement (.restEnd slot) := nofun_of_none rfl

theorem closingWaitEnd (slot : Nat) : Statement (.closingWaitEnd slot) := nofun_of_none rfl

theorem taskDispatch (slot : Nat) : Statement (.taskDispatch slot) := nofun_of_none rfl

theorem leafResume (slot : Nat) : Statement (.leafResume slot) := nofun_of_none rfl

theorem sendQueueRelease (core : Nat) : Statement (.sendQueueRelease core) := nofun_of_none rfl

theorem meshWordArrival (k : Nat) : Statement (.meshWordArrival k) := nofun_of_none rfl

theorem replyAccept (k : Nat) : Statement (.replyAccept k) := nofun_of_none rfl

theorem dividerDeliver (core : Nat) : Statement (.dividerDeliver core) := nofun_of_none rfl

theorem codeLineFill (k : Nat) : Statement (.codeLineFill k) := nofun_of_none rfl

theorem codeRefetch (quire k : Nat) : Statement (.codeRefetch quire k) := nofun_of_none rfl

theorem cbinv (isle : Nat) : Statement (.cbinv isle) := nofun_of_none rfl

theorem storeBufferWrite (core k : Nat) : Statement (.storeBufferWrite core k) := nofun_of_none rfl

theorem memrefArrive (k : Nat) (part : Option Nat) : Statement (.memrefArrive k part) := nofun_of_none rfl

theorem moorDeadlineExpire (isle k : Nat) : Statement (.moorDeadlineExpire isle k) := nofun_of_none rfl

theorem tagsetWave (k : Nat) : Statement (.tagsetWave k) := nofun_of_none rfl

theorem reductionAck (k : Nat) : Statement (.reductionAck k) := nofun_of_none rfl

theorem agentMcas (k : Nat) : Statement (.agentMcas k) := nofun_of_none rfl

theorem agentEnq (k : Nat) : Statement (.agentEnq k) := nofun_of_none rfl

theorem agentChaseHop (k : Nat) : Statement (.agentChaseHop k) := nofun_of_none rfl

theorem harbourAmo (hart : Nat) (op : AtomOp) (w : Width) (addr value : Word) : Statement (.harbourAmo hart op w addr value) := nofun_of_none rfl

theorem harbourLr (hart : Nat) (w : Width) (addr : Word) : Statement (.harbourLr hart w addr) := nofun_of_none rfl

theorem harbourSc (hart : Nat) (w : Width) (addr value : Word) : Statement (.harbourSc hart w addr value) := nofun_of_none rfl

theorem reservationExpire (hart : Nat) : Statement (.reservationExpire hart) := nofun_of_none rfl

theorem harbourAccess (hart : Nat) (store : Bool) (w : Width) (addr value : Word) : Statement (.harbourAccess hart store w addr value) := nofun_of_none rfl

theorem fenceRecordDiscard (slot k : Nat) : Statement (.fenceRecordDiscard slot k) := nofun_of_none rfl

theorem gatherElementArrive (k : Nat) : Statement (.gatherElementArrive k) := nofun_of_none rfl

theorem gatherAgeSeal (isle k : Nat) : Statement (.gatherAgeSeal isle k) := nofun_of_none rfl

theorem frameSend (k : Nat) : Statement (.frameSend k) := nofun_of_none rfl

theorem dataFrameReceive (f : Frame) : Statement (.dataFrameReceive f) := nofun_of_none rfl

theorem ackFrameReceive (f : Frame) : Statement (.ackFrameReceive f) := nofun_of_none rfl

theorem ackFrameSend (peer job : Nat) : Statement (.ackFrameSend peer job) := nofun_of_none rfl

theorem replayTimeout (peer job : Nat) : Statement (.replayTimeout peer job) := nofun_of_none rfl

theorem ratePeriodEnd (peer job : Nat) : Statement (.ratePeriodEnd peer job) := nofun_of_none rfl

theorem elementStatusReceive (k : Nat) : Statement (.elementStatusReceive k) := nofun_of_none rfl

theorem wincloseDrainEnd (h : Nat) : Statement (.wincloseDrainEnd h) := nofun_of_none rfl

theorem laneLightLoss (strait : Nat) (chan : Bool) (lost : BitVec 16) : Statement (.laneLightLoss strait chan lost) := nofun_of_none rfl

theorem laneMaskAgreed (strait : Nat) (chan : Bool) : Statement (.laneMaskAgreed strait chan) := nofun_of_none rfl

theorem pathDownTimeout (peer job : Nat) : Statement (.pathDownTimeout peer job) := nofun_of_none rfl

theorem epochSwitch (peer job : Nat) : Statement (.epochSwitch peer job) := nofun_of_none rfl

theorem frouteWrite (p : Nat) (v : BitVec 16) : Statement (.frouteWrite p v) := nofun_of_none rfl

theorem fpkgWrite (v : Word) : Statement (.fpkgWrite v) := nofun_of_none rfl

theorem keycmdLoad (w0 : Word) (key : List Word) : Statement (.keycmdLoad w0 key) := nofun_of_none rfl

theorem keycmdZeroise (w0 : Word) : Statement (.keycmdZeroise w0) := nofun_of_none rfl

theorem lanereq (v : Word) (lit : BitVec 16) : Statement (.lanereq v lit) := nofun_of_none rfl

theorem copyStart (quire : Nat) : Statement (.copyStart quire) := nofun_of_none rfl

theorem copyComplete (quire k : Nat) : Statement (.copyComplete quire k) := nofun_of_none rfl

theorem promiseMiss (slot : Nat) : Statement (.promiseMiss slot) := nofun_of_none rfl

theorem twaitDeadline (slot : Nat) : Statement (.twaitDeadline slot) := nofun_of_none rfl

theorem tileZeroingEnd (quire tile : Nat) : Statement (.tileZeroingEnd quire tile) := nofun_of_none rfl

theorem folioFetch (quire idx : Nat) : Statement (.folioFetch quire idx) := nofun_of_none rfl

theorem matrixCommandExecute (core : Nat) : Statement (.matrixCommandExecute core) := nofun_of_none rfl

theorem matrixCommandComplete (core : Nat) (loader : Bool) : Statement (.matrixCommandComplete core loader) := nofun_of_none rfl

theorem loaderCommandStart (core : Nat) : Statement (.loaderCommandStart core) := nofun_of_none rfl

theorem weightRowBlockArrive (core : Nat) : Statement (.weightRowBlockArrive core) := nofun_of_none rfl

theorem mxsendReceive (k : Nat) : Statement (.mxsendReceive k) := nofun_of_none rfl

theorem eventBitUpdate (k : Nat) : Statement (.eventBitUpdate k) := nofun_of_none rfl

theorem leafReady (quire k : Nat) : Statement (.leafReady quire k) := nofun_of_none rfl

theorem evwaitDeadline (slot : Nat) : Statement (.evwaitDeadline slot) := nofun_of_none rfl

theorem barDeadline (slot : Nat) : Statement (.barDeadline slot) := nofun_of_none rfl

theorem tasksetRetire (tsid : Nat) : Statement (.tasksetRetire tsid) := nofun_of_none rfl

theorem asyncTrapDeliver (slot : Nat) : Statement (.asyncTrapDeliver slot) := nofun_of_none rfl

theorem walkComplete (k : Nat) : Statement (.walkComplete k) := nofun_of_none rfl

theorem faultRingWrite (isle : Nat) : Statement (.faultRingWrite isle) := nofun_of_none rfl

theorem pageCommandComplete (k : Nat) (far : FarEnd) : Statement (.pageCommandComplete k far) := nofun_of_none rfl

theorem moorbaseWrite (isle : Nat) (lim : Bool) (v : Word) : Statement (.moorbaseWrite isle lim v) := nofun_of_none rfl

theorem memcfgLock (isle : Nat) : Statement (.memcfgLock isle) := nofun_of_none rfl

theorem hashMaskWrite (isle k : Nat) (v : Word) : Statement (.hashMaskWrite isle k v) := nofun_of_none rfl

theorem ablimWrite (isle : Nat) (v : Word) : Statement (.ablimWrite isle v) := nofun_of_none rfl

theorem gageWrite (isle : Nat) (v : Word) : Statement (.gageWrite isle v) := nofun_of_none rfl

theorem fqbaseWrite (isle : Nat) (v : Word) : Statement (.fqbaseWrite isle v) := nofun_of_none rfl

theorem fqctlWrite (isle : Nat) (v : Word) : Statement (.fqctlWrite isle v) := nofun_of_none rfl

theorem wstateWrite (slot : Nat) (v : Word) : Statement (.wstateWrite slot v) := nofun_of_none rfl

theorem launchPortLaunch (port : Nat) (c : PortCmd) : Statement (.launchPortLaunch port c) := nofun_of_none rfl

theorem ferryLaunch (port : Nat) (c : PortCmd) : Statement (.ferryLaunch port c) := nofun_of_none rfl

theorem snap (port : Nat) (c : PortCmd) : Statement (.snap port c) := nofun_of_none rfl

theorem evict (port : Nat) (c : PortCmd) : Statement (.evict port c) := nofun_of_none rfl

theorem resume (port : Nat) (c : PortCmd) : Statement (.resume port c) := nofun_of_none rfl

theorem terminate (port : Nat) (c : PortCmd) : Statement (.terminate port c) := nofun_of_none rfl

theorem preemptDrainEnd (tsid : Nat) : Statement (.preemptDrainEnd tsid) := nofun_of_none rfl

theorem preemptDeadline (tsid : Nat) : Statement (.preemptDeadline tsid) := nofun_of_none rfl

theorem powerUp (b : BootFinds) : Statement (.powerUp b) := nofun_of_none rfl

theorem reset (b : BootFinds) : Statement (.reset b) := nofun_of_none rfl

theorem statusRequest : Statement .statusRequest := nofun_of_none rfl

theorem attestationRequest (nonce : BitVec 256) : Statement (.attestationRequest nonce) := nofun_of_none rfl

theorem journalRead (seq : Nat) : Statement (.journalRead seq) := nofun_of_none rfl

theorem resetRequest : Statement .resetRequest := nofun_of_none rfl

theorem checkpoint (peer : Bool) (far : Word) : Statement (.checkpoint peer far) := nofun_of_none rfl

theorem eventRingSetup (base : Word) (size : Nat) : Statement (.eventRingSetup base size) := nofun_of_none rfl

theorem thermalMeasure (power : Nat) (temps : List Nat) : Statement (.thermalMeasure power temps) := nofun_of_none rfl

theorem coreFail (core : Nat) : Statement (.coreFail core) := nofun_of_none rfl

theorem illegalInstruction (detail : BitVec 8) : Statement (.illegalInstruction detail) := nofun_of_none rfl

theorem illFormedPcIssue : Statement .illFormedPcIssue := nofun_of_none rfl

theorem checkpointComplete (far : FarEnd) : Statement (.checkpointComplete far) := nofun_of_none rfl

end Sys2Proof.Laws.RoundTrip
end

