-- ==== Sys2Proof/Tests/Slice0.lean ====
section
/-! SUPPORT. Tests: ill-formed terms, words written out from the spec's encodings, results of the spec's worked cases, and for every
statement states and operands that meet its hypotheses. -/

set_option Elab.async false

namespace Sys2Proof.Tests
open Sys2Proof Sys2Proof.Machine

/-! ### Small states -/

/-- The guard of every instruction here: p0. -/
def g0 : Guard := ⟨false, 0⟩
/-- A source in block mode, not killed. -/
def x (n : BitVec 6) : Src := ⟨false, false, n⟩
/-- A source in trap mode. -/
def xt (n : BitVec 6) : Src := ⟨true, false, n⟩
/-- A source that is killed. -/
def xk (n : BitVec 6) : Src := ⟨false, true, n⟩

/-- A register that awaits a reply. -/
def due : XCell := .empty { reply := true, drop := false, fatal := false, cw := none }

/-- Registers 1 to 7 of the test thread: 5 and 7, a pending one, two DEAD ones, 3 and a word of ones. -/
def thread : Slot := { probeThread with
  xlo := [.full 5, .full 7, due, .dead, .dead, .full 3, .full (-1)]
  p := [.full true, .full false, .dead, .empty { reply := true, drop := false, fatal := false, cw := none }, .dead, .dead, .dead] }

/-- A task set at service level with a usable trap vector. -/
def svcSet : TaskSet := { probeSet with service := true, tsvec := 0x20000, tasks := 1 }

/-- A running device whose slot 1 of core 0 runs the thread `f thread` in the set `t`. -/
def stT (t : TaskSet) (f : Slot → Slot) : State :=
  { (State.reset.setSlot 1 (f thread)).setSet 0 t with cur := 1, phase := .up, cyc := 100 }
def st (f : Slot → Slot) : State := stT svcSet f
/-- The plain test state. -/
def s0 : State := st id

/-- The state that an outcome answers. -/
def nextOf (o : Host.Outcome State Fault Refusal) : State := match o with
  | .next t => t
  | _ => State.reset

/-- Register `n` of the issuing slot after an instruction. -/
def reg (i : Instr) (s : State) (n : Nat) : XCell := (nextOf (exec i s)).me.xCell (xIndex 0 n)

/-- The state once an instruction has read and killed its x and port sources. -/
def after (s : State) (srcs : List Src) : State := match readXs 0 srcs s.rd with
  | .ok (_, r) => r.s.killXs srcs
  | .error _ => s

/-- The guard is true and the sources read as `vs`. -/
def opCheck (s : State) (g : Guard) (srcs : List Src) (vs : List Word) : Bool :=
  (match s.guardTrue g with
    | .ok b => b
    | .error _ => false) &&
  (match readXs 0 srcs s.rd with
    | .ok (ws, _) => decide (ws = vs)
    | .error _ => false)

theorem operands_iff (s : State) (g : Guard) (srcs : List Src) (vs : List Word) :
    s.operands g srcs vs (after s srcs) ↔ opCheck s g srcs vs = true := by
  unfold State.operands opCheck after
  constructor
  · rintro ⟨h, r, hr, -⟩
    simp [h, hr]
  · intro h
    simp only [Bool.and_eq_true] at h
    obtain ⟨h1, h2⟩ := h
    refine ⟨?_, ?_⟩
    · split at h1
      · next b hb => rw [hb, h1]
      · simp at h1
    · split at h2
      · next ws r hr =>
        have := of_decide_eq_true h2
        subst this
        exact ⟨r, hr, by simp⟩
      · simp at h2

/-- A result that is there. -/
def okB {α : Type} (r : Res α) : Bool := match r with
  | .ok _ => true
  | .error _ => false

/-- The result is `v`. -/
def okIs {ε α : Type} [DecidableEq α] (r : Except ε α) (v : α) : Bool := match r with
  | .ok w => decide (w = v)
  | .error _ => false

/-- A read that failed: at the uncorrectable word `b`, where it met one. -/
def errIs {α : Type} (r : Except (Option Nat) α) (b : Option Nat) : Bool := match r with
  | .ok _ => false
  | .error e => decide (e = b)

theorem ok_iff {α : Type} [DecidableEq α] (r : Res α) (v : α) : r = .ok v ↔ okIs r v = true := by
  cases r <;> simp [okIs]

/-- The issue waits on `w`. -/
def waitIs {α : Type} (r : Res α) (w : Wait) : Bool := match r with
  | .error (.wait v) => decide (v = w)
  | _ => false

theorem wait_iff {α : Type} (r : Res α) (w : Wait) : r = .error (.wait w) ↔ waitIs r w = true := by
  unfold waitIs
  split
  · simp
  · rename_i h
    simp only [Bool.false_eq_true, iff_false]
    intro e
    exact h w e

theorem exists_ok {α : Type} (r : Res α) : (∃ t, r = .ok t) ↔ okB r = true := by
  cases r <;> simp [okB]

/-- An outcome that is a next state. -/
def isNext (o : Host.Outcome State Fault Refusal) : Bool := match o with
  | .next _ => true
  | _ => false

theorem exists_next (o : Host.Outcome State Fault Refusal) : (∃ t, o = .next t) ↔ isNext o = true := by
  cases o <;> simp [isNext]

end Sys2Proof.Tests

namespace Sys2Proof.Tests
open Sys2Proof Sys2Proof.Machine

/-! ### Ill-formed terms (R37 to R39, R44, R113, R139, R177, R269, R270, R284, R336, R372) -/

theorem test_wf_guard : (Instr.nop ⟨true, 0⟩).wellFormed = false := by decide
theorem test_wf_x : (Instr.add g0 9 (x 32) (x 1)).wellFormed = false ∧ (Instr.jmp g0 (x 56)).wellFormed = false
    ∧ (Instr.mdget g0 40).wellFormed = false := by decide
theorem test_wf_kills : (Instr.add g0 9 (x 1) (xk 0)).wellFormed = false ∧ (Instr.add g0 9 (xk 56) (x 1)).wellFormed = false
    ∧ (Instr.mov g0 9 (xt 0)).wellFormed = false := by decide
theorem test_wf_nonzero : (Instr.ldf g0 0 (x 1) 0).wellFormed = true ∧ (Instr.stef g0 0 (x 1) (x 2) 0).wellFormed = false := by decide
theorem test_wf_pred : (Instr.pand g0 8 (x 1) (x 2)).wellFormed = false ∧ (Instr.pmov g0 1 (xk 0)).wellFormed = false := by decide
theorem test_wf_v : (Instr.vmov g0 3 (x 33)).wellFormed = false ∧ (Instr.vmov g0 33 (x 3)).wellFormed = false := by decide
theorem test_wf_slide : (Instr.call g0 1 0 0).wellFormed = false := by decide
theorem test_wf_field : (Instr.bext g0 1 (x 2) false 0 0).wellFormed = false ∧ (Instr.bext g0 1 (x 2) false 64 1).wellFormed = false
    ∧ (Instr.bext g0 1 (x 2) false 64 0).wellFormed = true := by decide
theorem test_wf_width : (Instr.sext g0 1 (x 2) .b64).wellFormed = false ∧ (Instr.ld g0 1 (x 2) .b64 true 0).wellFormed = false
    ∧ (Instr.aadd g0 1 (x 2) (x 3) .b16 0).wellFormed = false := by decide
theorem test_wf_cwres : (Instr.cwres g0 3 0).wellFormed = false ∧ (Instr.cwres g0 1 8).wellFormed = false
    ∧ (Instr.kill g0 false 56).wellFormed = false ∧ (Instr.regst g0 1 true 9).wellFormed = false := by decide
theorem test_wf_fold : (Instr.fold g0 (x 1) (x 2) (x 0) false 32).wellFormed = false
    ∧ (Instr.fold g0 (x 1) (x 2) (x 3) false 0).wellFormed = false ∧ (Instr.fold g0 (x 1) (x 2) (x 3) true 31).wellFormed = true := by
  decide
theorem test_wf_chase : (Instr.chase g0 9 (x 1) (x 2) 65 0).wellFormed = false
    ∧ (Instr.sphash g0 9 (x 1) true).wellFormed = false := by decide
theorem test_wf_vector : (Instr.vperm g0 33 (x 34) (x 35) (x 36) .i8).wellFormed = false
    ∧ (Instr.vadd g0 33 (x 34) (x 35) .rne true .f32).wellFormed = false
    ∧ (Instr.vadd g0 33 (x 34) (x 35) .rtz false .i32).wellFormed = false
    ∧ (Instr.vwadd g0 35 (x 34) (x 36) .rne .i8).wellFormed = false
    ∧ (Instr.vshuf g0 33 (x 34) (x 35) .f32 129 .ext).wellFormed = false
    ∧ (Instr.vshuf g0 33 (x 34) (x 35) .f32 128 .ext).wellFormed = true
    ∧ (Instr.vsqrt g0 33 (x 34) .rne .f16).wellFormed = false ∧ (Instr.vcmp g0 33 (x 34) (x 35) .uno .i8).wellFormed = false
    ∧ (Instr.vcvt g0 33 (x 35) .rne .f32 .bf16).wellFormed = false
    ∧ (Instr.vcvts g0 33 (x 34) (x 3) .f16 .f32).wellFormed = false := by decide
theorem test_wf_folios : (Instr.folset g0 9 (x 1) (x 0)).wellFormed = false ∧ (Instr.folchk g0 9 (x 1) (x 2) 0 3).wellFormed = false
    ∧ (Instr.fence g0 0 31).wellFormed = false ∧ (Instr.mfs g0 9 0x003).wellFormed = false
    ∧ (Instr.mfs g0 9 0x096).wellFormed = true := by decide

/-! ### Words written out from the spec's encodings -/

/-- R45, ADDI x9, x9, -1. -/
theorem test_word_addi : decodeWord 0x10409090000000FFFFFFFFFF = .ok (.addi g0 9 (x 9) (-1)) := by with_unfolding_all rfl
/-- R45, ADD x10, x10 in trap mode, x11 killed. -/
theorem test_word_add : decodeWord 0x1000A8A4B000000000000000 = .ok (.add g0 10 (xt 10) (xk 11)) := by with_unfolding_all rfl
/-- R45, BR under p2, three lines ahead at slot 1. -/
theorem test_word_br : decodeWord 0x004800000000000000000019 = .ok (.br ⟨false, 2⟩ 0x19) := by with_unfolding_all rfl
/-- R80 and R36, CALL.w16 x15, two lines ahead. -/
theorem test_word_call : decodeWord 0x00C0F0000000020000000010 = .ok (.call g0 15 2 0x10) := by with_unfolding_all rfl
/-- R106, LEA x9, [x10 + x11 * 8 + 64]. -/
theorem test_word_lea : decodeWord 0x190090A0B000030000000040 = .ok (.lea g0 9 (x 10) (x 11) 3 64) := by with_unfolding_all rfl
/-- R138, REGST x20, x10. -/
theorem test_word_regst : decodeWord 0x204140A00000000000000000 = .ok (.regst g0 20 false 10) := by with_unfolding_all rfl
/-- R152, LDFE x10, [x6 + 8]. -/
theorem test_word_ldfe : decodeWord 0x2940A0600000000000000008 = .ok (.ldfe g0 10 (x 6) 8) := by with_unfolding_all rfl
/-- R177, AINCW.b64 x9, [x4], x5. -/
theorem test_word_aincw : decodeWord 0x324090405000030000000000 = .ok (.aincw g0 9 (x 4) (x 5) .b64 0) := by with_unfolding_all rfl
/-- R203, RFREC.st x21 and GFLUSH. -/
theorem test_word_rfrec : decodeWord 0x394150000000010000000000 = .ok (.rfrecSt g0 21) := by with_unfolding_all rfl
theorem test_word_gflush : decodeWord 0x38C000000000000000000000 = .ok (.gflush g0) := by with_unfolding_all rfl
/-- R250, TCOPY.in.bf16 of 256 blocks through folio 5. -/
theorem test_word_tcopy : decodeWord 0x40C140A0B0C0140FFF000005 =
    .ok (.tcopy g0 20 (x 10) (x 11) (x 12) false .bf16 false 0x0FFF 0 5) := by with_unfolding_all rfl
/-- R268, VREDADD.f32 x12, v1. -/
theorem test_word_vredadd : decodeWord 0x4F80C2100000080000000000 = .ok (.vredadd g0 12 (x 33) .f32) := by with_unfolding_all rfl
/-- R299, MXDOT into a1 over folios 3 and 4. -/
theorem test_word_mxdot : decodeWord 0x5A4000A0B0C0000100040003 = .ok (.mxdot g0 (x 10) (x 11) (x 12) 1 4 3) := by
  with_unfolding_all rfl
/-- R334, FENCE.sr.ls and FENCEX x9. -/
theorem test_word_fence : decodeWord 0x600000000000660000000000 = .ok (.fence g0 3 6) := by with_unfolding_all rfl
theorem test_word_fencex : decodeWord 0x604000900000000000000000 = .ok (.fencex g0 (x 9)) := by with_unfolding_all rfl
/-- R351, LAUNCH x9, [x10]. -/
theorem test_word_launch : decodeWord 0x608090A00000000000000000 = .ok (.launch g0 9 (x 10)) := by with_unfolding_all rfl
/-- R373, REPLAY x9, x10. -/
theorem test_word_replay : decodeWord 0x698090A00000000000000000 = .ok (.replay g0 9 (x 10)) := by with_unfolding_all rfl

/-- The table of R45: opcodes 0x200 and 0x066; ADD with a third source, a kill of x0, the guard 0b1000, operand 0x3D, v0. -/
theorem test_fates_r45 : decodeWord 0x800000000000000000000000 = .error .unassigned ∧
    decodeWord 0x198000000000000000000000 = .error .unassigned ∧ decodeWord 0x100090A0B050000000000000 = .error .reserved ∧
    decodeWord 0x100090A40000000000000000 = .error .reserved ∧ decodeWord 0x102090A0B000000000000000 = .error .reserved ∧
    decodeWord 0x100093D0B000000000000000 = .error .operand60 ∧ decodeWord 0x10009200B000000000000000 = .error .operandClass := by
  refine ⟨?_, ?_, ?_, ?_, ?_, ?_, ?_⟩ <;> with_unfolding_all rfl

/-- R32: ADDI then ADD, BR then ADD, and ADD x12 then ST from x12 make no pair. -/
theorem test_pairs_r45 : pairOk 0x10409090000000FFFFFFFFFF 0x1000A8A4B000000000000000 = false ∧
    pairOk 0x004800000000000000000019 0x1000A8A4B000000000000000 = false := by decide +kernel

/-- R26: a PC that ends in 6 names no slot. -/
theorem test_pc_r45 : pcOk 0x10006 = false ∧ pcOk 0x10004 = true := by decide

/-- R4, R24: the decoder reads a line's bytes lowest first, and twelve of them. -/
theorem test_bytes : decodeTableWord 96 0x608090A00000000000000000 = some (.launch g0 9 (x 10)) := by with_unfolding_all rfl

/-! ### Results of the spec's examples -/

/-- R115: 5 is below all ones read as unsigned, and above -1. -/
theorem test_minmax : reg (.min g0 9 (x 1) (x 7) true) s0 9 = .full 5 ∧ reg (.min g0 9 (x 1) (x 7) false) s0 9 = .full (-1) := by
  decide +kernel

/-- R119: a bound of 0 gives 0; an old value above the bound gives 0; a value below it steps. -/
theorem test_incw : reg (.incw g0 9 (x 1) (x 0)) s0 9 = .full 0 ∧ reg (.incw g0 9 (x 2) (x 1)) s0 9 = .full 0 ∧
    reg (.incw g0 9 (x 1) (x 2)) s0 9 = .full 6 := by decide +kernel

/-- R109: the quotient of a division by 0 is all ones; it arrives as a reply. -/
theorem test_div0 : reg (.div g0 9 (x 1) (x 0) false) s0 9 = due ∧
    ((nextOf (exec (.div g0 9 (x 1) (x 0) false) s0)).core 0).div.map (·.value) = [0xFFFFFFFFFFFFFFFF#64] := by decide +kernel

/-- R89: N = 100, g = 8, T = 5, task 0 of 5 ends at 24. -/
theorem test_part : partBound 100 8 0 5 0 0 true = 24 ∧ partBound 100 8 3 5 0 0 false = 72 ∧ partBound 100 8 4 5 0 0 true = 100 := by
  decide

/-- The step of `withFetchWord` runs the placed instruction: ADDI x9, x0, 1. -/
theorem test_fetch : ((nextOf (step (State.reset.withFetchWord 96 0x104090000000000000000001))).slot 1).xCell (xIndex 0 9) = .full 1 := by
  decide +kernel

end Sys2Proof.Tests

namespace Sys2Proof.Tests
open Sys2Proof Sys2Proof.Machine

/-! ### The hypotheses of the statements on operands, issue and arithmetic are met -/

/-- A reply awaited, nothing else marked. -/
def dueMarks : Marks := { reply := true, drop := false, fatal := false, cw := none }
/-- The marks of an orphan bound to identifier 4. -/
def orphanMarks : Marks := { reply := false, drop := false, fatal := false, cw := some 4 }

theorem wit_encode : ∃ w, encode (.add g0 12 (x 9) (x 10)) = some w ∧ decodeWord w = .ok (.add g0 12 (x 9) (x 10)) :=
  ⟨0x1000C090A000000000000000, by decide +kernel, by with_unfolding_all rfl⟩

theorem wit_stepKeeps : (State.reset.withFetchWord 96 0).tablesWf = true ∧ ∃ t, step (State.reset.withFetchWord 96 0) = .next t := by
  rw [exists_next]; decide +kernel

theorem wit_guardRules : s0.me.pCell 1 = .full true ∧ s0.me.pCell 3 = .dead ∧ s0.me.deadmode.getLsbD 0 = false ∧
    s0.me.pCell 4 = .empty dueMarks ∧ guardIn (.br ⟨true, 1⟩ 8) = some ⟨true, 1⟩ ∧ s0.guardTrue ⟨true, 1⟩ = .ok false ∧
    s0.guardTrue ⟨false, 2⟩ = .ok false ∧ s0.guardTrue ⟨false, 4⟩ = .error (.wait (.reg 82)) := by
  simp only [ok_iff, wait_iff]; decide +kernel

/-- x0; FULL, DEAD, EMPTY and CATCH registers; DEADMODE; an orphan; a port with a word, one without, and one already taken. -/
def sPorts : State := (st fun t => { t with
  xlo := [.full 5, .catching 4 (1, 0), .empty orphanMarks, .dead, due, .full 3, .full (-1)], deadmode := 1 }).modCore 0 fun c =>
    { c with inbox := [{ target := ownName 1 1, tag := 2, data := 9, sender := 4, reason := 0 }] }

theorem wit_operandRules : (s0.me.xCell (xIndex s0.me.wstate 1) = .full 5 ∧ s0.me.xCell (xIndex s0.me.wstate 4) = .dead ∧
    s0.me.deadmode.getLsbD 0 = false ∧ sPorts.me.xCell (xIndex sPorts.me.wstate 4) = .dead ∧ sPorts.me.deadmode.getLsbD 0 = true ∧
    sPorts.me.xCell (xIndex sPorts.me.wstate 2) = .catching 4 (1, 0) ∧
    sPorts.me.xCell (xIndex sPorts.me.wstate 3) = .empty orphanMarks ∧ sPorts.me.xCell (xIndex sPorts.me.wstate 5) = .empty dueMarks ∧
    (sPorts.portWord sPorts.cur 2).map (·.data) = some 9 ∧ sPorts.portWord sPorts.cur 3 = none ∧ sPorts.rd.took = [] ∧
    (sPorts.slot 1).xCell 2 = .empty orphanMarks ∧ (sPorts.slot 1).xCell 4 = .empty dueMarks) ∧
    ((0, 7) ∈ (⟨sPorts, [(0, 7)]⟩ : Rd).took ∧ ∀ w', (0, w') ∈ (⟨sPorts, [(0, 7)]⟩ : Rd).took → w' = (7 : Word)) ∧
    (∀ m, (sPorts.slot 1).xCell 78 ≠ .empty m) := by
  have h : (sPorts.slot 1).xCell 78 = .dead := by decide +kernel
  refine ⟨by decide +kernel, ⟨by simp, by simp⟩, fun m => ?_⟩
  rw [h]
  exact nofun

theorem wit_destination : (sPorts.me.xCell (xIndex sPorts.me.wstate 1)).open_ ∧ (sPorts.me.xCell (xIndex sPorts.me.wstate 31)).open_ ∧
    sPorts.me.xCell (xIndex sPorts.me.wstate 5) = .empty dueMarks ∧
    sPorts.me.xCell (xIndex sPorts.me.wstate 3) = .empty orphanMarks := by
  have h1 : sPorts.me.xCell (xIndex sPorts.me.wstate 1) = .full 5 := by decide +kernel
  have h2 : sPorts.me.xCell (xIndex sPorts.me.wstate 31) = .dead := by decide +kernel
  refine ⟨?_, ?_, by decide +kernel, by decide +kernel⟩
  · rw [h1]; trivial
  · rw [h2]; trivial

/-- A pending asynchronous trap of cause 19 beside one of cause 21; a handler that runs; vectors of 0 and of no slot. -/
def sPend : State := st fun t => { t with pend := [(21, 0), (19, 7)] }
def sInh : State := st fun t => { t with estat := 1, epc := 0x30000 }
def sNoVec : State := stT { svcSet with tsvec := 0 } id
def sBadVec : State := stT { svcSet with tsvec := 0x20006 } id

theorem wit_traps : s0.trapsLand 1 ∧ (s0.slot 1).st = .active ∧ (sInh.slot 1).inh = true ∧ (sNoVec.slot 1).inh = false ∧
    (sNoVec.slotSet 1).tsvec = 0 ∧ (sBadVec.slotSet 1).tsvec ≠ 0 ∧ pcOk (sBadVec.slotSet 1).tsvec = false ∧ s0.codeFills = [] ∧
    (sPend.slot 1).st = .active ∧ (sPend.slot 1).inh = false ∧ (sPend.slot 1).stopped = false ∧ (19, 7) ∈ (sPend.slot 1).pend ∧
    (∀ p ∈ (sPend.slot 1).pend, p = (19, 7) ∨ 19 < p.1) ∧ pcOk (st fun t => { t with pc := 0x10005 }).me.pc = false := by
  simp only [State.trapsLand]; decide +kernel

/-- Slot 1 lost a moored reference of register 2 (cause 16), in a running device; the slot that was selected a clock ago. -/
def sLost : State := st fun t => { t with pend := [(21, 0), (16, 0)], lost := some (2, 3) }

theorem wit_deliver : s0.phase = .up ∧ sLost.pick 0 = some (1, 0) ∧ (sLost.slot 1).inh = false ∧
    stallDone (sLost.slot 1).stall = false ∧ (16, 0) ∈ (sLost.slot 1).pend ∧
    (∀ p ∈ (sLost.slot 1).pend, p = (16, 0) ∨ 16 < p.1) ∧ (sLost.slot 1).lost = some (2, 3) ∧ sPend.pick 0 = some (1, 0) ∧
    stallDone (sPend.slot 1).stall = false ∧ sPend.phase = .up ∧ (st fun t => { t with lastSel := 99 }).pick 0 = none := by
  decide +kernel

/-- A selection of core 0 that issues NOP from slot 1, and one of the pair ADD x9, x1, x2 with BR to the line itself. -/
def sNop : State := State.reset.withFetchWord 96 0
def pairA : BitVec 96 := 0x100090102000000000000000
def pairB : BitVec 96 := 0x004000000000000000000000
def sPair : State :=
  let lw : Nat := (if parityNat 96 pairA.toNat then 2 ^ 26 else 0) + (if parityNat 96 pairB.toNat then 2 ^ 27 else 0) + 2 ^ 5 + 1
  (State.reset.withFetchWord 96 0).modQuire 0 fun q => { q with code := q.code.map fun l =>
    { l with bytes := BitVec.ofNat 512 (lw + pairA.toNat * 2 ^ 32 + pairB.toNat * 2 ^ 128) } }
def uNop : State := ({ sNop with sched := [] } : State).clearMarks.selected 1 0
def uPair : State := ({ sPair with sched := [] } : State).clearMarks.selected 1 0
def lNop : CodeLine := ((uNop.quire uNop.myQuire).lineAt uNop.mySpace (pcLine uNop.me.pc)).getD (probeCode 96 0)
def lPair : CodeLine := ((uPair.quire uPair.myQuire).lineAt uPair.mySpace (pcLine uPair.me.pc)).getD (probeCode 96 0)
def tPair : State := nextOf (exec (.add g0 9 (x 1) (x 2)) uPair.usedLine)

theorem wit_select : sNop.sched = .select 0 :: [] ∧ sNop.phase = .up ∧ ({ sNop with sched := [] } : State).clearMarks.pick 0 = some (1, 0) ∧
    uNop.me.lease ≠ some 16 ∧ uNop.me.pend = [] ∧ uNop.waitTrap = none ∧ pcOk uNop.me.pc = true ∧ pcAddr uNop.me.pc = .ok () ∧
    (uNop.quire uNop.myQuire).lineAt uNop.mySpace (pcLine uNop.me.pc) = some lNop ∧ lNop.again = [] ∧ lNop.bad = false ∧
    lNop.entry 0 = true ∧ lNop.word.extractLsb' 9 17 = 0 ∧ decodeWord (lNop.ins 0) = .ok (.nop g0) ∧ lNop.pair 0 = false ∧
    lNop.passes [0] = true := by
  have h : lNop.ins 0 = 0 := by decide +kernel
  have hd : decodeWord 0 = .ok (.nop g0) := by with_unfolding_all rfl
  simp only [h, hd, ok_iff, true_and]
  decide +kernel

theorem wit_pair : sPair.sched = .select 0 :: [] ∧ ({ sPair with sched := [] } : State).clearMarks.pick 0 = some (1, 0) ∧
    (uPair.quire uPair.myQuire).lineAt uPair.mySpace (pcLine uPair.me.pc) = some lPair ∧ lPair.entry 0 = true ∧
    lPair.word.extractLsb' 9 17 = 0 ∧ lPair.ins 0 = pairA ∧ lPair.ins 1 = pairB ∧ decodeWord pairA = .ok (.add g0 9 (x 1) (x 2)) ∧
    decodeWord pairB = .ok (.br g0 0) ∧ lPair.pair 0 = true ∧ lPair.passes [0, 1] = true ∧ pairOk pairA pairB = true ∧
    uPair.usedLine.aDone tPair = true ∧ (∃ v, exec (.br g0 0) tPair = .next v) ∧
    tPair.standsStill (nextOf (exec (.br g0 0) tPair)) = false := by
  have ha : decodeWord pairA = .ok (.add g0 9 (x 1) (x 2)) := by with_unfolding_all rfl
  have hb : decodeWord pairB = .ok (.br g0 0) := by with_unfolding_all rfl
  simp only [ha, hb, exists_next, true_and]
  decide +kernel

/-- A handler whose EPC is usable, and one whose is not. -/
theorem wit_rte : s0.guardTrue g0 = .ok true ∧ s0.me.inh = false ∧ sInh.me.inh = true ∧ pcOk sInh.me.epc = true ∧
    (st fun t => { t with estat := 1, epc := 0x30007 }).me.inh = true ∧
    pcOk (st fun t => { t with estat := 1, epc := 0x30007 }).me.epc = false ∧
    ∃ t, s0.put 9 (BitVec.ofNat 64 s0.cyc) = .ok t := by
  simp only [exists_ok]; simp only [ok_iff]; decide +kernel

/-- The code of the test thread: its line is held, slot 0 is an entry and slot 1 none; x1 holds its PC; three octets are in use. -/
def sCode : State := (st fun t => { t with
    xlo := [.full 0x10000, .full 0x10001, .dead, .dead, .dead, .dead, .dead]
    wstate := mkWstate (setTag (setTag 0 0 2) 1 2) 2 2 }).modQuire 0 fun q => { q with code := [probeCode 96 0] }
/-- A window that is full. -/
def sDeep : State := (st fun t => { t with wstate := mkWstate 0 6 0 }).modQuire 0 fun q => { q with code := [probeCode 96 0] }

theorem wit_transfers : (0x10003 : Word).toNat % 8 < 4 ∧ 4 ≤ (0x10004 : Word).toNat % 8 ∧ sCode.guardTrue g0 = .ok true ∧
    sCode.targetLine (branchTarget sCode.me.pc 0) (probeCode 96 0) ∧ (probeCode 96 0).entry 0 = true ∧
    sCode.targetLine (branchTarget sCode.me.pc 1) (probeCode 96 0) ∧ (probeCode 96 0).entry 1 = false ∧
    sCode.operands g0 [x 1] [0x10000] (after sCode [x 1]) ∧ (after sCode [x 1]).targetLine 0x10000 (probeCode 96 0) ∧
    (after sCode [x 1]).running ∧ depthOf s0.me.wstate = 0 ∧ depthOf sCode.me.wstate = 2 ∧ (after sCode [x 1]).me.fills = [] ∧
    tagOf sCode.me.wstate ((wbOf sCode.me.wstate + 8) % 9) = 2 ∧
    (∀ j ∈ (List.range 2).flatMap fun i => octetRegs ((wbOf sCode.me.wstate + 3 - 2 + i) % 9), sCode.pendingAt sCode.cur j = false) ∧
    6 < depthOf sDeep.me.wstate + (1 : BitVec 2).toNat ∧ depthOf sCode.me.wstate + (3 : BitVec 2).toNat ≤ 6 := by
  simp only [ok_iff, operands_iff, State.targetLine, State.running]; decide +kernel

/-- A target whose entry bit is clear, of each transfer that reads one. -/
theorem wit_bad_entry : sCode.operands g0 [x 2] [0x10001] (after sCode [x 2]) ∧ sCode.targetLine 0x10001 (probeCode 96 0) ∧
    (after sCode [x 2]).targetLine 0x10001 (probeCode 96 0) ∧ (probeCode 96 0).entry (pcSlot 0x10001) = false := by
  simp only [operands_iff, ok_iff, State.targetLine]; decide +kernel

/-- x1 pends over identifier 4, x3 over none, x4 is CATCH over 4, x5 over 9; x2 is 7. -/
def marksOf (c : Option Nat) : Marks := { reply := true, drop := false, fatal := false, cw := c }
def sBound (used : List Nat) : State := (st fun t => { t with
  xlo := [.empty (marksOf (some 4)), .full 7, .empty (marksOf none), .catching 4 (2, 1), .catching 9 (1, 0), .dead, .dead] }).modCore 0 fun c =>
    { c with cwUsed := used }
theorem pend_bound : (sBound [4]).pendPair (some 4) (x 1) (1, 0) :=
  ⟨by decide, by decide, rfl, .inl ⟨marksOf (some 4), by decide +kernel, rfl, rfl⟩⟩
theorem pend_catch : (sBound [4]).pendPair (some 4) (x 4) (2, 1) :=
  ⟨by decide, by decide, rfl, .inr ⟨4, rfl, by decide +kernel⟩⟩
theorem pend_other : (sBound [4]).pendPair (some 9) (x 5) (1, 0) :=
  ⟨by decide, by decide, rfl, .inr ⟨9, rfl, by decide +kernel⟩⟩
theorem pend_none (l : List Nat) : (sBound l).pendPair none (x 3) (1, 0) :=
  ⟨by decide, by decide, rfl, .inl ⟨marksOf none, rfl, rfl, rfl⟩⟩
theorem full_two (l : List Nat) : (sBound l).fullPair (x 2) (0, 7) := ⟨by decide, rfl, rfl⟩
/-- ADD x9 over x1 and x2, MUL over x4 with itself, ADD over x3 with a free identifier and with none. -/
theorem wit_compose : affForm (.add g0 9 (x 1) (x 2)) = some { g := g0, d := 9, srcs := [x 1, x 2], pair := fun p q => (p.1 + q.1, p.2 + q.2) } ∧
    (∃ f, affForm (.mul g0 9 (x 4) (x 4)) = some f ∧ f.both = true) ∧
    (sBound [4]).pairs (some 4) [x 1, x 2] [(1, 0), (0, 7)] ∧ (sBound [4]).pairs (some 4) [x 4, x 4] [(2, 1), (2, 1)] ∧
    (∀ l, (sBound l).pairs none [x 3, x 2] [(1, 0), (0, 7)]) ∧ 4 ∈ (((sBound [4]).killXs [x 1, x 2]).core 0).cwUsed ∧
    (((sBound [4]).killXs [x 1, x 2]).me.xCell (xIndex 0 9)).open_ ∧ 0 ∉ ((sBound [4]).core 0).cwUsed ∧
    (sBound [4]).me.xCell (xIndex 0 3) = .empty (marksOf none) ∧
    (((sBound (List.range 512)).core 0).cwUsed = List.range 512 ∧ ∀ n, n < 512 → n ∈ List.range 512) := by
  refine ⟨rfl, ⟨_, rfl, rfl⟩, ⟨rfl, ⟨_, List.mem_cons_self, pend_bound⟩, ?_⟩, ⟨rfl, ⟨_, List.mem_cons_self, pend_catch⟩, ?_⟩,
    fun l => ⟨rfl, ⟨_, List.mem_cons_self, pend_none l⟩, ?_⟩, by decide +kernel, trivial, by decide +kernel, by decide +kernel,
    ?_, fun n hn => List.mem_range.2 hn⟩
  · simpa using ⟨.inr pend_bound, .inl (full_two _)⟩
  · simpa using .inr pend_catch
  · simpa using ⟨.inr (pend_none l), .inl (full_two l)⟩
  · decide +kernel
theorem wit_two_identifiers : (sBound [4]).pendPair (some 4) (x 4) (2, 1) ∧ (sBound [4]).pendPair (some 9) (x 5) (1, 0) ∧
    (∃ e, readXs 0 [x 4, x 5] (sBound [4]).rd = .error e) := ⟨pend_catch, pend_other, _, rfl⟩

/-- ADD of two registers, one killed, into x31 and into a port; a register read in place of the second source. -/
theorem wit_integer : intCalc (.add g0 31 (x 1) (xk 2)) = some ⟨g0, 31, [x 1, xk 2], fun a b => a + b⟩ ∧ s0.running ∧
    s0.operands g0 [x 1, xk 2] [5, 7] (after s0 [x 1, xk 2]) ∧ (∃ t, (after s0 [x 1, xk 2]).put 31 12 = .ok t) ∧
    (∃ t, (after s0 [x 1, xk 2]).put 56 12 = .ok t) := by
  refine ⟨rfl, ?_⟩
  simp only [exists_ok, operands_iff, State.running]; decide +kernel

theorem wit_reads : readCalc s0 (.cwfree g0 9) = some ⟨g0, 9, [], fun _ _ => BitVec.ofNat 64 (512 - (s0.core (s0.cur / 256)).cwUsed.length)⟩ ∧
    s0.operands g0 [] [] (after s0 []) ∧ (∃ t, (after s0 []).put 9 512 = .ok t) ∧ sysPriv 0x016 = false ∧ sysPriv 0x096 = true ∧
    (s0.slotSet s0.cur).service = true ∧ (∃ t, s0.put 9 (s0.sysRead 0x094) = .ok t) := by
  refine ⟨rfl, ?_⟩
  simp only [exists_ok, operands_iff]; decide +kernel

/-- A thread that holds a lease: v registers FULL and CATCH. -/
def sShow : State := st fun t => { t with lease := some 0, v := .full 5 :: .catching 3 [] :: List.replicate 14 .dead }
/-- A debugger reads registers in every state. -/
theorem wit_debug : (sPorts.slot 1).xCell 0 = .full 5 ∧ (sPorts.slot 1).xCell 1 = .catching 4 (1, 0) ∧
    (sPorts.slot 1).xCell 2 = .empty orphanMarks ∧ (sPorts.slot 1).xCell 3 = .dead ∧ (sPorts.slot 1).pCell 1 = .full true ∧
    (sShow.slot 1).lease ≠ none ∧ (sShow.slot 1).vCell 0 = .full 5 ∧ (sShow.slot 1).vCell 1 = .catching 3 [] := by decide +kernel

/-- The operands of a predicate instruction: p1 and p2. -/
theorem wit_predicates : (∃ u, s0.operandsP g0 (x 1) (xk 2) true false u) ∧ (∃ r, readP 0 (x 1) s0.rd = .ok (true, r)) ∧
    (∃ t, s0.writeP 7 true = .ok t) ∧ (∃ t, s0.writeP 0 true = .ok t) := by
  have h1 : readP 0 (x 1) s0.rd = .ok (true, s0.rd) := by with_unfolding_all rfl
  have h2 : readP 1 (xk 2) s0.rd = .ok (false, s0.rd) := by with_unfolding_all rfl
  refine ⟨⟨_, by with_unfolding_all rfl, _, _, h1, h2, rfl⟩, ⟨_, h1⟩, ?_⟩
  simp only [exists_ok]; decide +kernel

/-- A divider with room, and one that is full. -/
def sDiv : State := s0.modCore 0 fun c => { c with
  div := List.replicate 8 { slot := 1, gen := 1, reg := 9, value := 0, at_ := 200 } }
theorem wit_divider : s0.operands g0 [x 1, x 0] [5, 0] (after s0 [x 1, x 0]) ∧
    (((after s0 [x 1, x 0]).core 0).div.filter fun o => decide (100 < o.at_)).length < 8 ∧ (after s0 [x 1, x 0]).cyc = 100 ∧
    (∃ w, (after s0 [x 1, x 0]).emptyXj (xIndex (after s0 [x 1, x 0]).me.wstate 9) = .ok w) ∧
    sDiv.operands g0 [x 1, x 2] [5, 7] (after sDiv [x 1, x 2]) ∧
    8 ≤ (((after sDiv [x 1, x 2]).core 0).div.filter fun o => decide (100 < o.at_)).length ∧ (after sDiv [x 1, x 2]).cyc = 100 := by
  simp only [exists_ok, operands_iff]; decide +kernel

theorem wit_compare : s0.operands g0 [x 1, x 2] [5, 7] (after s0 [x 1, x 2]) ∧ (∃ t, (after s0 [x 1, x 2]).writeP 7 true = .ok t) ∧
    s0.operands g0 [x 1] [5] (after s0 [x 1]) ∧ (∃ t, (after s0 [x 1]).writeP 7 false = .ok t) ∧ s0.guardTrue g0 = .ok true ∧
    readX 0 (x 3) s0.rd = .error (.wait (.reg 2)) ∧ readX 1 (x 3) s0.rd = .error (.wait (.reg 2)) ∧
    (∃ r, readX 0 (x 1) s0.rd = .ok (5, r)) ∧ s0.running ∧ s0.me.p.length = 7 ∧
    (0x17C0000000000C0000000000 : BitVec 96).extractLsb' 86 10 = 0x5F ∧
    12 ≤ ((0x17C0000000000C0000000000 : BitVec 96).extractLsb' 40 4).toNat := by
  have h : readX 0 (x 1) s0.rd = .ok (5, s0.rd) := by with_unfolding_all rfl
  have hr : ∃ r, readX 0 (x 1) s0.rd = .ok (5, r) := ⟨_, h⟩
  simp only [operands_iff, exists_ok, hr, true_and]
  simp only [ok_iff, wait_iff, State.running]
  decide +kernel

theorem wit_select_sources : s0.guardTrue ⟨false, 2⟩ = .ok false ∧ s0.guardTrue g0 = .ok true ∧
    (∃ r r' r'' t, readX 0 (x 1) s0.rd = .ok (5, r) ∧ readX 1 (x 2) r = .ok (7, r') ∧ readP 2 (x 2) r' = .ok (false, r'') ∧
      ((r''.s.killXs [x 1, x 2]).killPs [x 2]).put 9 7 = .ok t) ∧ readX 0 (x 3) s0.rd = .error (.wait (.reg 2)) ∧
    readX 1 (x 3) s0.rd = .error (.wait (.reg 2)) := by
  have h1 : readX 0 (x 1) s0.rd = .ok (5, s0.rd) := by with_unfolding_all rfl
  have h2 : readX 1 (x 2) s0.rd = .ok (7, s0.rd) := by with_unfolding_all rfl
  have h3 : readP 2 (x 2) s0.rd = .ok (false, s0.rd) := by with_unfolding_all rfl
  obtain ⟨t, h4⟩ := (exists_ok (((s0.killXs [x 1, x 2]).killPs [x 2]).put 9 7)).2 (by decide +kernel)
  exact ⟨by rw [ok_iff]; decide +kernel, by rw [ok_iff]; decide +kernel, ⟨_, _, _, t, h1, h2, h3, h4⟩,
    by rw [wait_iff]; decide +kernel, by rw [wait_iff]; decide +kernel⟩

/-- A completed ADD, a waiting one, one that traps on a DEAD source, and a vector sum. -/
theorem wit_frame : regForm (.add g0 9 (x 1) (xk 2)) = some ⟨g0, [x 1, xk 2], [], [], 9, 0, none⟩ ∧ s0.running ∧ s0.trapsLand s0.cur ∧
    (s0.me.xCell 0).settled ∧ ¬ s0.namesX 9 0 ∧ (s0.me.pCell 1).settled ∧ (s0.me.vCell 3).settled ∧
    (∃ t, exec (.add g0 9 (x 1) (xk 2)) s0 = .next t) ∧ guardIn (.st g0 (x 1) (x 2) .b64 0) = some g0 ∧
    (∃ t, exec (.st g0 (x 1) (x 2) .b64 0) s0 = .next t) := by
  have hx : s0.me.xCell 0 = .full 5 := by decide +kernel
  have hp : s0.me.pCell 1 = .full true := by decide +kernel
  have hv : s0.me.vCell 3 = .dead := by decide +kernel
  have hs : (s0.me.xCell 0).settled ∧ (s0.me.pCell 1).settled ∧ (s0.me.vCell 3).settled := by
    simp [hx, hp, hv, Cell.settled]
  simp only [hs, exists_next, State.running, State.trapsLand, State.namesX, true_and]
  exact ⟨rfl, by decide +kernel⟩

end Sys2Proof.Tests

namespace Sys2Proof.Tests
open Sys2Proof Sys2Proof.Machine

/-! ### The hypotheses of the statements on memory instructions are met -/

/-- A page that may be written, one that may not, and one of another package's words. -/
def memPage : TlbEntry := {
  space := 0, va := 0x100000, size := 65536, pa := 0x200000, r := true, w := true, sa := false, sp := false, hisle := 0 }
def roPage : TlbEntry := { memPage with va := 0x110000, pa := 0x210000, w := false }
/-- x1 names a word of a page, x2 is 7, x5 a word of a page that may not be written, x6 a word of package 3, x7 all ones. -/
def memT (f : Slot → Slot) : State := (st fun t => f { t with
  xlo := [.full 0x100080, .full 7, due, .dead, .full 0x110000, .full (0x80000000000040 + 3 * 2 ^ 43), .full (-1)] }).modCore 0 fun c =>
    { c with tlb := [memPage, roPage] }
def sMem : State := memT id
/-- As `sMem`, but x1 names a word of the package itself by its global address, x6 one of the scratchpad window. -/
def sOwn : State := memT fun t => { t with
  xlo := [.full 0x80000000000040, .full 7, due, .dead, .full 0x80000000000044, .full 0x007F000000000040, .full (-1)] }
/-- `sMem` with a store to the word at x1 in the store buffer, and one with a full store buffer. -/
def sStored : State := nextOf (exec (.st g0 (x 1) (x 7) .b64 0) sMem)
def sFullSb : State := sMem.modCore 0 fun c => { c with
  sb := List.replicate 32 { id := 1, slot := 1, gen := 1, va := 0, home := 0, bytes := [], readers := [] } }

theorem ready_x (d : Dst) (u : State) : (∃ v, (Dest.x d).ready u v) ↔ (d ≠ 0 ∧ okB (u.emptyXj (xIndex u.me.wstate d.toNat)) = true) := by
  simp [Dest.ready, ← exists_ok]

theorem wit_localRef : localRef (.ldf g0 9 (x 1) 0) = some ⟨g0, [x 1], .x 9, setL, baseDisp 0, 8, fun _ => .ldf, false, false, 0⟩ ∧
    sMem.operands g0 [x 1] [0x100080] (after sMem [x 1]) ∧ localAddr 0x100080 8 ∧ localAddr 0x100080 128 ∧
    inWindow (0x100080 : Word).toNat = false ∧ (after sMem [x 1]).fenceHolds 1 setL = false ∧
    (∃ v, (Dest.x 9).ready (after sMem [x 1]) v) ∧ sMem.locate sMem.cur (0x100080 : Word).toNat true true = .home 0x200080 0 ∧
    sMem.me.redcnt < 16 ∧ sMem.running := by
  refine ⟨rfl, ?_⟩
  simp only [operands_iff, localAddr, ready_x, State.running]; decide +kernel

/-- LD to x0 is a touch: of a page that is translated, one that denies a write, one with a live fault entry, and with REDCNT full. -/
def sParked : State := (sMem.setFault 0 5 { FaultEnt.init with space := 0, page := 0x12 }).modSlot 1 fun t => { t with
  xlo := [.full 0x120000, .full 7, due, .dead, .full 0x110000, .full 0, .full (-1)] }
def sFullCnt : State := memT fun t => { t with redcnt := 16 }
theorem wit_touch : touchRef (.ld g0 0 (x 1) .b64 false 0) =
      some ⟨g0, [x 1], .none, setL, baseDisp 0, 8, fun _ => .touch true false, false, true, 0⟩ ∧
    (∃ c, touchRef (.ldfe g0 0 (x 5) 0) = some c) ∧ (∃ c, touchRef (.aadd g0 0 (x 5) (x 2) .b64 0) = some c) ∧
    (∃ c, touchRef (.tagrd g0 0 (x 1) true 0) = some c) ∧
    (after sMem [x 1]).fenceHolds 1 setL = false ∧ sMem.me.redcnt < 16 ∧ 16 ≤ sFullCnt.me.redcnt ∧
    opCheck sFullCnt g0 [x 1] [0x100080] = true ∧ opCheck sParked g0 [x 1] [0x120000] = true ∧
    sMem.locate 1 0x100080 true false = .home 0x200080 0 ∧ sMem.locate 1 0x110000 true true = .deny ∧
    sParked.locate 1 0x120000 true false = .fault 0 5 := by
  refine ⟨rfl, ⟨_, rfl⟩, ⟨_, rfl⟩, ⟨_, rfl⟩, ?_⟩
  decide +kernel

/-- `sMem` with an LDFE of the word at x1 on its way: a later load of the word is behind it. -/
def sBehind : State := nextOf (exec (.ldfe g0 9 (x 1) 0) sMem)
/-- `sMem` with a load of the word at x1 on its way. -/
def sBehindLd : State := nextOf (exec (.ld g0 9 (x 1) .b64 false 0) sMem)
/-- LD of the word at x1 is behind an access of its slot. -/
def behindLd (s : State) : Bool := (s.accs.any fun a => a.slot == s.cur && decide (a.gen = s.me.gen) &&
    spansMeet a.words [spanOf 0x200080 8, vaSpan 0x100080 8] &&
    !(s.core (s.cur / 256)).sb.any fun e => e.id == a.id || e.readers.contains a.id) ||
  s.manyAhead s.serial s.cur s.me.gen [spanOf 0x200080 8, vaSpan 0x100080 8]
theorem wit_loads : sMem.operands g0 [x 1] [0x100080] (after sMem [x 1]) ∧ localAddr 0x100080 8 ∧
    (after sMem [x 1]).fenceHolds 1 setL = false ∧ okB ((after sMem [x 1]).emptyXj (xIndex 0 9)) = true ∧
    sMem.locate sMem.cur (0x100080 : Word).toNat true false = .home 0x200080 0 ∧
    (∃ n, n < 8 ∧ ∀ e ∈ (sMem.core 0).sb, 0x200080 + n < e.home ∨ e.home + e.bytes.length ≤ 0x200080 + n) ∧
    sStored.operands g0 [x 1] [0x100080] (after sStored [x 1]) ∧
    (∀ n, n < 8 → newestByte (sStored.core 0).sb (0x200080 + n) = (List.replicate 8 (255 : Byte))[n]?) ∧
    behindLd sMem = false ∧ behindLd sStored = false ∧ behindLd sBehind = true ∧ behindLd sBehindLd = true ∧
    sBehind.operands g0 [x 1] [0x100080] (after sBehind [x 1]) ∧ okB ((after sBehind [x 1]).emptyXj (xIndex 0 10)) = true := by
  have h : ∃ n, n < 8 ∧ ∀ e ∈ (sMem.core 0).sb, 0x200080 + n < e.home ∨ e.home + e.bytes.length ≤ 0x200080 + n :=
    ⟨7, by decide +kernel⟩
  simp only [operands_iff, localAddr, h, true_and]
  decide +kernel

theorem wit_stores : sMem.operands g0 [x 1, x 7] [0x100080, -1] (after sMem [x 1, x 7]) ∧ (after sMem [x 1, x 7]).fenceHolds 1 setS = false ∧
    sMem.locate sMem.cur (0x100080 : Word).toNat false true = .home 0x200080 0 ∧ (sMem.core 0).sb.length < 32 ∧
    sFullSb.operands g0 [x 1, x 7] [0x100080, -1] (after sFullSb [x 1, x 7]) ∧ 32 ≤ (sFullSb.core 0).sb.length := by
  simp only [operands_iff]; decide +kernel

theorem wit_remote : sOwn.operands g0 [x 1, x 2] [0x80000000000040, 7] (after sOwn [x 1, x 2]) ∧ globalAddr 0x80000000000040 8 ∧
    sMem.operands g0 [x 6, x 2] [0x80180000000040, 7] (after sMem [x 6, x 2]) ∧
    (after sOwn [x 1, x 2]).fenceHolds 1 setR = false ∧ (after sOwn [x 1, x 2]).elemsBefore 1 1 0 0 = false ∧
    (after sOwn [x 1, x 2]).manyAhead (after sOwn [x 1, x 2]).serial 1 1 [farSpan 0x80000000000040] = false ∧
    (after sOwn [x 1, x 2]).meshFull ((after sOwn [x 1, x 2]).gatherIsle 1 0) 0 = false ∧
    okB ((after sOwn [x 1, x 2]).emptyXj (xIndex 0 9)) = true ∧ sOwn.canReach 0 0 = true ∧ sMem.canReach 3 0 = false ∧
    sOwn.me.redcnt < 16 ∧ sOwn.me.queued + sOwn.me.unacked < 4096 ∧ (after sOwn [x 1, x 2]).running := by
  simp only [operands_iff, globalAddr, State.running]; decide +kernel

theorem wit_tagset : sMem.operands g0 [x 1, x 2] [0x100080, 7] (after sMem [x 1, x 2]) ∧
    sMem.operands g0 [x 1, x 0] [0x100080, 0] (after sMem [x 1, x 0]) ∧ sMem.operands g0 [x 1, x 7] [0x100080, -1] (after sMem [x 1, x 7]) ∧
    2 ^ 56 < (0x100080 : Word).toNat + 8 * (-1 : Word).toNat ∧ (after sMem [x 1, x 2]).fenceHolds 1 setS = false ∧
    okB ((after sMem [x 1, x 2]).emptyXj (xIndex 0 9)) = true ∧
    sMem.locate sMem.cur (0x100080 : Word).toNat false true = .home 0x200080 0 := by
  simp only [operands_iff]; decide +kernel

theorem wit_addresses : sMem.operands g0 [x 7] [-1] (after sMem [x 7]) ∧ 2 ^ 56 ≤ (baseDisp 0 [-1]).toNat ∧
    sMem.operands g0 [x 1] [0x100080] (after sMem [x 1]) ∧ (baseDisp 4 [0x100080]).toNat % 8 ≠ 0 ∧
    sOwn.operands g0 [x 6, x 2] [0x007F000000000040, 7] (after sOwn [x 6, x 2]) ∧ inWindow (baseDisp 0 [0x007F000000000040]).toNat = true ∧
    (after sMem [x 7]).fenceHolds 1 setL = false ∧ (after sMem [x 7]).fenceHolds 1 setR = false := by
  simp only [operands_iff]; decide +kernel

/-- LDF and TAGSET of a global address; PARK and FOLD of words, leaves and extensions that are far, misaligned, and in order; SPLD
beyond the scratchpad and off its width. -/
def sFar : State := memT fun t => { t with
  xlo := [.full 0x100080, .full 0x100084, .full 0x80000000000040, .full 0x1FFFFF, .full 0x110000, .full 0x200000, .full (-1)] }
theorem wit_address_forms : (∃ c, addrForm (.ldf g0 9 (x 3) 0) = some c ∧ c.localOnly = true) ∧
    (∃ c, addrForm (.tagset g0 9 (x 3) (x 2) true) = some c ∧ c.localOnly = true) ∧
    (∃ c, addrForm (.enq g0 9 (x 6) (x 2) 0) = some c ∧ c.dram = true) ∧ 2 ^ 55 ≤ (0x80000000000040 : Word).toNat ∧
    opCheck sFar g0 [x 3] [0x80000000000040] = true ∧
    (∀ v ∈ [(x 3, 0x80000000000040), (x 2, 0x100084), (x 1, 0x100080)], opCheck sFar g0 [v.1, x 5, x 0] [v.2, 0x110000, 0] = true ∧
      opCheck sFar g0 [x 1, v.1, x 0] [0x100080, v.2, 0] = true ∧ opCheck sFar g0 [x 5, x 0, v.1] [0x110000, 0, v.2] = true) ∧
    localAddr 0x110000 64 ∧ localAddr 0x100080 8 ∧ (0x100084 : Word).toNat % 64 ≠ 0 ∧
    opCheck sFar g0 [x 6] [0x200000] = true ∧ 2 ^ 21 ≤ (0x200000 : Word).toNat ∧ opCheck sFar g0 [x 4, x 2] [0x1FFFFF, 0x100084] = true ∧
    (baseDisp 0 [0x1FFFFF]).toNat % widthBytes .b16 ≠ 0 ∧ sFar.guardClear := by
  refine ⟨⟨_, rfl, rfl⟩, ⟨_, rfl, rfl⟩, ⟨_, rfl, rfl⟩, ?_⟩
  simp only [localAddr, State.guardClear]
  decide +kernel

/-- A page that denies writes, one that has no translation, one with an open fault entry. -/
def sFault : State := sMem.setFault 0 5 { FaultEnt.init with space := 0, page := 0x12 }
theorem wit_translation : sMem.locate 1 0x110000 false true = .deny ∧ sMem.locate 1 0x120000 true false = .walk ∧
    sMem.locate 1 0x100080 true false = .home 0x200080 0 ∧ inWindow 0x007F000000000040 = true ∧ inWindow 0x100080 = false ∧
    tlbFind (sMem.core 0).tlb 0 0x100080 = some memPage ∧ tlbFind (sFault.core 0).tlb 0 0x120000 = none ∧ tlbFind (sFault.isle 0).tlb 0 0x120000 = none ∧
    (sFault.isle 0).findFault 0 (0x120000 / 65536 % 2 ^ 39) = some 5 := by decide +kernel

end Sys2Proof.Tests

namespace Sys2Proof.Tests
open Sys2Proof Sys2Proof.Machine

/-! ### The hypotheses of the statements on memory at its home are met -/

/-- The state after instruction `i` of the test thread has sent its reference, on a word that holds `v` with presence `f`. -/
def sent (i : Instr) (v : Word) (f : Bool) : State := nextOf (exec i ((sMem.writeWord 0x200080 v).setF 0x200080 f))
/-- The reference that came first. -/
def ref0 (s : State) : Ref := s.refs.headD {
  id := 0, slot := 0, gen := 0, tsid := 0, num := 9, job := 0, space := 0, va := 0, isle := 0, home := 0, dst := .none, op := .ldf, limit := 0
  counted := false }

/-- Whether reference 0 is at its home. -/
def home0 (s : State) : Bool := decide (s.refs[0]? = some (ref0 s) ∧ (ref0 s).home ≠ unplaced ∧ s.refHeld (ref0 s) = false ∧
  s.spRefused (ref0 s).home (ref0 s).op.len = none ∧ s.isBroken (ref0 s).home (ref0 s).op.len = false)

theorem atHome_iff (s : State) : s.atHomeNow 0 (ref0 s) ↔ home0 s = true := by
  simp [State.atHomeNow, home0]

def sLoad : State := sent (.ld g0 9 (x 1) .b32 true 0) 0x80000001 false
def sAdd : State := sent (.aadd g0 9 (x 1) (x 2) .b64 0) (-1) false
def sCas : State := sent (.acas g0 9 (x 1) (x 2) (x 7) .b64 0) 8 false
def sRed : State := sent (.redadd g0 (x 1) (x 2) .b64 0) (-1) false

theorem wit_plain : sLoad.atHomeNow 0 (ref0 sLoad) ∧ (ref0 sLoad).op = .load .b32 true ∧ sAdd.atHomeNow 0 (ref0 sAdd) ∧
    (ref0 sAdd).op = .atom .add .b64 7 0 true ∧ atomNew .add .b64 (sAdd.readNat (ref0 sAdd).home 8) 7 0 = some 6 ∧
    sCas.atHomeNow 0 (ref0 sCas) ∧ (ref0 sCas).op = .atom .cas .b64 7 (-1) true ∧
    atomNew .cas .b64 (sCas.readNat (ref0 sCas).home 8) 7 (-1 : Word).toNat = none ∧ sRed.atHomeNow 0 (ref0 sRed) ∧
    (ref0 sRed).op = .atom .add .b64 7 0 false ∧ (∃ t, exec (.memrefArrive 0 none) sRed = .next t) := by
  simp only [atHome_iff, exists_next]; decide +kernel

theorem wit_store_arrival : ∃ s r, State.atHomeNow s 0 r ∧ r.op = .store [1, 2] :=
  ⟨{ sMem with refs := [{ ref0 sMem with slot := 1, gen := 1, va := 0x100080, home := 0x200080, op := .store [1, 2] }] }, _,
    (atHome_iff _).2 (by decide +kernel), by decide +kernel⟩

theorem wit_atom_widths : 255 < 2 ^ widthBits .b8 ∧ 2 ^ 64 - 1 < 2 ^ widthBits .b64 := by decide

def sLdfF : State := sent (.ldf g0 9 (x 1) 0) 3 true
def sLdfE : State := sent (.ldf g0 9 (x 1) 0) 3 false
def sLdfeF : State := sent (.ldfe g0 9 (x 1) 0) 3 true
def sLdfeE : State := sent (.ldfe g0 9 (x 1) 0) 3 false
def sStefE : State := sent (.stef g0 9 (x 1) (x 2) 0) 3 false
def sStefF : State := sent (.stef g0 9 (x 1) (x 2) 0) 3 true
def sTagrd : State := sent (.tagrd g0 3 (x 1) false 0) 3 true
/-- STF and PURGE send references that answer in no register. -/
def sStf : State := sent (.stf g0 (x 1) (x 2) 0) 3 true
def sPurge : State := sent (.purge g0 (x 1) 0) 3 true

theorem wit_sync : sLdfF.atHomeNow 0 (ref0 sLdfF) ∧ sLdfE.atHomeNow 0 (ref0 sLdfE) ∧ sLdfeF.atHomeNow 0 (ref0 sLdfeF) ∧
    sLdfeE.atHomeNow 0 (ref0 sLdfeE) ∧ sStefE.atHomeNow 0 (ref0 sStefE) ∧ sStefF.atHomeNow 0 (ref0 sStefF) ∧
    sTagrd.atHomeNow 0 (ref0 sTagrd) ∧ sStf.atHomeNow 0 (ref0 sStf) ∧ sPurge.atHomeNow 0 (ref0 sPurge) := by
  simp only [atHome_iff]; decide +kernel

theorem wit_sync_states : (∀ s ∈ [sLdfF, sLdfeF, sStefF, sTagrd, sStf, sPurge], s.fBit (ref0 s).home = true ∧ s.wBit (ref0 s).home = false) ∧
    (∀ s ∈ [sLdfE, sLdfeE, sStefE], s.fBit (ref0 s).home = false ∧ s.wBit (ref0 s).home = false) ∧
    (∀ s ∈ [sLdfF, sLdfeF, sStefF, sLdfE, sLdfeE, sStefE], (ref0 s).dst = .reg (xIndex 0 9) ∧ s.moors = []) ∧
    (ref0 sTagrd).dst = .reg 81 ∧ (ref0 sStf).op = .stf 7 ∧ (ref0 sStf).dst = .none ∧ (ref0 sPurge).op = .purge ∧ (ref0 sPurge).dst = .none ∧
    (sLdfE.moors.filter fun m => m.isle == (ref0 sLdfE).isle && m.area.isNone).length < 32768 := by decide +kernel

/-- One reference moored on a word: each kind, with the word able to serve it and not. -/
def moorOf (k : MoorKind) : Moor := {
  isle := 0, home := 0x200080, va := 0x100080, kind := k, slot := 1, gen := 1, reg := 9, num := 9, acc := 0, data := 5, deadline := 100
  area := none }
def sMoor (k : MoorKind) (f : Bool) : State := { (sMem.setF 0x200080 f) with moors := [moorOf k] }
theorem wit_moorings : ∀ k ∈ [MoorKind.ldf, .ldfe, .stef, .park], (sMoor k true).moors = moorOf k :: [] ∧
    (moorOf k).home / 8 = 0x200080 / 8 ∧ (moorOf k).kind = k ∧ (sMoor k true).fBit 0x200080 = true ∧
    (sMoor k false).fBit 0x200080 = false := by decide +kernel

/-- A leaf whose PARK's reference is on its way. -/
def parkedLeaf : Leaf := { no := 3, leaf := 0x110000, ext := none, regs := 0, tsid := 0, tag := 0, cls := 0, mark := none, guardEv := none
                           events := 0, triggered := false, st := .moored, readyNo := 0 }
/-- The reference of operation `op` at its word, behind a moored LDF or not, with that leaf in the quire's table. -/
def sJoin (op : RefOp) (w f : Bool) : State := { ((sMem.setF 0x200080 f).modQuire 0 fun q => { q with leaves := [parkedLeaf] }) with
  moors := if w then [moorOf .ldf] else []
  refs := [{ ref0 sMem with slot := 1, gen := 1, va := 0x100080, home := 0x200080, op := op }] }
theorem wit_joins : (∀ op ∈ [RefOp.ldf, .ldfe, .stef 5, .park 3], (sJoin op true true).atHomeNow 0 (ref0 (sJoin op true true)) ∧
      (ref0 (sJoin op true true)).op = op ∧ (sJoin op true true).wBit 0x200080 = true ∧ (sJoin op true true).fBit 0x200080 = true) ∧
    (sJoin (.park 3) false false).atHomeNow 0 (ref0 (sJoin (.park 3) false false)) ∧ (sJoin (.park 3) false false).fBit 0x200080 = false ∧
    (sJoin (.park 3) false true).atHomeNow 0 (ref0 (sJoin (.park 3) false true)) ∧ (sJoin (.park 3) false true).fBit 0x200080 = true ∧
    (sJoin (.park 3) false true).wBit 0x200080 = false ∧ (sJoin (.park 3) false true).tablesWf = true ∧
    (∃ e ∈ (sJoin (.park 3) true true).quires, ∃ l ∈ e.2.leaves, l.no = 3) ∧ (sJoin .ldf true true).lives 1 1 = true ∧
    ((sJoin .ldf true true).moors.filter fun m => m.isle == 0 && m.area.isNone).length < 32768 := by
  simp only [atHome_iff]; decide +kernel

/-- The store of `sStored`, alone in its buffer; a moored reference whose deadline is now, and one clock away; a wave to give. -/
def sWave : State := { sMem with refs := [{ ref0 sMem with slot := 1, gen := 1, va := 0x100080, home := 0x200080, op := .tagset true 7 0 0 [] }] }
theorem wit_memory_events : (∃ e, (sStored.core 0).sb[0]? = some e ∧
      ((sStored.core 0).sb.take 0).all (fun x => !spansMeet [spanOf x.home x.bytes.length] [spanOf e.home e.bytes.length]) = true ∧
      sStored.inOrder e.id e.slot e.gen [spanOf e.home e.bytes.length, vaSpan e.va.toNat e.bytes.length] true = true ∧
      sStored.spRefused e.home e.bytes.length = none ∧ sStored.isBroken e.home e.bytes.length = false ∧ e.readers = []) ∧
    ((sMoor .ldf false).moors.filter fun m => m.isle == 0)[0]? = some (moorOf .ldf) ∧ (moorOf .ldf).deadline ≠ 0 ∧
    (moorOf .ldf).deadline ≤ (sMoor .ldf false).cyc ∧ ({ sMoor .ldf false with cyc := 99 } : State).cyc < (moorOf .ldf).deadline ∧
    ({ sRed with acks := [(1, 1, 0)] } : State).acks[0]? = some (1, 1, 0) ∧ (sRed.slot 1).gen = 1 ∧
    sWave.refs[0]? = some (ref0 sWave) ∧ (ref0 sWave).op = .tagset true 7 0 0 [] := by
  refine ⟨⟨{ id := (sMem.serial : Nat), slot := 1, gen := 1, va := 0x100080, home := 0x200080, bytes := List.replicate 8 255
             readers := [] }, ?_⟩, ?_⟩ <;> decide +kernel

/-- A TAGSET at its last word, and at one before it. -/
def sTag (len : Nat) : State := { sMem with
  refs := [{ ref0 sMem with slot := 1, gen := 1, va := 0x100080, home := 0x200080, dst := .reg 9, op := .tagset true len 0 0 [{ isle := 0, start := 0, pos := 0, stop := len }] }] }
/-- The state once reference 0 is taken out. -/
def cut (s : State) : State := { s with refs := lremove s.refs 0 }
theorem wit_tagset_step : ∀ n ∈ [1, 7], (sTag n).refs[0]? = some (ref0 (sTag n)) ∧ (ref0 (sTag n)).home ≠ unplaced ∧
    0 < tagsetEnd (ref0 (sTag n)).va.toNat n ∧ (cut (sTag n)).tagNext (ref0 (sTag n)) 0 n n 0 = 0 ∧ (sTag n).moors = [] ∧
    (cut (sTag n)).laneReach (ref0 (sTag n)) 0x100080 = (.home 0x200080 0, cut (sTag n)) ∧
    (cut (sTag n)).inOrder (ref0 (sTag n)).id 1 1 (spansOf 0x100080 8 (some 0x200080)) false = true ∧
    (sTag n).spRefused 0x200080 8 = none ∧ (sTag n).isBroken 0x200080 8 = false := by decide +kernel

/-- A wave that may begin: in the scratchpad window, in a DRAM page, and in one where the limit of the banks is 0. -/
def sWaveSp : State := { sWave with refs := sWave.refs.map fun r => { r with va := 0x007F000000000040, home := 2 ^ 48 + 0x40 } }
def sWaveFull : State := sWave.modIsle 0 fun i => { i with ablimit := 0, cap := 0 }
theorem wit_wave : (partOf [] 0).stop ≤ (partOf [] 0).pos ∧ 0 < tagsetEnd 0x100080 7 ∧ inWindow 0x007F000000000040 = true ∧
    (sWaveSp.tagPlace (ref0 sWaveSp) 0).any (·.2 == 0) = true ∧ sWave.tagPlace (ref0 sWave) 0 = some (0x200080, 0) ∧
    isSp 0x200080 = false ∧ (sWave.bankOfPa 0x200080 :: sWave.bulkBanks 0 0).eraseDups.length ≤ (sWave.isle 0).bankLimit ∧
    (sWaveFull.isle 0).bankLimit < (sWaveFull.bankOfPa 0x200080 :: sWaveFull.bulkBanks 0 0).eraseDups.length := by decide +kernel

/-- An MCAS2 record that matches and one that does not; ENQ on an empty and on a filled queue; CHASE at its end and before it. -/
def sMcas : State := sent (.mcas2 g0 9 (x 1) 0) 0 false
def sEnq (tail : Word) : State :=
  let s := { sMem with refs := [{ ref0 sMem with slot := 1, gen := 1, va := 0x100080, home := 0x200080, dst := .reg 9, op := .enq 0x100100 }] }
  s.writeWord 0x200088 tail
def sChase (n : Nat) (w : Word) : State :=
  let s := { sMem with
    refs := [{ ref0 sMem with slot := 1, gen := 1, va := 0x100080, home := 0x200080, dst := .reg 9, op := .chase 8 n }] }
  s.writeWord 0x200080 w
theorem wit_agents : (([(0x200080, 0, 1)] : List (Nat × Word × Word)).all fun t => sMem.readWord t.1 == t.2.1) = true ∧
    (([(0x200080, 2, 1)] : List (Nat × Word × Word)).all fun t => sMem.readWord t.1 == t.2.1) = false ∧
    sMcas.atHomeNow 0 (ref0 sMcas) ∧ (ref0 sMcas).op = .record (.mcas 2) 64 ∧ (sEnq 0).atHomeNow 0 (ref0 (sEnq 0)) ∧
    (sEnq 0x100140).atHomeNow 0 (ref0 (sEnq 0x100140)) ∧ nodeBad 0x100100 = false ∧ nodeBad 0x100140 = false ∧
    State.agentReach (ref0 (sEnq 0)) true (cut (sEnq 0)) 0x100100 =
      (.home 0x200100 0, (cut (sEnq 0))) ∧ (sEnq 0).readWord 0x200088 = 0 ∧
    State.agentReach (ref0 (sEnq 0x100140)) true (cut (sEnq 0x100140)) 0x100140 =
      (.home 0x200140 0, (cut (sEnq 0x100140))) ∧
    (sEnq 0x100140).readWord 0x200088 = 0x100140 ∧ (sChase 0 3).atHomeNow 0 (ref0 (sChase 0 3)) ∧
    (sChase 1 0x100100).atHomeNow 0 (ref0 (sChase 1 0x100100)) ∧ (sChase 1 0x100100).readWord 0x200080 ≠ 0 ∧
    hopBad (0x100100 + 8) = false ∧ hopBad (0x100101 + 8) = true ∧ (sChase 1 0x100101).atHomeNow 0 (ref0 (sChase 1 0x100101)) := by
  simp only [atHome_iff]; decide +kernel

theorem wit_chase : State.agentReach { ref0 (sChase 1 0x100100) with va := 0x100108, op := .chase 8 0 } false
      (cut (sChase 1 0x100100)) 0x100108 =
    (.home 0x200108 0, (cut (sChase 1 0x100100))) := by decide +kernel

end Sys2Proof.Tests

namespace Sys2Proof.Tests
open Sys2Proof Sys2Proof.Machine

/-! ### Nine words of the scratchpad window can be stored and loaded -/

theorem reach_window (s : State) (va : Word) (r w : Bool) (h : inWindow va.toNat = true) :
    s.reach va r w = .ok (.home (spHome (quireOf (coreOf s.cur)) (va.toNat - spBase)) (isleOf (coreOf s.cur))) := by
  simp [State.reach, State.locate, h]

theorem store_window (s : State) (va : Word) (bs : List Byte) (h : inWindow va.toNat = true)
    (hl : (s.core (coreOf s.cur)).sb.length < 32) :
    ∃ t, s.storeLocal va bs = .ok t ∧ t.cur = s.cur ∧ (t.core (coreOf s.cur)).sb.length = (s.core (coreOf s.cur)).sb.length + 1 := by
  cases hs : s.storeLocal va bs with
  | error e =>
    simp [State.storeLocal, reach_window s va false true h, bind, Except.bind, Nat.not_le.mpr hl, pure, Except.pure] at hs
  | ok t =>
    simp only [State.storeLocal, reach_window s va false true h, bind, Except.bind, Nat.not_le.mpr hl, if_false, pure, Except.pure,
      Except.ok.injEq] at hs
    subst hs
    refine ⟨_, rfl, rfl, ?_⟩
    have e : ∀ (c : Core) (b : SbEntry), ({ c with sb := c.sb ++ [b] } : Core) ≠ Core.init := fun c b e => by
      have := congrArg Core.sb e
      simp [Core.init] at this
    simp only [State.modCore, State.setCore, State.core, State.enter, State.newAcc]
    rw [tget_tset_listed _ _ _ _ (e _ _)]
    simp

theorem stores_window (l : List (Word × Word)) : ∀ s : State, (∀ p ∈ l, inWindow p.1.toNat = true) →
    (s.core (coreOf s.cur)).sb.length + l.length ≤ 32 → ∃ t, s.storeWords l = .ok t := by
  induction l with
  | nil => exact fun s _ _ => ⟨s, rfl⟩
  | cons p l ih =>
    intro s hw hl
    simp only [List.length_cons] at hl
    obtain ⟨t, h1, h2, h3⟩ := store_window s p.1 (bytesOf 8 p.2.toNat) (hw p (.head _)) (by omega)
    obtain ⟨u, h4⟩ := ih t (fun q hq => hw q (.tail _ hq)) (by rw [h2, h3]; omega)
    exact ⟨u, by simp only [State.storeWords, h1, bind, Except.bind]; exact h4⟩

/-- A reference that only reads is sent. -/
theorem send_window (s : State) (va : Word) (dst : RetDst) (op : RefOp) (h : inWindow va.toNat = true) (ho : op.needR = true)
    (hw : op.needW = false) : okB (s.sendRef setL va dst op false) = true := by
  unfold State.sendRef
  simp only [Bool.false_eq_true, if_false, bind, Except.bind, pure, Except.pure, ho, hw, reach_window s va true false h]
  rfl

theorem load_window (s : State) (va : Word) (w : Width) (sgn : Bool) (dst : RetDst) (h : inWindow va.toNat = true) :
    ∃ t, s.loadLocal va w sgn dst = .ok t := by
  rw [exists_ok]
  unfold State.loadLocal
  rw [reach_window s va true false h]
  dsimp only [bind, Except.bind]
  split
  · exact send_window s va dst _ h rfl rfl
  · split
    · rfl
    · exact send_window s va dst _ h rfl rfl

theorem loads_window (o : Nat) (l : List (Nat × Word)) : ∀ s : State, (∀ p ∈ l, inWindow p.2.toNat = true) →
    ∃ t, s.fillLoads o l = .ok t := by
  induction l with
  | nil => exact fun s _ => ⟨s, rfl⟩
  | cons p l ih =>
    intro s hw
    obtain ⟨t, h1⟩ := load_window s p.2 .b64 false (.fillWord o p.1) (hw p (.head _))
    obtain ⟨u, h2⟩ := ih t fun q hq => hw q (.tail _ hq)
    exact ⟨u, by simp only [State.fillLoads, h1, bind, Except.bind]; exact h2⟩

theorem setX_other (t : Slot) (i j : Nat) (c : XCell) (h : j ≠ i) : (t.setXCell i c).xCell j = t.xCell j := by
  have e : ¬ i = j := fun e => h e.symm
  unfold Slot.setXCell Slot.xCell
  by_cases hi : i < 7 <;> by_cases hj : j < 7 <;> simp [hi, hj, List.getD_eq_getElem?_getD, List.getElem?_set, e]
  rw [if_neg (by omega)]

theorem setX_st (t : Slot) (i : Nat) (c : XCell) : (t.setXCell i c).st = t.st := by unfold Slot.setXCell; split <;> rfl

/-- DEAD registers can be made EMPTY one after the other. -/
theorem empties_dead (js : List Nat) : ∀ s : State, s.running → js.Nodup → (∀ j ∈ js, s.me.xCell j = .dead) →
    ∃ t, s.emptyRegs js = .ok t := by
  induction js with
  | nil => exact fun s _ _ _ => ⟨s, rfl⟩
  | cons j js ih =>
    intro s hs hn hd
    have hj := hd j (.head _)
    rw [List.nodup_cons] at hn
    have hr : s.deadReg s.cur j = s.modSlot s.cur fun t => t.setXCell j .dead := by
      unfold State.deadReg
      have : (s.slot s.cur).xCell j = .dead := hj
      rw [this]; rfl
    let u := (s.modSlot s.cur fun t => t.setXCell j .dead).modSlot s.cur fun t => t.setXCell j (.empty (awaiting none))
    have h1 : (s.modSlot s.cur fun t => t.setXCell j .dead).me = s.me.setXCell j .dead :=
      s.me_modSlot _ ((setX_st _ _ _).trans hs)
    have h2 : u.me = (s.me.setXCell j .dead).setXCell j (.empty (awaiting none)) := by
      have := State.me_modSlot (s.modSlot s.cur fun t => t.setXCell j .dead) (fun t => t.setXCell j (.empty (awaiting none)))
        (by rw [h1]; exact (setX_st _ _ _).trans ((setX_st _ _ _).trans hs))
      rw [h1] at this
      exact this
    obtain ⟨t, ht⟩ := ih u (by show u.me.st = _; rw [h2]; exact (setX_st _ _ _).trans ((setX_st _ _ _).trans hs)) hn.2 (by
      intro i hi
      have : i ≠ j := fun e => hn.1 (e ▸ hi)
      rw [h2, setX_other _ _ _ _ this, setX_other _ _ _ _ this]
      exact hd i (.tail _ hi))
    exact ⟨t, by simp only [State.emptyRegs, hj, writable, bind, Except.bind, hr]; exact ht⟩

end Sys2Proof.Tests

namespace Sys2Proof.Tests
open Sys2Proof Sys2Proof.Machine

/-! ### The hypotheses of the statements on threads, windows and mesh words are met -/

/-- `sMem` at depth 2 with SPILLP in the scratchpad window; `sFill` at depth 1. -/
def sSpill : State := memT fun t => { t with spillp := 0x007F000000000400, wstate := mkWstate 0 2 2 }
def sFill : State := memT fun t => { t with spillp := 0x007F000000000400, wstate := mkWstate 0 1 2 }
def spillAt (va : Word) : List Word := (List.range 9).map fun i => va + BitVec.ofNat 64 (8 * i)

theorem wit_spill : sSpill.guardTrue g0 = .ok true ∧ depthOf s0.me.wstate = 0 ∧ depthOf sDeep.me.wstate = 6 ∧
    depthOf sSpill.me.wstate = 2 ∧ (octetRegs 0).all (fun j => !sSpill.pendingAt 1 j) = true ∧ sSpill.fenceHolds 1 setS = false ∧
    (spillAt sSpill.me.spillp).all (fun a => decide (a.toNat < 2 ^ 55) && a.toNat % 8 == 0) = true ∧ depthOf sFill.me.wstate = 1 ∧
    sFill.fenceHolds 1 setL = false ∧ (spillAt (sFill.me.spillp - 72)).all (fun a => decide (a.toNat < 2 ^ 55) && a.toNat % 8 == 0) = true := by
  simp only [ok_iff]; decide +kernel

theorem wit_spill_words : ∃ t, sSpill.storeWords ((spillAt sSpill.me.spillp).zip (sSpill.me.octetWords 0)) = .ok t :=
  stores_window _ _ (List.all_eq_true.1 (by decide +kernel)) (by decide +kernel)

theorem wit_fill_words : ∃ t u, sFill.emptyRegs (octetRegs ((wbOf sFill.me.wstate + 9 - 2) % 9)) = .ok t ∧
    (t.modSlot t.cur fun u => { u with
        spillp := sFill.me.spillp - 72, wstate := mkWstate 0 2 2, fills := u.fills ++ [{ octet := 0, got := [], fatals := [] }] }).fillLoads
      0 ((List.range 9).zip (spillAt (sFill.me.spillp - 72))) = .ok u := by
  obtain ⟨t, ht⟩ := empties_dead (octetRegs ((wbOf sFill.me.wstate + 9 - 2) % 9)) sFill (by unfold State.running; decide +kernel)
    (by decide +kernel) (by decide +kernel)
  obtain ⟨u, hu⟩ := loads_window 0 ((List.range 9).zip (spillAt (sFill.me.spillp - 72))) (t.modSlot t.cur fun u => { u with
        spillp := sFill.me.spillp - 72, wstate := mkWstate 0 2 2, fills := u.fills ++ [{ octet := 0, got := [], fatals := [] }] })
    (List.all_eq_true.1 (by decide +kernel))
  exact ⟨t, u, ht, hu⟩

/-- A thread that may end, one whose scratchpad guard record is due, one inside a window. -/
def sGrec : State := memT fun t => { t with grec := 0x0000000100000000 }
theorem wit_ends : sMem.guardTrue g0 = .ok true ∧ sMem.guardClear ∧ sGrec.me.inh = false ∧ grecCount sGrec.me.grec ≠ 0 ∧
    sMem.operands g0 [x 1, x 2, x 0] [0x100080, 7, 0] (after sMem [x 1, x 2, x 0]) ∧
    sMem.operands g0 [x 1, x 2, x 1] [0x100080, 7, 0x100080] (after sMem [x 1, x 2, x 1]) ∧ localAddr 0x100080 64 ∧
    depthOf sMem.me.wstate = 0 ∧ depthOf sSpill.me.wstate ≠ 0 ∧ sSpill.guardClear ∧
    sSpill.operands g0 [x 1, x 2, x 0] [0x100080, 7, 0] (after sSpill [x 1, x 2, x 0]) ∧
    sMem.operands g0 [x 1, x 1, x 2] [0x100080, 0x100080, 7] (after sMem [x 1, x 1, x 2]) ∧ localAddr 0x100080 128 := by
  simp only [operands_iff, ok_iff, State.guardClear, localAddr]; decide +kernel

/-- A thread that names slot 1 of core 4 (which exists), of no core, and of an excluded core; a full send queue; a ferry program. -/
def sDest (d : Word) : State := memT fun t => { t with mdest := d }
def sExcl : State := (sDest 0x40404).modCore 1 fun c => { c with excluded := true }
def sFullQ : State := (sDest 0x404).modCore 0 fun c => { c with
  sendq := List.replicate 16 { target := 0, tag := 0, data := 0, sender := 0, reason := 0 } }
def sFerry : State := { (sMem.setSlot 0 { thread with xlo := [.full (0x404 + 2 ^ 30), .full 9, .full 0x804, .dead, .dead, .dead, .dead] }) with cur := 0 }
def sFullIn : State := sFerry.modCore 0 fun c => { c with
  inbox := List.replicate 512 { target := 0x404, tag := 0, data := 0, sender := 0, reason := 0 } }
theorem wit_mesh : sMem.operands g0 [x 1] [0x100080] (after sMem [x 1]) ∧ s0.fencesPending s0.cur = false ∧
    targetCore ((sDest 0xC00000).me.mdest.setWidth 28) = none ∧ targetCore (sExcl.me.mdest.setWidth 28) = some 1 ∧
    (sExcl.core 1).excluded = true ∧ targetCore ((sDest 0x404).me.mdest.setWidth 28) = some 0 ∧ ((sDest 0x404).core 0).excluded = false ∧
    ((sDest 0x404).core 0).sendq.length < 16 ∧ 16 ≤ (sFullQ.core 0).sendq.length ∧
    sFerry.operands g0 [x 1, x 2] [0x404 + 2 ^ 30, 9] (after sFerry [x 1, x 2]) ∧ sFerry.cur % 256 = 0 ∧ sMem.cur % 256 ≠ 0 ∧
    sFerry.takesWord 0 ((0x404 + 2 ^ 30 : Word).setWidth 28) ∧ ¬ sFerry.takesWord 0 ((0x804 : Word).setWidth 28) ∧
    sFerry.operands g0 [x 3, x 2] [0x804, 9] (after sFerry [x 3, x 2]) ∧ (sFerry.core 0).inbox.length + (sFerry.core 0).ferry.length < 511 ∧
    512 ≤ (sFullIn.core 0).inbox.length + (sFullIn.core 0).ferry.length ∧
    sFullIn.operands g0 [x 1, x 2] [0x404 + 2 ^ 30, 9] (after sFullIn [x 1, x 2]) ∧
    (∃ t, sFerry.put 9 2 = .ok t) ∧ (∃ t, sMem.put 9 2 = .ok t) := by
  simp only [operands_iff, exists_ok, State.takesWord]; decide +kernel

/-- Words for one slot only: that slot has the most. -/
theorem most_of_one (c : Core) (n : Nat) (w : MeshWord) (h : c.inbox = List.replicate (n + 1) w) (hm : targetSlot w.target < 256) :
    c.mostWords (targetSlot w.target) := by
  unfold Core.mostWords
  simp only [h, List.filter_replicate]
  refine ⟨hm, by simp, fun k _ => ⟨?_, fun hk => ?_⟩⟩
  · split <;> simp
  · rw [if_neg (by simp; omega)]; simp

/-- A ferry program that injects a word for its own slot; 511 words before it, in the inbox for slot 1 and in the ferry queue. -/
def sOwnFerry (n m : Nat) : State := (sFerry.modSlot 0 fun t => { t with xlo := [.full 0x004, .full 9, .dead, .dead, .dead, .dead, .dead] }).modCore 0
  fun c => { c with
    inbox := List.replicate n { target := 0x404, tag := 0, data := 0, sender := 0, reason := 0 }
    ferry := List.replicate m { target := 0x404, tag := 0, data := 0, sender := 0, reason := 0 } }
theorem wit_ferry : (∀ n ∈ [(511, 0), (0, 511), (0, 0)], (sOwnFerry n.1 n.2).operands g0 [x 1, x 2] [0x004, 9] (after (sOwnFerry n.1 n.2) [x 1, x 2])) ∧
    targetSlot ((0x004 : Word).setWidth 28) = 0 ∧ (sOwnFerry 511 0).takesWord 0 ((0x004 : Word).setWidth 28) ∧
    ((sOwnFerry 0 511).core 0).inbox = [] ∧ ((sOwnFerry 0 511).core 0).ferry.length = 511 := by
  simp only [operands_iff, State.takesWord]; decide +kernel
theorem wit_diverts (n : Nat) : ((sOwnFerry (n + 1) 0).core 0).mostWords 1 :=
  most_of_one _ n { target := 0x404, tag := 0, data := 0, sender := 0, reason := 0 } rfl (by decide)

def sVec : State := memT fun t => { t with lease := some 0, v := (List.replicate 15 (.full 0)) ++ [.dead] }
theorem wit_resolve : sMem.guardTrue g0 = .ok true ∧ wbOf sMem.me.wstate < 9 ∧ sMem.pendingAt 1 (xIndex 0 31) = false ∧
    sMem.me.xCell (xIndex 0 3) = .empty dueMarks ∧ sPorts.me.xCell (xIndex 0 3) = .empty orphanMarks ∧ wbOf sPorts.me.wstate < 9 ∧
    sMem.pendingAt 1 79 = false ∧ sVec.me.lease ≠ none ∧ sVec.pendingAt 1 86 = false ∧ sVec.pendingAt 1 101 = false ∧
    sVec.me.held 0 = false ∧ (∀ j, j < 102 → sVec.pendingAt 1 j = false) = False ∧ (s0.core 0).mxAll = [] := by
  have h : ¬ ∀ j, j < 102 → sVec.pendingAt 1 j = false := by decide +kernel
  have hp : (∀ j, j < 102 → sVec.pendingAt 1 j = false) = False := eq_false h
  rw [hp, ok_iff]
  decide +kernel

/-- A thread with nothing pending. -/
def quietT (f : Slot → Slot) : State := memT fun t => f { t with xlo := List.replicate 7 (.full 1), p := List.replicate 7 .dead }
def sQuiet : State := quietT id
theorem wit_quiet : (∀ j, j < 102 → sQuiet.pendingAt 1 j = false) ∧ (sQuiet.core 0).mxAll = [] := by decide +kernel

def wordTo (t : BitVec 28) : MeshWord := { target := t, tag := 1, data := 5, sender := 4, reason := 0 }
def sWords : State := { (sQuiet.modCore 4 fun c => { c with sendq := [wordTo 0x404] }) with mesh := [wordTo 0x404, wordTo 0x804] }
/-- Replies: to a register that waits, to one bound, to one with `drop`, a FATAL one, one of another generation. -/
def replyTo (j : Nat) (g : BitVec 8) (fatal : Bool) : Reply := {
  slot := 1, gen := g, dst := .reg j, value := 5, vec := none, fatal := fatal, acc := none }
def sReplies : State := { (quietT fun t => { t with
    xlo := [due, .empty { dueMarks with cw := some 4 }, .empty { dueMarks with drop := true }, .catching 4 (2, 1), .dead, .dead, .dead] })
  with replies := [replyTo 0 1 false, replyTo 1 1 false, replyTo 2 1 false, replyTo 0 1 true, replyTo 0 2 false] }
def sDivs : State := { (sQuiet.modCore 0 fun c => { c with div := [{ slot := 1, gen := 1, reg := 0, value := 3, at_ := 60 }] })
  with cyc := 100 }
/-- A core with 511 words for slot 1, and one with 512; slot 1 is diverted. -/
def sAlmost (n : Nat) (d : List Nat) : State := sWords.modCore 0 fun c => { c with
  inbox := List.replicate n (wordTo 0x404), diverted := d }
theorem wit_full_core : (sAlmost 511 []).mesh[0]? = some (wordTo 0x404) ∧ (sAlmost 511 []).takesWord 0 (wordTo 0x404).target ∧
    ((sAlmost 511 []).core 0).inbox.length + ((sAlmost 511 []).core 0).ferry.length = 511 ∧
    512 ≤ ((sAlmost 512 []).core 0).inbox.length ∧ targetSlot (wordTo 0x404).target ∈ ((sAlmost 0 [1]).core 0).diverted := by
  simp only [State.takesWord]; decide +kernel
theorem sAlmost_inbox : ((sAlmost 511 []).core 0).inbox = List.replicate 511 (wordTo 0x404) := by decide +kernel
theorem wit_full_diverts : ({ (sAlmost 511 []).core 0 with inbox := ((sAlmost 511 []).core 0).inbox ++ [wordTo 0x404] } : Core).mostWords 1 :=
  most_of_one _ 511 (wordTo 0x404) ((congrArg (· ++ [wordTo 0x404]) sAlmost_inbox).trans List.replicate_succ'.symm) (by decide)
/-- What `sReplies` binds: register 3 is CATCH over the identifier of register 1. -/
theorem wit_resolved : (sReplies.slot 1).xlo.length = 7 ∧ (sReplies.slot 1).win.length = 72 ∧ sReplies.lives 1 1 = true ∧ sReplies.tablesWf = true ∧
    (sReplies.slot 1).xCell 3 = .catching 4 (2, 1) ∧ (∀ p, (sReplies.slot 1).xCell 4 ≠ .catching 4 p) := by
  refine ⟨by decide +kernel, by decide +kernel, by decide +kernel, by decide +kernel, by decide +kernel, fun p h => ?_⟩
  have : (sReplies.slot 1).xCell 4 = .dead := by decide +kernel
  rw [this] at h; cases h

theorem wit_words : (sWords.core 4).sendq = wordTo 0x404 :: [] ∧ sWords.mesh[0]? = some (wordTo 0x404) ∧
    targetCore (wordTo 0x404).target = some 0 ∧ sWords.takesWord 0 (wordTo 0x404).target ∧ (sWords.core 0).diverted = [] ∧
    (sWords.core 0).failed = false ∧ (sWords.core 0).excluded = false ∧
    (sWords.core 0).inbox.length + (sWords.core 0).ferry.length < 511 ∧ sWords.mesh[1]? = some (wordTo 0x804) ∧
    ((sWords.mesh.take 1).all fun x => x.sender != 4 || x.target != 0x804) = true ∧ ¬ sWords.takesWord 0 (wordTo 0x804).target ∧
    (sWords.core 0).strayDeliver = false ∧ sReplies.replies[0]? = some (replyTo 0 1 false) ∧
    sReplies.replies[1]? = some (replyTo 1 1 false) ∧ sReplies.replies[2]? = some (replyTo 2 1 false) ∧
    sReplies.replies[3]? = some (replyTo 0 1 true) ∧ sReplies.replies[4]? = some (replyTo 0 2 false) ∧ (sReplies.slot 1).gen = 1 ∧
    (sReplies.slot 1).xCell 0 = .empty dueMarks ∧ (sReplies.slot 1).xCell 1 = .empty { dueMarks with cw := some 4 } ∧
    (sReplies.slot 1).xCell 2 = .empty { dueMarks with drop := true } ∧
    (sDivs.core 0).div = { slot := 1, gen := 1, reg := 0, value := 3, at_ := 60 } :: [] ∧ 60 + 40 ≤ sDivs.cyc ∧
    ({ sDivs with cyc := 99 } : State).cyc < 60 + 40 ∧ (sDivs.slot 1).gen = 1 := by
  simp only [State.takesWord]; decide +kernel

/-- An old slot; a rest that ends now and one that goes on; closing slots; work for free slots. -/
def sOld : State := quietT fun t => { t with age := 4096 }
def sRest (n : Nat) : State := quietT fun t => { t with st := .resting n .sleep }
def foldInfo : FoldInfo := {
  leaf := 0x100080, events := 0, ext := none, regs := 5, word := none, nextPc := 0x10001, deadline := 0 }
def sClosing (c : Closing) : State := quietT fun t => { t with st := .closing c }
/-- Set 0 has a second task to start in core 0. -/
def sWork : State := sQuiet.modSet 0 fun t => { t with tasks := 2, slots := 255, isles := 1 }
/-- A ready leaf in quire 0, whose words stand in the page that the isle's TLB holds. -/
def leafR : Leaf := { no := 7, leaf := 0x100080, ext := none, regs := 5, tsid := 0, tag := 3, cls := 1, mark := none, guardEv := none,
                      events := 0, triggered := false, st := .ready, readyNo := 9 }
def sLeaf : State := (((sQuiet.modSet 0 fun t => { t with slots := 255 }).modQuire 0 fun q => { q with leaves := [leafR] }).modIsle 0 fun i => { i with tlb := [memPage] }).writeWord
  0x200080 0x10001
theorem wit_slot_events : (sOld.slot 1).cls < min 3 ((sOld.slot 1).baseCls + (sOld.slot 1).age / 4096) ∧
    (sRest 100).cyc = 100 ∧ ((sRest 100).slot 1).st = .resting 100 .sleep ∧ ((sRest 101).slot 1).st = .resting 101 .sleep ∧
    ((sClosing .exit).slot 1).st = .closing .exit ∧ ((sClosing .exit).slot 1).setEv = [] ∧
    (∀ j, j < 102 → ((sClosing .exit).sealSlot 1).pendingAt 1 j = false ∧ ((sClosing .exit).sealSlot 1).downReg 1 j = none) ∧ ((sClosing .exit).slot 1).queued = 0 ∧
    ((sClosing .exit).slot 1).unacked = 0 ∧ rfCount ((sClosing .exit).slot 1).rfst = 0 ∧ ((sClosing .exit).slot 1).redcnt = 0 ∧
    (sClosing .exit).fencesPending 1 = false ∧ ((sClosing .exit).slot 1).fills = [] ∧ ((sClosing .exit).slot 1).pend = [] ∧
    ((sClosing (.leaf foldInfo (some []))).slot 1).st = .closing (.leaf foldInfo (some [])) ∧ foldInfo.word = none ∧
    ((sClosing (.leaf foldInfo (some []))).quire 0).leaves.length < 4096 ∧ sWork.freeFor 2 = true ∧
    ((sWork.chooseWork 0).any fun w => match w with
      | .task 0 => true
      | _ => false) = true ∧ (sWork.tset_ 0).nextTask 0 = some 1 ∧ (sWork.tset_ 0).islePos 0 = some 0 ∧ (sWork.tset_ 0).st = .live ∧
    sLeaf.freeFor 2 = true ∧ ((sLeaf.chooseWork 0).any fun w => match w with
      | .leaf 0 l => decide (l = leafR)
      | _ => false) = true ∧
    sLeaf.tablesWf = true := by decide +kernel

/-- A PARK whose leaf is written: its word's page is held, and may be read or not. -/
def parkInfo (wa : Word) : FoldInfo := { foldInfo with word := some wa }
def sClosePark (wa : Word) (r : Bool) : State := (sClosing (.leaf (parkInfo wa) (some []))).modCore 0 fun c => { c with
  tlb := [{ memPage with r := r }] }
theorem wit_park : ((sClosePark 0x100080 true).slot 1).st = .closing (.leaf (parkInfo 0x100080) (some [])) ∧
    (parkInfo 0x100080).word = some 0x100080 ∧ ((sClosePark 0x100080 true).sealSlot 1).locate 1 0x100080 true false = .home 0x200080 0 ∧
    ((sClosePark 0x100080 false).sealSlot 1).locate 1 0x100080 true false = .deny ∧
    (((sClosePark 0x100080 true).sealSlot 1).quire 0).leaves.length < 4096 ∧
    (sClosePark 0x100080 true).tablesWf = true ∧
    (∀ j, j < 102 → ((sClosePark 0x100080 true).sealSlot 1).pendingAt 1 j = false) := by decide +kernel

/-- `sLeaf` once slot 2 has taken the leaf: its words are on their way. -/
def sTaken : State := nextOf (exec (.leafResume 2) sLeaf)
theorem wit_leaf : sTaken.atHomeNow 0 (ref0 sTaken) ∧ (ref0 sTaken).op = .record (.leaf false) 64 ∧ (ref0 sTaken).slot = 2 ∧
    State.engineReach (cut sTaken) (some 0) 0 0 0 0x100080 true false 0 (whoOf 0 2 (sTaken.slot 2).gen) = (.home 0x200080 0, cut sTaken) ∧
    sTaken.lives 2 (ref0 sTaken).gen = true ∧
    (sTaken.slot 2).reading = some { quire := 0, leaf := 0x100080, ext := none, regs := 5, words := [] } ∧
    (sTaken.slot 2).xlo.length = 7 ∧ (sTaken.slot 2).win.length = 72 ∧ (∀ i, i < 6 → (regField 5 i).toNat < 32) := by
  simp only [atHome_iff]; decide +kernel

end Sys2Proof.Tests

namespace Sys2Proof.Tests
open Sys2Proof Sys2Proof.Machine

/-! ### The hypotheses of the statements on windows and the fabric are met -/

/-- A WINOPEN record at its home: a window of 64 KiB at offset 64 KiB, or the words `ws`; `w` are the windows that are there. -/
def winRec : List Word := [0x10000, 0x100000, 0x10000, 3]
def sWin (ws : List Word) (w : Tab Window) : State :=
  let s := sent (.winopen g0 9 (x 1)) 0 false
  { s.writeWords 0x200080 ws with windows := w }
/-- An OPEN window of job 0 over the same offsets, one of another job, a CLOSING one with something in flight and one without. -/
def winOf (job : Nat) : Window := { Window.init with job := job, obase := 1, length := 0x10000 }
def sOpen : State := { sMem with windows := [(7, winOf 0)] }
def sTheirs : State := { sMem with windows := [(7, winOf 1)] }
def sDrain (n : Nat) : State := { sMem with windows := [(7, { winOf 0 with closing := true, inflight := n, closer := some (1, 1, .reg 9, 0) })] }
theorem wit_windows : sMem.operands g0 [x 1] [0x100080] (after sMem [x 1]) ∧ localAddr 0x100080 32 ∧
    sMem.fenceHolds sMem.cur setL = false ∧ okB ((after sMem [x 1]).emptyXj (xIndex 0 9)) = true ∧
    sMem.locate sMem.cur (0x100080 : Word).toNat true false = .home 0x200080 0 ∧
    sMem.operands g0 [x 2] [7] (after sMem [x 2]) ∧ okB ((after sMem [x 2]).emptyXj (xIndex 0 9)) = true ∧ sMem.winUsed 7 = false ∧
    (sDrain 0).winUsed 7 = true ∧ ((sDrain 0).window 7).closing = true ∧ (sTheirs.window 7).job ≠ (sTheirs.slotSet 1).job ∧
    sOpen.winUsed 7 = true ∧ (sOpen.window 7).closing = false ∧ (sOpen.window 7).job = (sOpen.slotSet 1).job ∧
    ((sDrain 0).window 7).closer = some (1, 1, .reg 9, 0) ∧ ((sDrain 0).window 7).inflight = 0 ∧
    ((sDrain 2).window 7).inflight ≠ 0 ∧ okB ((after sMem [x 2]).put 9 0) = true ∧ okB ((after sOpen [x 2]).put 9 1) = true := by
  simp only [operands_iff, localAddr]; decide +kernel

theorem wit_winopen : (∀ s ∈ [sWin [0, 0, 0, 0] [], sWin winRec [], sWin winRec [(7, winOf 0)], sWin winRec [(0, winOf 1)]],
      home0 s = true ∧ (ref0 s).op = .record .winopen 32) ∧
    windowBad ((sWin [0, 0, 0, 0] []).readWords 0x200080 4) = true ∧ (sWin winRec []).readWords 0x200080 4 = winRec ∧
    windowBad winRec = false ∧ (winOf 0).job = (ref0 (sWin winRec [(7, winOf 0)])).job ∧
    ¬ ((winOf 0).obase * 2 ^ 16 + (winOf 0).length ≤ 1 * 2 ^ 16 ∨ 1 * 2 ^ 16 + 0x10000 ≤ (winOf 0).obase * 2 ^ 16) ∧
    (sWin winRec []).winUsed 0 = false ∧ (sWin winRec [(0, winOf 1)]).winUsed 0 = true ∧
    (sWin winRec [(0, winOf 1)]).winUsed 1 = false := by decide +kernel

/-- Every window entry is taken, each by another job. -/
theorem wit_winopen_full : ∀ s : State, s.windows = (List.range 1024).map (fun h => (h, winOf 1)) → ∀ h, h < 1024 → s.winUsed h = true := by
  intro s hs h hh
  simp only [State.winUsed, hs, List.any_map, List.any_eq_true]
  exact ⟨h, List.mem_range.2 hh, by simp⟩

/-- A thread with elements queued, one with a failed element on record, and a connection to package 3. -/
def sQueued : State := memT fun t => { t with queued := 1 }
def sFailed : State := memT fun t => { t with rfst := 2 ^ 32 + 3, rfva := 0x80180000000040 }
/-- Package 3 is reached by isle 0 with a key of job 0; `f` changes its connection. -/
def sLink (f : Conn → Conn) : State :=
  let s := { sMem with froute := [(3, 2 ^ 15)], keys := [(0, 1, 0), (0, 2, 0)] }
  { s with conns := [f { s.newConn 3 0 with used := true, epoch := 1 }] }
def sOwnX : State := memT fun t => { t with xlo := [.full 0, .full 3, .dead, .dead, .dead, .dead, .dead] }
def sLinkX : State := { sOwnX with froute := [(3, 2 ^ 15)], keys := [(0, 1, 0)], conns := (sLink id).conns }
theorem wit_flush : sMem.guardTrue g0 = .ok true ∧ sMem.me.queued = 0 ∧ sMem.me.unacked = 0 ∧ sMem.me.rfst.extractLsb' 32 32 = 0 ∧
    sFailed.me.queued = 0 ∧ sFailed.me.unacked = 0 ∧ sFailed.me.rfst.extractLsb' 32 32 ≠ 0 ∧ sFailed.me.inh = false ∧
    sQueued.me.queued ≠ 0 ∧ sQueued.conns = [] ∧ okB (sFailed.put 9 sFailed.me.rfst) = true ∧
    sOwnX.operands g0 [x 1] [0] (after sOwnX [x 1]) ∧ (0 : Word).toNat % 4096 = sOwnX.fpkg ∧
    sLinkX.operands g0 [x 2] [3] (after sLinkX [x 2]) ∧ (3 : Word).toNat % 4096 ≠ sLinkX.fpkg ∧
    sLinkX.canReach 3 0 = true ∧ (sLinkX.conn? 3 0).map (·.used) = some true ∧
    okB ((after sOwnX [x 1]).put 9 0x00000100FFFF0000) = true ∧ okB ((after sLinkX [x 2]).put 9 5) = true := by
  simp only [operands_iff, ok_iff]; decide +kernel

/-- A thread whose element is held by a connection that is DOWN, in a handler and outside; a connection that is not in use. -/
def sHeld (n : Word) : State := (sLink fun c => { c with st := .down, queue := [{
    pkt := .gathered [], shadow := [{ el := { op := 0, be := 255, off := 8, value := 7 }, slot := 1, gen := 1, va := 0x80180000000040, at_ := 100 }]
    slot := 1, gen := 1, dst := .none, sgn := false, settled := false }] }).modSlot 1 fun t => { t with queued := 1, estat := n }
def sIdleX : State := { sLinkX with conns := (sLink fun c => { c with used := false }).conns }
theorem wit_held : ((sHeld 0).sealSlot 1).downFor 1 = some 3 ∧ (sHeld 0).me.inh = false ∧ (sHeld 1).me.inh = true ∧
    ((sHeld 1).sealSlot 1).downFor 1 = some 3 ∧ (sQueued.sealSlot 1).downFor 1 = none ∧
    { sFailed with slots := (sFailed.modSlot 1 fun t => { t with estat := 1 }).slots }.me.inh = true ∧
    sIdleX.operands g0 [x 2] [3] (after sIdleX [x 2]) ∧ sIdleX.canReach 3 0 = true ∧ (sIdleX.conn? 3 0).map (·.used) = some false ∧
    okB ((after sIdleX [x 2]).put 9 0xFFFF0004) = true ∧ sOwnX.operands g0 [x 2] [3] (after sOwnX [x 2]) ∧ sOwnX.canReach 3 0 = false := by
  simp only [operands_iff]; decide +kernel

/-- Elements of slot 1: two in a row, and one whose package has no route. -/
def elemTo (off : BitVec 40) : ShElem := {
  el := { op := 0, be := 255, off := off, value := 7 }, slot := 1, gen := 1, va := 0x80180000000040, at_ := 100 }
def sElems : State := { sLink id with elemsOut := [(0, elemTo 8, 3, 0), (0, elemTo 9, 3, 0)] }
/-- The first of them waits in the isle for a buffer. -/
def sWaits : State := { sLink id with elemsOut := [(0, elemTo 9, 3, 0)] }.modIsle 0 fun i => { i with gwait := [(elemTo 8, 3, 0)] }
def sUnreach : State := { sMem with elemsOut := [(0, elemTo 8, 3, 0)] }
def sBuf (n : Nat) : State := { sLink id with cyc := n }.modIsle 0 fun i => { i with
  gbufs := [{ st := .open_, dest := 3, job := 0, els := [elemTo 8] }] }
def sStatus (n : Nat) (g : BitVec 8) : State := { (memT fun t => { t with unacked := 1 }) with statusIn := [({ elemTo 8 with gen := g }, n)] }
theorem wit_elements : sElems.elemsOut[0]? = some (0, elemTo 8, 3, 0) ∧ sElems.canReach 3 0 = true ∧ (sElems.isle 0).gbufs = [] ∧
    sUnreach.canReach 3 0 = false ∧ sUnreach.elemsOut[0]? = some (0, elemTo 8, 3, 0) ∧ (sUnreach.slot 1).gen = 1 ∧
    rfCount (sUnreach.slot 1).rfst = 0 ∧ (sUnreach.slot 1).st = .active ∧ sElems.elemsOut[1]? = some (0, elemTo 9, 3, 0) ∧
    ((sBuf 100).isle 0).gbufs[0]? = some { st := .open_, dest := 3, job := 0, els := [elemTo 8] } ∧
    (sBuf 100).cyc < 100 + ((sBuf 100).isle 0).gage ∧ 100 + ((sBuf 9999).isle 0).gage ≤ (sBuf 9999).cyc ∧
    (sStatus 0 1).statusIn[0]? = some (elemTo 8, 0) ∧ ((sStatus 0 1).slot 1).gen = 1 ∧ ((sStatus 0 2).slot 1).gen ≠ 2 ∧
    (sStatus 4 1).statusIn[0]? = some (elemTo 8, 4) ∧
    (∀ i ∈ sElems.isles, ∀ x ∈ i.2.gwait, x.1.slot ≠ 1) ∧ (sWaits.isles.any fun i => decide ((elemTo 8, 3, 0) ∈ i.2.gwait)) = true := by
  decide +kernel

/-- Connections with something to send, one in HOLD, one that owes an acknowledgement, frames to be sent again; frames that arrive. -/
def outPkt : OutPkt := {
  pkt := .gathered [(elemTo 8).el], shadow := [elemTo 8], slot := 1, gen := 1, dst := .none, sgn := false, settled := false }
def sSend : State := sLink fun c => { c with queue := [outPkt] }
def sSendHold : State := sLink fun c => { c with queue := [outPkt], st := .hold }
def sOwes : State := sLink fun c => { c with owesAck := true }
def sReplay : State := sLink fun c => { c with replay := [{ seq := 0, epoch := 1, pkts := [outPkt], at_ := 100, done := false }], nextSeq := 1 }
def frameOf (seq : Nat) (ok : Bool) : Frame := {
  chan := 0, src := 3, job := 0, seq := seq, epoch := 1, epAdv := 1, ackValid := false, ack := 0, echo := false, nak := false
  badHeader := false, tagOk := ok, occupied := 200, late := [], packets := [] }
def sRecv : State := sLink fun c => { c with rxEpoch := 1, rxExpected := 5, rxAcks := [(1, 5)] }
theorem wit_frames : (sSend.conns[0]?).map (·.queue) = some [outPkt] ∧ (sSend.conns[0]?).map (·.peer) ≠ some sSend.fpkg ∧
    sSend.conns.map sSend.maySend = [true] ∧ sSendHold.conns.map sSendHold.maySend = [false] ∧
    (sOwes.conn? 3 0).map (fun c => (c.owesAck, c.ackCtr, (sOwes.epochsOf 0).contains c.epoch)) = some (true, 0, true) ∧
    sOwes.channelUp (sOwes.channel 3) = true ∧ sOwes.canReach 3 0 = true ∧
    (sReplay.conn? 3 0).map (fun c => c.replay.find? (fun f => !f.done)) =
      some (some { seq := 0, epoch := 1, pkts := [outPkt], at_ := 100, done := false }) ∧
    sReplay.cyc < 100 + 16384 ∧ ({ sReplay with cyc := 16484 } : State).pathUp 3 = true ∧
    (frameOf 5 true).src ≠ sRecv.fpkg ∧ sRecv.verifies (frameOf 5 false) = false ∧ sRecv.verifies (frameOf 5 true) = true ∧
    (sRecv.conn 3 0).rxEpoch = 1 ∧ (frameOf 4 true).seq < (sRecv.conn 3 0).rxExpected ∧
    (sRecv.conn 3 0).rxExpected < (frameOf 6 true).seq ∧ (sRecv.conn 3 0).nakAt = 0 ∧ (frameOf 5 true).seq = (sRecv.conn 3 0).rxExpected ∧
    { frameOf 5 true with src := 0 }.src = sRecv.fpkg ∧ sRecv.verifies { frameOf 5 true with badHeader := true } = true ∧
    ((sRecv.conn 3 0).rxAcks.lookup 1).getD 0 = 5 ∧ ({ sRecv with cyc := 4196 } : State).conns.map (·.periodAt) = [100] := by
  decide +kernel

/-- A window of job 0 over the pages 0x10 to 0x13 of space 0, with the rights `r`; the isle's TLB holds the first two. -/
def winIn (r : BitVec 4) : Window := { winOf 0 with length := 0x40000, local_ := 0x100000, rights := r }
def sIn (r : BitVec 4) : State := { sRecv.modIsle 0 fun i => { i with tlb := [memPage, roPage] } with windows := [(7, winIn r)] }
/-- `sIn` once an access counts in the window; space 0 mapped to an isle that is left out; an uncorrectable word. -/
def sCount : State := (sIn 15).setWindow 7 { winIn 15 with inflight := 1 }
def sLeftOut : State :=
  let s := sCount.modIsle 0 fun i => { i with nospread := true, deadIsles := 1 }
  { [(0x10000, 0x90000), (0x90000, 0x91000), (0x91000, 0x92000), (0x92000, 0x4000000000000003)].foldl
      (fun (s : State) (e : Nat × Word) => s.writeWord e.1 (0x8000000000000000 + e.2)) s with sptbase := 0x10000 }
def sBad : State := { sCount with broken := tset false sCount.broken (0x200080 / 8) true }
/-- An access of package 3 at offset 64 KiB + `o`. -/
def farAcc (op : RemOp) (o : Nat) : RemAccess := { freshAccess 3 0 0 noTag op with handle := 7, va := BitVec.ofNat 64 (0x100000 + o) }
theorem wit_applied : (frameOf 5 true).badHeader = false ∧
    (frameOf 5 true).seq = (((sRecv.useAck (frameOf 5 true)).enterEpoch (frameOf 5 true)).conn 3 0).rxExpected ∧
    sMem.canReach 3 0 = false ∧ 3 ≠ sMem.fpkg ∧ (sLink id).canReach 3 0 = true ∧ (farAcc (.load .b64) 0).elem = none ∧
    (farAcc (.load .b64) 0).targets = [] ∧ sRecv.windows = [] ∧ (sIn 15).window 7 = winIn 15 := by decide +kernel

theorem wit_covers : (winIn 15).job = 0 ∧ (∀ o ∈ [0x10000, 0x10084, 0x4FFFC], (winIn 15).obase * 2 ^ 16 ≤ o ∧
      o < (winIn 15).obase * 2 ^ 16 + (winIn 15).length) ∧ (winIn 15).obase * 2 ^ 16 + (winIn 15).length < 0x4FFFC + remSize (.load .b64) ∧
    0x10084 % remSize (.load .b64) ≠ 0 ∧ (winIn 15).closing = false ∧ remRight (.load .b64) = some 0 ∧ (winIn 14).rights.getLsbD 0 = false ∧
    (winIn 15).rights.getLsbD 0 = true ∧ remRight (.probe true false false .b64) = none := by decide +kernel

theorem wit_ingress :
    State.ingress (farAcc (.load .b64) 0x80) 0 true false sCount 0x100080 = (.home 0x200080 0, sCount) ∧
    State.ingress (farAcc (.atom .add .b64 1 0) 0x10080) 0 true true sCount 0x110080 = (.deny, sCount) ∧
    State.ingress (farAcc (.load .b64) 0x30080) 0 true false sLeftOut 0x130080 = (.dead, sLeftOut) ∧
    (State.ingress (farAcc (.load .b64) 0x20080) 0 true false sCount 0x120080).1 = .fault 0 0 ∧
    sCount.isBroken 0x200080 8 = false ∧ sBad.isBroken 0x200080 8 = true ∧
    State.ingress (farAcc (.load .b64) 0x80) 0 true false sBad 0x100080 = (.home 0x200080 0, sBad) ∧
    atomNew .add .b64 (sCount.readNat 0x200080 8) 1 0 = some 1 ∧ atomNew .cas .b64 (sCount.readNat 0x200080 8) 1 0 = none ∧
    (sCount.enqAt (State.ingress (farAcc (.enq 0x100100) 0x80) 0 true true) 0x200080 0x100100).1 = .done 0 ∧
    sCount.hop 0x200080 8 0 = .done 0 := by decide +kernel

/-- Elements at word 0x10080: a store of four bytes, a sum, and one of no code. -/
def elAt (op : BitVec 6) (be : BitVec 8) : Elem := { op := op, be := be, off := 0x10080 / 8, value := 0x0102030405060708 }
theorem wit_accepted : elemRun (elAt 11 255) = none ∧ elemRun (elAt 0 15) = some (0, 8) ∧ elemRun (elAt 1 0xF0) = some (4, 4) ∧
    (8 * (elAt 1 0xF0).off.toNat + 4 = 0x10084) ∧ (winIn 13).rights.getLsbD 1 = false ∧ (winIn 15).rights.getLsbD 2 = true ∧
    State.ingress { farAcc (.load .b64) 0x80 with elem := some (elAt 0 15) } 0 false true sCount 0x100080 = (.home 0x200080 0, sCount) ∧
    sCount.tablesWf = true ∧ elemAtom 1 = some .add ∧
    atomNew .add (widthOfBytes 4) (sCount.readNat 0x200084 4) (0x0102030405060708 / 2 ^ 32 % 2 ^ 32) 0 = some 0x01020304 := by
  decide +kernel

/-- Lanes that lost light; a path that has been in HOLD; a newer epoch that the peer has; keys that unwrap or do not. -/
def sDark : State := { sLink id with laneLoss := [(0, 7)] }
def sHold (n : Nat) : State := { (sLink fun c => { c with st := .hold }) with cyc := n }
def sEpoch : State := sLink fun c => { c with peerAdv := [2] }
theorem wit_control : tget 0 sDark.laneLoss (2 * 0 + 0) ≠ 0 ∧ sDark.laneMask 0 ||| 3 ≠ tget 0xFFFF sDark.lanes 0 ∧
    ((sHold 101).conn? 3 0).map (fun c => (c.used, c.st, c.since)) = some (true, .hold, 100) ∧
    (sHold 101).cyc < 100 + ((sHold 101).isle ((sHold 101).egress 3)).pdto ∧
    100 + ((sHold (2 ^ 64)).isle ((sHold (2 ^ 64)).egress 3)).pdto ≤ (sHold (2 ^ 64)).cyc ∧
    sEpoch.conns.map sEpoch.usableEpoch = [some 2] ∧ sEpoch.conns.map (·.replay) = [[]] ∧
    (sLink id).conns.any (fun c => c.peer == 3 && c.peer != (sLink id).fpkg && c.used && decide (c.st = .up)) = true ∧
    sMem.phase ≠ .off ∧ (sHold 101).conns.map (fun c => (c.peer, c.used, c.exhausted)) = [(3, true, false)] ∧
    ({ sHold 101 with froute := tset 0 (sHold 101).froute 3 0x8000 } : State).channelUp 0 = true ∧
    sMem.conns = [] ∧ sMem.reachBit 3 = false ∧ sMem.keys = [] ∧ (sLink id).keys ≠ [] ∧ (0x10005 : Word).toNat < 2 ^ 24 ∧
    (0x1000005 : Word).toNat < 2 ^ 25 ∧ 2 ^ 24 ≤ (0x1000005 : Word).toNat := by decide +kernel

end Sys2Proof.Tests

namespace Sys2Proof.Tests
open Sys2Proof Sys2Proof.Machine

/-! ### The hypotheses of the statements on harbour accesses, tiles, copies and TWAIT are met -/

/-- The untranslated first GiB is mapped for the harbour, with supervisor atomics, by a leaf of space 0xFFFF. -/
def sHarb : State := (((sMem.writeWord 0x7FFF8 0x8000000000001000).writeWord 0x1000 0x8000000000002000).writeWord 0x2000
  0x8000000000003000).writeWord 0x3000 0xE000000000000003
def sResv (t : Nat) : State := { sHarb with cyc := 5000, resv := [(4, ⟨0x100080, t⟩)] }
/-- The GiB without the system-atomic attribute. -/
def sNoSa : State := sHarb.writeWord 0x3000 0xC000000000000003
theorem wit_harbour_stops : (0x100084 : Nat) % 8 ≠ 0 ∧ inWindow 0x007F000000000040 = true ∧
    (sMem.harbourReach .load 0x100080 8) = (.exc 5, sMem) ∧
    (match sHarb.walk 0xFFFF 0x100080 with
      | .leaf e => e.r && e.w && e.sa
      | _ => false) = true ∧
    (match sNoSa.walk 0xFFFF 0x100080 with
      | .leaf e => !e.sa
      | _ => false) = true ∧ sMem.walk 0xFFFF 0x100080 = .fault false none ∧
    (0x2001 : Nat) % 8 ≠ 0 ∧ (tget 0 ({ sMem with ports := [(2 ^ 20, 0x1000005)] } : State).ports (2 ^ 20)).getLsbD 24 = true ∧
    (∀ i, i < 6 → tget 0 ({ sMem with ports := [(2 ^ 20, 0x1000005)] } : State).ports (2 ^ 20 + (i + 1)) = 0) := by
  decide +kernel

theorem wit_harbour : (0x100080 : Word).toNat < 2 ^ 55 ∧
    (∀ a ∈ [HAcc.load, .store, .amo, .lr, .sc], sHarb.harbourReach a 0x100080 8 = (.home 0x100080, sHarb)) ∧
    isAmo .add .b64 = true ∧ atomNew .add .b64 (sHarb.readNat 0x100080 8) 5 0 = some 5 ∧
    (sResv 4000).harbourReach .sc 0x100080 8 = (.home 0x100080, sResv 4000) ∧ (sResv 4000).reserved 4 0x100080 = true ∧
    (sResv 4000).reserved 4 0x100088 = false ∧ (sResv 4000).cyc < (tget (⟨2 ^ 61, 0⟩ : Resv) (sResv 4000).resv 4).at_ + 4096 ∧
    (tget (⟨2 ^ 61, 0⟩ : Resv) (sResv 100).resv 4).at_ + 4096 ≤ (sResv 100).cyc ∧
    tget (⟨2 ^ 61, 0⟩ : Resv) (sResv 100).resv 4 ≠ ⟨2 ^ 61, 0⟩ ∧ 2 ^ 55 ≤ (0x80000000000000 : Word).toNat ∧
    sMem.harbourReach .amo 0x100080 8 = (.exc 7, sMem) ∧ (0x1FFE : Nat) < 0x2000 ∧ (0x1FFE : Nat) % 2 = 0 := by decide +kernel

/-- Quire 0 with tiles 0 to 2 of an allocation of set 0, tile 2 its guard; `f` changes tile 0. -/
def tile0 : Tile := { Tile.init with alloc := true, granules := 32, dirty := true }
def sTile (f : Tile → Tile) : State := memT (fun t => { t with xlo := [.full 0, .full 7, .full 2, .full 1, .full 8177, .dead, .dead] })
  |>.modQuire 0 fun q => { q with tiles := [(0, f tile0), (1, tile0), (2, { tile0 with guard := true })] }
theorem wit_tiles : (sTile id).operands g0 [x 3] [2] (after (sTile id) [x 3]) ∧
    (sTile id).operands g0 [x 5] [8177] (after (sTile id) [x 5]) ∧ 8176 < (8177 : Word).toNat ∧
    okB (((sTile id).setQuire 0 (((sTile id).quire 0).allocate 0 0 2).2).put 9 3) = true ∧
    (((sTile id).quire 0).allocate 0 0 2).1.getLsbD 63 = false ∧ (((sTile id).quire 0).allocate 0 0 8177).1.getLsbD 63 = true ∧
    (∀ i ∈ [0, 1], (tileOf ((sTile id).quire 0) (3 + i)).alloc = false ∧ (tileOf ((sTile id).quire 0) (3 + i)).zeroing = false) ∧
    (∀ t ∈ [0, 1, 2], (tileOf ((sTile id).quire 0) t).alloc = true) ∧
    (sTile id).operands g0 [x 1] [0] (after (sTile id) [x 1]) ∧ (tileOf ((sTile id).quire 0) 0).first = 0 ∧
    (tileOf ((sTile id).quire 0) 0).tsid = (sTile id).me.tsid.getD 0 ∧
    (sTile id).operands g0 [x 2] [7] (after (sTile id) [x 2]) ∧ (tileOf ((sTile id).quire 0) 7).alloc = false ∧
    (tileOf ((sTile fun t => { t with engine := true }).quire 0) 0).engine = true ∧
    (∀ i ∈ [0, 1, 2], (tileOf ((sTile id).quire 0) i).engine = false ∧ (tileOf ((sTile id).quire 0) i).inq = false ∧
      (after (sTile id) [x 1]).tileWatched 0 i = false) ∧
    (tileOf ((sTile fun t => { t with zeroing := true }).quire 0) 0).zeroing = true ∧
    (sTile fun t => { t with zeroing := true }).tablesWf = true ∧
    tabWf Tile.init ((sTile fun t => { t with zeroing := true }).quire 0).tiles = true := by
  simp only [operands_iff]; decide +kernel

/-- No run of tiles is free where every tile is allocated. -/
theorem wit_no_tiles (q : Quire) (h : ∀ t, t < 512 → (tileOf q t).alloc = true) (k : Nat) :
    ∀ t, ¬ (t + k < 512 ∧ ∀ i, i ≤ k → (tileOf q (t + i)).alloc = false ∧ (tileOf q (t + i)).zeroing = false) := by
  rintro t ⟨h1, h2⟩
  have := (h2 0 (Nat.zero_le _)).1
  rw [h (t + 0) (by omega)] at this
  cases this

theorem wit_tileInstr : (tileOf ((sTile id).quire 0) 7).alloc = false ∧ (tileOf ((sTile id).quire 0) 2).guard = true ∧
    (tileOf ((sTile id).quire 0) 0).guard = false ∧ (tileOf ((sTile id).quire 0) 0).engine = false ∧
    (after (sTile id) [x 1]).accs = [] ∧
    (tileOf ((sTile fun t => { t with engine := true, inq := true }).quire 0) 0).inq = true ∧
    okB ((after (sTile id) [x 1]).put 9 0) = true ∧ (after (sTile id) [x 3]).fenceHolds 1 setL = false ∧
    ((2 : Word) + BitVec.signExtend 64 (6 : BitVec 40)).toNat < 2 ^ 21 ∧ ((2 : Word) + BitVec.signExtend 64 (6 : BitVec 40)).toNat % 8 = 0 ∧
    okB ((after (sTile id) [x 3]).emptyXj (xIndex 0 9)) = true ∧ ((after (sTile id) [x 3]).core 0).sb = [] ∧
    sMem.operands g0 [x 7] [-1] (after sMem [x 7]) ∧ 2 ^ 21 ≤ (-1 : Word).toNat ∧
    (sTile id).operands g0 [x 3, x 2] [2, 7] (after (sTile id) [x 3, x 2]) ∧ (after (sTile id) [x 3, x 2]).fenceHolds 1 setS = false := by
  simp only [operands_iff]; decide +kernel

/-- A plain load of tile 0 is on its way; an LDFE of a word of the scratchpad is. -/
def sDueTile : State := nextOf (exec (.spld g0 9 (x 1) .b64 false 0) (sTile id))
def sSpBehind : State := nextOf (exec (.ldfe g0 9 (x 6) 0) sOwn)
theorem wit_tiles_due : (after (sTile id) [x 1]).tilesDue 0 1 = false ∧ (after sDueTile [x 1]).tilesDue 0 1 = true ∧
    opCheck sDueTile g0 [x 1] [0] = true ∧ (tileOf (sDueTile.quire 0) 0).engine = false ∧
    (sSpBehind.accs.any fun a => a.slot == 1 && decide (a.gen = sSpBehind.me.gen) && !a.plain &&
      spansMeet a.words [spanOf (2 ^ 48 + 0x40) 8, vaSpan (spBase + 0x40) 8]) = true ∧
    (∀ m ∈ (sTile fun t => { t with zeroing := true }).moors, m.area = none) := by decide +kernel

/-- A folio of 2 F32 elements at 0x100080, held by quire 0, and one that may be read but not written. -/
def folio0 : Folio := [0x100080, 2, 0, 0, 0, 0, 0x8301000800000000, 0]
def copy0 : Copy := {
  no := 6, acc := 6, slot := 1, gen := 1, job := 0, tile := 0, tiles := 1, bytes := 8, out := false, fill := false, fmt := .f32, folio := folio0, origin := 0
  extent := 2, todo := [0, 1], held := false }
def sCopy (q : Quire → Quire) : State := { ((sTile id).modQuire 0 fun u => q { u with folios := [3] }) with folios := [(3, folio0)] }
def sRun (c : Copy) : State := (sCopy fun q => { q with running := [c] }).modIsle 0 fun i => { i with tlb := [memPage] }
theorem wit_copy : (sCopy id).operands g0 [x 1, x 1, x 3] [0, 0, 2] (after (sCopy id) [x 1, x 1, x 3]) ∧
    (sCopy id).fenceHolds 1 setE = false ∧ ((sCopy id).quire 0).copyq.length < 32 ∧ 3 ∈ ((sCopy id).quire 0).folios ∧
    copyRefusal ((sCopy id).quire 0) folio0 0 1 8 (coordsOf 0) (coordsOf 2) false .f32 = 0 ∧
    copyRefusal ((sCopy id).quire 0) folio0 7 1 8 (coordsOf 0) (coordsOf 2) false .f32 = 1 ∧
    (sCopy id).tilesDue 0 1 = false ∧ ({ sDueTile with folios := [(3, folio0)] } : State).tilesDue 0 1 = true ∧
    okB (((after (sCopy id) [x 1, x 1, x 3]).acceptCopy folio0 0 1 8 0 2 false false .f32).2.put 9 5) = true ∧
    ((sCopy fun q => { q with copyq := [copy0] }).quire 0).copyq = copy0 :: [] ∧
    (sCopy fun q => { q with copyq := [copy0] }).settledBefore 1 1 6 = true ∧
    4 ≤ ((sCopy fun q => { q with copyq := [copy0], running := List.replicate 4 copy0 }).quire 0).running.length ∧
    ((sRun { copy0 with held := true }).quire 0).running[0]? = some { copy0 with held := true } ∧
    (sRun { copy0 with todo := [] }).findCopy 0 6 = some { copy0 with todo := [] } ∧
    (sRun copy0).findCopy 0 6 = some copy0 ∧ copy0.todo[1]? = some 1 ∧ copy0.group 1 = [0, 1] ∧
    okIs ((sRun copy0).copyReads copy0 0 [0, 1]).1 [0, 0] = true ∧ ((sRun copy0).copyReads copy0 0 [0, 1]).2 = sRun copy0 ∧
    (sRun copy0).isBroken (copy0.tileHome 0 0 / 8 * 8) 8 = false ∧
    ((0, 9) ∈ ({ sCopy id with folioWait := [(0, 9)] } : State).folioWait) ∧ ((sCopy id).quire 0).folios.length < 256 := by
  simp only [operands_iff]; decide +kernel

/-- A slot in TWAIT: on tile 0 in phase 1 with a deadline and a promise, and its issue. -/
def sTw (f : Tile → Tile) (dl pr : Word) (e : Option Nat) : State := memT (fun t => { t with
    xlo := [.full 0, .full dl, .full pr, .full 7, .dead, .dead, .dead]
    stall := .twait 0 true dl pr e })
  |>.modQuire 0 fun q => { q with tiles := [(0, f tile0), (1, tile0), (2, { tile0 with guard := true })] }
def sTw0 (dl : Word) : State := (sTw id dl 0 none).modSlot 1 fun t => { t with stall := .none }
theorem wit_twait : (sTw0 0).me.stall = .none ∧ (sTw0 0).operands g0 [x 1, x 2, x 3] [0, 0, 0] (after (sTw0 0) [x 1, x 2, x 3]) ∧
    (sTw0 0).operands g0 [x 4, x 2, x 3] [7, 0, 0] (after (sTw0 0) [x 4, x 2, x 3]) ∧
    (tileOf ((sTw0 0).quire 0) 7).alloc = false ∧ (tileOf ((sTw0 0).quire 0) 0).alloc = true ∧
    (tileOf ((sTw0 0).quire 0) 0).engine = false ∧ (tileOf ((sTw0 0).quire 0) 0).phase = false ∧
    (sTw id 500 50 none).cyc < (500 : Word).toNat ∧ (50 : Word).toNat ≤ (sTw id 500 50 none).cyc ∧ (50 : Word).toNat ≤ (sTw id 50 50 none).cyc ∧
    (50 : Word) ≠ 0 ∧ (50 : Word).toNat ≤ (sTw0 50).cyc ∧ (sTw0 500).cyc < (500 : Word).toNat ∧
    okB (((sTw0 0).modSlot 1 fun u => { u with stall := .none }).put 9 0) = true ∧
    (sTw id 50 0 (some 1)).me.stall = .twait 0 true 50 0 (some 1) ∧
    (sTw id 0 50 (some 4)).me.stall = .twait 0 true 0 50 (some 4) ∧ ((sTw (fun t => { t with inq := true }) 500 50 none).modSlot 1
      fun t => { t with estat := 1 }).me.inh = true ∧ ((sTw id 50 0 none).slot 1).stall = .twait 0 true 50 0 none ∧
    (tileOf ((sTw (fun t => { t with inq := true }) 500 50 none).quire 0) 0).inq = true ∧
    (tileOf ((sTw (fun t => { t with inq := true }) 500 50 none).quire 0) 0).pm = false ∧
    ((sTw (fun t => { t with inq := true }) 500 50 none).slot 1).tctl.getLsbD 0 = false ∧
    ((sTw (fun t => { t with inq := true }) 500 50 none).slot 1).inh = false := by
  simp only [operands_iff]; decide +kernel

end Sys2Proof.Tests

namespace Sys2Proof.Tests
open Sys2Proof Sys2Proof.Machine

/-! ### The hypotheses of the statements on vectors are met -/

/-- A v register's field (R38): v0 is number 32. -/
def vr (n : Nat) : Src := x (BitVec.ofNat 6 (32 + n))

theorem writeV_ok (s : State) (n : Nat) (v : BitVec 4096) (h : okB (writable (s.me.vCell n) (86 + n)) = true) (hh : s.me.held n = false) :
    ∃ t, s.writeV n v = .ok t := by
  unfold State.writeV
  cases hw : writable (s.me.vCell n) (86 + n) with
  | error e => rw [hw] at h; cases h
  | ok c => exact ⟨_, by simp [bind, Except.bind, hh]; rfl⟩

/-- v0 and v1 are 0, v15 is DEAD: VADD of F32 lanes into v15, VMOV of a DEAD register; each result has its lanes. -/
theorem wit_lanes : (∃ c, vecCalc (.vadd g0 47 (vr 0) (vr 1) .rne false .f32) = some c ∧ sVec.operandsV c.g c.srcs [0, 0] sVec ∧
      4096 % c.w = 0 ∧ ∃ v t, hasLanes c.w v (c.f fun k n => laneOf c.w (([0, 0] : List (BitVec 4096)).getD k 0) n) ∧
        sVec.writeV (vNum c.d) v = .ok t) ∧
    sVec.operandsV g0 [vr 15] [0] sVec := by
  have c0 : sVec.me.vCell 0 = .full 0 := by decide +kernel
  have c1 : sVec.me.vCell 1 = .full 0 := by decide +kernel
  have c15 : sVec.me.vCell 15 = .dead := by decide +kernel
  have hd : sVec.me.deadmode.getLsbD 0 = false := by decide +kernel
  have hg : sVec.guardTrue g0 = .ok true := by rw [ok_iff]; decide +kernel
  have hl : sVec.me.lease ≠ none := by decide +kernel
  refine ⟨⟨_, rfl, ⟨hg, hl, rfl, ?_, rfl⟩, by decide, ?_⟩, ⟨hg, hl, rfl, ?_, rfl⟩⟩
  · intro k a y ha hx
    match k with
    | 0 => simp at ha hx; subst ha hx; exact .inl c0
    | 1 => simp at ha hx; subst ha hx; exact .inl c1
    | k + 2 => simp at ha
  · obtain ⟨t, ht⟩ := writeV_ok sVec 15 _ (by decide +kernel) (by decide +kernel)
    exact ⟨_, t, hasLanes_vecOf _ _, ht⟩
  · intro k a y ha hx
    match k with
    | 0 => simp at ha hx; subst ha hx; exact .inr ⟨c15, hd, rfl⟩
    | k + 1 => simp at ha

theorem wit_scalars : sVec.operands g0 [x 2] [7] (after sVec [x 2]) ∧ sVec.me.lease ≠ none ∧ sVec.me.vCell (vNum (vr 0).reg) = .full 0 ∧
    (∃ v t, hasLanes 32 v (fun _ => 7) ∧ (after sVec [x 2]).writeV 15 v = .ok t) ∧ (∃ r, readX 1 (x 2) sVec.rd = .ok (7, r)) ∧
    (∃ r, readX 2 (x 1) sVec.rd = .ok (0x100080, r)) ∧ (∃ t, (after sVec [x 2]).put 9 0 = .ok t) ∧ isFloat .n16 = false ∧
    8 ≤ fmtWidth .n16 := by
  have h1 : readX 1 (x 2) sVec.rd = .ok (7, sVec.rd) := by with_unfolding_all rfl
  have h2 : readX 2 (x 1) sVec.rd = .ok (0x100080, sVec.rd) := by with_unfolding_all rfl
  obtain ⟨t, ht⟩ := writeV_ok (after sVec [x 2]) 15 (vecOf 32 fun _ => 7) (by decide +kernel) (by decide +kernel)
  exact ⟨by rw [operands_iff]; decide +kernel, by decide +kernel, by decide +kernel, ⟨_, t, hasLanes_vecOf _ _, ht⟩, ⟨_, h1⟩, ⟨_, h2⟩,
    by rw [exists_ok]; decide +kernel, by decide, by decide⟩

theorem laneOf_zero (w i : Nat) : laneOf w 0 i = 0 := by simp [laneOf]

/-- F32 to BF16 from v0 and v1 into one register, BF16 to F32 from v0 into two; VWADD and VWMUL of BF16 lanes. -/
theorem wit_conversions : sVec.guardTrue g0 = .ok true ∧ sVec.me.lease ≠ none ∧
    ([0, 0] : List (BitVec 4096)).length = fmtWidth .f32 / min (fmtWidth .f32) (fmtWidth .bf16) ∧
    (∀ r, r < 2 → sVec.me.vCell (0 + r) = .full (([0, 0] : List (BitVec 4096)).getD r 0)) ∧
    (∀ i, cvtElem .bf16 .f32 .rne (maxBits .bf16) none (laneOf 32 0 i) = 0) ∧ hasLanes 16 0 (fun _ => 0) ∧ hasLanes 32 0 (fun _ => 0) ∧
    (∀ i, cvtElem .f32 .bf16 .rne (maxBits .f32) none (laneOf 16 0 i) = 0) ∧ Fmt.f32 = wideOf .bf16 ∧
    (∀ i, wideLane false .rne .bf16 (laneOf 16 0 i) (laneOf 16 0 i) = 0) ∧ (∃ t, sVec.writeVs 15 [0] = .ok t) ∧
    (∃ t, sVec.writeVs 14 [0, 0] = .ok t) ∧ (∃ r, readX 1 (x 2) sVec.rd = .ok (7, r)) ∧
    (∃ v t, hasLanes 16 v (fun i => cvtElem .bf16 .f32 .rne (maxBits .bf16) (some (srBits 7 i)) (laneOf 32 0 i)) ∧
      (after sVec [x 2]).writeVs 15 [v] = .ok t) := by
  have h1 : readX 1 (x 2) sVec.rd = .ok (7, sVec.rd) := by with_unfolding_all rfl
  refine ⟨by rw [ok_iff]; decide +kernel, by decide +kernel, by decide, by decide +kernel, ?_, ?_, ?_, ?_, by decide, ?_,
    by rw [exists_ok]; decide +kernel, by rw [exists_ok]; decide +kernel, ⟨_, h1⟩, ?_⟩
  · intro i; rw [laneOf_zero]; decide +kernel
  · intro i _; rw [laneOf_zero]; rfl
  · intro i _; rw [laneOf_zero]; rfl
  · intro i; rw [laneOf_zero]; decide +kernel
  · intro i; rw [laneOf_zero]; decide +kernel
  · obtain ⟨t, ht⟩ := writeV_ok (after sVec [x 2]) 15 (vecOf 16 fun i =>
      cvtElem .bf16 .f32 .rne (maxBits .bf16) (some (srBits 7 i)) (laneOf 32 0 i)) (by decide +kernel) (by decide +kernel)
    exact ⟨_, t, hasLanes_vecOf _ _, by simp only [State.writeVs, ht, bind, Except.bind]⟩

/-- Core 0 with every lease out, with the lowest out; a lease that still waits. -/
def sFullL : State := sMem.modCore 0 fun c => { c with leases := List.range 16 }
def sSomeL : State := sMem.modCore 0 fun c => { c with leases := [0] }
def sBusyL : State := memT fun t => { t with lease := some 0, v := (List.replicate 15 .dead) ++ [due.elim] }
where due.elim : VCell := .empty dueMarks
theorem wit_leases : sVec.me.lease = some 0 ∧ (∃ t, sVec.put 9 0x8000000000000002 = .ok t) ∧ sMem.me.lease = none ∧
    (sFullL.core 0).leaseWait = [] ∧ (∀ l, l < 16 → l ∈ (sFullL.core 0).leases) ∧ (∃ t, sFullL.put 9 0x8000000000000001 = .ok t) ∧
    1 ∉ (sSomeL.core 0).leases ∧ (∀ m, m < 1 → m ∈ (sSomeL.core 0).leases) ∧
    (∃ t, (((sSomeL.modSlot 1 fun u => { u with vdirty := 0xFFFF }).modCore 0 fun c => { c with leases := 1 :: c.leases }).modSlot 1
      fun u => { u with lease := some 1, v := List.replicate 16 .dead }).put 9 1 = .ok t) ∧
    sVec.me.leaseBusy = false ∧ sVec.me.st = .active ∧ sVec.tablesWf = true ∧ sBusyL.me.lease = some 0 ∧ sBusyL.me.leaseBusy = true := by
  simp only [exists_ok]; decide +kernel

/-- A folio of 64 I64 elements in the page that isle 0 holds, usable by quire 0; and one that is not valid. -/
def folio1 : Folio := [0x100000, 64, 0, 0, 0, 0, 0x8301000600000000, 0]
def sVecMem : State := { ((memT fun t => { t with
    lease := some 0, v := (List.replicate 15 (.full 0)) ++ [.dead], xlo := [.full 0, .full 7, due, .dead, .dead, .full 1, .dead] }).modQuire 0
  fun q => { q with folios := [1, 2] }) with folios := [(1, folio1)] }
theorem wit_vectorMemory : sVecMem.guardTrue g0 = .ok true ∧ sVecMem.me.lease ≠ none ∧ 1 ∈ (sVecMem.quire 0).folios ∧
    2 ∈ (sVecMem.quire 0).folios ∧ (sVecMem.folio 2).valid = false ∧ sVecMem.fenceHolds 1 setE = false ∧
    (rowCoords .i64 0).length = lanesOf .i64 ∧ (indexCoords .i64 0 0).length = lanesOf .i64 ∧
    (∃ r, readX 0 (x 1) sVecMem.rd = .ok (0, r)) ∧ (sVecMem.folio 1).valid = true ∧ (sVecMem.folio 1).canRead = true ∧
    (sVecMem.folio 1).canWrite = true ∧ (sVecMem.folio 1).fmt = .i64 ∧ (sVecMem.folio 1).base < 2 ^ 55 ∧
    (List.range 64).all (fun n => !(sVecMem.folio 1).oob ((rowCoords .i64 0).getD n []) &&
      decide (sVecMem.peek 1 0 ((sVecMem.folio 1).addr ((rowCoords .i64 0).getD n [])) true true ≠ .deny)) = true ∧
    okB (sVecMem.emptyV 15) = true ∧ sVecMem.me.redcnt < 16 := by
  have h : readX 0 (x 1) sVecMem.rd = .ok (0, sVecMem.rd) := by with_unfolding_all rfl
  have hr : ∃ r, readX 0 (x 1) sVecMem.rd = .ok (0, r) := ⟨_, h⟩
  simp only [hr, ok_iff, true_and]
  decide +kernel

/-- v0 awaits a reply and is bound to identifier 4, v1 is FULL, v2 is DEAD; the reply to v0. -/
def sCatch : State := { ((memT fun t => { t with
    lease := some 0, v := .empty { dueMarks with cw := some 4 } :: .full 0 :: List.replicate 14 .dead }).modCore 0 fun c => { c with
  cwUsed := [4] }) with replies := [{ slot := 1, gen := 1, dst := .reg 86, value := 0, vec := some 0, fatal := false, acc := none }] }
theorem wit_catch : sCatch.guardTrue g0 = .ok true ∧ sCatch.me.lease ≠ none ∧ isFloat .f32 = true ∧
    sCatch.me.vCell 0 = .empty { dueMarks with cw := some 4 } ∧ 4 ∈ (sCatch.core 0).cwUsed ∧ sCatch.me.vCell 1 = .full 0 ∧
    sCatch.me.vCell 2 = .dead ∧ sCatch.me.held 2 = false ∧ 4096 % fmtWidth .f32 = 0 ∧ (127 : Nat) < lanesOf .f32 ∧
    sCatch.replies[0]? = some { slot := 1, gen := 1, dst := .reg (86 + 0), value := 0, vec := some 0, fatal := false, acc := none } ∧
    (sCatch.slot 1).gen = 1 ∧ (sCatch.slot 1).vCell 0 = .empty { dueMarks with cw := some 4 } := by
  simp only [ok_iff]; decide +kernel

end Sys2Proof.Tests

namespace Sys2Proof.Tests
open Sys2Proof Sys2Proof.Machine

/-! ### The hypotheses of the statements on folios and the matrix unit are met -/

/-- A FOLSET record at its home with the words `ws`; a set at user level. -/
def sFolset (ws : List Word) : State := (sent (.folset g0 9 (x 2) (x 1)) 0 false).writeWords 0x200080 ws
theorem wit_folios : sMem.operands g0 [x 2, x 1] [7, 0x100080] (after sMem [x 2, x 1]) ∧ (sMem.slotSet 1).service = true ∧
    (after sMem [x 2, x 1]).fenceHolds 1 setL = false ∧ localAddr 0x100080 64 ∧
    okB ((after sMem [x 2, x 1]).emptyXj (xIndex 0 9)) = true ∧ sMem.locate 1 (0x100080 : Word).toNat true false = .home 0x200080 0 ∧
    home0 (sFolset folio1) = true ∧ (ref0 (sFolset folio1)).op = .record (.folset 7) 64 ∧
    Folio.check ((sFolset folio1).readWords 0x200080 8) = 0 ∧ Folio.check ((sFolset []).readWords 0x200080 8) ≠ 0 ∧
    (sFolset folio1).tablesWf = true ∧ sVecMem.operands g0 [x 2] [7] (after sVecMem [x 2]) ∧
    sVecMem.operands g0 [x 6] [1] (after sVecMem [x 6]) ∧ okB ((after sVecMem [x 6]).emptyXj (xIndex 0 9)) = true ∧
    1 ∈ (sVecMem.quire 0).folios ∧ 2 ∈ (sVecMem.quire 0).folios ∧
    okB (((after sVecMem [x 2]).setFolio 7 Folio.zero).emptyXj (xIndex 0 9)) = true ∧
    sVecMem.operands g0 [x 1, x 2] [0, 7] (after sVecMem [x 1, x 2]) ∧ sVecMem.operands g0 [x 1, x 1] [0, 0] (after sVecMem [x 1, x 1]) ∧
    okB ((after sVecMem [x 1, x 2]).emptyXj (xIndex 0 9)) = true ∧ (sVecMem.folio 2).valid = false ∧ (sVecMem.folio 1).valid = true ∧
    Folio.canWrite (folio1.set 6 0x8101000600000000) = false ∧ Folio.boxEmpty folio1 (coordsOf 0) = true ∧
    Folio.boxEmpty folio1 (coordsOf 7) = false ∧ Nat.testBit (Folio.base folio1) 55 = false ∧
    Nat.testBit (Folio.base (folio1.set 0 0x80000000000000)) 55 = true ∧ Folio.boxOob folio1 (coordsOf 60) (coordsOf 7) = true := by
  simp only [operands_iff, localAddr]; decide +kernel

/-- A command of the test thread, with its sources and folio; core 0 with it queued. -/
def mxCmd (op : BitVec 10) (s1 s2 s3 : Word) (f : Folio) : MxCmd := {
  no := 0, acc := 0, tsid := 0, src := .own 1 1, opcode := op, cmpl := 0, low := 0, s1 := s1, s2 := s2, s3 := s3, fa := f, fb := f, next := 0, seen := [] }
def sArray (m : MxCmd) : State := (memT id).modCore 0 fun c => { c with mxq := [m], tlb := [memPage] }
theorem wit_matrix : mxForm (.mxz g0 1) = some ⟨g0, [], 0x165, 0, (1 : BitVec 3).toNat * 2 ^ 22, none, none⟩ ∧
    sMem.operands g0 [] [] (after sMem []) ∧ sMem.fenceHolds 1 setE = false ∧
    (MxForm.cmd ⟨g0, [], 0x165, 0, (1 : BitVec 3).toNat * 2 ^ 22, none, none⟩ sMem []).detail = none ∧
    (sMem.core 0).accDrops (MxForm.cmd ⟨g0, [], 0x165, 0, (1 : BitVec 3).toNat * 2 ^ 22, none, none⟩ sMem []) = false ∧
    sMem.me.deadmode.getLsbD 0 = false ∧ (sMem.core 0).mxAll.length < 32 ∧ (sMem.core 0).accs.length = 8 ∧
    mxForm (.mxld g0 (x 1) 1 2) = some ⟨g0, [x 1], 0x168, 0, 2 ^ 22 + 2, some 2, none⟩ ∧
    sVecMem.operands g0 [x 1] [0] (after sVecMem [x 1]) ∧ 2 ∈ (sVecMem.quire 0).folios ∧
    (MxForm.cmd ⟨g0, [x 1], 0x168, 0, 2 ^ 22 + 2, some 2, none⟩ sVecMem [0]).detail = some (false, 1) ∧
    sMem.operands g0 [x 2] [7] (after sMem [x 2]) ∧ (sMem.slotSet 1).service = true ∧ ((sMem.core 0).mxAll.filter fun m => m.ofSlot 1 sMem.me.gen) = [] ∧
    (((sArray (mxCmd 0x165 0 0 0 [])).core 0).mxAll.filter fun m => m.ofSlot 1 1) ≠ [] ∧ okB (sMem.put 9 0) = true ∧
    sMem.operands g0 [x 2, x 1] [7, 0x100080] (after sMem [x 2, x 1]) ∧ (after sMem [x 2, x 1]).fenceHolds 1 (setL ||| setE) = false ∧
    localAddr 0x100080 32 := by
  have h : mxForm (.mxld g0 (x 1) 1 2) = some ⟨g0, [x 1], 0x168, 0, 2 ^ 22 + 2, some 2, none⟩ := rfl
  refine ⟨rfl, ?_⟩
  simp only [h, operands_iff, localAddr, true_and]
  decide +kernel

/-- Reads that answer without a change of state make a list of answers. -/
theorem engList_ok {α β : Type} (rd : State → α → Except EngFail β × State) (s : State) (v : β) (l : List α)
    (h : ∀ a ∈ l, rd s a = (.ok v, s)) : ∃ vs, engList rd s l = (.ok vs, s) := by
  induction l with
  | nil => exact ⟨[], rfl⟩
  | cons a l ih =>
    obtain ⟨vs, hv⟩ := ih fun b hb => h b (.tail _ hb)
    exact ⟨v :: vs, by simp [engList, h a (.head _), hv]⟩

/-- A folio with no elements: every access is padded. -/
def folioE : Folio := [0x100000, 0, 0, 0, 0, 0, 0x8311000A00000000, 0]
theorem engElem_empty (s : State) (e : Eng) (c : List Nat) : s.engElem e folioE c = (.ok none, s) := by
  have : folioE.oob c = true := by
    simp [Folio.oob, show folioE.rank = 1 by decide, show folioE.dim 0 = 0 by decide, List.range, List.range.loop]
  simp [State.engElem, this]
theorem engWeight_empty (s : State) (e : Eng) (c : List Nat) : s.engWeight e folioE c = (.ok none, s) := by
  simp [State.engWeight, engElem_empty]

/-- BF16 elements in the page that isle 0 holds; an MXDOT over two of them. -/
def folioH : Folio := [0x100000, 4, 0, 0, 0, 0, 0x8311000A00000000, 0]
def mDot : MxCmd := mxCmd 0x169 0 2 2 folioH
def uDot : State := ((sArray mDot).modCore 0 fun c => { c with mxq := [] }).modCore 0 fun c => { c with array := some ⟨mDot, c.accVal 0, none⟩ }
/-- MXA on weight slot 0 in the state `w`, with the folio `f`. -/
def sMxa (w : WSt) (f : Folio) : State := (sArray (mxCmd 0x166 0 0 0 f)).modCore 0 fun c => { c with
  ws := [(0, { WSlot.init with st := w, rows := 8, blocks := 1 })] }
/-- An array whose command has ended, with cause `n`. -/
def sEnded (n : Nat) : State := (memT id).modCore 0 fun c => { c with
  array := some ⟨mxCmd 0x165 0 0 0 [], 0, some n⟩, accs := c.accs.set 0 (.empty dueMarks) }
theorem wit_array : (∀ op ∈ [0x165, 0x166, 0x167, 0x168], (sArray (mxCmd op 0 0 0 folioE)).tablesWf = true ∧
      ((sArray (mxCmd op 0 0 0 folioE)).core 0).array = none ∧
      ((sArray (mxCmd op 0 0 0 folioE)).core 0).mxq = mxCmd op 0 0 0 folioE :: [] ∧
      (sArray (mxCmd op 0 0 0 folioE)).mxSettled (mxCmd op 0 0 0 folioE) = true) ∧
    ((sMxa .invalid folioE).core 0).wsArrived (mxCmd 0x166 0 0 0 folioE) = true ∧
    (((sMxa .invalid folioE).core 0).wslot 0).st = .invalid ∧
    (((sMxa .ready folio0).core 0).wslot 0).st = .ready ∧ (((sMxa .ready folio0).core 0).wslot 0).fmt = .bf16 ∧ folio0.fmt ≠ .bf16 ∧
    folioE.fmt = .bf16 ∧ (0 : Nat) < 1023 ∧ folioE.oob (accCoords (coordsOf 0) 0) = true ∧ mDot.len = 2 ∧
    ((sEnded 4).core 0).array = some ⟨mxCmd 0x165 0 0 0 [], 0, some 4⟩ ∧ ((sEnded 0).core 0).array = some ⟨mxCmd 0x165 0 0 0 [], 0, some 0⟩ ∧
    ((sEnded 4).core 0).mxq = [] ∧ ((sEnded 4).core 0).accs.length = 8 ∧ (mxCmd 0x165 0 0 0 []).accNo < 8 ∧
    ((sEnded 4).core 0).acc 0 = .empty dueMarks ∧ ((sEnded 4).core 0).ldq = [] ∧ ((sEnded 4).core 0).loader = none ∧
    (sEnded 4).tablesWf = true := by decide +kernel

theorem wit_array_reads : (∀ (s : State) (m : MxCmd) (cs : List (List Nat)), m.fa = folioE →
      ∃ vs, engList (fun s c => s.engElem (m.eng 0 m.fa) m.fa c) s cs = (.ok vs, s)) ∧
    (∃ as, okIs (engList (fun s c => s.engElem (mDot.eng 0 mDot.fa) mDot.fa c) uDot [[0, 0, 0, 0], [1, 0, 0, 0]]).1 as = true) ∧
    (engList (fun s c => s.engElem (mDot.eng 0 mDot.fa) mDot.fa c) uDot [[0, 0, 0, 0], [1, 0, 0, 0]]).2 = uDot ∧
    (∃ bs, okIs (engList (fun s c => s.engWeight (mDot.eng 0 mDot.fb) mDot.fb c) uDot [[2, 0, 0, 0], [3, 0, 0, 0]]).1 bs = true) ∧
    (engList (fun s c => s.engWeight (mDot.eng 0 mDot.fb) mDot.fb c) uDot [[2, 0, 0, 0], [3, 0, 0, 0]]).2 = uDot := by
  refine ⟨fun s m cs h => engList_ok _ s none cs fun c _ => by rw [h]; exact engElem_empty _ _ _, ⟨[some 0, some 0], ?_⟩, ?_,
    ⟨[some (0, 0), some (0, 0)], ?_⟩, ?_⟩ <;> decide +kernel

/-- An MXST at work, with and without `.fill`, on `f`; its word is one that it may write, one it may not, one with an error, and one
of a scratchpad tile that is not allocated. -/
def mSt (fill : BitVec 12) (f : Folio) : MxCmd := { mxCmd 0x167 0 0 0 f with cmpl := fill }
def sSt (fill : BitVec 12) (f : Folio) : State := (memT id).modCore 0 fun c => { c with
  array := some ⟨mSt fill f, 0, none⟩, tlb := [memPage, roPage] }
def sStBad : State := { sSt 0 folioH with broken := tset false [] (0x200000 / 8) true }
def stAt (s : State) (fill : BitVec 12) (f : Folio) : Except EngFail Nat × State :=
  s.engAt ((mSt fill f).eng 0 f) (f.addr [0, 0, 0, 0]) 8 false true (fill.getLsbD 0)
def stIs (r : Except EngFail Nat) (n : Nat) : Bool := match r with
  | .ok _ => n == 0
  | .error .fatal => n == 1
  | .error .denied => n == 2
  | .error .refused => n == 3
  | _ => false
theorem wit_mxst : folioH.oob (accCoords (coordsOf 0) 0) = false ∧
    ((folioH.sameWord (coordsOf 0) 0).filter fun j => !folioH.oob (accCoords (coordsOf 0) j)) = [0, 1, 2, 3] ∧
    (List.range 8).all (fun b => (folioH.covered (coordsOf 0) (0x100000 / 8) 4).contains b) = true ∧
    ((sSt 1 folioH).core 0).array = some ⟨mSt 1 folioH, 0, none⟩ ∧ ((sSt 1 folioH).core 0).arrayHeld = false ∧
    (sSt 1 folioH).tablesWf = true ∧ (sSt 1 folioH).moors = [] ∧ okIs (stAt (sSt 1 folioH) 1 folioH).1 0x200000 = true ∧
    okIs (stAt (sSt 0 folioH) 0 folioH).1 0x200000 = true ∧ stIs (stAt sStBad 0 folioH).1 1 = true ∧
    stIs (stAt (sSt 0 (folioH.set 0 0x110000)) 0 (folioH.set 0 0x110000)).1 2 = true ∧
    stIs (stAt (sSt 0 (folioH.set 0 0x007F000000000000)) 0 (folioH.set 0 0x007F000000000000)).1 3 = true ∧
    sStBad.tablesWf = true := by decide +kernel

/-- A loader with a WBLD or WBINV to start, and one in a WBLD; MXSEND's record at its home, and a message that arrives. -/
def sLdq (op : BitVec 10) : State := (memT id).modCore 0 fun c => { c with ldq := [mxCmd op 1 0 0 folioE] }
def sLoader : State := (memT id).modCore 0 fun c => { c with
  loader := some ⟨mxCmd 0x163 0 0 0 folioE, 0, none⟩, ws := [(0, { WSlot.init with st := .loading, rows := 1 })] }
def sMxs (cap : Word) : State := { sMem with
  refs := [{ ref0 sMem with slot := 1, gen := 1, va := 0x100080, home := 0x200080, dst := .reg 9, op := .record (.mxsend cap) 32 }] }
def msgOf (key : Nat) (w0 : Word) : MxMsg := { core := 0, key := key, slot := 1, gen := 1, dst := .reg 9, acc := 0, tsid := 0, rec_ := [w0, 0, 0, 0] }
def sMsg (w0 : Word) : State := { ((memT id).modCore 0 fun c => { c with mxkey := 5 }) with mxMsgs := [msgOf 5 w0, msgOf 6 w0] }
def cmdOf (w0 : Word) : MxCmd := (msgOf 5 w0).cmd (sMsg w0)
def fieldsOk (w0 : Word) : Bool := mxFieldsOk (cmdOf w0).opcode (cmdOf w0).cmpl (cmdOf w0).low
theorem wit_loader : (∀ op ∈ [0x163, 0x164], (sLdq op).tablesWf = true ∧ ((sLdq op).core 0).loader = none ∧
      ((sLdq op).core 0).ldq = mxCmd op 1 0 0 folioE :: [] ∧ (sLdq op).mxSettled (mxCmd op 1 0 0 folioE) = true ∧
      ((sLdq op).core 0).mxq = [] ∧ ((sLdq op).core 0).array = none) ∧ tabWf WSlot.init ((sLdq 0x164).core 0).ws = true ∧
    sLoader.tablesWf = true ∧ (sLoader.core 0).loader = some ⟨mxCmd 0x163 0 0 0 folioE, 0, none⟩ ∧ (sLoader.core 0).loaderHeld = false ∧
    ((sLoader.core 0).wslot 0).st = .loading ∧ home0 (sMxs 7) = true ∧ (7 / 16 % 64 : Nat) < 48 ∧ ((sMxs 7).core (48 * 7 + 0)).excluded = false ∧
    home0 (sMxs 0x300) = true ∧ 48 ≤ (0x300 / 16 % 64 : Nat) ∧ (sMsg 0x165).mxMsgs[0]? = some (msgOf 5 0x165) ∧
    (sMsg 0x165).mxMsgs[1]? = some (msgOf 6 0x165) ∧ ((sMsg 0x165).core 0).mxkey ≠ 0 ∧ ((sMsg 0x165).core 0).mxkey.toNat = 5 ∧
    fieldsOk 0x165 = true ∧ (cmdOf 0x165).detail = none ∧ ((sMsg 0x165).core 0).accDrops (cmdOf 0x165) = false ∧
    fieldsOk 0x100 = false ∧ fieldsOk 0x168 = true ∧ (cmdOf 0x168).detail = some (false, 1) ∧
    ((sMsg 0x165).core 0).mxAll.length < 32 := by decide +kernel

theorem wit_loader_reads (s : State) (e : Eng) (keys : List (Nat × Nat)) :
    ∃ vs, engList (fun s (p : Nat × Nat) => s.engWeight e folioE [p.1, p.2, 0, 0]) s keys = (.ok vs, s) :=
  engList_ok _ s none keys fun _ _ => engWeight_empty _ _ _

end Sys2Proof.Tests

namespace Sys2Proof.Tests
open Sys2Proof Sys2Proof.Machine

/-! ### The hypotheses of the statements on fences, events, task sets and barriers are met -/

/-- An access of slot 1 that is not performed, in the sets `setS`; a thread with a fence record over it, and one with four. -/
def acc1 : Acc := { id := 9, slot := 1, gen := 1, sets := setS, words := [], plain := true, arrived := false }
def sFence (n : Nat) : State := { (memT fun t => { t with fences := List.replicate n { later := 31, ids := [9], no := 0 } }) with accs := [acc1] }
theorem wit_fence : sMem.guardTrue g0 = .ok true ∧ sMem.operands g0 [x 2] [7] (after sMem [x 2]) ∧
    sMem.operands g0 [x 7] [-1] (after sMem [x 7]) ∧ (-1 : Word).extractLsb' 0 5 ≠ 0 ∧ (7 : Word).extractLsb' 5 5 = 0 ∧
    sMem.me.queued = 0 ∧ sMem.me.unacked = 0 ∧ sMem.me.rfst.extractLsb' 32 32 = 0 ∧ sMem.me.fences.length < 4 ∧
    4 ≤ ((sFence 4).me.fences.filter fun f => (sFence 4).accs.any fun a => f.ids.contains a.id).length ∧
    ((sFence 1).accs.filter fun a => a.slot == 1 && decide (a.gen = 1) && decide (a.sets &&& (setS &&& 0x1B) ≠ 0)) = [acc1] ∧
    ((sFence 1).slot 1).fences[0]? = some { later := 31, ids := [9], no := 0 } ∧ (∃ a ∈ (sFence 1).accs, a.id ∈ [9]) ∧
    ({ sFence 1 with accs := [] } : State).accs = [] := by
  simp only [ok_iff, operands_iff]
  decide +kernel

/-- A thread whose registers name events 5 and 6, an event of quire 12, and deadlines; event 5 is set in quire 0. -/
def sEv (st_ : Stall) : State := (memT fun t => { t with xlo := [.full 0x505, .full 0x605, .full 0xC00, .full 50, .full 0x10F03, .full 0, .dead], stall := st_ })
  |>.modQuire 0 fun q => { q with events := 2 ^ 5 }
def upd1 (at_ : Nat) : EvUpd := { quire := 0, bit := 7, set := true, slot := 1, gen := 1, at_ := at_ }
def leafW (ev : Word) : Leaf := { leafR with events := ev, st := .waiting }
def sEvLeaf (ev : Word) : State := (memT id).modQuire 0 fun q => { q with events := 2 ^ 5, leaves := [leafW ev] }
theorem wit_events : (sEv .none).fencesPending 1 = false ∧ (sEv .none).accsIn 1 setLSE = [] ∧
    (sEv .none).operands g0 [x 3] [0xC00] (after (sEv .none) [x 3]) ∧ (12 : Nat) ≤ (0xC00 : Word).toNat / 256 % 16 ∧
    (0xC00 : Word).toNat / 256 % 16 < 15 ∧ (sEv .none).operands g0 [x 5] [0x10F03] (after (sEv .none) [x 5]) ∧
    (0x10F03 : Word).toNat / 256 % 16 = 15 ∧ (sEv .none).operands g0 [x 1, x 6] [0x505, 0] (after (sEv .none) [x 1, x 6]) ∧
    (sEv .none).operands g0 [x 2, x 6] [0x605, 0] (after (sEv .none) [x 2, x 6]) ∧ (sEv .none).me.stall = .none ∧
    ((sEv .none).quire 0).events.getLsbD 5 = true ∧ ((sEv .none).quire 0).events.getLsbD 6 = false ∧
    okB (((after (sEv .none) [x 1, x 6]).modSlot 1 fun u => { u with stall := .none }).put 9 0) = true ∧
    (sEv (.evwait 1 5 50 (some 1))).me.stall = .evwait 1 5 50 (some 1) ∧ ((sEv (.evwait 1 6 50 none)).slot 1).stall = .evwait 1 6 50 none ∧
    (50 : Word).toNat ≤ (sEv .none).cyc ∧ ({ sEv .none with cyc := 9 } : State).cyc < (50 : Word).toNat ∧
    ({ sEv .none with evUpds := [upd1 100] } : State).evUpds[0]? = some (upd1 100) ∧ (upd1 100).bit < 256 ∧
    (upd1 100).at_ ≤ (sEv .none).cyc ∧ (sEv .none).cyc < (upd1 101).at_ ∧ (sEv .none).tablesWf = true ∧
    ((sEvLeaf 0x1000000000005).quire 0).leaves[0]? = some (leafW 0x1000000000005) ∧ (leafW 0x1000000000005).st = .waiting ∧
    ((sEvLeaf 0x2000000000605).quire 0).leaves[0]? = some (leafW 0x2000000000605) ∧
    (List.range (min 4 ((0x2000000000605 : Word).toNat / 2 ^ 48 % 8))).map (fun i => (0x2000000000605 : Word).toNat / 256 ^ i % 256) = [5, 6] := by
  simp only [operands_iff]; decide +kernel

/-- An update of bit 5 that comes in this clock, and one that clears the bit of `upd1`. -/
def sComing : State := { sEvLeaf 0x1000000000005 with evUpds := [{ upd1 100 with bit := 5, set := false, slot := 2 }] }
def sClears : State := { sEv .none with evUpds := [upd1 100, { upd1 100 with set := false, slot := 2 }] }
theorem wit_coming : (sComing.evUpds.any fun w => w.quire == 0 && sComing.evArrives w) = true ∧
    ((sEv .none).evUpds.any fun w => w.quire == 0 && (sEv .none).evArrives w) = false ∧ (sComing.quire 0).leaves[0]? = some (leafW 0x1000000000005) ∧
    (sClears.evUpds.any fun w => !w.set && w.quire == 0 && w.bit == 7 && sClears.evArrives w) = true ∧
    sClears.evUpds[0]? = some (upd1 100) ∧ ((sEvLeaf 0).quire 0).leaves[0]? = some (leafW 0) := by decide +kernel

/-- A LAUNCH record of one task in isle 0, at its home; a set that may launch. -/
def launchW (isles : Word) : List Word := [0x10000, 2 ^ 48 + isles * 2 ^ 32 + 1, 0, 0, 0, 0, 0, 0]
def sLaunch : State := sent (.launch g0 9 (x 1)) 0 false
def launchP (parent : Nat) : List Word := [0x10000, 2 ^ 48 + 2 ^ 32 + 1, 0, 0, BitVec.ofNat 64 (2 ^ 16 + parent), 0, 0, 0]
def sLim : State := sMem.modSet 0 fun t => { t with limit := 24 }
def sEnding : State := sLim.modSet 0 fun t => { t with st := .terminating }
def sPool : State := sLim.modIsle 0 fun i => { i with pool := List.range 4096 }
theorem wit_sets : sMem.operands g0 [x 1] [0x100080] (after sMem [x 1]) ∧ localAddr 0x100080 64 ∧ sMem.fencesPending 1 = false ∧
    sMem.eventsDone 1 = true ∧ okB ((after sMem [x 1]).emptyXj (xIndex 0 9)) = true ∧
    sMem.locate 1 (0x100080 : Word).toNat true false = .home 0x200080 0 ∧ home0 sLaunch = true ∧
    (ref0 sLaunch).op = .record .launch 64 ∧ launchBad [] false = true ∧ launchBad (launchW 1) false = false ∧
    (launchRec (launchW 1)).pvalid = false ∧ (sMem.tset_ 0).limit < (sMem.tset_ 0).depth + 1 ∧
    (sLim.tset_ 0).depth + 1 ≤ (sLim.tset_ 0).limit ∧ (sLim.placedCores (launchRec (launchW 0)).isles).isEmpty = true ∧
    (sLim.placedCores (launchRec (launchW 1)).isles).isEmpty = false ∧ (sLim.tset_ 0).st = .live ∧ sLim.takeRecs [0] = some [(0, 0)] ∧
    launchBad (launchP 9) false = false ∧ (launchRec (launchP 9)).pvalid = true ∧ (launchRec (launchP 9)).parent = 9 ∧
    (sLim.ancestors 24 0).contains 9 = false ∧ launchBad (launchP 0) false = false ∧ (launchRec (launchP 0)).parent = 0 ∧
    ((sEnding.slot 1).tsid.getD 0, (sEnding.tset_ 0).st) = (0, .terminating) ∧ (sEnding.tset_ 0).depth + 1 ≤ (sEnding.tset_ 0).limit ∧
    (sEnding.placedCores (launchRec (launchW 1)).isles).isEmpty = false ∧
    sMem.accsIn 1 setLSE = [] ∧ sMem.me.tsid = some 0 ∧ sMem.guardTrue g0 = .ok true := by
  simp only [operands_iff, localAddr, ok_iff]; decide +kernel

theorem leastFrom_none (q : Nat → Bool) (h : ∀ n, n < 4096 → q n = false) : ∀ n i, i + n ≤ 4096 → leastFrom q n i = none
  | 0, _, _ => rfl
  | n + 1, i, hi => by
    rw [leastFrom, h i (by omega)]
    exact leastFrom_none q h n (i + 1) (by omega)

/-- No record is free where an isle's pool is taken. -/
theorem wit_no_records (s : State) (h : (s.isle 0).pool = List.range 4096) : s.takeRecs [0] = none := by
  have : (s.isle 0).freeRec = none := leastFrom_none _ (fun n hn => by simp [h, hn]) 4096 0 (by omega)
  simp [State.takeRecs, this]

/-- A set whose one task has ended, with nothing owed, and with an access owed. -/
def sRetire (l : List Nat) : State := { (memT fun _ => Slot.init).modSet 0 fun t => { t with ended := 1, sent := [1], owed := l } with accs := [acc1] }
theorem wit_retire : (sRetire []).tablesWf = true ∧ (sRetire []).hasSet 0 = true ∧ ((sRetire []).tset_ 0).st = .live ∧
    ((sRetire []).tset_ 0).allSent = true ∧ ((sRetire []).tset_ 0).tasks ≤ ((sRetire []).tset_ 0).ended ∧
    ((sRetire []).tset_ 0).children = 0 ∧ ((sRetire []).tset_ 0).owed = [] ∧ ((sRetire [9]).tset_ 0).owed = [9] ∧
    ((sRetire [9]).accs.any fun a => a.id == 9) = true ∧ ((sRetire []).tset_ 0).evon = false ∧
    (∀ s ∈ [(sRetire []).modSet 0 fun t => { t with evon := true, evQuire := 3, evBit := 7 }], (s.tset_ 0).evon = true ∧
      (s.tset_ 0).evDone = false ∧ (s.tset_ 0).evBit < 256) := by decide +kernel

/-- Barriers: a context of another count, one in which slot 5 waits, and the statuses. -/
def barOf (count : Nat) : BarCtx := { scope := .lane, inst := 0, key := 0, num := 3, count := count, arrived := [5] }
def sBar (b : List BarCtx) (st_ : Stall) : State := { (memT fun t => { t with stall := st_ }) with bars := b }
def sBar2 (dl : Word) : State := { (sMem.setSlot 5 { thread with stall := .bar dl none }) with bars := [barOf 2] }
theorem wit_barriers : sMem.operands g0 [x 2, x 0] [7, 0] (after sMem [x 2, x 0]) ∧ sMem.operands g0 [x 0, x 0] [0, 0] (after sMem [x 0, x 0]) ∧
    sMem.operands g0 [x 7, x 0] [-1, 0] (after sMem [x 7, x 0]) ∧ 16 < (-1 : Word).toNat % 2 ^ 32 ∧ sMem.me.stall = .none ∧
    sMem.fencesPending 1 = false ∧ grecCount sMem.me.grec = 0 ∧ sMem.eventsDone 1 = true ∧ sMem.accsIn 1 setLSE = [] ∧
    (sBar [] (.bar 0 (some 2))).me.stall = .bar 0 (some 2) ∧ (barInst .lane 1).1 = 0 ∧ (sBar [barOf 3] .none).barKey .lane = 0 ∧
    (sBar [barOf 3] .none).bars.find? (fun c => c.is .lane 0 0 3) = some (barOf 3) ∧ sMem.bars = [] ∧ okB (sMem.put 9 0) = true ∧
    okB (((after sMem [x 2, x 0]).modSlot 1 fun u => { u with stall := .none }).put 9 1) = true ∧ sMem.me.st = .active ∧
    ((sBar2 50).slot 5).stall = .bar 50 none ∧ (sBar2 50).bars = [{ barOf 2 with arrived := [5] }] ∧ (sBar2 50).me.st = .active ∧
    (50 : Word).toNat < (sBar2 50).cyc ∧ (sBar2 500).cyc ≤ (500 : Word).toNat := by
  simp only [operands_iff]; decide +kernel

/-! ### The hypotheses of the statements on code lines, faults and page commands are met -/

/-- A page that may not be read; a code fetch, and the page table of space 0 that maps the first GiB. -/
def noPage : TlbEntry := { memPage with va := 0x130000, r := false }
def fillOf (pc : Word) : CodeFill := { slot := 1, gen := 1, space := 0, pc := pc, ended := none }
def sFill1 (pc : Word) : State := { (sMem.modIsle 0 fun i => { i with tlb := [memPage, noPage] }) with codeFills := [fillOf pc] }
def lineX : CodeLine := { space := 0, line := 0x100040, bytes := 0, bad := false, again := [0] }
def sLine : State := ((memT id).modQuire 0 fun q => { q with code := [lineX] }).modIsle 0 fun i => { i with tlb := [memPage] }
def sPt : State := (((sMem.writeWord 0 0x8000000000001000).writeWord 0x1000 0x8000000000002000).writeWord 0x2000
  0x8000000000003000).writeWord 0x3000 0xC000000000000003
def sWalk (s : State) : State := { s with walks := [{ slot := 1, gen := 1, space := 0, va := 0x140040 }] }
theorem wit_fetch : (sFill1 0x100040).codeFills[0]? = some (fillOf 0x100040) ∧ (fillOf 0x100040).ended = none ∧
    ((sFill1 0x100040).slot 1).gen = 1 ∧ ((sFill1 0x100040).quire 0).lineAt 0 0x100040 = none ∧
    ({ sFill1 0x100040 with codeFills := [] } : State).engineReach (some 0) 0 0 0 0x100040 true false 0
      ((sFill1 0x100040).fetchWho (fillOf 0x100040)) = (.home 0x200040 0, { sFill1 0x100040 with codeFills := [] }) ∧ (sFill1 0x100040).broken = [] ∧
    ({ sFill1 0x130040 with codeFills := [] } : State).engineReach (some 0) 0 0 0 0x130040 true false 0
      ((sFill1 0x130040).fetchWho (fillOf 0x130040)) = (.deny, { sFill1 0x130040 with codeFills := [] }) ∧
    (sLine.quire 0).code[0]? = some lineX ∧ lineX.again ≠ [] ∧ sLine.lineHome 0 0 0x100040 = some 0x200040 ∧
    (sWalk sPt).walks[0]? = some { slot := 1, gen := 1, space := 0, va := 0x140040 } ∧
    tlbFind ((sWalk sPt).isle 0).tlb 0 0x140040 = none ∧ ((sWalk sPt).isle 0).findFault 0 (pageOf 0x140040) = none ∧
    (sWalk sPt).walk 0 0x140040 = .leaf { space := 0, va := 0, size := 2 ^ 30, pa := 0, r := true, w := true, sa := false, sp := false, hisle := 0 } ∧
    (sWalk sMem).walk 0 0x140040 = .fault false none ∧ ((sWalk sMem).isle 0).faults = [] := by decide +kernel

/-- Every fault entry is taken. -/
theorem wit_full_faults : ∀ n, n < 256 → ∃ f ∈ (List.range 256).map (fun n => (n, FaultEnt.init)), f.1 = n :=
  fun n hn => ⟨(n, FaultEnt.init), List.mem_map.2 ⟨n, List.mem_range.2 hn, rfl⟩, rfl⟩

/-- An OPEN entry with a ring whose words have room, or not; QUEUED entry 7 of isle 0, with nothing parked and with a fetch. -/
def openEnt : FaultEnt := { FaultEnt.init with page := 0x12, no := 3 }
def sRing (base : Word) : State := (sMem.setFault 0 5 openEnt).modIsle 0 fun i => { i with fqbase := base }
def sQd (p : List ParkedOn) : State := sMem.setFault 0 7 { FaultEnt.init with queued := true, page := 0x12, parked := p }
def mRing : Moor := { moorOf .ldfe with home := 0x300008 }
theorem wit_ring : firstOpen ((sRing 0).isle 0).faults = some (5, openEnt) ∧ ((sRing 0).isle 0).fqbase = 0 ∧ openEnt.parked = [] ∧
    firstOpen ((sRing 0x300000).isle 0).faults = some (5, openEnt) ∧ ((sRing 0x300000).isle 0).fqbase ≠ 0 ∧
    ((sRing 0x300000).setF 0x300008 true).fBit (0x300000 + 8) = true ∧ (sRing 0x300000).tablesWf = true ∧ (sRing 0x300000).moors = [] ∧
    openEnt.space < 65536 ∧ openEnt.origin < 4 ∧ ((sRing 0x300000).isle 0).fqstep = 0 ∧ (sRing 0x300000).fault 0 5 = openEnt ∧
    (∀ o ∈ [8, 16, 24], (sRing 0x300000).fBit (0x300000 + o) = false ∧ (sRing 0x300000).isBroken (0x300000 + o) 8 = false) ∧
    ((sRing 0x300000).setF 0x300008 true |>.isle 0).fqbase ≠ 0 ∧ ((sRing 0x300000).setF 0x300008 true |>.isle 0).fqstep < 3 ∧
    mRing.home / 8 = (0x300000 + 8) / 8 ∧ mRing.slot ≠ noSlot + 0 ∧ ({ sRing 0x300000 with moors := [mRing] } : State).fBit (0x300000 + 8) = false ∧
    ({ sRing 0x300000 with moors := [mRing] } : State).isBroken (0x300000 + 8) 8 = false ∧ openEnt.queued = false ∧
    firstOpen (({ sRing 0x300000 with moors := [mRing] } : State).isle 0).faults = some (5, openEnt) ∧
    State.ringMoored { sRing 0x300000 with moors := [{ moorOf .stef with slot := noSlot }] } 0 = true ∧
    ((sQd []).isle 0).faults.all (fun e => e.2.queued) = true ∧ sMem.operands g0 [x 2] [7] (after sMem [x 2]) ∧
    (sMem.slotSet 1).service = true ∧ okB ((after sMem [x 2]).emptyXj (xIndex 0 9)) = true ∧ (after sMem [x 2]).handleEntry 7 = none ∧
    (sQd []).operands g0 [x 2] [7] (after (sQd []) [x 2]) ∧ (after (sQd []) [x 2]).handleEntry 7 = some (0, 7) ∧
    (sQd []).accsIn 1 setS = [] ∧ ((sQd []).fault 0 7).parked = [] ∧ (sQd []).remRefs = [] ∧
    ((sQd [⟨.fetch (fillOf 0x120000), 1⟩]).fault 0 7).parked = [⟨.fetch (fillOf 0x120000), 1⟩] := by
  simp only [operands_iff]; decide +kernel

/-- A fetch that REPLAY releases onto a page that is there now, one that may not be read, and one that is still missing. -/
def sFetchQ (s : State) : State := s.setFault 0 7 { FaultEnt.init with queued := true, page := 0x12, parked := [⟨.fetch (fillOf 0x120000), 1⟩] }
theorem wit_replayed : (∀ s ∈ [sPt, sPt.writeWord 0x3000 0xC000000000000002, sMem],
      ((sFetchQ s).fault 0 7).parked = [⟨.fetch (fillOf 0x120000), 1⟩] ∧ (sFetchQ s).remRefs = []) ∧
    ((sPt.setFault 0 7 FaultEnt.init).walkReach (some 0) 0 0 0 0x120000 true false 0 0).1 = .home 0x120000 0 ∧
    (((sPt.writeWord 0x3000 0xC000000000000002).setFault 0 7 FaultEnt.init).walkReach (some 0) 0 0 0 0x120000 true false 0 0).1 = .deny ∧
    ((sMem.setFault 0 7 FaultEnt.init).walkReach (some 0) 0 0 0 0x120000 true false 0 0).1 = .fault 0 0 := by decide +kernel

/-- Page commands in space 0: a bad record, with and without a completion word; a page that is not present; one page to a package that
is reached; one page from a window of the package itself whose page has no translation. -/
def pgOf (r : List Word) : PgCmd := { slot := 1, gen := 1, dst := .reg 9, acc := 0, tsid := 0, space := 0, rec_ := r, seen := [] }
def pgIn : PgCmd := pgOf [0, 0x60000000, 0x10000, 0, 0, 0, 0, 0]
def pgOut : PgCmd := pgOf [3, 0x140000, 0x10000, 0x80000000000000 + 3 * 2 ^ 43, 0, 0, 0, 0]
def pgWait : PgCmd := pgOf [2, 0x140000, 0x10000, 0x80000000000000, 0, 0, 0, 0]
def sPg (p : PgCmd) : State := { sPt with
  pgq := [p], froute := [(3, 2 ^ 15)], keys := [(0, 1, 0)], windows := [(0, { Window.init with local_ := 0x60000000, length := 0x10000, rights := 15 })] }
theorem wit_page_commands : (sPg (pgOf [])).pgq[0]? = some (pgOf []) ∧ (pgOf []).bad = true ∧ (pgOf []).w 5 = 0 ∧
    pgIn.bad = false ∧ pgIn.w 5 = 0 ∧ pgIn.pages = 1 ∧
    (({ sPg pgIn with pgq := [] } : State).pgPages pgIn .ok false 0 0 1).1 = some 2 ∧ (2 : Word).toNat % 256 ≠ 0 ∧
    pgWait.bad = false ∧ pgWait.pages = 1 ∧ (({ sPg pgWait with pgq := [] } : State).pgPages pgWait .ok false 0 0 1).1 = none ∧
    (pgOf [15, 0, 0, 0, 0, 0x150000]).bad = true ∧ (pgOf [15, 0, 0, 0, 0, 0x150000]).w 5 = 0x150000 ∧
    (sPg pgOut).walk 0 0x150000 =
      .leaf { space := 0, va := 0, size := 2 ^ 30, pa := 0, r := true, w := true, sa := false, sp := false, hisle := 0 } ∧
    (sPg pgOut).tablesWf = true ∧ (sPg pgOut).moors = [] ∧ pgOut.bad = false ∧ pgOut.pages = 1 ∧ pgOut.w 5 = 0 ∧
    (pgOut.rec_.getD 0 0).getLsbD 8 = false ∧ (pgOut.rec_.getD 0 0).getLsbD 9 = false := by decide +kernel

theorem writeBlocks_beyond (p : PgCmd) (hp : p.isPeer = true) : ∀ (n : Nat) (s : State) (b : Nat) (bs : List Byte),
    destOf (BitVec.ofNat 64 (p.w 3)) ≠ s.fpkg → s.canReach (destOf (BitVec.ofNat 64 (p.w 3))) (s.tset_ p.tsid).job = true →
    ∃ t, s.writeBlocks p b n bs = (none, t)
  | 0, s, _, _ => fun _ _ => ⟨s, rfl⟩
  | n + 1, s, b, bs => fun hd hr => by
    have : s.farBlock p b true = (.ok .beyond, s) := by simp [State.farBlock, hp, hd, hr]
    simp only [State.writeBlocks, State.writeBlock, this]
    exact writeBlocks_beyond p hp n _ (b + 1) _ hd hr

/-- A page to a package that is reached is written: the command is done. -/
theorem page_beyond (s : State) (p : PgCmd) (home : Nat) (h : s.pgPage p 0 = (some home, s) ∧ p.isPeer = true ∧
    destOf (BitVec.ofNat 64 (p.w 3)) ≠ s.fpkg ∧ s.canReach (destOf (BitVec.ofNat 64 (p.w 3))) (s.tset_ p.tsid).job = true ∧
    p.isIn = false ∧ s.broken = []) : ∃ b t, s.pgPages p .ok false 0 0 1 = (some (pgStatus b 0 0 0), t) := by
  obtain ⟨h1, hp, hd, hr, hi, hb⟩ := h
  have h7 : ∀ a, s.isBroken a 8 = false := fun a => by simp [State.isBroken, hb, tget]
  have h8 : ((List.range 8192).any fun i => s.isBroken (home + 8 * i) 8) = false := by simp [h7]
  obtain ⟨k, t, hk⟩ : ∃ k t, s.pageOut p 0 home = (.done k, t) := by
    simp only [State.pageOut, h8, if_false, Bool.false_eq_true]
    obtain ⟨t, ht⟩ := writeBlocks_beyond p hp _ s 0 _ hd hr
    rw [ht]
    exact ⟨_, _, rfl⟩
  exact ⟨0 + k, t, by simp only [State.pgPages, State.pgOne, h1, farStop, hi, Bool.not_false, if_true, hk]⟩

/-- Bytes that a matrix command and an outbound page command take before the steps that use them. -/
theorem wit_early : (sPg pgOut).pgq[0]? = some pgOut ∧ pgOut.isIn = false ∧ pgOut.seen.lookup 0x140000 = none ∧
    bytesSeen [(5, 7)] 4 [1, 2, 3] = [1, 7, 3] ∧ (sArray mDot).tablesWf = true ∧ (sArray mDot).phase = .up ∧
    ((sArray mDot).core 0).array = none ∧ ((sArray mDot).core 0).mxq = [mDot] ∧ (sArray mDot).mxSettled mDot = true ∧
    mDot.seen.lookup 0x100000 = none ∧ ((sArray mDot).engAt (mDot.eng 0 folioH) 0x100000 2 true false false).1.toOption = some 0x200000 := by decide +kernel

def uPg : State := { sPg pgOut with pgq := [] }
theorem wit_page_done : ∃ b t, uPg.pgPages pgOut .ok false 0 0 1 = (some (pgStatus b 0 0 0), t) ∧ (pgStatus b 0 0 0).toNat % 256 = 0 := by
  obtain ⟨b, t, hb⟩ := page_beyond uPg pgOut 0x140000 (by decide +kernel)
  refine ⟨b, t, hb, ?_⟩
  simp only [pgStatus, BitVec.toNat_ofNat]
  omega

end Sys2Proof.Tests

namespace Sys2Proof.Tests
open Sys2Proof Sys2Proof.Machine

/-! ### The hypotheses of the statements on registers, ports and the device are met -/

/-- A set at task level. -/
def sTask : State := sMem.modSet 0 fun t => { t with service := false }
theorem wit_privilege : serviceOnly (.mfs g0 9 0x080) = some (g0, 0x1A0 + (0x080 : BitVec 12).setWidth 64 * 1024) ∧
    serviceOnly (.tlbinvAll g0) = some (g0, 0x1A5) ∧ sTask.guardTrue g0 = .ok true ∧ (sTask.slotSet 1).service = false ∧
    (after sTask [x 1]).slotSet 1 = sTask.slotSet 1 := by
  refine ⟨by decide, rfl, ?_⟩
  simp only [ok_iff]; decide +kernel

theorem wit_registers : sMem.operands g0 [x 1] [0x100080] (after sMem [x 1]) ∧ sMem.operands g0 [x 7] [-1] (after sMem [x 7]) ∧
    (after sMem [x 1]).me.tsid = some 0 ∧ (sMem.slotSet 1).service = true ∧ ((after sMem [x 1]).slotSet 1).service = true ∧
    (0x100080 : Word).getLsbD 0 = false ∧ (-1 : Word).getLsbD 0 = true ∧ sMem.accsIn 1 setS = [] ∧
    sTask.operands g0 [x 1] [0x100080] (after sTask [x 1]) := by
  simp only [operands_iff]; decide +kernel

/-- An isle whose overflow area holds an entry, and one whose masks depend on one another. -/
def sArea : State := { sMem with moors := [{ moorOf .ldf with area := some 0 }] }
def sMasks : State := sMem.modIsle 0 fun i => { i with ixh := [0x100, 0x100, 0x400, 0x800] }
theorem wit_acceptance : sMem.moors = [] ∧ (moorOf .ldf).isle = 0 ∧ sArea.moors.map (fun m => (m.isle, m.area)) = [(0, some 0)] ∧
    (sMem.isle 0).lock = false ∧ independent [] (((sMem.isle 0).ixh ++ (sMem.isle 0).bxh).map (·.toNat)) = true ∧
    (sMasks.isle 0).lock = false ∧ independent [] (((sMasks.isle 0).ixh ++ (sMasks.isle 0).bxh).map (·.toNat)) = false ∧
    (sMem.isle 0).faults = [] ∧ (sMem.isle 15).faults = [] ∧ (sMem.slot 1).st ≠ .free ∧ sMem.tablesWf = true := by decide +kernel

/-- A thread that names set 9, which is not there, its own set, and set 5, which is another's, its parent's, or is ending. -/
def sAbort : State := (memT fun t => { t with xlo := [.full 9, .full 0, .full 5, .full 0x100080, .dead, .dead, .dead] }).setSet 5
  { TaskSet.init with no := 5 }
def sAbortUp : State := sAbort.modSet 0 fun t => { t with parent := some 5 }
def sAborted : State := sAbort.modSet 5 fun t => { t with st := .terminating }
def okState (r : Res State) : State := match r with
  | .ok t => t
  | .error _ => State.reset
theorem wit_service : (sMem.slotSet 1).service = true ∧ sMem.guardTrue g0 = .ok true ∧ sMem.accsIn 1 setS = [] ∧
    sMem.operands g0 [x 1, x 2] [0x100080, 7] (after sMem [x 1, x 2]) ∧ sAbort.operands g0 [x 1, x 2] [9, 0] (after sAbort [x 1, x 2]) ∧
    okB ((after sAbort [x 1, x 2]).emptyXj (xIndex 0 9)) = true ∧ sAbort.hasSet 9 = false ∧ sAbort.hasSet 0 = true ∧
    (sAbort.tset_ 0).st = .live ∧ (sAbort.tset_ 0).preempt = none ∧ sAbort.me.tsid = some 0 ∧ sAbort.hasSet 5 = true ∧
    (sAbort.tset_ 5).st = .live ∧ (sAbort.tset_ 5).preempt = none ∧ (sAbort.ancestors 24 0).contains 5 = false ∧
    (sAbortUp.ancestors 24 0).contains 5 = true ∧ (sAbortUp.tset_ 5).st = .live ∧ sAbortUp.hasSet 5 = true ∧ sAborted.hasSet 5 = true ∧
    (sAborted.tset_ 5).st = .terminating ∧ sAborted.operands g0 [x 3, x 2] [5, 0] (after sAborted [x 3, x 2]) ∧
    sMem.operands g0 [x 1] [0x100080] (after sMem [x 1]) ∧ sMem.fenceHolds 1 setG = false ∧ (0x100080 : Word).toNat < 2 ^ 56 ∧
    isGlobal 0x100080 = false ∧ (0x100080 : Word).toNat % 64 = 0 ∧ sMem.pgq.length < 64 ∧
    okB ((okState ((after sMem [x 1]).emptyXj (xIndex 0 9))).sendRef setG 0x100080 (.reg 16) (.record .pgcmd 64) false) = true := by
  simp only [operands_iff, ok_iff]; decide +kernel

/-- A port command: operation, set and buffer; a launch record in memory that the harbour reaches; a waiting command. -/
def cmdP (op : Nat) (w1 w2 : Word) : PortCmd := { w0 := BitVec.ofNat 64 op, w1 := w1, w2 := w2, w3 := 4096, w4 := 0, w5 := 50 }
def sPort (ws : List Word) : State := (sHarb.writeWords 0x150000 ws)
def sCkpt : State := { sMem with checkpointing := some (false, 0) }
def uPort (ws : List Word) : State := ((sPort ws).writePort 3 (cmdP 0 0x150000 0)).journalAdd 1 3 0
theorem wit_port_launch : (sPort []).portFree 3 = true ∧ (sPort []).checkpointing = none ∧ portOp (cmdP 0 0x150000 0) = 0 ∧
    portOp (cmdP 5 0x150000 0) = 5 ∧ portOp (cmdP 6 0 0) = 6 ∧ errIs ((uPort []).portRecord 0x150001) none = true ∧
    okIs ((uPort (launchW 1)).portRecord 0x150000) (launchW 1) = true ∧ launchBad (launchW 1) false = false ∧ launchBad (launchW 1) true = false ∧
    (launchRec (launchW 1)).pvalid = false ∧ (launchRec (launchW 1)).evQuire ≠ 15 ∧ okIs ((uPort []).portRecord 0x150000) (List.replicate 8 0) = true ∧
    launchBad (List.replicate 8 0) false = true ∧ ((uPort (launchW 1)).placedCores 1).isEmpty = false ∧
    (uPort (launchW 1)).takeRecs [0] = some [(0, 0)] ∧ ((uPort (launchW 0)).placedCores 0).isEmpty = true ∧
    ((uPort (launchW 1)).placedCores 1).all (fun k => decide (((uPort (launchW 1)).slot (256 * k)).st = .free)) = true ∧
    sCkpt.portFree 3 = true ∧ sCkpt.checkpointing.isSome = true ∧ sCkpt.portWait = [] ∧
    ({ sMem with portWait := [(3, cmdP 3 0 0, 7)] } : State).portFree 3 = false := by decide +kernel

/-- An image of set 0 with nothing, and one with a section of core 0, at 0x150000; the set is folded. -/
def imgW (n : Nat) : List Word := [0x2015A494D47, 0, BitVec.ofNat 64 (64 + 64 * n), 0, BitVec.ofNat 64 (2 ^ 18 * n), 0, 0, 0]
def sFolded (n : Nat) (e : Bool) : State := (({ sPort (imgW n) with slots := [] } : State).modSet 0 fun t => { t with st := .folded }).modCore 0 fun c =>
  { c with excluded := e }
def img0 : Img := { head := imgW 0, threads := [], cores := [], allocs := [] }
theorem wit_port_sets : (sPort []).portFree 3 = true ∧ portOp (cmdP 4 9 0) = 4 ∧ (sPort []).hasSet 9 = false ∧ (sPort []).hasSet 0 = true ∧
    ((sPort []).tset_ 0).st = .live ∧ ((sPort []).tset_ 0).preempt = none ∧ (sFolded 0 false).portFree 3 = true ∧
    (sFolded 0 false).hasSet 0 = true ∧ ((sFolded 0 false).tset_ 0).st = .folded ∧ (sFolded 0 false).checkpointing = none ∧
    errIs ((sFolded 0 false).readChain 0 16 0x160000) none = true ∧
    okIs (((sFolded 0 false).readChain 0 16 0x150000).map fun p => (p.1.head, p.2)) (imgW 0, [0x150000]) = true ∧
    img0.coreList = [] ∧ (sFolded 0 false).claimable img0 = true ∧ (sFolded 0 false).claimSlots false [] [] = some [] ∧
    (({ sFolded 0 false with portWait := [(3, cmdP 3 0 0x150000, 7)] } : State).portWait.map (·.1)) = [3] := by decide +kernel

theorem wit_port_excluded : okIs (((sFolded 1 true).readChain 0 16 0x150000).map fun p => p.1.coreList) [0] = true ∧
    (sFolded 1 true).placeable 0 = false := by decide +kernel

/-- A set that is being pre-empted, with and without a thread, and its image's place. -/
def preE (image dl : Word) : Preempt := { port := 3, evict := true, image := image, len := 4096, base := 0, deadline := dl, seq := 1 }
def sPre (image dl : Word) (free : Bool) : State :=
  let s := (sPort []).modSet 0 fun t => { t with st := .stopping, preempt := some (preE image dl) }
  if free then { s with slots := [] } else s
def sHandler : State := memT fun t => { t with estat := 1 }
theorem wit_preempt : portOp (cmdP 2 0 0x150000) = 2 ∧ portOp (cmdP 1 0 0x150000) = 1 ∧ (sPort []).hasSet 0 = true ∧
    ((sPort []).tset_ 0).images = [] ∧ ((sPre 0x150000 50 true).tset_ 0).preempt = some (preE 0x150000 50) ∧
    ((sPre 0x150000 50 true).stopSet 0).drained 0 true = true ∧ ((sPre 0x150000 50 false).stopSet 0).drained 0 true = false ∧
    (0x150000 : Word).toNat % 4096 = 0 ∧ (0x150001 : Word).toNat % 4096 ≠ 0 ∧ inWindow (0x150000 : Word).toNat = false ∧
    8 * (((sPre 0x150000 50 true).stopSet 0).imageWords 0 true 0 (((sPre 0x150000 50 true).stopSet 0).baseTags 0)).length ≤ 4096 ∧
    (State.imgWrite 0x150000 ((((sPre 0x150000 50 true).stopSet 0).imageWords 0 true 0 (((sPre 0x150000 50 true).stopSet 0).baseTags 0)).flatMap
      fun w => bytesOf 8 w.toNat) 1 ((sPre 0x150000 50 true).stopSet 0)).isOk = true ∧
    (50 : Word).toNat ≤ (sPre 0x150000 50 true).cyc ∧ (sPre 0x150000 500 true).cyc < (500 : Word).toNat ∧
    ((sPort []).tset_ 0).preempt = none ∧ isClosing ((sClosing .exit).slot 1).st = true ∧ isClosing (sHandler.slot 1).st = false ∧
    (sHandler.slot 1).inh = true ∧ (sHandler.slot 1).finishing = true ∧ (sHandler.slot 1).st ≠ .free ∧
    isClosing (sQuiet.slot 1).st = false ∧ (sQuiet.slot 1).finishing = false ∧ (sQuiet.slot 1).st ≠ .free := by decide +kernel

/-- What a start finds: nothing failing, with images of steps 1 and 6 or with none; a record whose step 0 had failed. -/
def findsOf (ms : List BootImage) : BootFinds := { soundStart with images := ms }
def sFailed0 : State := { State.reset with startrec := [(3, recCrc 3), (0, 0)] }
theorem wit_starts : (∀ i, i < 8 → stepState State.reset.startWord i ≠ 1 ∧ stepState State.reset.startWord i ≠ 3) ∧
    sFailed0.startWord.toNat % 4 = 3 ∧ 0 ∈ ({ soundStart with failTwice := [0] } : BootFinds).failTwice ∧
    bootLoads (findsOf []) 1 0 = none ∧ bootLoads (findsOf []) 1 1 = none ∧ (findsOf []).hangs = none ∧ (findsOf []).torn = none ∧
    State.reset.startrec.length = 2 ∧ (findsOf []).failTwice = [] ∧ (findsOf []).deadIsles = [] ∧ (findsOf []).badCores = [] ∧
    (findsOf []).blocks = [] ∧ ({ findsOf [] with tables := [] } : BootFinds).tables = [] ∧
    (∃ t, exec (.powerUp (findsOf [])) State.reset = .next t) ∧ (∃ t, exec (.reset (findsOf [])) State.reset = .next t) :=
  ⟨by decide +kernel, by decide +kernel, .head _, rfl, rfl, rfl, rfl, rfl, rfl, rfl, rfl, rfl, rfl, ⟨_, rfl⟩, ⟨_, rfl⟩⟩

/-- Whatever the fuses hold and the verifiers accept: an image that they accept is what its step loads from slot A. -/
theorem wit_accepted_images (m1 m6 : BootImage) (h1 : m1.step = 1 ∧ m1.slot = 0) (h6 : m6.step = 6 ∧ m6.slot = 0)
    (a1 : imageAccepted m1 = true) (a6 : imageAccepted m6 = true) : bootLoads (findsOf [m1, m6]) 1 0 = some m1 ∧
    bootLoads (findsOf [m1, m6]) 6 0 = some m6 ∧ ∀ m ∈ (findsOf [m1, m6]).images, m.step = 1 ∨ m.step = 6 := by
  simp [bootLoads, findsOf, h1, h6, a1, a6]

theorem wit_management : sMem.phase = .up ∧ State.reset.phase ≠ .up ∧ ({ sMem with phase := .halted } : State).phase = .halted ∧
    sMem.anySlot = true ∧ ({ sMem with slots := [] } : State).anySlot = false ∧ sMem.pgq = [] ∧ sMem.checkpointing = none ∧
    sCkpt.checkpointing = some (false, 0) ∧ sCkpt.portHeld = [] ∧ 5 * pageBytes + pageBytes ≤ sCkpt.folioBase ∧
    5 * pageBytes + pageBytes ≤ dramEnd ∧
    (sMem.isBroken (5 * pageBytes + 8 * 8191) 8 = false ∧
      ({ sMem with broken := tset false [] (5 * 8192 + 8191) true } : State).isBroken (5 * pageBytes + 8 * 8191) 8 = true) := by decide +kernel

/-- Isle 3 is hot from before; a core with no thread, and one whose threads are of one set. -/
def sHot : State := { sMem with hot := 8 }
theorem wit_heat : sHot.phase = .up ∧ sHot.tablesWf = true ∧ 95 < ([96, 50, 50, 90] : List Nat).getD 0 0 ∧
    sHot.hot.getLsbD 3 = true ∧ 90 ≤ ([96, 50, 50, 90] : List Nat).getD 3 0 ∧ ¬ 95 < ([96, 50, 50, 90] : List Nat).getD 1 0 ∧
    sHot.hot.getLsbD 1 = false ∧ sMem.placeable 7 = true ∧ (sMem.core 7).mxAll = [] ∧ (sMem.core 0).mxAll = [] ∧
    ((sMem.modCore 7 fun c => { c with excluded := true, failed := true, inbox := [], sendq := [] }).failMx 7).setsOn 7 = [] ∧
    ((sMem.modCore 0 fun c => { c with excluded := true, failed := true, inbox := [], sendq := [] }).failMx 0).setsOn 0 = [0] ∧
    ((sMem.modCore 0 fun c => { c with excluded := true, failed := true, inbox := [], sendq := [] }).failMx 0).hasSet 0 = true ∧
    (sMem.tset_ 0).ferry = false := by decide +kernel

end Sys2Proof.Tests
end

/-! ### Bytes written at a home (R4, R157) -/

namespace Sys2Proof.Machine

/-- What a write at a home leaves of a byte is what the plain write leaves: reservations and tile marks are no memory. -/
theorem State.byte_homeStore (s : State) (a : Nat) (bs : List Byte) (b : Nat) :
    (s.homeStore a bs).byte b = (s.writeBytes a bs).byte b := by
  unfold State.homeStore State.byte
  rw [State.markTile_mem, State.unreserve_mem]

theorem State.homeStore_in (s : State) (a i : Nat) (bs : List Byte) (h : Memory.wf s.mem = true) (hi : i < bs.length) :
    (s.homeStore a bs).byte (a + i) = bs.getD i 0 :=
  (s.byte_homeStore a bs (a + i)).trans (s.writeBytes_in a i bs h hi)

@[simp] theorem bytesOf_length (n v : Nat) : (bytesOf n v).length = n := by
  induction n generalizing v with
  | zero => rfl
  | succ n ih => simp [bytesOf, ih]

/-- Bytes that stand one after the other from `a` on read back as their number. -/
theorem State.readNat_eq_natOfBytes (s : State) (a : Nat) (bs : List Byte) (h : ∀ i, i < bs.length → s.byte (a + i) = bs.getD i 0) :
    s.readNat a bs.length = natOfBytes bs := by
  induction bs generalizing a with
  | nil => rfl
  | cons b bs ih =>
    have h0 : s.byte a = b := h 0 (by simp)
    have ht := ih (a + 1) fun i hi => by
      rw [Nat.add_assoc, Nat.add_comm 1 i]
      exact h (i + 1) (by simpa using hi)
    simp [State.readNat, natOfBytes, h0, ht]

theorem natOfBytes_bytesOf (n v : Nat) : natOfBytes (bytesOf n v) = v % 256 ^ n := by
  induction n generalizing v with
  | zero => simp [bytesOf, natOfBytes, Nat.mod_one]
  | succ n ih =>
    rw [bytesOf, natOfBytes, ih, BitVec.toNat_ofNat, Nat.pow_succ' (m := 256), Nat.mod_mul]

/-- A word written at its home reads back (R4). -/
theorem State.readWord_homeWord (s : State) (a : Nat) (v : Word) (h : Memory.wf s.mem = true) : (s.homeWord a v).readWord a = v := by
  have hr := (s.homeWord a v).readNat_eq_natOfBytes a (bytesOf 8 v.toNat) fun i hi => s.homeStore_in a i _ h hi
  rw [bytesOf_length, natOfBytes_bytesOf] at hr
  rw [State.readWord, hr, show 256 ^ 8 = 2 ^ 64 from rfl, Nat.mod_eq_of_lt v.isLt, BitVec.ofNat_toNat, BitVec.setWidth_eq]

/-- Settles O27: the bytes of a write stand in a canonical table, which gives back what was put in. -/
theorem writeThenRead : Obligations.WriteThenRead := by
  unfold Obligations.WriteThenRead
  intro s home bs hs
  have hm : Memory.wf s.mem = true := ((State.tablesWf_iff s).1 hs).1.1
  exact ⟨fun i hi => s.homeStore_in home i bs hm hi, fun a ha => s.homeStore_out home a bs ha,
    fun v => s.readWord_homeWord home v hm, s.homeStore_tablesWf home bs hs⟩

end Sys2Proof.Machine

/-! ### Plain references and atomics at their homes (R155 to R157, R176, R181 to R185) -/

namespace Sys2Proof.Machine

/-- The narrow value as a word, by sign or by zero, is the bit vector's own extension (R9). -/
theorem extLow_eq_extended (sgn : Bool) (x : Word) (n : Nat) : extLow sgn x n = extended n sgn x := by
  cases sgn with
  | false =>
    apply BitVec.eq_of_toNat_eq
    simp [extLow, zextLow, extended]
  | true =>
    have hbit : (0 < n ∧ (x.toNat % 2 ^ n).testBit (n - 1) = true) ↔ (x.setWidth n).msb = true := by
      rw [BitVec.msb_eq_getLsbD_last, BitVec.getLsbD, BitVec.toNat_setWidth]
      cases n <;> simp [Nat.mod_one]
    simp only [extLow, sextLow, extended, hbit, if_true, BitVec.signExtend, BitVec.toInt_eq_msb_cond, BitVec.toNat_setWidth]
    split
    · simp
    · exact (BitVec.ofInt_natCast 64 _).symm

/-- A reference with one home that waits on nothing but what stands before it. -/
def RefOp.direct : RefOp → Bool
  | .load _ _ | .touch _ _ | .store _ | .atom _ _ _ _ _ => true
  | _ => false

/-- A direct reference that has come to a home which it may touch acts there. -/
theorem exec_memrefArrive_direct {s : State} {k : Nat} {r : Ref} (part : Option Nat) (h : s.atHomeNow k r)
    (hop : r.op.direct = true) : exec (.memrefArrive k part) s = .next (({ s with refs := lremove s.refs k } : State).actAt r) := by
  obtain ⟨hk, hp, hh, hsp, hb⟩ := h
  have hsp' : ({ s with refs := lremove s.refs k } : State).spRefused r.home r.op.len = none := hsp
  have hb' : ({ s with refs := lremove s.refs k } : State).isBroken r.home r.op.len = false := hb
  have harr : ({ s with refs := lremove s.refs k } : State).arrive r = ({ s with refs := lremove s.refs k } : State).actAt r := by
    simp [State.arrive, State.atHome, hsp', hb']
  simp only [exec, execMemrefArrive, hk, hp, if_false, hh, Bool.false_eq_true, harr]
  cases hr : r.op <;> simp_all [RefOp.direct]

/-- A number is read from memory alone. -/
theorem State.readNat_congr {s t : State} (h : t.mem = s.mem) (a n : Nat) : t.readNat a n = s.readNat a n := by
  induction n generalizing a with
  | zero => rfl
  | succ n ih => rw [State.readNat, State.readNat, ih, State.byte, State.byte, h]

/-- A load replies with the bytes at its home, extended (R156). -/
theorem State.actAt_load (s : State) {r : Ref} {w : Width} {sgn : Bool} (hr : r.op = .load w sgn) :
    s.actAt r = (s.perform r.id).reply r.slot r.gen r.dst
      (extended (widthBits w) sgn (BitVec.ofNat 64 (s.readNat r.home (widthBytes w)))) := by
  rw [← extLow_eq_extended]
  simp only [State.actAt, hr, extendTo]

/-- A touch reads nothing and lowers REDCNT (R155, R185). -/
theorem State.actAt_touch (s : State) {r : Ref} {a b : Bool} (hr : r.op = .touch a b) :
    s.actAt r = (s.perform r.id).redDown r.slot r.gen := by
  simp only [State.actAt, hr]

/-- A store writes its bytes (R157). -/
theorem State.actAt_store (s : State) {r : Ref} {bs : List Byte} (hr : r.op = .store bs) :
    s.actAt r = (s.homeStore r.home bs).perform r.id := by
  simp only [State.actAt, hr]

/-- An atomic writes what `atomNew` gives, where it gives a value, then replies or is acknowledged (R181, R184). -/
theorem State.actAt_atom (s : State) {r : Ref} {op : AtomOp} {w : Width} {v c : Word} {ret : Bool} (hr : r.op = .atom op w v c ret) :
    let old := s.readNat r.home (widthBytes w)
    let t := (atomNew op w old v.toNat c.toNat).elim s fun n => s.homeStore r.home (bytesOf (widthBytes w) n)
    s.actAt r = if ret then (t.perform r.id).reply r.slot r.gen r.dst (BitVec.ofNat 64 old)
      else { t.perform r.id with acks := t.acks ++ [(r.slot, r.gen, r.id)] } := by
  simp only [State.actAt, hr]
  cases atomNew op w (s.readNat r.home (widthBytes w)) v.toNat c.toNat <;> rfl

/-- What a direct reference does in memory is at most one write of its own bytes (R157, R181). -/
theorem State.actAt_memory {s : State} {r : Ref} (hop : r.op.direct = true) :
    s.sameMemory (s.actAt r) ∨ ∃ bs, bs.length = r.op.len ∧ (s.homeStore r.home bs).sameMemory (s.actAt r) := by
  cases hr : r.op with
  | load w sgn => rw [s.actAt_load hr]; exact .inl ⟨rfl, rfl, rfl⟩
  | touch a b =>
    rw [s.actAt_touch hr]
    exact .inl (State.sameMemory_trans (s.perform_sameMemory r.id) (State.redDown_sameMemory _ _ _))
  | store bs => rw [s.actAt_store hr]; exact .inr ⟨bs, rfl, rfl, rfl, rfl⟩
  | atom op w v c ret =>
    rw [s.actAt_atom hr]
    cases atomNew op w (s.readNat r.home (widthBytes w)) v.toNat c.toNat with
    | none => cases ret <;> exact .inl ⟨rfl, rfl, rfl⟩
    | some new =>
      refine .inr ⟨bytesOf (widthBytes w) new, bytesOf_length _ _, ?_⟩
      cases ret <;> exact ⟨rfl, rfl, rfl⟩
  | _ => simp [hr, RefOp.direct] at hop

theorem State.homeStore_acks (s : State) (a : Nat) (bs : List Byte) : (s.homeStore a bs).acks = s.acks := by
  unfold State.homeStore State.markTile
  rw [s.writeBytes_rest a bs]
  split <;> rfl

theorem State.homeStore_fulls (s : State) (a : Nat) (bs : List Byte) : (s.homeStore a bs).fulls = s.fulls := by
  rw [State.homeStore, State.markTile_fulls, State.unreserve_fulls, State.writeBytes_fulls]

theorem State.homeStore_broken (s : State) (a : Nat) (bs : List Byte) : (s.homeStore a bs).broken = s.broken := by
  rw [State.homeStore, State.markTile_broken, State.unreserve_broken, State.writeBytes_broken]

/-- A direct reference changes no presence bit, no error mark, and no byte beyond its own. -/
theorem State.actAt_frame {s : State} {r : Ref} (hop : r.op.direct = true) : (s.actAt r).fulls = s.fulls ∧
    (s.actAt r).broken = s.broken ∧ ∀ a, a < r.home ∨ r.home + r.op.len ≤ a → (s.actAt r).byte a = s.byte a := by
  rcases State.actAt_memory (s := s) hop with ⟨hm, hf, hb⟩ | ⟨bs, hl, hm, hf, hb⟩
  · exact ⟨hf, hb, fun a _ => by rw [State.byte, hm, State.byte]⟩
  · refine ⟨hf.trans (s.homeStore_fulls _ _), hb.trans (s.homeStore_broken _ _), fun a ha => ?_⟩
    rw [State.byte, hm, ← State.byte, s.homeStore_out r.home a bs (by rwa [hl])]

/-- The lesser or greater of two numbers of a width, signed, by the bit vectors' own order. -/
theorem minMaxAt_signed (n : Nat) (mx : Bool) (a b : Nat) :
    minMaxAt n mx true a b = if (BitVec.ofNat n a).slt (BitVec.ofNat n b) = mx then b else a := rfl

/-- What each atomic writes over an old value of its width (R181 to R183). -/
theorem atomNew_values (w : Width) (old v c : Nat) (ho : old < 2 ^ widthBits w) (hv : v < 2 ^ widthBits w)
    (hc : c < 2 ^ widthBits w) :
    let n := widthBits w
    let less := (BitVec.ofNat n old).slt (BitVec.ofNat n v)
    atomNew .add w old v c = some ((old + v) % 2 ^ n) ∧ atomNew .and w old v c = some (old &&& v) ∧
    atomNew .or w old v c = some (old ||| v) ∧ atomNew .xor w old v c = some (old ^^^ v) ∧
    atomNew .minS w old v c = some (if less then old else v) ∧ atomNew .maxS w old v c = some (if less then v else old) ∧
    atomNew .minU w old v c = some (min old v) ∧ atomNew .maxU w old v c = some (max old v) ∧
    atomNew .xchg w old v c = some v ∧ atomNew .cas w old v c = (if old = v then some c else none) ∧
    atomNew .incw w old v c = some (if v ≤ old then 0 else old + 1) ∧
    atomNew .fab w old v c = (if old + v ≤ c then some (old + v) else none) := by
  have hinc : (if v ≤ old then 0 else (old + 1) % 2 ^ widthBits w) = if v ≤ old then 0 else old + 1 := by
    split
    · rfl
    · exact Nat.mod_eq_of_lt (by omega)
  have hmin : minMaxAt (widthBits w) false false old v = min old v := by
    rw [Nat.min_def]
    simp only [minMaxAt, Bool.false_eq_true, if_false, decide_eq_false_iff_not]
    split <;> split <;> omega
  have hmax : minMaxAt (widthBits w) true false old v = max old v := by
    rw [Nat.max_def]
    simp only [minMaxAt, Bool.false_eq_true, if_false, decide_eq_true_eq]
    split <;> split <;> omega
  simp only [atomNew, Nat.mod_eq_of_lt hv, Nat.mod_eq_of_lt hc, hinc, hmin, hmax, minMaxAt_signed, true_and, and_true]
  cases (BitVec.ofNat (widthBits w) old).slt (BitVec.ofNat (widthBits w) v) <;> simp

theorem atomNew_fadd (w : Width) (old v c : Nat) (hv : v < 2 ^ widthBits w) :
    atomNew .fadd w old v c = some (fop .add (if widthBits w = 16 then .bf16 else .f32) .rne old v) := by
  simp only [atomNew, Nat.mod_eq_of_lt hv]

/-- Settles O26: each reference of these kinds that may act at its home acts at once, and writes its own bytes at most. -/
theorem plainAndAtomicArrivals : Obligations.PlainAndAtomicArrivals := by
  unfold Obligations.PlainAndAtomicArrivals
  refine ⟨?_, fun w old v c ho hv hc => ?_⟩
  · intro s k part r h u
    have hread (w : Width) : u.readNat r.home (widthBytes w) = s.readNat r.home (widthBytes w) :=
      State.readNat_congr (s := s) (t := u) rfl _ _
    have act (hop : r.op.direct = true) : exec (.memrefArrive k part) s = .next (u.actAt r) := exec_memrefArrive_direct part h hop
    refine ⟨fun w sgn hr => ?_, fun a b hr => ?_, fun bs hr => ?_, fun op w v c new hr hn => ?_, fun op w v c hr hn => ?_,
      fun op w v c new hr hn => ?_, fun t ht hr => ?_⟩
    · rw [act (by rw [hr]; rfl), u.actAt_load hr, hread]
    · rw [act (by rw [hr]; rfl), u.actAt_touch hr]
    · rw [act (by rw [hr]; rfl), u.actAt_store hr]
    · rw [act (by rw [hr]; rfl), u.actAt_atom hr, hread, hn]
      rfl
    · rw [act (by rw [hr]; rfl), u.actAt_atom hr, hread, hn]
      rfl
    · rw [act (by rw [hr]; rfl), u.actAt_atom hr, hread, hn]
      simp only [Option.elim, u.homeStore_acks]
      rfl
    · have hop : r.op.direct = true := by
        rcases hr with ⟨bs, hr⟩ | ⟨w, sgn, hr⟩ | ⟨op, w, v, c, ret, hr⟩ <;> rw [hr] <;> rfl
      rw [act hop] at ht
      cases ht
      exact State.actAt_frame hop
  · intro n less
    obtain ⟨hadd, hand, hor, hxor, hminS, hmaxS, hminU, hmaxU, hxchg, hcas, hincw, hfab⟩ := atomNew_values w old v c ho hv hc
    exact ⟨hadd, hand, hor, hxor, hminS, hmaxS, hminU, hmaxU, hxchg, hcas, hincw, hfab,
      fun hw => by subst hw; exact atomNew_fadd _ old v c hv, fun hw => by subst hw; exact atomNew_fadd _ old v c hv⟩

end Sys2Proof.Machine

/-! ### Writes of system registers (R372 to R376) -/

namespace Sys2Proof.Machine

/-- One source that reads leaves what the single read leaves. -/
theorem State.operands_one {s u : State} {g : Guard} {a : Src} {x : Word} (h : s.operands g [a] [x] u) :
    s.guardTrue g = .ok true ∧ ∃ r, readX 0 a s.rd = .ok (x, r) ∧ u = r.s.killXs [a] := by
  obtain ⟨hg, r, hr, hu⟩ := h
  obtain ⟨⟨v, r'⟩, hv, hr⟩ := Res.bind_ok hr
  cases hr
  exact ⟨hg, r, hv, hu⟩

/-- A check that is made under a condition, and passes whenever it is made, may be left out. -/
theorem Res.check_ok {α : Type} {c : Prop} [Decidable c] {x : Res Unit} {f : Unit → Res α} (h : c → x = .ok ()) :
    (if c then x >>= f else f ()) = f () := by
  split
  · rename_i hc
    rw [h hc]
    rfl
  · rfl

/-- What MTS of register `r` does once its value `x` is read: a register of slot or set scope, a unit's at service level, or nothing. -/
def State.mtsWrites (u : State) (r : BitVec 12) (x : Word) : State :=
  if r.toNat < 0x040 ∧ r ≠ 0x002 then u.writeSlotReg r.toNat x
  else if (u.slotSet u.cur).service then u.writeUnitReg r.toNat x else u

/-- MTS completes where the privilege of its register is met and CBINV waits for no store (R35, R372, R374). -/
theorem exec_mts {s u : State} {g : Guard} {a : Src} {x : Word} {r : BitVec 12} (h : s.operands g [a] [x] u)
    (hp : sysPriv r.toNat = true → (s.slotSet s.cur).service = true)
    (hc : r = 0x096 → x.getLsbD 0 = true → s.accsIn s.cur setS = []) :
    exec (.mts g a r) s = .next (u.mtsWrites r x).advance := by
  obtain ⟨hg, rd, hx, rfl⟩ := State.operands_one h
  have hneed : sysPriv r.toNat = true → s.needService 0x1A1 r.toNat = .ok () := fun hr => by simp [State.needService, hp hr]
  have hstores : (r = 0x096 ∧ x.getLsbD 0 = true) → s.storesDone = .ok () := fun hr => by simp [State.storesDone, hc hr.1 hr.2]
  refine (State.issue_true hg _).trans ((congrArg s.finish (Res.check_ok hneed)).trans ?_)
  rw [hx]
  exact congrArg s.finish (Res.check_ok (f := fun _ => .ok ((rd.s.killXs [a]).mtsWrites r x).advance) hstores)

/-- A register of slot or set scope is written at either level (R372). -/
theorem exec_mts_slotReg {s u : State} {g : Guard} {a : Src} {x : Word} {r : BitVec 12} (h : s.operands g [a] [x] u)
    (hr : r.toNat < 0x040 ∧ r ≠ 0x002) : exec (.mts g a r) s = .next (u.writeSlotReg r.toNat x).advance := by
  have hne : r.toNat ≠ 2 := fun e => hr.2 (BitVec.eq_of_toNat_eq e)
  rw [exec_mts h (fun hp => ?_) (fun e => absurd hr.1 (by rw [e]; decide)), State.mtsWrites, if_pos hr]
  simp [sysPriv] at hp
  omega

/-- A register of core, isle or package scope is written at service level (R372). -/
theorem exec_mts_unitReg {s u : State} {g : Guard} {a : Src} {x : Word} {r : BitVec 12} (h : s.operands g [a] [x] u)
    (hs : (s.slotSet s.cur).service = true) (hu : (u.slotSet u.cur).service = true) (hr : ¬ (r.toNat < 0x040 ∧ r ≠ 0x002))
    (hc : r = 0x096 → x.getLsbD 0 = true → s.accsIn s.cur setS = []) :
    exec (.mts g a r) s = .next (u.writeUnitReg r.toNat x).advance := by
  rw [exec_mts h (fun _ => hs) hc, State.mtsWrites, if_neg hr, if_pos hu]

theorem exec_mts_cbinv {s u : State} {g : Guard} {a : Src} {x : Word} (h : s.operands g [a] [x] u)
    (hs : (s.slotSet s.cur).service = true) (hu : (u.slotSet u.cur).service = true)
    (hc : x.getLsbD 0 = true → s.accsIn s.cur setS = []) :
    exec (.mts g a 0x096) s = .next (if x.getLsbD 0 then u.dropCode (isleOf (coreOf u.cur)) else u).advance :=
  exec_mts_unitReg h hs hu (by decide) fun _ => hc

/-- At task level a register of a unit that may be read there is not written (R372). -/
theorem exec_mts_readOnly {s u : State} {g : Guard} {a : Src} {x : Word} {r : BitVec 12} (h : s.operands g [a] [x] u)
    (hu : (u.slotSet u.cur).service = false) (hr : ¬ (r.toNat < 0x040 ∧ r ≠ 0x002)) (hp : sysPriv r.toNat = false) :
    exec (.mts g a r) s = .next u.advance := by
  have hc : r ≠ 0x096 := by rintro rfl; exact absurd hp (by decide)
  rw [exec_mts h (fun e => absurd e (by simp [hp])) (fun e => absurd e hc), State.mtsWrites, if_neg hr, if_neg (by simp [hu])]

/-- The fields of WSTATE by division (R83). -/
theorem wstateWrite_eq (old x : Word) :
    wstateWrite old x = if 8 < x.toNat % 16 ∨ 6 < x.toNat / 16 % 16 then old else x &&& 0x3FFFFFF := by
  simp [wstateWrite, wbOf, depthOf, BitVec.extractLsb'_toNat, Nat.shiftRight_eq_div_pow]

/-! ### CBINV (R35) -/

/-- One quire's code buffer is emptied, where the quire lies in the isle. -/
def State.dropCodeOf (isle : Nat) (s : State) (e : Nat × Quire) : State :=
  if e.1 / 12 = isle then s.modQuire e.1 fun q => { q with code := [] } else s

theorem State.dropCode_eq (s : State) (isle : Nat) : s.dropCode isle = s.quires.foldl (State.dropCodeOf isle) s := rfl

theorem State.dropCode_quire_ne (s : State) {isle q : Nat} (hq : q / 12 ≠ isle) : (s.dropCode isle).quire q = s.quire q := by
  refine foldl_keeps (P := fun t => t.quire q = s.quire q) (fun t e ht => ?_) _ _ rfl
  split
  · rename_i he
    exact (State.quire_modQuire_ne _ _ _ _ (by rintro rfl; exact hq he)).trans ht
  · exact ht

theorem State.dropCode_rest (s : State) (isle : Nat) : { s.dropCode isle with quires := s.quires } = s := by
  refine foldl_keeps (P := fun t => { t with quires := s.quires } = s) (fun t e ht => ?_) _ _ rfl
  split <;> exact ht

/-- A key that a table does not list reads as the default. -/
theorem tget_unlisted {α : Type} (d : α) (t : Tab α) (k : Nat) (h : k ∉ t.map Prod.fst) : tget d t k = d := by
  induction t with
  | nil => rfl
  | cons e t ih =>
    simp only [List.map_cons, List.mem_cons, not_or] at h
    rw [tget, if_neg h.1, ih h.2]

theorem State.dropCodeOf_wf {isle : Nat} {s : State} {e : Nat × Quire} (hw : tabWf Quire.init s.quires = true) :
    tabWf Quire.init (s.dropCodeOf isle e).quires = true := by
  unfold State.dropCodeOf
  split
  · exact tset_wf _ _ _ _ hw
  · exact hw

/-- A quire of the isle that is visited, or empty already, is empty afterwards. -/
theorem State.dropCodeOf_code {isle q : Nat} {s : State} {e : Nat × Quire} (hq : q / 12 = isle)
    (hw : tabWf Quire.init s.quires = true) (h : q = e.1 ∨ (s.quire q).code = []) : ((s.dropCodeOf isle e).quire q).code = [] := by
  unfold State.dropCodeOf
  by_cases he : q = e.1
  · subst he
    rw [if_pos hq, State.quire, State.modQuire, State.setQuire, tget_tset_same _ _ _ _ hw]
  · have hc := h.resolve_left he
    split
    · rwa [State.quire_modQuire_ne _ _ _ _ he]
    · exact hc

theorem State.foldl_dropCodeOf_code {isle q : Nat} (hq : q / 12 = isle) (es : List (Nat × Quire)) {s : State}
    (hw : tabWf Quire.init s.quires = true) (h : q ∈ es.map Prod.fst ∨ (s.quire q).code = []) :
    ((es.foldl (State.dropCodeOf isle) s).quire q).code = [] := by
  induction es generalizing s with
  | nil => exact h.resolve_left (by simp)
  | cons e es ih =>
    refine ih (State.dropCodeOf_wf hw) ?_
    rw [List.map_cons, List.mem_cons, or_assoc, or_left_comm] at h
    exact h.imp_right (State.dropCodeOf_code hq hw)

/-- CBINV empties every code buffer of its isle (R35). -/
theorem State.dropCode_code (s : State) {isle q : Nat} (hq : q / 12 = isle) (hw : tabWf Quire.init s.quires = true) :
    ((s.dropCode isle).quire q).code = [] := by
  rw [State.dropCode_eq]
  refine State.foldl_dropCodeOf_code hq _ hw ?_
  by_cases hl : q ∈ s.quires.map Prod.fst
  · exact .inl hl
  · right
    rw [State.quire, tget_unlisted _ _ _ hl]
    rfl

/-! ### The acceptance rules (R83, R163, R171, R173, R174, R215, R391) -/

/-- An update of an isle by a function that does at this isle what another does. -/
theorem State.modIsle_congr (s : State) (n : Nat) {f f' : Isle → Isle} (h : f (s.isle n) = f' (s.isle n)) :
    s.modIsle n f = s.modIsle n f' := congrArg (s.setIsle n) h

theorem State.writeMoor_empty {s : State} {n : Nat} (h : ∀ m ∈ s.moors, m.isle = n → m.area = none) (lim : Bool) (v : Word) :
    s.writeMoor n lim v = s.modIsle n fun i =>
      if lim then { i with moorlim := BitVec.ofNat 64 (min (v.toNat % 2 ^ 21) 0x100000) }
      else { i with moorbase := v &&& 0x0000FFFFFFFFF000 } := by
  refine if_neg ?_
  simp only [List.any_eq_true, Bool.and_eq_true, beq_iff_eq, not_exists, not_and]
  intro m hm hn
  simp [h m hm hn]

theorem State.writeMoor_busy {s : State} {n : Nat} {m : Moor} (hm : m ∈ s.moors) (hn : m.isle = n) (ha : m.area ≠ none)
    (lim : Bool) (v : Word) : s.writeMoor n lim v = s := by
  refine if_pos (List.any_eq_true.2 ⟨m, hm, ?_⟩)
  simp [hn, Option.isSome_iff_ne_none, ha]

/-- Settles O55: MTS reduces to the write of its one register, and each register's own rule is read off its definition. -/
theorem registerWrites : Obligations.RegisterWrites := by
  unfold Obligations.RegisterWrites
  refine ⟨fun g a x s u h => ?_, fun g a x s u h => ?_, fun s n v hn => ?_⟩
  · have slotReg (r : BitVec 12) (hr : r.toNat < 0x040 ∧ r ≠ 0x002) := exec_mts_slotReg (r := r) h hr
    refine ⟨?_, slotReg _ (by decide), slotReg _ (by decide), slotReg _ (by decide), slotReg _ (by decide),
      slotReg _ (by decide), slotReg _ (by decide), slotReg _ (by decide), slotReg _ (by decide), slotReg _ (by decide),
      fun n hn => ?_, fun k hk => ?_, fun r hr => ?_⟩
    · simp only [← wstateWrite_eq]
      exact slotReg _ (by decide)
    · obtain rfl | rfl | rfl | rfl : n = 0 ∨ n = 1 ∨ n = 2 ∨ n = 3 := by omega
      all_goals exact slotReg _ (by decide)
    · rw [slotReg _ (by decide)]
      simp [State.writeSlotReg, hk]
    · simp only [List.mem_cons, List.not_mem_nil, or_false] at hr
      obtain rfl | rfl | rfl | rfl | rfl := hr
      all_goals exact slotReg _ (by decide)
  · refine ⟨fun hs hu => ?_, fun _ hu r hr => ?_⟩
    · have unitReg (r : BitVec 12) (hr : ¬ (r.toNat < 0x040 ∧ r ≠ 0x002)) (hc : r ≠ 0x096) :=
        exec_mts_unitReg (r := r) h hs hu hr fun e => absurd e hc
      refine ⟨unitReg _ (by decide) (by decide), unitReg _ (by decide) (by decide), unitReg _ (by decide) (by decide),
        unitReg _ (by decide) (by decide), unitReg _ (by decide) (by decide), unitReg _ (by decide) (by decide), fun n hn => ?_,
        unitReg _ (by decide) (by decide), unitReg _ (by decide) (by decide), unitReg _ (by decide) (by decide),
        unitReg _ (by decide) (by decide), fun hx => ?_, fun hx ha => ?_⟩
      · obtain rfl | rfl | rfl | rfl | rfl | rfl | rfl | rfl | rfl | rfl | rfl | rfl | rfl : n = 0 ∨ n = 1 ∨ n = 2 ∨ n = 3 ∨
          n = 4 ∨ n = 5 ∨ n = 6 ∨ n = 7 ∨ n = 8 ∨ n = 9 ∨ n = 10 ∨ n = 11 ∨ n = 12 := by omega
        all_goals exact unitReg _ (by decide) (by decide)
      · exact (exec_mts_cbinv h hs hu fun e => absurd e (by rw [hx]; decide)).trans (by rw [if_neg (by rw [hx]; decide)])
      · exact (exec_mts_cbinv h hs hu fun _ => ha).trans (by rw [if_pos hx]; rfl)
    · have hro : ∀ r ∈ ([0x040, 0x082, 0x083, 0x091, 0x092, 0x093] : List (BitVec 12)),
          ¬ (r.toNat < 0x040 ∧ r ≠ 0x002) ∧ sysPriv r.toNat = false := by decide
      obtain ⟨hunit, hpriv⟩ := hro r hr
      exact exec_mts_readOnly h hu hunit hpriv
  · refine ⟨fun hm => ?_, fun b m hm hi ha => ?_, fun hl hind => ?_, fun hl hind => ?_, fun hl k hk => ?_, fun hl k hk => ?_,
      ?_, ?_, fun hf => ?_, fun k hk => ?_, ?_⟩
    · constructor <;> simp only [exec, execMoorbaseWrite, if_pos hn, State.writeMoor_empty hm] <;> rfl
    · simp only [exec, execMoorbaseWrite, if_pos hn, State.writeMoor_busy hm hi ha]
    · simp only [exec, execMemcfgLock, if_pos hn]
      exact congrArg _ (s.modIsle_congr n (by simp only [Isle.writeLock, hl, hind, Bool.false_eq_true, if_false, if_true]))
    · simp only [exec, execMemcfgLock, if_pos hn]
      exact congrArg _ (s.modIsle_congr n (by simp only [Isle.writeLock, hl, hind, Bool.false_eq_true, if_false]))
    · simp only [exec, execHashMaskWrite, if_pos (show n < 16 ∧ k < 13 by omega)]
      exact congrArg _ (s.modIsle_congr n (by simp [Isle.writeHash, hl, hk]))
    · simp only [exec, execHashMaskWrite, if_pos (show n < 16 ∧ 4 + k < 13 by omega)]
      exact congrArg _ (s.modIsle_congr n (by simp [Isle.writeHash, hl, show ¬ 4 + k < 4 by omega]))
    · simp only [exec, execAblimWrite, if_pos hn]
      exact congrArg _ (s.modIsle_congr n (by simp [Isle.writeAblim, clampTo, BitVec.extractLsb'_toNat]))
    · simp only [exec, execGageWrite, if_pos hn]
      exact congrArg _ (s.modIsle_congr n (by simp [Isle.writeGage, clampTo, BitVec.extractLsb'_toNat]))
    · simp only [exec, execFqbaseWrite, execFqctlWrite, if_pos hn]
      exact ⟨congrArg _ (s.modIsle_congr n (by simp [Isle.writeFqbase, hf])),
        congrArg _ (s.modIsle_congr n (by simp [Isle.writeFqctl, hf]))⟩
    · simp only [exec, execWstateWrite, if_neg hk, wstateWrite_eq]
    · exact ⟨_, rfl, fun q hq => s.dropCode_quire_ne hq, s.dropCode_rest n, fun hw q hq =>
        s.dropCode_code hq ((State.tablesWf_iff s).1 hw).2.2.2.1⟩

end Sys2Proof.Machine

/-! ### Two statements about issue that do not hold -/

namespace Sys2Proof.Machine

/-- A thread in slot 1 of core 0 with the given x1 and v0, every other register DEAD, in a set whose traps reach a handler. -/
def probeIssue (x1 : XCell) (v0 : VCell) : State :=
  { State.reset with
    slots := [(1, { Slot.init with
      st := .active, tsid := some 0, xlo := x1 :: List.replicate 6 .dead, v := v0 :: List.replicate 15 .dead })]
    sets := [(0, { TaskSet.init with tsvec := 64 })]
    cur := 1 }

theorem probeIssue_trapsLand (x1 : XCell) (v0 : VCell) : (probeIssue x1 v0).trapsLand (probeIssue x1 v0).cur :=
  ⟨(by decide : (0 : Word).getLsbD 0 = false), (by decide : (64 : Word) ≠ 0), (by decide : pcOk 64 = true)⟩

/-- The first word of quire 0's scratchpad holds an uncorrectable error; its tile is free. -/
def badFreeTile : State := { probeIssue (.full 1) .dead with broken := [(2 ^ 45, true)] }

/-- SPALLOC of one granule takes tiles 0 and 1 and clears the errors of their words (R246, R417). -/
theorem exec_spalloc_badFreeTile : ∃ t, exec (.spalloc ⟨false, 0⟩ 0 ⟨false, false, 1⟩) badFreeTile = .next t ∧ t.broken = [] :=
  ⟨_, rfl, by decide +kernel⟩

/-- Refutes O20: SPALLOC gives out zeroed tiles, and with them it clears, as it issues, the error marks that their words got
while the tiles were free (R246, R417). -/
theorem not_instructionsLeaveMemory : ¬ Obligations.InstructionsLeaveMemory := by
  unfold Obligations.InstructionsLeaveMemory
  intro h
  obtain ⟨t, ht, hb⟩ := exec_spalloc_badFreeTile
  obtain ⟨_, _, hsame⟩ := h (.spalloc ⟨false, 0⟩ 0 ⟨false, false, 1⟩) ⟨false, 0⟩ badFreeTile t rfl (by simp) (by simp)
    (probeIssue_trapsLand _ _) ht
  exact absurd (hb.symm.trans hsame) (by decide)

/-- PNOT of predicate number 8, killed, writes no v register, and yet v0 is DEAD after it: the kill goes by the register index
78 + 8, which is v0's. -/
theorem exec_pnot_kills_v0 : ∃ t, exec (.pnot ⟨false, 0⟩ 0 ⟨false, true, 8⟩) (probeIssue .dead (.full 0)) = .next t ∧
    t.me.vCell 0 = .dead :=
  ⟨_, rfl, by decide +kernel⟩

/-- Refutes O19: the statement asks nothing of the operand numbers. A predicate source field of 6 bits may be written 8 in an
instruction, though no word decodes to one; it reads as DEAD, and its kill goes to a register that the statement calls untouched. -/
theorem not_registerFrame : ¬ Obligations.RegisterFrame := by
  unfold Obligations.RegisterFrame
  intro h
  obtain ⟨t, ht, hv⟩ := exec_pnot_kills_v0
  obtain ⟨_, _, _, _, _, _, _, _, _, hframe⟩ := h (.pnot ⟨false, 0⟩ 0 ⟨false, true, 8⟩) _ (probeIssue .dead (.full 0)) t rfl rfl
    (probeIssue_trapsLand _ _) ht
  have hsame := hframe 0 (by decide) (.inr ⟨0, rfl⟩) (by simp) (by simp)
  rw [hv] at hsame
  cases hsame

end Sys2Proof.Machine

/-! ### A start, step by step (R406 to R408) -/

namespace Sys2Proof.Machine

/-- Step `i` failed on the previous start, or did not come to its end there (R406, R408). -/
def failedBefore (prev : Word) (i : Nat) : Bool := stepState prev i == 1 || stepState prev i == 3

/-- Step `i` neither halts for its failure on the previous start nor for one on this. -/
def GoesOn (b : BootFinds) (prev : Word) (i : Nat) : Prop :=
  (haltStep i && failedBefore prev i) = false ∧ (stepEnd i b (failedBefore prev i)).2.2 = false

/-- What a step that does not halt leaves: it is marked as started, does its work, is measured, and is marked as it ended. -/
def State.bootStep (b : BootFinds) (prev : Word) (i : Nat) (s : State) : State :=
  let e := stepEnd i b (failedBefore prev i)
  (((s.markStep i 1 false).bootWork i b (decide (e.1 = 3))).measureStep i b
    (triedSlots (failedBefore prev i) e.2.1)).markStep i e.1 e.2.1

/-- Steps `i` on, `n` of them, when none of them halts. -/
def State.bootSteps (b : BootFinds) (prev : Word) : Nat → Nat → State → State
  | _, 0, s => s
  | i, n + 1, s => State.bootSteps b prev (i + 1) n (s.bootStep b prev i)

theorem State.bootFrom_succ_of_goesOn {b : BootFinds} {prev : Word} {i : Nat} (hb : b.hangs = none) (hg : GoesOn b prev i)
    (n : Nat) (s : State) : State.bootFrom b prev i (n + 1) s = State.bootFrom b prev (i + 1) n (s.bootStep b prev i) := by
  obtain ⟨hprev, hend⟩ := hg
  unfold failedBefore at hprev hend
  rw [State.bootFrom]
  simp only [hprev, hend, hb, Bool.false_eq_true, if_false, reduceCtorEq]
  rfl

theorem State.bootFrom_succ_of_not_goesOn {b : BootFinds} {prev : Word} {i : Nat} (hb : b.hangs = none)
    (hg : ¬ GoesOn b prev i) (n : Nat) (s : State) : (State.bootFrom b prev i (n + 1) s).phase = .halted := by
  rw [State.bootFrom]
  cases hprev : haltStep i && failedBefore prev i with
  | true =>
    unfold failedBefore at hprev
    simp only [hprev, if_true]
  | false =>
    have hend : (stepEnd i b (failedBefore prev i)).2.2 = true :=
      Bool.of_not_eq_false fun h => hg ⟨hprev, h⟩
    unfold failedBefore at hprev hend
    simp only [hprev, hend, hb, Bool.false_eq_true, if_false, if_true, reduceCtorEq]

/-- A start that nothing breaks off halts unless every step goes on. -/
theorem State.bootFrom_halts {b : BootFinds} {prev : Word} (hb : b.hangs = none) {n i j : Nat} (hij : i ≤ j) (hj : j < i + n)
    (hg : ¬ GoesOn b prev j) (s : State) : (State.bootFrom b prev i n s).phase = .halted := by
  induction n generalizing i s with
  | zero => omega
  | succ n ih =>
    by_cases hi : GoesOn b prev i
    · rw [State.bootFrom_succ_of_goesOn hb hi]
      have hne : i ≠ j := by rintro rfl; exact hg hi
      exact ih (by omega) (by omega) _
    · exact State.bootFrom_succ_of_not_goesOn hb hi n s

/-- A start that nothing breaks off and in which every step goes on is its steps, one after the other. -/
theorem State.bootFrom_eq_bootSteps {b : BootFinds} {prev : Word} (hb : b.hangs = none) {n i : Nat}
    (hg : ∀ j, i ≤ j → j < i + n → GoesOn b prev j) (s : State) :
    State.bootFrom b prev i n s = State.bootSteps b prev i n s := by
  induction n generalizing i s with
  | zero => rfl
  | succ n ih =>
    rw [State.bootFrom_succ_of_goesOn hb (hg i (Nat.le_refl i) (by omega)), State.bootSteps]
    exact ih (fun j h1 h2 => hg j (by omega) (by omega)) _

end Sys2Proof.Machine

/-! ### What the steps of a start leave unchanged -/

namespace Sys2Proof.Machine

/-- A write of the record's other copy changes the record only (R408). -/
theorem State.putStart_eq (s : State) (w : Word) :
    let n := w.toNat - recGen w * 2 ^ 32 + (recGen s.startWord + 1) % 2 ^ 16 * 2 ^ 32
    s.putStart w = { s with
      startrec := s.startrec.set (1 - s.governing.1) (BitVec.ofNat 64 n, recCrc (BitVec.ofNat 64 n)) } := by
  unfold State.putStart State.startWord
  generalize s.governing = p
  rfl

section
variable {α : Type} {get : State → α} {b : BootFinds}

theorem State.putStart_keeps (hrec : ∀ (s : State) r, get { s with startrec := r } = get s) (s : State) (w : Word) :
    get (s.putStart w) = get s := by
  rw [State.putStart_eq, hrec]

theorem State.markStep_keeps (hrec : ∀ (s : State) r, get { s with startrec := r } = get s) (s : State) (i v : Nat) (alt : Bool) :
    get (s.markStep i v alt) = get s := State.putStart_keeps hrec s _

theorem State.measureStep_keeps (hmeas : ∀ (s : State) l m, get { s with measLog := l, measM := m } = get s) (s : State)
    (i : Nat) (tried : List Nat) :
    get (s.measureStep i b tried) = get s := by
  have keeps {β : Type} (entry : β → MeasEntry) (l : List β) (t : State) (ht : get t = get s) :
      get (l.foldl (fun t m => t.measure (entry m)) t) = get s :=
    foldl_keeps (P := fun t => get t = get s) (fun t m ht => (hmeas t _ _).trans ht) l t ht
  exact keeps _ _ _ (keeps _ _ s rfl)

/-- Of a quantity that neither marking nor measuring touches, a step leaves what its work leaves. -/
theorem State.bootStep_work (hrec : ∀ (s : State) r, get { s with startrec := r } = get s)
    (hmeas : ∀ (s : State) l m, get { s with measLog := l, measM := m } = get s) (prev : Word) (i : Nat) (s : State) :
    get (s.bootStep b prev i) = get ((s.markStep i 1 false).bootWork i b (decide ((stepEnd i b (failedBefore prev i)).1 = 3))) := by
  rw [State.bootStep, State.markStep_keeps hrec, State.measureStep_keeps hmeas]

/-- A quantity that marking, measuring and the work of step `i` leave as it is, step `i` leaves as it is. -/
theorem State.bootStep_keeps {i : Nat} (hrec : ∀ (s : State) r, get { s with startrec := r } = get s)
    (hmeas : ∀ (s : State) l m, get { s with measLog := l, measM := m } = get s) (hwork : ∀ s bad, get (s.bootWork i b bad) = get s)
    (prev : Word) (s : State) : get (s.bootStep b prev i) = get s := by
  rw [State.bootStep_work hrec hmeas, hwork, State.markStep_keeps hrec]

/-- So does the whole start, if this holds of every step's work and the phase is not looked at. -/
theorem State.bootFrom_keeps (hrec : ∀ (s : State) r, get { s with startrec := r } = get s)
    (hmeas : ∀ (s : State) l m, get { s with measLog := l, measM := m } = get s) (hwork : ∀ s i bad, get (s.bootWork i b bad) = get s)
    (hphase : ∀ (s : State) p, get { s with phase := p } = get s) (prev : Word) (n i : Nat) (s : State) :
    get (State.bootFrom b prev i n s) = get s := by
  induction n generalizing i s with
  | zero => rfl
  | succ n ih =>
    rw [State.bootFrom]
    simp only []
    generalize (stepState prev i == 1 || stepState prev i == 3) = failed
    split
    · exact hphase _ _
    · split
      · exact (hphase _ _).trans (State.markStep_keeps hrec _ _ _ _)
      · obtain ⟨v, alt, halt⟩ := stepEnd i b failed
        cases halt with
        | true =>
          refine (hphase _ _).trans ?_
          rw [State.markStep_keeps hrec, State.measureStep_keeps hmeas]
          exact State.markStep_keeps hrec _ _ _ _
        | false =>
          refine (ih (i + 1) _).trans ?_
          rw [State.markStep_keeps hrec, State.measureStep_keeps hmeas]
          exact (hwork _ _ _).trans (State.markStep_keeps hrec _ _ _ _)

end

/-- What no step of a start touches: slots, task sets, journal, flash, the stepping and the package number. -/
def State.outsideBoot (s : State) : Tab Slot × Tab TaskSet × (List JEntry × Nat) × Tab Byte × BitVec 32 × Nat :=
  (s.slots, s.sets, (s.journal, s.jseq), s.flash, s.zid, s.fpkg)

theorem State.writeWords_rest (s : State) (a : Nat) (ws : List Word) : s.writeWords a ws = { s with mem := (s.writeWords a ws).mem } := by
  induction ws generalizing s a with
  | nil => rfl
  | cons w ws ih =>
    have h := ih (s.writeWord a w) (a + 8)
    rw [State.writeWord, s.writeBytes_rest] at h
    rw [State.writeWords, State.writeWord, s.writeBytes_rest, h]

/-- The masks of every isle are locked. -/
def State.lockAll (s : State) : State := (List.range 16).foldl (fun s i => s.modIsle i (·.writeLock)) s

/-- The tables of step 4 are written to memory; the rest of its work is in the isles and SPTBASE. -/
theorem State.lockMasks_lockAll {α : Type} {get : State → α} (hsp : ∀ (s : State) v, get { s with sptbase := v } = get s)
    {b : BootFinds} (hmem : b.tables = [] ∨ ∀ (s : State) m, get { s with mem := m } = get s) (s : State) :
    get (s.lockMasks b) = get s.lockAll := by
  unfold State.lockMasks
  extract_lets s1 s2
  have h2 : get s2 = get s1 := by
    rcases hmem with ht | hm
    · simp only [s2, ht, List.filter_nil, List.foldl_nil]
    · refine foldl_keeps (P := fun t => get t = get s1) (fun t p ht => ?_) _ _ rfl
      rw [State.writeWords_rest, hm, ht]
  rw [hsp, h2]
  rfl

theorem State.lockMasks_keeps {α : Type} {get : State → α} (hisle : ∀ s k f, get (s.modIsle k f) = get s)
    (hsp : ∀ (s : State) v, get { s with sptbase := v } = get s) {b : BootFinds}
    (hmem : b.tables = [] ∨ ∀ (s : State) m, get { s with mem := m } = get s) (s : State) : get (s.lockMasks b) = get s := by
  rw [State.lockMasks_lockAll hsp hmem]
  exact foldl_keeps (P := fun t => get t = get s) (fun t i ht => (hisle t i _).trans ht) _ _ rfl

theorem State.trainDram_keeps {α : Type} {get : State → α} (hisle : ∀ s k f, get (s.modIsle k f) = get s)
    (hcore : ∀ s k f, get (s.modCore k f) = get s) (b : BootFinds) (s : State) : get (s.trainDram b) = get s := by
  unfold State.trainDram
  extract_lets dead mask s1
  have h1 : get s1 = get s := foldl_keeps (P := fun t => get t = get s) (fun t i ht => (hisle t i _).trans ht) _ _ rfl
  split
  · rfl
  · refine foldl_keeps (P := fun t => get t = get s) (fun t c ht => ?_) _ _ h1
    split
    · exact (hcore t c _).trans ht
    · exact ht

theorem State.testCores_keeps {α : Type} {get : State → α} (hcore : ∀ s k f, get (s.modCore k f) = get s) (b : BootFinds)
    (s : State) : get (s.testCores b) = get s :=
  foldl_keeps (P := fun t => get t = get s) (fun t c ht => (hcore t c _).trans ht) _ _ rfl

theorem State.bootWork_keeps {α : Type} {get : State → α} (hisle : ∀ s k f, get (s.modIsle k f) = get s)
    (hcore : ∀ s k f, get (s.modCore k f) = get s) (hsp : ∀ (s : State) v, get { s with sptbase := v } = get s)
    (hfab : ∀ (s : State) r l, get { s with froute := r, lanes := l } = get s)
    (hphase : ∀ (s : State) p, get { s with phase := p } = get s) {b : BootFinds}
    (hmem : b.tables = [] ∨ ∀ (s : State) m, get { s with mem := m } = get s) (s : State) (i : Nat) (bad : Bool) :
    get (s.bootWork i b bad) = get s := by
  unfold State.bootWork
  split
  · exact State.trainDram_keeps hisle hcore b s
  · exact State.testCores_keeps hcore b s
  · exact State.lockMasks_keeps hisle hsp hmem s
  · split
    · exact hfab _ _ _
    · rfl
  · exact hphase _ _
  · rfl

theorem State.bootFrom_outsideBoot (b : BootFinds) (prev : Word) (i n : Nat) (s : State) :
    (State.bootFrom b prev i n s).outsideBoot = s.outsideBoot :=
  State.bootFrom_keeps (fun _ _ => rfl) (fun _ _ _ => rfl)
    (State.bootWork_keeps (fun _ _ _ => rfl) (fun _ _ _ => rfl) (fun _ _ => rfl) (fun _ _ _ => rfl) (fun _ _ => rfl)
      (.inr fun _ _ => rfl)) (fun _ _ => rfl) prev n i s

/-- Memory is written by step 4 alone, with the tables that it is given. -/
theorem State.bootFrom_mem {b : BootFinds} (ht : b.tables = []) (prev : Word) (i n : Nat) (s : State) :
    (State.bootFrom b prev i n s).mem = s.mem :=
  State.bootFrom_keeps (get := State.mem) (fun _ _ => rfl) (fun _ _ _ => rfl)
    (State.bootWork_keeps (fun _ _ _ => rfl) (fun _ _ _ => rfl) (fun _ _ => rfl) (fun _ _ _ => rfl) (fun _ _ => rfl)
      (.inl ht)) (fun _ _ => rfl) prev n i s

/-- The state in which step 0 begins: the stepping is known, and the record counts the start (R408). -/
def State.bootEntry (s : State) (b : BootFinds) : State :=
  { s with zid := if b.stepping = 1 then 0x4A501611 else 0x4A501610 }.putStart
    (BitVec.ofNat 64 (Nat.min 65535 (s.startWord.toNat / 2 ^ 48 + 1) * 2 ^ 48 + recGen s.startWord * 2 ^ 32))

theorem State.boot_eq (s : State) (b : BootFinds) : s.boot b = State.bootFrom b s.startWord 0 8 (s.bootEntry b) := rfl

/-- What a start leaves outside the boot steps' reach is what it began with, but for the stepping. -/
theorem State.boot_outside (s : State) (b : BootFinds) :
    (s.boot b).slots = s.slots ∧ (s.boot b).sets = s.sets ∧ (s.boot b).journal = s.journal ∧ (s.boot b).jseq = s.jseq ∧
      (s.boot b).flash = s.flash ∧ (s.boot b).zid = (if b.stepping = 1 then 0x4A501611 else 0x4A501610) ∧
      (s.boot b).fpkg = s.fpkg ∧ (b.tables = [] → (s.boot b).mem = s.mem) := by
  have h := State.bootFrom_outsideBoot b s.startWord 0 8 (s.bootEntry b)
  rw [← State.boot_eq] at h
  simp only [State.outsideBoot, Prod.mk.injEq] at h
  obtain ⟨hslots, hsets, ⟨hj, hjseq⟩, hflash, hzid, hfpkg⟩ := h
  exact ⟨hslots, hsets, hj, hjseq, hflash, hzid, hfpkg, fun ht => State.bootFrom_mem ht s.startWord 0 8 (s.bootEntry b)⟩

end Sys2Proof.Machine

/-! ### The progress record over a start (R408) -/

namespace Sys2Proof.Machine

theorem State.startWord_congr {s t : State} (h : s.startrec = t.startrec) : s.startWord = t.startWord := by
  unfold State.startWord State.governing State.startCopy
  rw [h]

theorem State.governing_of_one {s : State} {w : Word} (h1 : s.startCopy 1 = some w)
    (h0 : ∀ a, s.startCopy 0 = some a → recGen w = (recGen a + 1) % 2 ^ 16) : s.governing = (1, w) := by
  unfold State.governing
  rw [h1]
  cases h : s.startCopy 0 with
  | none => rfl
  | some a =>
    have hg := h0 a h
    have ha : recGen a < 2 ^ 16 := Nat.mod_lt _ (by decide)
    exact if_pos (by omega)

theorem State.governing_of_zero {s : State} {w : Word} (h0 : s.startCopy 0 = some w)
    (h1 : ∀ a, s.startCopy 1 = some a → recGen w = (recGen a + 1) % 2 ^ 16) : s.governing = (0, w) := by
  unfold State.governing
  rw [h0]
  cases h : s.startCopy 1 with
  | none => rfl
  | some a =>
    have hg := h1 a h
    have ha : recGen a < 2 ^ 16 := Nat.mod_lt _ (by decide)
    exact if_neg (by omega)

/-- The governing copy is a valid one of the two, or no copy is valid and copy 0 counts as 0. -/
theorem State.governing_cases (s : State) :
    (s.governing.1 = 0 ∧ s.startCopy 0 = some s.startWord) ∨ (s.governing.1 = 1 ∧ s.startCopy 1 = some s.startWord) ∨
      (s.governing.1 = 0 ∧ s.startCopy 0 = none) := by
  unfold State.startWord State.governing
  cases h0 : s.startCopy 0 <;> cases h1 : s.startCopy 1
  · exact .inr (.inr ⟨rfl, rfl⟩)
  · exact .inr (.inl ⟨rfl, rfl⟩)
  · exact .inl ⟨rfl, rfl⟩
  · simp only
    split
    · exact .inr (.inl ⟨rfl, rfl⟩)
    · exact .inl ⟨rfl, rfl⟩

/-- A copy that is written with its CRC is valid; the other one stays as it was. -/
theorem State.startCopy_set_same {s : State} {i : Nat} (hi : i < s.startrec.length) (w : Word) :
    ({ s with startrec := s.startrec.set i (w, recCrc w) } : State).startCopy i = some w := by
  simp only [State.startCopy, List.getD_eq_getElem?_getD, List.getElem?_set_self hi, Option.getD_some, if_true]

theorem State.startCopy_set_ne (s : State) {i j : Nat} (hij : i ≠ j) (c : Word × BitVec 32) :
    ({ s with startrec := s.startrec.set i c } : State).startCopy j = s.startCopy j := by
  simp only [State.startCopy, List.getD_eq_getElem?_getD, List.getElem?_set_ne hij]

/-- The record that `putStart` writes governs from then on. -/
theorem State.startWord_set {s : State} (hl : s.startrec.length = 2) {w : Word} (hw : recGen w = (recGen s.startWord + 1) % 2 ^ 16) :
    ({ s with startrec := s.startrec.set (1 - s.governing.1) (w, recCrc w) } : State).startWord = w := by
  rw [State.startWord]
  rcases s.governing_cases with ⟨hi, hc⟩ | ⟨hi, hc⟩ | ⟨hi, hc⟩ <;> rw [hi]
  · rw [State.governing_of_one (State.startCopy_set_same (by omega) w) fun a ha => ?_]
    rw [s.startCopy_set_ne (by decide), hc] at ha
    cases ha
    exact hw
  · rw [State.governing_of_zero (State.startCopy_set_same (by omega) w) fun a ha => ?_]
    rw [s.startCopy_set_ne (by decide), hc] at ha
    cases ha
    exact hw
  · rw [State.governing_of_one (State.startCopy_set_same (by omega) w) fun a ha => ?_]
    rw [s.startCopy_set_ne (by decide), hc] at ha
    cases ha

/-- A write of the record takes over every field of `w`; the generation is one above the governing one. -/
theorem State.startWord_putStart {s : State} (hl : s.startrec.length = 2) (w : Word) :
    (s.putStart w).startWord.toNat = w.toNat - recGen w * 2 ^ 32 + (recGen s.startWord + 1) % 2 ^ 16 * 2 ^ 32 := by
  have hlt := w.isLt
  have hn : w.toNat - recGen w * 2 ^ 32 + (recGen s.startWord + 1) % 2 ^ 16 * 2 ^ 32 < 2 ^ 64 := by
    unfold recGen
    omega
  rw [State.putStart_eq, State.startWord_set hl, BitVec.toNat_ofNat, Nat.mod_eq_of_lt hn]
  rw [recGen, BitVec.toNat_ofNat, Nat.mod_eq_of_lt hn]
  unfold recGen
  omega

theorem State.putStart_length (s : State) (w : Word) : (s.putStart w).startrec.length = s.startrec.length := by
  rw [State.putStart_eq, List.length_set]

/-- The fields below bit 32 hold the states of the steps. -/
theorem stepState_congr {v w : Word} (h : v.toNat % 2 ^ 32 = w.toNat % 2 ^ 32) {j : Nat} (hj : j < 8) :
    stepState v j = stepState w j := by
  have low (n : Nat) : n / 4 ^ j % 4 = n % 2 ^ 32 / 4 ^ j % 4 := by
    have hdvd : 4 ^ j * 4 ∣ 2 ^ 32 := by
      rw [← Nat.pow_succ, show (2 : Nat) ^ 32 = 4 ^ 16 from rfl]
      exact Nat.pow_dvd_pow 4 (by omega)
    rw [← Nat.mod_mul_right_div_self, ← Nat.mod_mul_right_div_self, Nat.mod_mod_of_dvd _ hdvd]
  rw [stepState, stepState, low, h, ← low]

theorem State.putStart_fields {s : State} (hl : s.startrec.length = 2) (w : Word) :
    (s.putStart w).startWord.toNat / 2 ^ 48 = w.toNat / 2 ^ 48 ∧
      ∀ j, j < 8 → stepState (s.putStart w).startWord j = stepState w j := by
  have h := State.startWord_putStart hl w
  have hlt := w.isLt
  unfold recGen at h
  exact ⟨by omega, fun j hj => stepState_congr (by omega) hj⟩

/-- A number with digit `i` to base 4 replaced, split at that digit. -/
theorem replaceDigit_eq (w i v : Nat) :
    w - w / 4 ^ i % 4 * 4 ^ i + v * 4 ^ i = 4 ^ i * (4 * (w / 4 ^ i / 4) + v) + w % 4 ^ i := by
  have hw : w = 4 ^ i * (4 * (w / 4 ^ i / 4) + w / 4 ^ i % 4) + w % 4 ^ i := by
    rw [Nat.div_add_mod, Nat.div_add_mod]
  have hr : 4 ^ i * (4 * (w / 4 ^ i / 4) + w / 4 ^ i % 4) = 4 ^ i * (4 * (w / 4 ^ i / 4)) + w / 4 ^ i % 4 * 4 ^ i := by
    rw [Nat.mul_add, Nat.mul_comm (w / 4 ^ i % 4)]
  have hv : 4 ^ i * (4 * (w / 4 ^ i / 4) + v) = 4 ^ i * (4 * (w / 4 ^ i / 4)) + v * 4 ^ i := by
    rw [Nat.mul_add, Nat.mul_comm v]
  omega

/-- Digit `j` after digit `i` has been replaced. -/
theorem replaceDigit_digit {w i v : Nat} (hv : v < 4) (j : Nat) :
    (w - w / 4 ^ i % 4 * 4 ^ i + v * 4 ^ i) / 4 ^ j % 4 = if j = i then v else w / 4 ^ j % 4 := by
  have hp : 0 < 4 ^ i := Nat.pow_pos (by decide)
  have hdiv : (w - w / 4 ^ i % 4 * 4 ^ i + v * 4 ^ i) / 4 ^ i = 4 * (w / 4 ^ i / 4) + v := by
    rw [replaceDigit_eq, Nat.mul_add_div hp, Nat.div_eq_of_lt (Nat.mod_lt w hp), Nat.add_zero]
  have hmod : (w - w / 4 ^ i % 4 * 4 ^ i + v * 4 ^ i) % 4 ^ i = w % 4 ^ i := by
    rw [replaceDigit_eq, Nat.mul_add_mod, Nat.mod_mod]
  generalize w - w / 4 ^ i % 4 * 4 ^ i + v * 4 ^ i = w' at hdiv hmod
  rcases Nat.lt_trichotomy j i with hj | rfl | hj
  · have hdvd : 4 ^ j * 4 ∣ 4 ^ i := by
      rw [← Nat.pow_succ]
      exact Nat.pow_dvd_pow 4 hj
    rw [if_neg (Nat.ne_of_lt hj), ← Nat.mod_mul_right_div_self, ← Nat.mod_mul_right_div_self, ← Nat.mod_mod_of_dvd w' hdvd, hmod,
      Nat.mod_mod_of_dvd _ hdvd]
  · rw [if_pos rfl, hdiv]
    omega
  · obtain ⟨k, rfl⟩ := Nat.exists_eq_add_of_lt hj
    have hsplit (n : Nat) : n / 4 ^ (i + k + 1) = n / 4 ^ i / 4 / 4 ^ k := by
      rw [Nat.div_div_eq_div_mul, Nat.div_div_eq_div_mul, Nat.add_assoc, Nat.add_comm k, Nat.pow_add, Nat.pow_add, Nat.pow_one,
        ← Nat.mul_assoc]
    rw [if_neg (Nat.ne_of_gt hj), hsplit, hsplit, hdiv, show (4 * (w / 4 ^ i / 4) + v) / 4 = w / 4 ^ i / 4 by omega]

theorem lt_eight_cases {i : Nat} (hi : i < 8) : i = 0 ∨ i = 1 ∨ i = 2 ∨ i = 3 ∨ i = 4 ∨ i = 5 ∨ i = 6 ∨ i = 7 := by omega

/-- Marking a step without its alternate sets its state, and leaves the other steps and the count of starts (R408). -/
theorem State.markStep_fields {s : State} (hl : s.startrec.length = 2) {i v : Nat} (hi : i < 8) (hv : v < 4) :
    (s.markStep i v false).startWord.toNat / 2 ^ 48 = s.startWord.toNat / 2 ^ 48 ∧
      ∀ j, j < 8 → stepState (s.markStep i v false).startWord j = if j = i then v else stepState s.startWord j := by
  have hlt := s.startWord.isLt
  have hdiv : (s.startWord.toNat - s.startWord.toNat / 4 ^ i % 4 * 4 ^ i + v * 4 ^ i) / 2 ^ 48 = s.startWord.toNat / 2 ^ 48 := by
    obtain rfl | rfl | rfl | rfl | rfl | rfl | rfl | rfl := lt_eight_cases hi
    all_goals omega
  have hn : s.startWord.toNat - s.startWord.toNat / 4 ^ i % 4 * 4 ^ i + v * 4 ^ i < 2 ^ 64 := by omega
  obtain ⟨hstarts, hsteps⟩ := State.putStart_fields hl
    (BitVec.ofNat 64 (s.startWord.toNat - s.startWord.toNat / 4 ^ i % 4 * 4 ^ i + v * 4 ^ i))
  rw [BitVec.toNat_ofNat, Nat.mod_eq_of_lt hn] at hstarts
  refine ⟨hstarts.trans hdiv, fun j hj => (hsteps j hj).trans ?_⟩
  rw [stepState, BitVec.toNat_ofNat, Nat.mod_eq_of_lt hn]
  exact replaceDigit_digit hv j

end Sys2Proof.Machine

/-! ### What a start begins with (R8, R406, R414) -/

namespace Sys2Proof.Machine

theorem tget_of_forall {α : Type} {P : α → Prop} {d : α} {t : Tab α} (hd : P d) (ht : ∀ e ∈ t, P e.2) (k : Nat) :
    P (tget d t k) := by
  induction t with
  | nil => exact hd
  | cons e t ih =>
    rw [tget]
    split
    · exact ht e (List.mem_cons_self ..)
    · exact ih fun x hx => ht x (List.mem_cons_of_mem _ hx)

theorem State.tornStart_eq (s : State) (torn : Option (Word × BitVec 32)) :
    s.tornStart torn = { s with startrec := (s.tornStart torn).startrec } := by
  cases torn <;> rfl

theorem keptCores_wf {cs : Tab Core} (h : tabWf Core.init cs = true) : tabWf Core.init (keptCores cs) = true := by
  obtain ⟨_, hsorted⟩ := (tabWf_iff _ _).1 h
  refine (tabWf_iff _ _).2 ⟨fun e he => ?_, List.pairwise_map.2 (hsorted.filter _)⟩
  obtain ⟨c, _, rfl⟩ := List.mem_map.1 he
  exact fun heq => nomatch (congrArg Core.excluded heq : true = false)

theorem keptIsles_isle (is_ : Tab Isle) (i : Nat) : ∃ n, tget Isle.init (keptIsles is_) i = { Isle.init with evictions := n } := by
  refine tget_of_forall (P := fun t => ∃ n, t = { Isle.init with evictions := n }) ⟨0, rfl⟩ (fun e he => ?_) i
  obtain ⟨c, _, rfl⟩ := List.mem_map.1 he
  exact ⟨_, rfl⟩

/-- `w` is a state in which the boot controller begins, after device state `s`: the record is the one of `s`, nothing is
measured, and every isle is at its reset value but for its evictions. -/
structure BootsFrom (s w : State) : Prop where
  startrec : w.startrec = s.startrec
  measLog : w.measLog = []
  measM : w.measM = State.reset.measM
  cores : s.tablesWf = true → tabWf Core.init w.cores = true
  isles : ∀ i, ∃ n, w.isle i = { Isle.init with evictions := n }

/-- What POWER_UP starts. -/
def State.coldState (s : State) (b : BootFinds) : State := s.coldKeep.tornStart b.torn

/-- What RESET starts. -/
def State.warmState (s : State) : State :=
  { s.coldKeep with
    cores := keptCores s.cores, isles := keptIsles s.isles, journal := resetDone s.journal, jseq := s.jseq, fpkg := s.fpkg }

theorem exec_powerUp (b : BootFinds) (s : State) : exec (.powerUp b) s = .next ((s.coldState b).boot b) := rfl

theorem exec_reset (b : BootFinds) (s : State) : exec (.reset b) s = .next (s.warmState.boot b) := rfl

theorem BootsFrom.cold {b : BootFinds} (ht : b.torn = none) (s : State) : BootsFrom s (s.coldState b) := by
  rw [State.coldState, ht]
  exact ⟨rfl, rfl, rfl, fun _ => rfl, fun _ => ⟨0, rfl⟩⟩

theorem BootsFrom.warm (s : State) : BootsFrom s s.warmState := by
  refine ⟨rfl, rfl, rfl, fun h => keptCores_wf ?_, keptIsles_isle s.isles⟩
  simp only [State.tablesWf, Bool.and_eq_true] at h
  obtain ⟨⟨⟨⟨_, hcores⟩, _⟩, _⟩, _⟩ := h
  exact hcores

/-- A start that is not torn begins as `BootsFrom` says. -/
theorem exists_bootsFrom {b : BootFinds} {s t : State}
    (h : (b.torn = none ∧ exec (.powerUp b) s = .next t) ∨ exec (.reset b) s = .next t) : ∃ w, BootsFrom s w ∧ t = w.boot b := by
  rcases h with ⟨ht, he⟩ | he
  · rw [exec_powerUp] at he
    cases he
    exact ⟨_, .cold ht s, rfl⟩
  · rw [exec_reset] at he
    cases he
    exact ⟨_, .warm s, rfl⟩

theorem BootsFrom.startWord {s w : State} (h : BootsFrom s w) : w.startWord = s.startWord := State.startWord_congr h.startrec

/-- POWER_UP keeps flash; all else outside the boot steps' reach is at its reset value. -/
theorem exec_powerUp_keeps (b : BootFinds) (s : State) : ∃ t, exec (.powerUp b) s = .next t ∧ (b.tables = [] → t.mem = []) ∧
    t.slots = [] ∧ t.sets = [] ∧ t.journal = [] ∧ t.jseq = 0 ∧ t.flash = s.flash ∧
    t.zid = (if b.stepping = 1 then 0x4A501611 else 0x4A501610) ∧ t.fpkg = State.reset.fpkg := by
  obtain ⟨hslots, hsets, hj, hjseq, hflash, hzid, hfpkg, hmem⟩ := (s.coldState b).boot_outside b
  rw [State.coldState, State.tornStart_eq] at hslots hsets hj hjseq hflash hzid hfpkg hmem
  refine ⟨_, exec_powerUp b s, ?_⟩
  rw [State.coldState, State.tornStart_eq]
  exact ⟨hmem, hslots, hsets, hj, hjseq, hflash, hzid, hfpkg⟩

/-- RESET keeps flash, the length and numbering of the journal, and the package number. -/
theorem exec_reset_keeps (b : BootFinds) (s : State) : ∃ t, exec (.reset b) s = .next t ∧ (b.tables = [] → t.mem = []) ∧
    t.slots = [] ∧ t.sets = [] ∧ t.journal.length = s.journal.length ∧ t.jseq = s.jseq ∧ t.flash = s.flash ∧ t.fpkg = s.fpkg ∧
    t.zid = (if b.stepping = 1 then 0x4A501611 else 0x4A501610) := by
  obtain ⟨hslots, hsets, hj, hjseq, hflash, hzid, hfpkg, hmem⟩ := s.warmState.boot_outside b
  refine ⟨_, exec_reset b s, hmem, hslots, hsets, ?_, hjseq, hflash, hfpkg, hzid⟩
  rw [hj]
  exact List.length_map _

theorem imageAccepted_iff (m : BootImage) : imageAccepted m = true ↔
    sha384 m.edKey = Config.fusedEd25519 ∧ sha384 m.mlKey = Config.fusedMlDsa ∧
      Config.verifyEd25519 m.edKey (imageDigest m) m.edSig = true ∧ Config.verifyMlDsa m.mlKey (imageDigest m) m.mlSig = true ∧
      Config.fusedVersion ≤ m.version := by
  simp only [imageAccepted, Bool.and_eq_true, decide_eq_true_eq, and_assoc]

/-! ### Starts that halt -/

/-- Where step 0 failed on the previous start, or fails now. -/
theorem not_goesOn_zero {b : BootFinds} {prev : Word} (h : prev.toNat % 4 = 1 ∨ prev.toNat % 4 = 3 ∨ 0 ∈ b.failTwice) :
    ¬ GoesOn b prev 0 := by
  rintro ⟨hprev, hend⟩
  have hstate : stepState prev 0 = prev.toNat % 4 := by simp [stepState]
  rw [failedBefore, hstate] at hprev
  rcases h with h | h | h
  · rw [h] at hprev
    exact absurd hprev (by decide)
  · rw [h] at hprev
    exact absurd hprev (by decide)
  · simp [stepEnd, h] at hend

/-- Where step 1 has no accepted image. -/
theorem not_goesOn_one {b : BootFinds} {prev : Word} (ha : bootLoads b 1 0 = none) (hb : bootLoads b 1 1 = none) :
    ¬ GoesOn b prev 1 := by
  rintro ⟨-, hend⟩
  simp [stepEnd, loadEnd, ha, hb] at hend

theorem State.boot_halts {b : BootFinds} {w : State} (hb : b.hangs = none) {j : Nat} (hj : j < 8)
    (hg : ¬ GoesOn b w.startWord j) : (w.boot b).phase = .halted := by
  rw [State.boot_eq]
  exact State.bootFrom_halts hb (Nat.zero_le j) (by omega) hg _

/-- A start that nothing breaks off and that does not halt is its eight steps. -/
theorem State.boot_eq_bootSteps {b : BootFinds} {w : State} (hb : b.hangs = none) (hg : ∀ j, j < 8 → GoesOn b w.startWord j) :
    w.boot b = State.bootSteps b w.startWord 0 8 (w.bootEntry b) := by
  rw [State.boot_eq]
  exact State.bootFrom_eq_bootSteps hb (fun j _ hj => hg j (by omega)) _

/-- A start that goes on is its eight steps, written out. -/
theorem State.boot_eq_steps {b : BootFinds} {w : State} (hb : b.hangs = none) (hg : ∀ j, j < 8 → GoesOn b w.startWord j) :
    w.boot b = ((((((((w.bootEntry b).bootStep b w.startWord 0).bootStep b w.startWord 1).bootStep b w.startWord 2).bootStep b
      w.startWord 3).bootStep b w.startWord 4).bootStep b w.startWord 5).bootStep b w.startWord 6).bootStep b w.startWord 7 := by
  rw [State.boot_eq_bootSteps hb hg]
  simp only [State.bootSteps, Nat.zero_add, Nat.reduceAdd]

theorem goesOn_of_up {b : BootFinds} {w : State} (hb : b.hangs = none) (hup : (w.boot b).phase = .up) (j : Nat) (hj : j < 8) :
    GoesOn b w.startWord j := by
  refine Classical.byContradiction fun hg => ?_
  rw [State.boot_halts hb hj hg] at hup
  cases hup

end Sys2Proof.Machine

/-! ### The cores that a start excludes (R407) -/

namespace Sys2Proof.Machine

theorem sum_two_pow_filter_lt (p : Nat → Bool) (n : Nat) : (((List.range n).filter p).map fun i => 2 ^ i).sum < 2 ^ n := by
  induction n with
  | zero => exact Nat.one_pos
  | succ n ih =>
    rw [List.range_succ, List.filter_append, List.map_append, List.sum_append, Nat.pow_succ]
    cases h : p n <;> simp [h] <;> omega

/-- The mask of the numbers below `n` that meet `p`. -/
theorem testBit_sum_two_pow_filter (p : Nat → Bool) {n i : Nat} (hi : i < n) :
    (((List.range n).filter p).map fun i => 2 ^ i).sum.testBit i = p i := by
  induction n with
  | zero => omega
  | succ n ih =>
    rw [List.range_succ, List.filter_append, List.map_append, List.sum_append]
    have hlt := sum_two_pow_filter_lt p n
    rcases Nat.lt_succ_iff_lt_or_eq.1 hi with h | rfl
    · cases hp : p n
      · simpa [hp] using ih h
      · simpa [hp, Nat.add_comm _ (2 ^ n), Nat.testBit_two_pow_add_gt h] using ih h
    · cases hp : p i
      · simpa [hp] using Nat.testBit_lt_two_pow hlt
      · simpa [hp, Nat.add_comm _ (2 ^ i), Nat.testBit_two_pow_add_eq] using Nat.testBit_lt_two_pow hlt

/-- Isles that are changed one after the other, to values that a table lists. -/
theorem State.foldl_modIsle_isle {f : Isle → Isle} {l : List Nat} (hl : l.Nodup) {s : State}
    (hf : ∀ i ∈ l, f (s.isle i) ≠ Isle.init) (k : Nat) : (l.foldl (fun s i => s.modIsle i f) s).isle k = if k ∈ l then f (s.isle k) else s.isle k := by
  induction l generalizing s with
  | nil => rfl
  | cons i l ih =>
    obtain ⟨hi, hl⟩ := List.nodup_cons.1 hl
    have hother (j : Nat) (hj : j ∈ l) : (s.modIsle i f).isle j = s.isle j :=
      State.isle_modIsle_ne _ _ _ _ (by rintro rfl; exact hi hj)
    rw [List.foldl_cons, ih hl fun j hj => by rw [hother j hj]; exact hf j (List.mem_cons_of_mem _ hj)]
    by_cases hk : k = i
    · subst hk
      rw [if_neg hi, if_pos (List.mem_cons_self ..)]
      exact tget_tset_listed _ _ _ _ (hf k (List.mem_cons_self ..))
    · rw [State.isle_modIsle_ne _ _ _ _ hk]
      simp [hk]

/-- Core `c` is excluded, or counted in again. -/
def State.exclude (x : Nat → Bool) (s : State) (c : Nat) : State := s.modCore c fun t => { t with excluded := x c }

theorem State.foldl_exclude_wf (x : Nat → Bool) (cs : List Nat) {s : State} (hw : tabWf Core.init s.cores = true) :
    tabWf Core.init (cs.foldl (State.exclude x) s).cores = true :=
  foldl_keeps (P := fun t => tabWf Core.init t.cores = true) (fun _ _ ht => tset_wf _ _ _ _ ht) cs s hw

theorem State.foldl_exclude_excluded (x : Nat → Bool) (cs : List Nat) {s : State} (hw : tabWf Core.init s.cores = true) (k : Nat) :
    ((cs.foldl (State.exclude x) s).core k).excluded = if k ∈ cs then x k else (s.core k).excluded := by
  induction cs generalizing s with
  | nil => rfl
  | cons c cs ih =>
    rw [List.foldl_cons, ih (tset_wf _ _ _ _ hw)]
    by_cases hk : k = c
    · subst hk
      have hx : ((s.exclude x k).core k).excluded = x k := congrArg Core.excluded (tget_tset_same _ _ _ _ hw)
      simp [hx]
    · rw [State.exclude, State.core_modCore_ne _ _ _ _ hk]
      simp [hk]

/-- The isles that do not train. -/
def deadList (b : BootFinds) : List Nat := (List.range 16).filter b.deadIsles.contains

/-- The isles that do not train, as the isles' registers name them. -/
def deadMask (b : BootFinds) : BitVec 16 := BitVec.ofNat 16 ((deadList b).map fun i => 2 ^ i).sum

/-- Every isle names the isles that do not train, and spreads no addresses. -/
def State.nameDead (s : State) (b : BootFinds) : State :=
  (List.range 16).foldl (fun s i => s.modIsle i fun t => { t with deadIsles := deadMask b, nospread := true }) s

theorem State.trainDram_of_none {b : BootFinds} (h : deadList b = []) (s : State) : s.trainDram b = s := by
  unfold deadList at h
  simp only [State.trainDram, h, List.isEmpty_nil, if_true]

theorem State.trainDram_of_some {b : BootFinds} (h : deadList b ≠ []) (s : State) :
    s.trainDram b = ((List.range 768).filter fun c => (deadList b).contains (isleOf c)).foldl (State.exclude fun _ => true)
      (s.nameDead b) := by
  have hne : (deadList b).isEmpty = false := by simpa using h
  rw [List.foldl_filter]
  unfold deadList at hne
  simp only [State.trainDram, hne, Bool.false_eq_true, if_false]
  rfl

/-- What step 3 does to one core. -/
def State.testCore (b : BootFinds) (s : State) (c : Nat) : State :=
  s.exclude (fun c => b.badCores.contains c || (s.isle 0).deadIsles.getLsbD (isleOf c)) c

/-- The exclusions look at isle 0, which they leave as it is. -/
theorem State.foldl_testCore (b : BootFinds) (s : State) (cs : List Nat) (t : State) (ht : t.isle 0 = s.isle 0) :
    cs.foldl (State.testCore b) t =
      cs.foldl (State.exclude fun c => b.badCores.contains c || (s.isle 0).deadIsles.getLsbD (isleOf c)) t := by
  induction cs generalizing t with
  | nil => rfl
  | cons c cs ih =>
    refine (ih (t.testCore b c) ht).trans ?_
    rw [State.testCore, ht, List.foldl_cons]

theorem State.testCores_eq (s : State) (b : BootFinds) : s.testCores b =
    ((s.cores.filter fun e => e.2.excluded).map (·.1) ++ b.badCores.filter (· < 768)).foldl
      (State.exclude fun c => b.badCores.contains c || (s.isle 0).deadIsles.getLsbD (isleOf c)) s :=
  State.foldl_testCore b s _ s rfl

theorem contains_deadList (b : BootFinds) {i : Nat} (hi : i < 16) : (deadList b).contains i = b.deadIsles.contains i := by
  simp [deadList, hi]

theorem State.nameDead_isle_zero (s : State) (b : BootFinds) :
    (s.nameDead b).isle 0 = { s.isle 0 with deadIsles := deadMask b, nospread := true } := by
  refine (State.foldl_modIsle_isle List.nodup_range (fun j _ heq => ?_) 0).trans (if_pos (by simp))
  exact nomatch (congrArg Isle.nospread heq : true = false)

theorem State.nameDead_cores (s : State) (b : BootFinds) : (s.nameDead b).cores = s.cores := by
  refine foldl_keeps (P := fun t => t.cores = s.cores) (fun t i ht => ?_) _ _ rfl
  exact ht

theorem State.foldl_exclude_isle (x : Nat → Bool) (cs : List Nat) (s : State) (i : Nat) :
    (cs.foldl (State.exclude x) s).isle i = s.isle i := by
  refine foldl_keeps (P := fun t => t.isle i = s.isle i) (fun t c ht => ?_) _ _ rfl
  exact ht

/-- Step 2 is over: cores of isles that do not train are excluded, and isle 0's register names those isles. -/
structure DramTrained (b : BootFinds) (s : State) : Prop where
  wf : tabWf Core.init s.cores = true
  excluded : ∀ c, c < 768 → b.deadIsles.contains (isleOf c) = true → (s.core c).excluded = true
  mask : ∀ i, i < 16 → (s.isle 0).deadIsles.getLsbD i = b.deadIsles.contains i

theorem isleOf_lt {c : Nat} (hc : c < 768) : isleOf c < 16 := by
  unfold isleOf
  omega

theorem State.trainDram_trained {b : BootFinds} {s : State} (hw : tabWf Core.init s.cores = true) (hz : (s.isle 0).deadIsles = 0) :
    DramTrained b (s.trainDram b) := by
  by_cases hnone : deadList b = []
  · have hlive (i : Nat) (hi : i < 16) : b.deadIsles.contains i = false := by rw [← contains_deadList b hi, hnone]; rfl
    rw [State.trainDram_of_none hnone]
    refine ⟨hw, fun c hc hd => ?_, fun i hi => by rw [hz, hlive i hi]; exact BitVec.getLsbD_zero⟩
    rw [hlive _ (isleOf_lt hc)] at hd
    cases hd
  · have hw1 : tabWf Core.init (s.nameDead b).cores = true := by rw [State.nameDead_cores, hw]
    rw [State.trainDram_of_some hnone]
    refine ⟨State.foldl_exclude_wf _ _ hw1, fun c hc hd => ?_, fun i hi => ?_⟩
    · rw [← contains_deadList b (isleOf_lt hc)] at hd
      rw [State.foldl_exclude_excluded _ _ hw1, if_pos (List.mem_filter.2 ⟨List.mem_range.2 hc, hd⟩)]
    · rw [State.foldl_exclude_isle, State.nameDead_isle_zero, deadMask, BitVec.getLsbD_ofNat, decide_eq_true hi, Bool.true_and]
      exact testBit_sum_two_pow_filter _ hi

/-- A core that reads as excluded is listed as such. -/
theorem mem_of_tget_excluded {t : Tab Core} {c : Nat} (h : (tget Core.init t c).excluded = true) :
    c ∈ (t.filter fun e => e.2.excluded).map (·.1) := by
  induction t with
  | nil => cases h
  | cons e t ih =>
    rw [tget] at h
    split at h
    · rename_i hc
      exact List.mem_map.2 ⟨e, List.mem_filter.2 ⟨List.mem_cons_self .., h⟩, hc.symm⟩
    · exact ((List.sublist_cons_self e t).filter _ |>.map _).subset (ih h)

/-- After step 3 a core is excluded just when it fails its test or lies in an isle left out. -/
theorem State.testCores_excluded {b : BootFinds} {s : State} (h : DramTrained b s) {c : Nat} (hc : c < 768) :
    ((s.testCores b).core c).excluded = (b.badCores.contains c || b.deadIsles.contains (isleOf c)) := by
  rw [State.testCores_eq, State.foldl_exclude_excluded _ _ h.wf, h.mask _ (isleOf_lt hc)]
  split
  · rfl
  · rename_i hnot
    simp only [List.mem_append, not_or] at hnot
    obtain ⟨hwas, hbad⟩ := hnot
    have hin : (s.core c).excluded = false := Bool.of_not_eq_true fun he => hwas (mem_of_tget_excluded he)
    have hb : b.badCores.contains c = false := by simpa [hc] using hbad
    have hd : b.deadIsles.contains (isleOf c) = false :=
      Bool.of_not_eq_true fun hd => Bool.noConfusion ((h.excluded c hc hd).symm.trans hin)
    rw [hin, hb, hd]
    rfl

end Sys2Proof.Machine

/-! ### The cores and isles over the steps of a start -/

namespace Sys2Proof.Machine

/-- The tables that steps 2 to 4 change. -/
def State.units (s : State) : Tab Core × Tab Isle := (s.cores, s.isles)

theorem State.bootStep_units_work {b : BootFinds} (prev : Word) (i : Nat) (s : State) : (s.bootStep b prev i).units =
    ((s.markStep i 1 false).bootWork i b (decide ((stepEnd i b (failedBefore prev i)).1 = 3))).units :=
  State.bootStep_work (fun _ _ => rfl) (fun _ _ _ => rfl) prev i s

theorem State.markStep_units (s : State) (i v : Nat) (alt : Bool) : (s.markStep i v alt).units = s.units :=
  State.markStep_keeps (fun _ _ => rfl) s i v alt

theorem State.bootWork_units {b : BootFinds} {i : Nat} (h2 : i ≠ 2) (h3 : i ≠ 3) (h4 : i ≠ 4) (s : State) (bad : Bool) :
    (s.bootWork i b bad).units = s.units := by
  unfold State.bootWork
  split
  · contradiction
  · contradiction
  · contradiction
  · split <;> rfl
  · rfl
  · rfl

theorem State.bootStep_units {b : BootFinds} {i : Nat} (h2 : i ≠ 2) (h3 : i ≠ 3) (h4 : i ≠ 4) (prev : Word) (s : State) :
    (s.bootStep b prev i).units = s.units := by
  rw [State.bootStep_units_work, State.bootWork_units h2 h3 h4, State.markStep_units]

theorem State.lockMasks_cores (b : BootFinds) (s : State) : (s.lockMasks b).cores = s.cores :=
  State.lockMasks_keeps (get := State.cores) (fun _ _ _ => rfl) (fun _ _ => rfl) (.inr fun _ _ => rfl) s

theorem State.bootEntry_units (b : BootFinds) (s : State) : (s.bootEntry b).units = s.units :=
  State.putStart_keeps (get := State.units) (fun _ _ => rfl) _ _

theorem State.units_inj {s t : State} (h : s.units = t.units) : s.cores = t.cores ∧ s.isles = t.isles := Prod.mk.inj h

theorem DramTrained.congr {b : BootFinds} {s t : State} (h : DramTrained b s) (he : t.units = s.units) : DramTrained b t := by
  obtain ⟨hc, hi⟩ := State.units_inj he
  obtain ⟨hw, hx, hm⟩ := h
  unfold State.core at hx
  unfold State.isle at hm
  exact ⟨by rw [hc]; exact hw, by unfold State.core; rw [hc]; exact hx, by unfold State.isle; rw [hi]; exact hm⟩

theorem State.bootStep_two_trained {b : BootFinds} {s : State} (hw : tabWf Core.init s.cores = true)
    (hz : (s.isle 0).deadIsles = 0) (prev : Word) : DramTrained b (s.bootStep b prev 2) := by
  obtain ⟨hc, hi⟩ := State.units_inj (s.markStep_units 2 1 false)
  refine DramTrained.congr ?_ (State.bootStep_units_work prev 2 s)
  refine State.trainDram_trained (by rw [hc]; exact hw) ?_
  rw [State.isle, hi]
  exact hz

theorem State.bootStep_three_excluded {b : BootFinds} {s : State} (h : DramTrained b s) (prev : Word) {c : Nat} (hc : c < 768) :
    ((s.bootStep b prev 3).core c).excluded = (b.badCores.contains c || b.deadIsles.contains (isleOf c)) := by
  obtain ⟨hcores, -⟩ := State.units_inj (State.bootStep_units_work (b := b) prev 3 s)
  rw [State.core, hcores]
  exact State.testCores_excluded (h.congr (s.markStep_units 3 1 false)) hc

theorem State.bootStep_four_cores {b : BootFinds} (prev : Word) (s : State) : (s.bootStep b prev 4).cores = s.cores :=
  State.bootStep_keeps (get := State.cores) (i := 4) (fun _ _ => rfl) (fun _ _ _ => rfl) (fun s _ => s.lockMasks_cores b) prev s

/-- The cores that a start excludes, when it succeeds. -/
theorem State.boot_excluded {b : BootFinds} {w : State} (hb : b.hangs = none) (hg : ∀ j, j < 8 → GoesOn b w.startWord j)
    (hw : tabWf Core.init w.cores = true) (hz : (w.isle 0).deadIsles = 0) {c : Nat} (hc : c < 768) :
    ((w.boot b).core c).excluded = (b.badCores.contains c || b.deadIsles.contains (c / 48)) := by
  have keep {i : Nat} (h2 : i ≠ 2) (h3 : i ≠ 3) (h4 : i ≠ 4) (s : State) :=
    State.units_inj (State.bootStep_units (b := b) h2 h3 h4 w.startWord s)
  obtain ⟨hc0, hi0⟩ := State.units_inj (w.bootEntry_units b)
  rw [State.boot_eq_steps hb hg, State.core, (keep (by decide) (by decide) (by decide) _).1, (keep (by decide) (by decide) (by decide) _).1,
    (keep (by decide) (by decide) (by decide) _).1, State.bootStep_four_cores]
  refine State.bootStep_three_excluded (State.bootStep_two_trained ?_ ?_ w.startWord) w.startWord hc
  · rw [(keep (by decide) (by decide) (by decide) _).1, (keep (by decide) (by decide) (by decide) _).1, hc0]
    exact hw
  · rw [State.isle, (keep (by decide) (by decide) (by decide) _).2, (keep (by decide) (by decide) (by decide) _).2, hi0]
    exact hz

end Sys2Proof.Machine

/-! ### A start in which nothing fails (R406 to R410) -/

namespace Sys2Proof.Machine

/-- No step failed before or fails now, and steps 1 and 6 find `m1` and `m6` in slot A; nothing else is measured. -/
structure CleanStart (b : BootFinds) (prev : Word) (m1 m6 : BootImage) : Prop where
  before : ∀ i, i < 8 → stepState prev i ≠ 1 ∧ stepState prev i ≠ 3
  failTwice : b.failTwice = []
  deadIsles : b.deadIsles = []
  badCores : b.badCores = []
  load1 : bootLoads b 1 0 = some m1
  load6 : bootLoads b 6 0 = some m6
  blocks : b.blocks = []
  images : ∀ m ∈ b.images, m.step = 1 ∨ m.step = 6

section
variable {b : BootFinds} {prev : Word} {m1 m6 : BootImage} (h : CleanStart b prev m1 m6)
include h

theorem CleanStart.failedBefore {i : Nat} (hi : i < 8) : failedBefore prev i = false := by
  obtain ⟨h1, h3⟩ := h.before i hi
  simp [Machine.failedBefore, h1, h3]

theorem CleanStart.stepEnd {i : Nat} (hi : i < 8) : stepEnd i b false = (2, false, false) := by
  have hl (j : Nat) (m : BootImage) (hm : bootLoads b j 0 = some m) : loadEnd j b false = (2, false, false) := by
    simp [loadEnd, h.failTwice, hm]
  obtain rfl | rfl | rfl | rfl | rfl | rfl | rfl | rfl := lt_eight_cases hi
  · simp [Machine.stepEnd, h.failTwice]
  · exact hl 1 m1 h.load1
  · simp [Machine.stepEnd, h.deadIsles]
  · simp [Machine.stepEnd, h.badCores]
  · simp [Machine.stepEnd, h.failTwice]
  · simp [Machine.stepEnd, h.failTwice]
  · exact hl 6 m6 h.load6
  · simp [Machine.stepEnd, h.failTwice]

theorem CleanStart.goesOn {i : Nat} (hi : i < 8) : GoesOn b prev i := by
  refine ⟨?_, ?_⟩
  · rw [h.failedBefore hi, Bool.and_false]
  · rw [h.failedBefore hi, h.stepEnd hi]

/-- Each step is marked as started, does its work, is measured with its slot A, and is marked as done. -/
theorem CleanStart.bootStep {i : Nat} (hi : i < 8) (s : State) : s.bootStep b prev i =
    (((s.markStep i 1 false).bootWork i b false).measureStep i b [0]).markStep i 2 false := by
  unfold State.bootStep
  rw [h.failedBefore hi, h.stepEnd hi]
  rfl

end

/-! ### The progress record of such a start -/

/-- The record counts `n` starts, and has the steps before `i` done. -/
structure Recorded (n i : Nat) (s : State) : Prop where
  length : s.startrec.length = 2
  starts : s.startWord.toNat / 2 ^ 48 = n
  done : ∀ j, j < i → stepState s.startWord j = 2

theorem Recorded.congr {n i : Nat} {s t : State} (h : Recorded n i s) (he : t.startrec = s.startrec) : Recorded n i t := by
  obtain ⟨hl, hn, hd⟩ := h
  rw [← State.startWord_congr he] at hn hd
  exact ⟨by rw [he]; exact hl, hn, hd⟩

theorem Recorded.markStep {n i : Nat} {s : State} (h : Recorded n i s) (hi : i < 8) {v : Nat} (hv : v < 4) :
    Recorded n i (s.markStep i v false) ∧ stepState (s.markStep i v false).startWord i = v := by
  obtain ⟨hn, hd⟩ := State.markStep_fields h.length hi hv
  refine ⟨⟨(State.putStart_length s _).trans h.length, hn.trans h.starts, fun j hj => ?_⟩, ?_⟩
  · rw [hd j (by omega), if_neg (Nat.ne_of_lt hj), h.done j hj]
  · rw [hd i hi, if_pos rfl]

theorem State.bootWork_startrec (s : State) (i : Nat) (b : BootFinds) (bad : Bool) : (s.bootWork i b bad).startrec = s.startrec :=
  State.bootWork_keeps (get := State.startrec) (fun _ _ _ => rfl) (fun _ _ _ => rfl) (fun _ _ => rfl) (fun _ _ _ => rfl)
    (fun _ _ => rfl) (.inr fun _ _ => rfl) s i bad

theorem State.measureStep_startrec (s : State) (i : Nat) (b : BootFinds) (tried : List Nat) :
    (s.measureStep i b tried).startrec = s.startrec :=
  State.measureStep_keeps (get := State.startrec) (fun _ _ _ => rfl) s i tried

theorem Recorded.bootStep {b : BootFinds} {prev : Word} {m1 m6 : BootImage} (hclean : CleanStart b prev m1 m6) {n i : Nat}
    {s : State} (h : Recorded n i s) (hi : i < 8) : Recorded n (i + 1) (s.bootStep b prev i) := by
  rw [hclean.bootStep hi]
  obtain ⟨h1, -⟩ := h.markStep hi (v := 1) (by decide)
  have hkept : Recorded n i (((s.markStep i 1 false).bootWork i b false).measureStep i b [0]) :=
    h1.congr (by rw [State.measureStep_startrec, State.bootWork_startrec])
  obtain ⟨h2, hdone⟩ := hkept.markStep hi (v := 2) (by decide)
  refine ⟨h2.length, h2.starts, fun j hj => ?_⟩
  rcases Nat.lt_succ_iff_lt_or_eq.1 hj with hj | rfl
  · exact h2.done j hj
  · exact hdone

theorem Recorded.bootSteps {b : BootFinds} {prev : Word} {m1 m6 : BootImage} (hclean : CleanStart b prev m1 m6) {n k i : Nat}
    {s : State} (h : Recorded n i s) (hk : i + k ≤ 8) : Recorded n (i + k) (State.bootSteps b prev i k s) := by
  induction k generalizing i s with
  | zero => exact h
  | succ k ih =>
    have := ih (h.bootStep hclean (by omega)) (by omega)
    rwa [show i + 1 + k = i + (k + 1) by omega] at this

/-- The record counts the start before step 0. -/
theorem State.bootEntry_recorded (b : BootFinds) {s : State} (hl : s.startrec.length = 2) :
    Recorded (min 65535 (s.startWord.toNat / 2 ^ 48 + 1)) 0 (s.bootEntry b) := by
  refine ⟨(State.putStart_length _ _).trans hl, ?_, fun j hj => absurd hj (by omega)⟩
  refine (State.putStart_fields (s := { s with zid := _ }) hl _).1.trans ?_
  have hgen : recGen s.startWord < 2 ^ 16 := Nat.mod_lt _ (by decide)
  have hmin : Nat.min 65535 (s.startWord.toNat / 2 ^ 48 + 1) ≤ 65535 := Nat.min_le_left ..
  change _ = Nat.min 65535 (s.startWord.toNat / 2 ^ 48 + 1)
  rw [BitVec.toNat_ofNat]
  omega

/-! ### Isles, phase and measurements -/

theorem resetMasks_independent : independent [] ((Isle.init.ixh ++ Isle.init.bxh).map (·.toNat)) = true := by decide +kernel

theorem Isle.writeLock_reset (n : Nat) :
    ({ Isle.init with evictions := n } : Isle).writeLock = { Isle.init with evictions := n, lock := true } := by
  unfold Isle.writeLock
  rw [if_neg (by exact Bool.false_ne_true)]
  exact if_pos resetMasks_independent

theorem State.lockAll_isle {s : State} (hreset : ∀ i, ∃ n, s.isle i = { Isle.init with evictions := n }) {i : Nat} (hi : i < 16) :
    (s.lockAll.isle i).lock = true := by
  have hlock (j : Nat) : (s.isle j).writeLock.lock = true := by
    obtain ⟨n, hn⟩ := hreset j
    rw [hn, Isle.writeLock_reset]
  have hlisted (j : Nat) (_ : j ∈ List.range 16) : (s.isle j).writeLock ≠ Isle.init := by
    intro heq
    have hl := hlock j
    rw [heq] at hl
    cases hl
  rw [State.lockAll, State.foldl_modIsle_isle List.nodup_range hlisted, if_pos (List.mem_range.2 hi)]
  exact hlock i

/-- Step 4 locks the masks that isles have at reset. -/
theorem State.bootStep_four_lock {b : BootFinds} {s : State} (hreset : ∀ i, ∃ n, s.isle i = { Isle.init with evictions := n })
    (prev : Word) {i : Nat} (hi : i < 16) : ((s.bootStep b prev 4).isle i).lock = true := by
  have hmark : (s.markStep 4 1 false).isles = s.isles := (State.units_inj (s.markStep_units 4 1 false)).2
  have hwork : ((s.markStep 4 1 false).lockMasks b).isles = (s.markStep 4 1 false).lockAll.isles :=
    State.lockMasks_lockAll (get := State.isles) (fun _ _ => rfl) (.inr fun _ _ => rfl) _
  have hstep : (s.bootStep b prev 4).isles = ((s.markStep 4 1 false).lockMasks b).isles :=
    (State.units_inj (State.bootStep_units_work prev 4 s)).2
  have hisle : (s.bootStep b prev 4).isle i = (s.markStep 4 1 false).lockAll.isle i :=
    congrArg (tget Isle.init · i) (hstep.trans hwork)
  have hreset' (j : Nat) : ∃ n, (s.markStep 4 1 false).isle j = { Isle.init with evictions := n } := by
    obtain ⟨n, hn⟩ := hreset j
    exact ⟨n, (congrArg (tget Isle.init · j) hmark).trans hn⟩
  rw [hisle]
  exact State.lockAll_isle hreset' hi

theorem State.bootStep_sptbase {b : BootFinds} (prev : Word) {i : Nat} (hi : i ≠ 4) (s : State) :
    (s.bootStep b prev i).sptbase = s.sptbase := by
  refine State.bootStep_keeps (get := State.sptbase) (fun _ _ => rfl) (fun _ _ _ => rfl) (fun t bad => ?_) prev s
  unfold State.bootWork
  split
  · exact State.trainDram_keeps (get := State.sptbase) (fun _ _ _ => rfl) (fun _ _ _ => rfl) b t
  · exact State.testCores_keeps (get := State.sptbase) (fun _ _ _ => rfl) b t
  · contradiction
  · split <;> rfl
  · rfl
  · rfl

theorem State.bootStep_four_sptbase {b : BootFinds} (prev : Word) (s : State) : (s.bootStep b prev 4).sptbase = b.sptbase :=
  State.bootStep_work (get := State.sptbase) (fun _ _ => rfl) (fun _ _ _ => rfl) prev 4 s

theorem State.bootStep_seven_phase {b : BootFinds} (prev : Word) (s : State) : (s.bootStep b prev 7).phase = .up :=
  State.bootStep_work (get := State.phase) (fun _ _ => rfl) (fun _ _ _ => rfl) prev 7 s

/-- The log of measurements and the register that they extend. -/
def State.measured (s : State) : List MeasEntry × BitVec 384 := (s.measLog, s.measM)

theorem State.bootWork_measured (s : State) (i : Nat) (b : BootFinds) (bad : Bool) : (s.bootWork i b bad).measured = s.measured :=
  State.bootWork_keeps (get := State.measured) (fun _ _ _ => rfl) (fun _ _ _ => rfl) (fun _ _ => rfl) (fun _ _ _ => rfl)
    (fun _ _ => rfl) (.inr fun _ _ => rfl) s i bad

theorem State.markStep_measured (s : State) (i v : Nat) (alt : Bool) : (s.markStep i v alt).measured = s.measured :=
  State.markStep_keeps (get := State.measured) (fun _ _ => rfl) s i v alt

/-- The entry of an image that step `i` loads. -/
def imageEntry (i : Nat) (m : BootImage) : MeasEntry := { step := i, slot := m.slot, version := m.version, digest := imageDigest m }

/-- What is measured once `e` has been. -/
def withEntry (p : List MeasEntry × BitVec 384) (e : MeasEntry) : List MeasEntry × BitVec 384 :=
  (p.1 ++ [e], sha384 (digestBytes p.2 ++ digestBytes e.digest))

theorem State.measure_measured (s : State) (e : MeasEntry) : (s.measure e).measured = withEntry s.measured e := rfl

theorem State.measureStep_of_some {b : BootFinds} (hb : b.blocks = []) {i : Nat} {m : BootImage} (hm : bootLoads b i 0 = some m)
    (s : State) : s.measureStep i b [0] = s.measure (imageEntry i m) := by
  simp only [State.measureStep, hb, List.filterMap_cons, List.filterMap_nil, hm, List.filter_nil, List.foldl_cons, List.foldl_nil]
  rfl

theorem State.measureStep_of_none {b : BootFinds} (hb : b.blocks = []) {i : Nat} (hm : bootLoads b i 0 = none) (s : State) :
    s.measureStep i b [0] = s := by
  simp only [State.measureStep, hb, List.filterMap_cons, List.filterMap_nil, hm, List.filter_nil, List.foldl_nil]

section
variable {b : BootFinds} {prev : Word} {m1 m6 : BootImage} (h : CleanStart b prev m1 m6)
include h

theorem CleanStart.bootStep_measured {i : Nat} (hi : i < 8) (s : State) : (s.bootStep b prev i).measured =
    (((s.markStep i 1 false).bootWork i b false).measureStep i b [0]).measured := by
  rw [h.bootStep hi, State.markStep_measured]

/-- A step that loads an image measures it. -/
theorem CleanStart.measured_of_some {i : Nat} (hi : i < 8) {m : BootImage} (hm : bootLoads b i 0 = some m) (s : State) :
    (s.bootStep b prev i).measured = withEntry s.measured (imageEntry i m) := by
  rw [h.bootStep_measured hi, State.measureStep_of_some h.blocks hm, State.measure_measured, State.bootWork_measured,
    State.markStep_measured]

/-- The other steps measure nothing. -/
theorem CleanStart.measured_of_ne {i : Nat} (hi : i < 8) (h1 : i ≠ 1) (h6 : i ≠ 6) (s : State) :
    (s.bootStep b prev i).measured = s.measured := by
  have hnone : bootLoads b i 0 = none := by
    refine List.find?_eq_none.2 fun m hm hp => ?_
    simp only [Bool.and_eq_true, beq_iff_eq] at hp
    rcases h.images m hm with he | he <;> omega
  rw [h.bootStep_measured hi, State.measureStep_of_none h.blocks hnone, State.bootWork_measured, State.markStep_measured]

/-- With every isle working, no step but 4 changes the isles. -/
theorem CleanStart.bootStep_isles {i : Nat} (hi : i < 8) (h4 : i ≠ 4) (s : State) : (s.bootStep b prev i).isles = s.isles := by
  refine State.bootStep_keeps (get := State.isles) (fun _ _ => rfl) (fun _ _ _ => rfl) (fun t bad => ?_) prev s
  unfold State.bootWork
  split
  · rw [State.trainDram_of_none (by simp [deadList, h.deadIsles])]
  · exact State.testCores_keeps (get := State.isles) (fun _ _ _ => rfl) b t
  · contradiction
  · split <;> rfl
  · rfl
  · rfl

end

end Sys2Proof.Machine

/-! ### What a start leaves, as a whole (R406 to R410, R414) -/

namespace Sys2Proof.Machine

theorem State.bootEntry_measured (b : BootFinds) (s : State) : (s.bootEntry b).measured = s.measured :=
  State.putStart_keeps (get := State.measured) (fun _ _ => rfl) _ _

section
variable {b : BootFinds} {s w : State} {m1 m6 : BootImage} (hb : b.hangs = none) (hw : BootsFrom s w)
  (hclean : CleanStart b w.startWord m1 m6)
include hb hclean

theorem CleanStart.boot_up : (w.boot b).phase = .up := by
  rw [State.boot_eq_steps hb fun j hj => hclean.goesOn hj]
  exact State.bootStep_seven_phase _ _

theorem CleanStart.boot_sptbase : (w.boot b).sptbase = b.sptbase := by
  rw [State.boot_eq_steps hb fun j hj => hclean.goesOn hj, State.bootStep_sptbase _ (by decide), State.bootStep_sptbase _ (by decide),
    State.bootStep_sptbase _ (by decide), State.bootStep_four_sptbase]

theorem CleanStart.boot_recorded (hl : w.startrec.length = 2) :
    Recorded (min 65535 (w.startWord.toNat / 2 ^ 48 + 1)) 8 (w.boot b) := by
  rw [State.boot_eq_bootSteps hb fun j hj => hclean.goesOn hj]
  exact (State.bootEntry_recorded b hl).bootSteps hclean (k := 8) (by decide)

include hw

theorem CleanStart.boot_lock {i : Nat} (hi : i < 16) : ((w.boot b).isle i).lock = true := by
  have keep {j : Nat} (hj : j < 8) (h4 : j ≠ 4) (v : State) (k : Nat) : (v.bootStep b w.startWord j).isle k = v.isle k :=
    congrArg (tget Isle.init · k) (hclean.bootStep_isles hj h4 v)
  have hentry (k : Nat) : (w.bootEntry b).isle k = w.isle k :=
    congrArg (tget Isle.init · k) (State.units_inj (w.bootEntry_units b)).2
  rw [State.boot_eq_steps hb fun j hj => hclean.goesOn hj, keep (by decide) (by decide), keep (by decide) (by decide),
    keep (by decide) (by decide)]
  refine State.bootStep_four_lock (fun k => ?_) _ hi
  rw [keep (by decide) (by decide), keep (by decide) (by decide), keep (by decide) (by decide), keep (by decide) (by decide), hentry]
  exact hw.isles k

theorem CleanStart.boot_measured :
    (w.boot b).measured = withEntry (withEntry ([], State.reset.measM) (imageEntry 1 m1)) (imageEntry 6 m6) := by
  rw [State.boot_eq_steps hb fun j hj => hclean.goesOn hj, hclean.measured_of_ne (by decide) (by decide) (by decide),
    hclean.measured_of_some (by decide) hclean.load6, hclean.measured_of_ne (by decide) (by decide) (by decide),
    hclean.measured_of_ne (by decide) (by decide) (by decide), hclean.measured_of_ne (by decide) (by decide) (by decide),
    hclean.measured_of_ne (by decide) (by decide) (by decide), hclean.measured_of_some (by decide) hclean.load1,
    hclean.measured_of_ne (by decide) (by decide) (by decide), State.bootEntry_measured, State.measured, hw.measLog, hw.measM]

end

/-- Settles O59: POWER_UP and RESET by what the steps keep, halts by the step that does not go on, and a start that goes on by
following the record, the units and the measurements through its eight steps. -/
theorem deviceStarts : Obligations.DeviceStarts := by
  unfold Obligations.DeviceStarts
  refine ⟨exec_powerUp_keeps, exec_reset_keeps, imageAccepted_iff, fun b s t hstart hb => ?_⟩
  obtain ⟨w, hw, rfl⟩ := exists_bootsFrom hstart
  rw [← hw.startWord, ← hw.startrec]
  refine ⟨fun h => State.boot_halts hb (by decide) (not_goesOn_zero h),
    fun ha hb1 => State.boot_halts hb (by decide) (not_goesOn_one ha hb1), fun hwf hup c hc => ?_,
    fun m1 m6 hbefore hl htwice hdead hbad h1 h6 hblocks himages => ?_⟩
  · obtain ⟨n, hisle⟩ := hw.isles 0
    exact State.boot_excluded hb (goesOn_of_up hb hup) (hw.cores hwf) (by rw [hisle]; rfl) hc
  · have hclean : CleanStart b w.startWord m1 m6 := ⟨hbefore, htwice, hdead, hbad, h1, h6, hblocks, himages⟩
    have hrec := hclean.boot_recorded hb hl
    obtain ⟨hlog, hreg⟩ := Prod.mk.inj (hclean.boot_measured hb hw)
    exact ⟨hclean.boot_up hb, hrec.done, fun i hi => hclean.boot_lock hb hw hi, hclean.boot_sptbase hb, hrec.starts, hlog, hreg⟩

end Sys2Proof.Machine

/-! ### What reset leaves (R18, R77, R163, R171, R173, R174, R306, R391) -/

namespace Sys2Proof.Machine

@[simp] theorem State.reset_slot (k : Nat) : State.reset.slot k = Slot.init := rfl
@[simp] theorem State.reset_core (c : Nat) : State.reset.core c = Core.init := rfl
@[simp] theorem State.reset_quire (q : Nat) : State.reset.quire q = Quire.init := rfl
@[simp] theorem State.reset_isle (i : Nat) : State.reset.isle i = Isle.init := rfl

/-- Every accumulator is DEAD, within the file of eight and beyond it (R306). -/
theorem Core.init_acc (n : Nat) : Core.init.acc n = .dead := by
  rw [Core.acc, Core.init, List.getD_eq_getElem?_getD, List.getElem?_replicate]
  split <;> rfl

/-- The hash masks after reset pick bits 8 to 11 for the isle and 12 to 20 for the bank (R173). -/
theorem Isle.init_masks : (∀ j, j < 4 → Isle.init.ixh.getD j 0 = 1#64 <<< (8 + j)) ∧
    ∀ k, k < 9 → Isle.init.bxh.getD k 0 = 1#64 <<< (12 + k) := by
  decide

/-- Settles O1: no unit is listed after reset, so each reads as its reset value. -/
theorem resetState : Obligations.ResetState := by
  unfold Obligations.ResetState
  simp only [State.reset_slot, State.reset_core, State.reset_quire, State.reset_isle]
  exact ⟨rfl, rfl, rfl, rfl, rfl, rfl, rfl, rfl, fun _ => rfl, fun _ => ⟨rfl, rfl, rfl, rfl⟩,
    fun _ => ⟨rfl, rfl, rfl, Core.init_acc, fun _ => rfl⟩, fun _ => ⟨rfl, rfl⟩,
    fun _ => ⟨rfl, rfl, rfl, rfl, rfl, rfl, rfl, rfl, rfl, Isle.init_masks⟩⟩

end Sys2Proof.Machine

/-! ### Checks of addresses (R21, R154, R251) -/

namespace Sys2Proof.Machine

theorem Res.error_bind {α β : Type} {x : Res α} {e : Stop} (h : x = .error e) (f : α → Res β) : (x >>= f) = .error e := by
  rw [h]
  rfl

theorem Res.ok_bind {α β : Type} {x : Res α} {a : α} (h : x = .ok a) (f : α → Res β) : (x >>= f) = f a := by
  rw [h]
  rfl

theorem addrCheck_above {va : Word} (h : 2 ^ 56 ≤ va.toNat) (n : Nat) (lo : Bool) : addrCheck va n lo = .error (.trap 11 va) :=
  if_pos (by simpa [topOk] using h)

/-- Below 2^56 an address is global from 2^55 on (R21). -/
theorem isGlobal_eq {va : Word} (h : va.toNat < 2 ^ 56) : isGlobal va = decide (2 ^ 55 ≤ va.toNat) := by
  rw [isGlobal, ← BitVec.testBit_toNat, Nat.testBit_eq_decide_div_mod_eq]
  exact decide_eq_decide.2 (by omega)

theorem addrCheck_of_top {va : Word} (h : va.toNat < 2 ^ 56) (n : Nat) (lo : Bool) : addrCheck va n lo =
    if lo = true ∧ 2 ^ 55 ≤ va.toNat then .error (.trap 11 va) else if va.toNat % n ≠ 0 then .error (.trap 12 va) else .ok () := by
  rw [addrCheck, topOk, isGlobal_eq h, decide_eq_true h]
  simp

theorem addrCheck_global {va : Word} (h : 2 ^ 55 ≤ va.toNat) (n : Nat) : addrCheck va n true = .error (.trap 11 va) := by
  by_cases htop : va.toNat < 2 ^ 56
  · rw [addrCheck_of_top htop, if_pos ⟨rfl, h⟩]
  · exact addrCheck_above (by omega) n true

theorem addrCheck_misaligned {va : Word} {n : Nat} {lo : Bool} (h : va.toNat < 2 ^ 56) (hlo : lo = true → va.toNat < 2 ^ 55)
    (hn : va.toNat % n ≠ 0) : addrCheck va n lo = .error (.trap 12 va) := by
  rw [addrCheck_of_top h, if_neg (fun hg => absurd (hlo hg.1) (by omega)), if_pos hn]

theorem addrCheck_localAddr {va : Word} {n : Nat} (h : localAddr va n) (lo : Bool) : addrCheck va n lo = .ok () := by
  obtain ⟨hloc, hn⟩ := h
  rw [addrCheck_of_top (by omega), if_neg (by omega), if_neg (by omega)]

theorem inWindow_iff {va : Nat} : inWindow va = true ↔ spBase ≤ va ∧ va < spBase + spSize := decide_eq_true_iff

theorem inWindow_local {va : Nat} (h : inWindow va = true) : va < 2 ^ 55 := by
  have hend := (inWindow_iff.1 h).2
  simp only [spBase, spSize] at hend
  omega

theorem widthBytes_dvd_spBase (w : Width) : widthBytes w ∣ spBase := by
  cases w <;> decide

/-- The window address of an offset within the scratchpad (R251). -/
theorem spAddr_toNat {o : Word} (h : o.toNat < 2 ^ 21) : (BitVec.ofNat 64 spBase + o).toNat = spBase + o.toNat := by
  simp only [BitVec.toNat_add, BitVec.toNat_ofNat, spBase]
  omega

theorem spAddr_beyond {o : Word} (h : 2 ^ 21 ≤ o.toNat) (w : Width) : spAddr o w = .error (.trap 11 o) := if_pos h

theorem spAddr_misaligned {o : Word} {w : Width} (h : o.toNat < 2 ^ 21) (hn : o.toNat % widthBytes w ≠ 0) :
    spAddr o w = .error (.trap 12 (BitVec.ofNat 64 spBase + o)) := by
  have hva := spAddr_toNat h
  have hmis : (BitVec.ofNat 64 spBase + o).toNat % widthBytes w ≠ 0 := by
    rwa [hva, Nat.add_mod, Nat.mod_eq_zero_of_dvd (widthBytes_dvd_spBase w), Nat.zero_add, Nat.mod_mod]
  have hlt : (BitVec.ofNat 64 spBase + o).toNat < 2 ^ 56 := by
    rw [hva, spBase]
    omega
  rw [spAddr, if_neg (by omega)]
  exact Res.error_bind (addrCheck_misaligned hlt (fun hlo => absurd hlo (by decide)) hmis) _

end Sys2Proof.Machine

/-! ### Instructions whose operands are read -/

namespace Sys2Proof.Machine

theorem readXs_cons {f : Nat} {a : Src} {l : List Src} {r r' : Rd} {vs : List Word} (h : readXs f (a :: l) r = .ok (vs, r')) :
    ∃ x r₁ xs, vs = x :: xs ∧ readX f a r = .ok (x, r₁) ∧ readXs (f + 1) l r₁ = .ok (xs, r') := by
  obtain ⟨⟨x, r₁⟩, hx, h⟩ := Res.bind_ok h
  obtain ⟨⟨xs, r₂⟩, hxs, h⟩ := Res.bind_ok h
  cases h
  exact ⟨x, r₁, xs, rfl, hx, hxs⟩

theorem State.operands_pair {s u : State} {g : Guard} {a b : Src} {vs : List Word} (h : s.operands g [a, b] vs u) :
    s.guardTrue g = .ok true ∧ ∃ x y r₁ r₂, vs = [x, y] ∧ readX 0 a s.rd = .ok (x, r₁) ∧ readX 1 b r₁ = .ok (y, r₂) ∧
      u = r₂.s.killXs [a, b] := by
  obtain ⟨hg, r, hr, hu⟩ := h
  obtain ⟨x, r₁, _, rfl, hx, hr⟩ := readXs_cons hr
  obtain ⟨y, r₂, _, rfl, hy, hr⟩ := readXs_cons hr
  cases hr
  exact ⟨hg, x, y, r₁, r, rfl, hx, hy, hu⟩

theorem State.operands_triple {s u : State} {g : Guard} {a b c : Src} {vs : List Word} (h : s.operands g [a, b, c] vs u) :
    s.guardTrue g = .ok true ∧ ∃ x y z r₁ r₂ r₃, vs = [x, y, z] ∧ readX 0 a s.rd = .ok (x, r₁) ∧ readX 1 b r₁ = .ok (y, r₂) ∧
      readX 2 c r₂ = .ok (z, r₃) ∧ u = r₃.s.killXs [a, b, c] := by
  obtain ⟨hg, r, hr, hu⟩ := h
  obtain ⟨x, r₁, _, rfl, hx, hr⟩ := readXs_cons hr
  obtain ⟨y, r₂, _, rfl, hy, hr⟩ := readXs_cons hr
  obtain ⟨z, r₃, _, rfl, hz, hr⟩ := readXs_cons hr
  cases hr
  exact ⟨hg, x, y, z, r₁, r₂, r, rfl, hx, hy, hz, hu⟩

/-- Under a true guard, an issue that reads two fields and makes the kills goes on with the values. -/
theorem State.issue_pair {s u : State} {g : Guard} {a b : Src} {vs : List Word} (h : s.operands g [a, b] vs u)
    (f : State → Word → Word → Res State) :
    (s.issue g do
      let (x, r) ← readX 0 a s.rd
      let (y, r) ← readX 1 b r
      f (r.s.killXs [a, b]) x y) = s.finish (f u (vs.getD 0 0) (vs.getD 1 0)) := by
  obtain ⟨hg, x, y, r₁, r₂, rfl, hx, hy, rfl⟩ := State.operands_pair h
  exact (State.issue_true hg _).trans (congrArg s.finish ((Res.ok_bind hx _).trans (Res.ok_bind hy _)))

/-- The same for three fields. -/
theorem State.issue_triple {s u : State} {g : Guard} {a b c : Src} {vs : List Word} (h : s.operands g [a, b, c] vs u)
    (f : State → Word → Word → Word → Res State) :
    (s.issue g do
      let (x, r) ← readX 0 a s.rd
      let (y, r) ← readX 1 b r
      let (z, r) ← readX 2 c r
      f (r.s.killXs [a, b, c]) x y z) = s.finish (f u (vs.getD 0 0) (vs.getD 1 0) (vs.getD 2 0)) := by
  obtain ⟨hg, x, y, z, r₁, r₂, r₃, rfl, hx, hy, hz, rfl⟩ := State.operands_triple h
  exact (State.issue_true hg _).trans
    (congrArg s.finish ((Res.ok_bind hx _).trans ((Res.ok_bind hy _).trans (Res.ok_bind hz _))))

theorem State.memOp_eq {s u : State} {g : Guard} {b : Src} {vs : List Word} (h : s.operands g [b] vs u) (imm : BitVec 40)
    (f : State → Word → Res State) :
    s.memOp g b imm f = s.finish (f u (baseDisp imm vs) >>= fun t => pure t.advance) := by
  obtain ⟨hg, r, hr, rfl⟩ := h
  obtain ⟨x, r₁, _, rfl, hx, hr⟩ := readXs_cons hr
  cases hr
  exact (State.issue_true hg _).trans (congrArg s.finish (Res.ok_bind hx _))

theorem State.memOpV_eq {s u : State} {g : Guard} {b v : Src} {vs : List Word} (h : s.operands g [b, v] vs u) (imm : BitVec 40)
    (f : State → Word → Word → Res State) :
    s.memOpV g b v imm f = s.finish (f u (baseDisp imm vs) (vs.getD 1 0) >>= fun t => pure t.advance) :=
  State.issue_pair h fun t x y => f t (x + sext40 imm) y >>= fun t => pure t.advance

theorem State.atomOp3_eq {s u : State} {g : Guard} {b v c : Src} {vs : List Word} (h : s.operands g [b, v, c] vs u) (d : Dst)
    (op : AtomOp) (w : Width) (imm : BitVec 40) : s.atomOp3 g d b v c op w imm =
      s.finish (u.atomAt d (baseDisp imm vs) op w (vs.getD 1 0) (vs.getD 2 0) >>= fun t => pure t.advance) :=
  State.issue_triple h fun t x y z => t.atomAt d (x + sext40 imm) op w y z >>= fun t => pure t.advance

/-- LDX and STX add the scaled index to the base (R154). -/
theorem exec_ldx_eq {s u : State} {g : Guard} {b i : Src} {vs : List Word} (h : s.operands g [b, i] vs u) (d : Dst)
    (scale : BitVec 2) (w : Width) (sgn : Bool) : exec (.ldx g d b i scale w sgn) s =
      s.finish (u.loadAt d (vs.getD 0 0 + vs.getD 1 0 <<< scale.toNat) w sgn >>= fun t => pure t.advance) :=
  State.issue_pair h fun t x y => t.loadAt d (x + y <<< scale.toNat) w sgn >>= fun t => pure t.advance

theorem exec_stx_eq {s u : State} {g : Guard} {b i v : Src} {vs : List Word} (h : s.operands g [b, i, v] vs u)
    (scale : BitVec 2) (w : Width) : exec (.stx g b i v scale w) s =
      s.finish (u.storeAt (vs.getD 0 0 + vs.getD 1 0 <<< scale.toNat) w (vs.getD 2 0) >>= fun t => pure t.advance) :=
  State.issue_triple h fun t x y z => t.storeAt (x + y <<< scale.toNat) w z >>= fun t => pure t.advance

end Sys2Proof.Machine

/-! ### Instructions of one address check it before anything else but the fences (R154, R179, R336) -/

namespace Sys2Proof.Machine

section
variable {u : State} {sets : BitVec 5} {va : Word} {e : Stop}

theorem State.holdFor_free (h : u.fenceHolds u.cur sets = false) : u.holdFor sets = .ok () := if_neg (by simp [h])

/-- An access that its address makes local or remote is not held where no fence holds either kind (R326, R336). -/
theorem State.holdFor_setsOf (h : u.fenceHolds u.cur sets = false) (hr : u.fenceHolds u.cur setR = false) (va : Word) :
    u.holdFor (setsOf va sets) = .ok () := by
  unfold setsOf
  split
  · exact State.holdFor_free hr
  · exact State.holdFor_free h

/-- Past the hold of R336, an operation that begins with a check fails as the check does. -/
theorem State.hold_then_error {α β : Type} {hold : Res Unit} (hh : hold = .ok ()) {check : Res α} (he : check = .error e)
    (f : α → Res β) : (hold >>= fun _ => check >>= f) = .error e :=
  (Res.ok_bind hh _).trans (Res.error_bind he f)

theorem State.loadAt_error (h : u.fenceHolds u.cur setL = false) (hr : u.fenceHolds u.cur setR = false) {w : Width}
    (he : addrCheck va (widthBytes w) false = .error e) (d : Dst) (sgn : Bool) : u.loadAt d va w sgn = .error e :=
  State.hold_then_error (State.holdFor_setsOf h hr va) he _

theorem State.storeAt_error (h : u.fenceHolds u.cur setS = false) (hr : u.fenceHolds u.cur setR = false) {w : Width}
    (he : addrCheck va (widthBytes w) false = .error e) (v : Word) : u.storeAt va w v = .error e :=
  State.hold_then_error (State.holdFor_setsOf h hr va) he _

theorem State.syncAt_error (h : u.fenceHolds u.cur sets = false) (he : addrCheck va 8 true = .error e) (d : Dst) (op : RefOp) :
    u.syncAt sets d va op = .error e :=
  State.hold_then_error (State.holdFor_free h) he _

theorem State.syncPlain_error (h : u.fenceHolds u.cur setS = false) (he : addrCheck va 8 true = .error e) (op : RefOp) :
    u.syncPlain va op = .error e :=
  State.hold_then_error (State.holdFor_free h) he _

theorem State.atomAt_error (h : u.fenceHolds u.cur (setL ||| setS) = false) (hr : u.fenceHolds u.cur setR = false) {w : Width}
    (he : addrCheck va (widthBytes w) false = .error e) (d : Dst) (op : AtomOp) (v c : Word) : u.atomAt d va op w v c = .error e :=
  State.hold_then_error (State.holdFor_setsOf h hr va) he _

theorem State.redAt_error (h : u.fenceHolds u.cur setS = false) (hr : u.fenceHolds u.cur setR = false) {w : Width}
    (he : addrCheck va (widthBytes w) false = .error e) (op : AtomOp) (code : BitVec 6) (v : Word) :
    u.redAt va op w code v = .error e :=
  State.hold_then_error (State.holdFor_setsOf h hr va) he _

theorem State.agentAt_error (h : u.fenceHolds u.cur sets = false) (hr : u.fenceHolds u.cur setR = false) {align : Nat}
    (he : agentCheck va align = .error e) (d : Dst) (op : RefOp) (rem probe : RemOp) :
    u.agentAt sets d va align op rem probe = .error e :=
  State.hold_then_error (State.holdFor_setsOf h hr va) he _

end

/-- The checks that an instruction of one address makes of it, in the order of issue: R154's, and the agents' of R179. -/
def AddrForm.check (c : AddrForm) (va : Word) : Res Unit :=
  if c.dram then do
    addrCheck va c.align c.localOnly
    if inWindow va.toNat then .error (.trap 11 va) else pure ()
  else addrCheck va c.align c.localOnly

theorem AddrForm.check_of_addrCheck {c : AddrForm} {va : Word} {e : Stop} (h : addrCheck va c.align c.localOnly = .error e) :
    c.check va = .error e := by
  unfold AddrForm.check
  split
  · exact Res.error_bind h _
  · exact h

theorem AddrForm.check_window {c : AddrForm} {va : Word} (hd : c.dram = true) (ha : va.toNat % c.align = 0)
    (hw : inWindow va.toNat = true) : c.check va = .error (.trap 11 va) := by
  rw [AddrForm.check, if_pos hd, addrCheck_localAddr ⟨inWindow_local hw, ha⟩]
  exact if_pos hw

section
variable {s u : State} {g : Guard} {vs : List Word} {e : Stop}

theorem State.memOp_error {b : Src} (h : s.operands g [b] vs u) {imm : BitVec 40} {f : State → Word → Res State}
    (he : f u (baseDisp imm vs) = .error e) : s.memOp g b imm f = s.finish (.error e) := by
  rw [State.memOp_eq h, Res.error_bind he]

theorem State.memOpV_error {b v : Src} (h : s.operands g [b, v] vs u) {imm : BitVec 40} {f : State → Word → Word → Res State}
    (he : f u (baseDisp imm vs) (vs.getD 1 0) = .error e) : s.memOpV g b v imm f = s.finish (.error e) := by
  rw [State.memOpV_eq h, Res.error_bind he]

theorem exec_tagset_error {b l : Src} (h : s.operands g [b, l] vs u) (hs : u.fenceHolds u.cur setS = false)
    (he : addrCheck (vs.getD 0 0) 8 true = .error e) (d : Dst) (full : Bool) :
    exec (.tagset g d b l full) s = s.finish (.error e) := by
  obtain ⟨hg, x, y, r₁, r₂, rfl, hx, hy, rfl⟩ := State.operands_pair h
  exact (State.issue_true hg _).trans (congrArg s.finish ((Res.ok_bind hx _).trans ((Res.ok_bind hy _).trans
    (State.hold_then_error (State.holdFor_free hs) he _))))

theorem State.atomOp2_error {b v : Src} {w : Width} {imm : BitVec 40} (ho : s.operands g [b, v] vs u)
    (hs : u.fenceHolds u.cur (setL ||| setS) = false) (hr : u.fenceHolds u.cur setR = false)
    (he : addrCheck (baseDisp imm vs) (widthBytes w) false = .error e) (d : Dst) (op : AtomOp) :
    s.atomOp2 g d b v op w imm = s.finish (.error e) :=
  State.memOpV_error ho (State.atomAt_error hs hr he d op _ _)

theorem State.atomOp3_error {b v c : Src} {w : Width} {imm : BitVec 40} (ho : s.operands g [b, v, c] vs u)
    (hs : u.fenceHolds u.cur (setL ||| setS) = false) (hr : u.fenceHolds u.cur setR = false)
    (he : addrCheck (baseDisp imm vs) (widthBytes w) false = .error e) (d : Dst) (op : AtomOp) :
    s.atomOp3 g d b v c op w imm = s.finish (.error e) := by
  rw [State.atomOp3_eq ho, State.atomAt_error hs hr he]
  rfl

theorem State.redOp_error {b v : Src} {w : Width} {imm : BitVec 40} (ho : s.operands g [b, v] vs u)
    (hs : u.fenceHolds u.cur setS = false) (hr : u.fenceHolds u.cur setR = false)
    (he : addrCheck (baseDisp imm vs) (widthBytes w) false = .error e) (op : AtomOp) (code : BitVec 6) :
    s.redOp g b v op w code imm = s.finish (.error e) :=
  State.memOpV_error ho (State.redAt_error hs hr he op code _)

theorem State.mcasOp_error {b : Src} {n : Nat} {imm : BitVec 40} (ho : s.operands g [b] vs u)
    (hs : u.fenceHolds u.cur (setL ||| setS) = false) (he : addrCheck (baseDisp imm vs) (32 * n) true = .error e) (d : Dst) :
    s.mcasOp g d b n imm = s.finish (.error e) :=
  State.memOp_error ho (State.hold_then_error (State.holdFor_free hs) he _)

/-- The checks of the address that an instruction of `localRef` makes. -/
def LocalRef.addr (r : LocalRef) : AddrForm := ⟨r.g, r.srcs, r.sets, r.va, r.align, addrForm.here (r.op []), r.dram⟩

theorem exec_localRef_error {i : Instr} {r : LocalRef} (hi : localRef i = some r) (ho : s.operands r.g r.srcs vs u)
    (hs : u.fenceHolds u.cur r.sets = false) (hr : u.fenceHolds u.cur setR = false)
    (he : r.addr.check (r.va vs) = .error e) : exec i s = s.finish (.error e) := by
  unfold localRef at hi
  split at hi <;> cases hi
  -- LDF, LDFE, STEF, STF, PURGE and TAGRD
  case h_1 =>
    show execLdf _ _ _ _ _ = _
    exact State.memOp_error ho (State.syncAt_error hs he _ _)
  case h_2 =>
    show execLdfe _ _ _ _ _ = _
    exact State.memOp_error ho (State.syncAt_error hs he _ _)
  case h_3 =>
    show execStef _ _ _ _ _ _ = _
    exact State.memOpV_error ho (State.syncAt_error hs he _ _)
  case h_4 =>
    show execStf _ _ _ _ _ = _
    exact State.memOpV_error ho (State.syncPlain_error hs he _)
  case h_5 =>
    show execPurge _ _ _ _ = _
    exact State.memOp_error ho (State.syncPlain_error hs he _)
  case h_6 =>
    show execTagrd _ _ _ _ _ _ = _
    exact State.memOp_error ho (State.hold_then_error (State.holdFor_free hs) he _)
  -- the returning atomics: of one data operand, then ACAS and AFAB
  case h_7 | h_8 | h_9 | h_10 | h_11 | h_12 | h_13 | h_15 | h_16 => exact State.atomOp2_error ho hs hr he _ _
  case h_14 | h_17 => exact State.atomOp3_error ho hs hr he _ _
  -- the reductions
  case h_18 | h_19 | h_20 | h_21 | h_22 | h_23 | h_24 => exact State.redOp_error ho hs hr he _ _
  -- MCAS2, MCAS4, ENQ and CHASE
  case h_25 => exact State.mcasOp_error (n := 2) ho hs he _
  case h_26 => exact State.mcasOp_error (n := 4) ho hs he _
  case h_27 =>
    show execEnq _ _ _ _ _ _ = _
    exact State.memOpV_error ho (State.agentAt_error hs hr he _ _ _ _)
  case h_28 =>
    show execChase _ _ _ _ _ _ _ = _
    exact State.memOpV_error ho (State.agentAt_error hs hr he _ _ _ _)

end

end Sys2Proof.Machine

namespace Sys2Proof.Machine

section
variable {s u : State} {vs : List Word} {e : Stop}

theorem exec_addrForm_error {i : Instr} {c : AddrForm} (hi : addrForm i = some c) (ho : s.operands c.g c.srcs vs u)
    (hs : u.fenceHolds u.cur c.sets = false) (hr : u.fenceHolds u.cur setR = false) (he : c.check (c.va vs) = .error e) :
    exec i s = s.finish (.error e) := by
  unfold addrForm at hi
  split at hi
  case h_1 =>
    cases hi
    show execLd _ _ _ _ _ _ _ = _
    exact State.memOp_error ho (State.loadAt_error hs hr he _ _)
  case h_2 =>
    cases hi
    rw [exec_ldx_eq ho, Res.error_bind (State.loadAt_error hs hr he _ _)]
  case h_3 =>
    cases hi
    show execSt _ _ _ _ _ _ = _
    exact State.memOpV_error ho (State.storeAt_error hs hr he _)
  case h_4 =>
    cases hi
    rw [exec_stx_eq ho, Res.error_bind (State.storeAt_error hs hr he _)]
  case h_5 =>
    cases hi
    exact exec_tagset_error ho hs he _ _
  case h_6 =>
    obtain ⟨r, href, rfl⟩ := Option.map_eq_some_iff.1 hi
    exact exec_localRef_error href ho hs hr he

/-- The traps of the one address, by the values of its checks. -/
theorem exec_addrForm_checks {i : Instr} {c : AddrForm} (hi : addrForm i = some c) (ho : s.operands c.g c.srcs vs u)
    (hs : u.fenceHolds u.cur c.sets = false) (hr : u.fenceHolds u.cur setR = false) :
    let va := c.va vs
    (2 ^ 56 ≤ va.toNat → exec i s = s.finish (.error (.trap 11 va))) ∧
    (c.localOnly = true → 2 ^ 55 ≤ va.toNat → exec i s = s.finish (.error (.trap 11 va))) ∧
    (va.toNat < 2 ^ 56 → (c.localOnly = true → va.toNat < 2 ^ 55) → va.toNat % c.align ≠ 0 →
      exec i s = s.finish (.error (.trap 12 va))) ∧
    (c.dram = true → va.toNat % c.align = 0 → inWindow va.toNat = true → exec i s = s.finish (.error (.trap 11 va))) := by
  have fails {e : Stop} (he : c.check (c.va vs) = .error e) := exec_addrForm_error hi ho hs hr he
  exact ⟨fun h => fails (AddrForm.check_of_addrCheck (addrCheck_above h _ _)),
    fun hl h => fails (AddrForm.check_of_addrCheck (hl ▸ addrCheck_global h _)),
    fun h hl hn => fails (AddrForm.check_of_addrCheck (addrCheck_misaligned h hl hn)),
    fun hd ha hw => fails (AddrForm.check_window hd ha hw)⟩

/-! ### PARK, FOLD, SPLD and SPST (R91, R169, R251) -/

theorem State.guardTrap_clear (h : s.guardClear) : s.guardTrap = .ok () :=
  if_neg fun ⟨hc, hi⟩ => h.elim hc fun h => absurd (h.symm.trans hi) (by decide)

/-- PARK checks its word, then its leaf (log entry 63). -/
theorem exec_park_error {g : Guard} {b leaf ev : Src} {x : Bool} {regs : BitVec 36} {wa va ew : Word} (hg : s.guardClear)
    (ho : s.operands g [b, leaf, ev] [wa, va, ew] u)
    (he : (addrCheck wa 8 true >>= fun _ => addrCheck va (if x then 128 else 64) true) = .error e) :
    exec (.park g b leaf ev x regs) s = s.finish (.error e) := by
  obtain ⟨ht, _, _, _, r₁, r₂, r₃, hvs, hx, hy, hz, -⟩ := State.operands_triple ho
  cases hvs
  refine (State.issue_true ht _).trans (congrArg s.finish ((Res.ok_bind (State.guardTrap_clear hg) _).trans
    ((Res.ok_bind hx _).trans ((Res.ok_bind hy _).trans ((Res.ok_bind hz _).trans ?_)))))
  exact (bind_assoc _ _ _).symm.trans (Res.error_bind he _)

/-- FOLD checks its leaf, then its extension where it has one. -/
theorem exec_fold_error {g : Guard} {leaf ev ext : Src} {x : Bool} {regs : BitVec 36} {va ew xa : Word} (hg : s.guardClear)
    (ho : s.operands g [leaf, ev, ext] [va, ew, xa] u)
    (he : (addrCheck va 64 true >>= fun _ => if x then addrCheck xa 64 true else pure ()) = .error e) :
    exec (.fold g leaf ev ext x regs) s = s.finish (.error e) := by
  obtain ⟨ht, _, _, _, r₁, r₂, r₃, hvs, hx, hy, hz, -⟩ := State.operands_triple ho
  cases hvs
  refine (State.issue_true ht _).trans (congrArg s.finish ((Res.ok_bind (State.guardTrap_clear hg) _).trans
    ((Res.ok_bind hx _).trans ((Res.ok_bind hy _).trans ((Res.ok_bind hz _).trans ?_)))))
  cases x with
  | false => exact Res.error_bind (bind_pure_unit.symm.trans he) _
  | true => exact (bind_assoc _ _ _).symm.trans (Res.error_bind he _)

theorem exec_park_checks {g : Guard} {b leaf ev : Src} {x : Bool} {regs : BitVec 36} {wa va ew : Word} (hg : s.guardClear)
    (ho : s.operands g [b, leaf, ev] [wa, va, ew] u) :
    (2 ^ 55 ≤ wa.toNat → exec (.park g b leaf ev x regs) s = s.finish (.error (.trap 11 wa))) ∧
    (wa.toNat < 2 ^ 55 → wa.toNat % 8 ≠ 0 → exec (.park g b leaf ev x regs) s = s.finish (.error (.trap 12 wa))) ∧
    (localAddr wa 8 → 2 ^ 55 ≤ va.toNat → exec (.park g b leaf ev x regs) s = s.finish (.error (.trap 11 va))) ∧
    (localAddr wa 8 → va.toNat < 2 ^ 55 → va.toNat % (if x then 128 else 64) ≠ 0 →
      exec (.park g b leaf ev x regs) s = s.finish (.error (.trap 12 va))) := by
  have word {e : Stop} (he : addrCheck wa 8 true = .error e) :=
    exec_park_error (x := x) (regs := regs) hg ho (Res.error_bind he _)
  have leaf {e : Stop} (hw : localAddr wa 8) (he : addrCheck va (if x then 128 else 64) true = .error e) :=
    exec_park_error (regs := regs) hg ho ((Res.ok_bind (addrCheck_localAddr hw true) _).trans he)
  exact ⟨fun h => word (addrCheck_global h 8), fun h hn => word (addrCheck_misaligned (by omega) (fun _ => h) hn),
    fun hw h => leaf hw (addrCheck_global h _), fun hw h hn => leaf hw (addrCheck_misaligned (by omega) (fun _ => h) hn)⟩

theorem exec_fold_checks {g : Guard} {leaf ev ext : Src} {x : Bool} {regs : BitVec 36} {va ew xa : Word} (hg : s.guardClear)
    (ho : s.operands g [leaf, ev, ext] [va, ew, xa] u) :
    (2 ^ 55 ≤ va.toNat → exec (.fold g leaf ev ext x regs) s = s.finish (.error (.trap 11 va))) ∧
    (va.toNat < 2 ^ 55 → va.toNat % 64 ≠ 0 → exec (.fold g leaf ev ext x regs) s = s.finish (.error (.trap 12 va))) ∧
    (x = true → localAddr va 64 → 2 ^ 55 ≤ xa.toNat → exec (.fold g leaf ev ext x regs) s = s.finish (.error (.trap 11 xa))) ∧
    (x = true → localAddr va 64 → xa.toNat < 2 ^ 55 → xa.toNat % 64 ≠ 0 →
      exec (.fold g leaf ev ext x regs) s = s.finish (.error (.trap 12 xa))) := by
  have leaf {e : Stop} (he : addrCheck va 64 true = .error e) :=
    exec_fold_error (x := x) (regs := regs) hg ho (Res.error_bind he _)
  have ext {e : Stop} (hx : x = true) (hv : localAddr va 64) (he : addrCheck xa 64 true = .error e) :=
    exec_fold_error (x := x) (regs := regs) hg ho ((Res.ok_bind (addrCheck_localAddr hv true) _).trans ((if_pos hx).trans he))
  exact ⟨fun h => leaf (addrCheck_global h 64), fun h hn => leaf (addrCheck_misaligned (by omega) (fun _ => h) hn),
    fun hx hv h => ext hx hv (addrCheck_global h 64),
    fun hx hv h hn => ext hx hv (addrCheck_misaligned (by omega) (fun _ => h) hn)⟩

theorem exec_spld_error {g : Guard} {b : Src} {w : Width} {imm : BitVec 40} (ho : s.operands g [b] vs u)
    (hs : u.fenceHolds u.cur setL = false) (he : spAddr (baseDisp imm vs) w = .error e) (d : Dst) (sgn : Bool) :
    exec (.spld g d b w sgn imm) s = s.finish (.error e) := by
  show execSpld _ _ _ _ _ _ _ = _
  exact State.memOp_error ho (State.hold_then_error (State.holdFor_free hs) he _)

theorem exec_spst_error {g : Guard} {b v : Src} {w : Width} {imm : BitVec 40} (ho : s.operands g [b, v] vs u)
    (hs : u.fenceHolds u.cur setS = false) (he : spAddr (baseDisp imm vs) w = .error e) :
    exec (.spst g b v w imm) s = s.finish (.error e) := by
  show execSpst _ _ _ _ _ _ = _
  exact State.memOpV_error ho (State.hold_then_error (State.holdFor_free hs) he _)

end

end Sys2Proof.Machine

/-! ### Translation at issue (R21, R385, R386, R388) -/

namespace Sys2Proof.Machine

theorem denies_iff {e : TlbEntry} {r w : Bool} : denies e r w = true ↔ (r = true ∧ e.r = false) ∨ (w = true ∧ e.w = false) := by
  simp [denies]

section
variable {s : State} {va : Word} {r w : Bool}

theorem State.reach_deny (h : s.locate s.cur va.toNat r w = .deny) : s.reach va r w = .error (.trap 13 va) := by
  rw [State.reach, h]

theorem State.reach_walk (h : s.locate s.cur va.toNat r w = .walk) : s.reach va r w = .error (.walk {
    slot := s.cur, gen := s.me.gen, space := (s.slotSet s.cur).space, va := va.toNat }) := by
  rw [State.reach, h]

theorem State.reach_ok (hd : s.locate s.cur va.toNat r w ≠ .deny) (hw : s.locate s.cur va.toNat r w ≠ .walk) :
    s.reach va r w = .ok (s.locate s.cur va.toNat r w) := by
  unfold State.reach
  split
  · contradiction
  · contradiction
  · rfl

end

section
variable (s : State) (k : Nat) {va : Nat} (r w : Bool)

theorem State.locate_window (h : inWindow va = true) : s.locate k va r w =
    .home (spHome (quireOf (coreOf k)) (va - spBase)) (isleOf (coreOf k)) := if_pos h

theorem State.locate_held (h : inWindow va = false) {e : TlbEntry}
    (he : tlbFind (s.core (coreOf k)).tlb (s.slotSet k).space va = some e) : s.locate k va r w =
      if denies e r w then .deny else .home (e.pa + (va - e.va)) (s.isleOfPa e (e.pa + (va - e.va))) := by
  simp [State.locate, h, he]

theorem State.locate_fault (h : inWindow va = false) (hc : tlbFind (s.core (coreOf k)).tlb (s.slotSet k).space va = none)
    (hi : tlbFind (s.isle (isleOf (coreOf k))).tlb (s.slotSet k).space va = none) (n : Nat)
    (hf : (s.isle (isleOf (coreOf k))).findFault (s.slotSet k).space (pageOf va) = some n) :
    s.locate k va r w = .fault (isleOf (coreOf k)) n := by
  simp [State.locate, h, hc, hi, hf]

end

/-- Settles O25: an instruction whose address fails its check fails as the check does, and a reference that passes goes where its
core's translations, or the fault table of its isle, lead. -/
theorem addressesAndTranslation : Obligations.AddressesAndTranslation := by
  unfold Obligations.AddressesAndTranslation
  refine ⟨⟨fun i c vs s u => exec_addrForm_checks, ?_, ?_⟩, fun s va r w =>
    ⟨State.reach_deny, fun h => ⟨_, State.reach_walk h, rfl, rfl, rfl, rfl⟩, fun l h hd hw => ?_, State.locate_window s s.cur r w,
      fun e h he => ?_, fun n h hc hi => State.locate_fault s s.cur r w h hc hi n⟩⟩
  · intro i g b leaf ev ext x regs wa va ew xa s u hg
    exact ⟨fun hi ho => hi ▸ exec_park_checks hg ho, fun hi ho => hi ▸ exec_fold_checks hg ho⟩
  · intro i g d b v w sgn imm vs s u hi
    have fails {e : Stop} (he : spAddr (baseDisp imm vs) w = .error e) : exec i s = s.finish (.error e) := by
      rcases hi with ⟨rfl, ho, hs⟩ | ⟨rfl, ho, hs⟩
      · exact exec_spld_error ho hs he d sgn
      · exact exec_spst_error ho hs he
    exact ⟨fun h => fails (spAddr_beyond h w), fun h hn => fails (spAddr_misaligned h hn)⟩
  · subst h
    exact State.reach_ok hd hw
  · simp only [← denies_iff]
    exact State.locate_held s s.cur r w h he

end Sys2Proof.Machine

/-! ### Integer values as operations on bit vectors (R108, R112, R113, R115) -/

namespace Sys2Proof.Machine

theorem setWidth_eq_ofInt (n : Nat) (x : Word) : x.setWidth n = BitVec.ofInt n x.toNat := by
  rw [BitVec.ofInt_natCast, BitVec.ofNat_toNat]

/-- The high half of a product: the quotient that rounds down is the upper half of the double-width product (R108). -/
theorem ofInt_mul_high (a b : Int) :
    BitVec.ofInt 64 (a * b / 2 ^ 64) = ((BitVec.ofInt 128 a * BitVec.ofInt 128 b) >>> 64).setWidth 64 := by
  rw [← BitVec.ofInt_mul]
  apply BitVec.eq_of_toNat_eq
  simp only [BitVec.toNat_setWidth, BitVec.toNat_ushiftRight, BitVec.toNat_ofInt, Nat.shiftRight_eq_div_pow]
  omega

theorem mulHigh_s (x y : Word) : mulHigh .s x y = ((x.signExtend 128 * y.signExtend 128) >>> 64).setWidth 64 :=
  ofInt_mul_high x.toInt y.toInt

theorem mulHigh_u (x y : Word) : mulHigh .u x y = ((x.setWidth 128 * y.setWidth 128) >>> 64).setWidth 64 := by
  rw [setWidth_eq_ofInt, setWidth_eq_ofInt]
  exact ofInt_mul_high x.toNat y.toNat

theorem mulHigh_su (x y : Word) : mulHigh .su x y = ((x.signExtend 128 * y.setWidth 128) >>> 64).setWidth 64 := by
  rw [setWidth_eq_ofInt]
  exact ofInt_mul_high x.toInt y.toNat

theorem amount_eq (b : Word) : amount b = b.toNat % 64 := by
  simp [amount]

theorem rotr_eq_rotateRight (x : Word) {n : Nat} (h : n < 64) : rotr x n = x.rotateRight n := by
  rw [BitVec.rotateRight_def, Nat.mod_eq_of_lt h, rotr]
  split
  · next h0 => simp [h0]
  · rfl

theorem rotr_amount (x y : Word) : rotr x (amount y) = x.rotateRight (y.toNat % 64) := by
  rw [amount_eq, rotr_eq_rotateRight x (Nat.mod_lt _ (by decide))]

theorem clz64_eq (x : Word) : clz64 x = if x = 0 then 64 else BitVec.ofNat 64 (63 - Nat.log2 x.toNat) := by
  by_cases h : x = 0
  · rw [h]
    rfl
  · have hn : x.toNat ≠ 0 := fun h0 => h (BitVec.eq_of_toNat_eq h0)
    rw [clz64, bitLen, if_neg hn, if_neg h, Nat.sub_add_eq, Nat.sub_right_comm]

theorem ctzFrom_eq_find? (a n i : Nat) : ctzFrom a n i = ((List.range' i n).find? a.testBit).getD (i + n) := by
  induction n generalizing i with
  | zero => rfl
  | succ n ih =>
    rw [ctzFrom, ih, List.range'_succ, List.find?_cons]
    cases a.testBit i with
    | true => rfl
    | false => simp [Nat.add_comm, Nat.add_left_comm]

theorem ctz64_eq (x : Word) : ctz64 x = BitVec.ofNat 64 (((List.range 64).find? fun i => x.getLsbD i).getD 64) := by
  rw [ctz64, ctzFrom_eq_find?, List.range_eq_range']
  rfl

theorem popCount_eq_length (a n : Nat) : popCount a n = ((List.range n).filter a.testBit).length := by
  induction n with
  | zero => rfl
  | succ n ih =>
    rw [popCount, ih, List.range_succ, List.filter_append, List.length_append]
    cases h : a.testBit n <;> simp [h]

theorem popc64_eq (x : Word) : popc64 x = BitVec.ofNat 64 ((List.range 64).filter fun i => x.getLsbD i).length := by
  rw [popc64, popCount_eq_length]
  rfl

/-- The mask of a field, as a number and as a part of the word of ones, for any length (R113). -/
theorem fieldMask_eq (len pos : Nat) : BitVec.ofNat 64 ((2 ^ len - 1) * 2 ^ pos) =
    ((BitVec.allOnes 64).extractLsb' 0 len).setWidth 64 <<< pos := by
  apply BitVec.eq_of_getLsbD_eq
  intro i hi
  simp only [BitVec.getLsbD_ofNat, Nat.testBit_mul_two_pow, Nat.testBit_two_pow_sub_one, BitVec.getLsbD_shiftLeft,
    BitVec.getLsbD_setWidth, BitVec.getLsbD_extractLsb', BitVec.getLsbD_allOnes, hi, Nat.lt_of_le_of_lt (Nat.sub_le i pos) hi,
    Nat.zero_add, decide_true, Bool.true_and, Bool.and_true, Nat.not_lt, ← decide_not]

theorem insertField_eq (x y : Word) (len pos : Nat) : insertField x y len pos =
    let m := ((BitVec.allOnes 64).extractLsb' 0 len).setWidth 64 <<< pos
    (x &&& ~~~m) ||| ((y <<< pos) &&& m) := by
  rw [insertField, fieldMask_eq]

theorem minMax_false (uns : Bool) (x y : Word) :
    minMax false uns x y = if (if uns then x.ult y else x.slt y) then x else y := by
  show (if (if uns then x.ult y else x.slt y) = false then y else x) = _
  cases (if uns then x.ult y else x.slt y) <;> rfl

theorem minMax_true (uns : Bool) (x y : Word) : minMax true uns x y = if (if uns then x.ult y else x.slt y) then y else x := by
  cases uns <;> rfl

end Sys2Proof.Machine

/-! ### Instructions that compute a word complete with it (R105, R107 to R119) -/

namespace Sys2Proof.Machine

/-- The outcomes `run` complete with what `c` computes, whenever its guard is true, its sources can be read and its destination can
be written. -/
def Calc.Completes (c : Calc) (run : State → Host.Outcome State Fault Refusal) : Prop :=
  ∀ (s u t : State) (vs : List Word), s.running → s.operands c.g c.srcs vs u → u.put c.d (c.value vs) = .ok t →
    run s = .next t.advance

theorem State.finish_put {u t : State} {d : Dst} {v : Word} (h : u.put d v = .ok t) (s : State) :
    s.finish (u.put d v >>= fun t => pure t.advance) = .next t.advance :=
  congrArg s.finish (Res.ok_bind h _)

section
variable {g : Guard} {d : Dst} {a b : Src} {F : Word → Word → Word}

theorem Calc.Completes.congr {G : Word → Word → Word} {srcs : List Src} {run : State → Host.Outcome State Fault Refusal}
    (h : ∀ x y, F x y = G x y) (hF : Calc.Completes ⟨g, d, srcs, F⟩ run) : Calc.Completes ⟨g, d, srcs, G⟩ run :=
  (funext fun x => funext (h x) : F = G) ▸ hF

theorem Calc.Completes.op0 {v : Word} : Calc.Completes ⟨g, d, [], fun _ _ => v⟩ fun s => s.op0 g d v := by
  rintro s u t vs - ⟨hg, r, hr, rfl⟩ hp
  cases hr
  exact (State.issue_true hg _).trans (State.finish_put hp s)

theorem Calc.Completes.op1 {f : Word → Word} : Calc.Completes ⟨g, d, [a], fun x _ => f x⟩ fun s => s.op1 g d a f := by
  rintro s u t vs - ⟨hg, r, hr, rfl⟩ hp
  obtain ⟨x, r₁, _, rfl, hx, hr⟩ := readXs_cons hr
  cases hr
  exact (State.issue_true hg _).trans ((congrArg s.finish (Res.ok_bind hx _)).trans (State.finish_put hp s))

theorem Calc.Completes.op2 : Calc.Completes ⟨g, d, [a, b], F⟩ fun s => s.op2 g d a b F := by
  intro s u t vs _ ho hp
  exact (State.issue_pair ho fun w x y => w.put d (F x y) >>= fun t => pure t.advance).trans (State.finish_put hp s)

/-- An affine instruction whose sources can be read computes on their values, which are pairs of scale 0 (R105, R128). -/
theorem Calc.Completes.affine {srcs : List Src} {f : List (Word × Word) → Option (Word × Word)} (hF : ∀ {vs r r'},
    readXs 0 srcs r = .ok (vs, r') → ∃ sc, f (vs.map fun v => (0, v)) = some (sc, F (vs.getD 0 0) (vs.getD 1 0))) :
    Calc.Completes ⟨g, d, srcs, F⟩ fun s => s.opAffine g d srcs f := by
  rintro s u t vs hs ⟨hg, r, hr, rfl⟩ hp
  obtain ⟨sc, hf⟩ := hF hr
  have hput : s.affine d srcs f = .ok t := (State.affine_plain hs hr hf).trans hp
  exact (State.issue_true hg _).trans (congrArg s.finish (Res.ok_bind hput _))

theorem Calc.Completes.affine1 {f : List (Word × Word) → Option (Word × Word)} (h : ∀ x y, ∃ sc, f [(0, x)] = some (sc, F x y)) :
    Calc.Completes ⟨g, d, [a], F⟩ fun s => s.opAffine g d [a] f :=
  .affine fun hr => by
    obtain ⟨x, _, _, rfl, -, hr⟩ := readXs_cons hr
    cases hr
    exact h x 0

theorem Calc.Completes.affine2 {f : List (Word × Word) → Option (Word × Word)}
    (h : ∀ x y, ∃ sc, f [(0, x), (0, y)] = some (sc, F x y)) :
    Calc.Completes ⟨g, d, [a, b], F⟩ fun s => s.opAffine g d [a, b] f :=
  .affine fun hr => by
    obtain ⟨x, _, _, rfl, -, hr⟩ := readXs_cons hr
    obtain ⟨y, _, _, rfl, -, hr⟩ := readXs_cons hr
    cases hr
    exact h x y

end

/-- Each integer instruction is one of the issue forms, with its value as `intCalc` writes it. -/
theorem intCalc_completes {i : Instr} {c : Calc} (hi : intCalc i = some c) : c.Completes (exec i) := by
  unfold intCalc at hi
  split at hi <;> cases hi
  -- ADD, SUB, MUL and LEA; ADDI, MULI, SHLI and MOV; NEG
  case h_1 | h_3 | h_5 | h_34 => exact .affine2 fun _ _ => ⟨_, rfl⟩
  case h_2 | h_6 | h_17 | h_32 => exact .affine1 fun _ _ => ⟨_, rfl⟩
  case h_4 => exact .congr (fun x _ => (BitVec.zero_sub x).symm) (.affine1 fun _ _ => ⟨_, rfl⟩)
  -- MULH: signed, unsigned, signed by unsigned
  case h_7 => exact .congr mulHigh_s .op2
  case h_8 => exact .congr mulHigh_u .op2
  case h_9 => exact .congr mulHigh_su .op2
  -- AND, OR, XOR and INCW; ANDI, ORI, XORI, SHRI and SRAI
  case h_10 | h_12 | h_14 | h_35 => exact .op2
  case h_11 | h_13 | h_15 | h_19 | h_21 => exact .op1
  -- SHL, SHR, SRA and ROR
  case h_16 => exact .congr (fun x y => congrArg (x <<< ·) (amount_eq y)) .op2
  case h_18 => exact .congr (fun x y => congrArg (x >>> ·) (amount_eq y)) .op2
  case h_20 => exact .congr (fun x y => congrArg x.sshiftRight (amount_eq y)) .op2
  case h_22 => exact .congr rotr_amount .op2
  -- CLZ, CTZ and POPC
  case h_23 => exact .congr (fun x _ => clz64_eq x) .op1
  case h_24 => exact .congr (fun x _ => ctz64_eq x) .op1
  case h_25 => exact .congr (fun x _ => popc64_eq x) .op1
  -- BEXT, BINS, SEXT and ZEXT
  case h_26 => exact .congr (fun _ _ => extLow_eq_extended _ _ _) .op1
  case h_27 => exact .congr (fun x y => insertField_eq x y _ _) .op2
  case h_28 => exact .congr (fun x _ => extLow_eq_extended true x _) .op1
  case h_29 => exact .congr (fun x _ => extLow_eq_extended false x _) .op1
  -- MIN and MAX
  case h_30 => exact .congr (minMax_false _) .op2
  case h_31 => exact .congr (minMax_true _) .op2
  -- MOVI
  case h_33 => exact .op0

/-- Settles O14: every integer instruction issues in one of four forms, each of which completes with its value. -/
theorem integerResults : Obligations.IntegerResults := by
  unfold Obligations.IntegerResults
  intro i s u t c vs hi
  exact intCalc_completes hi s u t vs

end Sys2Proof.Machine

/-! ### CMP and CMPI (R116) -/

namespace Sys2Proof.Machine

section
variable {s u t : State} {g : Guard} {d : Dst} {a b : Src} {e : Stop}

theorem readXs_error_head {f : Nat} {l : List Src} {r : Rd} (h : readX f a r = .error e) : readXs f (a :: l) r = .error e :=
  Res.error_bind h _

theorem readXs_error_tail {f : Nat} {l : List Src} {r r' : Rd} {x : Word} (hx : readX f a r = .ok (x, r'))
    (h : readXs (f + 1) l r' = .error e) : readXs f (a :: l) r = .error e :=
  (Res.ok_bind hx _).trans (Res.error_bind h _)

theorem State.compare_next {srcs : List Src} {vs : List Word} {f : List Word → Bool} (ho : s.operands g srcs vs u)
    (hw : u.writeP d (f vs) = .ok t) : s.compare g d srcs f = .next t.advance := by
  obtain ⟨hg, r, hr, rfl⟩ := ho
  exact (State.issue_true hg _).trans ((congrArg s.finish (Res.ok_bind hr _)).trans (congrArg s.finish (Res.ok_bind hw _)))

theorem State.compare_error {srcs : List Src} (hg : s.guardTrue g = .ok true) (he : readXs 0 srcs s.rd = .error e)
    (f : List Word → Bool) : s.compare g d srcs f = s.finish (.error e) :=
  (State.issue_true hg _).trans (congrArg s.finish (Res.error_bind he _))

theorem exec_cmp_eq (g : Guard) (d : Dst) (a b : Src) (c : Cond) (s : State) : exec (.cmp g d a b c) s =
    s.compare g d [a, b] fun vs => condHolds c (vs.getD 0 0) (vs.getD 1 0) := rfl

theorem exec_cmpi_eq (g : Guard) (d : Dst) (a : Src) (c : Cond) (imm : BitVec 40) (s : State) : exec (.cmpi g d a c imm) s =
    s.compare g d [a] fun vs => condHolds c (vs.getD 0 0) (imm.signExtend 64) := rfl

/-- CMP and CMPI write what their condition says, however it is spelled. -/
theorem exec_compare_next {c : Cond} {x y : Word} {imm : BitVec 40} {holds : Word → Bool} (hc : ∀ z, condHolds c x z = holds z) :
    (s.operands g [a, b] [x, y] u → u.writeP d (holds y) = .ok t → exec (.cmp g d a b c) s = .next t.advance) ∧
    (s.operands g [a] [x] u → u.writeP d (holds (imm.signExtend 64)) = .ok t → exec (.cmpi g d a c imm) s = .next t.advance) := by
  obtain rfl : condHolds c x = holds := funext hc
  rw [exec_cmp_eq, exec_cmpi_eq]
  exact ⟨fun ho hw => State.compare_next ho hw, fun ho hw => State.compare_next ho hw⟩

theorem exec_cmp_error (hg : s.guardTrue g = .ok true) (he : readXs 0 [a, b] s.rd = .error e) (c : Cond) :
    exec (.cmp g d a b c) s = s.finish (.error e) := by
  rw [exec_cmp_eq, State.compare_error hg he]

theorem exec_cmpi_error (hg : s.guardTrue g = .ok true) (he : readXs 0 [a] s.rd = .error e) (c : Cond) (imm : BitVec 40) :
    exec (.cmpi g d a c imm) s = s.finish (.error e) := by
  rw [exec_cmpi_eq, State.compare_error hg he]

end

@[simp] theorem Slot.setPCell_st (t : Slot) (n : Nat) (c : PCell) : (t.setPCell n c).st = t.st := by
  unfold Slot.setPCell
  split <;> rfl

theorem Slot.pCell_setPCell_same {t : Slot} {n : Nat} (c : PCell) (h0 : 0 < n) (hn : n ≤ t.p.length) :
    (t.setPCell n c).pCell n = c := by
  rw [Slot.pCell, Slot.setPCell, if_neg (Nat.ne_of_gt h0), if_neg (Nat.ne_of_gt h0)]
  simp [List.getD_eq_getElem?_getD, List.getElem?_set_self (by omega : n - 1 < t.p.length)]

theorem State.pCell_of_writeP {s t : State} {d : Dst} {v : Bool} (hs : s.running) (h0 : 0 < d.toNat) (hn : d.toNat ≤ s.me.p.length)
    (h : s.writeP d v = .ok t) : t.me.pCell d.toNat = .full v := by
  obtain ⟨hd, -⟩ | ⟨-, rfl⟩ := State.writeP_ok h
  · exact absurd hd (Nat.ne_of_gt h0)
  · have hme : (s.modSlot s.cur fun u => u.setPCell d.toNat (.full v)).me = s.me.setPCell d.toNat (.full v) :=
      s.me_modSlot _ ((Slot.setPCell_st _ _ _).trans hs)
    rw [hme, Slot.pCell_setPCell_same _ h0 hn]

theorem slt_eq_not_sle (x y : Word) : y.slt x = !x.sle y := by
  rw [BitVec.sle_eq_not_slt, Bool.not_not]

theorem ult_eq_not_ule (x y : Word) : y.ult x = !x.ule y := by
  rw [BitVec.ule_eq_not_ult, Bool.not_not]

/-- A reserved value of its own fails the first check of R44, before the operand numbers are looked at. -/
theorem ck_bad {r : Raw} {n : Need} (h : n.bad = true) (i : Instr) : ck r n i = .error .reserved := by
  simp [ck, h]

theorem decodeRaw_cond_reserved {r : Raw} (ho : r.opcode = 0x5F ∨ r.opcode = 0x60)
    (hc : 12 ≤ (r.cmpl.extractLsb' 0 4).toNat) : decodeRaw r = .error .reserved := by
  rcases ho with ho | ho
  · rw [decodeRaw, ho]
    exact ck_bad (decide_eq_true hc) _
  · rw [decodeRaw, ho]
    exact ck_bad (decide_eq_true hc) _

theorem rawOf_cond (w : BitVec 96) : (rawOf w).cmpl.extractLsb' 0 4 = w.extractLsb' 40 4 := by
  apply BitVec.eq_of_getLsbD_eq
  intro i hi
  simp [rawOf, hi, Nat.lt_trans hi (by decide : 4 < 12)]

/-- Settles O17: the conditions agree one by one; a source that fails ends the issue; the predicate written is read back FULL; the
check of the condition's code comes first. -/
theorem compareResults : Obligations.CompareResults := by
  unfold Obligations.CompareResults
  refine ⟨fun g d a b imm c x y s u t => ?_, fun g d a b imm c e s hg => ⟨fun he => ?_, fun x r hx he => ?_⟩,
    fun s t d v hs hp h0 h7 hw => ?_, fun w ho hc => ?_⟩
  · intro holds
    refine exec_compare_next fun z => ?_
    cases c with
    | eq | lt | ltu | le | leu | ntst => rfl
    | ne | tst => exact decide_not
    | ge => exact BitVec.sle_eq_not_slt
    | geu => exact BitVec.ule_eq_not_ult _ _
    | gt => exact slt_eq_not_sle x z
    | gtu => exact ult_eq_not_ule x z
  · exact ⟨exec_cmp_error hg (readXs_error_head he) c, exec_cmpi_error hg (readXs_error_head he) c imm⟩
  · exact exec_cmp_error hg (readXs_error_tail hx (readXs_error_head he)) c
  · exact State.pCell_of_writeP hs h0 (by omega) hw
  · exact decodeRaw_cond_reserved ho ((rawOf_cond w).symm ▸ hc)

end Sys2Proof.Machine

/-! ### SEL (R117) -/

namespace Sys2Proof.Machine

theorem exec_sel_eq (g : Guard) (d : Dst) (a b p : Src) (s : State) : exec (.sel g d a b p) s = (s.issue g do
    let (x, r) ← readX 0 a s.rd
    let (y, r) ← readX 1 b r
    let (c, r) ← readP 2 p r
    let t ← ((r.s.killXs [a, b]).killPs [p]).put d (if c then x else y)
    pure t.advance) := rfl

/-- Settles O18: the three sources are read in field order before the value is chosen. -/
theorem selectResult : Obligations.SelectResult := by
  unfold Obligations.SelectResult
  intro g d a b p s
  rw [exec_sel_eq]
  refine ⟨fun hg => State.issue_false hg _, fun hg => ?_⟩
  rw [State.issue_true hg]
  refine ⟨fun x y c r r' r'' t hx hy hc hp => ?_, fun e hx => ?_, fun x r e hx hy => ?_⟩
  · show _ = s.finish (pure t.advance)
    exact congrArg s.finish ((Res.ok_bind hx _).trans ((Res.ok_bind hy _).trans ((Res.ok_bind hc _).trans (Res.ok_bind hp _))))
  · exact congrArg s.finish (Res.error_bind hx _)
  · exact congrArg s.finish ((Res.ok_bind hx _).trans (Res.error_bind hy _))

end Sys2Proof.Machine

/-! ### VLEASE and VREL (R263 to R265) -/

namespace Sys2Proof.Machine

theorem exec_vlease_eq (g : Guard) (d : Dst) (b : Bool) (s : State) : exec (.vlease g d b) s = execVlease g d b s := rfl

theorem exec_vrel_eq (g : Guard) (s : State) : exec (.vrel g) s = execVrel g s := rfl

theorem leastFrom_eq_find? (q : Nat → Bool) (n i : Nat) : leastFrom q n i = (List.range' i n).find? q := by
  induction n generalizing i with
  | zero => rfl
  | succ n ih =>
    rw [leastFrom, List.range'_succ, List.find?_cons, ih]
    cases q i <;> rfl

theorem Core.freeLease_eq_none {c : Core} (h : ∀ l, l < 16 → l ∈ c.leases) : c.freeLease = none := by
  rw [Core.freeLease, leastFrom_eq_find?, List.find?_range'_eq_none]
  intro l _ hl
  simpa using h l (by omega)

theorem Core.freeLease_eq_some {c : Core} {l : Nat} (hl : l < 16) (hfree : l ∉ c.leases) (hlow : ∀ m, m < l → m ∈ c.leases) :
    c.freeLease = some l := by
  rw [Core.freeLease, leastFrom_eq_find?, List.find?_range'_eq_some]
  refine ⟨by simpa using hfree, by simpa using hl, fun m _ hm => ?_⟩
  simpa using hlow m hm

theorem State.modSlot_congr {s : State} {k : Nat} {f f' : Slot → Slot} (h : f (s.slot k) = f' (s.slot k)) :
    s.modSlot k f = s.modSlot k f' := congrArg (s.setSlot k) h

theorem State.modCore_congr {s : State} {k : Nat} {f f' : Core → Core} (h : f (s.core k) = f' (s.core k)) :
    s.modCore k f = s.modCore k f' := congrArg (s.setCore k) h

section
variable {s t : State} {g : Guard} {d : Dst}

/-- Where no slot waits for a lease of the core, it is every slot's turn. -/
theorem State.leaseTurn_of_nil {k : Nat} (h : (s.core (coreOf k)).leaseWait = []) : s.leaseTurn k = true := by
  rw [State.leaseTurn, h]
  rfl

theorem State.takeLease_of_nil {k : Nat} (h : (s.core (coreOf k)).leaseWait = []) (l : Nat) (v : List VCell) :
    s.takeLease k l v = (s.modCore (coreOf k) fun c => { c with leases := l :: c.leases }).modSlot k fun t =>
      { t with lease := some l, v := v } := by
  rw [State.takeLease, State.modCore_congr]
  rw [h]
  rfl

theorem exec_vlease_held (hg : s.guardTrue g = .ok true) {l : Nat} (hl : s.me.lease = some l)
    (hw : s.put d 0x8000000000000002 = .ok t) (b : Bool) : exec (.vlease g d b) s = .next t.advance := by
  rw [exec_vlease_eq, execVlease, State.issue_true hg, hl]
  exact State.finish_put hw s

theorem exec_vlease_full (hg : s.guardTrue g = .ok true) (hl : s.me.lease = none)
    (hfull : (s.core (coreOf s.cur)).freeLease = none) (hw : s.put d 0x8000000000000001 = .ok t) :
    exec (.vlease g d true) s = .next t.advance := by
  rw [exec_vlease_eq, execVlease, State.issue_true hg]
  simp only [hl, hfull, ite_self]
  exact State.finish_put hw s

theorem exec_vlease_free (hg : s.guardTrue g = .ok true) (hl : s.me.lease = none)
    (hwait : (s.core (coreOf s.cur)).leaseWait = []) {l : Nat} (hfree : (s.core (coreOf s.cur)).freeLease = some l)
    (hw : ((s.modSlot s.cur fun u => { u with vdirty := 0xFFFF }).takeLease s.cur l (List.replicate 16 .dead)).put d
      (BitVec.ofNat 64 l) = .ok t) (b : Bool) : exec (.vlease g d b) s = .next t.advance := by
  rw [exec_vlease_eq, execVlease, State.issue_true hg]
  simp only [hl, hfree, State.leaseTurn_of_nil hwait]
  exact State.finish_put hw s

theorem exec_vrel_none (hg : s.guardTrue g = .ok true) (hl : s.me.lease = none) : exec (.vrel g) s = .next s.advance := by
  rw [exec_vrel_eq, execVrel, State.issue_true hg, hl]
  rfl

theorem exec_vrel_busy (hg : s.guardTrue g = .ok true) {l : Nat} (hl : s.me.lease = some l) (hb : s.me.leaseBusy = true) :
    exec (.vrel g) s = .next (s.modSlot s.cur fun u => { u with wait := .other }) := by
  rw [exec_vrel_eq, execVrel, State.issue_true hg, hl, hb]
  rfl

/-- The issuing slot's v registers are killed, as VREL does it (R264). -/
def State.killLeased (s : State) : State := (List.range 16).foldl (fun t n => t.killReg t.cur (86 + n)) s

/-- The issuing slot's core has lease `l` back, and the slot has none (R264). -/
def State.returnLease (s : State) (l : Nat) : State :=
  (s.modCore (coreOf s.cur) fun c => { c with leases := c.leases.filter (· ≠ l) }).modSlot s.cur fun u => { u with lease := none }

theorem exec_vrel_free (hg : s.guardTrue g = .ok true) {l : Nat} (hl : s.me.lease = some l) (hb : s.me.leaseBusy = false) :
    exec (.vrel g) s = .next (s.killLeased.returnLease l).advance := by
  rw [exec_vrel_eq, execVrel, State.issue_true hg, State.returnLease, State.killLeased]
  simp only [hl, hb, Bool.false_eq_true, if_false]
  -- The two sides agree whatever state the kills leave; without a name for it `rfl` would run them.
  generalize List.foldl _ _ _ = u
  rfl

end

/-! ### What VREL leaves unchanged (R264) -/

/-- `t` issues from the slot that `s` issues from; its tables are canonical, and memory and every other slot are as in `s`. -/
structure State.OwnSlotOnly (s t : State) : Prop where
  cur : t.cur = s.cur
  wf : t.tablesWf = true
  mem : t.mem = s.mem
  slots : s.sameSlotsBut t s.cur

theorem State.slot_modSlot_same {s : State} (h : s.tablesWf = true) (k : Nat) (f : Slot → Slot) :
    (s.modSlot k f).slot k = f (s.slot k) := by
  obtain ⟨_, hslots, _⟩ := s.tablesWf_iff.1 h
  exact tget_tset_same _ _ _ _ hslots

theorem State.core_modCore_same {s : State} (h : s.tablesWf = true) (k : Nat) (f : Core → Core) :
    (s.modCore k f).core k = f (s.core k) := by
  obtain ⟨_, _, hcores, _⟩ := s.tablesWf_iff.1 h
  exact tget_tset_same _ _ _ _ hcores

theorem State.releaseCw_cur (s : State) (k : Nat) (cw : Option Nat) : (s.releaseCw k cw).cur = s.cur := by
  cases cw <;> rfl

theorem State.releaseCw_slot_ne (s : State) (cw : Option Nat) {k j : Nat} (h : j ≠ k) : (s.releaseCw k cw).slot j = s.slot j := by
  cases cw with
  | none => rfl
  | some c => exact s.slot_modSlot_ne k j (fun t => t.dropHolders c .dead .dead) h

theorem State.killReg_v (s : State) (k : Nat) {n : Nat} (hn : n < 16) : s.killReg k (86 + n) =
    (s.modSlot k fun t => t.setVCell n (killCell (t.vCell n)).1).releaseCw k (killCell ((s.slot k).vCell n)).2 := by
  simp [State.killReg, show ¬ 86 + n < 79 by omega, show ¬ 86 + n < 86 by omega, show 86 + n < 102 by omega]

theorem State.killReg_ownSlotOnly {s : State} (h : s.tablesWf = true) {n : Nat} (hn : n < 16) :
    s.OwnSlotOnly (s.killReg s.cur (86 + n)) where
  cur := by rw [State.killReg_v _ _ hn, State.releaseCw_cur, State.modSlot_cur]
  wf := s.killReg_tablesWf _ _ h
  mem := (s.killReg_sameMemory _ _).1
  slots j hj := by rw [State.killReg_v _ _ hn, State.releaseCw_slot_ne _ _ hj, State.slot_modSlot_ne _ _ _ _ hj]

theorem State.OwnSlotOnly.trans {s t u : State} (h : s.OwnSlotOnly t) (h' : t.OwnSlotOnly u) : s.OwnSlotOnly u where
  cur := h'.cur.trans h.cur
  wf := h'.wf
  mem := h'.mem.trans h.mem
  slots j hj := (h'.slots j (h.cur ▸ hj)).trans (h.slots j hj)

theorem State.killLeased_ownSlotOnly {s : State} (h : s.tablesWf = true) : s.OwnSlotOnly s.killLeased := by
  refine List.foldlRecOn (motive := s.OwnSlotOnly) (List.range 16) _ ⟨rfl, h, rfl, fun _ _ => rfl⟩ fun t ht n hn => ?_
  exact ht.trans (State.killReg_ownSlotOnly ht.wf (List.mem_range.1 hn))

theorem State.modSlot_ownSlotOnly {s : State} (h : s.tablesWf = true) (f : Slot → Slot) : s.OwnSlotOnly (s.modSlot s.cur f) :=
  ⟨rfl, s.modSlot_tablesWf _ _ h, rfl, fun _ hj => s.slot_modSlot_ne _ _ _ hj⟩

theorem State.modCore_ownSlotOnly {s : State} (h : s.tablesWf = true) (k : Nat) (f : Core → Core) :
    s.OwnSlotOnly (s.modCore k f) :=
  ⟨rfl, s.modCore_tablesWf _ _ h, rfl, fun _ _ => rfl⟩

theorem State.returnLease_ownSlotOnly {s : State} (h : s.tablesWf = true) (l : Nat) : s.OwnSlotOnly (s.returnLease l) :=
  have hc := State.modCore_ownSlotOnly h (coreOf s.cur) fun c => { c with leases := c.leases.filter (· ≠ l) }
  hc.trans (State.modSlot_ownSlotOnly hc.wf _)

theorem State.returnLease_lease {s : State} (h : s.tablesWf = true) (l : Nat) : (s.returnLease l).me.lease = none :=
  congrArg Slot.lease (State.slot_modSlot_same (s.modCore_tablesWf _ _ h) _ _)

theorem State.returnLease_leases {s : State} (h : s.tablesWf = true) (l : Nat) :
    l ∉ ((s.returnLease l).core (coreOf s.cur)).leases := by
  rw [State.returnLease, State.core_modSlot, State.core_modCore_same h]
  simp

theorem State.advance_lease {s : State} (h : s.tablesWf = true) : s.advance.me.lease = s.me.lease := by
  rw [State.me, State.advance, State.modSlot_cur, State.slot_modSlot_same h]
  rfl

theorem State.advance_ownSlotOnly {s : State} (h : s.tablesWf = true) : s.OwnSlotOnly s.advance :=
  State.modSlot_ownSlotOnly h _

theorem State.advance_core (s : State) (k : Nat) : s.advance.core k = s.core k := rfl

/-- The state that VREL leaves, once the kills have left `t` (R264). -/
theorem State.OwnSlotOnly.returnLease_advance {s t : State} (h : s.OwnSlotOnly t) (l : Nat) :
    (t.returnLease l).advance.me.lease = none ∧ l ∉ ((t.returnLease l).advance.core (coreOf s.cur)).leases ∧
      (t.returnLease l).advance.mem = s.mem ∧ s.sameSlotsBut (t.returnLease l).advance s.cur := by
  have hr := State.returnLease_ownSlotOnly h.wf l
  have ha := h.trans (hr.trans (State.advance_ownSlotOnly hr.wf))
  refine ⟨?_, ?_, ha.mem, ha.slots⟩
  · rw [State.advance_lease hr.wf, State.returnLease_lease h.wf]
  · rw [State.advance_core, ← h.cur]
    exact State.returnLease_leases h.wf l

/-! ### Uses without a lease (R265) -/

theorem State.needLease_ok {s : State} (h : s.me.lease ≠ none) (r : BitVec 6) : s.needLease r = .ok () :=
  if_neg fun hn => h hn.2

theorem State.needLease_error {s : State} (h : s.me.lease = none) {r : BitVec 6} (h0 : 32 ≤ r.toNat) (h1 : r.toNat < 48) :
    s.needLease r = .error (.trap 10 (BitVec.ofNat 64 r.toNat)) :=
  if_pos ⟨decide_eq_true ⟨h0, h1⟩, h⟩

theorem State.v1_error {s : State} {g : Guard} {d : Dst} {e : Stop} (hg : s.guardTrue g = .ok true) (h : s.needLease d = .error e)
    (a : Src) (f : BitVec 4096 → BitVec 4096) : s.v1 g d a f = s.finish (.error e) :=
  (State.issue_true hg _).trans (congrArg s.finish (Res.error_bind h _))

theorem exec_vmov_eq (g : Guard) (d : Dst) (a : Src) (s : State) : exec (.vmov g d a) s = s.v1 g d a id := rfl

end Sys2Proof.Machine

/-! ### Recorded steps of VADD, VSUB and VMUL (R130) -/

namespace Sys2Proof.Machine

section
variable {s : State} {a b : Src} {m : Marks} {y : BitVec 4096}

theorem State.vPend_empty (ht : a.trap = false) (h : s.me.vCell (vNum a.reg) = .empty m) :
    s.vPend a = some (vNum a.reg, m.cw, []) := by
  rw [State.vPend, ht, h]
  rfl

theorem State.vPend_full (h : s.me.vCell (vNum b.reg) = .full y) : s.vPend b = none := by
  rw [State.vPend, h, ite_self]

/-- An EMPTY first operand and a FULL second one: the step that an instruction may record (R130). -/
theorem State.stepFor_first (ht : a.trap = false) (ha : s.me.vCell (vNum a.reg) = .empty m)
    (hb : s.me.vCell (vNum b.reg) = .full y) (op : BitVec 10) (rm : Rnd) (f : Fmt) : s.stepFor op a b rm f =
      some (vNum a.reg, m.cw, [], { opcode := op, second := false, fmt := f, rm := rm, reg := vNum b.reg, val := y }) := by
  rw [State.stepFor, State.vPend_empty ht ha, State.vPend_full hb]
  simp only [hb]
  rfl

theorem State.stepFits_dead {j : Nat} (h : s.me.vCell j = .dead) (n : Nat) : s.stepFits j n = true := by
  rw [State.stepFits, h]

theorem vKills_none (k : Nat) (ha : a.kill = false) (hb : b.kill = false) : vKills k [a, b] = [] := by
  simp [vKills, ha, hb]

/-- A step recorded in a DEAD register that is not held, over an identifier in use (R130). -/
theorem State.recordStep_dead {d : Dst} {c : Nat} (ha : a.kill = false) (hb : b.kill = false) (hd : s.me.vCell (vNum d) = .dead)
    (hh : s.me.held (vNum d) = false) (hc : c ∈ (s.core (coreOf s.cur)).cwUsed) (n : Nat) (steps : List VStep) (st : VStep) :
    s.recordStep d a b n (some c) steps st =
      .ok (s.modSlot s.cur fun t => t.setVCell (vNum d) (.catching c (steps ++ [st]))) := by
  have hu : (s.core (coreOf s.cur)).cwUsed.contains c = true := List.contains_iff_mem.2 hc
  rw [State.recordStep, hd, hh, vKills_none 1 ha hb]
  exact if_pos hu

theorem State.vArith_records {g : Guard} {d : Dst} {f : Fmt} {c : Nat} (hg : s.guardTrue g = .ok true) (hl : s.me.lease ≠ none)
    (hf : isFloat f = true) (ht : a.trap = false) (hka : a.kill = false) (hkb : b.kill = false)
    (ha : s.me.vCell (vNum a.reg) = .empty m) (hm : m.cw = some c) (hc : c ∈ (s.core (coreOf s.cur)).cwUsed)
    (hb : s.me.vCell (vNum b.reg) = .full y) (hd : s.me.vCell (vNum d) = .dead) (hh : s.me.held (vNum d) = false)
    (rm : Rnd) (sat : Bool) (op : BitVec 10) : s.vArith g d a b rm sat f op = .next (s.modSlot s.cur fun t => t.setVCell (vNum d)
      (.catching c [{ opcode := op, second := false, fmt := f, rm := rm, reg := vNum b.reg, val := y }])).advance := by
  rw [State.vArith, State.issue_true hg, State.needLease_ok hl, hf, State.stepFor_first ht ha hb, if_pos rfl, Option.filter_some,
    State.stepFits_dead hd, hm]
  exact congrArg s.finish (Res.ok_bind (State.recordStep_dead hka hkb hd hh hc _ _ _) _)

theorem exec_vadd_eq (g : Guard) (d : Dst) (a b : Src) (rm : Rnd) (sat : Bool) (f : Fmt) (s : State) :
    exec (.vadd g d a b rm sat f) s = s.vArith g d a b rm sat f 0x128 := rfl

theorem exec_vsub_eq (g : Guard) (d : Dst) (a b : Src) (rm : Rnd) (sat : Bool) (f : Fmt) (s : State) :
    exec (.vsub g d a b rm sat f) s = s.vArith g d a b rm sat f 0x129 := rfl

theorem exec_vmul_eq (g : Guard) (d : Dst) (a b : Src) (rm : Rnd) (sat : Bool) (f : Fmt) (s : State) :
    exec (.vmul g d a b rm sat f) s = s.vArith g d a b rm sat f 0x12A := rfl

end

/-! ### An arriving value and its recorded steps (R130, R133) -/

/-- A step whose pending operand was the first, lane by lane. -/
theorem laneOf_replayStep_first {st : VStep} (h : st.second = false) (pend full : BitVec 4096) {i : Nat} (hi : i < lanesOf st.fmt) :
    laneOf (fmtWidth st.fmt) (replayStep st pend full) i = fop (stepOp st.opcode) st.fmt st.rm (laneOf (fmtWidth st.fmt) pend i)
      (laneOf (fmtWidth st.fmt) full i) % 2 ^ fmtWidth st.fmt := by
  rw [replayStep, h]
  exact hasLanes_vecOf _ _ i hi

theorem exec_replyAccept_eq (k : Nat) (s : State) : exec (.replyAccept k) s = execReplyAccept k s := rfl

theorem exec_replyAccept_reg {s : State} {k j : Nat} {r : Reply} (hr : s.replies[k]? = some r) (hacc : r.acc = none)
    (hdst : r.dst = .reg j) (hl : s.lives r.slot r.gen = true) (hf : r.fatal = false) : exec (.replyAccept k) s =
      .next ({ s with replies := lremove s.replies k }.land r.slot j r.value (r.vec.getD 0)) := by
  have hl' : ({ s with replies := lremove s.replies k } : State).lives r.slot r.gen = true := hl
  rw [exec_replyAccept_eq, execReplyAccept, hr]
  simp only [hacc, hl', hdst, hf]
  rfl

theorem State.land_v (s : State) (k : Nat) {n : Nat} (hn : n < 16) (v : Word) (x : BitVec 4096) : s.land k (86 + n) v x =
    (s.modSlot k fun t => t.setVCell n (landCell (t.vCell n) x).1).resolveOpt k (landCell ((s.slot k).vCell n) x).2 0 x := by
  simp [State.land, show ¬ 86 + n < 79 by omega, show ¬ 86 + n < 86 by omega, show 86 + n < 102 by omega]

theorem landCell_awaiting {α τ : Type} {m : Marks} (hm : m.reply = true) (hd : m.drop = false) (x : α) :
    landCell (.empty m : Cell α τ) x = (.full x, m.cw) := by
  simp [landCell, hm, hd]

/-- A value lands in an EMPTY v register that is bound to an identifier: the register is FULL and the identifier resolves (R133). -/
theorem State.land_v_bound {s : State} {k n c : Nat} {m : Marks} (hn : n < 16) (hcell : (s.slot k).vCell n = .empty m)
    (hm : m.reply = true) (hd : m.drop = false) (hcw : m.cw = some c) (v : Word) (x : BitVec 4096) : s.land k (86 + n) v x =
      (s.modSlot k fun t => t.setVCell n (.full x)).resolveCw k c 0 x := by
  have hland : landCell ((s.slot k).vCell n) x = (.full x, some c) := by rw [hcell, landCell_awaiting hm hd, hcw]
  have hslot : (s.modSlot k fun t => t.setVCell n (landCell (t.vCell n) x).1) = s.modSlot k fun t => t.setVCell n (.full x) :=
    State.modSlot_congr (congrArg (fun p => (s.slot k).setVCell n p.1) hland)
  rw [State.land_v s k hn, hland, hslot]
  rfl

/-- Settles O44: VLEASE and VREL by whether the slot holds a lease and the core has one; a step that may be recorded is; a
reply's value lands and resolves the identifier, which takes it through the steps. -/
theorem vectorLeasesAndCatch : Obligations.VectorLeasesAndCatch := by
  unfold Obligations.VectorLeasesAndCatch
  refine ⟨fun g d s t hg => ⟨fun b l hl hw => exec_vlease_held hg hl hw b,
    fun hl _ hall hw => exec_vlease_full hg hl (Core.freeLease_eq_none hall) hw,
    fun b l hl hwait h16 hfree hlow hw => ?_, fun hl => exec_vrel_none hg hl,
    fun l hl hb _ hwf => ⟨_, exec_vrel_free hg hl hb, (State.killLeased_ownSlotOnly hwf).returnLease_advance l⟩,
    fun l hl hb => exec_vrel_busy hg hl hb, fun hl h0 h1 a => ?_⟩,
    ?_, fun st rest v i _ hi => ⟨rfl, fun hop hs => ?_⟩, ?_⟩
  · refine exec_vlease_free hg hl hwait (Core.freeLease_eq_some h16 hfree hlow) ?_ b
    rw [State.takeLease_of_nil (by exact hwait)]
    exact hw
  · rw [exec_vmov_eq, State.v1_error hg (State.needLease_error hl h0 h1)]
  · intro g d a b rm sat f m c y s hg hl hf ht hka hkb ha _ hm hc hb hd hh
    rw [exec_vadd_eq, exec_vsub_eq, exec_vmul_eq]
    have hrec := State.vArith_records hg hl hf ht hka hkb ha hm hc hb hd hh rm sat
    exact ⟨hrec 0x128, hrec 0x129, hrec 0x12A⟩
  · rw [laneOf_replayStep_first hs _ _ hi, hop]
    rfl
  · intro s k n c m r x hr hacc hdst hn hl hf hx hcell hm hd hcw
    rw [exec_replyAccept_reg hr hacc hdst hl hf, hx, State.land_v_bound hn (by exact hcell) hm hd hcw]
    rfl

end Sys2Proof.Machine
